-- ==== Sys2Proof/Word.lean ====
section
/-! DEFINITION. The word types of the Axvor. -/

namespace Sys2Proof

/-- A byte. -/
abbrev Byte := BitVec 8
/-- A register word: registers are 32 bits wide (chapter 00, "Registers"). -/
abbrev W32 := BitVec 32
/-- A 64-bit word: a scalar register of a Pocket (chapter 08). -/
abbrev W64 := BitVec 64
/-- A 128-bit word: a predicate register, or a 128-bit element (chapter 09). -/
abbrev W128 := BitVec 128
/-- A 1,024-bit word: a vector register (chapter 09). -/
abbrev W1024 := BitVec 1024

end Sys2Proof
end

