-- ==== Sys2Proof/Syntax.lean ====
section
/-! DEFINITION. The commands and events of the Axvor, one constructor for each row of spec/opcode_table.json, and the
types of their operands. -/

namespace Sys2Proof

/-- The path by which a register access arrives (R376). -/
inductive Path where
  | portA
  | portB
  | i3c
  deriving DecidableEq, Repr

/-- Who makes a register write (R376): the path, and the function's instance number (0 for function 0 and I3C). -/
structure Writer where
  path : Path
  fn   : Nat
  /-- The byte enables of the word written; a word whose four are not all set is ignored (R368). -/
  enables : Nat := 15
  deriving DecidableEq, Repr

/-- A host port (R2). -/
inductive HostPort where
  | a
  | b
  deriving DecidableEq, Repr

/-- The three operator units of a Panel (chapter 06). -/
inductive OperUnit where
  | hpu
  | pu
  | mn
  deriving DecidableEq, Repr

/-- A mesh direction (R264). -/
inductive Dir where
  | north
  | east
  | south
  | west
  deriving DecidableEq, Repr

/-- The two planes of the mesh. -/
inductive Plane where
  | req
  | rsp
  deriving DecidableEq, Repr

/-- A mesh packet: the header fields of Table 12.1 and its payload bytes. -/
structure Packet where
  dest    : Nat
  src     : Nat
  prio    : Nat
  type    : Nat
  inst    : Nat
  epoch   : Bool
  len     : Nat
  sub     : Nat
  poison  : Bool
  txn     : Nat
  addr    : Nat
  status  : Nat
  payload : List Byte
  deriving DecidableEq, Repr

/-- The consumer of a failed host read (R333, R318). -/
inductive ReadConsumer where
  /-- A fetch of job entries, and one made only to judge a phase under R213. -/
  | jobFetch (inst ring : Nat)
  | phaseJudge (inst ring : Nat)
  /-- A fragment table of the job that holds a tag. -/
  | fragTable (inst tag : Nat)
  /-- A data buffer or fragment table of a Ledger command, by its index among the instance's commands. -/
  | ledger (inst idx : Nat)
  /-- A source read and a descriptor queue read of a Bulk Mover channel. -/
  | bmSource (ch : Nat)
  | bmQueue (ch : Nat)
  /-- A data read of a digest context. -/
  | digest (ctx : Nat)
  deriving DecidableEq, Repr

/-- How a host read failed (R333). -/
inductive ReadCause where
  | timeout
  | ur
  | ca
  | poison
  deriving DecidableEq, Repr

/-- What is attached to port C or D (R338). -/
inductive Attached where
  /-- A directly attached Type 3 memory device. -/
  | memory
  | type1
  | type2
  | switch
  | multiLogical
  | pcieOnly
  deriving DecidableEq, Repr

/-- A common command code on the I3C bus (Table 15.4), with what it carries: event bits for ENEC and DISEC, dynamic
addresses, the static address that SETDASA names, lengths, and the code of one that is not supported. -/
inductive Ccc where
  | enec (events : Nat)
  | disec (events : Nat)
  | rstdaa
  | entdaa (addr : Nat)
  | setaasa
  | setdasa (static addr : Nat)
  | setnewda (addr : Nat)
  | setmwl (n : Nat)
  | setmrl (n : Nat)
  | getmwl
  | getmrl
  | getpid
  | getbcr
  | getdcr
  | getstatus
  | getmxds
  | getcaps
  | enthdr0
  /-- The HDR exit pattern that ends HDR-DDR. -/
  | exitHdr
  /-- RSTACT with the reset action it sets, and its direct read. -/
  | rstact (action : Nat)
  | rstactRead
  | entas (k : Nat)
  | unsupported (code : Nat)
  deriving DecidableEq, Repr

/-- The commands and events of the block, one constructor for each row of spec/opcode_table.json, in its order. -/
inductive Instr where
  /-- SEAM (R22). -/
  | seam
  /-- SEAM_IN_EDGE (R19). -/
  | seamInEdge
  /-- HOLDOVER_TICK (R19). -/
  | holdoverTick
  /-- SEAM_PERIOD_WRITE (R16). -/
  | seamPeriodWrite (w : Writer) (v : W32)
  /-- SEAM_TOL_WRITE (R19). -/
  | seamTolWrite (w : Writer) (v : W32)
  /-- SEAM_NUM_LO_READ (R21). -/
  | seamNumLoRead (p : Path)
  /-- SEAM_NUM_LOAD_ARM (R21). -/
  | seamNumLoadArm (w : Writer) (v : W32)
  /-- SCHED_CTRL_WRITE (R39). -/
  | schedCtrlWrite (w : Writer) (v : W32)
  /-- TASK_CREATE (R35). -/
  | taskCreate (job : Nat)
  /-- DECREMENT (R36). -/
  | decrement (panel : Nat)
  /-- DISPATCH (R38). -/
  | dispatch (pocket : Nat)
  /-- STEAL_PROBE (R39). -/
  | stealProbe (panel : Nat)
  /-- CUT_TRAP (R176). -/
  | cutTrap (pocket : Nat)
  /-- SAVE_COMPLETE (R25). -/
  | saveComplete (pocket : Nat)
  /-- SHARE_SPENT (R72). -/
  | shareSpent (inst : Nat)
  /-- PATTERN_LOAD (R47). -/
  | patternLoad (w : Writer) (inst : Nat)
  /-- PATTERN_LOAD_DONE (R63). -/
  | patternLoadDone (inst : Nat)
  /-- RETIRE (R47). -/
  | retire (w : Writer) (inst : Nat)
  /-- CUFF_WRITE (R73). -/
  | cuffWrite (w : Writer) (inst : Nat) (off : Nat) (v : W32)
  /-- COMPACT (R102). -/
  | compact (job : Nat)
  /-- REENCODE (R102). -/
  | reencode (job : Nat)
  /-- PACK_OPEN (R93). -/
  | packOpen (unit : Nat)
  /-- PACK_APPEND (R93). -/
  | packAppend (unit : Nat)
  /-- PACK_CLOSE (R93). -/
  | packClose (unit : Nat)
  /-- PACK_SAVE (R93). -/
  | packSave (unit : Nat)
  /-- PACK_RESTORE (R97). -/
  | packRestore (unit : Nat)
  /-- PACK_RECOVER (R93). -/
  | packRecover (unit : Nat)
  /-- PACK_ABANDON (R98). -/
  | packAbandon (unit : Nat)
  /-- SCAN (R108). -/
  | scan (sf : Nat) (lanes : Nat)
  /-- SCAN_RESUME (R120). -/
  | scanResume (sf : Nat) (lanes : Nat)
  /-- SCAN_ABANDON (R122). -/
  | scanAbandon (sf : Nat)
  /-- HPU_INSERT (R135). -/
  | hpuInsert (panel : Nat) (items : Nat)
  /-- PROBE (R134). -/
  | probe (panel : Nat) (items : Nat)
  /-- GROUP (R137). -/
  | group (panel : Nat) (items : Nat)
  /-- LOCK_RETRY (R135). -/
  | lockRetry (panel : Nat)
  /-- TAKEOVER (R126). -/
  | takeover (panel : Nat) (unit : OperUnit)
  /-- OPERATOR_ABANDON (R129). -/
  | operatorAbandon (panel : Nat) (unit : OperUnit)
  /-- PARTITION_APPEND (R142). -/
  | partitionAppend (panel : Nat) (items : Nat)
  /-- PARTITION_FLUSH (R143). -/
  | partitionFlush (panel : Nat)
  /-- PARTITION_RELEASE (R144). -/
  | partitionRelease (panel : Nat)
  /-- PARTITION_RELOAD (R145). -/
  | partitionReload (panel : Nat)
  /-- SORTRUN (R152). -/
  | sortrun (panel : Nat)
  /-- MERGE (R152). -/
  | merge (panel : Nat) (items : Nat)
  /-- TOPK (R152). -/
  | topk (panel : Nat)
  /-- LOOKUP (R157). -/
  | lookup
  /-- STEP (R158). -/
  | step
  /-- MA_INVALIDATE (R161). -/
  | maInvalidate (w : Writer) (inst : Nat)
  /-- MA_WRITE (R162). -/
  | maWrite (w : Writer) (inst : Nat)
  /-- MA_VALIDATE (R161). -/
  | maValidate (w : Writer) (inst : Nat)
  /-- MA_INSERT (R165). -/
  | maInsert (w : Writer) (inst : Nat)
  /-- MA_LOAD (R164). -/
  | maLoad (w : Writer) (inst : Nat)
  /-- MA_DUMP (R161). -/
  | maDump (w : Writer) (inst : Nat)
  /-- MA_CLEAR (R161). -/
  | maClear (w : Writer) (inst : Nat)
  /-- ARRAY_OPERATION (R161). -/
  | arrayOperation
  /-- MA_SCRUB (R167). -/
  | maScrub
  /-- INTEGER_OP (R171). -/
  | integerOp (p : Nat) (word : W32)
  /-- FLOAT_OP (R171). -/
  | floatOp (p : Nat) (word : W32)
  /-- LD (R170). -/
  | ld (p : Nat) (word : W32)
  /-- ST (R170). -/
  | st (p : Nat) (word : W32)
  /-- FLD (R188). -/
  | fld (p : Nat) (word : W32)
  /-- FST (R188). -/
  | fst (p : Nat) (word : W32)
  /-- LDR (R184). -/
  | ldr (p : Nat) (word : W32)
  /-- STR (R184). -/
  | str (p : Nat) (word : W32)
  /-- CAS (R172). -/
  | cas (p : Nat) (word : W32)
  /-- AADD (R172). -/
  | aadd (p : Nat) (word : W32)
  /-- BRANCH (R170). -/
  | branch (p : Nat) (word : W32)
  /-- LOOP (R170). -/
  | loop (p : Nat) (word : W32)
  /-- JL (R170). -/
  | jl (p : Nat) (word : W32)
  /-- JR (R168). -/
  | jr (p : Nat) (word : W32)
  /-- SET (R170). -/
  | set (p : Nat) (word : W32)
  /-- KEEP (R170). -/
  | keep (p : Nat) (word : W32)
  /-- NOP (R170). -/
  | nop (p : Nat) (word : W32)
  /-- UNIT (R186). -/
  | unit (p : Nat) (word : W32)
  /-- UNIT_STALL_END (R186). -/
  | unitStallEnd (p : Nat)
  /-- MATCH (R187). -/
  | matchReq (p : Nat) (word : W32)
  /-- MATCH_RESPONSE (R187). -/
  | matchResponse (p : Nat)
  /-- WAITD (R186). -/
  | waitd (p : Nat) (word : W32)
  /-- WAITD_END (R186). -/
  | waitdEnd (p : Nat)
  /-- FENCE (R182). -/
  | fence (p : Nat) (word : W32)
  /-- CLEAN (R181). -/
  | clean (p : Nat) (word : W32)
  /-- INV (R181). -/
  | inv (p : Nat) (word : W32)
  /-- CLINV (R181). -/
  | clinv (p : Nat) (word : W32)
  /-- ZERO (R181). -/
  | zero (p : Nat) (word : W32)
  /-- SET_WAY_CLEAN (R181). -/
  | setWayClean (p : Nat) (word : W32)
  /-- SET_WAY_INV (R181). -/
  | setWayInv (p : Nat) (word : W32)
  /-- SET_WAY_CLINV (R181). -/
  | setWayClinv (p : Nat) (word : W32)
  /-- CLINV_VC (R181). -/
  | clinvVc (p : Nat) (word : W32)
  /-- CALL (R178). -/
  | call (p : Nat) (word : W32)
  /-- RDCR (R169). -/
  | rdcr (p : Nat) (word : W32)
  /-- WRCR (R169). -/
  | wrcr (p : Nat) (word : W32)
  /-- RET (R175). -/
  | ret (p : Nat) (word : W32)
  /-- REPORT (R69). -/
  | report (p : Nat) (word : W32)
  /-- RGLD (R177). -/
  | rgld (p : Nat) (word : W32)
  /-- TLBI_ALL (R256). -/
  | tlbiAll (p : Nat) (word : W32)
  /-- TLBI_SLOT (R256). -/
  | tlbiSlot (p : Nat) (word : W32)
  /-- TLBI_INSTANCE (R256). -/
  | tlbiInstance (p : Nat) (word : W32)
  /-- L1_FILL (R181). -/
  | l1Fill (p : Nat)
  /-- LV_GATE (R195). -/
  | lvGate (p : Nat)
  /-- PKT_HALT (R176). -/
  | pktHalt (w : Writer) (p : Nat) (v : W32)
  /-- PKT_DBG_DATA_HI_WRITE (R6). -/
  | pktDbgDataHiWrite (w : Writer) (p : Nat) (v : W32)
  /-- VLD (R196). -/
  | vld (p : Nat) (word : W32)
  /-- VST (R196). -/
  | vst (p : Nat) (word : W32)
  /-- VLDS (R196). -/
  | vlds (p : Nat) (word : W32)
  /-- VSTS (R196). -/
  | vsts (p : Nat) (word : W32)
  /-- VGATH (R197). -/
  | vgath (p : Nat) (word : W32)
  /-- VSCAT (R197). -/
  | vscat (p : Nat) (word : W32)
  /-- SCADDT (R206). -/
  | scaddt (p : Nat) (word : W32)
  /-- SCADDS (R206). -/
  | scadds (p : Nat) (word : W32)
  /-- VUNPK (R208). -/
  | vunpk (p : Nat) (word : W32)
  /-- VECTOR_ARITHMETIC (R202). -/
  | vectorArithmetic (p : Nat) (word : W32)
  /-- VMULWL (R203). -/
  | vmulwl (p : Nat) (word : W32)
  /-- VSRR (R204). -/
  | vsrr (p : Nat) (word : W32)
  /-- VRESC (R205). -/
  | vresc (p : Nat) (word : W32)
  /-- VSCAN (R208). -/
  | vscan (p : Nat) (word : W32)
  /-- VUNZZ (R208). -/
  | vunzz (p : Nat) (word : W32)
  /-- VREDADD (R189). -/
  | vredadd (p : Nat) (word : W32)
  /-- VCOMP (R189). -/
  | vcomp (p : Nat) (word : W32)
  /-- VECTOR_FLOAT (R209). -/
  | vectorFloat (p : Nat) (word : W32)
  /-- VCMP (R207). -/
  | vcmp (p : Nat) (word : W32)
  /-- VWHILELT (R207). -/
  | vwhilelt (p : Nat) (word : W32)
  /-- PREDICATE_OP (R207). -/
  | predicateOp (p : Nat) (word : W32)
  /-- PCNT (R207). -/
  | pcnt (p : Nat) (word : W32)
  /-- VSPLAT (R189). -/
  | vsplat (p : Nat) (word : W32)
  /-- VEXT (R189). -/
  | vext (p : Nat) (word : W32)
  /-- VINS (R189). -/
  | vins (p : Nat) (word : W32)
  /-- TAIL_DOORBELL (R221). -/
  | tailDoorbell (w : Writer) (inst : Nat) (ring : Nat) (v : W32)
  /-- FETCH_COMPLETE (R222). -/
  | fetchComplete (inst : Nat) (ring : Nat)
  /-- ENTRY_ACCEPT (R223). -/
  | entryAccept (inst : Nat) (ring : Nat)
  /-- COMPLETION_WRITE (R225). -/
  | completionWrite (inst : Nat)
  /-- MODERATION_TIMER (R235). -/
  | moderationTimer (inst : Nat) (cr : Nat)
  /-- HEAD_DOORBELL (R229). -/
  | headDoorbell (w : Writer) (inst : Nat) (cr : Nat) (v : W32)
  /-- ABORT (R232). -/
  | abort (w : Writer) (inst : Nat) (v : W32)
  /-- ABORT_RESULT_READ (R232). -/
  | abortResultRead (p : Path) (inst : Nat)
  /-- RING_ENABLE (R236). -/
  | ringEnable (w : Writer) (inst : Nat) (isCr : Bool) (idx : Nat) (v : W32)
  /-- RING_DISABLE (R236). -/
  | ringDisable (w : Writer) (inst : Nat) (isCr : Bool) (idx : Nat) (v : W32)
  /-- INSTANCE_RESET (R234). -/
  | instanceReset (inst : Nat)
  /-- INSTANCE_RESET_END (R234). -/
  | instanceResetEnd (inst : Nat)
  /-- HBM_READ (R240). -/
  | hbmRead (stop : Nat) (addr : Nat) (len : Nat) (prio : Nat)
  /-- HBM_WRITE (R241). -/
  | hbmWrite (stop : Nat) (addr : Nat) (data : List Byte) (prio : Nat)
  /-- REFRESH (R242). -/
  | refresh (stop : Nat) (pc : Nat) (bank : Nat)
  /-- SELF_REFRESH_ENTRY (R243). -/
  | selfRefreshEntry (stop : Nat) (pc : Nat)
  /-- HBM_SCRUB (R244). -/
  | hbmScrub (stop : Nat) (pc : Nat)
  /-- HBM_TEMP_READ (R245). -/
  | hbmTempRead (stack : Nat) (temp : Nat)
  /-- HBM_TRAINING (R245). -/
  | hbmTraining (stack : Nat) (ok : Bool) (ident : Nat)
  /-- IEEE_1500_COMMAND (R245). -/
  | ieee1500Command (w : Writer) (stop : Nat) (v : W32)
  /-- CXT_LINK_DOWN (R248). -/
  | cxtLinkDown (port : Nat)
  /-- CXT_LINK_UP (R248). -/
  | cxtLinkUp (port : Nat) (width : Nat) (speed : Nat)
  /-- INVALIDATE_ALL (R256). -/
  | invalidateAll (w : Writer) (v : W32)
  /-- INVALIDATE_INSTANCE (R256). -/
  | invalidateInstance (w : Writer) (v : W32)
  /-- INVALIDATE_SLOT (R256). -/
  | invalidateSlot (w : Writer) (v : W32)
  /-- INVALIDATION_DONE (R256). -/
  | invalidationDone
  /-- PROMOTE (R259). -/
  | promote (w : Writer) (v : W32)
  /-- DEMOTE (R259). -/
  | demote (w : Writer) (v : W32)
  /-- PROMOTION_START (R259). -/
  | promotionStart
  /-- PROMOTION_COPY_DONE (R259). -/
  | promotionCopyDone (idx : Nat)
  /-- PROMOTE_POLL (R260). -/
  | promotePoll (p : Nat)
  /-- XL_RT_SEL_WRITE (R261). -/
  | xlRtSelWrite (w : Writer) (v : W32)
  /-- MESH_HOP (R264). -/
  | meshHop (stop : Nat) (inject : Option Packet)
  /-- LINK_PARITY_ERROR (R269). -/
  | linkParityError (stop : Nat) (dir : Dir) (plane : Plane) (good : Bool)
  /-- LINK_RETRAIN_DONE (R269). -/
  | linkRetrainDone (stop : Nat) (dir : Dir) (plane : Plane)
  /-- DOMAIN_OFF (R271). -/
  | domainOff (panel : Nat)
  /-- PANEL_MEMORY_ON (R271). -/
  | panelMemoryOn (panel : Nat)
  /-- BM_GO (R276). -/
  | bmGo (w : Writer) (ch : Nat) (v : W32)
  /-- BM_POLL (R285). -/
  | bmPoll (ch : Nat)
  /-- BURST_ISSUE (R279). -/
  | burstIssue (ch : Nat)
  /-- BURST_READ_RESPONSE (R279). -/
  | burstReadResponse (ch : Nat)
  /-- BEAT_RESPONSE (R283). -/
  | beatResponse (ch : Nat) (idx : Nat)
  /-- BM_CH_ENABLE (R285). -/
  | bmChEnable (w : Writer) (ch : Nat) (v : W32)
  /-- BM_CH_DISABLE (R284). -/
  | bmChDisable (w : Writer) (ch : Nat) (v : W32)
  /-- CHANNEL_SUNK (R284). -/
  | channelSunk (ch : Nat)
  /-- LEDGER_APPEND (R300). -/
  | ledgerAppend (w : Writer) (inst : Nat)
  /-- LEDGER_WRITE (R301). -/
  | ledgerWrite (w : Writer) (inst : Nat)
  /-- LEDGER_READ (R298). -/
  | ledgerRead (w : Writer) (inst : Nat)
  /-- LEDGER_FLUSH (R304). -/
  | ledgerFlush (w : Writer) (inst : Nat)
  /-- STREAM_SEAL (R300). -/
  | streamSeal (w : Writer) (inst : Nat)
  /-- VOLUME_SEAL (R300). -/
  | volumeSeal (w : Writer) (inst : Nat)
  /-- LEDGER_COMMAND_START (R298). -/
  | ledgerCommandStart (inst : Nat)
  /-- LEDGER_DATA_READ (R297). -/
  | ledgerDataRead (inst : Nat) (idx : Nat) (ok : Bool)
  /-- LEDGER_COMMIT (R303). -/
  | ledgerCommit (inst : Nat) (idx : Nat)
  /-- LEDGER_COMPLETION_WRITE (R306). -/
  | ledgerCompletionWrite (inst : Nat)
  /-- LEDGER_CQ_HEAD (R306). -/
  | ledgerCqHead (w : Writer) (inst : Nat) (v : W32)
  /-- LEDGER_CQ_ENABLE (R310). -/
  | ledgerCqEnable (w : Writer) (inst : Nat) (v : W32)
  /-- VOL_CREATE (R290). -/
  | volCreate (w : Writer)
  /-- VOL_FREE (R290). -/
  | volFree (w : Writer)
  /-- STREAM_CREATE (R290). -/
  | streamCreate (w : Writer)
  /-- STREAM_FREE (R290). -/
  | streamFree (w : Writer)
  /-- MDONE (R290). -/
  | mdone
  /-- PWRFAIL_N_FALL (R302). -/
  | pwrfailNFall (lowNs : Nat)
  /-- HOLDUP_CHARGED (R384). -/
  | holdupCharged
  /-- DIGEST_INIT (R317). -/
  | digestInit (w : Writer)
  /-- DIGEST_UPDATE (R314). -/
  | digestUpdate (w : Writer)
  /-- DIGEST_FINAL (R315). -/
  | digestFinal (w : Writer)
  /-- DIGEST_RELEASE (R314). -/
  | digestRelease (w : Writer)
  /-- CONTEXT_ASSIGN (R313). -/
  | contextAssign
  /-- HASH_BLOCK (R316). -/
  | hashBlock
  /-- DG_RES_READ (R318). -/
  | dgResRead (p : Path) (k : Nat)
  /-- ERASE (R324). -/
  | erase (w : Writer) (v : W32)
  /-- TAMPER_EVENT (R326). -/
  | tamperEvent (src : Nat)
  /-- WIPE_END (R327). -/
  | wipeEnd
  /-- LIFE_CYCLE_TRANSITION (R328). -/
  | lifeCycleTransition (target : Nat) (verified : Bool)
  /-- TAMPER_MASK_WRITE (R326). -/
  | tamperMaskWrite (w : Writer) (v : W32)
  /-- PORT_RESET (R331). -/
  | portReset (port : HostPort)
  /-- FLR (R331). -/
  | flr (port : HostPort) (fn : Nat)
  /-- VF_ENABLE_CLEAR (R331). -/
  | vfEnableClear (port : HostPort)
  /-- HOST_LINK_DOWN (R331). -/
  | hostLinkDown (port : HostPort)
  /-- CONFIG_REQUEST (R332). -/
  | configRequest (port : HostPort) (fn : Nat) (write : Bool) (off : Nat) (data : W32)
  /-- HOST_READ_FAILURE (R333). -/
  | hostReadFailure (consumer : ReadConsumer) (cause : ReadCause)
  /-- PTM_REFRESH (R334). -/
  | ptmRefresh (port : HostPort) (master : Option Nat)
  /-- SPDM_REQUEST (R335): its request code, and above bit 7 the certificate slot or the session that it names. -/
  | spdmRequest (port : HostPort) (code : Nat)
  /-- CXL_MEM_REQUEST (R337). -/
  | cxlMemRequest (write : Bool) (addr : Nat) (data : List Byte) (poison : Bool)
  /-- I3C_CCC (R339). -/
  | i3cCcc (ccc : Ccc)
  /-- SET_ADDR (R340). -/
  | setAddr (bytes : List Byte)
  /-- I3C_WRITE (R341). -/
  | i3cWrite (bytes : List Byte)
  /-- MIRROR (R340). -/
  | mirror (bytes : List Byte)
  /-- I3C_READ (R341). -/
  | i3cRead (n : Nat)
  /-- IBI (R342). -/
  | ibi (acked : Bool)
  /-- IBI_RETRY (R342). -/
  | ibiRetry (acked : Bool)
  /-- MIRROR_PASS (R343). -/
  | mirrorPass
  /-- MIRROR_STALE (R343). -/
  | mirrorStale
  /-- MODULE_IDENTIFY (R344). -/
  | moduleIdentify (port : Nat) (rawMib : Nat) (ident : Bool) (eeprom : Bool) (board : Bool) (regs : Nat)
  /-- MODULE_POLL (R344). -/
  | modulePoll (temps : List Nat)
  /-- VOUT_COMMAND (R386). -/
  | voutCommand (die : Nat) (mv : Nat)
  /-- PWROK_RISE (R349). -/
  | pwrokRise (straps : Nat)
  /-- PWROK_FALL (R349). -/
  | pwrokFall
  /-- RESET_N_FALL (R349). -/
  | resetNFall
  /-- RESET_TAKES_HOLD (R349). -/
  | resetTakesHold
  /-- RESET_N_RISE (R349). -/
  | resetNRise
  /-- BRINGUP_COMPLETE (R346). -/
  | bringupComplete
  /-- MODE_REQUEST_CONFIGURE (R348). -/
  | modeRequestConfigure (w : Writer)
  /-- MODE_REQUEST_SERVICE (R348). -/
  | modeRequestService (w : Writer)
  /-- MODE_REQUEST_RETAIN (R348). -/
  | modeRequestRetain (w : Writer)
  /-- MODE_REQUEST_DIAGNOSE (R348). -/
  | modeRequestDiagnose (w : Writer)
  /-- ACTIVATE (R351). -/
  | activate (w : Writer)
  /-- ACTIVATION_RESTART (R351). -/
  | activationRestart (ok : Bool)
  /-- FW_STAGE (R351). -/
  | fwStage (w : Writer) (v : W32)
  /-- FW_STAGE_DONE (R351). -/
  | fwStageDone (result : Nat)
  /-- TEST_PANEL_MARCH (R353). -/
  | testPanelMarch (w : Writer)
  /-- TEST_MESH_LINKS (R353). -/
  | testMeshLinks (w : Writer)
  /-- TEST_HBM_MARCH (R353). -/
  | testHbmMarch (w : Writer) (unit : Nat)
  /-- TEST_MATCH_ARRAY_MARCH (R353). -/
  | testMatchArrayMarch (w : Writer)
  /-- TEST_CXL_LOOPBACK (R353). -/
  | testCxlLoopback (w : Writer) (unit : Nat)
  /-- DIAG_DONE (R353). -/
  | diagDone (errors : Nat) (failUnit : Nat)
  /-- RELEASE_TOKEN (R354). -/
  | releaseToken (w : Writer) (v : W32)
  /-- POWER_ESTIMATE (R355). -/
  | powerEstimate (deciwatts : Nat)
  /-- POWER_WINDOW (R355). -/
  | powerWindow
  /-- SENSOR_SAMPLE (R358). -/
  | sensorSample (temps : List Int) (volts : List Nat)
  /-- SPEED_INDEX_READ (R359). -/
  | speedIndexRead (idx : List Nat)
  /-- WATCHDOG_EXPIRY (R361). -/
  | watchdogExpiry
  /-- REFCLK_LOSS (R387). -/
  | refclkLoss
  /-- STAGE_COMMIT (R372). -/
  | stageCommit (w : Writer) (page : Nat)
  /-- STAGE_DISCARD (R372). -/
  | stageDiscard (w : Writer) (page : Nat)
  /-- IRQ_FLAG_CLEAR (R374). -/
  | irqFlagClear (w : Writer) (page : Nat) (v : W32)
  /-- IRQ_FORCE (R375). -/
  | irqForce (w : Writer) (page : Nat) (v : W32)
  /-- IRQ_ENABLE_WRITE (R375). -/
  | irqEnableWrite (w : Writer) (page : Nat) (v : W32)
  /-- BLOCK_CTRL_WRITE (R371). -/
  | blockCtrlWrite (w : Writer) (page : Nat) (v : W32)
  /-- COUNTER_READ (R6, R368): a read of a register word, and of `n` bytes where the operand is the address plus `n` times 2³². -/
  | counterRead (p : Path) (addr : Nat)
  /-- REGISTER_WRITE (R376). -/
  | registerWrite (w : Writer) (addr : Nat) (v : W32)
  /-- BOOT_ROM_END (R347). -/
  | bootRomEnd (b0 : Nat) (b1 : Nat)
  /-- I3C_TARGET_ENABLE (R339). -/
  | i3cTargetEnable
  /-- MODULE_RESET_RELEASE (R338). -/
  | moduleResetRelease
  /-- PERST_RISE (R346). -/
  | perstRise (port : HostPort)
  /-- HOST_LINK_UP (R336). -/
  | hostLinkUp (port : HostPort) (speed : Nat) (width : Nat) (flit : Bool) (cxl : Bool)
  /-- CXT_READ (R247). -/
  | cxtRead (port : Nat) (addr : Nat) (len : Nat)
  /-- CXT_WRITE (R247). -/
  | cxtWrite (port : Nat) (addr : Nat) (data : List Byte)
  /-- CXT_SCRUB (R244). -/
  | cxtScrub (port : Nat)
  /-- UNDEFINED_INSTRUCTION (R170). -/
  | undefinedInstruction (p : Nat) (word : W32)
  /-- PWRFAIL_N_RISE (R302). -/
  | pwrfailNRise
  deriving DecidableEq, Repr

end Sys2Proof
end

