-- ==== Sys2Proof/Config.lean ====
section
/-! DEFINITION. What the spec leaves free: values with no body, so that nothing can be proved of them. -/

namespace Sys2Proof

/-- A free number: the value the spec leaves open at the n-th use (entropy, a random replacement, an order it does not
fix, an answer of firmware whose contents it does not give). See DESIGN CHOICE, notes/assumptions/4.md. -/
opaque Config.free : Nat → Nat

/-- The byte an address reads as while the spec calls its contents undefined; `stamp` tells one such event from another
(R30, R70, R119, R123, R232, R284, R307). See DESIGN CHOICE, notes/assumptions/5.md. -/
opaque Config.freeByte : Nat → Nat → Byte

/-- Choices that IEEE 754-2019 leaves to an implementation and the spec does not make (DESIGN CHOICE, notes/assumptions/47.md): whether
tininess is judged after rounding, whether FMIN and FMAX answer a number where one operand is a NaN, whether a quiet NaN
makes FCMP signal invalid, and whether a fused 0 × infinity plus a quiet NaN signals invalid. -/
opaque Config.tinyAfter : Bool
opaque Config.minNumber : Bool
opaque Config.cmpSignals : Bool
opaque Config.fmaSignals : Bool
/-- Whether FCVTI signals inexact. -/
opaque Config.cvtInexact : Bool

/-- The integer that FCVTI gives for a NaN or a value outside the signed 64-bit range, by source format (true: binary32)
and bits (R171 states none). -/
opaque Config.cvtOutside : Bool → Nat → W64

/-- Whether an ECDSA P-384 signature over SHA-384 of a message is good under the release key in fuses, which the spec does
not give (R354; DESIGN CHOICE, notes/assumptions/51.md). -/
opaque Config.signatureGood : List Byte → List Byte → Bool

/-- The value of an SPDM measurement of Table 15.3, by index and by what is measured: the spec gives neither images nor a
format (R335; notes/assumptions/54.md). -/
opaque Config.measurement : Nat → List Nat → Nat

/-- What a configuration word reads as where the spec does not give its contents, by function kind (0 and 1 function 0 of
ports A and B, 2 and 3 their VFs), offset, and the data last written to it, if any (R329; PRESUMED, notes/assumptions/52.md). -/
opaque Config.configWord : Nat → Nat → Option W32 → W32

end Sys2Proof
end

