-- ==== Sys2Proof/Machine/State.lean ====
section
/-! DEFINITION. The state of the Axvor as plain data: every register, buffer, queue, counter, mode and pin the spec gives
the part, the memories it reaches, and the queue of commands that wait. `State.reset` is the part right after a device
reset. -/

namespace Sys2Proof.Machine

/-- No command of the block stops with a fault: the spec gives every one of them an effect. The type has no constructor,
so no meaning raises it (safe). -/
inductive Fault where
  deriving DecidableEq, Repr

/-- Why a command has no meaning. -/
inductive Refusal where
  /-- Raised only by `exec`, for a command of the table without a meaning yet (safe: nothing is claimed of it). -/
  | notModelled (mnemonic : String)
  deriving DecidableEq, Repr

/-- A map from numbers to values, in ONE canonical form: keys strictly rising. -/
abbrev KMap (α : Type) := List (Nat × α)

/-! ### Registers (chapter 17) -/

/-- The register pages' words (R366 to R377), by register address. `val` holds values in effect, `pend` shadow copies
written since the last commit or discard (R372), `await` committed Seam-applied values (R373). A register that is
absent from `val` holds its reset value. `frame` and `closed` hold the counts of the open frame and of the last closed
frame that snapshot registers show (step 3 of Table 2.1). -/
structure RegFile where
  val    : KMap W32 := []
  pend   : KMap W32 := []
  await  : KMap W32 := []
  frame  : KMap Nat := []
  closed : KMap Nat := []
  closedSeam : Nat := 0
  deriving DecidableEq, Repr

/-- What leaves the part toward the outside, newest last: messages and answers that no register holds. -/
inductive OutMsg where
  /-- An MSI-X message of an instance on a vector (R235, R375). -/
  | msix (inst vec : Nat)
  /-- A register word returned to a reader (R368). -/
  | word (w : W32)
  /-- The bytes a private I3C read returns, or a NACK (R341). -/
  | i3cData (ws : List W32)
  | i3cNack
  /-- The bytes a GET command code returns (R339). -/
  | ccc (bytes : List Byte)
  /-- An in-band interrupt: its data byte and payload word (R342). -/
  | ibi (cause : Nat) (payload : W32)
  /-- A configuration request's answer (R332). -/
  | config (w : W32)
  /-- An SPDM answer: its response code, its first parameter (the error code of ERROR, or the slot or session it is about),
  and what it carries (R335). -/
  | spdm (port : HostPort) (code param : Nat) (body : List Nat)
  /-- An AER Uncorrectable Internal Error of function 0 of a port (R362). -/
  | aer (port : HostPort)
  /-- Data that a CXL.mem read returns (R337). -/
  | cxl (data : List Byte) (poison : Bool)
  /-- Data that a controller stop or capacity-tier port returns to its requester, with a status. -/
  | memData (data : List Byte) (status : Nat)
  /-- A set point written to a Pocket supply regulator, mV (R344, chapter 18). -/
  | vout (die mv : Nat)
  /-- An IEEE 1500 instruction issued to a stack (R245). -/
  | ieee1500 (stack instr : Nat) (data : W32)
  deriving DecidableEq, Repr

/-! ### Seam and dispatcher (chapter 02) -/

/-- The frame controller (R16 to R24). Times are fabric cycles. -/
structure SeamSt where
  /-- The Seam number, 64 bits (R17, R21). -/
  num       : Nat := 0
  /-- Bits [63:32] latched by a read of SEAM_NUM_LO (R21), and the I3C target's own copy (R341). -/
  numHi     : Nat := 0
  numHiI3c  : Nat := 0
  /-- The cycle of the last tick, from which t of R19 counts. -/
  lastTick  : Nat := 0
  /-- The cycle in which the blocks saw the last Seam (R18); SEAM_OFFSET counts from it. -/
  frameOpen : Nat := 0
  locked    : Bool := false
  holdover  : Bool := false
  running   : Bool := false
  /-- The tick an accepted edge will cause (R19). -/
  edgeTick  : Option Nat := none
  /-- The 16 cycles of SEAM_OUT's pulse that the last tick began end here (R20). -/
  outUntil  : Nat := 0
  /-- Steals are suspended until here: 64 cycles from the last Seam (R24). -/
  stealsFrom : Nat := 0
  deriving DecidableEq, Repr

/-- Task record states (Table 2.3). -/
inductive TaskState where
  | free
  | pending
  | held
  | ready
  | running
  | saving
  | retiring
  deriving DecidableEq, Repr

/-- A task record (Table 2.3). The last five fields are the dispatcher's own and lie in no record byte. -/
structure TaskRec where
  state     : TaskState := .free
  cls       : Nat := 0
  stealable : Bool := false
  dFail     : Bool := false
  noDl      : Bool := false
  preempts  : Nat := 0
  gen       : Nat := 0
  inst      : Nat := 0
  serial    : Nat := 0
  dep       : Nat := 0
  nsucc     : Nat := 0
  ovfCount  : Nat := 0
  deadline  : Nat := 0
  succ      : List Nat := [0, 0, 0, 0, 0, 0, 0, 0]
  ovfAddr   : Nat := 0
  template  : Nat := 0
  paramAddr : Nat := 0
  budget    : Nat := 0
  age       : Nat := 0
  tag       : Nat := 0
  runPocket : Nat := 0
  stage     : Nat := 0
  morsel    : Nat := 0
  /-- The job record the task belongs to. -/
  job       : Nat := 0
  /-- The cycle of the most recent dispatch (R25). -/
  since     : Nat := 0
  /-- A MISS record was written for this task (Table 2.6). -/
  missed    : Bool := false
  /-- The task has a save area to resume from (R25). -/
  saved     : Bool := false
  /-- The job ended while the record was SAVING: it is RETIRING until the save completes (Table 2.4). -/
  doomed    : Bool := false
  deriving DecidableEq, Repr

/-- A decrement on its way to a successor's home agent (R36). -/
structure Decr where
  target : Nat
  inst   : Nat
  serial : Nat
  deriving DecidableEq, Repr

/-- A Panel's dispatch agent (R39). -/
structure Agent where
  /-- Last cycle in which the Panel lost a task as victim, and took one as thief. -/
  lostAt  : Option Nat := none
  tookAt  : Option Nat := none
  /-- End of the wait after a probe that every candidate refused. -/
  waitTo  : Nat := 0
  deriving DecidableEq, Repr

/-- A fragment entry (Table 10.3). -/
structure Frag where
  addr  : Nat
  len   : Nat
  kind  : Nat
  lhost : Bool
  group : Nat
  deriving DecidableEq, Repr

/-- Kinds of job (R215). -/
inductive JobKind where
  | run
  | express
  | background
  deriving DecidableEq, Repr

/-- A job record (R64 to R71). -/
structure JobRec where
  inst     : Nat
  ring     : Nat
  kind     : JobKind
  kindBits : Nat
  intr     : Bool
  tag      : Nat
  gen      : Nat
  serial   : Nat
  /-- The Pattern slot, or the background operation. -/
  slot     : Nat
  /-- The job's deadline frame, if it has one (R67, R29). -/
  deadline : Option Nat
  paramAddr : Nat
  paramLen  : Nat
  fragHost  : Bool
  nfrag     : Nat
  fragAddr  : Nat
  params    : List Byte
  /-- Morsels of each stage, fixed at job start (R55), and how many of each have been created (R58). -/
  counts   : List Nat := []
  created  : List (List Nat) := []
  /-- Status once fixed (R70), the check number for DETAIL, and the frame in which the job ended (R24). -/
  status   : Option Nat := none
  detail   : Nat := 0
  endSeam  : Nat := 0
  rows     : Nat := 0
  bytes    : Nat := 0
  sawShort : Bool := false
  sawPartial : Bool := false
  /-- Output fragments of the job's chain, in order, as its start checks read them (R219): they are undefined if it fails. -/
  outs     : List Frag := []
  /-- The cycle in which a task's failing end fixed the status (R233). -/
  failedAt : Option Nat := none
  /-- The completion has been formed and waits in the record or the Collar. -/
  formed   : Bool := false
  /-- The record holds a persistent parity error (Table 16.7). -/
  bad      : Bool := false
  deriving DecidableEq, Repr

/-- The dispatcher: task records by task number, job records by index, and what is on its way. -/
structure SchedSt where
  tasks     : KMap TaskRec := []
  jobs      : KMap JobRec := []
  serial    : Nat := 0
  decrs     : List Decr := []
  agents    : KMap Agent := []
  /-- Records the trace writer took in the present cycle (R43). -/
  traceAt   : Nat := 0
  traceN    : Nat := 0
  /-- Panels with a fence standing, and gated Panels (R41). -/
  fenced    : List Nat := []
  gated     : List Nat := []
  /-- Pockets that have taken a task since they last went idle (Table 2.6). -/
  roused    : List Nat := []
  /-- Charge of each instance in the open frame, and instances whose share is spent (R72). -/
  charge    : KMap Nat := []
  spent     : List Nat := []
  deriving DecidableEq, Repr

/-! ### Patterns (chapter 03) -/

/-- Pattern slot states (Table 3.1); a slot absent from the map is EMPTY. -/
inductive SlotState where
  | loading
  | resident
  | retiring
  deriving DecidableEq, Repr

/-- An edge of a stage (Table 3.5). -/
structure Edge where
  pred : Nat
  kind : Nat
  g    : Nat
  deriving DecidableEq, Repr

/-- A stage entry (Table 3.5). -/
structure Stage where
  template : Nat
  mkind    : Nat
  mcount   : Nat
  edges    : List Edge
  deriving DecidableEq, Repr

/-- A task template (Table 3.7). -/
structure Template where
  entry     : Nat
  budget    : Nat
  cls       : Nat
  stealable : Bool
  dFail     : Bool
  place     : Nat
  saveKib   : Nat
  panel     : Nat
  sfProg    : Nat
  constOff  : Nat
  deriving DecidableEq, Repr

/-- A parameter layout entry (Table 3.8). -/
structure ParamField where
  off   : Nat
  size  : Nat
  kind  : Nat
  align : Nat
  deriving DecidableEq, Repr

/-- A Pattern slot with the parts of the image the device copies at load (R48), and the image's place for the rest. -/
structure PatSlot where
  state    : SlotState
  addr     : Nat := 0
  express  : Bool := false
  expPanel : Nat := 0
  paramLen : Nat := 0
  listLen  : Nat := 0
  dfltDl   : Nat := 0
  stages   : List Stage := []
  templates : List Template := []
  maRefs   : List (Nat × Nat) := []
  params   : List ParamField := []
  constOff : Nat := 0
  codeOff  : Nat := 0
  codeLen  : Nat := 0
  predOff  : Nat := 0
  npred    : Nat := 0
  /-- Bytes of copied tables counted against the store of R45. -/
  tableBytes : Nat := 0
  deriving DecidableEq, Repr

/-- The command registers' engine of one instance's INST_PAT page (R47). -/
structure PatCmd where
  busy   : Bool := false
  result : Nat := 0
  detail : Nat := 0
  slot   : Nat := 0
  deriving DecidableEq, Repr

structure PatSt where
  slots : KMap PatSlot := []
  cmds  : KMap PatCmd := []
  deriving DecidableEq, Repr

/-! ### Rings (chapter 10) -/

/-- One entry that a tail doorbell added and that is not yet accepted: pushed bytes, fetched bytes, or still to fetch. -/
inductive RingEntry where
  | pushed (bytes : List Byte)
  | fetched (bytes : List Byte)
  | unread
  deriving DecidableEq, Repr

/-- A job ring of an instance (R212 to R224). -/
structure JobRing where
  head     : Nat := 0
  /-- The phase the device expects at `head`. -/
  expect   : Bool := true
  tail     : Nat := 0
  entries  : List RingEntry := []
  /-- Bytes of the push slot written since the ring's previous tail doorbell (R220, R221). -/
  slot     : KMap Byte := []
  accepted : Nat := 0
  /-- The Collar's state of the ring holds a persistent parity error (Table 16.7). -/
  bad      : Bool := false
  /-- A fetch failed, and is repeated at the ring's next doorbell (R333). -/
  failed   : Bool := false
  /-- Entries that the last doorbell added by judging the phase in host memory (R213). -/
  judged   : Nat := 0
  deriving DecidableEq, Repr

/-- A completion formed for the host (Table 10.7). -/
structure Compl where
  ring    : Nat
  cr      : Nat
  tag     : Nat
  status  : Nat
  gen     : Nat
  kind    : Nat
  detail  : Nat
  serial  : Nat
  rows    : Nat
  bytes   : Nat
  seam    : Nat
  intr    : Bool
  /-- The job record that holds it, until it is handed to the Collar. -/
  job     : Option Nat
  /-- Whether it takes a place of the 16-entry overflow (R231). -/
  inOvf   : Bool
  /-- Whether its tag is in use through it (not so for a duplicate tag, R217). -/
  usesTag : Bool
  deriving DecidableEq, Repr

/-- A completion ring of an instance (R225 to R229, R235). -/
structure ComplRing where
  tail     : Nat := 0
  phase    : Bool := true
  /-- Entries the host has released and the device may write. -/
  free     : Nat := 0
  /-- Tags of entries written and not yet released, oldest first. -/
  tags     : List Nat := []
  /-- Entries written since the ring's last message, and the cycle of the first of them. -/
  since    : Nat := 0
  firstAt  : Nat := 0
  deriving DecidableEq, Repr

/-- What the Collar holds for one instance. -/
structure InstSt where
  gen      : Nat := 0
  compl    : List Compl := []
  abortTag : Nat := 0
  abortRes : Nat := 0
  /-- An instance reset is in progress (R234); tags of the old generation, in use until it ends. -/
  resetting : Bool := false
  oldTags  : List Nat := []
  /-- Tags of entries whose fragment table's next host read fails (R219, R333). -/
  fragFail : List Nat := []
  deriving DecidableEq, Repr

structure RingSt where
  jr    : KMap JobRing := []
  cr    : KMap ComplRing := []
  inst  : KMap InstSt := []
  deriving DecidableEq, Repr

/-! ### Memories and translation (chapter 11) -/

/-- A region descriptor's fields (Table 11.3). -/
structure Desc where
  v : Bool
  r : Bool
  w : Bool
  x : Bool
  u : Bool
  c : Bool
  s : Bool
  a : Bool
  d : Bool
  p : Bool
  pool : Nat
  pf   : Bool
  len  : Nat
  voff : Nat
  base : Nat
  home : Nat
  /-- Bytes 0x00 to 0x07 as read, which the A and D swaps compare (R255). -/
  raw  : Nat
  deriving DecidableEq, Repr

/-- A TLB entry (R252). -/
structure TlbEntry where
  inst : Nat
  slot : Nat
  desc : Desc
  deriving DecidableEq, Repr

/-- A promotion or demotion request (R259). -/
structure PromoReq where
  inst    : Nat
  slot    : Nat
  promote : Bool
  deriving DecidableEq, Repr

/-- A request the promotion engine runs: the descriptor's address, its word 0, HOME and LEN as read, and the chunk. -/
structure PromoRun where
  req   : PromoReq
  daddr : Nat
  word0 : Nat
  pool  : Nat
  chunk : Nat
  home  : Nat
  len   : Nat
  deriving DecidableEq, Repr

/-- The XL block and the TLBs. TLB numbers: 0 to 511 Pockets, 512 + n Panel units, 544 + h Scan Fronts of a stop, 552
Bulk Mover, 553 and 554 Collar ports A and B (Table 11.4). -/
structure XlSt where
  rtBase   : KMap Nat := []
  stopped  : List Nat := []
  stopAddr : Nat := 0
  tlbs     : KMap (List TlbEntry) := []
  /-- XL_INVAL commands waiting, the running one first: scope, instance, slot (R256). -/
  inval    : List (Nat × Nat × Nat) := []
  queue    : List PromoReq := []
  active   : List PromoRun := []
  /-- Chunks taken of each pool (R258). -/
  taken    : KMap (List Nat) := []
  deriving DecidableEq, Repr

/-- One line waiting in a controller stop's write queue: its enabled bytes by offset in the line (R241). -/
structure WqLine where
  line  : Nat
  bytes : KMap Byte
  prio  : Nat
  at_   : Nat
  deriving DecidableEq, Repr

/-- A read that waits in a pseudo-channel's read queue; a held one waits until its line's queued write is written (R240,
R241). -/
structure WaitRead where
  addr : Nat
  len  : Nat
  prio : Nat
  at_  : Nat
  held : Bool
  deriving DecidableEq, Repr

/-- A request in a controller stop's input buffer, whose queue was full (R240): a write of bytes, or a read. -/
structure HbmReq where
  write : Bool
  addr  : Nat
  len   : Nat
  bytes : List Byte
  prio  : Nat
  at_   : Nat
  deriving DecidableEq, Repr

/-- A controller stop (R239 to R245). -/
structure HmcSt where
  trained : Bool := false
  failed  : Bool := false
  temp    : Nat := 0
  wq      : List WqLine := []
  /-- Reads that wait, oldest first, pseudo-channels in a write drain, and the input buffer, oldest first (R240). -/
  reads   : List WaitRead := []
  drain   : List Nat := []
  input   : List HbmReq := []
  /-- Open row of each bank, by pseudo-channel × 1,024 + stack ID and bank. -/
  rows    : KMap Nat := []
  /-- Rows refreshed last, and the cycle of each bank's last refresh, by the same bank number (R242). -/
  refreshed : KMap Nat := []
  bankRefresh : KMap Nat := []
  selfRef : List Nat := []
  lastReq : KMap Nat := []
  nrGen   : KMap W32 := []
  scrubAt : KMap Nat := []
  /-- A built-in test holds the stop's stack unreachable (R353). -/
  testing : Bool := false
  deriving DecidableEq, Repr

/-- A capacity-tier port (R246 to R248). -/
structure CxtSt where
  linkUp  : Bool := false
  modUp   : Bool := false
  width   : Nat := 0
  speed   : Nat := 0
  units   : Nat := 0
  /-- Check lines held by the port's cache, newest first, each with whether it is dirty (R247). -/
  checks  : List (Nat × Bool) := []
  scrubAt : Nat := 0
  rstHeld : Bool := true
  /-- A memory device trained on the port at BRINGUP, and the size in MiB that its HDM decoder is programmed with (R338). -/
  present : Bool := false
  hdmMib  : Nat := 0
  deriving DecidableEq, Repr

/-- The memories. `dev` holds device physical memory, `host` host memory, `ledger` the magnetoresistive media of the
Ledger Store by byte offset; an unlisted byte reads 0. `ecc` marks 64-bit words in error by address div 8: 1
correctable, 2 uncorrectable, 3 poisoned by its module (R244, R247); `par` marks SRAM words with a persistent parity
error (R185). `undef` lists ranges whose bytes the spec calls undefined: start, length, stamp. -/
structure MemSt where
  dev    : List Host.Cell := []
  host   : List Host.Cell := []
  ledger : List Host.Cell := []
  ecc    : KMap Nat := []
  par    : List Nat := []
  /-- 32-bit words of an SRAM with a parity error that a replay clears (R185). -/
  soft   : List Nat := []
  undef  : List (Nat × Nat × Nat) := []
  /-- Ranges of host memory whose bytes the spec calls undefined (R284). -/
  hundef : List (Nat × Nat × Nat) := []
  deriving DecidableEq, Repr

/-! ### Mesh and Bulk Mover (chapter 12) -/

/-- A flit as a link sent it: its bytes, and the parity bit of each 32-bit word (R269). -/
structure Flit where
  bytes  : List Byte
  parity : List Bool
  deriving DecidableEq, Repr

/-- A link of one plane (R269). -/
structure LinkSt where
  deg   : Bool := false
  down  : Bool := false
  fails : Nat := 0
  retraining : Bool := false
  /-- The retry buffer: the last 32 flits sent, latest first. -/
  sent  : List Flit := []
  deriving DecidableEq, Repr

/-- Domain states of a Panel's router (Table 12.4). -/
inductive DomState where
  | online
  | fenced
  | absorb
  | absorbWake
  | off
  | waking
  deriving DecidableEq, Repr

/-- A packet waiting at a router: where it entered (0 local, 1 N, 2 E, 3 S, 4 W), the cycle in which it was first passed
over (R267), and its injection cycle. -/
structure Flight where
  pkt    : Packet
  from_  : Nat
  passed : Option Nat
  born   : Nat
  /-- A word of the router's buffer that holds the packet has bad parity (R270). -/
  bad    : Bool := false
  deriving DecidableEq, Repr

/-- Power states of a Panel's memories (PNL_STATUS.MEM, R185). -/
inductive MemPower where
  | on
  | retention
  | off
  | waking
  deriving DecidableEq, Repr

structure NocSt where
  epoch  : Bool := false
  /-- Exception tables: current and previous, by stop × 8 + entry (R264). -/
  cur    : KMap W32 := []
  prev   : KMap W32 := []
  links  : KMap LinkSt := []
  queues : KMap (List Flight) := []
  /-- The input each output served last, by (stop × 5 + output) × 2 + plane (R267). -/
  turn   : KMap Nat := []
  dom    : KMap DomState := []
  /-- Non-posted requests whose responses are still owed, with their injection cycle, by source stop (R272, R273). -/
  owed   : List (Nat × Nat × Nat × Nat) := []
  deriving DecidableEq, Repr

/-- Channel states (Table 12.10). -/
inductive ChanState where
  | disabled
  | idle
  | run
  | paused
  | draining
  | sinking
  deriving DecidableEq, Repr

/-- A Bulk Mover descriptor's fields (Table 12.8). -/
structure BmDesc where
  op : Nat
  shost : Bool
  squeue : Bool
  dhost : Bool
  dqueue : Bool
  swap : Nat
  endMark : Bool
  intr : Bool
  high : Nat
  low : Nat
  src : Nat
  dst : Nat
  len : Nat
  clen : Nat
  deriving DecidableEq, Repr

/-- A burst whose read is in flight (R279): its position in the transfer and its length. -/
structure Burst where
  pos : Nat
  len : Nat
  deriving DecidableEq, Repr

/-- A destination beat issued and not yet answered. -/
structure Beat where
  pos    : Nat
  addr   : Nat
  data   : List Byte
  /-- Where its burst begins: a burst is in flight until its last beat is answered (R279). -/
  burst  : Nat
  deriving DecidableEq, Repr

/-- A Bulk Mover channel (R276 to R285). -/
structure Chan where
  state   : ChanState := .disabled
  desc    : Option BmDesc := none
  /-- Where the descriptor lies in its queue, for the result words; none in REG mode. -/
  daddr   : Option Nat := none
  remain  : Nat := 0
  moved   : Nat := 0
  /-- Source bytes whose read was issued, and bytes whose beats were issued. -/
  taken   : Nat := 0
  issued  : Nat := 0
  /-- The source stream's END was read, with END_AT. -/
  endAt   : Option Nat := none
  stopped : Bool := false
  status  : Nat := 0
  late    : Bool := false
  beatAddr : Nat := 0
  outcome : Nat := 0
  bursts  : List Burst := []
  beats   : List Beat := []
  /-- Stretches acknowledged beyond the acknowledged prefix, and the prefix itself. -/
  acked   : List (Nat × Nat) := []
  front   : Nat := 0
  /-- Destination bytes issued in the open frame (R281). -/
  frameBytes : Nat := 0
  /-- RD of the source queue and WR of the destination queue at the descriptor's start. -/
  rdBase  : Nat := 0
  wrBase  : Nat := 0
  /-- DATA and LOG2SZ of the source and destination queues. -/
  sData   : Nat := 0
  sLog    : Nat := 0
  dData   : Nat := 0
  dLog    : Nat := 0
  lastStatus : Nat := 0
  lastLate : Bool := false
  /-- PAUSED for the frame's rate (R281), not for a queue (R280). -/
  forRate : Bool := false
  /-- The source stream's END was seen while PAUSED, and the rest is moved to end the descriptor (R280). -/
  drain   : Bool := false
  /-- RD of the descriptor queue as the poll that found the descriptor read it. -/
  qRd     : Nat := 0
  /-- An instance reset of the owner sets EN again once the last response is sunk (R284). -/
  reEn    : Bool := false
  /-- A descriptor has ended and the queue header is read again at once (R285). -/
  again   : Bool := false
  results : List W32 := [0, 0, 0, 0, 0, 0]
  /-- Responses still owed after EN was cleared (R284). -/
  sink    : Nat := 0
  deriving DecidableEq, Repr

structure BmSt where
  chans : KMap Chan := []
  deriving DecidableEq, Repr

/-! ### Pockets (chapters 08 and 09) -/

/-- A line held by the L1, the victim cache or the eviction buffer (R180, R181). -/
structure L1Line where
  line  : Nat
  way   : Nat
  dirty : Bool
  data  : List Byte
  /-- Words with a parity error that a replay clears, and with a persistent one (R185): 0 to 15 the data, 16 the tag. -/
  soft  : List Nat := []
  hard  : List Nat := []
  deriving DecidableEq, Repr

/-- A line of the instruction cache (R173), with its parity errors as a whole: one that a replay clears, or a persistent
one (R185). -/
structure ILine where
  line  : Nat
  data  : List Byte
  soft  : Bool := false
  hard  : Bool := false
  deriving DecidableEq, Repr

/-- A region register (R177); one with the user right is tagged with its task's instance. It maps slot offsets from `lo`
up to `hi`, which for a loaded register is all that its descriptor maps. -/
structure RegionReg where
  slot : Nat
  inst : Option Nat
  desc : Desc
  lo   : Nat := 0
  hi   : Nat := 2 ^ 36
  deriving DecidableEq, Repr

/-- Where an access goes: its cause (0 where it translates), physical address, and whether it is cached. -/
structure Place where
  cause  : Nat
  pa     : Nat
  cached : Bool
  deriving DecidableEq, Repr

/-- The outstanding miss of an L1 (R181): the line it fetches, and the access that waits for it, with its instruction, PC
and virtual address, its translated pieces with their lengths, a store's bytes, and the lines already fetched for it. -/
structure FillSt where
  line   : Nat
  word   : W32
  pc     : Nat
  va     : Nat
  places : List (Place × Nat)
  data   : List Byte
  got    : List Nat
  deriving DecidableEq, Repr

/-- A store in a Pocket's store buffer (R180): its physical address and bytes, and the slot it was translated through. -/
structure StoreEnt where
  pa    : Nat
  bytes : List Byte
  slot  : Nat
  deriving DecidableEq, Repr

/-- What holds a Pocket at an instruction boundary or inside an instruction. -/
inductive PWait where
  | none
  /-- The outstanding L1 fill: the instruction word runs when the fill completes (R181). -/
  | fill (word : W32)
  /-- A UNIT submission to a full unit: the block's physical address and the unit selected (R186). -/
  | unit (block sel : Nat)
  /-- A MATCH response for v[D] (R187). -/
  | resp (d : Nat)
  /-- WAITD on a word's virtual address (R186). -/
  | watch (va : Nat)
  deriving DecidableEq, Repr

/-- A Pocket (R168 to R187). Scalar, vector and predicate registers that are not listed hold 0. -/
structure Pocket where
  task   : Option Nat := none
  g      : KMap W64 := []
  v      : KMap W1024 := []
  pr     : KMap W128 := []
  pc     : Nat := 0
  priv   : Bool := true
  uacc   : Bool := false
  ie     : Bool := false
  nest   : Bool := false
  ppriv  : Bool := false
  bare   : Bool := false
  epc    : Nat := 0
  cause  : Nat := 0
  taddr  : Nat := 0
  /-- The runtime firmware's entry (DESIGN CHOICE, notes/assumptions/46.md). -/
  tvec   : Nat := 0xFF8000000000
  sscr   : Nat := 0
  /-- The Pocket clock count (`State.cyc16`) at which CYCLE was 0: the last Pocket reset. -/
  cycBase : Nat := 0
  fcsr   : Nat := 0
  vxStart : Nat := 0
  vxAddr : Nat := 0
  regions : KMap RegionReg := []
  /-- Lines of each set, most recently used first. -/
  sets   : KMap (List L1Line) := []
  /-- Victim cache and eviction buffer, newest first. -/
  victim : List L1Line := []
  evict  : List L1Line := []
  /-- The victim cache is in use (VC_EN as of the last CLINV_VC). -/
  vcOn   : Bool := true
  /-- The instruction cache, newest first (R173). -/
  icache : List ILine := []
  /-- The outstanding miss. -/
  fill   : Option FillSt := none
  /-- The store buffer, oldest first (R180). -/
  stores : List StoreEnt := []
  wait   : PWait := .none
  halted : Bool := false
  cut    : Bool := false
  lvGated : Bool := true
  /-- The Pocket clock count at the last long-view instruction. -/
  lvAt   : Nat := 0
  /-- Service number of the last CALL, and status of the last failing Match response. -/
  callArg : Nat := 0
  matchSt : Nat := 0
  /-- PKT_DBG_DATA_LO as last written while halted. -/
  dbgLo  : Nat := 0
  /-- Rights the access of the last translation trap asked for: read 1, write 2, execute 4. -/
  fAcc   : Nat := 0
  /-- The firmware has written a PROMOTE request for the trap it handles (R260). -/
  asked  : Bool := false
  /-- Lines fetched for the access in progress. -/
  filled : List Nat := []
  deriving DecidableEq, Repr


/-! ### Units (chapters 04 to 06) -/

/-- A command block as a unit copied it at its submission (R186): where the block lies, its 64 bytes, the task, and the
submitting Pocket's window region registers. -/
structure UnitCmd where
  block  : Nat
  bytes  : List Byte
  task   : Nat
  pocket : Nat
  inst   : Nat
  job    : Nat
  serial : Nat
  cls    : Nat
  /-- The submitting task's stage and morsel: with the job and its serial they name the task. -/
  stage  : Nat
  morsel : Nat
  win6   : Option RegionReg
  win7   : Option RegionReg
  /-- The job ended with a failing status: the unit abandons the command (R98, R122, R129). -/
  dead   : Bool := false
  /-- The status of the unit's copy of the block: a persistent parity error in it ends the command (R185). -/
  copied : Nat := 0
  deriving DecidableEq, Repr

/-- A segment context of a Pack Unit (R92), bound to a task. -/
structure PackCtx where
  task     : Nat
  inst     : Nat
  job      : Nat
  serial   : Nat
  /-- The stage and morsel of the task it is bound to. -/
  stage    : Nat
  morsel   : Nat
  seg      : Nat
  type     : Nat
  check    : Nat
  hist     : Bool
  nullable : Bool
  lhfmt    : Bool
  scale    : Nat
  dict     : Nat
  cap      : Nat
  length   : Nat
  values   : Nat
  nulls    : Nat
  tag      : Nat
  /-- Running least and greatest non-null value of the committed blocks. -/
  range    : Option (Nat × Nat)
  /-- Offsets of the committed blocks, in order. -/
  blocks   : List Nat
  /-- The last values of the committed blocks, latest first, at most 16. -/
  prior    : List Nat
  /-- Pending values with their null flags. -/
  pend     : List (Nat × Bool)
  deriving DecidableEq, Repr

/-- A Pack Unit (R91, R92). -/
structure PackUnit where
  queue : List UnitCmd := []
  /-- Source values the running APPEND has taken (R96). -/
  taken : Nat := 0
  ctx   : KMap PackCtx := []
  deriving DecidableEq, Repr

/-- How far a scan has come in one column (R109, R116): the segment and its header bytes, the present block's number and
offset, the lanes decoded of it, newest first, and what the previous block left for the history comparison. -/
structure ScanCol where
  seg    : Nat
  hdr    : List Byte
  /-- The present block's bytes up to its payloads; empty before it is read. -/
  head   : List Byte := []
  blk    : Nat := 0
  off    : Nat := 64
  /-- Decoded lanes of the present block: lane and values with null flags. -/
  lanes  : List (Nat × List (Nat × Bool)) := []
  /-- Last values of the previous block, latest first, if its last lane was decoded. -/
  prev   : Option (List Nat) := none
  /-- The segment's bytes at the command's start, and whether the present block has been read with others since (R123). -/
  snap   : List Byte := []
  torn   : Bool := false
  deriving DecidableEq, Repr

/-- A running scan command. -/
structure ScanRun where
  cmd    : UnitCmd
  frame  : List Byte
  cols   : List ScanCol
  /-- The sets the steps name: number, BASE, BITS and MAP. -/
  sets   : List (Nat × Nat × Nat × List Byte)
  pos    : Nat
  endPos : Nat
  rows   : Nat := 0
  bytes  : Nat := 0
  skip   : Bool
  elide  : Bool
  compat : Bool
  /-- Output ranges of its instance that other commands wrote while it ran (R119): address and length. -/
  met    : List (Nat × Nat) := []
  deriving DecidableEq, Repr

/-- A Scan Front (R107, R120). -/
structure ScanFront where
  queue  : List UnitCmd := []
  run    : Option ScanRun := none
  /-- Bytes in the output queue, whether the Scan Front is stalled for it, and the bytes it then needs room for. -/
  outQ   : Nat := 0
  stalled : Bool := false
  need   : Nat := 0
  deriving DecidableEq, Repr

/-- A running operator command (R126, R128). -/
structure OperRun where
  cmd    : UnitCmd
  /-- CTRL.TAKEOVER_EN when the command started. -/
  mayTake : Bool
  /-- Input items finished, output items and bytes written, and AUX. -/
  pos    : Nat := 0
  out    : Nat := 0
  bytes  : Nat := 0
  aux    : Nat := 0
  /-- Merge Network: the records a SORTRUN or TOPK has read, in output order. -/
  recs   : List (List Byte) := []
  /-- Hash Probe Unit: the descriptor as read at the start, the present bitmap word, whether a key of a GROUP command has
  had no index, and whether the present item waits for a bucket's lock. -/
  table  : List Byte := []
  bits   : Nat := 0
  unassigned : Bool := false
  locked : Bool := false
  /-- Merge Network: each run's address, count and records merged, the key last taken of each, and the record that the
  open group of equal keys has so far. -/
  runs   : List (Nat × Nat × Nat) := []
  last   : List (Option Nat) := []
  group  : List Byte := []
  deriving DecidableEq, Repr

/-- A way of a partition context: its directory entry, fill count, and staging line (R143). -/
structure PartWay where
  base : Nat
  cap  : Nat
  fill : Nat
  line : List Byte
  deriving DecidableEq, Repr

/-- A partition context (R142). -/
structure PartCtx where
  inst   : Nat
  job    : Nat
  serial : Nat
  dirset : Nat
  /-- The Panel's directory. -/
  dir    : Nat
  rsz    : Nat
  func   : Bool
  log2w  : Nat
  shift  : Nat
  ways   : List PartWay
  deriving DecidableEq, Repr

/-- An operator unit of a Panel: held commands, the running one, the one taken over (R126), and partition contexts. -/
structure OperSt where
  queue : List UnitCmd := []
  run   : Option OperRun := none
  standby : Option OperRun := none
  ctx   : KMap PartCtx := []
  deriving DecidableEq, Repr

/-! ### Match Array (chapter 07) -/

/-- An entry of the array (R155). `cells` differs from KEY and MASK where damage changes what matches but not what is
read back. `par` holds the eleven parity bits: bits 0 to 4 for the words of KEY, 5 to 9 for MASK, 10 for DATA. -/
structure MaEntry where
  key     : Nat := 0
  mask    : Nat := 0
  data    : Nat := 0
  valid   : Bool := false
  suspect : Bool := false
  cells   : Option (Nat × Nat) := none
  par     : Nat := 0
  deriving DecidableEq, Repr

/-- A request at the array or held in the mesh before it: `place` is none while held, else whether it took one of the
places reserved for priority 3 (R160). -/
structure MaReq where
  pocket : Nat
  inst   : Nat
  cls    : Nat
  at_    : Nat
  bytes  : List Byte
  place  : Option Bool
  deriving DecidableEq, Repr

/-- Array operations of the update engine (R161), by array index. A write clears or sets SUSPECT where it is the second
of its pair (R162). -/
inductive MaOp where
  | inval (e : Nat)
  | valid (e : Nat)
  | data (e v : Nat) (sus : Option Bool)
  | keyMask (e key mask : Nat) (sus : Option Bool)
  | clear (e n : Nat)
  | dump (e : Nat)
  /-- The read of a move, and its three writes of what was read, in the entry above or below. -/
  | fetch (e : Nat)
  | putData (e : Nat)
  | putKeyMask (e : Nat)
  deriving DecidableEq, Repr

/-- A command of an INST_MA page with the fields it took at its start, and how far it has come. -/
structure MaRun where
  op      : Nat
  started : Bool
  pos     : Nat
  lo      : Nat
  size    : Nat
  count   : Nat
  addr    : Nat
  holes   : Bool
  spacing : Nat
  key     : Nat
  mask    : Nat
  data    : Nat
  ops     : List MaOp := []
  /-- Next index, images or entries done, and the entry a move has read. -/
  next    : Nat := 0
  done    : Nat := 0
  moved   : MaEntry := {}
  deriving DecidableEq, Repr

/-- The Match Array. -/
structure MaSt where
  entries : KMap MaEntry := []
  waiting : List MaReq := []
  /-- Responses on their way to a Pocket. -/
  resp    : KMap (List Byte) := []
  runs    : KMap MaRun := []
  /-- The instance served last by the update engine. -/
  last    : Nat := 1024
  scrub   : Nat := 0
  deriving DecidableEq, Repr

/-! ### Digest engine, key store and Lining (chapter 14) -/

/-- Context states (Table 14.3). -/
inductive DgState where
  | free
  | idle
  | opened
  | busy
  | done
  | cleared
  deriving DecidableEq, Repr

/-- A request that a context runs or queues (Table 14.2). `own` holds the data of a request made by the Ledger controller
from its staging store. -/
structure DgReq where
  op     : Nat
  dev    : Bool := false
  derive : Bool := false
  slot   : Nat := 0
  usage  : Nat := 0
  lcBind : Nat := 0
  addr   : Nat := 0
  len    : Nat := 0
  own    : Option (List Byte) := none
  deriving DecidableEq, Repr

/-- A context. `requester`: 0 none, 1 DG page, 2 Ledger controller, 3 management core. -/
structure DgCtx where
  state  : DgState := .free
  requester : Nat := 0
  bound  : Bool := false
  alg    : Nat := 0
  owner  : Nat := 0
  status : Nat := 0
  /-- The running hash value, bytes hashed so far, and the HMAC key's copy in the Lining. -/
  words  : List Nat := []
  total  : Nat := 0
  key    : List Byte := []
  /-- The slot that keyed the message was DERIVE_ONLY. -/
  deriveOnly : Bool := false
  run    : Option DgReq := none
  /-- Data bytes of the running request that are hashed; padded blocks still to hash; the outer pass of HMAC has begun. -/
  pos    : Nat := 0
  tail   : List (List Byte) := []
  padded : Bool := false
  outer  : Bool := false
  queue  : List DgReq := []
  result : List Byte := []
  /-- The context's state, or the core that hashes its block, has a parity error (R318). -/
  bad    : Bool := false
  deriving DecidableEq, Repr

/-- An INIT that waits for a context (R313). -/
structure DgWait where
  go    : Nat
  ctx   : Nat
  alg   : Nat
  owner : Nat
  slot  : Nat
  deriving DecidableEq, Repr

/-- The digest engine. -/
structure DgSt where
  ctxs    : KMap DgCtx := []
  waiting : List DgWait := []
  /-- The context served last by the turn of R316. -/
  last    : Nat := 255
  /-- DG_LAST: outcome, context and status; GO writes so far. -/
  outcome : Nat := 0
  lastCtx : Nat := 0
  lastStatus : Nat := 0
  gos     : Nat := 0
  deriving DecidableEq, Repr

/-- A key slot: its attribute word (Table 14.5) and key bytes. -/
structure KeySlot where
  attr : Nat := 0
  key  : List Byte := []
  deriving DecidableEq, Repr

/-- The Lining's wipe state (R326, R327). -/
structure LnSt where
  wiping : Bool := false
  tamper : Bool := false
  src    : Nat := 0
  mask   : Nat := 0
  wipes  : Nat := 0
  wipeSeam : Nat := 0
  /-- Words of the Lining whose parity is bad: 16 of each slot's key, then each slot's attributes, then 16 of each context's
  key area, then the secure scratch (R325). -/
  bad    : List Nat := []
  /-- The secure scratch of the management firmware, by byte; an unlisted byte is zero (R325). -/
  scratch : KMap Byte := []
  deriving DecidableEq, Repr

/-! ### Ledger Store (chapter 13) -/

/-- A volume (R288): its owner, base and size in MiB. -/
structure Volume where
  owner  : Nat
  base   : Nat
  size   : Nat
  isSealed : Bool := false
  deriving DecidableEq, Repr

/-- A log stream (R289): extent in units of 64 KiB, tail and next SEQ after the records committed, the chain value. -/
structure LogStream where
  vol   : Nat
  start : Nat
  len   : Nat
  tail  : Nat
  seq   : Nat
  chain : List Byte
  isSealed : Bool := false
  ctx   : Option Nat
  deriving DecidableEq, Repr

/-- How far a Ledger command has come. -/
inductive LdgPhase where
  /-- Accepted, not in the lock table. -/
  | queued
  /-- In the lock table, not started. -/
  | entered
  /-- Started: its data is read from the host, or its READ, SEAL or FLUSH goes on. -/
  | started
  /-- All its data is in the staging store. -/
  | staged
  /-- A chained APPEND whose context hashes its record. -/
  | hashing
  /-- Ready for the media. -/
  | ready
  /-- In the media. -/
  | media
  deriving DecidableEq, Repr

/-- A Ledger command (Table 13.3). -/
structure LdgCmd where
  id      : Nat
  inst    : Nat
  gen     : Nat
  op      : Nat
  ordered : Bool
  imm     : Bool
  chain   : Bool
  intr    : Bool
  vtarget : Bool
  tag     : Nat
  stream  : Nat
  vol     : Nat
  off     : Nat
  len     : Nat
  nfrag   : Nat
  buf     : Nat
  rtag    : Nat
  /-- The frame of acceptance. -/
  seam    : Nat
  phase   : LdgPhase := .queued
  /-- Data fragments as its checks read them: address and length (R296, R297). -/
  frags   : List (Nat × Nat) := []
  data    : List Byte := []
  hashed  : List Byte := []
  /-- 32 KiB pieces in the media, and pieces at home. -/
  inMedia : List Nat := []
  home    : List Nat := []
  deriving DecidableEq, Repr

/-- A Ledger completion that is not written (Table 13.5). `group` while it is held for the Seam. -/
structure LdgCompl where
  id   : Nat
  inst : Nat
  gen  : Nat
  op   : Nat
  stream : Nat
  tag  : Nat
  status : Nat
  held : Bool
  group : Bool
  a    : Nat
  b    : Nat
  seam : Nat
  intr : Bool
  usesTag : Bool
  deriving DecidableEq, Repr

/-- A Ledger completion ring (R306, R310). -/
structure LdgCq where
  tail  : Nat := 0
  phase : Bool := true
  free  : Nat := 0
  tags  : List Nat := []
  deriving DecidableEq, Repr

/-- The Ledger Store. Volumes and streams lie in the journal area and outlast every reset. -/
structure LdgSt where
  vols    : KMap Volume := []
  streams : KMap LogStream := []
  /-- Commands in acceptance order, completions in commit order. -/
  cmds    : List LdgCmd := []
  compl   : List LdgCompl := []
  cq      : KMap LdgCq := []
  nextId  : Nat := 0
  /-- INST_LDG_STATE of each instance: OUTCOME, and ACCEPT. -/
  state   : KMap (Nat × Bool) := []
  ready   : Bool := false
  holdup  : Bool := false
  /-- PWRFAIL_N has fallen, and the controller starts nothing until the next bring-up (R302). -/
  stopped : Bool := false
  /-- RESULT of the last management command, and of the one that runs. -/
  mresult : Nat := 0
  mrun    : Option Nat := none
  /-- A new volume whose zeros wait for hold-up energy: its base and size in MiB (R290, R302). -/
  fill    : Option (Nat × Nat) := none
  deriving DecidableEq, Repr


/-! ### Links, modes, power and health (chapters 15 and 16) -/

/-- Operating modes (Table 16.1). -/
inductive Mode where
  | reset
  | bringup
  | configure
  | service
  | drain
  | retain
  | diagnose
  | lockdown
  deriving DecidableEq, Repr

/-- A PCIe function's configuration state: instance number by key. -/
structure FnCfg where
  memEn    : Bool := false
  busMaster : Bool := false
  msixEn   : Bool := false
  msixMask : Bool := false
  /-- In D3hot (Table 15.1). -/
  d3       : Bool := false
  /-- Other writable configuration words, by offset. -/
  words    : KMap W32 := []
  deriving DecidableEq, Repr

/-- An SPDM session of a port: its number, and whether FINISH has ended its handshake. Its secrets lie in the secure scratch
of the Lining (R325, R335). -/
structure SpdmSession where
  id   : Nat
  open_ : Bool
  deriving DecidableEq, Repr

/-- A host port (R329 to R337). -/
structure PortSt where
  perst    : Bool := true
  up       : Bool := false
  speed    : Nat := 0
  width    : Nat := 0
  flit     : Bool := false
  cxl      : Bool := false
  /-- VF Enable and NumVFs of the SR-IOV capability (R330). -/
  vfEnable : Bool := false
  numVfs   : Nat := 0
  /-- Configuration of function 0 (key 0) and of VF k (key k). -/
  fns      : KMap FnCfg := []
  ptmOn    : Bool := false
  ptmValid : Bool := false
  /-- PTM context: master time in ns and the fabric cycle it belongs to. -/
  ptmNs    : Nat := 0
  ptmAt    : Nat := 0
  ptmSeamNs : Nat := 0
  ptmSeamNum : Nat := 0
  /-- SPDM requests that wait in the DOE mailbox for the firmware, with their parameter, and the sessions (R335). -/
  doe      : List (Nat × Nat) := []
  sessions : List SpdmSession := []
  deriving DecidableEq, Repr

/-- The I3C target (R339 to R343). -/
structure I3cSt where
  ready   : Bool := false
  da      : Option Nat := none
  ddr     : Bool := false
  enInt   : Bool := true
  mwl     : Nat := 64
  mrl     : Nat := 64
  /-- Read pointer: none before the first SET_ADDR or MIRROR; `toMirror` tells which space; words fetched ahead. -/
  toMirror : Bool := false
  ptr     : Nat := 0
  fetched : List W32 := []
  fetchAt : Nat := 0
  /-- Pending IBI causes with their payload, lowest cause first. -/
  causes  : KMap W32 := []
  /-- Words of private writes that wait to be processed: register offset and word (R341). -/
  waiting : List (Nat × W32) := []
  /-- The reset action that RSTACT set. -/
  rstAct  : Nat := 0
  deriving DecidableEq, Repr

/-- Device reset, boot and mode state (R346 to R354). -/
structure DevSt where
  mode     : Mode := .bringup
  /-- Target of DRAIN, or 8 ACTIVATE; 0 with none. -/
  target   : Nat := 0
  /-- An entry to RETAIN requested from CONFIGURE waits for its Seam. -/
  retainReq : Bool := false
  /-- The mode a RETAIN wake leads to, and the cycle of its start. -/
  wakeTo   : Nat := 0
  wakeAt   : Option Nat := none
  activating : Bool := false
  fatal    : Nat := 0
  thermtrip : Bool := false
  pwrok    : Bool := true
  resetN   : Bool := true
  /-- RESET_N fell at this cycle and the reset has not taken hold. -/
  resetFell : Option Nat := none
  pwrfailN : Bool := true
  straps   : Nat := 0
  bank0    : Nat := 0
  bank1    : Nat := 0
  bankRun  : Nat := 0
  fwUp     : Bool := false
  fwBusy   : Bool := false
  fwStaged : Bool := false
  fwResult : Nat := 0
  diagBusy : Option Nat := none
  diagUnit : Nat := 0
  diagResult : Nat := 0
  diagFail : Nat := 0
  diagErrs : Nat := 0
  nonce    : List Byte := []
  relResult : Nat := 0
  attempts : Nat := 0
  /-- The cycle at which PWROK last rose, from which boot times count (R346). -/
  bootAt   : Nat := 0
  lastErrPage : Nat := 0
  lastErrCode : Nat := 0
  lastErrClass : Nat := 0
  /-- Corrected and contained errors since reset, which mirror word 1 shows (Table 15.6). -/
  ceAll    : Nat := 0
  containedAll : Nat := 0
  /-- Memory_Info_Valid and Memory_Active of the CXL DVSEC, and its range size in GiB (R337). -/
  memInfo  : Bool := false
  memActive : Bool := false
  rangeGib : Nat := 0
  /-- The HDM decoder: committed, its base and its size in bytes (R336). -/
  decoder  : Bool := false
  hdmBase  : Nat := 0
  hdmSize  : Nat := 0
  /-- Fuses and flash configuration, as the part was made (R330, R337, R358, chapter 14). -/
  fuseSplit : Option Nat := none
  fuseLc   : Nat := 0
  flashWinBase : Nat := 0
  flashWinSize : Nat := 0
  /-- The bounds of the monitors, LO and HI, in mV: those of Table 18.5, unless the flash holds others (R383). -/
  flashVlim : KMap W32 :=
    [(0, 0x030402D8), (1, 0x030402D8), (2, 0x039F0369), (3, 0x039F0369), (4, 0x03380308), (5, 0x03380308), (6, 0x030402D8),
     (7, 0x030402D8), (8, 0x036B0339), (9, 0x036B0339), (10, 0x04D4048C), (11, 0x076206AE)]
  /-- Whether the regulators of VDD_PKT0 and VDD_PKT1 answer at their static addresses (R386). -/
  vreg0    : Bool := true
  vreg1    : Bool := true
  serial   : List Byte := []
  orderCode : List Byte := []
  fwVersion : Nat := 0
  vendorId : Nat := 0
  mipiId   : Nat := 0
  dieNumber : Nat := 0
  /-- What is attached to ports C and D (R338). -/
  devC     : Attached := .memory
  devD     : Attached := .memory
  deriving DecidableEq, Repr

/-- The power controller and the health monitors (R355 to R360). -/
structure PwrSt where
  current   : Nat := 20
  ceilPwr   : Nat := 20
  ceilTherm : Nat := 20
  /-- Power-fenced Panels, last fenced first, and thermally fenced Panels. -/
  capFenced : List Nat := []
  thermFenced : List Nat := []
  estimates : List Nat := []
  pkg       : Nat := 0
  /-- Completed windows: their averages, newest first (at most ten), and how many have completed. -/
  windows   : List Nat := []
  nWindows  : Nat := 0
  /-- Windows completed or begun when the controller last moved down, and up. -/
  lastDown  : Option Nat := none
  lastUp    : Option Nat := none
  /-- Cycles of the thermal ceiling's last fall and of the last reading at or above 97 °C. -/
  thermFell : Option Nat := none
  warmAt    : Nat := 0
  temps     : KMap Int := []
  volts     : KMap Nat := []
  hot       : Int := 0
  hotSensor : Nat := 0
  speeds    : KMap Nat := []
  /-- Set points of the Pocket supplies, mV, by die, and the cycle of the last write. -/
  vout      : KMap Nat := []
  voutAt    : KMap Nat := []
  panelMem  : KMap MemPower := []
  wakeFrom  : KMap MemPower := []
  deriving DecidableEq, Repr

/-- The whole machine. -/
structure State where
  /-- Fabric cycles since the model's time began (R1: 0.625 ns each). -/
  now     : Nat := 0
  /-- How many free values have been used; the model's own field. -/
  freeCtr : Nat := 0
  rf      : RegFile := {}
  seam    : SeamSt := {}
  sched   : SchedSt := {}
  pat     : PatSt := {}
  rings   : RingSt := {}
  xl      : XlSt := {}
  hmc     : KMap HmcSt := []
  cxt     : KMap CxtSt := []
  mem     : MemSt := {}
  noc     : NocSt := {}
  bm      : BmSt := {}
  portA   : PortSt := {}
  portB   : PortSt := {}
  i3c     : I3cSt := {}
  dev     : DevSt := {}
  pwr     : PwrSt := {}
  /-- Pocket clock count in sixteenths of a cycle: each fabric cycle adds the clock step in 100 MHz (R356). -/
  cyc16   : Nat := 0
  pkt     : KMap Pocket := []
  packs   : KMap PackUnit := []
  scans   : KMap ScanFront := []
  opers   : KMap OperSt := []
  ma      : MaSt := {}
  dg      : DgSt := {}
  keys    : KMap KeySlot := []
  ln      : LnSt := {}
  ldg     : LdgSt := {}
  /-- What has left the part, oldest first; the model's own record. -/
  out     : List OutMsg := []
  /-- The commands that wait, first in, first out. -/
  pending : List Instr := []
  deriving DecidableEq, Repr

/-- The ranges whose contents a device reset leaves undefined (R349): HBM, the capacity tier, and the Panel memories
above their task slots and scratchpads; each with the stamp given. -/
def resetUndef (stamp : Nat) : List (Nat × Nat × Nat) :=
  (0, 0x3000000000, stamp) :: (0x010000000000, 0x10000000000, stamp) ::
    (List.range 32).flatMap fun n =>
      [(0x040000000000 + n * 0x100000000 + 0x20000, 0x1E0000, stamp),
       (0x040000000000 + n * 0x100000000 + 0x80000000, 0x200000, stamp)]

/-- The machine right after a device reset (R349): mode BRINGUP, every register at its reset value, and the memories'
contents undefined. -/
def State.reset : State := { freeCtr := 1, mem := { undef := resetUndef 0 } }

end Sys2Proof.Machine
end

