-- ==== Sys2Proof/Machine/RegTable.lean ====
section
/-! DEFINITION. The register pages: their places (Tables 10.1 and 17.1), the access type and reset value of every field
(the register tables of chapters 02 to 17), and a named address for every register. -/

namespace Sys2Proof.Machine

/-- The kinds of register page (Table 17.1 and R366). -/
inductive PageKind where
  | dev
  | seam
  | sched
  | ma
  | xl
  | noc
  | bm
  | ldg
  | dg
  | ks
  | ln
  | mgt
  | pwr
  | hlt
  | hif
  | cxt
  | instApt
  | hmc
  | schedAgent
  | pnl
  | pnlHpu
  | pnlPu
  | pnlMn
  | nocStop
  | sf
  | pack
  | bmCh
  | pkt
  | instCuff
  | instRing
  | instPush
  | instPat
  | instMa
  | instLdg
  deriving DecidableEq, Repr

/-- One register of a page, or a run of `num` registers `step` bytes apart. The masks give the bits of each access type
(Table 0.2); `seam` marks the staged bits that are Seam-applied. `rst0` is the reset value on a page with index 0 and
`rst` on the others. -/
structure RegRow where
  off  : Nat
  step : Nat
  num  : Nat
  rw   : Nat
  st   : Nat
  seam : Nat
  rc   : Nat
  rst0 : Nat
  rst  : Nat
  deriving DecidableEq, Repr

/-- TYPE of a page (R366). -/
def PageKind.type : PageKind → Nat
  | .dev => 0x1
  | .seam => 0x2
  | .sched => 0x3
  | .ma => 0xC
  | .xl => 0xF
  | .noc => 0x10
  | .bm => 0x12
  | .ldg => 0x14
  | .dg => 0x15
  | .ks => 0x16
  | .ln => 0x17
  | .mgt => 0x19
  | .pwr => 0x1A
  | .hlt => 0x1B
  | .hif => 0x18
  | .cxt => 0xE
  | .instApt => 0x25
  | .hmc => 0xD
  | .schedAgent => 0x4
  | .pnl => 0x5
  | .pnlHpu => 0x6
  | .pnlPu => 0x7
  | .pnlMn => 0x8
  | .nocStop => 0x11
  | .sf => 0xA
  | .pack => 0xB
  | .bmCh => 0x13
  | .pkt => 0x9
  | .instCuff => 0x1C
  | .instRing => 0x20
  | .instPush => 0x21
  | .instPat => 0x22
  | .instMa => 0x23
  | .instLdg => 0x24

/-- CAPS of a page (R366); `idx` is the replica number. -/
def PageKind.caps (k : PageKind) (idx : Nat) : Nat :=
  match k with
  | .dev => 0x1
  | .seam => 0x3
  | .sched => 0x3
  | .ma => 0xC
  | .xl => 0x1
  | .noc => 0x3
  | .bm => 0x4
  | .ldg => 0x5
  | .dg => 0x1C
  | .ks => 0x1
  | .ln => 0
  | .mgt => 0
  | .pwr => 0x7
  | .hlt => 0
  | .hif => if idx = 0 then 1 else 0
  | .cxt => 0x4
  | .instApt => 0
  | .hmc => 0x4
  | .schedAgent => 0x4
  | .pnl => 0x4
  | .pnlHpu => 0xC
  | .pnlPu => 0xC
  | .pnlMn => 0xC
  | .nocStop => 0x7
  | .sf => 0x1D
  | .pack => 0x18
  | .bmCh => 0xD
  | .pkt => 0x4
  | .instCuff => 0x7
  | .instRing => 0x11
  | .instPush => 0
  | .instPat => 0x1
  | .instMa => 0x1
  | .instLdg => 0x1

/-- The replicated and single pages of the register window: kind, offset, count (Table 17.1). -/
def windowPages : List (PageKind × Nat × Nat) :=
  [(.dev, 0, 1),
   (.seam, 0x1000, 1),
   (.sched, 0x2000, 1),
   (.ma, 0x3000, 1),
   (.xl, 0x4000, 1),
   (.noc, 0x5000, 1),
   (.bm, 0x6000, 1),
   (.ldg, 0x7000, 1),
   (.dg, 0x8000, 1),
   (.ks, 0x9000, 1),
   (.ln, 0xA000, 1),
   (.mgt, 0xB000, 1),
   (.pwr, 0xC000, 1),
   (.hlt, 0xD000, 1),
   (.hif, 0xE000, 2),
   (.cxt, 0x10000, 2),
   (.instApt, 0x12000, 1),
   (.hmc, 0x18000, 8),
   (.schedAgent, 0x30000, 32),
   (.pnl, 0x50000, 32),
   (.pnlHpu, 0x70000, 32),
   (.pnlPu, 0x90000, 32),
   (.pnlMn, 0xB0000, 32),
   (.nocStop, 0xD0000, 48),
   (.sf, 0x100000, 64),
   (.pack, 0x140000, 64),
   (.bmCh, 0x180000, 64),
   (.pkt, 0x200000, 512),
   (.instCuff, 0x400000, 1025)]

/-- Where the per-instance windows begin in the model's register addresses: instance i's window (R211) is at
`instBase i`, above the 16 MiB register window. -/
def instBase (i : Nat) : Nat := 0x1000000 + i * 0x10000

/-- The number of instances (R2). -/
def numInst : Nat := 1025

/-- The common header (Table 17.3); COMPAT takes the strap at reset and is not in the table. -/
def headerRows : List RegRow :=
  [/- BLOCK_ID -/ ⟨0, 0, 1, 0, 0, 0, 0, 0x10000000, 0x10000000⟩,
   /- BLOCK_CAPS -/ ⟨0x4, 0, 1, 0, 0, 0, 0, 0, 0⟩,
   /- BLOCK_CTRL -/ ⟨0x8, 0, 1, 0x3, 0, 0, 0, 0x1, 0x1⟩,
   /- BLOCK_STATUS -/ ⟨0xC, 0, 1, 0, 0, 0, 0, 0, 0⟩,
   /- IRQ_ENABLE -/ ⟨0x10, 0, 1, 0xFFFFFFFF, 0, 0, 0, 0, 0⟩,
   /- IRQ_STATUS -/ ⟨0x14, 0, 1, 0, 0, 0, 0, 0, 0⟩,
   /- IRQ_FLAG -/ ⟨0x18, 0, 1, 0, 0, 0, 0, 0, 0⟩,
   /- IRQ_FORCE -/ ⟨0x1C, 0, 1, 0, 0, 0, 0, 0, 0⟩,
   /- ERR_CODE -/ ⟨0x20, 0, 1, 0, 0, 0, 0, 0, 0⟩,
   /- ERR_ADDR_LO -/ ⟨0x24, 0, 1, 0, 0, 0, 0, 0, 0⟩,
   /- ERR_ADDR_HI -/ ⟨0x28, 0, 1, 0, 0, 0, 0, 0, 0⟩,
   /- ERR_COUNT -/ ⟨0x2C, 0, 1, 0, 0, 0, 0xFFFFFFFF, 0, 0⟩,
   /- STAGE_COMMIT -/ ⟨0x30, 0, 1, 0, 0, 0, 0, 0, 0⟩,
   /- WRITE_GEN -/ ⟨0x34, 0, 1, 0, 0, 0, 0, 0, 0⟩,
   /- LAST_WRITER -/ ⟨0x38, 0, 1, 0, 0, 0, 0, 0, 0⟩]

/-- Registers of SEAM (Table 2.8, 02_seam_and_dispatch.md). -/
def seamRows : List RegRow :=
  [/- SEAM_CTRL -/ ⟨0x40, 0, 1, 0x2, 0x1, 0x1, 0, 0, 0⟩,
   /- SEAM_PERIOD -/ ⟨0x44, 0, 1, 0, 0x3FFFF, 0x3FFFF, 0, 0x3E80, 0x3E80⟩,
   /- SEAM_TOL -/ ⟨0x48, 0, 1, 0x7FF, 0, 0, 0, 0xA0, 0xA0⟩,
   /- SEAM_STATUS -/ ⟨0x4C, 0, 1, 0, 0, 0, 0, 0, 0⟩,
   /- SEAM_NUM_LO -/ ⟨0x50, 0, 1, 0, 0, 0, 0, 0, 0⟩,
   /- SEAM_NUM_HI -/ ⟨0x54, 0, 1, 0, 0, 0, 0, 0, 0⟩,
   /- SEAM_NUM_SET_LO -/ ⟨0x58, 0, 1, 0, 0xFFFFFFFF, 0, 0, 0, 0⟩,
   /- SEAM_NUM_SET_HI -/ ⟨0x5C, 0, 1, 0, 0xFFFFFFFF, 0, 0, 0, 0⟩,
   /- SEAM_NUM_LOAD -/ ⟨0x60, 0, 1, 0x1, 0, 0, 0, 0, 0⟩,
   /- SEAM_OFFSET -/ ⟨0x64, 0, 1, 0, 0, 0, 0, 0, 0⟩,
   /- SEAM_EARLY -/ ⟨0x68, 0, 1, 0, 0, 0, 0xFFFFFFFF, 0, 0⟩,
   /- SEAM_MISSED -/ ⟨0x6C, 0, 1, 0, 0, 0, 0xFFFFFFFF, 0, 0⟩]

/-- Registers of SCHED (Table 2.9, 02_seam_and_dispatch.md). -/
def schedRows : List RegRow :=
  [/- SCHED_CTRL -/ ⟨0x40, 0, 1, 0xFF03, 0x1C, 0x1C, 0, 0x1009, 0x1009⟩,
   /- SCHED_SAVE_BASE_LO -/ ⟨0x44, 0, 1, 0, 0xC0000000, 0, 0, 0, 0⟩,
   /- SCHED_SAVE_BASE_HI -/ ⟨0x48, 0, 1, 0, 0xFFFF, 0, 0, 0, 0⟩,
   /- SCHED_TRACE_BASE_LO -/ ⟨0x4C, 0, 1, 0, 0xFFFFF000, 0, 0, 0, 0⟩,
   /- SCHED_TRACE_BASE_HI -/ ⟨0x50, 0, 1, 0, 0xFFFF, 0, 0, 0, 0⟩,
   /- SCHED_TRACE_SIZE -/ ⟨0x54, 0, 1, 0, 0x1F, 0, 0, 0x8, 0x8⟩,
   /- SCHED_TRACE_CTRL -/ ⟨0x58, 0, 1, 0xFFFFF03, 0, 0, 0, 0xFF00, 0xFF00⟩,
   /- SCHED_TRACE_WR -/ ⟨0x5C, 0, 1, 0, 0, 0, 0, 0, 0⟩,
   /- SCHED_TRACE_RD -/ ⟨0x60, 0, 1, 0xFFFFFFFF, 0, 0, 0, 0, 0⟩,
   /- SCHED_TRACE_DROP -/ ⟨0x64, 0, 1, 0, 0, 0, 0xFFFFFFFF, 0, 0⟩,
   /- SCHED_DEC_STALE -/ ⟨0x68, 0, 1, 0, 0, 0, 0xFFFFFFFF, 0, 0⟩,
   /- SCHED_DEC_UNDER -/ ⟨0x6C, 0, 1, 0, 0, 0, 0xFFFFFFFF, 0, 0⟩,
   /- SCHED_HELD -/ ⟨0x70, 0, 1, 0, 0, 0, 0, 0, 0⟩]

/-- Registers of SCHED_AGENT (Table 2.10, 02_seam_and_dispatch.md). -/
def schedAgentRows : List RegRow :=
  [/- SCHED_SLOTS -/ ⟨0x40, 0, 1, 0, 0, 0, 0, 0x800, 0x800⟩,
   /- SCHED_PSTATE -/ ⟨0x44, 0, 1, 0, 0, 0, 0, 0x40, 0x40⟩,
   /- SCHED_SNAP_SEAM -/ ⟨0x48, 0, 1, 0, 0, 0, 0, 0, 0⟩,
   /- SCHED_SNAP_DISPATCH -/ ⟨0x4C, 0, 1, 0, 0, 0, 0, 0, 0⟩,
   /- SCHED_SNAP_STEAL -/ ⟨0x50, 0, 1, 0, 0, 0, 0, 0, 0⟩,
   /- SCHED_SNAP_CUT -/ ⟨0x54, 0, 1, 0, 0, 0, 0, 0, 0⟩,
   /- SCHED_SNAP_BUSY -/ ⟨0x58, 0, 1, 0, 0, 0, 0, 0, 0⟩]

/-- Registers of INST_CUFF (Table 3.11, 03_patterns_and_jobs.md). -/
def instCuffRows : List RegRow :=
  [/- INST_CUFF_SHARE -/ ⟨0x40, 0, 1, 0, 0x1FFF, 0x1FFF, 0, 0x1000, 0x1000⟩,
   /- INST_CUFF_SLOTS -/ ⟨0x44, 0, 1, 0x1FFFF, 0, 0, 0, 0x10000, 0⟩,
   /- INST_CUFF_JOBS -/ ⟨0x48, 0, 1, 0x7FFF, 0, 0, 0, 0x4000, 0⟩,
   /- INST_CUFF_DIGEST -/ ⟨0x4C, 0, 1, 0x1FF, 0, 0, 0, 0x100, 0⟩,
   /- INST_CUFF_MA_BASE -/ ⟨0x50, 0, 1, 0, 0x3FFFF, 0, 0, 0, 0⟩,
   /- INST_CUFF_MA_SIZE -/ ⟨0x54, 0, 1, 0, 0x7FFFF, 0, 0, 0x40000, 0⟩,
   /- INST_CUFF_LEDGER -/ ⟨0x58, 0, 1, 0x7FFF, 0, 0, 0, 0x4000, 0⟩,
   /- INST_CUFF_USE_SLOTS -/ ⟨0x5C, 0, 1, 0, 0, 0, 0, 0, 0⟩,
   /- INST_CUFF_USE_JOBS -/ ⟨0x60, 0, 1, 0, 0, 0, 0, 0, 0⟩,
   /- INST_CUFF_SNAP_CHARGE -/ ⟨0x64, 0, 1, 0, 0, 0, 0, 0, 0⟩,
   /- INST_CUFF_SNAP_SEAM -/ ⟨0x68, 0, 1, 0, 0, 0, 0, 0, 0⟩,
   /- INST_CUFF_SPENT -/ ⟨0x6C, 0, 1, 0, 0, 0, 0xFFFFFFFF, 0, 0⟩,
   /- INST_CUFF_RBASE_LO -/ ⟨0x80, 0x10, 8, 0, 0xFFFF0000, 0, 0, 0, 0⟩,
   /- INST_CUFF_RBASE_HI -/ ⟨0x84, 0x10, 8, 0, 0xFFFF, 0, 0, 0, 0⟩,
   /- INST_CUFF_RLEN -/ ⟨0x88, 0x10, 8, 0, 0xFFFFFFFF, 0, 0, 0, 0⟩]

/-- Registers of INST_PAT (Table 3.12, 03_patterns_and_jobs.md). -/
def instPatRows : List RegRow :=
  [/- INST_PAT_ADDR_LO -/ ⟨0x40, 0, 1, 0, 0xFFFFF000, 0, 0, 0, 0⟩,
   /- INST_PAT_ADDR_HI -/ ⟨0x44, 0, 1, 0, 0xFFFF, 0, 0, 0, 0⟩,
   /- INST_PAT_SLOT -/ ⟨0x48, 0, 1, 0, 0x3F, 0, 0, 0, 0⟩,
   /- INST_PAT_CMD -/ ⟨0x4C, 0, 1, 0, 0, 0, 0, 0, 0⟩,
   /- INST_PAT_STATUS -/ ⟨0x50, 0, 1, 0, 0, 0, 0, 0, 0⟩,
   /- INST_PAT_RESIDENT_LO -/ ⟨0x54, 0, 1, 0, 0, 0, 0, 0, 0⟩,
   /- INST_PAT_RESIDENT_HI -/ ⟨0x58, 0, 1, 0, 0, 0, 0, 0, 0⟩,
   /- INST_PAT_RETIRING_LO -/ ⟨0x5C, 0, 1, 0, 0, 0, 0, 0, 0⟩,
   /- INST_PAT_RETIRING_HI -/ ⟨0x60, 0, 1, 0, 0, 0, 0, 0, 0⟩]

/-- Registers of PACK (Table 4.12, 04_column_codec.md). -/
def packRows : List RegRow :=
  [/- PACK_CTRL -/ ⟨0x40, 0, 1, 0x7, 0, 0, 0, 0x1, 0x1⟩,
   /- PACK_STATUS -/ ⟨0x44, 0, 1, 0, 0, 0, 0, 0xFFE000, 0xFFE000⟩,
   /- PACK_BLOCKS -/ ⟨0x48, 0, 1, 0, 0, 0, 0xFFFFFFFF, 0, 0⟩,
   /- PACK_VALUES -/ ⟨0x4C, 0, 1, 0, 0, 0, 0xFFFFFFFF, 0, 0⟩,
   /- PACK_SELF_RETRY -/ ⟨0x50, 0, 1, 0, 0, 0, 0xFFFFFFFF, 0, 0⟩,
   /- PACK_CHECK_FAIL -/ ⟨0x54, 0, 1, 0, 0, 0, 0xFFFFFFFF, 0, 0⟩,
   /- PACK_PRED_A -/ ⟨0x58, 0, 1, 0, 0, 0, 0xFFFFFFFF, 0, 0⟩,
   /- PACK_PRED_B -/ ⟨0x5C, 0, 1, 0, 0, 0, 0xFFFFFFFF, 0, 0⟩,
   /- PACK_SPILL -/ ⟨0x60, 0, 1, 0, 0, 0, 0xFFFFFFFF, 0, 0⟩,
   /- PACK_ABANDON -/ ⟨0x64, 0, 1, 0, 0, 0, 0xFFFFFFFF, 0, 0⟩]

/-- Registers of SF (Table 5.11, 05_scan_fronts.md). -/
def sfRows : List RegRow :=
  [/- SF_CTRL -/ ⟨0x40, 0, 1, 0x3, 0, 0, 0, 0x3, 0x3⟩,
   /- SF_STATUS -/ ⟨0x44, 0, 1, 0, 0, 0, 0, 0xFFE0, 0xFFE0⟩,
   /- SF_LANES_DECODED -/ ⟨0x48, 0, 1, 0, 0, 0, 0xFFFFFFFF, 0, 0⟩,
   /- SF_LANES_SKIPPED -/ ⟨0x4C, 0, 1, 0, 0, 0, 0xFFFFFFFF, 0, 0⟩,
   /- SF_LANES_ELIDED -/ ⟨0x50, 0, 1, 0, 0, 0, 0xFFFFFFFF, 0, 0⟩,
   /- SF_ROWS_IN -/ ⟨0x54, 0, 1, 0, 0, 0, 0xFFFFFFFF, 0, 0⟩,
   /- SF_ROWS_OUT -/ ⟨0x58, 0, 1, 0, 0, 0, 0xFFFFFFFF, 0, 0⟩,
   /- SF_THROTTLE -/ ⟨0x5C, 0, 1, 0, 0, 0, 0xFFFFFFFF, 0, 0⟩,
   /- SF_INPUT_STALL -/ ⟨0x60, 0, 1, 0, 0, 0, 0xFFFFFFFF, 0, 0⟩,
   /- SF_HIST_MISMATCH -/ ⟨0x64, 0, 1, 0, 0, 0, 0xFFFFFFFF, 0, 0⟩,
   /- SF_CHECK_FAIL -/ ⟨0x68, 0, 1, 0, 0, 0, 0xFFFFFFFF, 0, 0⟩,
   /- SF_ABANDON -/ ⟨0x6C, 0, 1, 0, 0, 0, 0xFFFFFFFF, 0, 0⟩,
   /- SF_SNAP_SEAM -/ ⟨0x70, 0, 1, 0, 0, 0, 0, 0, 0⟩,
   /- SF_SNAP_ROWS_IN -/ ⟨0x74, 0, 1, 0, 0, 0, 0, 0, 0⟩,
   /- SF_SNAP_ROWS_OUT -/ ⟨0x78, 0, 1, 0, 0, 0, 0, 0, 0⟩,
   /- SF_SNAP_THROTTLE -/ ⟨0x7C, 0, 1, 0, 0, 0, 0, 0, 0⟩,
   /- SF_PGM -/ ⟨0x200, 0x4, 128, 0, 0xFFFFFFFF, 0, 0, 0, 0⟩]

/-- Registers of PNL_HPU (Table 6.13, 06_operators.md). -/
def pnlHpuRows : List RegRow :=
  [/- PNL_HPU_CTRL -/ ⟨0x40, 0, 1, 0x1, 0, 0, 0, 0x1, 0x1⟩,
   /- PNL_HPU_STATUS -/ ⟨0x44, 0, 1, 0, 0, 0, 0, 0xFFE0, 0xFFE0⟩,
   /- PNL_HPU_LOOKUPS -/ ⟨0x48, 0, 1, 0, 0, 0, 0xFFFFFFFF, 0, 0⟩,
   /- PNL_HPU_HITS -/ ⟨0x4C, 0, 1, 0, 0, 0, 0xFFFFFFFF, 0, 0⟩,
   /- PNL_HPU_INSERTS -/ ⟨0x50, 0, 1, 0, 0, 0, 0xFFFFFFFF, 0, 0⟩,
   /- PNL_HPU_GROUPS -/ ⟨0x54, 0, 1, 0, 0, 0, 0xFFFFFFFF, 0, 0⟩,
   /- PNL_HPU_CHAIN -/ ⟨0x58, 0, 1, 0, 0, 0, 0xFFFFFFFF, 0, 0⟩,
   /- PNL_HPU_LOCK_RETRY -/ ⟨0x5C, 0, 1, 0, 0, 0, 0xFFFFFFFF, 0, 0⟩,
   /- PNL_HPU_UNASSIGNED -/ ⟨0x60, 0, 1, 0, 0, 0, 0xFFFFFFFF, 0, 0⟩,
   /- PNL_HPU_ABANDON -/ ⟨0x64, 0, 1, 0, 0, 0, 0xFFFFFFFF, 0, 0⟩,
   /- PNL_HPU_SNAP_SEAM -/ ⟨0x68, 0, 1, 0, 0, 0, 0, 0, 0⟩,
   /- PNL_HPU_SNAP_LOOKUPS -/ ⟨0x6C, 0, 1, 0, 0, 0, 0, 0, 0⟩,
   /- PNL_HPU_SNAP_BUSY -/ ⟨0x70, 0, 1, 0, 0, 0, 0, 0, 0⟩]

/-- Registers of PNL_PU (Table 6.14, 06_operators.md). -/
def pnlPuRows : List RegRow :=
  [/- PNL_PU_CTRL -/ ⟨0x40, 0, 1, 0x1, 0, 0, 0, 0x1, 0x1⟩,
   /- PNL_PU_STATUS -/ ⟨0x44, 0, 1, 0, 0, 0, 0, 0xFFE00, 0xFFE00⟩,
   /- PNL_PU_RECORDS -/ ⟨0x48, 0, 1, 0, 0, 0, 0xFFFFFFFF, 0, 0⟩,
   /- PNL_PU_LINES -/ ⟨0x4C, 0, 1, 0, 0, 0, 0xFFFFFFFF, 0, 0⟩,
   /- PNL_PU_PART_FULL -/ ⟨0x50, 0, 1, 0, 0, 0, 0xFFFFFFFF, 0, 0⟩,
   /- PNL_PU_ABANDON -/ ⟨0x54, 0, 1, 0, 0, 0, 0xFFFFFFFF, 0, 0⟩,
   /- PNL_PU_SNAP_SEAM -/ ⟨0x58, 0, 1, 0, 0, 0, 0, 0, 0⟩,
   /- PNL_PU_SNAP_RECORDS -/ ⟨0x5C, 0, 1, 0, 0, 0, 0, 0, 0⟩,
   /- PNL_PU_SNAP_BUSY -/ ⟨0x60, 0, 1, 0, 0, 0, 0, 0, 0⟩]

/-- Registers of PNL_MN (Table 6.15, 06_operators.md). -/
def pnlMnRows : List RegRow :=
  [/- PNL_MN_CTRL -/ ⟨0x40, 0, 1, 0x1, 0, 0, 0, 0x1, 0x1⟩,
   /- PNL_MN_STATUS -/ ⟨0x44, 0, 1, 0, 0, 0, 0, 0xFFE0, 0xFFE0⟩,
   /- PNL_MN_RECORDS_IN -/ ⟨0x48, 0, 1, 0, 0, 0, 0xFFFFFFFF, 0, 0⟩,
   /- PNL_MN_RECORDS_OUT -/ ⟨0x4C, 0, 1, 0, 0, 0, 0xFFFFFFFF, 0, 0⟩,
   /- PNL_MN_FOLDED -/ ⟨0x50, 0, 1, 0, 0, 0, 0xFFFFFFFF, 0, 0⟩,
   /- PNL_MN_SATURATED -/ ⟨0x54, 0, 1, 0, 0, 0, 0xFFFFFFFF, 0, 0⟩,
   /- PNL_MN_TRAPS -/ ⟨0x58, 0, 1, 0, 0, 0, 0xFFFFFFFF, 0, 0⟩,
   /- PNL_MN_ABANDON -/ ⟨0x5C, 0, 1, 0, 0, 0, 0xFFFFFFFF, 0, 0⟩,
   /- PNL_MN_SNAP_SEAM -/ ⟨0x60, 0, 1, 0, 0, 0, 0, 0, 0⟩,
   /- PNL_MN_SNAP_RECORDS_OUT -/ ⟨0x64, 0, 1, 0, 0, 0, 0, 0, 0⟩,
   /- PNL_MN_SNAP_BUSY -/ ⟨0x68, 0, 1, 0, 0, 0, 0, 0, 0⟩]

/-- Registers of MA (Table 7.6, 07_match_array.md). -/
def maRows : List RegRow :=
  [/- MA_CTRL -/ ⟨0x40, 0, 1, 0x1, 0, 0, 0, 0x1, 0x1⟩,
   /- MA_STATUS -/ ⟨0x44, 0, 1, 0, 0, 0, 0, 0, 0⟩,
   /- MA_LOOKUPS -/ ⟨0x48, 0, 1, 0, 0, 0, 0xFFFFFFFF, 0, 0⟩,
   /- MA_HITS -/ ⟨0x4C, 0, 1, 0, 0, 0, 0xFFFFFFFF, 0, 0⟩,
   /- MA_MULTI -/ ⟨0x50, 0, 1, 0, 0, 0, 0xFFFFFFFF, 0, 0⟩,
   /- MA_FALSE_HIT -/ ⟨0x54, 0, 1, 0, 0, 0, 0xFFFFFFFF, 0, 0⟩,
   /- MA_SUSPECT -/ ⟨0x58, 0, 1, 0, 0, 0, 0, 0, 0⟩,
   /- MA_SUSPECT_FIRST -/ ⟨0x5C, 0, 1, 0, 0, 0, 0, 0x80000000, 0x80000000⟩,
   /- MA_LIVE_WRITE -/ ⟨0x60, 0, 1, 0, 0, 0, 0xFFFFFFFF, 0, 0⟩,
   /- MA_UPD_OPS -/ ⟨0x64, 0, 1, 0, 0, 0, 0xFFFFFFFF, 0, 0⟩,
   /- MA_SCRUB_PASSES -/ ⟨0x68, 0, 1, 0, 0, 0, 0xFFFFFFFF, 0, 0⟩,
   /- MA_SNAP_SEAM -/ ⟨0x6C, 0, 1, 0, 0, 0, 0, 0, 0⟩,
   /- MA_SNAP_LOOKUPS -/ ⟨0x70, 0, 1, 0, 0, 0, 0, 0, 0⟩,
   /- MA_SNAP_FALSE_HIT -/ ⟨0x74, 0, 1, 0, 0, 0, 0, 0, 0⟩,
   /- MA_SNAP_WAIT -/ ⟨0x78, 0, 1, 0, 0, 0, 0, 0, 0⟩]

/-- Registers of INST_MA (Table 7.7, 07_match_array.md). -/
def instMaRows : List RegRow :=
  [/- INST_MA_CMD -/ ⟨0x40, 0, 1, 0, 0, 0, 0, 0, 0⟩,
   /- INST_MA_POS -/ ⟨0x44, 0, 1, 0, 0x3FFFF, 0, 0, 0, 0⟩,
   /- INST_MA_RANGE_LO -/ ⟨0x48, 0, 1, 0, 0x3FFFF, 0, 0, 0, 0⟩,
   /- INST_MA_RANGE_SIZE -/ ⟨0x4C, 0, 1, 0, 0x7FFFF, 0, 0, 0, 0⟩,
   /- INST_MA_COUNT -/ ⟨0x50, 0, 1, 0, 0x7FFFF, 0, 0, 0, 0⟩,
   /- INST_MA_ADDR_LO -/ ⟨0x54, 0, 1, 0, 0xFFFFFFF0, 0, 0, 0, 0⟩,
   /- INST_MA_ADDR_HI -/ ⟨0x58, 0, 1, 0, 0xFFFF, 0, 0, 0, 0⟩,
   /- INST_MA_FLAGS -/ ⟨0x5C, 0, 1, 0, 0x3FFF, 0, 0, 0x80, 0x80⟩,
   /- INST_MA_KEY -/ ⟨0x60, 0x4, 5, 0, 0xFFFFFFFF, 0, 0, 0, 0⟩,
   /- INST_MA_MASK -/ ⟨0x74, 0x4, 5, 0, 0xFFFFFFFF, 0, 0, 0, 0⟩,
   /- INST_MA_DATA -/ ⟨0x88, 0, 1, 0, 0xFFFFFFFF, 0, 0, 0, 0⟩,
   /- INST_MA_STATUS -/ ⟨0x8C, 0, 1, 0, 0, 0, 0, 0, 0⟩,
   /- INST_MA_LANDED -/ ⟨0x90, 0, 1, 0, 0, 0, 0, 0, 0⟩,
   /- INST_MA_COUNT_DONE -/ ⟨0x94, 0, 1, 0, 0, 0, 0, 0, 0⟩]

/-- Registers of PKT (Table 8.10, 08_pockets.md). -/
def pktRows : List RegRow :=
  [/- PKT_CTRL -/ ⟨0x40, 0, 1, 0x3, 0, 0, 0, 0x2, 0x2⟩,
   /- PKT_STATUS -/ ⟨0x44, 0, 1, 0, 0, 0, 0, 0xFFFFFFE4, 0xFFFFFFE4⟩,
   /- PKT_LV_IDLE -/ ⟨0x48, 0, 1, 0xFFFF, 0, 0, 0, 0x1000, 0x1000⟩,
   /- PKT_PC_LO -/ ⟨0x4C, 0, 1, 0, 0, 0, 0, 0, 0⟩,
   /- PKT_PC_HI -/ ⟨0x50, 0, 1, 0, 0, 0, 0, 0, 0⟩,
   /- PKT_INSTR -/ ⟨0x54, 0, 1, 0, 0, 0, 0xFFFFFFFF, 0, 0⟩,
   /- PKT_L1_HIT -/ ⟨0x58, 0, 1, 0, 0, 0, 0xFFFFFFFF, 0, 0⟩,
   /- PKT_L1_MISS -/ ⟨0x5C, 0, 1, 0, 0, 0, 0xFFFFFFFF, 0, 0⟩,
   /- PKT_RECALL -/ ⟨0x60, 0, 1, 0, 0, 0, 0xFFFFFFFF, 0, 0⟩,
   /- PKT_WRITEBACK -/ ⟨0x64, 0, 1, 0, 0, 0, 0xFFFFFFFF, 0, 0⟩,
   /- PKT_BANK_STALL -/ ⟨0x68, 0, 1, 0, 0, 0, 0xFFFFFFFF, 0, 0⟩,
   /- PKT_LV_WAKE -/ ⟨0x6C, 0, 1, 0, 0, 0, 0xFFFFFFFF, 0, 0⟩,
   /- PKT_REPLAY -/ ⟨0x70, 0, 1, 0, 0, 0, 0xFFFFFFFF, 0, 0⟩,
   /- PKT_TRAPS -/ ⟨0x74, 0, 1, 0, 0, 0, 0xFFFFFFFF, 0, 0⟩,
   /- PKT_SNAP_SEAM -/ ⟨0x78, 0, 1, 0, 0, 0, 0, 0, 0⟩,
   /- PKT_SNAP_INSTR -/ ⟨0x7C, 0, 1, 0, 0, 0, 0, 0, 0⟩,
   /- PKT_SNAP_MISS -/ ⟨0x80, 0, 1, 0, 0, 0, 0, 0, 0⟩,
   /- PKT_DBG_SEL -/ ⟨0x84, 0, 1, 0x7F, 0, 0, 0, 0, 0⟩,
   /- PKT_DBG_DATA_LO -/ ⟨0x88, 0, 1, 0xFFFFFFFF, 0, 0, 0, 0, 0⟩,
   /- PKT_DBG_DATA_HI -/ ⟨0x8C, 0, 1, 0xFFFFFFFF, 0, 0, 0, 0, 0⟩]

/-- Registers of PNL (Table 8.11, 08_pockets.md). -/
def pnlRows : List RegRow :=
  [/- PNL_CTRL -/ ⟨0x40, 0, 1, 0x1, 0, 0, 0, 0x1, 0x1⟩,
   /- PNL_STATUS -/ ⟨0x44, 0, 1, 0, 0, 0, 0, 0, 0⟩,
   /- PNL_BANK_STALL -/ ⟨0x48, 0, 1, 0, 0, 0, 0xFFFFFFFF, 0, 0⟩,
   /- PNL_STREAM_LINES -/ ⟨0x4C, 0, 1, 0, 0, 0, 0xFFFFFFFF, 0, 0⟩,
   /- PNL_REPLAY -/ ⟨0x50, 0, 1, 0, 0, 0, 0xFFFFFFFF, 0, 0⟩,
   /- PNL_PARITY_FATAL -/ ⟨0x54, 0, 1, 0, 0, 0, 0xFFFFFFFF, 0, 0⟩,
   /- PNL_WAKES -/ ⟨0x58, 0, 1, 0, 0, 0, 0xFFFFFFFF, 0, 0⟩,
   /- PNL_SNAP_SEAM -/ ⟨0x5C, 0, 1, 0, 0, 0, 0, 0, 0⟩,
   /- PNL_SNAP_STALL -/ ⟨0x60, 0, 1, 0, 0, 0, 0, 0, 0⟩]

/-- Registers of INST_RING (Table 10.12, 10_host_rings.md). -/
def instRingRows : List RegRow :=
  [/- INST_STATUS -/ ⟨0x40, 0, 1, 0, 0, 0, 0, 0, 0⟩,
   /- INST_VEC -/ ⟨0x44, 0, 1, 0xFFFFFFFF, 0, 0, 0, 0, 0⟩,
   /- INST_ABORT -/ ⟨0x48, 0, 1, 0, 0, 0, 0, 0, 0⟩,
   /- INST_ABORT_RESULT -/ ⟨0x4C, 0, 1, 0, 0, 0, 0, 0, 0⟩,
   /- INST_DB_DROP -/ ⟨0x50, 0, 1, 0, 0, 0, 0xFFFFFFFF, 0, 0⟩,
   /- INST_GEN_DISCARD -/ ⟨0x54, 0, 1, 0, 0, 0, 0xFFFFFFFF, 0, 0⟩,
   /- INST_JOBS_ACCEPTED -/ ⟨0x58, 0, 1, 0, 0, 0, 0, 0, 0⟩,
   /- INST_JOBS_COMPLETED -/ ⟨0x5C, 0, 1, 0, 0, 0, 0, 0, 0⟩,
   /- INST_JR_BASE_LO -/ ⟨0x100, 0x20, 8, 0, 0xFFFFF000, 0, 0, 0, 0⟩,
   /- INST_JR_BASE_HI -/ ⟨0x104, 0x20, 8, 0, 0xFFFFFFFF, 0, 0, 0, 0⟩,
   /- INST_JR_SIZE -/ ⟨0x108, 0x20, 8, 0, 0x1F, 0, 0, 0x4, 0x4⟩,
   /- INST_JR_CTRL -/ ⟨0x10C, 0x20, 8, 0x1, 0x6, 0, 0, 0, 0⟩,
   /- INST_JR_SHADOW_LO -/ ⟨0x110, 0x20, 8, 0, 0xFFFFFFF8, 0, 0, 0, 0⟩,
   /- INST_JR_SHADOW_HI -/ ⟨0x114, 0x20, 8, 0, 0xFFFFFFFF, 0, 0, 0, 0⟩,
   /- INST_JR_HEAD -/ ⟨0x118, 0x20, 8, 0, 0, 0, 0, 0x10000, 0x10000⟩,
   /- INST_JR_TAIL_SEEN -/ ⟨0x11C, 0x20, 8, 0, 0, 0, 0, 0, 0⟩,
   /- INST_CR_BASE_LO -/ ⟨0x200, 0x20, 4, 0, 0xFFFFF000, 0, 0, 0, 0⟩,
   /- INST_CR_BASE_HI -/ ⟨0x204, 0x20, 4, 0, 0xFFFFFFFF, 0, 0, 0, 0⟩,
   /- INST_CR_SIZE -/ ⟨0x208, 0x20, 4, 0, 0x1F, 0, 0, 0x4, 0x4⟩,
   /- INST_CR_CTRL -/ ⟨0x20C, 0x20, 4, 0x1FF, 0, 0, 0, 0, 0⟩,
   /- INST_CR_MOD -/ ⟨0x210, 0x20, 4, 0xFFFFFF, 0, 0, 0, 0, 0⟩,
   /- INST_CR_HEAD -/ ⟨0x214, 0x20, 4, 0x1FFFF, 0, 0, 0, 0x10000, 0x10000⟩,
   /- INST_CR_TAIL -/ ⟨0x218, 0x20, 4, 0, 0, 0, 0, 0x10000, 0x10000⟩,
   /- INST_CR_HELD -/ ⟨0x21C, 0x20, 4, 0, 0, 0, 0, 0, 0⟩]

/-- Registers of INST_PUSH (Table 10.13, 10_host_rings.md). -/
def instPushRows : List RegRow :=
  [/- INST_PUSH_SLOT -/ ⟨0x200, 0x200, 4, 0, 0, 0, 0, 0, 0⟩,
   /- INST_JR_TAIL -/ ⟨0x300, 0x200, 4, 0, 0, 0, 0, 0, 0⟩]

/-- Registers of HMC (Table 11.6, 11_memory_and_translation.md). -/
def hmcRows : List RegRow :=
  [/- HMC_CTRL -/ ⟨0x40, 0, 1, 0x7F, 0, 0, 0, 0x67, 0x67⟩,
   /- HMC_SR_IDLE -/ ⟨0x44, 0, 1, 0xFFFF, 0, 0, 0, 0x32, 0x32⟩,
   /- HMC_SCRUB -/ ⟨0x48, 0, 1, 0xFFFFFF, 0, 0, 0, 0x1A90, 0x1A90⟩,
   /- HMC_STATUS -/ ⟨0x4C, 0, 1, 0, 0, 0, 0, 0, 0⟩,
   /- HMC_IDENT_LO -/ ⟨0x50, 0, 1, 0, 0, 0, 0, 0, 0⟩,
   /- HMC_IDENT_HI -/ ⟨0x54, 0, 1, 0, 0, 0, 0, 0, 0⟩,
   /- HMC_READS -/ ⟨0x58, 0, 1, 0, 0, 0, 0xFFFFFFFF, 0, 0⟩,
   /- HMC_WRITES -/ ⟨0x5C, 0, 1, 0, 0, 0, 0xFFFFFFFF, 0, 0⟩,
   /- HMC_FORWARDS -/ ⟨0x60, 0, 1, 0, 0, 0, 0xFFFFFFFF, 0, 0⟩,
   /- HMC_ACTIVATES -/ ⟨0x64, 0, 1, 0, 0, 0, 0xFFFFFFFF, 0, 0⟩,
   /- HMC_NREFRESH -/ ⟨0x68, 0, 1, 0, 0, 0, 0xFFFFFFFF, 0, 0⟩,
   /- HMC_CE -/ ⟨0x6C, 0, 1, 0, 0, 0, 0xFFFFFFFF, 0, 0⟩,
   /- HMC_UE -/ ⟨0x70, 0, 1, 0, 0, 0, 0xFFFFFFFF, 0, 0⟩,
   /- HMC_SR_ENTRIES -/ ⟨0x74, 0, 1, 0, 0, 0, 0xFFFFFFFF, 0, 0⟩,
   /- HMC_SNAP_SEAM -/ ⟨0x78, 0, 1, 0, 0, 0, 0, 0, 0⟩,
   /- HMC_SNAP_READS -/ ⟨0x7C, 0, 1, 0, 0, 0, 0, 0, 0⟩,
   /- HMC_SNAP_WRITES -/ ⟨0x80, 0, 1, 0, 0, 0, 0, 0, 0⟩,
   /- HMC_1500_CMD -/ ⟨0x84, 0, 1, 0, 0, 0, 0, 0, 0⟩,
   /- HMC_1500_DATA -/ ⟨0x88, 0, 1, 0xFFFFFFFF, 0, 0, 0, 0, 0⟩]

/-- Registers of CXT (Table 11.7, 11_memory_and_translation.md). -/
def cxtRows : List RegRow :=
  [/- CXT_CTRL -/ ⟨0x40, 0, 1, 0x1, 0, 0, 0, 0x1, 0x1⟩,
   /- CXT_STATUS -/ ⟨0x44, 0, 1, 0, 0, 0, 0, 0, 0⟩,
   /- CXT_CAP -/ ⟨0x48, 0, 1, 0, 0, 0, 0, 0, 0⟩,
   /- CXT_READS -/ ⟨0x4C, 0, 1, 0, 0, 0, 0xFFFFFFFF, 0, 0⟩,
   /- CXT_WRITES -/ ⟨0x50, 0, 1, 0, 0, 0, 0xFFFFFFFF, 0, 0⟩,
   /- CXT_CE -/ ⟨0x54, 0, 1, 0, 0, 0, 0xFFFFFFFF, 0, 0⟩,
   /- CXT_UE -/ ⟨0x58, 0, 1, 0, 0, 0, 0xFFFFFFFF, 0, 0⟩,
   /- CXT_POISON -/ ⟨0x5C, 0, 1, 0, 0, 0, 0xFFFFFFFF, 0, 0⟩,
   /- CXT_CHECK_HIT -/ ⟨0x60, 0, 1, 0, 0, 0, 0xFFFFFFFF, 0, 0⟩,
   /- CXT_SNAP_SEAM -/ ⟨0x64, 0, 1, 0, 0, 0, 0, 0, 0⟩,
   /- CXT_SNAP_LINES -/ ⟨0x68, 0, 1, 0, 0, 0, 0, 0, 0⟩]

/-- Registers of XL (Table 11.8, 11_memory_and_translation.md). -/
def xlRows : List RegRow :=
  [/- XL_RT_SEL -/ ⟨0x40, 0, 1, 0x7FF, 0, 0, 0, 0, 0⟩,
   /- XL_RT_BASE_LO -/ ⟨0x44, 0, 1, 0, 0xFFFFF000, 0, 0, 0, 0⟩,
   /- XL_RT_BASE_HI -/ ⟨0x48, 0, 1, 0, 0xFFFF, 0, 0, 0, 0⟩,
   /- XL_INST_STATUS -/ ⟨0x4C, 0, 1, 0, 0, 0, 0, 0, 0⟩,
   /- XL_STOP_ADDR_LO -/ ⟨0x50, 0, 1, 0, 0, 0, 0, 0, 0⟩,
   /- XL_STOP_ADDR_HI -/ ⟨0x54, 0, 1, 0, 0, 0, 0, 0, 0⟩,
   /- XL_INVAL -/ ⟨0x58, 0, 1, 0, 0, 0, 0, 0, 0⟩,
   /- XL_INVAL_STATUS -/ ⟨0x5C, 0, 1, 0, 0, 0, 0, 0, 0⟩,
   /- XL_PROMO_REQ -/ ⟨0x60, 0, 1, 0, 0, 0, 0, 0, 0⟩,
   /- XL_PROMO_STATUS -/ ⟨0x64, 0, 1, 0, 0, 0, 0, 0, 0⟩,
   /- XL_WALKS -/ ⟨0x68, 0, 1, 0, 0, 0, 0xFFFFFFFF, 0, 0⟩,
   /- XL_FAULTS -/ ⟨0x6C, 0, 1, 0, 0, 0, 0xFFFFFFFF, 0, 0⟩,
   /- XL_AD_CAS -/ ⟨0x70, 0, 1, 0, 0, 0, 0xFFFFFFFF, 0, 0⟩,
   /- XL_AD_RETRY -/ ⟨0x74, 0, 1, 0, 0, 0, 0xFFFFFFFF, 0, 0⟩,
   /- XL_PROMOTIONS -/ ⟨0x78, 0, 1, 0, 0, 0, 0xFFFFFFFF, 0, 0⟩,
   /- XL_DEMOTIONS -/ ⟨0x7C, 0, 1, 0, 0, 0, 0xFFFFFFFF, 0, 0⟩,
   /- XL_PROMO_FAIL -/ ⟨0x80, 0, 1, 0, 0, 0, 0xFFFFFFFF, 0, 0⟩,
   /- XL_PROMO_IGNORED -/ ⟨0x84, 0, 1, 0, 0, 0, 0xFFFFFFFF, 0, 0⟩,
   /- XL_POOL_BASE_LO -/ ⟨0x100, 0x10, 16, 0, 0xFFFF0000, 0, 0, 0, 0⟩,
   /- XL_POOL_BASE_HI -/ ⟨0x104, 0x10, 16, 0, 0xFFFF, 0, 0, 0, 0⟩,
   /- XL_POOL_CFG -/ ⟨0x108, 0x10, 16, 0, 0xF07FF, 0, 0, 0, 0⟩,
   /- XL_POOL_FREE -/ ⟨0x10C, 0x10, 16, 0, 0, 0, 0, 0, 0⟩]

/-- Registers of NOC (Table 12.14, 12_mesh_and_bulk_mover.md). -/
def nocRows : List RegRow :=
  [/- NOC_CTRL -/ ⟨0x40, 0, 1, 0x1, 0, 0, 0, 0x1, 0x1⟩,
   /- NOC_STATUS -/ ⟨0x44, 0, 1, 0, 0, 0, 0, 0, 0⟩,
   /- NOC_OLD_EPOCH -/ ⟨0x48, 0, 1, 0, 0, 0, 0, 0, 0⟩,
   /- NOC_FLIPS -/ ⟨0x4C, 0, 1, 0, 0, 0, 0xFFFFFFFF, 0, 0⟩,
   /- NOC_POISON -/ ⟨0x50, 0, 1, 0, 0, 0, 0xFFFFFFFF, 0, 0⟩]

/-- Registers of NOC_STOP (Table 12.15, 12_mesh_and_bulk_mover.md). -/
def nocStopRows : List RegRow :=
  [/- NOC_RT -/ ⟨0x40, 0x4, 8, 0, 0x7FF, 0x3F, 0, 0, 0⟩,
   /- NOC_LINK -/ ⟨0x60, 0x4, 4, 0, 0, 0, 0, 0, 0⟩,
   /- NOC_RETRY -/ ⟨0x70, 0x4, 4, 0, 0, 0, 0xFFFFFFFF, 0, 0⟩,
   /- NOC_DOM -/ ⟨0x80, 0, 1, 0, 0, 0, 0, 0, 0⟩,
   /- NOC_DOM_OUT -/ ⟨0x84, 0, 1, 0, 0, 0, 0, 0, 0⟩,
   /- NOC_ABSORBED -/ ⟨0x88, 0, 1, 0, 0, 0, 0xFFFFFFFF, 0, 0⟩,
   /- NOC_DROPPED -/ ⟨0x8C, 0, 1, 0, 0, 0, 0xFFFFFFFF, 0, 0⟩,
   /- NOC_STAT_SEL -/ ⟨0x90, 0, 1, 0x3F, 0, 0, 0, 0, 0⟩,
   /- NOC_SNAP_SEAM -/ ⟨0x94, 0, 1, 0, 0, 0, 0, 0, 0⟩,
   /- NOC_SNAP_REQS -/ ⟨0x98, 0, 1, 0, 0, 0, 0, 0, 0⟩,
   /- NOC_SNAP_RD -/ ⟨0x9C, 0, 1, 0, 0, 0, 0, 0, 0⟩,
   /- NOC_SNAP_WR -/ ⟨0xA0, 0, 1, 0, 0, 0, 0, 0, 0⟩,
   /- NOC_SNAP_LAT_SUM -/ ⟨0xA4, 0, 1, 0, 0, 0, 0, 0, 0⟩,
   /- NOC_SNAP_LAT_MAX -/ ⟨0xA8, 0, 1, 0, 0, 0, 0, 0, 0⟩,
   /- NOC_SNAP_HIST -/ ⟨0xAC, 0x4, 8, 0, 0, 0, 0, 0, 0⟩]

/-- Registers of BM (Table 12.16, 12_mesh_and_bulk_mover.md). -/
def bmRows : List RegRow :=
  [/- BM_STATUS -/ ⟨0x40, 0, 1, 0, 0, 0, 0, 0, 0⟩,
   /- BM_READ -/ ⟨0x44, 0, 1, 0, 0, 0, 0xFFFFFFFF, 0, 0⟩,
   /- BM_WRITE -/ ⟨0x48, 0, 1, 0, 0, 0, 0xFFFFFFFF, 0, 0⟩,
   /- BM_SNAP_SEAM -/ ⟨0x4C, 0, 1, 0, 0, 0, 0, 0, 0⟩,
   /- BM_SNAP_WRITE -/ ⟨0x50, 0, 1, 0, 0, 0, 0, 0, 0⟩]

/-- Registers of BM_CH (Table 12.17, 12_mesh_and_bulk_mover.md). -/
def bmChRows : List RegRow :=
  [/- BM_CH_CTRL -/ ⟨0x40, 0, 1, 0x1, 0x1E, 0, 0, 0x8, 0x8⟩,
   /- BM_CH_OWNER -/ ⟨0x44, 0, 1, 0, 0x7FFFF, 0, 0, 0, 0⟩,
   /- BM_CH_QADDR_LO -/ ⟨0x48, 0, 1, 0, 0xFFFFFFC0, 0, 0, 0, 0⟩,
   /- BM_CH_QADDR_HI -/ ⟨0x4C, 0, 1, 0, 0xFFFFFFFF, 0, 0, 0, 0⟩,
   /- BM_CH_POLL -/ ⟨0x50, 0, 1, 0xFFFF, 0, 0, 0, 0x400, 0x400⟩,
   /- BM_CH_RATE -/ ⟨0x54, 0, 1, 0xFFFF, 0, 0, 0, 0, 0⟩,
   /- BM_CH_CMD -/ ⟨0x58, 0, 1, 0, 0, 0, 0, 0, 0⟩,
   /- BM_CH_STATUS -/ ⟨0x5C, 0, 1, 0, 0, 0, 0, 0, 0⟩,
   /- BM_CH_REMAIN_LO -/ ⟨0x60, 0, 1, 0, 0, 0, 0, 0, 0⟩,
   /- BM_CH_REMAIN_HI -/ ⟨0x64, 0, 1, 0, 0, 0, 0, 0, 0⟩,
   /- BM_CH_BYTES -/ ⟨0x68, 0, 1, 0, 0, 0, 0xFFFFFFFF, 0, 0⟩,
   /- BM_CH_DESCS -/ ⟨0x6C, 0, 1, 0, 0, 0, 0xFFFFFFFF, 0, 0⟩,
   /- BM_CH_PAUSES -/ ⟨0x70, 0, 1, 0, 0, 0, 0xFFFFFFFF, 0, 0⟩,
   /- BM_CH_SNAP_SEAM -/ ⟨0x74, 0, 1, 0, 0, 0, 0, 0, 0⟩,
   /- BM_CH_SNAP_BYTES -/ ⟨0x78, 0, 1, 0, 0, 0, 0, 0, 0⟩,
   /- BM_CH_DESC -/ ⟨0x80, 0x4, 10, 0, 0xFFFFFFFF, 0, 0, 0, 0⟩,
   /- BM_CH_DESC_RES -/ ⟨0xA8, 0x4, 6, 0, 0, 0, 0, 0, 0⟩]

/-- Registers of LDG (Table 13.8, 13_ledger_store.md). -/
def ldgRows : List RegRow :=
  [/- LDG_CTRL -/ ⟨0x40, 0, 1, 0x1, 0, 0, 0, 0x1, 0x1⟩,
   /- LDG_STATUS -/ ⟨0x44, 0, 1, 0, 0, 0, 0, 0, 0⟩,
   /- LDG_QUEUED -/ ⟨0x48, 0, 1, 0, 0, 0, 0, 0, 0⟩,
   /- LDG_INFLIGHT -/ ⟨0x4C, 0, 1, 0, 0, 0, 0, 0, 0⟩,
   /- LDG_REPLAY -/ ⟨0x50, 0, 1, 0, 0, 0, 0, 0, 0⟩,
   /- LDG_WRITE -/ ⟨0x54, 0, 1, 0, 0, 0, 0xFFFFFFFF, 0, 0⟩,
   /- LDG_READ -/ ⟨0x58, 0, 1, 0, 0, 0, 0xFFFFFFFF, 0, 0⟩,
   /- LDG_CE -/ ⟨0x5C, 0, 1, 0, 0, 0, 0xFFFFFFFF, 0, 0⟩,
   /- LDG_UE -/ ⟨0x60, 0, 1, 0, 0, 0, 0xFFFFFFFF, 0, 0⟩,
   /- LDG_SNAP_SEAM -/ ⟨0x64, 0, 1, 0, 0, 0, 0, 0, 0⟩,
   /- LDG_SNAP_COMMITS -/ ⟨0x68, 0, 1, 0, 0, 0, 0, 0, 0⟩,
   /- LDG_SNAP_WRITE -/ ⟨0x6C, 0, 1, 0, 0, 0, 0, 0, 0⟩,
   /- LDG_MCMD -/ ⟨0x80, 0, 1, 0, 0, 0, 0, 0, 0⟩,
   /- LDG_MSTATUS -/ ⟨0x84, 0, 1, 0, 0, 0, 0, 0, 0⟩,
   /- LDG_M_VOL -/ ⟨0x88, 0, 1, 0, 0xFF, 0, 0, 0, 0⟩,
   /- LDG_M_OWNER -/ ⟨0x8C, 0, 1, 0, 0x7FF, 0, 0, 0, 0⟩,
   /- LDG_M_BASE -/ ⟨0x90, 0, 1, 0, 0x3FFF, 0, 0, 0, 0⟩,
   /- LDG_M_SIZE -/ ⟨0x94, 0, 1, 0, 0x7FFF, 0, 0, 0, 0⟩,
   /- LDG_M_STREAM -/ ⟨0x98, 0, 1, 0, 0x3FF, 0, 0, 0, 0⟩,
   /- LDG_M_START -/ ⟨0x9C, 0, 1, 0, 0x7FFFF, 0, 0, 0, 0⟩,
   /- LDG_M_LEN -/ ⟨0xA0, 0, 1, 0, 0x7FFFF, 0, 0, 0, 0⟩,
   /- LDG_M_CTX -/ ⟨0xA4, 0, 1, 0, 0x1FF, 0, 0, 0x1FF, 0x1FF⟩,
   /- LDG_M_FREE -/ ⟨0xA8, 0, 1, 0, 0, 0, 0, 0x4000, 0x4000⟩,
   /- LDG_M_SEED -/ ⟨0xC0, 0x4, 8, 0, 0xFFFFFFFF, 0, 0, 0, 0⟩]

/-- Registers of INST_LDG (Table 13.9, 13_ledger_store.md). -/
def instLdgRows : List RegRow :=
  [/- INST_LDG_CMD -/ ⟨0x40, 0x4, 16, 0xFFFFFFFF, 0, 0, 0, 0, 0⟩,
   /- INST_LDG_GO -/ ⟨0x80, 0, 1, 0, 0, 0, 0, 0, 0⟩,
   /- INST_LDG_STATE -/ ⟨0x84, 0, 1, 0, 0, 0, 0, 0, 0⟩,
   /- INST_LDG_DROP -/ ⟨0x88, 0, 1, 0, 0, 0, 0xFFFFFFFF, 0, 0⟩,
   /- INST_LDG_BUSY -/ ⟨0x8C, 0, 1, 0, 0, 0, 0xFFFFFFFF, 0, 0⟩,
   /- INST_LDG_CQ_BASE_LO -/ ⟨0x90, 0, 1, 0, 0xFFFFF000, 0, 0, 0, 0⟩,
   /- INST_LDG_CQ_BASE_HI -/ ⟨0x94, 0, 1, 0, 0xFFFFFFFF, 0, 0, 0, 0⟩,
   /- INST_LDG_CQ_SIZE -/ ⟨0x98, 0, 1, 0, 0x1F, 0, 0, 0x4, 0x4⟩,
   /- INST_LDG_CQ_CTRL -/ ⟨0x9C, 0, 1, 0x3, 0, 0, 0, 0, 0⟩,
   /- INST_LDG_CQ_HEAD -/ ⟨0xA0, 0, 1, 0x1FFFF, 0, 0, 0, 0x10000, 0x10000⟩,
   /- INST_LDG_CQ_TAIL -/ ⟨0xA4, 0, 1, 0, 0, 0, 0, 0x10000, 0x10000⟩,
   /- INST_LDG_SSEL -/ ⟨0xA8, 0, 1, 0x3FF, 0, 0, 0, 0, 0⟩,
   /- INST_LDG_STAIL_LO -/ ⟨0xAC, 0, 1, 0, 0, 0, 0, 0, 0⟩,
   /- INST_LDG_STAIL_HI -/ ⟨0xB0, 0, 1, 0, 0, 0, 0, 0, 0⟩,
   /- INST_LDG_SSEQ_LO -/ ⟨0xB4, 0, 1, 0, 0, 0, 0, 0, 0⟩,
   /- INST_LDG_SSEQ_HI -/ ⟨0xB8, 0, 1, 0, 0, 0, 0, 0, 0⟩,
   /- INST_LDG_SSTATE -/ ⟨0xBC, 0, 1, 0, 0, 0, 0, 0, 0⟩,
   /- INST_LDG_HELD -/ ⟨0xC0, 0, 1, 0, 0, 0, 0, 0, 0⟩]

/-- Registers of DG (Table 14.8, 14_digest_keys_lining.md). -/
def dgRows : List RegRow :=
  [/- DG_STATUS -/ ⟨0x40, 0, 1, 0, 0, 0, 0, 0x2000, 0x2000⟩,
   /- DG_REQ -/ ⟨0x44, 0x4, 8, 0xFFFFFFFF, 0, 0, 0, 0, 0⟩,
   /- DG_GO -/ ⟨0x64, 0, 1, 0, 0, 0, 0, 0, 0⟩,
   /- DG_LAST -/ ⟨0x68, 0, 1, 0, 0, 0, 0, 0, 0⟩,
   /- DG_SEL -/ ⟨0x6C, 0, 1, 0xFF, 0, 0, 0, 0, 0⟩,
   /- DG_CTXST -/ ⟨0x70, 0, 1, 0, 0, 0, 0, 0, 0⟩,
   /- DG_WAITING -/ ⟨0x74, 0, 1, 0, 0, 0, 0, 0, 0⟩,
   /- DG_BLOCKS -/ ⟨0x78, 0, 1, 0, 0, 0, 0xFFFFFFFF, 0, 0⟩,
   /- DG_CLEARED -/ ⟨0x7C, 0, 1, 0, 0, 0, 0xFFFFFFFF, 0, 0⟩,
   /- DG_EARLY -/ ⟨0x80, 0, 1, 0, 0, 0, 0xFFFFFFFF, 0, 0⟩,
   /- DG_SNAP_SEAM -/ ⟨0x84, 0, 1, 0, 0, 0, 0, 0, 0⟩,
   /- DG_SNAP_BLOCKS -/ ⟨0x88, 0, 1, 0, 0, 0, 0, 0, 0⟩,
   /- DG_RES -/ ⟨0xC0, 0x4, 16, 0, 0, 0, 0, 0, 0⟩]

/-- Registers of KS (Table 14.9, 14_digest_keys_lining.md). -/
def ksRows : List RegRow :=
  [/- KS_WSLOT -/ ⟨0x40, 0, 1, 0, 0x1FF, 0, 0, 0, 0⟩,
   /- KS_WATTR -/ ⟨0x44, 0, 1, 0, 0xFFFFFFFF, 0, 0, 0, 0⟩,
   /- KS_KEY -/ ⟨0x48, 0x4, 16, 0, 0, 0, 0, 0, 0⟩,
   /- KS_RSEL -/ ⟨0x88, 0, 1, 0x1FF, 0, 0, 0, 0, 0⟩,
   /- KS_ATTR -/ ⟨0x8C, 0, 1, 0, 0, 0, 0, 0, 0⟩,
   /- KS_CMD -/ ⟨0x90, 0, 1, 0, 0, 0, 0, 0, 0⟩,
   /- KS_VALID -/ ⟨0x94, 0, 1, 0, 0, 0, 0, 0, 0⟩,
   /- KS_DENIED -/ ⟨0x98, 0, 1, 0, 0, 0, 0xFFFFFFFF, 0, 0⟩]

/-- Registers of LN (Table 14.10, 14_digest_keys_lining.md). -/
def lnRows : List RegRow :=
  [/- LN_STATUS -/ ⟨0x40, 0, 1, 0, 0, 0, 0, 0, 0⟩,
   /- LN_TAMPER_SRC -/ ⟨0x44, 0, 1, 0, 0, 0, 0, 0, 0⟩,
   /- LN_TAMPER_MASK -/ ⟨0x48, 0, 1, 0xF, 0, 0, 0, 0, 0⟩,
   /- LN_WIPES -/ ⟨0x4C, 0, 1, 0, 0, 0, 0, 0, 0⟩,
   /- LN_WIPE_SEAM -/ ⟨0x50, 0, 1, 0, 0, 0, 0, 0, 0⟩]

/-- Registers of HIF (Table 15.10, 15_links_and_bringup.md). -/
def hifRows : List RegRow :=
  [/- HIF_LINK -/ ⟨0x40, 0, 1, 0, 0, 0, 0, 0, 0⟩,
   /- HIF_STRAPS -/ ⟨0x44, 0, 1, 0, 0, 0, 0, 0, 0⟩,
   /- HIF_SPLIT -/ ⟨0x48, 0, 1, 0, 0, 0, 0, 0, 0⟩,
   /- HIF_CTRL -/ ⟨0x4C, 0, 1, 0x1, 0, 0, 0, 0, 0⟩,
   /- HIF_RD_MAX -/ ⟨0x50, 0, 1, 0, 0, 0, 0xFFFF, 0, 0⟩,
   /- HIF_EARLY_WR -/ ⟨0x54, 0, 1, 0, 0, 0, 0xFFFFFFFF, 0, 0⟩,
   /- HIF_CPL_TIMEOUT -/ ⟨0x58, 0, 1, 0, 0, 0, 0xFFFFFFFF, 0, 0⟩,
   /- HIF_POISON_RX -/ ⟨0x5C, 0, 1, 0, 0, 0, 0xFFFFFFFF, 0, 0⟩,
   /- HIF_RETRAIN -/ ⟨0x60, 0, 1, 0, 0, 0, 0xFFFFFFFF, 0, 0⟩,
   /- HIF_PTM_CTRL -/ ⟨0x64, 0, 1, 0xFF01, 0, 0, 0, 0xA00, 0xA00⟩,
   /- HIF_PTM_SEAM_LO -/ ⟨0x68, 0, 1, 0, 0, 0, 0, 0, 0⟩,
   /- HIF_PTM_SEAM_HI -/ ⟨0x6C, 0, 1, 0, 0, 0, 0, 0, 0⟩,
   /- HIF_PTM_SEAM_NUM -/ ⟨0x70, 0, 1, 0, 0, 0, 0, 0, 0⟩,
   /- HIF_CXLWIN_BASE -/ ⟨0x74, 0, 1, 0, 0xFF, 0, 0, 0, 0⟩,
   /- HIF_CXLWIN_SIZE -/ ⟨0x78, 0, 1, 0, 0x7F, 0, 0, 0, 0⟩,
   /- HIF_CXLWIN_STATUS -/ ⟨0x7C, 0, 1, 0, 0, 0, 0, 0, 0⟩]

/-- Registers of MGT (Table 15.11, 15_links_and_bringup.md). -/
def mgtRows : List RegRow :=
  [/- MGT_I3C_STATUS -/ ⟨0x40, 0, 1, 0, 0, 0, 0, 0, 0⟩,
   /- MGT_IBI_CTRL -/ ⟨0x44, 0, 1, 0xF, 0, 0, 0, 0xF, 0xF⟩,
   /- MGT_IBI_SENT -/ ⟨0x48, 0, 1, 0, 0, 0, 0xFFFFFFFF, 0, 0⟩,
   /- MGT_IBI_NACK -/ ⟨0x4C, 0, 1, 0, 0, 0, 0xFFFFFFFF, 0, 0⟩,
   /- MGT_I3C_ERR -/ ⟨0x50, 0, 1, 0, 0, 0, 0xFFFFFFFF, 0, 0⟩,
   /- MGT_RD_NACK -/ ⟨0x54, 0, 1, 0, 0, 0, 0xFFFFFFFF, 0, 0⟩,
   /- MGT_MOD_STATUS -/ ⟨0x58, 0, 1, 0, 0, 0, 0, 0, 0⟩,
   /- MGT_BOOT_ROM -/ ⟨0x5C, 0, 1, 0, 0, 0, 0, 0, 0⟩,
   /- MGT_BOOT_HBM -/ ⟨0x60, 0, 1, 0, 0, 0, 0, 0, 0⟩,
   /- MGT_BOOT_MOD -/ ⟨0x64, 0, 1, 0, 0, 0, 0, 0, 0⟩,
   /- MGT_BOOT_CONFIG -/ ⟨0x68, 0, 1, 0, 0, 0, 0, 0, 0⟩,
   /- MGT_MIRROR -/ ⟨0x80, 0x4, 256, 0, 0, 0, 0, 0, 0⟩]

/-- Registers of DEV (Table 16.9, 16_modes_power_health.md). -/
def devRows : List RegRow :=
  [/- DEV_MODE -/ ⟨0x40, 0, 1, 0, 0, 0, 0, 0x1, 0x1⟩,
   /- DEV_MODE_REQ -/ ⟨0x44, 0, 1, 0, 0, 0, 0, 0, 0⟩,
   /- DEV_BOOT -/ ⟨0x48, 0, 1, 0, 0, 0, 0, 0, 0⟩,
   /- DEV_CE -/ ⟨0x4C, 0, 1, 0, 0, 0, 0xFFFFFFFF, 0, 0⟩,
   /- DEV_CONTAINED -/ ⟨0x50, 0, 1, 0, 0, 0, 0xFFFFFFFF, 0, 0⟩,
   /- DEV_LAST_ERR -/ ⟨0x54, 0, 1, 0, 0, 0, 0, 0, 0⟩,
   /- DEV_FATAL -/ ⟨0x58, 0, 1, 0, 0, 0, 0, 0, 0⟩,
   /- DEV_FW_ADDR_LO -/ ⟨0x5C, 0, 1, 0, 0xFFFFF000, 0, 0, 0, 0⟩,
   /- DEV_FW_ADDR_HI -/ ⟨0x60, 0, 1, 0, 0xFFFF, 0, 0, 0, 0⟩,
   /- DEV_FW_LEN -/ ⟨0x64, 0, 1, 0, 0x1FFFFFF, 0, 0, 0, 0⟩,
   /- DEV_FW_CMD -/ ⟨0x68, 0, 1, 0, 0, 0, 0, 0, 0⟩,
   /- DEV_FW_STATUS -/ ⟨0x6C, 0, 1, 0, 0, 0, 0, 0, 0⟩,
   /- DEV_DIAG_CMD -/ ⟨0x70, 0, 1, 0, 0, 0, 0, 0, 0⟩,
   /- DEV_DIAG_STATUS -/ ⟨0x74, 0, 1, 0, 0, 0, 0, 0, 0⟩,
   /- DEV_REL_NONCE -/ ⟨0x78, 0x4, 4, 0, 0, 0, 0, 0, 0⟩,
   /- DEV_REL_TOKEN -/ ⟨0x88, 0x4, 32, 0, 0, 0, 0, 0, 0⟩,
   /- DEV_REL_CMD -/ ⟨0x108, 0, 1, 0, 0, 0, 0, 0, 0⟩,
   /- DEV_REL_STATUS -/ ⟨0x10C, 0, 1, 0, 0, 0, 0, 0, 0⟩]

/-- Registers of PWR (Table 16.10, 16_modes_power_health.md). -/
def pwrRows : List RegRow :=
  [/- PWR_LIMIT -/ ⟨0x40, 0, 1, 0x3F0000, 0x1FF, 0x1FF, 0, 0xA0190, 0xA0190⟩,
   /- PWR_CLOCK -/ ⟨0x44, 0, 1, 0, 0x1F, 0x1F, 0, 0x14141414, 0x14141414⟩,
   /- PWR_FENCE_REQ -/ ⟨0x48, 0, 1, 0, 0xFFFFFFFF, 0xFFFFFFFF, 0, 0, 0⟩,
   /- PWR_FENCE_CAP -/ ⟨0x4C, 0, 1, 0, 0, 0, 0, 0, 0⟩,
   /- PWR_PKG -/ ⟨0x50, 0, 1, 0, 0, 0, 0, 0, 0⟩,
   /- PWR_PEAK -/ ⟨0x54, 0, 1, 0, 0, 0, 0xFFFF, 0, 0⟩,
   /- PWR_THROTTLE -/ ⟨0x58, 0, 1, 0, 0, 0, 0xFFFFFFFF, 0, 0⟩,
   /- PWR_WAKE_US -/ ⟨0x5C, 0, 1, 0, 0, 0, 0, 0, 0⟩,
   /- PWR_SNAP_SEAM -/ ⟨0x60, 0, 1, 0, 0, 0, 0, 0, 0⟩,
   /- PWR_SNAP_ENERGY -/ ⟨0x64, 0, 1, 0, 0, 0, 0, 0, 0⟩]

/-- Registers of HLT (Table 16.11, 16_modes_power_health.md). -/
def hltRows : List RegRow :=
  [/- HLT_ALERT_EN -/ ⟨0x40, 0, 1, 0xF, 0, 0, 0, 0xF, 0xF⟩,
   /- HLT_TLIM -/ ⟨0x44, 0, 1, 0xFF, 0, 0, 0, 0x6E645F, 0x6E645F⟩,
   /- HLT_HOT -/ ⟨0x48, 0, 1, 0, 0, 0, 0, 0, 0⟩,
   /- HLT_ALERTS -/ ⟨0x4C, 0, 1, 0, 0, 0, 0, 0, 0⟩,
   /- HLT_TEMP -/ ⟨0x80, 0x4, 48, 0, 0, 0, 0, 0, 0⟩,
   /- HLT_VOLT -/ ⟨0x140, 0x4, 12, 0, 0, 0, 0, 0, 0⟩,
   /- HLT_VLIM -/ ⟨0x170, 0x4, 12, 0xFFFFFFFF, 0, 0, 0, 0xFFFF0000, 0xFFFF0000⟩,
   /- HLT_SPEED -/ ⟨0x1A0, 0x4, 32, 0, 0, 0, 0, 0, 0⟩]

/-- Registers of INST_APT (Table 17.2, 17_register_pages.md). -/
def instAptRows : List RegRow :=
  [/- INST_APT_SEL_PCIE -/ ⟨0x40, 0, 1, 0x7FF, 0, 0, 0, 0, 0⟩,
   /- INST_APT_SEL_I3C -/ ⟨0x44, 0, 1, 0x7FF, 0, 0, 0, 0, 0⟩]

/-- The registers of a page above its common header. -/
def PageKind.rows : PageKind → List RegRow
  | .dev => devRows
  | .seam => seamRows
  | .sched => schedRows
  | .ma => maRows
  | .xl => xlRows
  | .noc => nocRows
  | .bm => bmRows
  | .ldg => ldgRows
  | .dg => dgRows
  | .ks => ksRows
  | .ln => lnRows
  | .mgt => mgtRows
  | .pwr => pwrRows
  | .hlt => hltRows
  | .hif => hifRows
  | .cxt => cxtRows
  | .instApt => instAptRows
  | .hmc => hmcRows
  | .schedAgent => schedAgentRows
  | .pnl => pnlRows
  | .pnlHpu => pnlHpuRows
  | .pnlPu => pnlPuRows
  | .pnlMn => pnlMnRows
  | .nocStop => nocStopRows
  | .sf => sfRows
  | .pack => packRows
  | .bmCh => bmChRows
  | .pkt => pktRows
  | .instCuff => instCuffRows
  | .instRing => instRingRows
  | .instPush => instPushRows
  | .instPat => instPatRows
  | .instMa => instMaRows
  | .instLdg => instLdgRows

/-- The register of a list that covers a page offset. -/
def findRow : List RegRow → Nat → Option RegRow
  | [], _ => none
  | r :: rs, o =>
    if o = r.off ∨ (r.off ≤ o ∧ r.step ≠ 0 ∧ (o - r.off) % r.step = 0 ∧ (o - r.off) / r.step < r.num) then some r
    else findRow rs o

end Sys2Proof.Machine

/-! Named register addresses. -/
namespace Sys2Proof.Machine.Reg

/-- BLOCK_ID of the page at `pg` (Table 17.3). -/
abbrev BLOCK_ID (pg : Nat) : Nat := pg + 0
/-- BLOCK_CAPS of the page at `pg` (Table 17.3). -/
abbrev BLOCK_CAPS (pg : Nat) : Nat := pg + 0x4
/-- BLOCK_CTRL of the page at `pg` (Table 17.3). -/
abbrev BLOCK_CTRL (pg : Nat) : Nat := pg + 0x8
/-- BLOCK_STATUS of the page at `pg` (Table 17.3). -/
abbrev BLOCK_STATUS (pg : Nat) : Nat := pg + 0xC
/-- IRQ_ENABLE of the page at `pg` (Table 17.3). -/
abbrev IRQ_ENABLE (pg : Nat) : Nat := pg + 0x10
/-- IRQ_STATUS of the page at `pg` (Table 17.3). -/
abbrev IRQ_STATUS (pg : Nat) : Nat := pg + 0x14
/-- IRQ_FLAG of the page at `pg` (Table 17.3). -/
abbrev IRQ_FLAG (pg : Nat) : Nat := pg + 0x18
/-- IRQ_FORCE of the page at `pg` (Table 17.3). -/
abbrev IRQ_FORCE (pg : Nat) : Nat := pg + 0x1C
/-- ERR_CODE of the page at `pg` (Table 17.3). -/
abbrev ERR_CODE (pg : Nat) : Nat := pg + 0x20
/-- ERR_ADDR_LO of the page at `pg` (Table 17.3). -/
abbrev ERR_ADDR_LO (pg : Nat) : Nat := pg + 0x24
/-- ERR_ADDR_HI of the page at `pg` (Table 17.3). -/
abbrev ERR_ADDR_HI (pg : Nat) : Nat := pg + 0x28
/-- ERR_COUNT of the page at `pg` (Table 17.3). -/
abbrev ERR_COUNT (pg : Nat) : Nat := pg + 0x2C
/-- STAGE_COMMIT of the page at `pg` (Table 17.3). -/
abbrev STAGE_COMMIT (pg : Nat) : Nat := pg + 0x30
/-- WRITE_GEN of the page at `pg` (Table 17.3). -/
abbrev WRITE_GEN (pg : Nat) : Nat := pg + 0x34
/-- LAST_WRITER of the page at `pg` (Table 17.3). -/
abbrev LAST_WRITER (pg : Nat) : Nat := pg + 0x38
/-- The page SEAM. -/
abbrev SEAM_PAGE : Nat := 0x1000
abbrev SEAM_CTRL : Nat := 0x1040
abbrev SEAM_PERIOD : Nat := 0x1044
abbrev SEAM_TOL : Nat := 0x1048
abbrev SEAM_STATUS : Nat := 0x104C
abbrev SEAM_NUM_LO : Nat := 0x1050
abbrev SEAM_NUM_HI : Nat := 0x1054
abbrev SEAM_NUM_SET_LO : Nat := 0x1058
abbrev SEAM_NUM_SET_HI : Nat := 0x105C
abbrev SEAM_NUM_LOAD : Nat := 0x1060
abbrev SEAM_OFFSET : Nat := 0x1064
abbrev SEAM_EARLY : Nat := 0x1068
abbrev SEAM_MISSED : Nat := 0x106C
/-- The page SCHED. -/
abbrev SCHED_PAGE : Nat := 0x2000
abbrev SCHED_CTRL : Nat := 0x2040
abbrev SCHED_SAVE_BASE_LO : Nat := 0x2044
abbrev SCHED_SAVE_BASE_HI : Nat := 0x2048
abbrev SCHED_TRACE_BASE_LO : Nat := 0x204C
abbrev SCHED_TRACE_BASE_HI : Nat := 0x2050
abbrev SCHED_TRACE_SIZE : Nat := 0x2054
abbrev SCHED_TRACE_CTRL : Nat := 0x2058
abbrev SCHED_TRACE_WR : Nat := 0x205C
abbrev SCHED_TRACE_RD : Nat := 0x2060
abbrev SCHED_TRACE_DROP : Nat := 0x2064
abbrev SCHED_DEC_STALE : Nat := 0x2068
abbrev SCHED_DEC_UNDER : Nat := 0x206C
abbrev SCHED_HELD : Nat := 0x2070
/-- The page SCHED_AGENT[n]. -/
abbrev SCHED_AGENT_PAGE (n : Nat) : Nat := 0x30000 + 0x1000 * n
abbrev SCHED_SLOTS (n : Nat) : Nat := 0x30040 + 0x1000 * n
abbrev SCHED_PSTATE (n : Nat) : Nat := 0x30044 + 0x1000 * n
abbrev SCHED_SNAP_SEAM (n : Nat) : Nat := 0x30048 + 0x1000 * n
abbrev SCHED_SNAP_DISPATCH (n : Nat) : Nat := 0x3004C + 0x1000 * n
abbrev SCHED_SNAP_STEAL (n : Nat) : Nat := 0x30050 + 0x1000 * n
abbrev SCHED_SNAP_CUT (n : Nat) : Nat := 0x30054 + 0x1000 * n
abbrev SCHED_SNAP_BUSY (n : Nat) : Nat := 0x30058 + 0x1000 * n
/-- The page INST_CUFF[n]. -/
abbrev INST_CUFF_PAGE (n : Nat) : Nat := 0x400000 + 0x1000 * n
abbrev INST_CUFF_SHARE (n : Nat) : Nat := 0x400040 + 0x1000 * n
abbrev INST_CUFF_SLOTS (n : Nat) : Nat := 0x400044 + 0x1000 * n
abbrev INST_CUFF_JOBS (n : Nat) : Nat := 0x400048 + 0x1000 * n
abbrev INST_CUFF_DIGEST (n : Nat) : Nat := 0x40004C + 0x1000 * n
abbrev INST_CUFF_MA_BASE (n : Nat) : Nat := 0x400050 + 0x1000 * n
abbrev INST_CUFF_MA_SIZE (n : Nat) : Nat := 0x400054 + 0x1000 * n
abbrev INST_CUFF_LEDGER (n : Nat) : Nat := 0x400058 + 0x1000 * n
abbrev INST_CUFF_USE_SLOTS (n : Nat) : Nat := 0x40005C + 0x1000 * n
abbrev INST_CUFF_USE_JOBS (n : Nat) : Nat := 0x400060 + 0x1000 * n
abbrev INST_CUFF_SNAP_CHARGE (n : Nat) : Nat := 0x400064 + 0x1000 * n
abbrev INST_CUFF_SNAP_SEAM (n : Nat) : Nat := 0x400068 + 0x1000 * n
abbrev INST_CUFF_SPENT (n : Nat) : Nat := 0x40006C + 0x1000 * n
abbrev INST_CUFF_RBASE_LO (n k : Nat) : Nat := 0x400080 + 0x1000 * n + 0x10 * k
abbrev INST_CUFF_RBASE_HI (n k : Nat) : Nat := 0x400084 + 0x1000 * n + 0x10 * k
abbrev INST_CUFF_RLEN (n k : Nat) : Nat := 0x400088 + 0x1000 * n + 0x10 * k
/-- The page INST_PAT of instance i. -/
abbrev INST_PAT_PAGE (i : Nat) : Nat := instBase i + 0x3000
abbrev INST_PAT_ADDR_LO (i : Nat) : Nat := instBase i + 0x3040
abbrev INST_PAT_ADDR_HI (i : Nat) : Nat := instBase i + 0x3044
abbrev INST_PAT_SLOT (i : Nat) : Nat := instBase i + 0x3048
abbrev INST_PAT_CMD (i : Nat) : Nat := instBase i + 0x304C
abbrev INST_PAT_STATUS (i : Nat) : Nat := instBase i + 0x3050
abbrev INST_PAT_RESIDENT_LO (i : Nat) : Nat := instBase i + 0x3054
abbrev INST_PAT_RESIDENT_HI (i : Nat) : Nat := instBase i + 0x3058
abbrev INST_PAT_RETIRING_LO (i : Nat) : Nat := instBase i + 0x305C
abbrev INST_PAT_RETIRING_HI (i : Nat) : Nat := instBase i + 0x3060
/-- The page PACK[n]. -/
abbrev PACK_PAGE (n : Nat) : Nat := 0x140000 + 0x1000 * n
abbrev PACK_CTRL (n : Nat) : Nat := 0x140040 + 0x1000 * n
abbrev PACK_STATUS (n : Nat) : Nat := 0x140044 + 0x1000 * n
abbrev PACK_BLOCKS (n : Nat) : Nat := 0x140048 + 0x1000 * n
abbrev PACK_VALUES (n : Nat) : Nat := 0x14004C + 0x1000 * n
abbrev PACK_SELF_RETRY (n : Nat) : Nat := 0x140050 + 0x1000 * n
abbrev PACK_CHECK_FAIL (n : Nat) : Nat := 0x140054 + 0x1000 * n
abbrev PACK_PRED_A (n : Nat) : Nat := 0x140058 + 0x1000 * n
abbrev PACK_PRED_B (n : Nat) : Nat := 0x14005C + 0x1000 * n
abbrev PACK_SPILL (n : Nat) : Nat := 0x140060 + 0x1000 * n
abbrev PACK_ABANDON (n : Nat) : Nat := 0x140064 + 0x1000 * n
/-- The page SF[n]. -/
abbrev SF_PAGE (n : Nat) : Nat := 0x100000 + 0x1000 * n
abbrev SF_CTRL (n : Nat) : Nat := 0x100040 + 0x1000 * n
abbrev SF_STATUS (n : Nat) : Nat := 0x100044 + 0x1000 * n
abbrev SF_LANES_DECODED (n : Nat) : Nat := 0x100048 + 0x1000 * n
abbrev SF_LANES_SKIPPED (n : Nat) : Nat := 0x10004C + 0x1000 * n
abbrev SF_LANES_ELIDED (n : Nat) : Nat := 0x100050 + 0x1000 * n
abbrev SF_ROWS_IN (n : Nat) : Nat := 0x100054 + 0x1000 * n
abbrev SF_ROWS_OUT (n : Nat) : Nat := 0x100058 + 0x1000 * n
abbrev SF_THROTTLE (n : Nat) : Nat := 0x10005C + 0x1000 * n
abbrev SF_INPUT_STALL (n : Nat) : Nat := 0x100060 + 0x1000 * n
abbrev SF_HIST_MISMATCH (n : Nat) : Nat := 0x100064 + 0x1000 * n
abbrev SF_CHECK_FAIL (n : Nat) : Nat := 0x100068 + 0x1000 * n
abbrev SF_ABANDON (n : Nat) : Nat := 0x10006C + 0x1000 * n
abbrev SF_SNAP_SEAM (n : Nat) : Nat := 0x100070 + 0x1000 * n
abbrev SF_SNAP_ROWS_IN (n : Nat) : Nat := 0x100074 + 0x1000 * n
abbrev SF_SNAP_ROWS_OUT (n : Nat) : Nat := 0x100078 + 0x1000 * n
abbrev SF_SNAP_THROTTLE (n : Nat) : Nat := 0x10007C + 0x1000 * n
abbrev SF_PGM (n k : Nat) : Nat := 0x100200 + 0x1000 * n + 0x4 * k
/-- The page PNL_HPU[n]. -/
abbrev PNL_HPU_PAGE (n : Nat) : Nat := 0x70000 + 0x1000 * n
abbrev PNL_HPU_CTRL (n : Nat) : Nat := 0x70040 + 0x1000 * n
abbrev PNL_HPU_STATUS (n : Nat) : Nat := 0x70044 + 0x1000 * n
abbrev PNL_HPU_LOOKUPS (n : Nat) : Nat := 0x70048 + 0x1000 * n
abbrev PNL_HPU_HITS (n : Nat) : Nat := 0x7004C + 0x1000 * n
abbrev PNL_HPU_INSERTS (n : Nat) : Nat := 0x70050 + 0x1000 * n
abbrev PNL_HPU_GROUPS (n : Nat) : Nat := 0x70054 + 0x1000 * n
abbrev PNL_HPU_CHAIN (n : Nat) : Nat := 0x70058 + 0x1000 * n
abbrev PNL_HPU_LOCK_RETRY (n : Nat) : Nat := 0x7005C + 0x1000 * n
abbrev PNL_HPU_UNASSIGNED (n : Nat) : Nat := 0x70060 + 0x1000 * n
abbrev PNL_HPU_ABANDON (n : Nat) : Nat := 0x70064 + 0x1000 * n
abbrev PNL_HPU_SNAP_SEAM (n : Nat) : Nat := 0x70068 + 0x1000 * n
abbrev PNL_HPU_SNAP_LOOKUPS (n : Nat) : Nat := 0x7006C + 0x1000 * n
abbrev PNL_HPU_SNAP_BUSY (n : Nat) : Nat := 0x70070 + 0x1000 * n
/-- The page PNL_PU[n]. -/
abbrev PNL_PU_PAGE (n : Nat) : Nat := 0x90000 + 0x1000 * n
abbrev PNL_PU_CTRL (n : Nat) : Nat := 0x90040 + 0x1000 * n
abbrev PNL_PU_STATUS (n : Nat) : Nat := 0x90044 + 0x1000 * n
abbrev PNL_PU_RECORDS (n : Nat) : Nat := 0x90048 + 0x1000 * n
abbrev PNL_PU_LINES (n : Nat) : Nat := 0x9004C + 0x1000 * n
abbrev PNL_PU_PART_FULL (n : Nat) : Nat := 0x90050 + 0x1000 * n
abbrev PNL_PU_ABANDON (n : Nat) : Nat := 0x90054 + 0x1000 * n
abbrev PNL_PU_SNAP_SEAM (n : Nat) : Nat := 0x90058 + 0x1000 * n
abbrev PNL_PU_SNAP_RECORDS (n : Nat) : Nat := 0x9005C + 0x1000 * n
abbrev PNL_PU_SNAP_BUSY (n : Nat) : Nat := 0x90060 + 0x1000 * n
/-- The page PNL_MN[n]. -/
abbrev PNL_MN_PAGE (n : Nat) : Nat := 0xB0000 + 0x1000 * n
abbrev PNL_MN_CTRL (n : Nat) : Nat := 0xB0040 + 0x1000 * n
abbrev PNL_MN_STATUS (n : Nat) : Nat := 0xB0044 + 0x1000 * n
abbrev PNL_MN_RECORDS_IN (n : Nat) : Nat := 0xB0048 + 0x1000 * n
abbrev PNL_MN_RECORDS_OUT (n : Nat) : Nat := 0xB004C + 0x1000 * n
abbrev PNL_MN_FOLDED (n : Nat) : Nat := 0xB0050 + 0x1000 * n
abbrev PNL_MN_SATURATED (n : Nat) : Nat := 0xB0054 + 0x1000 * n
abbrev PNL_MN_TRAPS (n : Nat) : Nat := 0xB0058 + 0x1000 * n
abbrev PNL_MN_ABANDON (n : Nat) : Nat := 0xB005C + 0x1000 * n
abbrev PNL_MN_SNAP_SEAM (n : Nat) : Nat := 0xB0060 + 0x1000 * n
abbrev PNL_MN_SNAP_RECORDS_OUT (n : Nat) : Nat := 0xB0064 + 0x1000 * n
abbrev PNL_MN_SNAP_BUSY (n : Nat) : Nat := 0xB0068 + 0x1000 * n
/-- The page MA. -/
abbrev MA_PAGE : Nat := 0x3000
abbrev MA_CTRL : Nat := 0x3040
abbrev MA_STATUS : Nat := 0x3044
abbrev MA_LOOKUPS : Nat := 0x3048
abbrev MA_HITS : Nat := 0x304C
abbrev MA_MULTI : Nat := 0x3050
abbrev MA_FALSE_HIT : Nat := 0x3054
abbrev MA_SUSPECT : Nat := 0x3058
abbrev MA_SUSPECT_FIRST : Nat := 0x305C
abbrev MA_LIVE_WRITE : Nat := 0x3060
abbrev MA_UPD_OPS : Nat := 0x3064
abbrev MA_SCRUB_PASSES : Nat := 0x3068
abbrev MA_SNAP_SEAM : Nat := 0x306C
abbrev MA_SNAP_LOOKUPS : Nat := 0x3070
abbrev MA_SNAP_FALSE_HIT : Nat := 0x3074
abbrev MA_SNAP_WAIT : Nat := 0x3078
/-- The page INST_MA of instance i. -/
abbrev INST_MA_PAGE (i : Nat) : Nat := instBase i + 0x4000
abbrev INST_MA_CMD (i : Nat) : Nat := instBase i + 0x4040
abbrev INST_MA_POS (i : Nat) : Nat := instBase i + 0x4044
abbrev INST_MA_RANGE_LO (i : Nat) : Nat := instBase i + 0x4048
abbrev INST_MA_RANGE_SIZE (i : Nat) : Nat := instBase i + 0x404C
abbrev INST_MA_COUNT (i : Nat) : Nat := instBase i + 0x4050
abbrev INST_MA_ADDR_LO (i : Nat) : Nat := instBase i + 0x4054
abbrev INST_MA_ADDR_HI (i : Nat) : Nat := instBase i + 0x4058
abbrev INST_MA_FLAGS (i : Nat) : Nat := instBase i + 0x405C
abbrev INST_MA_KEY (i k : Nat) : Nat := instBase i + 0x4060 + 0x4 * k
abbrev INST_MA_MASK (i k : Nat) : Nat := instBase i + 0x4074 + 0x4 * k
abbrev INST_MA_DATA (i : Nat) : Nat := instBase i + 0x4088
abbrev INST_MA_STATUS (i : Nat) : Nat := instBase i + 0x408C
abbrev INST_MA_LANDED (i : Nat) : Nat := instBase i + 0x4090
abbrev INST_MA_COUNT_DONE (i : Nat) : Nat := instBase i + 0x4094
/-- The page PKT[n]. -/
abbrev PKT_PAGE (n : Nat) : Nat := 0x200000 + 0x1000 * n
abbrev PKT_CTRL (n : Nat) : Nat := 0x200040 + 0x1000 * n
abbrev PKT_STATUS (n : Nat) : Nat := 0x200044 + 0x1000 * n
abbrev PKT_LV_IDLE (n : Nat) : Nat := 0x200048 + 0x1000 * n
abbrev PKT_PC_LO (n : Nat) : Nat := 0x20004C + 0x1000 * n
abbrev PKT_PC_HI (n : Nat) : Nat := 0x200050 + 0x1000 * n
abbrev PKT_INSTR (n : Nat) : Nat := 0x200054 + 0x1000 * n
abbrev PKT_L1_HIT (n : Nat) : Nat := 0x200058 + 0x1000 * n
abbrev PKT_L1_MISS (n : Nat) : Nat := 0x20005C + 0x1000 * n
abbrev PKT_RECALL (n : Nat) : Nat := 0x200060 + 0x1000 * n
abbrev PKT_WRITEBACK (n : Nat) : Nat := 0x200064 + 0x1000 * n
abbrev PKT_BANK_STALL (n : Nat) : Nat := 0x200068 + 0x1000 * n
abbrev PKT_LV_WAKE (n : Nat) : Nat := 0x20006C + 0x1000 * n
abbrev PKT_REPLAY (n : Nat) : Nat := 0x200070 + 0x1000 * n
abbrev PKT_TRAPS (n : Nat) : Nat := 0x200074 + 0x1000 * n
abbrev PKT_SNAP_SEAM (n : Nat) : Nat := 0x200078 + 0x1000 * n
abbrev PKT_SNAP_INSTR (n : Nat) : Nat := 0x20007C + 0x1000 * n
abbrev PKT_SNAP_MISS (n : Nat) : Nat := 0x200080 + 0x1000 * n
abbrev PKT_DBG_SEL (n : Nat) : Nat := 0x200084 + 0x1000 * n
abbrev PKT_DBG_DATA_LO (n : Nat) : Nat := 0x200088 + 0x1000 * n
abbrev PKT_DBG_DATA_HI (n : Nat) : Nat := 0x20008C + 0x1000 * n
/-- The page PNL[n]. -/
abbrev PNL_PAGE (n : Nat) : Nat := 0x50000 + 0x1000 * n
abbrev PNL_CTRL (n : Nat) : Nat := 0x50040 + 0x1000 * n
abbrev PNL_STATUS (n : Nat) : Nat := 0x50044 + 0x1000 * n
abbrev PNL_BANK_STALL (n : Nat) : Nat := 0x50048 + 0x1000 * n
abbrev PNL_STREAM_LINES (n : Nat) : Nat := 0x5004C + 0x1000 * n
abbrev PNL_REPLAY (n : Nat) : Nat := 0x50050 + 0x1000 * n
abbrev PNL_PARITY_FATAL (n : Nat) : Nat := 0x50054 + 0x1000 * n
abbrev PNL_WAKES (n : Nat) : Nat := 0x50058 + 0x1000 * n
abbrev PNL_SNAP_SEAM (n : Nat) : Nat := 0x5005C + 0x1000 * n
abbrev PNL_SNAP_STALL (n : Nat) : Nat := 0x50060 + 0x1000 * n
/-- The page INST_RING of instance i. -/
abbrev INST_RING_PAGE (i : Nat) : Nat := instBase i + 0
abbrev INST_STATUS (i : Nat) : Nat := instBase i + 0x40
abbrev INST_VEC (i : Nat) : Nat := instBase i + 0x44
abbrev INST_ABORT (i : Nat) : Nat := instBase i + 0x48
abbrev INST_ABORT_RESULT (i : Nat) : Nat := instBase i + 0x4C
abbrev INST_DB_DROP (i : Nat) : Nat := instBase i + 0x50
abbrev INST_GEN_DISCARD (i : Nat) : Nat := instBase i + 0x54
abbrev INST_JOBS_ACCEPTED (i : Nat) : Nat := instBase i + 0x58
abbrev INST_JOBS_COMPLETED (i : Nat) : Nat := instBase i + 0x5C
abbrev INST_JR_BASE_LO (i k : Nat) : Nat := instBase i + 0x100 + 0x20 * k
abbrev INST_JR_BASE_HI (i k : Nat) : Nat := instBase i + 0x104 + 0x20 * k
abbrev INST_JR_SIZE (i k : Nat) : Nat := instBase i + 0x108 + 0x20 * k
abbrev INST_JR_CTRL (i k : Nat) : Nat := instBase i + 0x10C + 0x20 * k
abbrev INST_JR_SHADOW_LO (i k : Nat) : Nat := instBase i + 0x110 + 0x20 * k
abbrev INST_JR_SHADOW_HI (i k : Nat) : Nat := instBase i + 0x114 + 0x20 * k
abbrev INST_JR_HEAD (i k : Nat) : Nat := instBase i + 0x118 + 0x20 * k
abbrev INST_JR_TAIL_SEEN (i k : Nat) : Nat := instBase i + 0x11C + 0x20 * k
abbrev INST_CR_BASE_LO (i k : Nat) : Nat := instBase i + 0x200 + 0x20 * k
abbrev INST_CR_BASE_HI (i k : Nat) : Nat := instBase i + 0x204 + 0x20 * k
abbrev INST_CR_SIZE (i k : Nat) : Nat := instBase i + 0x208 + 0x20 * k
abbrev INST_CR_CTRL (i k : Nat) : Nat := instBase i + 0x20C + 0x20 * k
abbrev INST_CR_MOD (i k : Nat) : Nat := instBase i + 0x210 + 0x20 * k
abbrev INST_CR_HEAD (i k : Nat) : Nat := instBase i + 0x214 + 0x20 * k
abbrev INST_CR_TAIL (i k : Nat) : Nat := instBase i + 0x218 + 0x20 * k
abbrev INST_CR_HELD (i k : Nat) : Nat := instBase i + 0x21C + 0x20 * k
/-- The page INST_PUSH[j] of instance i. -/
abbrev INST_PUSH_PAGE (i j : Nat) : Nat := instBase i + 0x1000 + 0x1000 * j
/-- INST_JR_TAIL[r] of instance i (R220). -/
abbrev INST_JR_TAIL (i r : Nat) : Nat := instBase i + 0x1000 + 0x1000 * (r / 4) + 0x300 + 0x200 * (r % 4)
/-- The page HMC[n]. -/
abbrev HMC_PAGE (n : Nat) : Nat := 0x18000 + 0x1000 * n
abbrev HMC_CTRL (n : Nat) : Nat := 0x18040 + 0x1000 * n
abbrev HMC_SR_IDLE (n : Nat) : Nat := 0x18044 + 0x1000 * n
abbrev HMC_SCRUB (n : Nat) : Nat := 0x18048 + 0x1000 * n
abbrev HMC_STATUS (n : Nat) : Nat := 0x1804C + 0x1000 * n
abbrev HMC_IDENT_LO (n : Nat) : Nat := 0x18050 + 0x1000 * n
abbrev HMC_IDENT_HI (n : Nat) : Nat := 0x18054 + 0x1000 * n
abbrev HMC_READS (n : Nat) : Nat := 0x18058 + 0x1000 * n
abbrev HMC_WRITES (n : Nat) : Nat := 0x1805C + 0x1000 * n
abbrev HMC_FORWARDS (n : Nat) : Nat := 0x18060 + 0x1000 * n
abbrev HMC_ACTIVATES (n : Nat) : Nat := 0x18064 + 0x1000 * n
abbrev HMC_NREFRESH (n : Nat) : Nat := 0x18068 + 0x1000 * n
abbrev HMC_CE (n : Nat) : Nat := 0x1806C + 0x1000 * n
abbrev HMC_UE (n : Nat) : Nat := 0x18070 + 0x1000 * n
abbrev HMC_SR_ENTRIES (n : Nat) : Nat := 0x18074 + 0x1000 * n
abbrev HMC_SNAP_SEAM (n : Nat) : Nat := 0x18078 + 0x1000 * n
abbrev HMC_SNAP_READS (n : Nat) : Nat := 0x1807C + 0x1000 * n
abbrev HMC_SNAP_WRITES (n : Nat) : Nat := 0x18080 + 0x1000 * n
abbrev HMC_1500_CMD (n : Nat) : Nat := 0x18084 + 0x1000 * n
abbrev HMC_1500_DATA (n : Nat) : Nat := 0x18088 + 0x1000 * n
/-- The page CXT[n]. -/
abbrev CXT_PAGE (n : Nat) : Nat := 0x10000 + 0x1000 * n
abbrev CXT_CTRL (n : Nat) : Nat := 0x10040 + 0x1000 * n
abbrev CXT_STATUS (n : Nat) : Nat := 0x10044 + 0x1000 * n
abbrev CXT_CAP (n : Nat) : Nat := 0x10048 + 0x1000 * n
abbrev CXT_READS (n : Nat) : Nat := 0x1004C + 0x1000 * n
abbrev CXT_WRITES (n : Nat) : Nat := 0x10050 + 0x1000 * n
abbrev CXT_CE (n : Nat) : Nat := 0x10054 + 0x1000 * n
abbrev CXT_UE (n : Nat) : Nat := 0x10058 + 0x1000 * n
abbrev CXT_POISON (n : Nat) : Nat := 0x1005C + 0x1000 * n
abbrev CXT_CHECK_HIT (n : Nat) : Nat := 0x10060 + 0x1000 * n
abbrev CXT_SNAP_SEAM (n : Nat) : Nat := 0x10064 + 0x1000 * n
abbrev CXT_SNAP_LINES (n : Nat) : Nat := 0x10068 + 0x1000 * n
/-- The page XL. -/
abbrev XL_PAGE : Nat := 0x4000
abbrev XL_RT_SEL : Nat := 0x4040
abbrev XL_RT_BASE_LO : Nat := 0x4044
abbrev XL_RT_BASE_HI : Nat := 0x4048
abbrev XL_INST_STATUS : Nat := 0x404C
abbrev XL_STOP_ADDR_LO : Nat := 0x4050
abbrev XL_STOP_ADDR_HI : Nat := 0x4054
abbrev XL_INVAL : Nat := 0x4058
abbrev XL_INVAL_STATUS : Nat := 0x405C
abbrev XL_PROMO_REQ : Nat := 0x4060
abbrev XL_PROMO_STATUS : Nat := 0x4064
abbrev XL_WALKS : Nat := 0x4068
abbrev XL_FAULTS : Nat := 0x406C
abbrev XL_AD_CAS : Nat := 0x4070
abbrev XL_AD_RETRY : Nat := 0x4074
abbrev XL_PROMOTIONS : Nat := 0x4078
abbrev XL_DEMOTIONS : Nat := 0x407C
abbrev XL_PROMO_FAIL : Nat := 0x4080
abbrev XL_PROMO_IGNORED : Nat := 0x4084
abbrev XL_POOL_BASE_LO (k : Nat) : Nat := 0x4100 + 0x10 * k
abbrev XL_POOL_BASE_HI (k : Nat) : Nat := 0x4104 + 0x10 * k
abbrev XL_POOL_CFG (k : Nat) : Nat := 0x4108 + 0x10 * k
abbrev XL_POOL_FREE (k : Nat) : Nat := 0x410C + 0x10 * k
/-- The page NOC. -/
abbrev NOC_PAGE : Nat := 0x5000
abbrev NOC_CTRL : Nat := 0x5040
abbrev NOC_STATUS : Nat := 0x5044
abbrev NOC_OLD_EPOCH : Nat := 0x5048
abbrev NOC_FLIPS : Nat := 0x504C
abbrev NOC_POISON : Nat := 0x5050
/-- The page NOC_STOP[n]. -/
abbrev NOC_STOP_PAGE (n : Nat) : Nat := 0xD0000 + 0x1000 * n
abbrev NOC_RT (n k : Nat) : Nat := 0xD0040 + 0x1000 * n + 0x4 * k
abbrev NOC_LINK (n k : Nat) : Nat := 0xD0060 + 0x1000 * n + 0x4 * k
abbrev NOC_RETRY (n k : Nat) : Nat := 0xD0070 + 0x1000 * n + 0x4 * k
abbrev NOC_DOM (n : Nat) : Nat := 0xD0080 + 0x1000 * n
abbrev NOC_DOM_OUT (n : Nat) : Nat := 0xD0084 + 0x1000 * n
abbrev NOC_ABSORBED (n : Nat) : Nat := 0xD0088 + 0x1000 * n
abbrev NOC_DROPPED (n : Nat) : Nat := 0xD008C + 0x1000 * n
abbrev NOC_STAT_SEL (n : Nat) : Nat := 0xD0090 + 0x1000 * n
abbrev NOC_SNAP_SEAM (n : Nat) : Nat := 0xD0094 + 0x1000 * n
abbrev NOC_SNAP_REQS (n : Nat) : Nat := 0xD0098 + 0x1000 * n
abbrev NOC_SNAP_RD (n : Nat) : Nat := 0xD009C + 0x1000 * n
abbrev NOC_SNAP_WR (n : Nat) : Nat := 0xD00A0 + 0x1000 * n
abbrev NOC_SNAP_LAT_SUM (n : Nat) : Nat := 0xD00A4 + 0x1000 * n
abbrev NOC_SNAP_LAT_MAX (n : Nat) : Nat := 0xD00A8 + 0x1000 * n
abbrev NOC_SNAP_HIST (n k : Nat) : Nat := 0xD00AC + 0x1000 * n + 0x4 * k
/-- The page BM. -/
abbrev BM_PAGE : Nat := 0x6000
abbrev BM_STATUS : Nat := 0x6040
abbrev BM_READ : Nat := 0x6044
abbrev BM_WRITE : Nat := 0x6048
abbrev BM_SNAP_SEAM : Nat := 0x604C
abbrev BM_SNAP_WRITE : Nat := 0x6050
/-- The page BM_CH[n]. -/
abbrev BM_CH_PAGE (n : Nat) : Nat := 0x180000 + 0x1000 * n
abbrev BM_CH_CTRL (n : Nat) : Nat := 0x180040 + 0x1000 * n
abbrev BM_CH_OWNER (n : Nat) : Nat := 0x180044 + 0x1000 * n
abbrev BM_CH_QADDR_LO (n : Nat) : Nat := 0x180048 + 0x1000 * n
abbrev BM_CH_QADDR_HI (n : Nat) : Nat := 0x18004C + 0x1000 * n
abbrev BM_CH_POLL (n : Nat) : Nat := 0x180050 + 0x1000 * n
abbrev BM_CH_RATE (n : Nat) : Nat := 0x180054 + 0x1000 * n
abbrev BM_CH_CMD (n : Nat) : Nat := 0x180058 + 0x1000 * n
abbrev BM_CH_STATUS (n : Nat) : Nat := 0x18005C + 0x1000 * n
abbrev BM_CH_REMAIN_LO (n : Nat) : Nat := 0x180060 + 0x1000 * n
abbrev BM_CH_REMAIN_HI (n : Nat) : Nat := 0x180064 + 0x1000 * n
abbrev BM_CH_BYTES (n : Nat) : Nat := 0x180068 + 0x1000 * n
abbrev BM_CH_DESCS (n : Nat) : Nat := 0x18006C + 0x1000 * n
abbrev BM_CH_PAUSES (n : Nat) : Nat := 0x180070 + 0x1000 * n
abbrev BM_CH_SNAP_SEAM (n : Nat) : Nat := 0x180074 + 0x1000 * n
abbrev BM_CH_SNAP_BYTES (n : Nat) : Nat := 0x180078 + 0x1000 * n
abbrev BM_CH_DESC (n k : Nat) : Nat := 0x180080 + 0x1000 * n + 0x4 * k
abbrev BM_CH_DESC_RES (n k : Nat) : Nat := 0x1800A8 + 0x1000 * n + 0x4 * k
/-- The page LDG. -/
abbrev LDG_PAGE : Nat := 0x7000
abbrev LDG_CTRL : Nat := 0x7040
abbrev LDG_STATUS : Nat := 0x7044
abbrev LDG_QUEUED : Nat := 0x7048
abbrev LDG_INFLIGHT : Nat := 0x704C
abbrev LDG_REPLAY : Nat := 0x7050
abbrev LDG_WRITE : Nat := 0x7054
abbrev LDG_READ : Nat := 0x7058
abbrev LDG_CE : Nat := 0x705C
abbrev LDG_UE : Nat := 0x7060
abbrev LDG_SNAP_SEAM : Nat := 0x7064
abbrev LDG_SNAP_COMMITS : Nat := 0x7068
abbrev LDG_SNAP_WRITE : Nat := 0x706C
abbrev LDG_MCMD : Nat := 0x7080
abbrev LDG_MSTATUS : Nat := 0x7084
abbrev LDG_M_VOL : Nat := 0x7088
abbrev LDG_M_OWNER : Nat := 0x708C
abbrev LDG_M_BASE : Nat := 0x7090
abbrev LDG_M_SIZE : Nat := 0x7094
abbrev LDG_M_STREAM : Nat := 0x7098
abbrev LDG_M_START : Nat := 0x709C
abbrev LDG_M_LEN : Nat := 0x70A0
abbrev LDG_M_CTX : Nat := 0x70A4
abbrev LDG_M_FREE : Nat := 0x70A8
abbrev LDG_M_SEED (k : Nat) : Nat := 0x70C0 + 0x4 * k
/-- The page INST_LDG of instance i. -/
abbrev INST_LDG_PAGE (i : Nat) : Nat := instBase i + 0x5000
abbrev INST_LDG_CMD (i k : Nat) : Nat := instBase i + 0x5040 + 0x4 * k
abbrev INST_LDG_GO (i : Nat) : Nat := instBase i + 0x5080
abbrev INST_LDG_STATE (i : Nat) : Nat := instBase i + 0x5084
abbrev INST_LDG_DROP (i : Nat) : Nat := instBase i + 0x5088
abbrev INST_LDG_BUSY (i : Nat) : Nat := instBase i + 0x508C
abbrev INST_LDG_CQ_BASE_LO (i : Nat) : Nat := instBase i + 0x5090
abbrev INST_LDG_CQ_BASE_HI (i : Nat) : Nat := instBase i + 0x5094
abbrev INST_LDG_CQ_SIZE (i : Nat) : Nat := instBase i + 0x5098
abbrev INST_LDG_CQ_CTRL (i : Nat) : Nat := instBase i + 0x509C
abbrev INST_LDG_CQ_HEAD (i : Nat) : Nat := instBase i + 0x50A0
abbrev INST_LDG_CQ_TAIL (i : Nat) : Nat := instBase i + 0x50A4
abbrev INST_LDG_SSEL (i : Nat) : Nat := instBase i + 0x50A8
abbrev INST_LDG_STAIL_LO (i : Nat) : Nat := instBase i + 0x50AC
abbrev INST_LDG_STAIL_HI (i : Nat) : Nat := instBase i + 0x50B0
abbrev INST_LDG_SSEQ_LO (i : Nat) : Nat := instBase i + 0x50B4
abbrev INST_LDG_SSEQ_HI (i : Nat) : Nat := instBase i + 0x50B8
abbrev INST_LDG_SSTATE (i : Nat) : Nat := instBase i + 0x50BC
abbrev INST_LDG_HELD (i : Nat) : Nat := instBase i + 0x50C0
/-- The page DG. -/
abbrev DG_PAGE : Nat := 0x8000
abbrev DG_STATUS : Nat := 0x8040
abbrev DG_REQ (k : Nat) : Nat := 0x8044 + 0x4 * k
abbrev DG_GO : Nat := 0x8064
abbrev DG_LAST : Nat := 0x8068
abbrev DG_SEL : Nat := 0x806C
abbrev DG_CTXST : Nat := 0x8070
abbrev DG_WAITING : Nat := 0x8074
abbrev DG_BLOCKS : Nat := 0x8078
abbrev DG_CLEARED : Nat := 0x807C
abbrev DG_EARLY : Nat := 0x8080
abbrev DG_SNAP_SEAM : Nat := 0x8084
abbrev DG_SNAP_BLOCKS : Nat := 0x8088
abbrev DG_RES (k : Nat) : Nat := 0x80C0 + 0x4 * k
/-- The page KS. -/
abbrev KS_PAGE : Nat := 0x9000
abbrev KS_WSLOT : Nat := 0x9040
abbrev KS_WATTR : Nat := 0x9044
abbrev KS_KEY (k : Nat) : Nat := 0x9048 + 0x4 * k
abbrev KS_RSEL : Nat := 0x9088
abbrev KS_ATTR : Nat := 0x908C
abbrev KS_CMD : Nat := 0x9090
abbrev KS_VALID : Nat := 0x9094
abbrev KS_DENIED : Nat := 0x9098
/-- The page LN. -/
abbrev LN_PAGE : Nat := 0xA000
abbrev LN_STATUS : Nat := 0xA040
abbrev LN_TAMPER_SRC : Nat := 0xA044
abbrev LN_TAMPER_MASK : Nat := 0xA048
abbrev LN_WIPES : Nat := 0xA04C
abbrev LN_WIPE_SEAM : Nat := 0xA050
/-- The page HIF[n]. -/
abbrev HIF_PAGE (n : Nat) : Nat := 0xE000 + 0x1000 * n
abbrev HIF_LINK (n : Nat) : Nat := 0xE040 + 0x1000 * n
abbrev HIF_STRAPS (n : Nat) : Nat := 0xE044 + 0x1000 * n
abbrev HIF_SPLIT (n : Nat) : Nat := 0xE048 + 0x1000 * n
abbrev HIF_CTRL (n : Nat) : Nat := 0xE04C + 0x1000 * n
abbrev HIF_RD_MAX (n : Nat) : Nat := 0xE050 + 0x1000 * n
abbrev HIF_EARLY_WR (n : Nat) : Nat := 0xE054 + 0x1000 * n
abbrev HIF_CPL_TIMEOUT (n : Nat) : Nat := 0xE058 + 0x1000 * n
abbrev HIF_POISON_RX (n : Nat) : Nat := 0xE05C + 0x1000 * n
abbrev HIF_RETRAIN (n : Nat) : Nat := 0xE060 + 0x1000 * n
abbrev HIF_PTM_CTRL (n : Nat) : Nat := 0xE064 + 0x1000 * n
abbrev HIF_PTM_SEAM_LO (n : Nat) : Nat := 0xE068 + 0x1000 * n
abbrev HIF_PTM_SEAM_HI (n : Nat) : Nat := 0xE06C + 0x1000 * n
abbrev HIF_PTM_SEAM_NUM (n : Nat) : Nat := 0xE070 + 0x1000 * n
abbrev HIF_CXLWIN_BASE (n : Nat) : Nat := 0xE074 + 0x1000 * n
abbrev HIF_CXLWIN_SIZE (n : Nat) : Nat := 0xE078 + 0x1000 * n
abbrev HIF_CXLWIN_STATUS (n : Nat) : Nat := 0xE07C + 0x1000 * n
/-- The page MGT. -/
abbrev MGT_PAGE : Nat := 0xB000
abbrev MGT_I3C_STATUS : Nat := 0xB040
abbrev MGT_IBI_CTRL : Nat := 0xB044
abbrev MGT_IBI_SENT : Nat := 0xB048
abbrev MGT_IBI_NACK : Nat := 0xB04C
abbrev MGT_I3C_ERR : Nat := 0xB050
abbrev MGT_RD_NACK : Nat := 0xB054
abbrev MGT_MOD_STATUS : Nat := 0xB058
abbrev MGT_BOOT_ROM : Nat := 0xB05C
abbrev MGT_BOOT_HBM : Nat := 0xB060
abbrev MGT_BOOT_MOD : Nat := 0xB064
abbrev MGT_BOOT_CONFIG : Nat := 0xB068
abbrev MGT_MIRROR (k : Nat) : Nat := 0xB080 + 0x4 * k
/-- The page DEV. -/
abbrev DEV_PAGE : Nat := 0
abbrev DEV_MODE : Nat := 0x40
abbrev DEV_MODE_REQ : Nat := 0x44
abbrev DEV_BOOT : Nat := 0x48
abbrev DEV_CE : Nat := 0x4C
abbrev DEV_CONTAINED : Nat := 0x50
abbrev DEV_LAST_ERR : Nat := 0x54
abbrev DEV_FATAL : Nat := 0x58
abbrev DEV_FW_ADDR_LO : Nat := 0x5C
abbrev DEV_FW_ADDR_HI : Nat := 0x60
abbrev DEV_FW_LEN : Nat := 0x64
abbrev DEV_FW_CMD : Nat := 0x68
abbrev DEV_FW_STATUS : Nat := 0x6C
abbrev DEV_DIAG_CMD : Nat := 0x70
abbrev DEV_DIAG_STATUS : Nat := 0x74
abbrev DEV_REL_NONCE (k : Nat) : Nat := 0x78 + 0x4 * k
abbrev DEV_REL_TOKEN (k : Nat) : Nat := 0x88 + 0x4 * k
abbrev DEV_REL_CMD : Nat := 0x108
abbrev DEV_REL_STATUS : Nat := 0x10C
/-- The page PWR. -/
abbrev PWR_PAGE : Nat := 0xC000
abbrev PWR_LIMIT : Nat := 0xC040
abbrev PWR_CLOCK : Nat := 0xC044
abbrev PWR_FENCE_REQ : Nat := 0xC048
abbrev PWR_FENCE_CAP : Nat := 0xC04C
abbrev PWR_PKG : Nat := 0xC050
abbrev PWR_PEAK : Nat := 0xC054
abbrev PWR_THROTTLE : Nat := 0xC058
abbrev PWR_WAKE_US : Nat := 0xC05C
abbrev PWR_SNAP_SEAM : Nat := 0xC060
abbrev PWR_SNAP_ENERGY : Nat := 0xC064
/-- The page HLT. -/
abbrev HLT_PAGE : Nat := 0xD000
abbrev HLT_ALERT_EN : Nat := 0xD040
abbrev HLT_TLIM : Nat := 0xD044
abbrev HLT_HOT : Nat := 0xD048
abbrev HLT_ALERTS : Nat := 0xD04C
abbrev HLT_TEMP (k : Nat) : Nat := 0xD080 + 0x4 * k
abbrev HLT_VOLT (k : Nat) : Nat := 0xD140 + 0x4 * k
abbrev HLT_VLIM (k : Nat) : Nat := 0xD170 + 0x4 * k
abbrev HLT_SPEED (k : Nat) : Nat := 0xD1A0 + 0x4 * k
/-- The page INST_APT. -/
abbrev INST_APT_PAGE : Nat := 0x12000
abbrev INST_APT_SEL_PCIE : Nat := 0x12040
abbrev INST_APT_SEL_I3C : Nat := 0x12044

end Sys2Proof.Machine.Reg
end

