-- ==== Sys2Proof/Machine/Ops.lean ====
section
/-! DEFINITION. The shared operations over the state: maps, bit fields, register words, errors and interrupts, host memory
and messages, the physical memories, and time. -/

namespace Sys2Proof.Machine

/-! ### Maps and bit fields -/

/-- The value at a key. -/
def kFind {α : Type} : KMap α → Nat → Option α
  | [], _ => none
  | (k, v) :: m, n => if k = n then some v else kFind m n

/-- The map with one value set, its keys kept rising. -/
def kSet {α : Type} : KMap α → Nat → α → KMap α
  | [], n, a => [(n, a)]
  | (k, v) :: m, n, a =>
    if n < k then (n, a) :: (k, v) :: m else if n = k then (n, a) :: m else (k, v) :: kSet m n a

/-- The map without one key. -/
def kDel {α : Type} : KMap α → Nat → KMap α
  | [], _ => []
  | (k, v) :: m, n => if k = n then kDel m n else (k, v) :: kDel m n

/-- The value at a key, or `d` where the map lists none. -/
def kGet {α : Type} (d : α) (m : KMap α) (n : Nat) : α := (kFind m n).getD d

/-- Sets a value in canonical form: a value equal to the default `d` is not listed. -/
def kPut {α : Type} [DecidableEq α] (d : α) (m : KMap α) (n : Nat) (a : α) : KMap α :=
  if a = d then kDel m n else kSet m n a

/-- Changes the value at a key that is listed. -/
def kMap {α : Type} (m : KMap α) (f : Nat → α → α) : KMap α := m.map fun p => (p.1, f p.1 p.2)

/-- Bits [hi:lo] of a number. -/
def fld (w hi lo : Nat) : Nat := w / 2 ^ lo % 2 ^ (hi + 1 - lo)

/-- Bit n of a number. -/
def bit (w n : Nat) : Bool := w / 2 ^ n % 2 = 1

/-- A number for a bit. -/
def b2n (b : Bool) : Nat := if b then 1 else 0

/-- Bits [hi:lo] of a number replaced by `v`. -/
def setFld (w hi lo v : Nat) : Nat :=
  w / 2 ^ (hi + 1) * 2 ^ (hi + 1) + v % 2 ^ (hi + 1 - lo) * 2 ^ lo + w % 2 ^ lo

/-- A number of `n` bits read as two's complement. -/
def signed (n w : Nat) : Int := if w % 2 ^ n < 2 ^ (n - 1) then ((w % 2 ^ n : Nat) : Int) else ((w % 2 ^ n : Nat) : Int) - 2 ^ n

/-- An integer narrowed to `n` bits. -/
def narrow (n : Nat) (x : Int) : Nat := (x % (2 ^ n : Int)).toNat

/-- The number held little-endian in a list of bytes (R3). -/
def ofBytes : List Byte → Nat
  | [] => 0
  | b :: bs => b.toNat + 256 * ofBytes bs

/-- The `n` bytes of a number, little-endian (R3). -/
def toBytes : Nat → Nat → List Byte
  | 0, _ => []
  | n + 1, w => BitVec.ofNat 8 w :: toBytes n (w / 256)

/-- Applies a function to each number below `n` in order. -/
def forN {σ : Type} (n : Nat) (s : σ) (f : Nat → σ → σ) : σ := (List.range n).foldl (fun t i => f i t) s

/-- Ceiling of a quotient. -/
def ceilDiv (a b : Nat) : Nat := if b = 0 then 0 else (a + b - 1) / b

/-! ### Free values -/

/-- The next free value, and the state in which it is used up (DESIGN CHOICE, notes/assumptions/4.md). -/
def takeFree (s : State) : Nat × State := (Config.free s.freeCtr, { s with freeCtr := s.freeCtr + 1 })

/-! ### Register words -/

/-- The page that a register address lies in, its replica number or instance, and the offset in the page (R366). -/
def pageOf (a : Nat) : Option (PageKind × Nat × Nat) :=
  if a < 0x1000000 then
    match windowPages.find? fun p => p.2.1 ≤ a && a < p.2.1 + 0x1000 * p.2.2 with
    | some p => some (p.1, (a - p.2.1) / 0x1000, a % 0x1000)
    | none => none
  else
    let i := (a - 0x1000000) / 0x10000
    let w := (a - 0x1000000) % 0x10000 / 0x1000
    let o := a % 0x1000
    if i < numInst then
      match w with
      | 0 => some (.instRing, i, o)
      | 1 => some (.instPush, i, o)
      | 2 => some (.instPush, i, o)
      | 3 => some (.instPat, i, o)
      | 4 => some (.instMa, i, o)
      | 5 => some (.instLdg, i, o)
      | _ => none
    else none

/-- The base address of the page that holds a register address. -/
def pageBase (a : Nat) : Nat := a - a % 0x1000

/-- The register that a page offset names. -/
def rowAt (k : PageKind) (o : Nat) : Option RegRow :=
  if o < 0x40 then findRow headerRows o else findRow k.rows o

/-- The reset value of a register word; BLOCK_CTRL.COMPAT takes the COMPAT_SEL strap (R371), BLOCK_ID and BLOCK_CAPS
are the page's own (R369), and the mirror is STALE from PWROK (R343). -/
def resetWord (straps a : Nat) : Nat :=
  match pageOf a with
  | none => 0
  | some (k, i, o) =>
    if o = 0x08 then 1 + 2 * (straps / 8 % 2)
    else if o = 0x00 then k.type + 0x100 * i + 0x10000000
    else if o = 0x04 then k.caps i
    else if k = .mgt && o = 0x80 then 0x20000
    else
      match rowAt k o with
      | some r => if i = 0 then r.rst0 else r.rst
      | none => 0

/-- The value in effect of a register word that the register file holds. -/
def rGet (s : State) (a : Nat) : Nat :=
  match kFind s.rf.val a with
  | some w => w.toNat
  | none => resetWord s.dev.straps a

/-- Bits [hi:lo] of a register word in effect. -/
def rFld (s : State) (a hi lo : Nat) : Nat := fld (rGet s a) hi lo

/-- Bit n of a register word in effect. -/
def rBit (s : State) (a n : Nat) : Bool := bit (rGet s a) n

/-- Sets a register word in effect. -/
def rSet (a v : Nat) (s : State) : State := { s with rf := { s.rf with val := kSet s.rf.val a (BitVec.ofNat 32 v) } }

/-- Sets bits [hi:lo] of a register word in effect. -/
def rSetFld (a hi lo v : Nat) (s : State) : State := rSet a (setFld (rGet s a) hi lo v) s

/-- Adds to a 32-bit counter, with wrap-around. -/
def bump (a n : Nat) (s : State) : State := rSet a (rGet s a + n) s

/-- Adds to a field that saturates at the largest value of its width. -/
def bumpSat (a hi lo n : Nat) (s : State) : State :=
  rSetFld a hi lo (min (rFld s a hi lo + n) (2 ^ (hi + 1 - lo) - 1)) s

/-- Adds to the open frame's count that a snapshot register will show. -/
def bumpFrame (a n : Nat) (s : State) : State :=
  { s with rf := { s.rf with frame := kSet s.rf.frame a (kGet 0 s.rf.frame a + n) } }

/-- Adds to a counter and to the frame count of its snapshot register. -/
def bump2 (a snap n : Nat) (s : State) : State := bumpFrame snap n (bump a n s)

/-- The staged fields of a page that are pending (STAGE_PENDING, R372). -/
def pendOf (s : State) (pg : Nat) : KMap W32 := s.rf.pend.filter fun p => pg ≤ p.1 && p.1 < pg + 0x1000

/-- Whether a page has staged fields pending. -/
def stagePending (s : State) (pg : Nat) : Bool := !(pendOf s pg).isEmpty

/-- Whether committed Seam-applied values of a page wait for a Seam (SEAM_WAIT, R373). -/
def seamWait (s : State) (pg : Nat) : Bool := s.rf.await.any fun p => pg ≤ p.1 && p.1 < pg + 0x1000

/-- BLOCK_CTRL.EN and COMPAT of a page. -/
def pageEn (s : State) (pg : Nat) : Bool := rBit s (pg + 0x08) 0
def pageCompat (s : State) (pg : Nat) : Bool := rBit s (pg + 0x08) 1

/-! ### Functions, host memory and messages -/

/-- SPLIT in effect: a blank fuse reads as 512 (R330). -/
def splitOf (s : State) : Nat := min 1024 (s.dev.fuseSplit.getD 512)

/-- The port and VF number of an instance from 1 to 1,024 (R330). -/
def vfOf (s : State) (i : Nat) : HostPort × Nat := if i ≤ splitOf s then (.a, i) else (.b, i - splitOf s)

/-- A port's state. -/
def port (s : State) : HostPort → PortSt
  | .a => s.portA
  | .b => s.portB

/-- Replaces a port's state. -/
def setPort (p : HostPort) (x : PortSt) (s : State) : State :=
  match p with
  | .a => { s with portA := x }
  | .b => { s with portB := x }

/-- The index of a port: 0 for A, 1 for B. -/
def portIx : HostPort → Nat
  | .a => 0
  | .b => 1

/-- The port of an instance's host traffic (R330). -/
def instPort (s : State) (i : Nat) : HostPort :=
  if i = 0 then (if rBit s (Reg.HIF_CTRL 0) 0 then .b else .a) else (vfOf s i).1

/-- Whether an instance has a requester ID: instance 0, or one whose VF is enabled (R330). -/
def hasFunction (s : State) (i : Nat) : Bool :=
  i = 0 || (i < numInst && (port s (vfOf s i).1).vfEnable && (vfOf s i).2 ≤ (port s (vfOf s i).1).numVfs)

/-- The stamp of the undefined range that holds an address, the newest first. -/
def undefAt : List (Nat × Nat × Nat) → Nat → Option Nat
  | [], _ => none
  | (lo, n, st) :: r, a => if lo ≤ a && a < lo + n then some st else undefAt r a

/-- Takes one address out of the undefined ranges. -/
def undefCut (a : Nat) : List (Nat × Nat × Nat) → List (Nat × Nat × Nat)
  | [] => []
  | (lo, n, st) :: r =>
    if lo ≤ a && a < lo + n then
      (if lo < a then [(lo, a - lo, st)] else []) ++ (if a + 1 < lo + n then [(a + 1, lo + n - (a + 1), st)] else [])
        ++ undefCut a r
    else (lo, n, st) :: undefCut a r

/-- Bytes of host memory. -/
def hostBytes (s : State) (a n : Nat) : List Byte :=
  (List.range n).map fun i => match undefAt s.mem.hundef (a + i) with
    | some st => Config.freeByte st (a + i)
    | none => kGet 0 s.mem.host (a + i)

/-- The canonical form of a byte memory: addresses strictly rising, and no byte listed that reads as an unlisted one does. -/
abbrev Memory.wf (m : List Host.Cell) : Prop := m.Pairwise (fun a b => a.1 < b.1) ∧ ∀ c ∈ m, c.2 ≠ 0

/-- Writes bytes to a byte map in canonical form. -/
def putBytes : KMap Byte → Nat → List Byte → KMap Byte
  | m, _, [] => m
  | m, a, b :: bs => putBytes (kPut 0 m a b) (a + 1) bs

/-- Reads host memory for an instance; none where it has no requester ID (R330). -/
def hostRead (s : State) (i a n : Nat) : Option (List Byte) :=
  if hasFunction s i then some (hostBytes s a n) else none

/-- Writes host memory for an instance; nothing is written where it has no requester ID (R330). -/
def hostWrite (i a : Nat) (bs : List Byte) (s : State) : State :=
  if !hasFunction s i then s else
  let a := a % 2 ^ 64
  let u := if s.mem.hundef = [] then [] else (List.range bs.length).foldl (fun u k => undefCut (a + k) u) s.mem.hundef
  { s with mem := { s.mem with host := putBytes s.mem.host a bs, hundef := u } }

/-- Adds a message to what has left the part. -/
def emit (m : OutMsg) (s : State) : State := { s with out := s.out ++ [m] }

/-- The function configuration of an instance. -/
def fnCfg (s : State) (i : Nat) : FnCfg :=
  if i = 0 then kGet {} (port s (instPort s 0)).fns 0 else kGet {} (port s (vfOf s i).1).fns (vfOf s i).2

/-- The number of MSI-X vectors of an instance (R211). -/
def numVec (i : Nat) : Nat := if i = 0 then 256 else 16

/-- The address of an MSI-X vector's control word, and of the word of pending bits that holds it (Table 10.1). -/
def msixCtrl (i v : Nat) : Nat := instBase i + 0x6000 + 16 * v + 12
def msixPba (i v : Nat) : Nat := instBase i + 0x7000 + 4 * (v / 32)

/-- Whether a vector is masked: its mask bit is set at reset, as PCIe has it (PRESUMED, notes/assumptions/9.md). -/
def vecMasked (s : State) (i v : Nat) : Bool :=
  match kFind s.rf.val (msixCtrl i v) with
  | some w => bit w.toNat 0
  | none => true

/-- Sends an MSI-X message, or sets its pending bit while the vector or the function is masked (R235). -/
def sendMsix (i v : Nat) (s : State) : State :=
  if !hasFunction s i || numVec i ≤ v || !(fnCfg s i).msixEn then s
  else if (fnCfg s i).msixMask || (fnCfg s i).d3 || vecMasked s i v then rSetFld (msixPba i v) (v % 32) (v % 32) 1 s
  else emit (.msix i v) s

/-! ### Interrupt flags and errors of a page -/

/-- The instance and vector that a page signals on (Table 17.5). -/
def pageVector (s : State) (pg : Nat) : Option (Nat × Nat) :=
  match pageOf pg with
  | some (.instRing, i, _) => some (i, rFld s (Reg.INST_VEC i) 7 0)
  | some (.instPat, i, _) => some (i, rFld s (Reg.INST_VEC i) 15 8)
  | some (.instMa, i, _) => some (i, rFld s (Reg.INST_VEC i) 23 16)
  | some (.instLdg, i, _) => some (i, rFld s (Reg.INST_VEC i) 31 24)
  | some (.instPush, _, _) => none
  | some (.bmCh, n, _) => some (rFld s (Reg.BM_CH_OWNER n) 10 0, rFld s (Reg.BM_CH_OWNER n) 18 11)
  | some (k, _, _) => some (0, 32 + k.type)
  | none => none

/-- Whether a page signals: some flag is both set and enabled (R375). -/
def signals (s : State) (pg : Nat) : Bool := rGet s (pg + 0x18) &&& rGet s (pg + 0x10) ≠ 0

/-- Runs a change of a page's flags or enables and sends the page's message when its OR rises (R375). -/
def withSignal (pg : Nat) (f : State → State) (s : State) : State :=
  let t := f s
  if !signals s pg && signals t pg then
    match pageVector t pg with
    | some (i, v) => sendMsix i v t
    | none => t
  else t

/-- Latches the flags of a page that `mask` names (R374). -/
def latch (pg mask : Nat) (s : State) : State :=
  withSignal pg (fun t => rSet (pg + 0x18) (rGet t (pg + 0x18) ||| mask) t) s

/-- A one-cycle pulse of IRQ_STATUS bit b (R374). -/
def pulse (pg b : Nat) (s : State) : State := latch pg (2 ^ b) s

/-- Sets the level of IRQ_STATUS bit b; a rising edge latches its flag (R374). -/
def level (pg b : Nat) (v : Bool) (s : State) : State :=
  let was := rBit s (pg + 0x14) b
  let t := rSetFld (pg + 0x14) b b (b2n v) s
  if v && !was then latch pg (2 ^ b) t else t

/-- Records an error of a page: ERR_CODE, ERR_ADDR and ERR_COUNT (R369). -/
def recErr (pg code addr : Nat) (s : State) : State :=
  bump (pg + 0x2C) 1
    (rSet (pg + 0x28) (addr / 2 ^ 32) (rSet (pg + 0x24) addr (rSet (pg + 0x20) code s)))

/-! ### Error classes (R361, R362) and in-band interrupts -/

/-- DEV_MODE.MODE of a mode (Table 16.1). -/
def Mode.num : Mode → Nat
  | .reset => 0
  | .bringup => 1
  | .configure => 2
  | .service => 3
  | .drain => 4
  | .retain => 5
  | .diagnose => 6
  | .lockdown => 7

/-- Mirror word 1 (Table 15.6). -/
def mirrorWord1 (s : State) : Nat :=
  s.dev.mode.num + 16 * b2n (s.dev.fatal ≠ 0) + 32 * b2n s.ln.tamper
    + 256 * min s.dev.containedAll 255 + 65536 * min s.dev.ceAll 65535

/-- Writes mirror word 1 as it now stands. -/
def writeWord1 (s : State) : State := rSet (Reg.MGT_MIRROR 1) (mirrorWord1 s) s

/-- An in-band interrupt cause becomes pending with mirror word 1, while it is enabled; events of a pending cause merge
(R342). -/
def addCause (c : Nat) (s : State) : State :=
  if rBit s Reg.MGT_IBI_CTRL (c - 1) && s.i3c.enInt && (kFind s.i3c.causes c).isNone then
    { s with i3c := { s.i3c with causes := kSet s.i3c.causes c (BitVec.ofNat 32 (mirrorWord1 s)) } }
  else s

/-- Raises an in-band interrupt cause for an event, for which mirror word 1 is written; error counts that change with it raise
HEALTH too (R342). -/
def raiseIbi (c : Nat) (s : State) : State :=
  let counts := rGet s (Reg.MGT_MIRROR 1) / 256
  let s := writeWord1 s
  addCause c (if counts ≠ mirrorWord1 s / 256 then addCause 1 s else s)

/-- The PAGE value of DEV_LAST_ERR for a page address. -/
def errPage (pg : Nat) : Nat := pg / 0x1000 % 0x1000

/-- Records the class of an error in DEV_LAST_ERR (R362). -/
def lastErr (pg cls : Nat) (s : State) : State :=
  { s with dev := { s.dev with lastErrPage := errPage pg, lastErrCode := rFld s (pg + 0x20) 7 0, lastErrClass := cls } }

/-- A corrected error (R362). -/
def corrected (s : State) : State := bump Reg.DEV_CE 1 { s with dev := { s.dev with ceAll := s.dev.ceAll + 1 } }

/-- A contained error of a page (R362). -/
def contained (pg : Nat) (s : State) : State :=
  raiseIbi 1 (pulse Reg.DEV_PAGE 1 (lastErr pg 2 (bump Reg.DEV_CONTAINED 1
    { s with dev := { s.dev with containedAll := s.dev.containedAll + 1 } })))

/-- Offset of the Uncorrectable Error Status register of AER (PRESUMED, notes/assumptions/52.md). -/
abbrev cfgAerStatus : Nat := 0x1A4

/-- Function 0 of a port reports an AER Uncorrectable Internal Error, bit 22 of its Uncorrectable Error Status (R362). -/
def sendAer (p : HostPort) (s : State) : State :=
  let x := port s p
  let f := kGet {} x.fns 0
  let w := setFld (((kFind f.words cfgAerStatus).map BitVec.toNat).getD 0) 22 22 1
  emit (.aer p) (setPort p { x with fns := kSet x.fns 0 { f with words := kSet f.words cfgAerStatus (BitVec.ofNat 32 w) } } s)

/-- A fatal error (R361, R362): the device halts, the frame controller stops, and the error is reported. -/
def fatalErr (pg cause : Nat) (s : State) : State :=
  if s.dev.fatal ≠ 0 then s else
  let s := lastErr pg 3 { s with dev := { s.dev with fatal := cause }, seam := { s.seam with running := false } }
  raiseIbi 4 (level Reg.DEV_PAGE 2 true (sendAer .b (sendAer .a s)))

/-- Whether the device is halted by a fatal error (R361). -/
def halted (s : State) : Bool := s.dev.fatal ≠ 0 || s.dev.thermtrip

/-- Whether nothing answers and no clock runs: in RESET, and once THERMTRIP has stopped every clock (Table 16.1, R359). -/
def dead (s : State) : Bool := s.dev.mode = .reset || s.dev.thermtrip

/-- Whether blocks work at all: not in RESET, BRINGUP or LOCKDOWN, and not halted (Table 16.1, R361). -/
def working (s : State) : Bool :=
  !halted s && (match s.dev.mode with
    | .reset => false
    | .bringup => false
    | .lockdown => false
    | _ => true)

/-- Whether the Match Array and the Bulk Mover are clocked: RETAIN stops them (R352). -/
def clocked (s : State) : Bool := working s && s.dev.mode ≠ .retain

/-- µs since PWROK rose, 1,600 fabric cycles each (R346). -/
def bootUs (s : State) : Nat := (s.now - s.dev.bootAt) / 1600

/-! ### Status codes (Table 10.9) -/

abbrev stOK := 0x00
abbrev stPartial := 0x01
abbrev stAborted := 0x02
abbrev stDeadline := 0x03
abbrev stShort := 0x04
abbrev stDescInvalid := 0x10
abbrev stLength := 0x11
abbrev stPattern := 0x12
abbrev stFragment := 0x13
abbrev stQuota := 0x14
abbrev stXlate := 0x20
abbrev stWalk := 0x21
abbrev stWalkDevice := 0x22
abbrev stGuard := 0x23
abbrev stParity := 0x30
abbrev stUncorrectable := 0x31
abbrev stCodec := 0x32
abbrev stLateBeat := 0x33
abbrev stArith := 0x40
abbrev stVectorFault := 0x41
abbrev stInstReset := 0x50
abbrev stDomain := 0x51
abbrev stLockdown := 0x52
abbrev stBusy := 0x53
abbrev stLedgerFull := 0x60
abbrev stLedgerRange := 0x61
abbrev stLedgerSealed := 0x62
abbrev stDigestCleared := 0x70
abbrev stKeyDenied := 0x71
abbrev stDigestEarly := 0x72

/-- Whether a status is failing (R69, R230). -/
def failing (st : Nat) : Bool := !(st = stOK || st = stPartial || st = stShort)

/-! ### Placement of blocks (chapter 01) -/

/-- The mesh stops of Panels 0 to 31 (Table 1.1), numbered row × 8 + column. -/
def panelStops : List Nat :=
  [1, 2, 5, 6, 8, 10, 11, 12, 13, 15, 16, 17, 19, 20, 22, 23, 24, 26, 27, 28, 29, 31, 32, 33, 35, 36, 38, 39, 41, 42, 45, 46]

/-- The mesh stops of HBM controller stops H0 to H7 (Table 1.1). -/
def hmcStops : List Nat := [9, 18, 14, 21, 25, 34, 30, 37]

/-- The stop of a Panel and of a controller stop. -/
def panelStop (n : Nat) : Nat := panelStops.getD n 0
def hmcStop (h : Nat) : Nat := hmcStops.getD h 0

/-- The Panel at a stop. -/
def panelAt (st : Nat) : Option Nat :=
  let i := panelStops.findIdx (· == st)
  if i < 32 then some i else none

/-- Distance of two stops in hops: column difference plus row difference (R39). -/
def hops (a b : Nat) : Nat :=
  let d := fun (x y : Nat) => if x ≤ y then y - x else x - y
  d (a % 8) (b % 8) + d (a / 8) (b / 8)

/-- The die of a Panel (R10). -/
def panelDie (n : Nat) : Nat := n / 16

/-! ### Physical memory (chapter 11) -/

/-- What a device physical address reaches (Table 11.1, R237). -/
inductive Region where
  | hbm (stop off : Nat)
  | cap (port off : Nat)
  | ledger (off : Nat)
  | panel (n off : Nat)
  | scratch (p off : Nat)
  | regs (off : Nat)
  | hole
  deriving DecidableEq, Repr

/-- The state of a controller stop and of a capacity-tier port. -/
def hmcOf (s : State) (h : Nat) : HmcSt := kGet {} s.hmc h
def setHmc (h : Nat) (x : HmcSt) (s : State) : State := { s with hmc := kSet s.hmc h x }
def cxtOf (s : State) (p : Nat) : CxtSt := kGet {} s.cxt p
def setCxt (p : Nat) (x : CxtSt) (s : State) : State := { s with cxt := kSet s.cxt p x }

/-- Bytes served by one controller stop, and usable bytes of a capacity-tier port (R12, R246). -/
def stopBytes : Nat := 24 * 2 ^ 30
def capBytes (s : State) (p : Nat) : Nat := if (cxtOf s p).modUp then (cxtOf s p).units * 2 ^ 28 else 0

/-- The region of a physical address: the stops, ports and stores of R12 and R13; failed or tested stacks, unusable capacity
and absent modules are holes (R237). -/
def regionOf (s : State) (a : Nat) : Region :=
  if a < 8 * stopBytes then
    let h := a / stopBytes
    if (hmcOf s h).failed || (hmcOf s h).testing then .hole else .hbm h (a % stopBytes)
  else if 0x010000000000 ≤ a && a < 0x020000000000 then
    let p := (a - 0x010000000000) / 2 ^ 39
    let o := a % 2 ^ 39
    if o < capBytes s p then .cap p o else .hole
  else if 0x030000000000 ≤ a && a < 0x030400000000 then .ledger (a - 0x030000000000)
  else if 0x040000000000 ≤ a && a < 0x042000000000 then
    let n := (a - 0x040000000000) / 2 ^ 32
    let o := a % 2 ^ 32
    if o < 0x200000 then .panel n o
    else if 0x80000000 ≤ o && o < 0x80200000 then .scratch (16 * n + (o - 0x80000000) / 0x20000) (o % 0x20000)
    else .hole
  else if 0x0F0000000000 ≤ a && a < 0x0F0001000000 then .regs (a - 0x0F0000000000)
  else .hole

/-- Physical addresses of a Panel memory, of a scratchpad and of a task slot (R32, Table 11.1). -/
def panelAddr (n : Nat) : Nat := 0x040000000000 + n * 2 ^ 32
def scratchAddr (p : Nat) : Nat := panelAddr (p / 16) + 0x80000000 + (p % 16) * 0x20000

/-- The number of a task state in a record (Table 2.3). -/
def TaskState.num : TaskState → Nat
  | .free => 0
  | .pending => 1
  | .held => 2
  | .ready => 3
  | .running => 4
  | .saving => 5
  | .retiring => 6

/-- The task state that a record's STATE names; reserved values read as FREE. -/
def TaskState.ofNum : Nat → TaskState
  | 1 => .pending
  | 2 => .held
  | 3 => .ready
  | 4 => .running
  | 5 => .saving
  | 6 => .retiring
  | _ => .free

/-- The sixteen words of a task record (Table 2.3). -/
def taskWords (t : TaskRec) : List Nat :=
  [t.state.num + 16 * t.cls + 64 * b2n t.stealable + 128 * b2n t.dFail + 256 * b2n t.noDl + 65536 * t.preempts + 2 ^ 24 * t.gen,
   t.inst + 65536 * t.serial,
   t.dep + 65536 * t.nsucc + 2 ^ 20 * t.ovfCount,
   t.deadline % 2 ^ 32,
   t.succ.getD 0 0 + 65536 * t.succ.getD 1 0, t.succ.getD 2 0 + 65536 * t.succ.getD 3 0,
   t.succ.getD 4 0 + 65536 * t.succ.getD 5 0, t.succ.getD 6 0 + 65536 * t.succ.getD 7 0,
   t.ovfAddr % 2 ^ 32, t.ovfAddr / 2 ^ 32 + 65536 * t.template,
   t.paramAddr % 2 ^ 32, t.paramAddr / 2 ^ 32 + 65536 * t.budget,
   t.age % 2 ^ 32, t.age / 2 ^ 32 % 65536 + 65536 * t.tag,
   t.runPocket + 65536 * t.stage,
   t.morsel]

/-- The 64 bytes of a task record. -/
def taskBytes (t : TaskRec) : List Byte := (taskWords t).flatMap (toBytes 4)

/-- A task record whose bytes were written: every field is taken from them, the dispatcher's own fields stay. -/
def taskOfBytes (old : TaskRec) (bs : List Byte) : TaskRec :=
  let w := fun i => ofBytes ((bs.drop (4 * i)).take 4)
  { old with
    state := TaskState.ofNum (fld (w 0) 3 0), cls := fld (w 0) 5 4, stealable := bit (w 0) 6, dFail := bit (w 0) 7,
    noDl := bit (w 0) 8, preempts := fld (w 0) 23 16, gen := fld (w 0) 31 24,
    inst := fld (w 1) 10 0, serial := fld (w 1) 31 16,
    dep := fld (w 2) 15 0, nsucc := fld (w 2) 19 16, ovfCount := fld (w 2) 31 20,
    deadline := w 3,
    succ := (List.range 8).map fun i => fld (w (4 + i / 2)) (16 * (i % 2) + 15) (16 * (i % 2)),
    ovfAddr := w 8 + 2 ^ 32 * fld (w 9) 15 0, template := fld (w 9) 31 16,
    paramAddr := w 10 + 2 ^ 32 * fld (w 11) 15 0, budget := fld (w 11) 31 16,
    age := w 12 + 2 ^ 32 * fld (w 13) 15 0, tag := fld (w 13) 31 16,
    runPocket := fld (w 14) 8 0, stage := fld (w 14) 23 16, morsel := w 15 }

/-- The task record of a number; a slot never used is FREE with every field 0. -/
def taskOf (s : State) (n : Nat) : TaskRec := kGet {} s.sched.tasks n
def setTask (n : Nat) (t : TaskRec) (s : State) : State :=
  { s with sched := { s.sched with tasks := kSet s.sched.tasks n t } }

/-- A waiting line without its bytes in a range. -/
def WqLine.without (q : WqLine) (a n : Nat) : WqLine :=
  { q with bytes := q.bytes.filter fun p => !(a ≤ q.line * 64 + p.1 && q.line * 64 + p.1 < a + n) }

/-- What waits for a range in the controller stops' write queues is forgotten. -/
def wqForget (a n : Nat) (s : State) : State :=
  { s with hmc := kMap s.hmc fun _ x => { x with wq := (x.wq.map (·.without a n)).filter fun q => !q.bytes.isEmpty } }

/-- Makes `n` bytes from `a` undefined from now on. -/
def makeUndef (a n : Nat) (s : State) : State :=
  if n = 0 then s else
  let s := wqForget a n s
  { s with mem := { s.mem with undef := (a, n, s.freeCtr) :: s.mem.undef }, freeCtr := s.freeCtr + 1 }

/-- Makes `n` bytes of host memory from `a` undefined from now on. -/
def makeHostUndef (a n : Nat) (s : State) : State :=
  if n = 0 then s else
  { s with mem := { s.mem with hundef := (a, n, s.freeCtr) :: s.mem.hundef }, freeCtr := s.freeCtr + 1 }

/-- The line of a controller stop's write queue that holds a physical address, if it waits there (R241). -/
def wqFind : List WqLine → Nat → Option WqLine
  | [], _ => none
  | q :: r, l => if q.line = l then some q else wqFind r l

/-- The byte of the cells themselves, before write queues are looked at. -/
def cellByte (s : State) (a : Nat) : Byte :=
  match undefAt s.mem.undef a with
  | some st => Config.freeByte st a
  | none => kGet 0 s.mem.dev a

/-- The byte that device memory holds at a physical address: a task slot's bytes are its record's (R32), a byte that
waits in a controller stop's write queue is the queue's (R241), and the Ledger Store's are the media's. -/
def memByte (s : State) (a : Nat) : Byte :=
  match regionOf s a with
  | .hbm h _ =>
    match wqFind (hmcOf s h).wq (a / 64) with
    | some q => (kFind q.bytes (a % 64)).getD (cellByte s a)
    | none => cellByte s a
  | .panel n o => if o < 0x20000 then (taskBytes (taskOf s (2048 * n + o / 64))).getD (o % 64) 0 else cellByte s a
  | .ledger o => kGet 0 s.mem.ledger o
  | _ => cellByte s a

/-- Bytes of device memory. -/
def memBytes (s : State) (a n : Nat) : List Byte := (List.range n).map fun i => memByte s (a + i)

/-- Writes one byte of the cells, and takes it out of the undefined ranges. -/
def setCell (a : Nat) (b : Byte) (s : State) : State :=
  { s with mem := { s.mem with dev := kPut 0 s.mem.dev a b,
                               undef := if (undefAt s.mem.undef a).isSome then undefCut a s.mem.undef else s.mem.undef } }

/-- Writes one byte of device memory where `memByte` would read it. -/
def setByte (a : Nat) (b : Byte) (s : State) : State :=
  match regionOf s a with
  | .hbm h _ =>
    match wqFind (hmcOf s h).wq (a / 64) with
    | some q =>
      let x := hmcOf s h
      setHmc h { x with wq := x.wq.map fun e => if e.line = q.line then { e with bytes := kSet e.bytes (a % 64) b } else e } s
    | none => setCell a b s
  | .panel n o =>
    if o < 0x20000 then
      let t := taskOf s (2048 * n + o / 64)
      setTask (2048 * n + o / 64) (taskOfBytes t ((taskBytes t).set (o % 64) b)) s
    else setCell a b s
  | .ledger o => { s with mem := { s.mem with ledger := kPut 0 s.mem.ledger o b } }
  | _ => setCell a b s

/-- Writes bytes of device memory. -/
def setBytes : Nat → List Byte → State → State
  | _, [], s => s
  | a, b :: bs, s => setBytes (a + 1) bs (setByte a b s)

end Sys2Proof.Machine
end

