-- ==== Sys2Proof/Machine/Phys.lean ====
section
/-! DEFINITION. Accesses to the physical memories: holes and domains, the controller stops' banks and counters, SECDED and
parity (chapters 08, 11 and 12). -/

namespace Sys2Proof.Machine

/-! ### Controller stops (R239 to R244) -/

/-- Pseudo-channel, and the bank key and row, of an offset in a controller stop's range (Table 11.2). -/
def pcOf (o : Nat) : Nat := fld o 12 8 ^^^ fld o 20 16
def localAddr (o : Nat) : Nat := o % 256 + o / 2 ^ 13 * 256
def bankKey (o : Nat) : Nat := pcOf o * 1024 + (localAddr o / 2 ^ 28) * 16 + fld (localAddr o) 13 10
def rowOf (o : Nat) : Nat := fld (localAddr o) 27 14

/-- The rows a neighbour refresh of row r refreshes (R242). -/
def neighbours (dist2 : Bool) (r : Nat) : List Nat :=
  (if 1 ≤ r then [r - 1] else []) ++ (if r + 1 < 16384 then [r + 1] else [])
    ++ (if dist2 then (if 2 ≤ r then [r - 2] else []) ++ (if r + 2 < 16384 then [r + 2] else []) else [])

/-- An activate of a row: the row opens, and the neighbour-refresh generator is drawn (R242). -/
def activate (h o : Nat) (s : State) : State :=
  let s := bump (Reg.HMC_ACTIVATES h) 1 s
  let s := setHmc h { hmcOf s h with rows := kSet (hmcOf s h).rows (bankKey o) (rowOf o) } s
  if !rBit s (Reg.HMC_CTRL h) 0 then s else
  let (g, s) := takeFree s
  let s := setHmc h { hmcOf s h with nrGen := kSet (hmcOf s h).nrGen (pcOf o) (BitVec.ofNat 32 g) } s
  if g % 2 ^ (6 + min 6 (rFld s (Reg.HMC_CTRL h) 3 1)) = 0 then
    let ns := neighbours (rBit s (Reg.HMC_CTRL h) 4) (rowOf o)
    let s := setHmc h { hmcOf s h with refreshed := ns.foldl (fun m r => kSet m (bankKey o) r) (hmcOf s h).refreshed } s
    bump (Reg.HMC_NREFRESH h) ns.length s
  else s

/-- A request reaches a pseudo-channel, which wakes for it (R243). -/
def arrive (h pc : Nat) (s : State) : State :=
  let x := hmcOf s h
  setHmc h { x with selfRef := x.selfRef.filter (· != pc), lastReq := kSet x.lastReq pc s.now } s

/-- One line moved between a controller stop and its stack: its row opens, and the line is counted (R240). -/
def stackLine (h o : Nat) (write : Bool) (s : State) : State :=
  let s := if write then bump2 (Reg.HMC_WRITES h) (Reg.HMC_SNAP_WRITES h) 1 s
           else bump2 (Reg.HMC_READS h) (Reg.HMC_SNAP_READS h) 1 s
  if kFind (hmcOf s h).rows (bankKey o) = some (rowOf o) then s else activate h o s

/-! ### SECDED (R244, R247) -/

/-- The error mark of a 64-bit word: 0 good, 1 correctable, 2 uncorrectable, 3 poisoned by its module. -/
def eccOf (s : State) (w : Nat) : Nat := kGet 0 s.mem.ecc w
def setEcc (w m : Nat) (s : State) : State := { s with mem := { s.mem with ecc := kPut 0 s.mem.ecc w m } }

/-- The words of the line that holds an address, and those a range of bytes touches. -/
def lineWords (a : Nat) : List Nat := (List.range 8).map fun i => a / 64 * 8 + i
def rangeWords (a n : Nat) : List Nat := if n = 0 then [] else (List.range ((a + n - 1) / 8 - a / 8 + 1)).map fun i => a / 8 + i

/-- Where a memory's corrected, uncorrectable and poison counters and page lie. -/
structure EccRegs where
  page   : Nat
  ce     : Nat
  ue     : Nat
  poison : Nat
  deriving DecidableEq, Repr

/-- Counts corrected words. -/
def countCe (e : EccRegs) (n : Nat) (s : State) : State :=
  if n = 0 then s else pulse e.page 0 (forN n (bump e.ce n s) fun _ t => corrected t)

/-- SECDED on a read of `n` bytes at `a` inside one line: correctable words of the line are corrected, and written back
unless the line also holds an uncorrectable word; the read fails where it includes an uncorrectable one (R244), and a line
that its module poisoned is uncorrectable as a whole (R247). -/
def eccRead (e : EccRegs) (a n : Nat) (s : State) : State × Nat :=
  let ce := (lineWords a).filter fun w => eccOf s w = 1
  let ue := (lineWords a).filter fun w => 2 ≤ eccOf s w
  let hit := ue.filter fun w => (rangeWords a n).contains w || eccOf s w = 3
  let s := countCe e ce.length s
  let s := if ue = [] then ce.foldl (fun t w => setEcc w 0 t) s else s
  if hit = [] then (s, stOK)
  else if hit.any fun w => eccOf s w = 3 then
    (contained e.page (pulse e.page 1 (recErr e.page 2 a (bump e.poison 1 s))), stUncorrectable)
  else (contained e.page (pulse e.page 1 (recErr e.page 1 a (bump e.ue 1 s))), stUncorrectable)

/-- SECDED on a write whose bytes in a word `whole` says to be all of it: whole words are made good, and a word written in
part is read first, corrected where it can be, and else keeps its error (R244). -/
def eccWrite (e : EccRegs) (ws : List Nat) (whole : Nat → Bool) (s : State) : State :=
  let ce := ws.filter fun w => !whole w && eccOf s w = 1
  ((ws.filter whole) ++ ce).foldl (fun t w => setEcc w 0 t) (countCe e ce.length s)

/-- Whether a range covers a word. -/
def coversWord (a n w : Nat) : Bool := a ≤ 8 * w && 8 * w + 8 ≤ a + n

def hmcEcc (h : Nat) : EccRegs := ⟨Reg.HMC_PAGE h, Reg.HMC_CE h, Reg.HMC_UE h, Reg.HMC_UE h⟩
def cxtEcc (p : Nat) : EccRegs := ⟨Reg.CXT_PAGE p, Reg.CXT_CE p, Reg.CXT_UE p, Reg.CXT_POISON p⟩

/-! ### The write queue (R241) -/

/-- Whether an entry's enabled bytes cover a read of `n` bytes at `a`, and whether they meet it at all. -/
def wqCovers (q : WqLine) (a n : Nat) : Bool := (List.range n).all fun i => (kFind q.bytes ((a + i) % 64)).isSome
def wqMeets (q : WqLine) (a n : Nat) : Bool := (List.range n).any fun i => (kFind q.bytes ((a + i) % 64)).isSome

/-- Writes a waiting line to its stack and takes it out of the queue (R241, R244). -/
def drainLine (h : Nat) (q : WqLine) (s : State) : State :=
  let s := setHmc h { hmcOf s h with wq := (hmcOf s h).wq.filter fun e => e.line ≠ q.line } s
  let s := q.bytes.foldl (fun t p => setCell (q.line * 64 + p.1) p.2 t) s
  let has := fun (w b : Nat) => (kFind q.bytes (8 * (w % 8) + b)).isSome
  eccWrite (hmcEcc h) ((lineWords (q.line * 64)).filter fun w => (List.range 8).any (has w)) (fun w => (List.range 8).all (has w))
    (stackLine h (q.line * 64 - h * stopBytes) true s)

/-- The pseudo-channel of an address of a stop. -/
def pcAt (h a : Nat) : Nat := pcOf (a - h * stopBytes)

/-- A waiting read is answered from its stack. -/
def serveRead (h : Nat) (r : WaitRead) (s : State) : State :=
  let s := setHmc h { hmcOf s h with reads := (hmcOf s h).reads.erase r } s
  let (s, st) := eccRead (hmcEcc h) r.addr r.len (stackLine h (r.addr - h * stopBytes) false s)
  emit (.memData (if st = stOK then (List.range r.len).map fun i => cellByte s (r.addr + i) else []) st) s

/-- A waiting line is written to its stack, and the reads held for it are then answered (R241). -/
def writeEntry (h : Nat) (q : WqLine) (s : State) : State :=
  let s := drainLine h q s
  ((hmcOf s h).reads.filter fun r => r.held && r.addr / 64 = q.line).foldl (fun s r => serveRead h r s) s

/-- A read within one line, in its own row: answered from the write queue where its entry covers it, after the entry is
written where it covers it in part, else from the stack (R241, R244). -/
def stopRead (h o a n : Nat) (s : State) : State × Nat :=
  let s := arrive h (pcOf o) s
  let stack := fun (s : State) => eccRead (hmcEcc h) a n (stackLine h o false s)
  match wqFind (hmcOf s h).wq (a / 64) with
  | none => stack s
  | some q =>
    if wqCovers q a n then (bump (Reg.HMC_FORWARDS h) 1 s, stOK)
    else if wqMeets q a n then stack (writeEntry h q s)
    else stack s

/-- Waiting lines and reads of one pseudo-channel. -/
def pcWrites (s : State) (h pc : Nat) : List WqLine := (hmcOf s h).wq.filter fun q => pcAt h (q.line * 64) = pc
def pcReads (s : State) (h pc : Nat) : List WaitRead := (hmcOf s h).reads.filter fun r => pcAt h r.addr = pc

/-- A write in its own row. It waits in the queue, merged into a waiting entry of its line, while reads of its
pseudo-channel wait; with none waiting a drain takes it to the stack at once (R240, R241). An entry that a held read waits
for is written first. The bytes follow, where `setByte` finds the entry or the cells. -/
def stopWrite (h o a n : Nat) (s : State) : State :=
  let s := arrive h (pcOf o) s
  let s := match wqFind (hmcOf s h).wq (a / 64) with
    | some q => if ((hmcOf s h).reads.any fun r => r.held && r.addr / 64 = a / 64) then writeEntry h q s else s
    | none => s
  if (wqFind (hmcOf s h).wq (a / 64)).isSome then s
  else if pcReads s h (pcOf o) = [] then eccWrite (hmcEcc h) (rangeWords a n) (coversWord a n) (stackLine h o true s)
  else
    let s := match (pcWrites s h (pcOf o)).head? with
      | some q => if (pcWrites s h (pcOf o)).length < 64 then s else writeEntry h q s
      | none => s
    setHmc h { hmcOf s h with wq := (hmcOf s h).wq ++ [⟨a / 64, [], 0, s.now⟩] } s

/-! ### SRAM parity (R185) -/

/-- A persistent parity error, at an address, in a Pocket's or a Panel's page; `cnt` is its counter, 0 for none. -/
def parityFail (page cnt a : Nat) (s : State) : State :=
  contained page (pulse page 0 (recErr page 1 a (if cnt = 0 then s else bump cnt 1 s)))

/-- Where a Panel memory's or a scratchpad's errors are kept: its page, the counter of persistent errors (0 for none) and
that of replays. -/
structure ParRegs where
  page   : Nat
  fatal  : Nat
  replay : Nat
  deriving DecidableEq, Repr

def pnlPar (n : Nat) : ParRegs := ⟨Reg.PNL_PAGE n, Reg.PNL_PARITY_FATAL n, Reg.PNL_REPLAY n⟩
def pktPar (q : Nat) : ParRegs := ⟨Reg.PKT_PAGE q, 0, Reg.PKT_REPLAY q⟩

/-- Whether a word is one of those that `n` bytes at `a` touch, or touch in part only. -/
def wordIn (a n w : Nat) : Bool := n ≠ 0 && a / 4 ≤ w && w ≤ (a + n - 1) / 4
def wordCut (a n w : Nat) : Bool := wordIn a n w && !(a ≤ 4 * w && 4 * w + 4 ≤ a + n)

/-- The words that `f` names are read: a persistent error among them is recorded, and an error that the replay clears
counts as a replay. -/
def parityWords (e : ParRegs) (a : Nat) (f : Nat → Bool) (s : State) : State × Nat :=
  if s.mem.par.any f then (parityFail e.page e.fatal a s, stParity)
  else if s.mem.soft.any f then
    (corrected (bump e.replay 1 { s with mem := { s.mem with soft := s.mem.soft.filter fun w => !f w } }), stOK)
  else (s, stOK)

/-- A read of a Panel memory or scratchpad. -/
def parityRead (e : ParRegs) (a n : Nat) (s : State) : State × Nat := parityWords e a (wordIn a n) s

/-- A write: a word it replaces whole gets good parity, and one it changes in part is read first. -/
def parityWrite (e : ParRegs) (a n : Nat) (s : State) : State × Nat :=
  if s.mem.par = [] && s.mem.soft = [] then (s, stOK) else
  let (s, st) := parityWords e a (wordCut a n) s
  if st ≠ stOK then (s, st) else
  ({ s with mem := { s.mem with par := s.mem.par.filter fun w => !wordIn a n w,
                                soft := s.mem.soft.filter fun w => !wordIn a n w } }, stOK)

/-- A read of Panel memory: a persistent error in a task slot is fatal besides (Table 16.7, R32). -/
def panelRead (p o a n : Nat) (s : State) : State × Nat :=
  let (s, st) := parityRead (pnlPar p) a n s
  if st ≠ stOK && o < 0x20000 then (fatalErr (Reg.PNL_PAGE p) 2 s, st) else (s, st)

/-- The offset of the first of `n` bytes at `a` that lies in a word with an uncorrectable or persistent error; 0 where
there is none. -/
def firstBad (s : State) (a n : Nat) : Nat :=
  ((List.range n).find? fun i => s.mem.par.contains ((a + i) / 4) || 2 ≤ eccOf s ((a + i) / 8)).getD 0

/-! ### One access, line by line -/

/-- The domain state of a Panel's router, and whether it delivers requests (Table 12.4). -/
def domOf (s : State) (n : Nat) : DomState := kGet .online s.noc.dom n
def delivers (s : State) (n : Nat) : Bool :=
  match domOf s n with
  | .online => true
  | .fenced => true
  | _ => false

/-- The write-back cache of check lines of a capacity-tier port (R247): a hit is counted, a miss brings the line in and
may push the oldest out, and a data write leaves its check line dirty. A check line holds no bytes of its own here: the
marks of `MemSt.ecc` say what the check bytes would find. -/
def checkLine (p o : Nat) (write : Bool) (s : State) : State :=
  let c := o / 512
  let x := cxtOf s p
  match x.checks.find? fun e => e.1 = c with
  | some e => bump (Reg.CXT_CHECK_HIT p) 1 (setCxt p { x with checks := (c, e.2 || write) :: x.checks.filter fun e => e.1 ≠ c } s)
  | none => setCxt p { x with checks := ((c, write) :: x.checks).take 4096 } s

/-- One access of `n` bytes at `a` within one 64-byte line, as one access (R138): counters, errors and the status it ends
with. A hole ends it with MEMORY_UNCORRECTABLE (R238), the Ledger Store and the register space with DESC_INVALID (R127,
R238). -/
def lineAccess (write : Bool) (a n : Nat) (s : State) : State × Nat :=
  match regionOf s a with
  | .hole => (s, stUncorrectable)
  | .regs _ => (s, stDescInvalid)
  | .hbm h o =>
    if write then (stopWrite h o a n s, stOK) else stopRead h o a n s
  | .cap p o =>
    if !(cxtOf s p).linkUp then (s, stUncorrectable) else
    let s := bumpFrame (Reg.CXT_SNAP_LINES p) 1 (checkLine p o write s)
    if write then (eccWrite (cxtEcc p) (rangeWords a n) (coversWord a n) (bump (Reg.CXT_WRITES p) 1 s), stOK)
    else eccRead (cxtEcc p) a n (bump (Reg.CXT_READS p) 1 s)
  | .ledger _ => (s, stDescInvalid)
  | .panel p o =>
    if !delivers s p then (bump (Reg.NOC_ABSORBED (panelStop p)) 1 s, stDomain)
    else if write then parityWrite (pnlPar p) a n s
    else panelRead p o a n s
  | .scratch q _ =>
    if !delivers s (q / 16) then (bump (Reg.NOC_ABSORBED (panelStop (q / 16))) 1 s, stDomain)
    else if write then parityWrite (pktPar q) a n s
    else parityRead (pktPar q) a n s

/-- The pieces of a byte range, one for each 64-byte line it touches: start and length. -/
def pieces (a n : Nat) : List (Nat × Nat) :=
  if n = 0 then [] else
  (List.range ((a + n - 1) / 64 - a / 64 + 1)).map fun i =>
    let lo := max a ((a / 64 + i) * 64)
    let hi := min (a + n) ((a / 64 + i + 1) * 64)
    (lo, hi - lo)

/-- A read of physical memory: the status of the first line that fails, and the bytes. -/
def physRead (a n : Nat) (s : State) : State × Nat × List Byte :=
  let r := (pieces a n).foldl (fun (r : State × Nat) p =>
    if r.2 = stOK then lineAccess false p.1 p.2 r.1 else r) (s, stOK)
  (r.1, r.2, memBytes r.1 a n)

/-- A write of physical memory, line by line up to the first line that fails. -/
def physWrite (a : Nat) (bs : List Byte) (s : State) : State × Nat :=
  (pieces a bs.length).foldl (fun (r : State × Nat) p =>
    if r.2 ≠ stOK then r else
    let t := lineAccess true p.1 p.2 r.1
    if t.2 ≠ stOK then t
    else (setBytes p.1 ((bs.drop (p.1 - a)).take p.2) t.1, stOK)) (s, stOK)

end Sys2Proof.Machine
end

