-- ==== Sys2Proof/Machine/Mesh.lean ====
section
/-! DEFINITION. The blocks at the mesh's stops, packet headers, and the packets of the blocks' own accesses with their
statistics (R9, R10, R262, R263, R273). -/

namespace Sys2Proof.Machine

/-! ### Blocks and stops (Table 1.1) -/

/-- A block that sits at a mesh stop. -/
inductive Block where
  | panel (n : Nat)
  | hmc (h : Nat)
  | cxl (p : Nat)
  | host (p : HostPort)
  | management
  | matchArray
  | ledger
  | bulkMover
  deriving DecidableEq, Repr

/-- The stop of a block. -/
def Block.stop : Block → Nat
  | .panel n => panelStop n
  | .hmc h => hmcStop h
  | .cxl 0 => 0
  | .cxl _ => 40
  | .host .a => 3
  | .host .b => 43
  | .management => 4
  | .matchArray => 7
  | .ledger => 44
  | .bulkMover => 47

/-- The block at a stop; every one of the 48 stops has one. -/
def blockAt (st : Nat) : Option Block :=
  match st with
  | 0 => some (.cxl 0)
  | 3 => some (.host .a)
  | 4 => some .management
  | 7 => some .matchArray
  | 40 => some (.cxl 1)
  | 43 => some (.host .b)
  | 44 => some .ledger
  | 47 => some .bulkMover
  | _ =>
    match panelAt st with
    | some n => some (.panel n)
    | none => if hmcStops.contains st then some (.hmc (hmcStops.findIdx (· == st))) else none

/-- The die of a stop: rows 0 to 2 are die 0, rows 3 to 5 die 1 (R10, R11). -/
def stopDie (st : Nat) : Nat := st / 24

/-- The block that serves a physical address (R12, R13, Table 11.1); none in a hole or the register space. -/
def blockOf (s : State) (a : Nat) : Option Block :=
  match regionOf s a with
  | .hbm h _ => some (.hmc h)
  | .cap p _ => some (.cxl p)
  | .ledger _ => some .ledger
  | .panel n _ => some (.panel n)
  | .scratch q _ => some (.panel (q / 16))
  | .regs _ => none
  | .hole => none

/-! ### Packet headers (Table 12.1) -/

/-- The four words of a packet's header. -/
def headerWords (p : Packet) : List Nat :=
  [p.dest % 64 + 2 ^ 6 * (p.src % 64) + 2 ^ 12 * (p.prio % 4) + 2 ^ 14 * (p.type % 16) + 2 ^ 18 * (p.inst % 2 ^ 11) + 2 ^ 29 * b2n p.epoch,
   p.len % 2 ^ 9 + 2 ^ 9 * (p.sub % 64) + 2 ^ 15 * b2n p.poison + 2 ^ 16 * (p.txn % 2 ^ 16),
   p.addr % 2 ^ 32,
   p.addr / 2 ^ 32 % 2 ^ 16 + 2 ^ 16 * (p.status % 256)]

/-- The 16 bytes of a packet's header. -/
def headerBytes (p : Packet) : List Byte := (headerWords p).flatMap (toBytes 4)

/-- The packet that a header and a payload are. -/
def packetOf (ws : List Nat) (payload : List Byte) : Packet :=
  let w := fun (k : Nat) => ws.getD k 0
  { dest := fld (w 0) 5 0, src := fld (w 0) 11 6, prio := fld (w 0) 13 12, type := fld (w 0) 17 14, inst := fld (w 0) 28 18,
    epoch := bit (w 0) 29, len := fld (w 1) 8 0, sub := fld (w 1) 14 9, poison := bit (w 1) 15, txn := fld (w 1) 31 16,
    addr := w 2 + 2 ^ 32 * fld (w 3) 15 0, status := fld (w 3) 23 16, payload := payload }

/-- A packet as it travels: its fields are those its header holds. -/
def onWire (p : Packet) : Packet := packetOf (headerWords p) p.payload

/-- Bytes padded with zeros to whole flits. -/
def padTo128 (bs : List Byte) : List Byte := bs ++ List.replicate ((128 - bs.length % 128) % 128) 0

/-- Flits of a packet: its header and payload in 128-byte flits. -/
def flits (p : Packet) : Nat := ceilDiv (16 + p.payload.length) 128

/-! ### Types (Table 12.2) -/

/-- Whether a TYPE travels on the response plane (R263). -/
def onResponse (type : Nat) : Bool := 8 ≤ type

/-- Whether a TYPE is reserved, and whether it is a non-posted request. -/
def typeReserved (type : Nat) : Bool := type = 6 || type = 7 || 12 ≤ type
def nonPosted (type : Nat) : Bool := type = 0 || type = 1 || type = 3 || type = 4

/-- The response type of a non-posted request: 8 RD_RSP, 9 WR_RSP, 10 ATOM_RSP, 11 MSG_RSP. -/
def responseType (type : Nat) : Nat := if type < 2 then type + 8 else type + 7

/-! ### Statistics (R273) -/

/-- The key of count `k` of an initiator in the frame counts: requests, bytes read, bytes written, latency sum and
maximum, then the eight histogram bins. -/
def statKey (st sub k : Nat) : Nat := 0x10000000 + (st * 64 + sub) * 16 + k

/-- Adds to a count of the open frame, while NOC_CTRL.STAT_EN is set. -/
def statAdd (st sub k n : Nat) (s : State) : State :=
  if rBit s Reg.NOC_CTRL 0 then bumpFrame (statKey st sub k) n s else s

/-- The histogram bin of a latency. -/
def latBin (n : Nat) : Nat := (List.range 7).foldl (fun b i => if 64 * 2 ^ i ≤ n then i + 1 else b) 0

/-- A response's latency enters the counts of its initiator. -/
def statLatency (st sub n : Nat) (s : State) : State :=
  if !rBit s Reg.NOC_CTRL 0 then s else
  let s := statAdd st sub (5 + latBin n) 1 (statAdd st sub 3 n s)
  let k := statKey st sub 4
  { s with rf := { s.rf with frame := kSet s.rf.frame k (max n (kGet 0 s.rf.frame k)) } }

/-- A request packet enters the mesh: it is a request of its initiator, and the payload of a write, an atomic or a message
is bytes written. -/
def statRequest (p : Packet) (s : State) : State :=
  if onResponse p.type then s else
  let s := statAdd p.src p.sub 0 1 s
  if 1 ≤ p.type && p.type ≤ 5 then statAdd p.src p.sub 2 (ceilDiv p.payload.length 64) s else s

/-- A response packet reaches its initiator: the payload of RD_RSP and ATOM_RSP is bytes read. -/
def statResponse (p : Packet) (s : State) : State :=
  if p.type = 8 || p.type = 10 then statAdd p.dest p.sub 1 (ceilDiv p.payload.length 64) s else s

/-! ### The accesses of the blocks themselves

An access that a command makes is answered within the command: its packets are counted where they are injected and sunk, and
its latency is 0 cycles of the model (DESIGN CHOICE, notes/assumptions/35.md). -/

/-- An initiator (Table 12.6): its stop and index there, with the instance and the PRIO of its packets. -/
structure Initiator where
  stop : Nat
  sub  : Nat
  inst : Nat
  prio : Nat
  deriving DecidableEq, Repr

/-- A packet of an initiator. -/
def packetFrom (i : Initiator) (s : State) (dest type a len : Nat) (payload : List Byte) : Packet :=
  { dest := dest, src := i.stop, prio := i.prio, type := type, inst := i.inst, epoch := s.noc.epoch, len := len, sub := i.sub,
    poison := false, txn := 0, addr := a, status := stOK, payload := payload }

/-- The response to a request, with its SRC, SUB and TXN back as DEST, SUB and TXN (R263). -/
def responseTo (p : Packet) (epoch : Bool) (status : Nat) (data : List Byte) : Packet :=
  { p with dest := p.src, src := p.dest, type := responseType p.type, epoch := epoch, len := data.length, poison := false,
           status := status, payload := data }

/-- A request and its response pass over the mesh; a posted packet has no response, and a block's access to its own stop
makes no packet. -/
def transact (p : Packet) (status : Nat) (data : List Byte) (s : State) : State :=
  if p.dest = p.src then s else
  let s := statRequest (onWire p) s
  if !nonPosted p.type then s
  else
    let r := onWire (responseTo p s.noc.epoch status data)
    statLatency r.dest r.sub 0 (statResponse r s)

/-- The packets of an access of `n` bytes at a physical address that ended with a status. -/
def meshAccess (i : Initiator) (type a n status : Nat) (data back : List Byte) (s : State) : State :=
  match blockOf s a with
  | none => s
  | some b => transact (packetFrom i s b.stop type a n data) status back s

/-- A read by an initiator, line by line. -/
def meshRead (i : Initiator) (a n : Nat) (s : State) : State × Nat × List Byte :=
  let (s, st, bs) := physRead a n s
  (meshAccess i 0 a n st [] (if st = stOK then bs else []) s, st, bs)

/-- A write by an initiator. -/
def meshWrite (i : Initiator) (a : Nat) (bs : List Byte) (s : State) : State × Nat :=
  let (s, st) := physWrite a bs s
  (meshAccess i 1 a bs.length st bs [] s, st)

/-- A compare-and-swap by an initiator, at the memory, of `n` bytes (R255, R259): the access's status, and whether it
swapped. -/
def memSwap (i : Initiator) (a n old new : Nat) (s : State) : State × Nat × Bool :=
  let (s, st, bs) := physRead a n s
  let hit := st = stOK && ofBytes bs = old
  let (s, st) := if hit then physWrite a (toBytes n new) s else (s, st)
  (meshAccess i 3 a n st (List.replicate (2 * n) 0) (if st = stOK then bs else []) s, st, hit && st = stOK)

/-- The packets of an access of `n` bytes to a host port, for host memory. -/
def meshHost (i : Initiator) (p : HostPort) (type a n status : Nat) (data back : List Byte) (s : State) : State :=
  transact (packetFrom i s (Block.host p).stop type a n data) status back s

/-- The stretches of a byte range that one packet each carries: one for each 256-byte granule it touches. -/
def granules (a n : Nat) : List (Nat × Nat) :=
  if n = 0 then [] else
  (List.range ((a + n - 1) / 256 - a / 256 + 1)).map fun i =>
    let lo := max a ((a / 256 + i) * 256)
    let hi := min (a + n) ((a / 256 + i + 1) * 256)
    (lo, hi - lo)

/-- The packets of a read or write of a whole range of host memory. -/
def hostTrips (i : Initiator) (p : HostPort) (write : Bool) (a n : Nat) (s : State) : State :=
  (granules a n).foldl (fun s g =>
    let pad := List.replicate g.2 0
    meshHost i p (if write then 1 else 0) g.1 g.2 stOK (if write then pad else []) (if write then [] else pad) s) s

/-- A posted message, or a non-posted one that is answered at once, of `n` payload bytes to a block (R263). -/
def meshMessage (i : Initiator) (posted : Bool) (b : Block) (n : Nat) (s : State) : State :=
  transact (packetFrom i s b.stop (if posted then 5 else 4) 0 n (List.replicate n 0)) stOK [] s

/-! ### Initiators of Table 12.6 -/

def pocketInit (p inst prio : Nat) : Initiator := ⟨panelStop (p / 16), p % 16, inst, prio⟩
def agentInit (n inst prio : Nat) : Initiator := ⟨panelStop n, 21, inst, prio⟩
def collarInit (p : HostPort) (inst : Nat) : Initiator := ⟨(Block.host p).stop, 0, inst, 2⟩
def inboundInit (p : HostPort) : Initiator := ⟨(Block.host p).stop, 1, 0, 2⟩
def digestInit : Initiator := ⟨Block.management.stop, 1, 0, 0⟩
def promoInit : Initiator := ⟨Block.management.stop, 2, 0, 0⟩
def traceInit : Initiator := ⟨Block.management.stop, 3, 0, 0⟩
def ledgerInit (inst : Nat) : Initiator := ⟨Block.ledger.stop, 0, inst, 0⟩

/-- The owner of a Bulk Mover channel (R276), and the channel as an initiator, with the PRIO of BM_CH_CTRL (R263). -/
def bmOwner (s : State) (c : Nat) : Nat := rFld s (Reg.BM_CH_OWNER c) 10 0
def moverInit (s : State) (c : Nat) : Initiator := ⟨Block.bulkMover.stop, c, bmOwner s c, rFld s (Reg.BM_CH_CTRL c) 4 3⟩

end Sys2Proof.Machine
end

