-- ==== Sys2Proof/Machine/Jobs.lean ====
section
/-! DEFINITION. Shared operations on task records, job records and completions: the scheduling trace, how a task or a job
ends, and how its completion is formed (chapters 02, 03 and 10). -/

namespace Sys2Proof.Machine

/-! ### Accessors -/

/-- A Pocket's state. -/
def pktOf (s : State) (p : Nat) : Pocket := kGet {} s.pkt p
def setPkt (p : Nat) (x : Pocket) (s : State) : State := { s with pkt := kSet s.pkt p x }

/-- What the Collar holds for an instance. -/
def instOf (s : State) (i : Nat) : InstSt := kGet {} s.rings.inst i
def setInst (i : Nat) (x : InstSt) (s : State) : State := { s with rings := { s.rings with inst := kSet s.rings.inst i x } }

/-- A job ring and a completion ring of an instance. -/
def jrOf (s : State) (i r : Nat) : JobRing := kGet {} s.rings.jr (i * 8 + r)
def setJr (i r : Nat) (x : JobRing) (s : State) : State := { s with rings := { s.rings with jr := kSet s.rings.jr (i * 8 + r) x } }
def crOf (s : State) (i c : Nat) : ComplRing := kGet {} s.rings.cr (i * 4 + c)
def setCr (i c : Nat) (x : ComplRing) (s : State) : State := { s with rings := { s.rings with cr := kSet s.rings.cr (i * 4 + c) x } }

/-- A job record. -/
def jobOf (s : State) (j : Nat) : Option JobRec := kFind s.sched.jobs j
def setJob (j : Nat) (x : JobRec) (s : State) : State := { s with sched := { s.sched with jobs := kSet s.sched.jobs j x } }
def delJob (j : Nat) (s : State) : State := { s with sched := { s.sched with jobs := kDel s.sched.jobs j } }

/-- A Panel's dispatch agent. -/
def agentOf (s : State) (n : Nat) : Agent := kGet {} s.sched.agents n
def setAgent (n : Nat) (x : Agent) (s : State) : State := { s with sched := { s.sched with agents := kSet s.sched.agents n x } }

/-- Records of a job that are not FREE. -/
def jobTasks (s : State) (j : Nat) : KMap TaskRec := s.sched.tasks.filter fun p => p.2.job = j && p.2.state ≠ .free

/-- Records an instance holds, and READY records of a Panel. -/
def instSlots (s : State) (i : Nat) : Nat := (s.sched.tasks.filter fun p => p.2.inst = i && p.2.state ≠ .free).length
def panelTasks (s : State) (n : Nat) : KMap TaskRec := s.sched.tasks.filter fun p => p.1 / 2048 = n && p.2.state ≠ .free
def readyTasks (s : State) (n : Nat) : KMap TaskRec := (panelTasks s n).filter fun p => p.2.state = .ready

/-- Job records an instance holds. -/
def instJobs (s : State) (i : Nat) : KMap JobRec := s.sched.jobs.filter fun p => p.2.inst = i

/-- The frame length in effect: the period of the open frame (R16). -/
def framePeriod (s : State) : Nat := rFld s Reg.SEAM_PERIOD 17 0

/-- SEAM_OFFSET: fabric cycles since the frame opened (R18). -/
def seamOffset (s : State) : Nat := if s.seam.running then s.now - s.seam.frameOpen else 0

/-! ### The trace (R42, R43, R393) -/

/-- Whether a trace record's write reaches a Panel whose router does not deliver. -/
def traceLost (s : State) (a : Nat) : Option Nat :=
  match regionOf s a with
  | .panel n _ => if delivers s n then none else some n
  | .scratch q _ => if delivers s (q / 16) then none else some (q / 16)
  | _ => none

/-- Whether the trace ring is full with WRAP clear (R43). -/
def traceFull (s : State) : Bool :=
  !rBit s Reg.SCHED_TRACE_CTRL 1 &&
    (rGet s Reg.SCHED_TRACE_WR + 2 ^ 32 - rGet s Reg.SCHED_TRACE_RD) % 2 ^ 32 = 2 ^ rFld s Reg.SCHED_TRACE_SIZE 4 0

/-- The level of TRACE_FULL follows the ring. -/
def traceLevel (s : State) : State := level Reg.SCHED_PAGE 0 (traceFull s) s

/-- Records the trace writer can take at one moment of the model: the 64 cycles of a Seam, otherwise one cycle
(DEDUCED, notes/assumptions/14.md). -/
def traceRoom (s : State) : Nat := if s.now + 64 = s.seam.stealsFrom then 64 else 1

/-- Writes one trace record (Table 2.5) for an event that EVENT_MASK bit `e` enables, or drops it. -/
def trace (e code : Nat) (n : Option Nat) (t : TaskRec) (pocket peer run status : Nat) (s : State) : State :=
  let inst := if n.isNone then 0x7FF else t.inst
  if !rBit s Reg.SCHED_TRACE_CTRL 0 || !rBit s Reg.SCHED_TRACE_CTRL (8 + e) then s
  else if rBit s Reg.SCHED_TRACE_CTRL 16 && inst ≠ 0x7FF && inst ≠ rFld s Reg.SCHED_TRACE_CTRL 27 17 then s
  else
    let used := if s.sched.traceAt = s.now then s.sched.traceN else 0
    if traceFull s || traceRoom s ≤ used then traceLevel (bump Reg.SCHED_TRACE_DROP 1 s)
    else
      let ws : List Nat :=
        [s.seam.num % 2 ^ 32, seamOffset s % 2 ^ 18 + 2 ^ 18 * t.cls + 2 ^ 20 * code + 2 ^ 24 * t.gen,
         n.getD 0xFFFF + 65536 * pocket, inst + 2048 * peer + 65536 * t.tag, t.deadline % 2 ^ 32, run % 2 ^ 32,
         status + 256 * t.preempts + 65536 * t.stage, t.morsel]
      let base := rGet s Reg.SCHED_TRACE_BASE_LO + 2 ^ 32 * rFld s Reg.SCHED_TRACE_BASE_HI 15 0
      let a := base + 32 * (rGet s Reg.SCHED_TRACE_WR % 2 ^ rFld s Reg.SCHED_TRACE_SIZE 4 0)
      let s := { s with sched := { s.sched with traceAt := s.now, traceN := used + 1 } }
      let s := match traceLost s a with
        | some p => bump (Reg.NOC_DROPPED (panelStop p)) 1 s
        | none => meshAccess traceInit 2 a 32 stOK (ws.flatMap (toBytes 4)) [] (physWrite a (ws.flatMap (toBytes 4)) s).1
      traceLevel (bump Reg.SCHED_TRACE_WR 1 s)

/-- A record with every field 0, for trace events of no task. -/
def noTask : TaskRec := { deadline := 0 }

/-! ### Pockets that stop -/

/-- A Pocket as an initiator: its packets carry the instance and the CLASS of its task (R263). -/
def pktInit (s : State) (p : Nat) : Initiator :=
  match (pktOf s p).task with
  | some n => pocketInit p (taskOf s n).inst (taskOf s n).cls
  | none => pocketInit p 0 0

/-- Every line a Pocket holds. -/
def allLines (x : Pocket) : List L1Line := x.sets.flatMap (·.2) ++ x.victim ++ x.evict

/-- The store buffer of a Pocket drains, oldest store first (R180). A store that fails only now is lost (DESIGN CHOICE,
notes/assumptions/38.md). -/
def drainStores (p : Nat) (s : State) : State :=
  let q := (pktOf s p).stores
  if q = [] then s else
  let i := pktInit s p
  q.foldl (fun t e => (meshWrite i e.pa e.bytes t).1) (setPkt p { pktOf s p with stores := [] } s)

/-- The firmware's cleaning of a Pocket's caches at a task end or a cut: dirty lines are written back and every line is
dropped (R182). -/
def cleanAll (p : Nat) (s : State) : State :=
  let s := drainStores p s
  let dirty := (allLines (pktOf s p)).filter (·.dirty)
  let i := pktInit s p
  let s := dirty.foldl (fun t l => (meshWrite i (l.line * 64) l.data t).1) s
  let s := bump (Reg.PKT_WRITEBACK p) dirty.length s
  setPkt p { pktOf s p with sets := [], victim := [], evict := [], fill := none, vcOn := rBit s (Reg.PKT_CTRL p) 1 } s

/-- A Match request of a Pocket that no longer waits for it: no Pocket takes its response. -/
def dropMatch (p : Nat) (s : State) : State :=
  { s with ma := { s.ma with resp := kDel s.ma.resp p,
                             waiting := s.ma.waiting.map fun q => if q.pocket = p then { q with pocket := 0xFFFF } else q } }

/-- A Pocket leaves its task: its caches are cleaned, its region registers invalidated (R177), and it is idle. -/
def freePocket (p : Nat) (s : State) : State :=
  let s := dropMatch p (cleanAll p s)
  setPkt p { pktOf s p with task := none, wait := .none, cut := false, regions := [],
                            asked := false, filled := [] } s

/-! ### Job ends -/

/-- A completion for a job record. -/
def complOf (s : State) (j : Nat) (x : JobRec) : Compl :=
  let st := x.status.getD stOK
  { ring := x.ring, cr := rFld s (Reg.INST_JR_CTRL x.inst x.ring) 2 1, tag := x.tag, status := st, gen := x.gen,
    kind := x.kindBits, detail := x.detail, serial := x.serial,
    rows := if failing st then 0 else x.rows, bytes := if failing st then 0 else x.bytes,
    seam := x.endSeam, intr := x.intr, job := some j, inOvf := false, usesTag := true }

/-- Whether every task of a job has been created (R58). -/
def allCreated (x : JobRec) : Bool := (List.zip x.counts x.created).all fun p => p.2.length = p.1

/-- A region descriptor's fields from its 32 bytes (Table 11.3). -/
def descOf (bs : List Byte) : Desc :=
  let w0 := ofBytes (bs.take 4)
  { v := bit w0 0, r := bit w0 1, w := bit w0 2, x := bit w0 3, u := bit w0 4, c := bit w0 5, s := bit w0 6, a := bit w0 7,
    d := bit w0 8, p := bit w0 9, pool := fld w0 13 10, pf := bit w0 14,
    len := fld (ofBytes ((bs.drop 4).take 4)) 20 0, voff := fld (ofBytes ((bs.drop 8).take 4)) 19 0,
    base := ofBytes ((bs.drop 16).take 4), home := ofBytes ((bs.drop 20).take 4), raw := ofBytes (bs.take 8) }

/-- The address of an instance's descriptor of a slot. -/
def walkAddr (s : State) (i slot : Nat) : Nat := kGet 0 s.xl.rtBase i + slot * 32

/-- Makes `n` bytes of an instance's device virtual space undefined, slot by slot, as far as its descriptors map them for
writes. -/
def undefVa (i va n : Nat) (s : State) : State :=
  if n = 0 then s else
  (List.range ((va + n - 1) / 2 ^ 36 - va / 2 ^ 36 + 1)).foldl (fun s k =>
    let slot := va / 2 ^ 36 + k
    let d := descOf (memBytes s (walkAddr s i slot) 32)
    let lo := max (max va (slot * 2 ^ 36) - slot * 2 ^ 36) (d.voff * 65536)
    let hi := min (min (va + n) ((slot + 1) * 2 ^ 36) - slot * 2 ^ 36) ((d.voff + d.len) * 65536)
    if d.v && d.w && lo < hi then makeUndef (d.base * 65536 + (lo - d.voff * 65536)) (hi - lo) s else s) s

/-- A failed job's output destinations hold undefined data (R30, R70, R232). -/
def undefOutputs (x : JobRec) (s : State) : State :=
  x.outs.foldl (fun s f => if f.kind = 3 then makeHostUndef f.addr f.len s else undefVa x.inst f.addr f.len s) s

/-- A Pattern slot that is RETIRING becomes EMPTY when no job names it (Table 3.1). -/
def settleSlot (i k : Nat) (s : State) : State :=
  match kFind s.pat.slots (i * 64 + k) with
  | some sl =>
    if sl.state = .retiring && !(s.sched.jobs.any fun p => p.2.inst = i && p.2.slot = k && p.2.kind ≠ .background && !p.2.formed)
    then { s with pat := { s.pat with slots := kDel s.pat.slots (i * 64 + k) } } else s
  | none => s

/-- Forms a job's completion once its last record is FREE (R71): its status is fixed if no failing one was, and it joins
the completions of its instance in the order jobs end. A job of an older generation forms none (R234). -/
def settleJob (j : Nat) (s : State) : State :=
  match jobOf s j with
  | none => s
  | some x =>
    if x.formed || !(jobTasks s j).isEmpty || (x.status.isNone && !allCreated x) then s
    else
      let x := if x.status.isSome then x else
        { x with status := some (if x.sawShort then stShort else if x.sawPartial then stPartial else stOK), endSeam := s.seam.num }
      let x := { x with formed := true }
      let s := if failing (x.status.getD stOK) then undefOutputs x s else s
      let s := setJob j x s
      let s :=
        if x.gen = (instOf s x.inst).gen then
          setInst x.inst { instOf s x.inst with compl := (instOf s x.inst).compl ++ [complOf s j x] } s
        else
          pulse (Reg.INST_RING_PAGE x.inst) 2 (bump (Reg.INST_GEN_DISCARD x.inst) 1 (delJob j s))
      settleSlot x.inst x.slot s

/-- Retires one record of a job whose status is fixed: a running task is stopped without a save, a SAVING record is
RETIRING until its save completes, and the others are freed (R70, Table 2.4). -/
def retireTask (n : Nat) (s : State) : State :=
  let t := taskOf s n
  match t.state with
  | .free => s
  | .saving => setTask n { t with state := .retiring, doomed := true } s
  | .running => setTask n { t with state := .free } (freePocket t.runPocket s)
  | _ => setTask n { t with state := .free } s

/-- RUN of a trace record: cycles since dispatch of a task that a Pocket has, else 0 (Table 2.5). -/
def runTime (s : State) (t : TaskRec) : Nat :=
  match t.state with
  | .running => s.now - t.since
  | .saving => s.now - t.since
  | _ => 0

/-- A MISS event of a record, counted for its home Panel (Tables 2.6 and 2.10). -/
def missEvent (n st : Nat) (s : State) : State :=
  let t := taskOf s n
  trace 5 6 (some n) t t.runPocket 0 (runTime s t) st (bumpFrame (Reg.SCHED_SNAP_CUT (n / 2048) + 1) 1 s)

/-- Every record of a job that ends with DEADLINE_MISSED ends with it: a MISS event each, and MISS pulses. -/
def missAll (j : Nat) (s : State) : State :=
  match jobTasks s j with
  | [] => s
  | ts => pulse Reg.SCHED_PAGE 2 (ts.foldl (fun t p => missEvent p.1 stDeadline t) s)

/-- The units abandon the commands of a job that ended with a failing status (R98, R122, R129). -/
def deadCmds (j serial : Nat) (s : State) : State :=
  let mark := fun (c : UnitCmd) => if c.job = j && c.serial = serial then { c with dead := true } else c
  { s with packs := kMap s.packs fun _ x => { x with queue := x.queue.map mark },
           scans := kMap s.scans fun _ x => { x with queue := x.queue.map mark, run := x.run.map fun r => { r with cmd := mark r.cmd } },
           opers := kMap s.opers fun _ x =>
             { x with queue := x.queue.map mark, run := x.run.map fun r => { r with cmd := mark r.cmd },
                      standby := x.standby.map fun r => { r with cmd := mark r.cmd } } }

/-- Fixes a job's status once, in frame `k`, and retires its records (R70). -/
def endJobIn (k j st detail : Nat) (s : State) : State :=
  match jobOf s j with
  | none => s
  | some x =>
    if x.status.isSome || x.formed then s
    else
      let s := setJob j { x with status := some st, detail := detail, endSeam := k } s
      let s := if failing st then deadCmds j x.serial s else s
      let s := if st = stDeadline then missAll j s else s
      settleJob j ((jobTasks s j).foldl (fun t p => retireTask p.1 t) s)

/-- Fixes a job's status in the open frame. -/
def endJob (j st : Nat) (s : State) : State := endJobIn s.seam.num j st 0 s

/-- A task's failing end fixes its job's status, and the cycle is kept for R233. -/
def failJob (j st : Nat) (s : State) : State :=
  match jobOf s j with
  | some x => if x.status.isSome || x.formed then s else endJob j st (setJob j { x with failedAt := some s.now } s)
  | none => s

/-- Ends every job of an instance. -/
def endInstJobs (i st : Nat) (s : State) : State := (instJobs s i).foldl (fun t p => endJob p.1 st t) s

/-- Whether the job that a unit's command or a Pocket acts for still runs: its record holds no fixed status (R70). -/
def jobLive (s : State) (j serial : Nat) : Bool :=
  match jobOf s j with
  | some x => x.serial = serial && x.status.isNone && !x.formed
  | none => false

/-- Whether an instance's overflow is full (R231). -/
def ovfCount (s : State) (i : Nat) : Nat := ((instOf s i).compl.filter (·.inOvf)).length
def ovfFull (s : State) (i : Nat) : Bool := 16 ≤ ovfCount s i

/-- Task numbers of a job's successors: the record's own first, then the overflow list's (R36); the list is given. -/
def succOf (t : TaskRec) (ovf : List Nat) : List Nat := t.succ.take t.nsucc ++ ovf

/-- Gives the task state of a new time: stamps AGE (R33). -/
def ageNow (s : State) : Nat := s.now % 2 ^ 48

/-- A task's record enters READY now. -/
def makeReady (n : Nat) (s : State) : State := setTask n { taskOf s n with state := .ready, age := ageNow s } s

end Sys2Proof.Machine
end

