-- ==== Sys2Proof/Machine/Xlate.lean ====
section
/-! DEFINITION. Region translation: descriptors, walks, TLBs, the A and D bits, and reads and writes of an instance's
device virtual space (R249 to R257). -/

namespace Sys2Proof.Machine

/-! ### Descriptors -/

/-- Whether a physical range lies wholly in HBM that is present. -/
def inHbm (s : State) (a n : Nat) : Bool :=
  n ≠ 0 && a + n ≤ 8 * stopBytes &&
    (List.range 8).all fun h => !(hmcOf s h).failed || (a + n ≤ h * stopBytes || (h + 1) * stopBytes ≤ a)

/-- Whether a physical range lies wholly in the usable part of one capacity-tier half. -/
def inCap (s : State) (a n : Nat) : Bool :=
  n ≠ 0 && (List.range 2).any fun p =>
    0x010000000000 + p * 2 ^ 39 ≤ a && a + n ≤ 0x010000000000 + p * 2 ^ 39 + capBytes s p

/-- Whether a physical range lies wholly in the Ledger Store, in one Panel memory, or in one scratchpad. -/
def inLedger (a n : Nat) : Bool := 0x030000000000 ≤ a && a + n ≤ 0x030400000000
def inPanel (a n : Nat) : Bool := (List.range 32).any fun p => panelAddr p ≤ a && a + n ≤ panelAddr p + 0x200000
def inScratch (a n : Nat) : Bool :=
  0x040000000000 ≤ a && a < 0x042000000000 && (List.range 16).any fun i =>
    let b := panelAddr ((a - 0x040000000000) / 2 ^ 32) + 0x80000000 + i * 0x20000
    b ≤ a && a + n ≤ b + 0x20000

/-- Whether a physical range lies wholly in one Cuff range of an instance from 1 to 1,024 (R74). -/
def cuffCovers (s : State) (i a n : Nat) : Bool :=
  i = 0 || (List.range 8).any fun k =>
    let b := rGet s (Reg.INST_CUFF_RBASE_LO i k) + 2 ^ 32 * rFld s (Reg.INST_CUFF_RBASE_HI i k) 15 0
    b ≤ a && a + n ≤ b + rGet s (Reg.INST_CUFF_RLEN i k) * 65536

/-- Whether a descriptor is valid for an instance (R250). -/
def descValid (s : State) (i : Nat) (d : Desc) : Bool :=
  let a := d.base * 65536
  let n := d.len * 65536
  d.v && 1 ≤ d.len && d.len ≤ 0x100000 && d.voff + d.len ≤ 0x100000 &&
    (inHbm s a n || inCap s a n || inLedger a n || inPanel a n || inScratch a n) && cuffCovers s i a n

/-! ### Rights -/

/-- What an access asks for, and at which level: a Pocket's mode with its UACC, or a block with user rights (R174, R251). -/
structure Acc where
  r : Bool
  w : Bool
  x : Bool
  /-- Supervisor mode of a Pocket, and STATUS.UACC. -/
  sup  : Bool
  uacc : Bool
  deriving DecidableEq, Repr

def accRead : Acc := ⟨true, false, false, false, false⟩
def accWrite : Acc := ⟨false, true, false, false, false⟩
def accLoad : Acc := ⟨true, false, true, false, false⟩

/-- The status a descriptor's rights give an access: the guard comes before the rights (R174); GUARD_VIOLATION stands
for a guard denial, which only a Pocket meets as such. -/
def rights (pocket : Bool) (acc : Acc) (d : Desc) : Nat :=
  let guard := if acc.sup then d.u && (acc.x || !acc.uacc) else !d.u
  let deny := (acc.r && !d.r) || (acc.w && !d.w) || (acc.x && !d.x)
  if pocket && guard then stGuard else if guard || deny then stXlate else stOK

/-! ### TLBs (R252) -/

/-- The number of a TLB's entries (Table 11.4). -/
def tlbSize (t : Nat) : Nat := if t < 512 then 32 else if t < 544 then 64 else if t < 553 then 128 else 64

/-- TLB numbers of the Panel units, of a stop's Scan Fronts, of the Bulk Mover and of a host port. -/
def tlbPanel (n : Nat) : Nat := 512 + n
def tlbScan (h : Nat) : Nat := 544 + h
def tlbBm : Nat := 552
def tlbCollar (p : HostPort) : Nat := 553 + portIx p

/-- A block's way into the mesh and its TLB, as one number: the TLB number and, above 1,024, its index at its stop
(Table 12.6). -/
def viaPort (t sub : Nat) : Nat := t + 1024 * sub
def portTlb (t : Nat) : Nat := t % 1024

/-- The initiator at a port. -/
def portInit (s : State) (t inst prio : Nat) : Initiator :=
  let k := t % 1024
  if k < 512 then pktInit s k
  else if k < 544 then ⟨panelStop (k - 512), t / 1024, inst, prio⟩
  else if k < 552 then ⟨hmcStop (k - 544), t / 1024, inst, prio⟩
  else if k = 552 then moverInit s (t / 1024)
  else ⟨(Block.host (if k = 553 then .a else .b)).stop, t / 1024, inst, prio⟩

def tlbOf (s : State) (t : Nat) : List TlbEntry := kGet [] s.xl.tlbs t
def setTlb (t : Nat) (es : List TlbEntry) (s : State) : State := { s with xl := { s.xl with tlbs := kPut [] s.xl.tlbs t es } }

/-- The entry of an instance's slot. -/
def tlbFind (s : State) (t i slot : Nat) : Option TlbEntry := (tlbOf s t).find? fun e => e.inst = i && e.slot = slot

/-- Drops matching entries of one TLB, and of every TLB. -/
def tlbDrop (t : Nat) (f : TlbEntry → Bool) (s : State) : State := setTlb t ((tlbOf s t).filter fun e => !f e) s
def tlbDropAll (f : TlbEntry → Bool) (s : State) : State :=
  { s with xl := { s.xl with tlbs := (s.xl.tlbs.map fun p => (p.1, p.2.filter fun e => !f e)).filter fun p => p.2 ≠ [] } }

/-- Fills an entry; a full TLB replaces one at random (R252). -/
def tlbFill (t : Nat) (e : TlbEntry) (s : State) : State :=
  let es := (tlbOf s t).filter fun x => !(x.inst = e.inst && x.slot = e.slot)
  if es.length < tlbSize t then setTlb t (es ++ [e]) s
  else
    let (k, s) := takeFree s
    setTlb t (es.set (k % es.length) e) s

/-! ### Walks (R253 to R255) -/

/-- An instance is stopped by a walk into device space: its jobs end (R254). -/
def stopInstance (i a : Nat) (s : State) : State :=
  let s := { s with xl := { s.xl with stopped := if s.xl.stopped.contains i then s.xl.stopped else i :: s.xl.stopped, stopAddr := a } }
  endInstJobs i stWalkDevice (pulse Reg.XL_PAGE 0 s)

/-- One walk: the descriptor with A set, or the status it fails with (R253, R255). -/
def walk (ini : Initiator) (i slot : Nat) (pocket : Bool) (acc : Acc) (s : State) : State × Nat × Desc :=
  let a := walkAddr s i slot
  let s := bump Reg.XL_WALKS 1 s
  let none_ := descOf []
  let reads := match regionOf s a with
    | .hbm _ _ => true
    | .cap _ _ => true
    | _ => false
  if !reads then (stopInstance i a (bump Reg.XL_FAULTS 1 s), stWalkDevice, none_)
  else
    let (s, st, bs) := meshRead ini a 32 s
    let d := descOf bs
    if st ≠ stOK then (bump Reg.XL_FAULTS 1 s, stWalk, none_)
    else if !descValid s i d then (bump Reg.XL_FAULTS 1 s, stXlate, none_)
    else if rights pocket acc d ≠ stOK then (bump Reg.XL_FAULTS 1 s, rights pocket acc d, none_)
    else if d.a then (s, stOK, d)
    else
      let raw := setFld d.raw 7 7 1
      match memSwap ini a 8 d.raw raw s with
      | (s, st, _) =>
        if st ≠ stOK then (bump Reg.XL_FAULTS 1 s, stWalk, none_)
        else (bump Reg.XL_AD_CAS 1 s, stOK, { d with a := true, raw := raw })

/-- Sets A and D of a written region's descriptor by compare-and-swap, and D of the entry. A descriptor that changed is
walked again, and its D is then set where it is clear; a swap that ends in error fails as a walk does (R253, R255). -/
def setDirty (t i slot : Nat) (pocket : Bool) (acc : Acc) (e : Desc) (s : State) : State × Nat × Desc :=
  let ini := portInit s t i 2
  let put := fun (d : Desc) (s : State) =>
    match memSwap ini (walkAddr s i slot) 8 d.raw (setFld d.raw 8 7 3) s with
    | (s, st, ok) =>
      let e := { d with a := true, d := true, raw := setFld d.raw 8 7 3 }
      if st ≠ stOK then (bump Reg.XL_FAULTS 1 s, stWalk, false, d)
      else if ok then (tlbFill (portTlb t) ⟨i, slot, e⟩ (bump Reg.XL_AD_CAS 1 s), stOK, true, e)
      else (bump Reg.XL_AD_RETRY 1 s, stOK, false, d)
  match put e s with
  | (s, st, done, d) =>
    if st ≠ stOK || done then (s, st, d) else
    let s := tlbDrop (portTlb t) (fun x => x.inst = i && x.slot = slot) s
    let (s, st, d) := walk ini i slot pocket acc s
    if st ≠ stOK then (s, st, d)
    else if d.d then (tlbFill (portTlb t) ⟨i, slot, d⟩ s, stOK, d)
    else
      let r := put d s
      (r.1, r.2.1, r.2.2.2)

/-- Whether a save base has been committed (R44): the register then has a value in effect. -/
def saveBaseSet (s : State) : Bool :=
  (kFind s.rf.val Reg.SCHED_SAVE_BASE_LO).isSome || (kFind s.rf.val Reg.SCHED_SAVE_BASE_HI).isSome

/-- Whether a physical address lies in the task slots or the save region, which only the dispatcher, the supervisor and
debug reach (R28, R32). -/
def slotSpace (s : State) (a : Nat) : Bool :=
  let b := rGet s Reg.SCHED_SAVE_BASE_LO + 2 ^ 32 * rFld s Reg.SCHED_SAVE_BASE_HI 15 0
  (match regionOf s a with
    | .panel _ o => o < 0x20000
    | _ => false) || (saveBaseSet s && b ≤ a && a < b + 2 ^ 30)

/-- The physical address of slot offset `o` under a descriptor, or the status of R251. -/
def placeIn (s : State) (pocket : Bool) (acc : Acc) (d : Desc) (o : Nat) : Nat × Nat :=
  if o < d.voff * 65536 || (d.voff + d.len) * 65536 ≤ o then (stXlate, 0)
  else if rights pocket acc d ≠ stOK then (rights pocket acc d, 0)
  else
    let a := d.base * 65536 + (o - d.voff * 65536)
    if !acc.sup && slotSpace s a then (stXlate, 0) else (stOK, a)

/-- The place of slot offset `o` under a region register: XLATE where it is invalid or does not map the offset (R177). -/
def regionPlace (s : State) (pocket : Bool) (acc : Acc) (r : RegionReg) (o : Nat) : Nat × Nat :=
  if !r.desc.v || o < r.lo || r.hi ≤ o then (stXlate, 0) else placeIn s pocket acc r.desc o

/-- Translates one virtual address through a TLB and the instance's Region Table (R251); also answers the descriptor. -/
def translateTlb (t i va : Nat) (pocket : Bool) (acc : Acc) (s : State) : State × Nat × Nat × Desc :=
  let slot := va / 2 ^ 36
  let o := va % 2 ^ 36
  let (s, st, d) := match tlbFind s (portTlb t) i slot with
    | some e => (s, stOK, e.desc)
    | none =>
      let (s, st, d) := walk (portInit s t i 2) i slot pocket acc s
      if st = stOK then (tlbFill (portTlb t) ⟨i, slot, d⟩ s, stOK, d) else (s, st, d)
  if st ≠ stOK then (s, st, 0, d)
  else
    let (st, a) := placeIn s pocket acc d o
    if st ≠ stOK then (s, st, 0, d)
    else if acc.w && !d.d then
      let (s, st, d) := setDirty t i slot pocket acc d s
      if st ≠ stOK then (s, st, 0, d)
      else
        let (st, a) := placeIn s pocket acc d o
        (s, st, a, d)
    else (s, stOK, a, d)

/-- Translates for a block acting for an instance with user rights; an address with bits [63:48] set fails. -/
def translate (t i va : Nat) (acc : Acc) (s : State) : State × Nat × Nat :=
  if 2 ^ 48 ≤ va then (s, stXlate, 0)
  else
    let (s, st, a, _) := translateTlb t i va false acc s
    (s, st, a)

/-- Reads `n` bytes of an instance's virtual space line by line; the status of the first line that fails. -/
def vRead (t i va n : Nat) (s : State) : State × Nat × List Byte :=
  (pieces va n).foldl (fun (r : State × Nat × List Byte) p =>
    if r.2.1 ≠ stOK then r else
    let (s, st, a) := translate t i p.1 accRead r.1
    if st ≠ stOK then (s, st, r.2.2) else
    let (s, st, bs) := meshRead (portInit s t i 2) a p.2 s
    (s, st, r.2.2 ++ bs)) (s, stOK, [])

/-- Writes bytes of an instance's virtual space line by line, up to the first line that fails. -/
def vWrite (t i va : Nat) (bs : List Byte) (s : State) : State × Nat :=
  (pieces va bs.length).foldl (fun (r : State × Nat) p =>
    if r.2 ≠ stOK then r else
    let (s, st, a) := translate t i p.1 accWrite r.1
    if st ≠ stOK then (s, st) else meshWrite (portInit s t i 2) a ((bs.drop (p.1 - va)).take p.2) s) (s, stOK)

/-- Reads a little-endian number of `n` bytes. -/
def vReadNat (t i va n : Nat) (s : State) : State × Nat × Nat :=
  let (s, st, bs) := vRead t i va n s
  (s, st, ofBytes bs)

end Sys2Proof.Machine
end

