-- ==== Sys2Proof/Machine/Tasks.lean ====
section
/-! DEFINITION. The dispatcher's shared operations: traps of a Pocket, creation, selection, dispatch, saving and ending of
tasks (chapters 02, 03 and 08). -/

namespace Sys2Proof.Machine

/-! ### Traps (R175) -/

abbrev causeIllegal := 0x01
abbrev causePrivileged := 0x02
abbrev causeGuard := 0x03
abbrev causeAlign := 0x04
abbrev causeXlate := 0x05
abbrev causeWalk := 0x06
abbrev causeWalkDevice := 0x07
abbrev causeSpace := 0x08
abbrev causeParity := 0x09
abbrev causeUncorr := 0x0A
abbrev causeOffline := 0x0B
abbrev causeMatch := 0x0C
abbrev causeOverflow := 0x0D
abbrev causeVector := 0x0E
abbrev causeCut := 0x10
abbrev causeCall := 0x11

/-- A Pocket reset (R175): registers, caches and instruction cache as at device reset, CYCLE from 0. -/
def resetPocket (p : Nat) (s : State) : State :=
  setPkt p { cycBase := s.cyc16, halted := (pktOf s p).halted } s

/-- A trap: EPC, CAUSE and TADDR are written, PRIV goes to PPRIV, PRIV is set, IE and UACC clear, and the Pocket goes on
at TVEC. With PRIV already set NEST is set; with NEST set the Pocket stops, its job ends with GUARD_VIOLATION and it is
reset (R175). -/
def trap (p cause epc taddr : Nat) (s : State) : State :=
  let x := pktOf s p
  if x.nest then
    let s := contained (Reg.PKT_PAGE p) (pulse (Reg.PKT_PAGE p) 1 (recErr (Reg.PKT_PAGE p) 2 x.epc s))
    let s := match x.task with
      | some n =>
        let j := (taskOf s n).job
        let s := failJob j stGuard s
        settleJob j (setTask n { taskOf s n with state := .free } s)
      | none => s
    resetPocket p (freePocket p s)
  else
    bump (Reg.PKT_TRAPS p) 1
      (setPkt p { x with epc := epc, cause := cause, taddr := taddr, ppriv := x.priv, nest := x.priv, priv := true,
                         ie := false, uacc := false, pc := x.tvec % 2 ^ 48, asked := false, filled := [] } s)

/-- A long-view instruction wakes a gated unit, and its completion is the unit's last use (R195). -/
def lvWake (p : Nat) (s : State) : State :=
  let s := if (pktOf s p).lvGated then bump (Reg.PKT_LV_WAKE p) 1 s else s
  setPkt p { pktOf s p with lvGated := false, lvAt := s.cyc16 } s

/-! ### Fences and homes (R41, R59) -/

/-- The first of a list that comes first in an order. -/
def firstBy {α : Type} (lt : α → α → Bool) : List α → Option α
  | [] => none
  | a :: r => match firstBy lt r with
    | none => some a
    | some b => if lt b a then some b else some a

/-- Nearer to a stop first, and at equal distance the lower Panel number (R39, R41). -/
def nearer (st a b : Nat) : Bool :=
  hops st (panelStop a) < hops st (panelStop b) || (hops st (panelStop a) = hops st (panelStop b) && a < b)

/-- Whether a Panel takes new tasks. -/
def unfenced (s : State) (n : Nat) : Bool := !s.sched.fenced.contains n && !s.sched.gated.contains n

/-- The Panel that stands in for a fenced home; none while every Panel is fenced (R41). -/
def homeFor (s : State) (n : Nat) : Option Nat :=
  if unfenced s n then some n else
  let open_ := (List.range 32).filter (unfenced s)
  match firstBy (nearer (panelStop n)) (open_.filter fun m => panelDie m = panelDie n) with
  | some m => some m
  | none => firstBy (nearer (panelStop n)) open_

/-- The Panel a template's PLACE gives morsel m of M (R59). -/
def placePanel (t : Template) (serial m total : Nat) : Nat :=
  match t.place with
  | 0 => (serial + m) % 32
  | 1 =>
    let d := 2 * m / total
    16 * d + (m - ceilDiv (d * total) 2) % 16
  | _ => t.panel

/-! ### The stage graph (R54, R56, R57) -/

/-- Successor morsels over one edge of morsel j (Table 3.6). -/
def edgeSucc (e : Edge) (j : Nat) : List Nat :=
  match e.kind with
  | 1 => [j]
  | 2 => if e.g = 0 then [] else [j / e.g]
  | 3 => (List.range e.g).map fun i => j * e.g + i
  | _ => []

/-- Predecessor morsels over one edge of morsel m, and the edge's share of DEP_COUNT (Table 3.6). -/
def edgePred (e : Edge) (p m : Nat) : List Nat :=
  match e.kind with
  | 1 => [m]
  | 2 => (List.range (min e.g (p - m * e.g))).map fun i => m * e.g + i
  | 3 => if e.g = 0 then [] else [m / e.g]
  | _ => []

def edgeShare (e : Edge) (p m : Nat) : Nat :=
  match e.kind with
  | 1 => 1
  | 2 => min e.g (p - m * e.g)
  | 3 => 1
  | _ => 0

/-- Successors of morsel j of stage i: stage and morsel, in the order of R56. -/
def successors (stages : List Stage) (i j : Nat) : List (Nat × Nat) :=
  (List.zip (List.range stages.length) stages).flatMap fun p =>
    (p.2.edges.filter fun e => e.kind ≠ 0 && e.pred = i).flatMap fun e => (edgeSucc e j).map fun m => (p.1, m)

/-- DEP_COUNT of morsel m of a stage (R54). -/
def depCount (counts : List Nat) (st : Stage) (m : Nat) : Nat :=
  st.edges.foldl (fun n e => n + edgeShare e (counts.getD e.pred 0) m) 0

/-- Successors per task of a stage (R56): those of its morsel 0. -/
def succCount (stages : List Stage) (i : Nat) : Nat := (successors stages i 0).length

/-- Where the overflow list part of each stage begins in the list area, and the end of the last part (R57). -/
def listParts (stages : List Stage) (counts : List Nat) : KMap Nat × Nat :=
  (List.range stages.length).foldl (fun (r : KMap Nat × Nat) i =>
    let t := succCount stages i
    if t ≤ 8 then r
    else
      let lo := (r.2 + 63) / 64 * 64
      (kSet r.1 i lo, lo + counts.getD i 0 * (t - 8) * 2)) ([], 0)

/-! ### Creation (R35, R58, R61) -/

/-- An instance's Pattern slot. -/
def slotOf (s : State) (i k : Nat) : Option PatSlot := kFind s.pat.slots (i * 64 + k)

/-- The built-in Pattern of a background job (R68): a task that decodes and may be stolen, and one that encodes and may
not, both of CLASS 0 and PLACE SPREAD. That there is one of each is the model's choice (DESIGN CHOICE,
notes/assumptions/25.md). -/
def builtinSlot : PatSlot :=
  { state := .resident, stages := [⟨0, 0, 1, []⟩, ⟨1, 0, 1, []⟩],
    templates := [⟨0, 65535, 0, true, false, 0, 0, 0, 0xFF, 0⟩, ⟨0, 65535, 0, false, false, 0, 0, 0, 0xFF, 0⟩] }

/-- The Pattern that a job runs. -/
def jobSlot (s : State) (x : JobRec) : Option PatSlot :=
  if x.kind = .background then some builtinSlot else slotOf s x.inst x.slot

/-- The number of the record of a job's morsel. -/
def recordOf (s : State) (j st m : Nat) : Option Nat :=
  ((jobTasks s j).find? fun p => p.2.stage = st && p.2.morsel = m).map (·.1)

/-- Whether a job's morsel has been created. -/
def isCreated (x : JobRec) (st m : Nat) : Bool := (x.created.getD st []).contains m

/-- Whether a morsel may be created: it exists, is not created, and all its successors are (R35). -/
def mayCreate (x : JobRec) (stages : List Stage) (st m : Nat) : Bool :=
  m < x.counts.getD st 0 && !isCreated x st m && (successors stages st m).all fun q => isCreated x q.1 q.2

/-- The lowest morsel of a stage not yet created. -/
def firstUncreated (x : JobRec) (st : Nat) : Nat :=
  let c := x.created.getD st []
  ((List.range (c.length + 1)).find? fun m => !c.contains m).getD 0

/-- The next morsel a job creates under R58: predecessors of its PENDING records first, then ascending morsels. -/
def nextMorsel (s : State) (j : Nat) (x : JobRec) (stages : List Stage) : Option (Nat × Nat) :=
  let pend := (jobTasks s j).filter fun p => p.2.state = .pending
  let cap := rFld s (Reg.INST_CUFF_SLOTS x.inst) 16 0
  let okPend := fun (q : Nat × Nat) =>
    depCount x.counts (stages.getD q.1 ⟨0, 0, 0, []⟩) q.2 = 0 || 2 * pend.length < cap
  let preds := pend.flatMap fun p =>
    (stages.getD p.2.stage ⟨0, 0, 0, []⟩).edges.flatMap fun e =>
      (edgePred e (x.counts.getD e.pred 0) p.2.morsel).map fun m => (e.pred, m)
  let lt := fun (a b : Nat × Nat) => a.2 < b.2 || (a.2 = b.2 && a.1 < b.1)
  match firstBy lt (preds.filter fun q => mayCreate x stages q.1 q.2 && okPend q) with
  | some q => some q
  | none =>
    let heads := (List.range stages.length).map fun i => (i, firstUncreated x i)
    firstBy lt (heads.filter fun q => mayCreate x stages q.1 q.2 && okPend q)

/-- The lowest FREE slot of a Panel. -/
def freeSlot (s : State) (n : Nat) : Option Nat :=
  (List.range 2048).find? fun k => (taskOf s (2048 * n + k)).state = .free

/-- The record that R61 fills for a morsel; `nums` are its successors' numbers in the order of R56
(R60 for CLASS, D_FAIL and PLACE). -/
def fillRecord (s : State) (j : Nat) (x : JobRec) (sl : PatSlot) (st m : Nat) (nums : List Nat) (ovf : Nat) : TaskRec :=
  let stage := sl.stages.getD st ⟨0, 0, 0, []⟩
  let t := sl.templates.getD stage.template ⟨0, 0, 0, false, false, 0, 0, 0, 0, 0⟩
  let dep := depCount x.counts stage m
  let express := x.kind = .express
  { state := if dep ≠ 0 then .pending else if express && x.deadline.isNone then .held else .ready,
    cls := if express then 3 else min t.cls 2, stealable := t.stealable, dFail := express || t.dFail,
    noDl := x.deadline.isNone, gen := x.gen, inst := x.inst, serial := x.serial, dep := dep,
    nsucc := min nums.length 8, ovfCount := nums.length - 8, deadline := x.deadline.getD 0 % 2 ^ 32,
    succ := (nums.take 8 ++ List.replicate 8 0).take 8, ovfAddr := ovf, template := stage.template,
    paramAddr := if express then 0 else x.paramAddr, budget := t.budget, age := ageNow s, tag := x.tag,
    runPocket := 0x1FF, stage := st, morsel := m, job := j }

/-- Creates the next task of a job, if its Cuff, its home Panel's slots and R58 allow it. -/
def createNext (j : Nat) (s : State) : State :=
  match jobOf s j with
  | none => s
  | some x =>
    if x.status.isSome || x.formed then s else
    match jobSlot s x with
    | none => s
    | some sl =>
      match nextMorsel s j x sl.stages with
      | none => s
      | some (st, m) =>
        let stage := sl.stages.getD st ⟨0, 0, 0, []⟩
        let t := sl.templates.getD stage.template ⟨0, 0, 0, false, false, 0, 0, 0, 0, 0⟩
        let want := if x.kind = .express then sl.expPanel else placePanel t x.serial m (x.counts.getD st 1)
        if rFld s (Reg.INST_CUFF_SLOTS x.inst) 16 0 ≤ instSlots s x.inst then s else
        match homeFor s want with
        | none => s
        | some n =>
          match freeSlot s n with
          | none => s
          | some k =>
            let nums := (successors sl.stages st m).map fun q => (recordOf s j q.1 q.2).getD 0xFFFF
            let parts := (listParts sl.stages x.counts).1
            let ovf := x.paramAddr + sl.paramLen + kGet 0 parts st + m * (nums.length - 8) * 2
            let s := setJob j { x with created := x.created.set st ((x.created.getD st []) ++ [m]) } s
            if nums.length ≤ 8 then setTask (2048 * n + k) (fillRecord s j x sl st m nums 0) s
            else
              let (s, e) := vWrite (tlbCollar (instPort s x.inst)) x.inst ovf ((nums.drop 8).flatMap (toBytes 2)) s
              if e ≠ stOK then endJob j e s
              else setTask (2048 * n + k) (fillRecord s j x sl st m nums ovf) s

/-- An accepted express job's records are created at once, as far as there is room for them (R29). -/
def createAll (j : Nat) (s : State) : State :=
  match jobOf s j with
  | some x => forN (min x.counts.sum 65536) s fun _ t => createNext j t
  | none => s

/-! ### Selection (R37, R38) -/

/-- The charge at which an instance's share is spent; none for a share of 4,096 (R72). -/
def shareLimit (s : State) (i : Nat) : Option Nat :=
  let sh := rFld s (Reg.INST_CUFF_SHARE i) 12 0
  if sh = 4096 then none else some (ceilDiv (sh * 512 * framePeriod s) 4096)

/-- Whether an instance's share is spent in the open frame (R72). -/
def shareSpent (s : State) (i : Nat) : Bool :=
  match shareLimit s i with
  | none => false
  | some l => l ≤ kGet 0 s.sched.charge i

/-- Whether a READY task may be selected: its instance's share is not spent, or it is express (R37), and the instance's
completions are not held (R231). -/
def eligible (s : State) (t : TaskRec) : Bool := !ovfFull s t.inst && (t.cls = 3 || !shareSpent s t.inst)

/-- key(t) of R38; none for a task with no deadline. -/
def taskKey (s : State) (t : TaskRec) : Option Int :=
  if t.noDl then none else some (signed 32 (t.deadline + 2 ^ 32 - s.seam.num % 2 ^ 32))

/-- before(a, b) of R38. -/
def taskBefore (s : State) (a b : Nat × TaskRec) : Bool :=
  let rest :=
    if a.2.cls ≠ b.2.cls then decide (b.2.cls < a.2.cls)
    else if a.2.age ≠ b.2.age then decide (signed 48 (a.2.age + 2 ^ 48 - b.2.age) < 0)
    else decide (a.1 < b.1)
  match taskKey s a.2, taskKey s b.2 with
  | some x, some y => if x = y then rest else decide (x < y)
  | some _, none => true
  | none, some _ => false
  | none, none => rest

/-- select(panel) of R38. -/
def select (s : State) (n : Nat) : Option (Nat × TaskRec) :=
  firstBy (taskBefore s) ((readyTasks s n).filter fun p => eligible s p.2)

/-! ### Dispatch (R38, R178, R179) -/

/-- The descriptor of a window region register (R177): read, write and user over a physical range. -/
def windowDesc (voff len base : Nat) : Desc :=
  { v := true, r := true, w := true, x := false, u := true, c := false, s := false, a := true, d := true, p := false, pool := 0,
    pf := false, len := len, voff := voff, base := base, home := 0, raw := 0 }

/-- Region registers 6 and 7 of a Pocket for a task of instance i (R177): the Panel window and the scratchpad window.
Panel memory from offset 0x2_0000 and the scratchpad up to 0x1_BFFF lie at the start of slots 0xFFE and 0xFFF. -/
def windowRegs (p i : Nat) : KMap RegionReg :=
  [(6, { slot := 0xFFE, inst := some i, desc := windowDesc 0 0x1E ((panelAddr (p / 16) + 0x20000) / 65536) }),
   (7, { slot := 0xFFF, inst := some i, desc := windowDesc 0 2 (scratchAddr p / 65536), hi := 0x1C000 })]

/-- The descriptor of a firmware region register (R177): read with write or execute, no user right. -/
def firmwareDesc (v exec : Bool) (len base : Nat) : Desc :=
  { windowDesc 0 len base with v := v, w := !exec, x := exec, u := false }

/-- Where the runtime firmware lies in HBM: its code in the last 2 MiB but one of the highest stop that is present, its
data in the last (DESIGN CHOICE, notes/assumptions/46.md). -/
def firmwareBase (s : State) : Nat :=
  (((List.range 8).reverse.find? fun h => !(hmcOf s h).failed).getD 7 + 1) * stopBytes - 0x200000

/-- Region registers 0 to 4 as the B0 firmware uses them (R177), register k in slot 0xFF8 + k (DESIGN CHOICE,
notes/assumptions/46.md): code, data, the save region once its base is committed, the Panel's task slots and the upper
16 KiB of the scratchpad. -/
def firmwareRegs (s : State) (p : Nat) : KMap RegionReg :=
  let reg := fun (k : Nat) (d : Desc) => (k, ({ slot := 0xFF8 + k, inst := none, desc := d } : RegionReg))
  let save := rGet s Reg.SCHED_SAVE_BASE_LO + 2 ^ 32 * rFld s Reg.SCHED_SAVE_BASE_HI 15 0
  [reg 0 (firmwareDesc true true 0x10 (firmwareBase s / 65536)),
   reg 1 (firmwareDesc true false 0x10 (firmwareBase s / 65536 + 0x10)),
   reg 2 (firmwareDesc (saveBaseSet s) false 0x4000 (save / 65536)),
   reg 3 (firmwareDesc true false 2 (panelAddr (p / 16) / 65536)),
   (4, { slot := 0xFFC, inst := none, desc := firmwareDesc true false 1 (scratchAddr p / 65536 + 1), lo := 0xC000, hi := 0x10000 })]

/-- The region registers while a task of instance i runs (R177); register 5 is invalid. -/
def taskRegs (s : State) (p i : Nat) : KMap RegionReg := firmwareRegs s p ++ windowRegs p i

/-- The save area of a task (R28). -/
def saveArea (s : State) (n : Nat) : Nat :=
  rGet s Reg.SCHED_SAVE_BASE_LO + 2 ^ 32 * rFld s Reg.SCHED_SAVE_BASE_HI 15 0 + n * 16384

/-- Registers from a list of equal-sized fields in memory, default entries left out. -/
def loadRegs (w count : Nat) (bs : List Byte) (n : Nat) : KMap (BitVec w) :=
  (List.range count).foldl (fun m i => kPut 0 m i (BitVec.ofNat w (ofBytes ((bs.drop (n * i)).take n)))) []

/-- A Pocket starts a new task: the registers of R178, user mode, and the windows. -/
def enterTask (p n : Nat) (s : State) : State :=
  let t := taskOf s n
  match jobOf s t.job with
  | none => s
  | some x =>
    let sl := (jobSlot s x).getD ⟨.resident, 0, false, 0, 0, 0, 0, [], [], [], [], 0, 0, 0, 0, 0, 0⟩
    let tm := sl.templates.getD t.template ⟨0, 0, 0, false, false, 0, 0, 0, 0, 0⟩
    let express := x.kind = .express
    -- where the firmware holds the built-in Pattern is open
    let (base, s) := if x.kind = .background then takeFree s else (sl.addr, s)
    let g := [(1, n), (2, if express then 0xFFF000000000 else t.paramAddr), (3, base + sl.constOff + tm.constOff),
              (4, t.morsel), (5, t.stage), (6, t.tag), (7, if express || x.nfrag = 0 then 0 else x.fragAddr)]
    let s := if express then
        bump (Reg.PNL_STREAM_LINES (p / 16)) 2 (physWrite (scratchAddr p) (x.params.take 96) s).1 else s
    setPkt p { pktOf s p with
      task := some n, g := g.foldl (fun m q => kPut 0 m q.1 (BitVec.ofNat 64 q.2)) [], v := [],
      pr := [(0, BitVec.allOnes 128)], pc := (base + sl.codeOff + tm.entry) % 2 ^ 48, priv := false, uacc := false, ie := true,
      nest := false, ppriv := false, bare := false, fcsr := 0, vxStart := 0, vxAddr := 0,
      regions := taskRegs s p x.inst, wait := .none, cut := false } s

/-- A Pocket resumes a saved task: every register as saved, going on at EPC (R179). A save area or scratchpad that cannot
be reached ends the job with the access's status (R238). -/
def resumeTask (p n : Nat) (s : State) : State :=
  let t := taskOf s n
  let i := pocketInit p t.inst t.cls
  let (s, st0, bs) := meshRead i (saveArea s n) 8192 s
  let at_ := fun o k => ofBytes ((bs.drop o).take k)
  let kib := min 8 (at_ 0x11A0 8 % 16)
  let (s, st1, sp) := meshRead i (saveArea s n + 0x2000) (kib * 1024) s
  let (s, st2) := physWrite (scratchAddr p) sp s
  let s := setPkt p { pktOf s p with task := some n } s
  if st0 ≠ stOK then failJob t.job st0 s else if st1 ≠ stOK then failJob t.job st1 s
  else if st2 ≠ stOK then failJob t.job st2 s
  else setPkt p { pktOf s p with
    task := some n, g := kDel (loadRegs 64 32 bs 8) 0, v := loadRegs 1024 32 (bs.drop 0x100) 128,
    pr := loadRegs 128 8 (bs.drop 0x1100) 16, pc := at_ 0x1180 8 % 2 ^ 48 / 4 * 4, epc := at_ 0x1180 8, fcsr := at_ 0x1188 8 &&& 0x3F3,
    vxStart := at_ 0x1190 8, vxAddr := at_ 0x1198 8, priv := false, uacc := false, ie := true, nest := false,
    ppriv := false, bare := false, regions := taskRegs s p t.inst, wait := .none, cut := false } s

/-- Gives a READY task to a Pocket with none (R38). -/
def startTask (p n : Nat) (s : State) : State :=
  let t := { taskOf s n with state := .running, runPocket := p, since := s.now }
  let s := setTask n t { s with sched := { s.sched with roused := p :: s.sched.roused.filter (· ≠ p) } }
  let s := bumpFrame (Reg.SCHED_SNAP_DISPATCH (p / 16)) 1 (trace 0 1 (some n) t p 0 0 0 s)
  if t.saved then resumeTask p n s else enterTask p n s

/-- Whether a Pocket can take a task: it has none, is not halted, and its Panel is not gated. -/
def pocketIdle (s : State) (p : Nat) : Bool :=
  (pktOf s p).task.isNone && !(pktOf s p).halted && !s.sched.gated.contains (p / 16)

/-! ### Saving and ending (R25, R36, R69) -/

/-- The save area's first 8 KiB for a Pocket's registers (Table 8.9). -/
def saveImage (x : Pocket) (kib : Nat) : List Byte :=
  (List.range 32).flatMap (fun i => toBytes 8 (kGet 0 x.g i).toNat)
    ++ (List.range 32).flatMap (fun i => toBytes 128 (kGet 0 x.v i).toNat)
    ++ (List.range 8).flatMap (fun i => toBytes 16 (kGet 0 x.pr i).toNat)
    ++ toBytes 8 x.epc ++ toBytes 8 x.fcsr ++ toBytes 8 x.vxStart ++ toBytes 8 x.vxAddr ++ toBytes 8 kib
    ++ List.replicate (0x2000 - 0x11A8) 0

/-- SAVE_KIB of a task's template. -/
def saveKibOf (s : State) (t : TaskRec) : Nat :=
  match jobOf s t.job with
  | none => 0
  | some x => match jobSlot s x with
    | none => 0
    | some sl => (sl.templates.getD t.template ⟨0, 0, 0, false, false, 0, 0, 0, 0, 0⟩).saveKib

/-- Decrements leave Panel n's agent for a record's successors of the numbers given, each as one posted message of its
8-byte payload (R36, R263). -/
def sendDecrs (n : Nat) (t : TaskRec) (ks : List Nat) (s : State) : State :=
  let s := { s with sched := { s.sched with decrs := s.sched.decrs ++ ks.map fun k => ⟨k, t.inst, t.serial⟩ } }
  ks.foldl (fun s k => meshMessage (agentInit n t.inst t.cls) true (.panel (k / 2048 % 32)) 8 s) s

/-- A task's normal end: a decrement goes to each direct successor, then the overflow list is read and one goes to each it
names; its record is freed, and its job settles (R36, Table 2.4). -/
def retireNormal (n : Nat) (s : State) : State :=
  let t := taskOf s n
  let s := sendDecrs (n / 2048) t (t.succ.take t.nsucc) s
  let (s, st, bs) := if t.ovfCount = 0 then (s, stOK, [])
    else vRead (tlbCollar (instPort s t.inst)) t.inst t.ovfAddr (2 * t.ovfCount) s
  if st ≠ stOK then failJob t.job st (setTask n { t with state := .free } s)
  else
    let ovf := (List.range t.ovfCount).map fun i => ofBytes ((bs.drop (2 * i)).take 2)
    settleJob t.job (sendDecrs (n / 2048) t ovf (setTask n { t with state := .free } s))

/-- The end report of a task: its Pocket is freed, counts of a status that does not fail are added, and a failing one
ends the job (R69, R70). -/
def endTask (p n st rows bytes : Nat) (s : State) : State :=
  let t := taskOf s n
  let s := trace 1 2 (some n) t p 0 (s.now - t.since) st s
  let s := freePocket p s
  if failing st then failJob t.job st (setTask n { t with state := .free } s)
  else match jobOf s t.job with
    | none => setTask n { t with state := .free } s
    | some x =>
      let s := setJob t.job { x with rows := (x.rows + rows) % 2 ^ 64, bytes := (x.bytes + bytes) % 2 ^ 64,
                                     sawShort := x.sawShort || st = stShort, sawPartial := x.sawPartial || st = stPartial } s
      retireNormal n (setTask n { t with state := .retiring } s)

end Sys2Proof.Machine
end

