-- ==== Sys2Proof/Machine/Access.lean ====
section
/-! DEFINITION. How a register write reaches its page: who reaches which page, the mode limits, WRITE_GEN and LAST_WRITER,
and the shadow copies of staged fields (chapter 17, R332, R341, R354). -/

namespace Sys2Proof.Machine

/-! ### Reaching a page (R364, R365, R367, R377) -/

/-- The instance that a path's aperture shows (R367). -/
def aptSel (s : State) : Path → Nat
  | .i3c => rFld s Reg.INST_APT_SEL_I3C 10 0
  | _ => rFld s Reg.INST_APT_SEL_PCIE 10 0

/-- The port of a path. -/
def pathPort : Path → Option HostPort
  | .portA => some .a
  | .portB => some .b
  | .i3c => none

/-- Whether a function of a host port is in D3hot, in which it takes no memory request (Table 15.1; PRESUMED,
notes/assumptions/52.md). -/
def inD3 (s : State) (p : Path) (fn : Nat) : Bool :=
  match pathPort p with
  | some q => if fn = 0 then (kGet {} (port s q).fns 0).d3 else (fnCfg s fn).d3
  | none => false

/-- Whether a path, acting for function `fn` (0, or the instance of a VF), reaches a register address: function 0 the
register window, instance 0's own window and the instance the aperture shows; I3C the window and its aperture; a VF its
own window on its own port. -/
def reaches (s : State) (p : Path) (fn a : Nat) : Bool :=
  !inD3 s p fn &&
  let inWin := fun i => instBase i ≤ a && a < instBase i + 0x10000
  let inApt := fun i => i < numInst && instBase i ≤ a && a < instBase i + 0x6000
  if fn = 0 then
    match p with
    | .i3c => a < 0x1000000 || inApt (aptSel s p)
    | _ => a < 0x1000000 || inWin 0 || inApt (aptSel s p)
  else hasFunction s fn && pathPort p = some (vfOf s fn).1 && inWin fn

/-- PATH of a writer (Table 17.3). -/
def pathNum : Path → Nat
  | .portA => 1
  | .portB => 2
  | .i3c => 3

/-- Records a write on its page (R376). -/
def recordWrite (w : Writer) (pg : Nat) (s : State) : State :=
  rSet (pg + 0x38) (w.fn + 2048 * pathNum w.path) (bump (pg + 0x34) 1 s)

/-- Whether the mode lets a write of a path act on a page (R332, R341, R354). -/
def modeTakes (s : State) (p : Path) (k : PageKind) : Bool :=
  match s.dev.mode with
  | .reset => false
  | .bringup => k = .hif || k = .mgt
  | .lockdown => p = .i3c && (k = .dev || k = .pwr || k = .hlt || k = .mgt)
  | _ => true

/-- Counts a host write that BRINGUP ignores (R332). -/
def countEarly (p : Path) (s : State) : State :=
  match s.dev.mode, p with
  | .bringup, .portA => bump (Reg.HIF_EARLY_WR 0) 1 s
  | .bringup, .portB => bump (Reg.HIF_EARLY_WR 1) 1 s
  | _, _ => s

/-- A register write of a whole word (R368): where it reaches its page it is recorded, and where the mode takes it it acts. In RESET nothing is
answered, and a write to an unmapped offset is ignored and not recorded (R366). -/
def acceptWrite (w : Writer) (a : Nat) (eff : State → State) (s : State) : State :=
  if dead s || w.enables ≠ 15 || !reaches s w.path w.fn a then s else
  match pageOf a with
  | none => s
  | some (k, _, _) =>
    let s := recordWrite w (pageBase a) s
    if modeTakes s w.path k then eff s else countEarly w.path s

/-! ### Staged and plain fields (R6, R7, R372, R373) -/

/-- The masks of a register address. -/
def rowMasks (a : Nat) : RegRow :=
  match pageOf a with
  | none => ⟨0, 0, 0, 0, 0, 0, 0, 0, 0⟩
  | some (k, _, o) => (rowAt k o).getD ⟨0, 0, 0, 0, 0, 0, 0, 0, 0⟩

/-- The word with the bits of `mask` taken from `new` and the others from `old`. -/
def mixBits (mask old new : Nat) : Nat := old &&& (0xFFFFFFFF - mask) ||| new &&& mask

/-- The committed value of a word: awaiting its Seam, or in effect (R373). -/
def committedWord (s : State) (a : Nat) : Nat :=
  match kFind s.rf.await a with
  | some w => mixBits (rowMasks a).seam (rGet s a) w.toNat
  | none => rGet s a

/-- What a read of a word's RW and ST fields returns: the shadow copy of each staged field (R372). -/
def shadowWord (s : State) (a : Nat) : Nat :=
  match kFind s.rf.pend a with
  | some w => mixBits (rowMasks a).st (committedWord s a) w.toNat
  | none => committedWord s a

/-- Writes the staged fields of a word that `mask` selects to their shadow copy (R372). -/
def stageBits (a mask v : Nat) (s : State) : State :=
  { s with rf := { s.rf with pend := kSet s.rf.pend a (BitVec.ofNat 32 (mixBits mask (shadowWord s a) v)) } }

/-- Writes the RW fields of a word. -/
def rwBits (a v : Nat) (s : State) : State := rSet a (mixBits (rowMasks a).rw (rGet s a) v) s

/-- A write of a word with no effect of its own beyond its RW and ST fields. -/
def plainWrite (a v : Nat) (s : State) : State :=
  let m := rowMasks a
  let s := if m.rw = 0 then s else rwBits a v s
  if m.st = 0 then s else stageBits a m.st v s

/-- A read of SEAM_NUM_LO through a path: it returns bits [31:0] and latches bits [63:32] into SEAM_NUM_HI, or for I3C
into the target's own copy (R21, R341). -/
def readSeamNum (p : Path) (s : State) : State :=
  let hi := s.seam.num / 2 ^ 32
  let s := match p with
    | .i3c => { s with seam := { s.seam with numHiI3c := hi } }
    | _ => { s with seam := { s.seam with numHi := hi } }
  emit (.word (BitVec.ofNat 32 s.seam.num)) s

end Sys2Proof.Machine
end

