-- ==== Sys2Proof/Machine/Units.lean ====
section
/-! DEFINITION. What every unit shares: the copied command block and its fields, translation of its addresses, and the
result words (R186). -/

namespace Sys2Proof.Machine

/-! ### CRC32C (R51) -/

/-- One bit of CRC32C, reflected. -/
def crcBit (c : Nat) : Nat := if c % 2 = 1 then (c / 2) ^^^ 0x82F63B78 else c / 2

/-- One byte of CRC32C. -/
def crcByte (c : Nat) (b : Byte) : Nat :=
  crcBit (crcBit (crcBit (crcBit (crcBit (crcBit (crcBit (crcBit (c ^^^ b.toNat))))))))

/-- CRC32C of bytes: initial value and final XOR 0xFFFF_FFFF. -/
def crc32c (bs : List Byte) : Nat := (bs.foldl crcByte 0xFFFFFFFF) ^^^ 0xFFFFFFFF

/-- `n` bytes at an offset, and the number there. -/
def slice (bs : List Byte) (o n : Nat) : List Byte := (bs.drop o).take n
def numAt (bs : List Byte) (o n : Nat) : Nat := ofBytes (slice bs o n)

/-- Bytes with a stretch replaced. -/
def splice (bs : List Byte) (o : Nat) (new : List Byte) : List Byte :=
  bs.take o ++ new ++ bs.drop (o + new.length)

/-- Zero bytes up to a multiple of `k`. -/
def padTo (k : Nat) (bs : List Byte) : List Byte := bs ++ List.replicate ((k - bs.length % k) % k) 0

/-! ### A unit's accesses -/

/-- A field of a command's block. -/
def UnitCmd.word (c : UnitCmd) (o : Nat) : Nat := numAt c.bytes o 4
def UnitCmd.quad (c : UnitCmd) (o : Nat) : Nat := numAt c.bytes o 8

/-- Translates an address for a unit's command: the windows through the captured region registers, every other address
under the instance (R186). -/
def uTranslate (t : Nat) (c : UnitCmd) (va : Nat) (acc : Acc) (s : State) : State × Nat × Nat :=
  if 2 ^ 48 ≤ va then (s, stXlate, 0)
  else
    let via := fun (r : Option RegionReg) => match r with
      | some r => let q := regionPlace s false acc r (va % 2 ^ 36); (s, q.1, q.2)
      | none => (s, stXlate, 0)
    if va / 2 ^ 36 = 0xFFE then via c.win6
    else if va / 2 ^ 36 = 0xFFF then via c.win7
    else translate t c.inst va acc s

/-- Counts an access of stream input to a Panel memory or scratchpad (R183, PNL_STREAM_LINES). -/
def countStream (a : Nat) (s : State) : State :=
  match regionOf s a with
  | .panel n _ => bump (Reg.PNL_STREAM_LINES n) 1 s
  | .scratch q _ => bump (Reg.PNL_STREAM_LINES (q / 16)) 1 s
  | _ => s

/-- A unit as an initiator: its packets carry its command's instance and CLASS (R107, R126, R263). -/
def unitInit (s : State) (t : Nat) (c : UnitCmd) : Initiator := portInit s t c.inst c.cls

/-- Reads bytes for a unit, line by line. On a failure the bytes before the failing line come back, so that the failing
access lies at their end. -/
def uRead (t : Nat) (c : UnitCmd) (va n : Nat) (s : State) : State × Nat × List Byte :=
  (pieces va n).foldl (fun (r : State × Nat × List Byte) p =>
    if r.2.1 ≠ stOK then r else
    let (s, st, a) := uTranslate t c p.1 accRead r.1
    if st ≠ stOK then (s, st, r.2.2) else
    let (s, st, bs) := meshRead (unitInit s t c) a p.2 s
    (countStream a s, st, if st = stOK then r.2.2 ++ bs else r.2.2)) (s, stOK, [])

/-- Writes bytes for a unit, line by line, up to the first line that fails; the number written comes back. -/
def uWriteTo (t : Nat) (c : UnitCmd) (va : Nat) (bs : List Byte) (s : State) : State × Nat × Nat :=
  (pieces va bs.length).foldl (fun (r : State × Nat × Nat) p =>
    if r.2.1 ≠ stOK then r else
    let (s, st, a) := uTranslate t c p.1 accWrite r.1
    if st ≠ stOK then (s, st, r.2.2) else
    let (s, st) := meshWrite (unitInit s t c) a ((bs.drop (p.1 - va)).take p.2) s
    (countStream a s, st, if st = stOK then r.2.2 + p.2 else r.2.2)) (s, stOK, 0)

def uWrite (t : Nat) (c : UnitCmd) (va : Nat) (bs : List Byte) (s : State) : State × Nat :=
  let r := uWriteTo t c va bs s
  (r.1, r.2.1)

/-- Reads a number for a unit. -/
def uReadNat (t : Nat) (c : UnitCmd) (va n : Nat) (s : State) : State × Nat × Nat :=
  let (s, st, bs) := uRead t c va n s
  (s, st, ofBytes bs)

/-- Writes result words into a command's block, `DONE` in bit 31 of word 0x38 with them. -/
def uResult (t : Nat) (c : UnitCmd) (w30 w34 w38 w3C : Option Nat) (s : State) : State :=
  let put := fun (o : Nat) (w : Option Nat) (s : State) => match w with
    | some w => (meshWrite (unitInit s t c) (c.block + o) (toBytes 4 w) s).1
    | none => s
  put 0x38 (w38.map fun w => setFld w 31 31 1) (put 0x3C w3C (put 0x34 w34 (put 0x30 w30 (countStream c.block s))))

/-- Whether a command is still to be run: its job has not ended with a failing status (R98, R122, R129). -/
def cmdLive (_s : State) (c : UnitCmd) : Bool := !c.dead

end Sys2Proof.Machine
end

