-- ==== Sys2Proof/Machine/Column.lean ====
section
/-! DEFINITION. Column segments: the header, restart records, lanes, predictors, the decoder of R90 with its checks, and
the encoder of R99 (chapter 04). Values are 64-bit numbers (Table 4.2); a null carries a flag. -/

namespace Sys2Proof.Machine

/-! ### Value types (Table 4.2) -/

/-- Whether a type is ordered as signed numbers: I64, I32, I16, I8 and DEC64. -/
def signedType (ty : Nat) : Bool := ty = 1 || ty = 3 || ty = 5 || ty = 7 || ty = 8

/-- A 64-bit value as its type orders it. -/
def ordVal (ty v : Nat) : Int := if signedType ty then signed 64 v else ((v % 2 ^ 64 : Nat) : Int)

/-- The stored range of a type (Table 4.2, R94). -/
def typeRange (ty : Nat) : Int × Int :=
  match ty with
  | 0 => (0, 2 ^ 64 - 1)
  | 1 => (-2 ^ 63, 2 ^ 63 - 1)
  | 2 => (0, 2 ^ 32 - 1)
  | 3 => (-2 ^ 31, 2 ^ 31 - 1)
  | 4 => (0, 65535)
  | 5 => (-32768, 32767)
  | 6 => (0, 255)
  | 7 => (-128, 127)
  | 8 => (-(10 ^ 18 - 1), 10 ^ 18 - 1)
  | _ => (0, 2 ^ 32 - 1)

def inType (ty v : Nat) : Bool := (typeRange ty).1 ≤ ordVal ty v && ordVal ty v ≤ (typeRange ty).2

/-- The stored width of a type in bits (R112). -/
def typeBits (ty : Nat) : Nat :=
  match ty with
  | 2 => 32
  | 3 => 32
  | 9 => 32
  | 4 => 16
  | 5 => 16
  | 6 => 8
  | 7 => 8
  | _ => 64

/-- The least and the greatest of values in a type's order. -/
def minMax (ty : Nat) : List Nat → Option (Nat × Nat)
  | [] => none
  | v :: vs => match minMax ty vs with
    | none => some (v, v)
    | some (lo, hi) => some (if ordVal ty v ≤ ordVal ty lo then v else lo, if ordVal ty hi ≤ ordVal ty v then v else hi)

def joinRange (ty : Nat) : Option (Nat × Nat) → Option (Nat × Nat) → Option (Nat × Nat)
  | none, r => r
  | r, none => r
  | some (a, b), some (c, d) => some (if ordVal ty a ≤ ordVal ty c then a else c, if ordVal ty d ≤ ordVal ty b then b else d)

/-- The number of bits of a number. -/
def bitLen (n : Nat) : Nat := if n = 0 then 0 else Nat.log2 n + 1

/-- Sums and differences mod 2⁶⁴. -/
def add64 (a b : Nat) : Nat := (a + b) % 2 ^ 64
def sub64 (a b : Nat) : Nat := (a + 2 ^ 64 - b % 2 ^ 64) % 2 ^ 64

/-- zigzag and its inverse, on 64-bit numbers. -/
def zigzag (d : Nat) : Nat := if d % 2 ^ 64 < 2 ^ 63 then 2 * (d % 2 ^ 64) else 2 * (2 ^ 64 - d % 2 ^ 64) - 1
def unzigzag (r : Nat) : Nat := if r % 2 = 0 then r / 2 else (2 ^ 64 - (r / 2 + 1)) % 2 ^ 64

/-! ### The segment header (Table 4.1) -/

/-- The header's fields that decoders use. -/
structure SegHdr where
  type     : Nat
  check    : Nat
  hist     : Bool
  nullable : Bool
  lhfmt    : Bool
  isOpen   : Bool
  length   : Nat
  values   : Nat
  blocks   : Nat
  scale    : Nat
  nulls    : Nat
  min      : Nat
  max      : Nat
  dict     : Nat
  dirOff   : Nat
  tag      : Nat
  deriving DecidableEq, Repr

/-- HCRC: the CRC of the header with HCRC and STATE_TAG taken as zero. -/
def hcrcOf (bs : List Byte) : Nat := crc32c (splice (splice (bs.take 64) 0x34 (toBytes 4 0)) 0x3C (toBytes 4 0))

/-- A header's fields, checks not made. -/
def hdrFields (bs : List Byte) : SegHdr :=
  let w := numAt bs 4 4
  { type := fld w 19 16, check := fld w 21 20, hist := bit w 22, nullable := bit w 23, lhfmt := bit w 24, isOpen := bit w 25,
    length := numAt bs 8 4, values := numAt bs 0x0C 4, blocks := fld (numAt bs 0x10 4) 12 0,
    scale := fld (numAt bs 0x10 4) 23 16, nulls := numAt bs 0x14 4, min := numAt bs 0x18 8, max := numAt bs 0x20 8,
    dict := numAt bs 0x28 6, dirOff := numAt bs 0x30 4, tag := numAt bs 0x34 4 }

/-- The structural header checks of R86: MAGIC, MAJOR, HCRC and TYPE. -/
def hdrGood (bs : List Byte) : Bool :=
  numAt bs 0 4 = 0x4D504347 && fld (numAt bs 4 4) 15 8 = 1 && numAt bs 0x3C 4 = hcrcOf bs && fld (numAt bs 4 4) 19 16 ≤ 9

/-- The 64 bytes of a header. -/
def hdrBytes (h : SegHdr) : List Byte :=
  let bs := toBytes 4 0x4D504347
    ++ toBytes 4 (2 ^ 8 + 2 ^ 16 * h.type + 2 ^ 20 * h.check + 2 ^ 22 * b2n h.hist + 2 ^ 23 * b2n h.nullable
        + 2 ^ 24 * b2n h.lhfmt + 2 ^ 25 * b2n h.isOpen)
    ++ toBytes 4 h.length ++ toBytes 4 h.values ++ toBytes 4 (h.blocks + 2 ^ 16 * h.scale) ++ toBytes 4 h.nulls
    ++ toBytes 8 h.min ++ toBytes 8 h.max ++ toBytes 8 (h.dict % 2 ^ 48) ++ toBytes 4 h.dirOff ++ toBytes 4 h.tag
    ++ toBytes 8 0
  splice bs 0x3C (toBytes 4 (hcrcOf bs))

/-! ### Blocks (R79 to R82) -/

/-- A lane header (R81), with the place of the lane's payload from the start of the payloads. -/
structure LaneHdr where
  width : Nat
  nexc  : Nat
  nulls : Nat
  lmin  : Nat
  lmax  : Nat
  off   : Nat
  deriving DecidableEq, Repr

/-- A block's restart record, template, lane directory and null bitmap. -/
structure BlockHead where
  pred  : Nat
  k     : Nat
  indep : Bool
  hasNulls : Bool
  count : Nat
  mmw   : Nat
  bref  : Nat
  aux   : Nat
  bytes : Nat
  vcrc  : Nat
  link  : Nat
  tmpl  : List Nat
  lanes : List LaneHdr
  nullMap : List Byte
  /-- Offset of the payloads from the block's start. -/
  pay   : Nat
  deriving DecidableEq, Repr

/-- The restart record's own fields; none where SYNC, PRED, K, COUNT or MMW fails R86. -/
def restart (bs : List Byte) : Option BlockHead :=
  let w := numAt bs 0 4
  let v := numAt bs 4 4
  let h : BlockHead :=
    { pred := fld w 18 16, k := fld w 23 19, indep := bit w 24, hasNulls := bit w 25, count := fld v 12 0, mmw := fld v 22 16,
      bref := numAt bs 8 8, aux := numAt bs 0x10 8, bytes := numAt bs 0x18 4, vcrc := numAt bs 0x1C 4, link := numAt bs 0x20 4,
      tmpl := [], lanes := [], nullMap := [], pay := 0 }
  if fld w 15 0 = 0xB10C && h.pred ≤ 3 && (if h.pred = 2 then 2 ≤ h.k && h.k ≤ 16 else h.k = 0)
      && 1 ≤ h.count && h.count ≤ 4096 && h.mmw ≤ 64 then some h else none

/-- The lanes of a block, the size of a lane header, and the bytes from the restart record to the payloads. -/
def numLanes (h : BlockHead) : Nat := ceilDiv h.count 32
def laneHdrSize (lhfmt : Bool) (mmw : Nat) : Nat := if lhfmt then 2 else 2 + ceilDiv mmw 4
def tmplLen (h : BlockHead) : Nat := if h.pred = 2 then h.k * 8 else 0
def dirLen (lhfmt : Bool) (h : BlockHead) : Nat := ceilDiv (numLanes h * laneHdrSize lhfmt h.mmw) 8 * 8
def nullLen (h : BlockHead) : Nat := if h.hasNulls then ceilDiv h.count 64 * 8 else 0
def headLen (lhfmt : Bool) (h : BlockHead) : Nat := 40 + tmplLen h + dirLen lhfmt h + nullLen h

/-- The lane directory from its bytes (R81). -/
def laneDir (lhfmt : Bool) (mmw n : Nat) (bs : List Byte) : List LaneHdr :=
  let sz := laneHdrSize lhfmt mmw
  ((List.range n).foldl (fun (r : Nat × List LaneHdr) j =>
    let w := numAt bs (j * sz) 2
    let f := if lhfmt then 0 else numAt bs (j * sz + 2) (sz - 2)
    let l : LaneHdr := ⟨fld w 6 0, fld w 9 7, fld w 11 10, f % 2 ^ mmw, f / 2 ^ mmw % 2 ^ mmw, r.1⟩
    (r.1 + 4 * l.width + 9 * l.nexc, r.2 ++ [l])) (0, [])).2

/-- Bytes of the payloads of a lane directory. -/
def payLen (ls : List LaneHdr) : Nat := ls.foldl (fun n l => n + 4 * l.width + 9 * l.nexc) 0

/-- The lane header checks of R86. -/
def laneGood (lhfmt : Bool) (l : LaneHdr) : Bool := l.width ≤ 64 && l.nexc ≤ 4 && l.nulls ≤ 2 && (lhfmt || l.lmin ≤ l.lmax)

/-- A block's head from its restart record and the bytes that follow it up to the payloads; none where a check of R86
fails. -/
def blockHead (lhfmt : Bool) (h : BlockHead) (bs : List Byte) : Option BlockHead :=
  let ls := laneDir lhfmt h.mmw (numLanes h) (bs.drop (tmplLen h))
  let h := { h with tmpl := (List.range (if h.pred = 2 then h.k else 0)).map fun t => numAt bs (8 * t) 8, lanes := ls,
                    nullMap := slice bs (tmplLen h + dirLen lhfmt h) (nullLen h), pay := headLen lhfmt h }
  if ls.all (laneGood lhfmt) && h.bytes = ceilDiv (h.pay + payLen ls) 8 * 8 then some h else none

/-- Whether value `q` of a block is null. -/
def isNull (h : BlockHead) (q : Nat) : Bool := h.hasNulls && bit ((h.nullMap.getD (q / 8) 0).toNat) (q % 8)

/-! ### Decoding a lane (R82, R83, R90) -/

/-- The value a block's predictor expects for value i of a lane; `xs` are the lane's earlier values, latest first
(Table 4.4). -/
def predict (h : BlockHead) (seed : Nat) (xs : List Nat) (j i : Nat) : Nat :=
  match h.pred with
  | 0 => if i = 0 then seed else xs.getD 0 0
  | 1 => if i = 0 then seed else if i = 1 then add64 (xs.getD 0 0) h.aux
         else sub64 (2 * xs.getD 0 0) (xs.getD 1 0)
  | 2 => if i < h.k then h.tmpl.getD ((32 * j + i) % h.k) 0 else xs.getD (h.k - 1) 0
  | _ => h.aux

/-- SEED of a lane: LMIN with LHFMT 0, BREF with LHFMT 1. -/
def seedOf (lhfmt : Bool) (h : BlockHead) (l : LaneHdr) : Nat := if lhfmt then h.bref else add64 h.bref l.lmin

/-- The exceptions of a payload: position and residue. -/
def exceptions (l : LaneHdr) (bs : List Byte) : List (Nat × Nat) :=
  (List.range l.nexc).map fun e => (numAt bs (4 * l.width + 9 * e) 1 % 32, numAt bs (4 * l.width + 9 * e + 1) 8)

/-- Positions ascending and below the lane's value count. -/
def excGood (n : Nat) : List (Nat × Nat) → Bool
  | [] => true
  | [(p, _)] => p < n
  | (p, _) :: (q, r) :: es => p < q && excGood n ((q, r) :: es)

/-- The range checks of R86 on a decoded non-null value. -/
def valueGood (ty : Nat) (lhfmt : Bool) (h : BlockHead) (l : LaneHdr) (x : Nat) : Bool :=
  let o := sub64 x h.bref
  inType ty x && (if lhfmt then o < 2 ^ h.mmw else l.lmin ≤ o && o ≤ l.lmax)

/-- The values of a lane with their null flags, in order; none where a check fails. -/
def decodeLane (ty : Nat) (lhfmt : Bool) (h : BlockHead) (j : Nat) (bs : List Byte) : Option (List (Nat × Bool)) :=
  let l := h.lanes.getD j ⟨0, 0, 0, 0, 0, 0⟩
  let n := min 32 (h.count - 32 * j)
  let es := exceptions l bs
  let area := ofBytes (bs.take (4 * l.width))
  let xs := (List.range n).foldl (fun (xs : List Nat) i =>
    let r := ((es.find? fun e => e.1 = i).map (·.2)).getD (area / 2 ^ (i * l.width) % 2 ^ l.width)
    add64 (predict h (seedOf lhfmt h l) xs j i) (unzigzag r) :: xs) []
  let out := (List.range n).map fun i => (xs.getD (n - 1 - i) 0, isNull h (32 * j + i))
  if excGood n es && out.all fun x => x.2 || valueGood ty lhfmt h l x.1 then some out else none

/-- VCRC over values: 8 bytes each, zero bytes for a null (R89). -/
def vcrcOf (vs : List (Nat × Bool)) : Nat := crc32c (vs.flatMap fun v => toBytes 8 (if v.2 then 0 else v.1))

/-- Whether the state that earlier values give a carried block (latest first) agrees with the block's own (R84, R85). -/
def historyAgrees (h : BlockHead) (prior : List Nat) : Bool :=
  prior.getD 0 0 % 2 ^ 32 = h.link
    && (h.pred ≠ 1 || sub64 (prior.getD 0 0) (prior.getD 1 0) = h.aux)
    && (h.pred ≠ 2 || (List.range h.k).all fun t => prior.getD (h.k - 1 - t) 0 = h.tmpl.getD t 0)

/-- A whole block from its bytes: its head and values. `prior` are the values before it in the same pass, latest first.
None stands for CODEC_CHECK_FAIL (R85 to R90). -/
def decodeBlock (hd : SegHdr) (prior : Option (List Nat)) (bs : List Byte) : Option (BlockHead × List (Nat × Bool)) :=
  match restart bs with
  | none => none
  | some h0 =>
    match blockHead hd.lhfmt h0 (bs.drop 40) with
    | none => none
    | some h =>
      let lanes := (List.range (numLanes h)).map fun j =>
        let l := h.lanes.getD j ⟨0, 0, 0, 0, 0, 0⟩
        decodeLane hd.type hd.lhfmt h j (slice bs (h.pay + l.off) (4 * l.width + 9 * l.nexc))
      if lanes.any (·.isNone) then none
      else
        let vs := lanes.flatMap fun l => l.getD []
        let mismatch := !h.indep && (match prior with
          | some p => !historyAgrees h p
          | none => false)
        if 2 ≤ hd.check then if vcrcOf vs = h.vcrc then some (h, vs) else none
        else if mismatch then none else some (h, vs)

/-! ### The encoder (R84, R99) -/

/-- The values of a block to encode, and what it needs to know of the segment before it. -/
structure EncIn where
  type    : Nat
  lhfmt   : Bool
  carried : Bool
  carry   : Bool
  /-- Values before the block, latest first. -/
  prior   : List Nat
  vals    : List (Nat × Bool)
  deriving DecidableEq, Repr

/-- Non-null values. -/
def nonNulls (vs : List (Nat × Bool)) : List Nat := (vs.filter fun v => !v.2).map (·.1)

/-- A residue's exceptions at width W: those that do not fit. -/
def misfits (w : Nat) (rs : List Nat) : List (Nat × Nat) :=
  ((List.zip (List.range rs.length) rs).filter fun p => 2 ^ w ≤ p.2)

/-- The width R99 picks for a lane's residues: fewest payload bytes with at most 4 exceptions, ties to the larger W. -/
def laneWidth (rs : List Nat) : Nat :=
  (((List.range 65).filter fun w => (misfits w rs).length ≤ 4).foldl (fun (b : Option (Nat × Nat)) w =>
    let n := 4 * w + 9 * (misfits w rs).length
    match b with
    | none => some (w, n)
    | some (_, m) => if n ≤ m then some (w, n) else b) none).elim 64 (·.1)

/-- The payload bytes of a lane's residues at width W. -/
def lanePayload (w : Nat) (rs : List Nat) : List Byte :=
  let area := (List.zip (List.range rs.length) rs).foldl
    (fun a p => if p.2 < 2 ^ w then a + p.2 * 2 ^ (p.1 * w) else a) 0
  toBytes (4 * w) area ++ (misfits w rs).flatMap fun p => toBytes 1 p.1 ++ toBytes 8 p.2

/-- An encoded lane: its header and payload bytes, and its decoded values (a null's value is its prediction), in order. -/
def encLane (e : EncIn) (h : BlockHead) (j : Nat) : List Byte × List Byte × List Nat :=
  let vs := (e.vals.drop (32 * j)).take 32
  let r := minMax e.type (nonNulls vs)
  let lmin := (r.map fun q => sub64 q.1 h.bref).getD 0
  let lmax := (r.map fun q => sub64 q.2 h.bref).getD 0
  let l : LaneHdr := ⟨0, 0, 0, lmin, lmax, 0⟩
  let seed := seedOf e.lhfmt h l
  let (xs, rs) := (List.zip (List.range vs.length) vs).foldl (fun (q : List Nat × List Nat) v =>
    let p := predict h seed q.1 j v.1
    let x := if v.2.2 then p else v.2.1
    (x :: q.1, q.2 ++ [zigzag (sub64 x p)])) ([], [])
  let w := laneWidth rs
  let nl := if vs.all (·.2) then 2 else if vs.any (·.2) then 1 else 0
  let f := if e.lhfmt then [] else toBytes (ceilDiv h.mmw 4) (lmin + lmax * 2 ^ h.mmw)
  (toBytes 2 (w + 2 ^ 7 * (misfits w rs).length + 2 ^ 10 * nl) ++ f, lanePayload w rs, xs.reverse)

/-- A block encoded with one predictor: its bytes and decoded values. A null first value is its prediction, SEED (R83);
`fv` stands where a null leaves the block's own state open: its value is then the prediction that the state itself gives
(R84). -/
def encWith (e : EncIn) (fv pred k : Nat) : List Byte × List Nat :=
  let nn := nonNulls e.vals
  let r := minMax e.type nn
  let bref := (r.map (·.1)).getD 0
  let mmw := (r.map fun q => bitLen (sub64 q.2 q.1)).getD 0
  let own := fun (t : Nat) => match e.vals[t]? with
    | some (x, false) => x
    | some (_, true) => fv % 2 ^ 64
    | none => 0
  let seed := if e.lhfmt then bref else ((minMax e.type (nonNulls (e.vals.take 32))).map (·.1)).getD bref
  let slope := if e.carried then sub64 (e.prior.getD 0 0) (e.prior.getD 1 0)
    else match e.vals with
      | [_] => 0
      | (_, true) :: (y, false) :: _ => sub64 y seed
      | _ => sub64 (own 1) (own 0)
  let tmpl := (List.range (if pred = 2 then k else 0)).map fun t => if e.carried then e.prior.getD (k - 1 - t) 0 else own t
  let aux := if pred = 1 then slope else if pred = 3 then nn.getD 0 0 else 0
  let hasNulls := e.vals.any (·.2)
  let h : BlockHead :=
    { pred := pred, k := if pred = 2 then k else 0, indep := !e.carried, hasNulls := hasNulls, count := e.vals.length, mmw := mmw,
      bref := bref, aux := aux, bytes := 0, vcrc := 0, link := if e.carried then e.prior.getD 0 0 % 2 ^ 32 else 0,
      tmpl := tmpl, lanes := [], nullMap := [], pay := 0 }
  let lanes := (List.range (numLanes h)).map (encLane e h)
  let nm := if hasNulls then
      toBytes (nullLen h) ((List.zip (List.range e.vals.length) e.vals).foldl (fun a p => a + b2n p.2.2 * 2 ^ p.1) 0)
    else []
  let body := tmpl.flatMap (toBytes 8) ++ padTo 8 (lanes.flatMap (·.1)) ++ nm ++ lanes.flatMap (·.2.1)
  let bytes := ceilDiv (40 + body.length) 8 * 8
  let rec_ := toBytes 4 (0xB10C + 2 ^ 16 * pred + 2 ^ 19 * h.k + 2 ^ 24 * b2n h.indep + 2 ^ 25 * b2n hasNulls)
    ++ toBytes 4 (h.count + 2 ^ 16 * mmw) ++ toBytes 8 bref ++ toBytes 8 aux ++ toBytes 4 bytes
    ++ toBytes 4 (if e.carry then vcrcOf e.vals else 0) ++ toBytes 4 h.link ++ toBytes 4 0
  (padTo 8 (rec_ ++ body), lanes.flatMap (·.2.2))

/-- The predictors R99 tries, in the order that breaks ties: PREV, DOD, STRIDE with K 2 to 16, CONST. -/
def tries : List (Nat × Nat) := [(0, 0), (1, 0)] ++ ((List.range 15).map fun i => (2, i + 2)) ++ [(3, 0)]

/-- The block R99 picks: its bytes, its decoded values, and its PRED. -/
def encodeBlock (e : EncIn) (fv : Nat) : List Byte × List Nat × Nat :=
  (tries.foldl (fun (b : Option (List Byte × List Nat × Nat)) t =>
    let r := encWith e fv t.1 t.2
    match b with
    | none => some (r.1, r.2, t.1)
    | some (m, _, _) => if r.1.length < m.length then some (r.1, r.2, t.1) else b) none).getD ([], [], 0)

end Sys2Proof.Machine
end

