-- ==== Sys2Proof/Machine/Pack.lean ====
section
/-! DEFINITION. The Pack Units: contexts, the commands OPEN, APPEND, CLOSE, SAVE, RESTORE and RECOVER, and abandonment
(R91 to R101). A unit runs the front command of its queue when the event that names its operation comes. -/

namespace Sys2Proof.Machine

/-! ### Units and contexts -/

def packOf (s : State) (u : Nat) : PackUnit := kGet {} s.packs u
def setPack (u : Nat) (x : PackUnit) (s : State) : State := { s with packs := kSet s.packs u x }
def packCtxOf (s : State) (u c : Nat) : Option PackCtx := kFind (packOf s u).ctx c
def setPackCtx (u c : Nat) (x : PackCtx) (s : State) : State := setPack u { packOf s u with ctx := kSet (packOf s u).ctx c x } s
def freePackCtx (u c : Nat) (s : State) : State := setPack u { packOf s u with ctx := kDel (packOf s u).ctx c } s

/-- A Pack Unit's port: its Panel's TLB, and index 16 or 17 at the Panel's stop (Table 12.6). -/
def packTlb (u : Nat) : Nat := viaPort (tlbPanel (u / 2)) (16 + u % 2)

/-- A command's OP and CTX (Table 4.7). -/
def packOp (c : UnitCmd) : Nat := fld (c.word 0) 3 0
def packCtx (c : UnitCmd) : Nat := fld (c.word 0) 6 4

/-- The context a command names, if it is bound to the command's task (R92). -/
def ownCtx (s : State) (u : Nat) (c : UnitCmd) : Option PackCtx :=
  match packCtxOf s u (packCtx c) with
  | some x => if x.job = c.job && x.serial = c.serial && x.stage = c.stage && x.morsel = c.morsel then some x else none
  | none => none

/-- The front command ends: result words are written, a CODEC_CHECK_FAIL is counted, and the command leaves the queue.
An error code of the page, with the segment's address, goes with it where it is not 0. -/
def packEnd (u : Nat) (c : UnitCmd) (seg st outcome spill consumed err : Nat) (s : State) : State :=
  let pg := Reg.PACK_PAGE u
  let s := if err = 0 then s else recErr pg err seg s
  let s := if st = stCodec then pulse pg 0 (bump (Reg.PACK_CHECK_FAIL u) 1 s) else s
  let s := if outcome = 2 then bump (Reg.PACK_SPILL u) 1 s else s
  let s := setPack u { packOf s u with queue := (packOf s u).queue.drop 1, taken := 0 } s
  uResult (packTlb u) c none (some spill) (some (st + 256 * outcome)) (some consumed) s

/-- Runs the front command of a unit if it is a live command of one operation; a command whose OP is invalid ends with
DESC_INVALID at any of the unit's events, and one whose block did not copy with the copy's status (R185). -/
def packRun (u op : Nat) (f : UnitCmd → State → State) (s : State) : State :=
  match (packOf s u).queue with
  | [] => s
  | c :: _ =>
    if !working s || !pageEn s (Reg.PACK_PAGE u) || !cmdLive s c then s
    else if c.copied ≠ stOK then packEnd u c c.block c.copied 0 0 0 0 s
    else if packOp c = 0 || 6 < packOp c then packEnd u c (c.quad 8) stDescInvalid 0 0 0 0 s
    else if packOp c = op then f c s else s

/-! ### Headers and blocks in memory -/

/-- The header a context's segment has now; `dirOff` is 0 while it is open. -/
def ctxHdr (x : PackCtx) (isOpen : Bool) (length dirOff tag : Nat) : SegHdr :=
  { type := x.type, check := x.check, hist := x.hist, nullable := x.nullable, lhfmt := x.lhfmt, isOpen := isOpen,
    length := length, values := x.values, blocks := x.blocks.length, scale := x.scale, nulls := x.nulls,
    min := (x.range.map (·.1)).getD 0, max := (x.range.map (·.2)).getD 0, dict := x.dict, dirOff := dirOff, tag := tag }

/-- Bytes a closed segment would take with a directory of `n` blocks after `len` bytes (R95). -/
def withDir (len n : Nat) : Nat := ceilDiv (len + 4 * n) 8 * 8

/-- Writes the directory and the closed header (R78); STATE_TAG is even at rest (R97). -/
def closeSeg (u : Nat) (c : UnitCmd) (x : PackCtx) (s : State) : State × Nat :=
  let dir := padTo 8 (x.blocks.flatMap (toBytes 4))
  let (s, st) := uWrite (packTlb u) c (x.seg + x.length) dir s
  if st ≠ stOK then (s, st)
  else uWrite (packTlb u) c x.seg (hdrBytes (ctxHdr x false (x.length + dir.length) x.length ((x.tag + x.tag % 2) % 2 ^ 32))) s

/-- Whether the unit self-checks a context's blocks (R100). -/
def selfChecks (s : State) (u : Nat) (x : PackCtx) : Bool := x.check = 1 || x.check = 3 || rBit s (Reg.PACK_CTRL u) 1

/-- Encodes a context's pending values as one block (R99, R100): the bytes, the values for later prediction and the PRED;
none where the self-check fails twice. -/
def packBlock (u : Nat) (x : PackCtx) (s : State) : State × Option (List Byte × List Nat × Nat) :=
  let carried := !x.blocks.isEmpty && 16 ≤ x.prior.length && !x.hist && !rBit s (Reg.PACK_CTRL u) 2
  let (fv, s) := if x.pend.any (·.2) then takeFree s else (0, s)
  let e : EncIn := ⟨x.type, x.lhfmt, carried, 2 ≤ x.check, x.prior, x.pend⟩
  let b := encodeBlock e fv
  let good : List Byte → Bool := fun b => match decodeBlock (ctxHdr x true x.length 0 x.tag) (some x.prior) b with
    | some (_, vs) => vs.map (·.2) = x.pend.map (·.2) && (List.zip vs x.pend).all fun p => p.1.2 || p.1.1 = p.2.1
    | none => false
  if !selfChecks s u x || good b.1 then (s, some b)
  else if carried then
    let s := bump (Reg.PACK_SELF_RETRY u) 1 s
    let b := encodeBlock { e with carried := false } fv
    (s, if good b.1 then some b else none)
  else (s, none)

/-- Counts a committed block (Table 4.12). -/
def countBlock (u pred n : Nat) (s : State) : State :=
  let s := bump (Reg.PACK_VALUES u) n (bump (Reg.PACK_BLOCKS u) 1 s)
  if pred = 0 then bumpSat (Reg.PACK_PRED_A u) 15 0 1 s
  else if pred = 1 then bumpSat (Reg.PACK_PRED_A u) 31 16 1 s
  else if pred = 2 then bumpSat (Reg.PACK_PRED_B u) 15 0 1 s
  else bumpSat (Reg.PACK_PRED_B u) 31 16 1 s

/-- What committing a context's pending values as a block came to. -/
inductive Commit where
  | done (x : PackCtx)
  | full
  | failed (st err : Nat)
  deriving DecidableEq, Repr

/-- Commits the pending values as one block: its bytes first, then the header in one write (R77, R95). -/
def commitBlock (u : Nat) (c : UnitCmd) (x : PackCtx) (s : State) : State × Commit :=
  match packBlock u x s with
  | (s, none) => (s, .failed stCodec 1)
  | (s, some (bs, vals, pred)) =>
    if 4096 ≤ x.blocks.length || x.cap < withDir (x.length + bs.length) (x.blocks.length + 1) then (s, .full)
    else
      let y := { x with length := x.length + bs.length, values := x.values + x.pend.length,
                        nulls := x.nulls + (x.pend.filter (·.2)).length,
                        range := joinRange x.type x.range (minMax x.type (nonNulls x.pend)),
                        blocks := x.blocks ++ [x.length], prior := (vals.reverse ++ x.prior).take 16, pend := [] }
      let (s, st) := uWrite (packTlb u) c (x.seg + x.length) bs s
      if st ≠ stOK then (s, .failed st 0)
      else
        let (s, st) := uWrite (packTlb u) c x.seg (hdrBytes (ctxHdr y true y.length 0 y.tag)) s
        if st ≠ stOK then (s, .failed st 0)
        else (setPackCtx u (packCtx c) y (countBlock u pred x.pend.length s), .done y)

/-- Writes pending values to a staging area (Table 4.10). -/
def stageOut (u : Nat) (c : UnitCmd) (va : Nat) (vs : List (Nat × Bool)) (s : State) : State × Nat :=
  let vals := vs.flatMap fun v => toBytes 8 v.1
  let map_ := toBytes 512 ((List.zip (List.range vs.length) vs).foldl (fun a p => a + b2n p.2.2 * 2 ^ p.1) 0)
  uWrite (packTlb u) c va (vals ++ List.replicate (0x8000 - vals.length) 0 ++ map_) s

/-! ### OPEN, CLOSE and APPEND (R93 to R96) -/

def packOpenX (u : Nat) (c : UnitCmd) (s : State) : State :=
  let w := c.word 0
  let seg := c.quad 8
  let fail := fun st => packEnd u c seg st 0 0 0 0 s
  let ty := fld w 11 8
  if 8 ≤ (packOf s u).ctx.length then fail stBusy
  else if (packCtxOf s u (packCtx c)).isSome || 9 < ty || seg % 64 ≠ 0 || 2 ^ 48 ≤ seg || c.word 0x30 < 4096 || 1048576 < c.word 0x30
      || (if ty = 8 then 18 < fld w 23 16 else fld w 23 16 ≠ 0)
      || (fld w 13 12 = 0 && !rBit s (Reg.PACK_CTRL u) 0) then fail stDescInvalid
  else
    let x : PackCtx :=
      { task := c.task, inst := c.inst, job := c.job, serial := c.serial, stage := c.stage, morsel := c.morsel, seg := seg, type := ty, check := fld w 13 12,
        hist := bit w 14, nullable := bit w 15, lhfmt := pageCompat s (Reg.PACK_PAGE u), scale := fld w 23 16,
        dict := if ty = 9 then c.quad 0x10 % 2 ^ 48 else 0, cap := c.word 0x30, length := 64, values := 0, nulls := 0, tag := 1,
        range := none, blocks := [], prior := [], pend := [] }
    let (s, st) := uWrite (packTlb u) c seg (hdrBytes (ctxHdr x true 64 0 1)) s
    if st ≠ stOK then packEnd u c seg st 0 0 0 0 s
    else packEnd u c seg stOK 0 0 0 0 (setPackCtx u (packCtx c) x s)

def execPackOpen (unit : Nat) (s : State) : Host.Outcome State Fault Refusal := .next (packRun unit 1 (packOpenX unit) s)

def packCloseX (u : Nat) (c : UnitCmd) (s : State) : State :=
  match ownCtx s u c with
  | none => packEnd u c (c.quad 8) stDescInvalid 0 0 0 0 s
  | some x =>
    let finish := fun (x : PackCtx) (s : State) =>
      let (s, st) := closeSeg u c x s
      packEnd u c x.seg st 0 0 0 0 (if st = stOK then freePackCtx u (packCtx c) s else s)
    if x.pend = [] then finish x s
    else match commitBlock u c x s with
      | (s, .done y) => finish y s
      | (s, .failed st e) => packEnd u c x.seg st 0 0 0 e s
      | (s, .full) =>
        let (s, st) := stageOut u c (c.quad 0x28) x.pend s
        if st ≠ stOK then packEnd u c x.seg st 0 0 0 0 s
        else
          let (s, st) := closeSeg u c x s
          if st ≠ stOK then packEnd u c x.seg st 0 0 0 0 s
          else packEnd u c x.seg stOK 2 x.pend.length 0 0 (freePackCtx u (packCtx c) s)

def execPackClose (unit : Nat) (s : State) : Host.Outcome State Fault Refusal := .next (packRun unit 3 (packCloseX unit) s)

/-- How an APPEND goes on after a step. -/
inductive AppendStep where
  /-- Go on with `taken` values taken. -/
  | go (taken : Nat)
  /-- The stream has no whole value now. -/
  | wait (taken : Nat)
  | finished
  deriving DecidableEq, Repr

/-- Where an APPEND's next values lie: from a buffer, or from a stream queue with its fill (R274, R275). -/
structure Source where
  queue : Bool
  addr  : Nat
  data  : Nat
  size  : Nat
  rd    : Nat
  fill  : Nat
  ended : Bool
  deriving DecidableEq, Repr

/-- Reads the source of an APPEND: for a stream, its queue header. -/
def appendSource (u : Nat) (c : UnitCmd) (s : State) : State × Nat × Source :=
  let a := c.quad 0x10
  if !bit (c.word 0) 7 then (s, stOK, ⟨false, a, 0, 0, 0, 0, false⟩)
  else
    let (s, st, bs) := uRead (packTlb u) c a 64 s
    let lg := fld (numAt bs 4 4) 4 0
    if st ≠ stOK then (s, st, ⟨true, a, 0, 0, 0, 0, false⟩)
    else if numAt bs 0 4 ≠ 0x53515545 || lg < 12 || 28 < lg || a % 64 ≠ 0 then (s, stDescInvalid, ⟨true, a, 0, 0, 0, 0, false⟩)
    else
      let wr := numAt bs 0x10 8
      let rd := numAt bs 0x18 8
      let en := numAt bs 0x20 8
      (s, stOK, ⟨true, a, numAt bs 8 8, 2 ^ lg, rd, wr - rd, bit en 63 && en % 2 ^ 63 = wr⟩)

/-- Reads `n` values from position `k` of a source. -/
def sourceRead (u : Nat) (c : UnitCmd) (q : Source) (k n : Nat) (s : State) : State × Nat × List Byte :=
  if !q.queue then uRead (packTlb u) c (q.addr + 8 * k) (8 * n) s
  else
    let o := q.rd % q.size
    let first := min (8 * n) (q.size - o)
    let (s, st, a) := uRead (packTlb u) c (q.data + o) first s
    if st ≠ stOK || first = 8 * n then (s, st, a)
    else
      let (s, st, b) := uRead (packTlb u) c q.data (8 * n - first) s
      (s, st, a ++ b)

/-- Null flags of source values from position `k`, from the bitmap at NULL_ADDR; none without a bitmap or where the
segment takes no nulls. -/
def sourceNulls (u : Nat) (c : UnitCmd) (x : PackCtx) (k n : Nat) (s : State) : State × Nat × List Bool :=
  let a := c.quad 0x18
  if a = 0 || !x.nullable then (s, stOK, List.replicate n false)
  else
    let (s, st, bs) := uRead (packTlb u) c (a + k / 8) ((k + n - 1) / 8 - k / 8 + 1) s
    (s, st, (List.range n).map fun i => bit ((bs.getD ((k + i) / 8 - k / 8) 0).toNat) ((k + i) % 8))

/-- Moves a stream source's RD past `n` values. -/
def sourceTake (u : Nat) (c : UnitCmd) (q : Source) (n : Nat) (s : State) : State × Nat :=
  if q.queue then uWrite (packTlb u) c (q.addr + 0x18) (toBytes 8 (q.rd + 8 * n)) s else (s, stOK)

/-- One step of an APPEND: fill the pending block from the source, and commit it when 4,096 values are pending. A step
whose commit fails takes no values: the context stays as it was before the step. -/
def appendStep (u : Nat) (c : UnitCmd) (k : Nat) (s : State) : State × AppendStep :=
  match ownCtx s u c with
  | none => (packEnd u c (c.quad 8) stDescInvalid 0 0 0 0 s, .finished)
  | some x =>
    let count := c.word 4
    let (s, st, q) := appendSource u c s
    if st ≠ stOK then (packEnd u c x.seg st 0 0 k 0 s, .finished) else
    let n := min (min (4096 - x.pend.length) (count - k)) (if q.queue then q.fill / 8 else 4096)
    if count ≤ k then (packEnd u c x.seg stOK 0 0 k 0 s, .finished)
    else if n = 0 && q.ended then (packEnd u c x.seg stOK 1 0 k 0 s, .finished)
    else if n = 0 then (s, .wait k)
    else
      let (s, st, bs) := sourceRead u c q k n s
      if st ≠ stOK then (packEnd u c x.seg st 0 0 k 0 s, .finished) else
      let (s, st, nulls) := sourceNulls u c x k n s
      if st ≠ stOK then (packEnd u c x.seg st 0 0 k 0 s, .finished) else
      let vs := (List.zip (List.range n) nulls).map fun p => (numAt bs (8 * p.1) 8, p.2)
      if vs.any fun v => !v.2 && !inType x.type v.1 then
        -- values that this command put into the uncommitted block are neither kept nor counted (R94)
        let s := setPackCtx u (packCtx c) { x with pend := x.pend.take (x.pend.length - k) } s
        (packEnd u c x.seg stDescInvalid 0 0 (k - x.pend.length) 4 s, .finished)
      else
        let x := { x with pend := x.pend ++ vs }
        if x.pend.length < 4096 then
          let (s, st) := sourceTake u c q n s
          if st ≠ stOK then (packEnd u c x.seg st 0 0 k 0 s, .finished) else (setPackCtx u (packCtx c) x s, .go (k + n))
        else match commitBlock u c x s with
          | (s, .failed st e) => (packEnd u c x.seg st 0 0 k e s, .finished)
          | (s, .done _) =>
            let (s, st) := sourceTake u c q n s
            if st ≠ stOK then (packEnd u c x.seg st 0 0 (k + n) 0 s, .finished) else (s, .go (k + n))
          | (s, .full) =>
            let (s, st) := stageOut u c (c.quad 0x28) x.pend s
            if st ≠ stOK then (packEnd u c x.seg st 0 0 k 0 s, .finished)
            else
              let (s, st) := closeSeg u c x s
              if st ≠ stOK then (packEnd u c x.seg st 0 0 k 0 s, .finished)
              else
                let (s, st) := sourceTake u c q n (freePackCtx u (packCtx c) s)
                (packEnd u c x.seg st 2 x.pend.length (k + n) 0 s, .finished)

/-- Steps of an APPEND, at most `n` of them; a block takes one, so COUNT bounds them. -/
def appendLoop (u : Nat) (c : UnitCmd) : Nat → Nat → State → State
  | 0, _, s => s
  | n + 1, k, s =>
    match appendStep u c k s with
    | (s, .go k) => appendLoop u c n k s
    | (s, .wait k) => setPack u { packOf s u with taken := k } s
    | (s, .finished) => s

def packAppendX (u : Nat) (c : UnitCmd) (s : State) : State :=
  if c.word 4 = 0 then packEnd u c (c.quad 8) stDescInvalid 0 0 0 0 s
  else appendLoop u c (c.word 4 + 2) (packOf s u).taken s

def execPackAppend (unit : Nat) (s : State) : Host.Outcome State Fault Refusal := .next (packRun unit 2 (packAppendX unit) s)

/-! ### SAVE, RESTORE and RECOVER (R93, R97, R101) -/

/-- The latest values with the pending ones, latest first, at most 16. -/
def tailOf (x : PackCtx) : List Nat := ((x.pend.map (·.1)).reverse ++ x.prior).take 16

/-- The 256 bytes of a state record (Table 4.9). -/
def stateRecord (x : PackCtx) (stage tag : Nat) : List Byte :=
  let r := joinRange x.type x.range (minMax x.type (nonNulls x.pend))
  let t := tailOf x
  let bs := toBytes 4 0x4D505354
    ++ toBytes 4 (1 + 2 ^ 8 * x.type + 2 ^ 12 * x.check + 2 ^ 14 * b2n x.hist + 2 ^ 15 * b2n x.nullable + 2 ^ 16 * b2n x.lhfmt
        + 2 ^ 24 * x.scale)
    ++ toBytes 8 x.seg ++ toBytes 4 x.length ++ toBytes 4 x.blocks.length ++ toBytes 4 x.values ++ toBytes 4 x.pend.length
    ++ toBytes 8 stage ++ toBytes 4 x.cap ++ toBytes 4 tag ++ toBytes 8 ((r.map (·.1)).getD 0) ++ toBytes 8 ((r.map (·.2)).getD 0)
    ++ toBytes 4 (x.nulls + (x.pend.filter (·.2)).length) ++ toBytes 4 0 ++ toBytes 8 x.dict
    ++ (List.range 16).flatMap (fun i => toBytes 8 (t.getD (15 - i) 0)) ++ toBytes 4 t.length ++ List.replicate 40 0
  bs ++ toBytes 4 (crc32c bs)

def packSaveX (u : Nat) (c : UnitCmd) (s : State) : State :=
  match ownCtx s u c with
  | none => packEnd u c (c.quad 8) stDescInvalid 0 0 0 0 s
  | some x =>
    if c.quad 0x20 % 64 ≠ 0 || c.quad 0x28 % 64 ≠ 0 then packEnd u c x.seg stDescInvalid 0 0 0 0 s else
    let tag := (x.tag + 1) % 2 ^ 32
    let (s, st) := stageOut u c (c.quad 0x28) x.pend s
    if st ≠ stOK then packEnd u c x.seg st 0 0 0 0 s else
    let (s, st) := uWrite (packTlb u) c (c.quad 0x20) (stateRecord x (c.quad 0x28) tag) s
    if st ≠ stOK then packEnd u c x.seg st 0 0 0 0 s else
    let (s, st) := uWrite (packTlb u) c (x.seg + 0x34) (toBytes 4 tag) s
    packEnd u c x.seg st 0 0 0 0 (if st = stOK then freePackCtx u (packCtx c) s else s)

def execPackSave (unit : Nat) (s : State) : Host.Outcome State Fault Refusal := .next (packRun unit 4 (packSaveX unit) s)

/-- Walks the committed blocks of a segment by their BYTES fields: their offsets. Nothing is read past LENGTH. -/
def walkBlocks (u : Nat) (c : UnitCmd) (seg len : Nat) : Nat → Nat → List Nat → State → State × Nat × List Nat
  | 0, _, acc, s => (s, stOK, acc)
  | n + 1, off, acc, s =>
    if len < off + 40 then walkBlocks u c seg len n off (acc ++ [off]) s else
    let (s, st, b) := uReadNat (packTlb u) c (seg + off + 0x18) 4 s
    if st ≠ stOK then (s, st, acc) else walkBlocks u c seg len n (off + b) (acc ++ [off]) s

/-- The last values of a segment's committed blocks, latest first, decoded from its last block; none where it cannot be
decoded. -/
def lastValues (u : Nat) (c : UnitCmd) (hd : SegHdr) (seg : Nat) (offs : List Nat) (s : State) : State × Nat × List Nat :=
  match offs.getLast? with
  | none => (s, stOK, [])
  | some o =>
    let (s, st, bs) := uRead (packTlb u) c (seg + o) (hd.length - o) s
    if st ≠ stOK then (s, st, [])
    else match decodeBlock hd none bs with
      | none => (s, stOK, [])
      | some (_, vs) => (s, stOK, (vs.map (·.1)).reverse.take 16)

/-- The running range of a header's committed blocks; a header with no non-null value gives none. -/
def hdrRange (h : SegHdr) : Option (Nat × Nat) := if h.nulls = h.values then none else some (h.min, h.max)

/-- A context over a segment with a header. -/
def ctxFrom (c : UnitCmd) (h : SegHdr) (seg cap : Nat) (offs prior : List Nat) (pend : List (Nat × Bool)) (tag : Nat) : PackCtx :=
  { task := c.task, inst := c.inst, job := c.job, serial := c.serial, stage := c.stage, morsel := c.morsel, seg := seg,
    type := h.type, check := h.check, hist := h.hist, nullable := h.nullable, lhfmt := h.lhfmt, scale := h.scale, dict := h.dict, cap := cap, length := h.length, values := h.values,
    nulls := h.nulls, tag := tag, range := hdrRange h, blocks := offs, prior := prior, pend := pend }

/-- The values before a record's pending ones, latest first: TAIL holds them as far as the pending values leave room, and
the segment's last block holds the rest. -/
def priorFrom (rc : List Byte) (n : Nat) (decoded : List Nat) : List Nat :=
  let t := ((List.range (min 16 (fld (numAt rc 0xD0 4) 4 0))).map fun i => numAt rc (0x50 + 8 * (15 - i)) 8).drop n
  t ++ decoded.drop t.length

/-- RESTORE (R97): the record's magic, RCRC, SEG_BYTES and BLOCKS are held against the segment, which must be OPEN (R78),
and the claim is one swap of STATE_TAG. -/
def packRestoreX (u : Nat) (c : UnitCmd) (s : State) : State :=
  let fail := fun (seg st err : Nat) (s : State) => packEnd u c seg st 0 0 0 err s
  if 8 ≤ (packOf s u).ctx.length then fail (c.quad 8) stBusy 0 s
  else if (packCtxOf s u (packCtx c)).isSome || c.quad 0x20 % 64 ≠ 0 then fail (c.quad 8) stDescInvalid 0 s
  else
    let (s, st, rc) := uRead (packTlb u) c (c.quad 0x20) 256 s
    if st ≠ stOK then fail (c.quad 8) st 0 s else
    let seg := numAt rc 8 8
    if numAt rc 0 4 ≠ 0x4D505354 || numAt rc 0xFC 4 ≠ crc32c (rc.take 252) then fail seg stCodec 2 s else
    let (s, st, hb) := uRead (packTlb u) c seg 64 s
    if st ≠ stOK then fail seg st 0 s else
    let h := hdrFields hb
    if !h.isOpen || h.length ≠ numAt rc 0x10 4 || h.blocks ≠ fld (numAt rc 0x14 4) 12 0 then fail seg stCodec 2 s
    else if h.tag ≠ numAt rc 0x2C 4 then fail seg stBusy 3 s
    else
      let n := fld (numAt rc 0x1C 4) 11 0
      let (s, st, sg) := uRead (packTlb u) c (numAt rc 0x20 8) 33280 s
      if st ≠ stOK then fail seg st 0 s else
      let (s, st, offs) := walkBlocks u c seg h.length h.blocks 64 [] s
      if st ≠ stOK then fail seg st 0 s else
      let (s, st, last) := lastValues u c h seg offs s
      if st ≠ stOK then fail seg st 0 s else
      let prior := priorFrom rc n last
      let tag := (h.tag + 1) % 2 ^ 32
      let (s, st) := uWrite (packTlb u) c (seg + 0x34) (toBytes 4 tag) s
      if st ≠ stOK then fail seg st 0 s else
      let pend := (List.range n).map fun i => (numAt sg (8 * i) 8, bit (numAt sg (0x8000 + i / 8) 1) (i % 8))
      packEnd u c seg stOK 0 0 0 0 (setPackCtx u (packCtx c) (ctxFrom c h seg (numAt rc 0x28 4) offs prior pend tag) s)

def execPackRestore (unit : Nat) (s : State) : Host.Outcome State Fault Refusal := .next (packRun unit 5 (packRestoreX unit) s)

/-- RECOVER claims a segment whatever its tag and closes it with its committed blocks only (R93): the claim is an odd tag
that no state record holds. A context of the command's task that it names is freed, and a context of another task ends it
(R92). -/
def packRecoverX (u : Nat) (c : UnitCmd) (s : State) : State :=
  let seg := c.quad 8
  if (packCtxOf s u (packCtx c)).isSome && (ownCtx s u c).isNone then packEnd u c seg stDescInvalid 0 0 0 0 s else
  let free := fun (s : State) => if (ownCtx s u c).isSome then freePackCtx u (packCtx c) s else s
  let (s, st, hb) := uRead (packTlb u) c seg 64 s
  if st ≠ stOK then packEnd u c seg st 0 0 0 0 s
  else if !hdrGood hb then packEnd u c seg stCodec 0 0 0 0 s
  else
    let h := hdrFields hb
    if !h.isOpen then packEnd u c seg stOK 0 0 0 0 (free s) else
    let tag := (h.tag + 1 - h.tag % 2) % 2 ^ 32
    let (s, st) := uWrite (packTlb u) c (seg + 0x34) (toBytes 4 tag) s
    if st ≠ stOK then packEnd u c seg st 0 0 0 0 s else
    let (s, st, offs) := walkBlocks u c seg h.length h.blocks 64 [] s
    if st ≠ stOK then packEnd u c seg st 0 0 0 0 s else
    let (s, st) := closeSeg u c (ctxFrom c h seg 1048576 offs [] [] tag) s
    packEnd u c seg st 0 0 0 0 (if st = stOK then free s else s)

def execPackRecover (unit : Nat) (s : State) : Host.Outcome State Fault Refusal := .next (packRun unit 6 (packRecoverX unit) s)

/-! ### Abandonment (R98) -/

/-- The front command of an ended job is abandoned: its context is freed, pending values are lost, and the header stays
open with its odd tag. -/
def packAbandonX (u : Nat) (s : State) : State :=
  match (packOf s u).queue with
  | [] => s
  | c :: q =>
    if cmdLive s c then s
    else
      let s := match ownCtx s u c with
        | some _ => freePackCtx u (packCtx c) s
        | none => s
      pulse (Reg.PACK_PAGE u) 1 (bump (Reg.PACK_ABANDON u) 1 (setPack u { packOf s u with queue := q, taken := 0 } s))

def execPackAbandon (unit : Nat) (s : State) : Host.Outcome State Fault Refusal := .next (packAbandonX unit s)

end Sys2Proof.Machine
end

