-- ==== Sys2Proof/Machine/Scan.lean ====
section
/-! DEFINITION. The Scan Fronts: program frames, start checks, lane verdicts, decoding, output and abandonment
(chapter 05). -/

namespace Sys2Proof.Machine

/-! ### The program frame (R110 to R112) -/

def frmW (f : List Byte) : Nat := numAt f 4 4
def frmSteps (f : List Byte) : Nat := fld (frmW f) 5 0
def frmCols (f : List Byte) : Nat := fld (frmW f) 11 8
def frmProj (f : List Byte) : Nat := fld (frmW f) 15 12
def frmOut (f : List Byte) : Nat := fld (frmW f) 17 16
def frmPosCol (f : List Byte) : Bool := bit (frmW f) 18
def frmNMask (f : List Byte) : Bool := bit (frmW f) 19
def frmConsts (f : List Byte) : Nat := fld (frmW f) 25 20
def colType (f : List Byte) (c : Nat) : Nat := fld (numAt f 8 4) (4 * c + 3) (4 * c)
def colScale (f : List Byte) (c : Nat) : Nat := numAt f (0x0C + c) 1
def projWord (f : List Byte) (i : Nat) : Nat := numAt f (0x20 + 4 * i) 4
def constAt (f : List Byte) (k : Nat) : Nat := numAt f (0xC0 + 8 * k) 8

/-- A step word's fields (Table 5.5). -/
structure StepWord where
  op  : Nat
  col : Nat
  ca  : Nat
  cb  : Nat
  set : Nat
  deriving DecidableEq, Repr

def stepAt (f : List Byte) (k : Nat) : StepWord :=
  let w := numAt f (0x40 + 4 * k) 4
  ⟨fld w 4 0, fld w 7 5, fld w 13 8, fld w 19 14, fld w 20 20⟩

def stepsOf (f : List Byte) : List StepWord := (List.range (frmSteps f)).map (stepAt f)

/-- Stack entries a step takes and leaves; none for an invalid OP (Table 5.7). -/
def stepStack (op : Nat) : Option (Nat × Nat) :=
  if 1 ≤ op && op ≤ 0x0A then some (0, 1)
  else if op = 0x10 || op = 0x11 then some (2, 1)
  else if op = 0x12 then some (1, 1)
  else if op = 0x13 then some (0, 1)
  else none

/-- The stack depth after the steps; none where it is ever too shallow or deeper than 8, or an OP is invalid. -/
def stackDepth : List StepWord → Nat → Option Nat
  | [], d => some d
  | t :: r, d => match stepStack t.op with
    | none => none
    | some (a, b) => if d < a || 8 < d - a + b then none else stackDepth r (d - a + b)

/-- R112: whether a frame is well formed. -/
def frameGood (f : List Byte) : Bool :=
  numAt f 0 4 = 0x53465052 && 1 ≤ frmSteps f && frmSteps f ≤ 32 && 1 ≤ frmCols f && frmCols f ≤ 8 && frmProj f ≤ 8
    && frmOut f ≤ 2 && frmConsts f ≤ 40
    && ((List.range (frmCols f)).all fun c => colType f c ≤ 9 && colScale f c ≤ 18)
    && ((stepsOf f).all fun t =>
        !(1 ≤ t.op && t.op ≤ 0x0A && frmCols f ≤ t.col)
          && !(1 ≤ t.op && t.op ≤ 7 && frmConsts f ≤ t.ca) && !(t.op = 7 && frmConsts f ≤ t.cb))
    && stackDepth (stepsOf f) 0 = some 1
    && ((List.range (frmProj f)).all fun i =>
        fld (projWord f i) 2 0 < frmCols f && typeBits (colType f (fld (projWord f i) 2 0)) ≤ 8 * 2 ^ fld (projWord f i) 4 3)
    && (if frmOut f = 0 then 1 ≤ frmProj f + b2n (frmPosCol f)
        else frmProj f = 0 && !frmPosCol f && !frmNMask f)

/-! ### Lane verdicts (R114, R115) -/

inductive Verdict where
  | never
  | maybe
  | always
  deriving DecidableEq, Repr

def Verdict.meet : Verdict → Verdict → Verdict
  | .never, _ => .never
  | _, .never => .never
  | .always, .always => .always
  | _, _ => .maybe

def Verdict.join : Verdict → Verdict → Verdict
  | .always, _ => .always
  | _, .always => .always
  | .never, .never => .never
  | _, _ => .maybe

def Verdict.flip : Verdict → Verdict
  | .never => .always
  | .always => .never
  | .maybe => .maybe

/-- A verdict from two tests: no value satisfies the step, every value does. -/
def Verdict.ofTests (none_ all_ : Bool) : Verdict := if none_ then .never else if all_ then .always else .maybe

/-- The set a step names: BASE, BITS and MAP. -/
def setOf (sets : List (Nat × Nat × Nat × List Byte)) (k : Nat) : Nat × Nat × List Byte :=
  match sets.find? fun p => p.1 = k with
  | some p => p.2
  | none => (0, 0, [])

/-- interval(): the verdict of a comparison over all values from lo to hi, in the column's order. -/
def interval (f : List Byte) (sets : List (Nat × Nat × Nat × List Byte)) (t : StepWord) (lo hi : Int) : Verdict :=
  let ty := colType f t.col
  let a := ordVal ty (constAt f t.ca)
  let b := ordVal ty (constAt f t.cb)
  match t.op with
  | 1 => Verdict.ofTests (decide (a < lo ∨ hi < a)) (decide (lo = a ∧ hi = a))
  | 2 => Verdict.ofTests (decide (lo = a ∧ hi = a)) (decide (a < lo ∨ hi < a))
  | 3 => Verdict.ofTests (decide (a ≤ lo)) (decide (hi < a))
  | 4 => Verdict.ofTests (decide (a < lo)) (decide (hi ≤ a))
  | 5 => Verdict.ofTests (decide (hi ≤ a)) (decide (a < lo))
  | 6 => Verdict.ofTests (decide (hi < a)) (decide (a ≤ lo))
  | 7 => Verdict.ofTests (decide (b < a ∨ hi < a ∨ b < lo)) (decide (a ≤ lo ∧ hi ≤ b))
  | _ =>
    let (base, bits, _) := setOf sets t.set
    let x := ordVal ty base
    Verdict.ofTests (decide (hi < x ∨ x + bits - 1 < lo)) false

/-- leaf(): the verdict of one step from the lane header of its column. -/
def leaf (f : List Byte) (sets : List (Nat × Nat × Nat × List Byte)) (bounds : Bool) (t : StepWord) (h : BlockHead)
    (l : LaneHdr) : Verdict :=
  if t.op = 0x13 then .always
  else if t.op = 0x09 then (if l.nulls = 0 then .never else if l.nulls = 1 then .maybe else .always)
  else if t.op = 0x0A then (if l.nulls = 0 then .always else if l.nulls = 1 then .maybe else .never)
  else if l.nulls = 2 then .never
  else if !bounds then .maybe
  else
    let ty := colType f t.col
    let v := interval f sets t (ordVal ty (add64 h.bref l.lmin)) (ordVal ty (add64 h.bref l.lmax))
    if v = .always && l.nulls = 1 then .maybe else v

/-- Runs a program on a stack of any values (R111): leaves by `leaf_`, and the three connectives. -/
def runSteps {α : Type} (leaf_ : StepWord → α) (and_ or_ : α → α → α) (not_ : α → α) : List StepWord → List α → List α
  | [], st => st
  | t :: r, st =>
    let st := if t.op = 0x10 then (match st with
        | b :: a :: q => and_ a b :: q
        | q => q)
      else if t.op = 0x11 then (match st with
        | b :: a :: q => or_ a b :: q
        | q => q)
      else if t.op = 0x12 then (match st with
        | a :: q => not_ a :: q
        | q => q)
      else leaf_ t :: st
    runSteps leaf_ and_ or_ not_ r st

/-- One step's value for a row: the value with its null flag (R113). -/
def stepVal (f : List Byte) (sets : List (Nat × Nat × Nat × List Byte)) (t : StepWord) (v : Nat × Bool) : Bool :=
  let ty := colType f t.col
  let x := ordVal ty v.1
  let a := ordVal ty (constAt f t.ca)
  let b := ordVal ty (constAt f t.cb)
  match t.op with
  | 0x13 => true
  | 0x09 => v.2
  | 0x0A => !v.2
  | 1 => !v.2 && decide (x = a)
  | 2 => !v.2 && decide (x ≠ a)
  | 3 => !v.2 && decide (x < a)
  | 4 => !v.2 && decide (x ≤ a)
  | 5 => !v.2 && decide (a < x)
  | 6 => !v.2 && decide (a ≤ x)
  | 7 => !v.2 && decide (a ≤ x ∧ x ≤ b)
  | _ =>
    let (base, bits, map_) := setOf sets t.set
    let o := (x - ordVal ty base).toNat
    !v.2 && decide (ordVal ty base ≤ x ∧ x ≤ ordVal ty base + bits - 1) && bit ((map_.getD (o / 8) 0).toNat) (o % 8)

/-! ### Units and command start (R104 to R109) -/

def scanOf (s : State) (n : Nat) : ScanFront := kGet {} s.scans n
def setScan (n : Nat) (x : ScanFront) (s : State) : State := { s with scans := kSet s.scans n x }

/-- A Scan Front's port: its stop's TLB, and its index there (R14, Table 12.6). -/
def sfTlb (n : Nat) : Nat := viaPort (tlbScan (n / 8)) (n % 8)

/-- Commands a Scan Front holds, the running one included (R107). -/
def scanDepth (s : State) (n : Nat) : Nat := (scanOf s n).queue.length + (if (scanOf s n).run.isSome then 1 else 0)

/-- Whether a physical range lies where a Scan Front may read (R104). -/
def scanReach (s : State) (n a len : Nat) : Bool :=
  let h := n / 8
  let die := h / 4
  (h * stopBytes ≤ a && a + len ≤ (h + 1) * stopBytes && inHbm s a len)
    || (0x010000000000 + die * 2 ^ 39 ≤ a && a + len ≤ 0x010000000000 + die * 2 ^ 39 + capBytes s die)

/-- The held command that starts next: highest CLASS, then earliest submitted (R107). -/
def nextHeld (q : List UnitCmd) : Option UnitCmd :=
  q.foldl (fun b c => match b with
    | none => some c
    | some x => if x.cls < c.cls then some c else b) none

/-- The level of THROTTLED. -/
def throttle (n : Nat) (v : Bool) (s : State) : State :=
  level (Reg.SF_PAGE n) 2 v (setScan n { scanOf s n with stalled := v } s)

/-- The bytes that a stalled Scan Front waits for room for. -/
def needRoom (n len : Nat) (s : State) : State := setScan n { scanOf s n with need := len } s

/-- Bytes a Scan Front's output queue holds at most (R120). -/
def outQueueSize : Nat := 4096

/-- Whether a Scan Front's queue lacks the room it waits for: it is throttled (R120). -/
def lacksRoom (x : ScanFront) : Bool := x.stalled && outQueueSize < x.outQ + x.need

/-- Output that a command has written, as the other running commands of its instance meet it (R119). -/
def noteOutput (n : Nat) (c : UnitCmd) (bytes : Nat) (s : State) : State :=
  if bytes = 0 then s else
  { s with scans := kMap s.scans fun k x =>
      match x.run with
      | some r => if k ≠ n && r.cmd.inst = c.inst then { x with run := some { r with met := (c.quad 0x10, bytes) :: r.met } } else x
      | none => x }

/-- A command ends: result words and counts (R119). -/
def scanEnd (n : Nat) (c : UnitCmd) (rows bytes st : Nat) (full : Bool) (next : Nat) (s : State) : State :=
  let s := if st = stCodec then pulse (Reg.SF_PAGE n) 0 (bump (Reg.SF_CHECK_FAIL n) 1 s) else s
  uResult (sfTlb n) c (some rows) (some bytes) (some (st + 256 * b2n full)) (some next)
    (noteOutput n c bytes (setScan n { scanOf s n with run := none } s))

/-- The program frame a command names: from the image of its job's Pattern, or the register program. A frame that cannot be
read fails check 2 of Table 5.2. -/
def scanFrame (n : Nat) (c : UnitCmd) (s : State) : State × Nat × List Byte :=
  let prog := fld (c.word 0) 10 4
  if prog = 0x7F then (s, stOK, (List.range 128).flatMap fun k => toBytes 4 (rGet s (Reg.SF_PGM n k)))
  else match jobOf s c.job with
    | none => (s, stPattern, [])
    | some x => match jobSlot s x with
      | none => (s, stPattern, [])
      | some sl => if sl.npred ≤ prog then (s, stPattern, [])
        else
          let (s, st, f) := vRead (sfTlb n) c.inst (sl.addr + sl.predOff + 512 * prog) 512 s
          (s, if st = stOK then stOK else stPattern, f)

/-- Reads the columns' segment addresses and headers. -/
def scanCols (n : Nat) (c : UnitCmd) (k : Nat) (s : State) : State × Nat × List ScanCol :=
  let (s, st, tab) := uRead (sfTlb n) c (c.quad 8) (8 * k) s
  if st ≠ stOK then (s, st, [])
  else (List.range k).foldl (fun (r : State × Nat × List ScanCol) i =>
    if r.2.1 ≠ stOK then r else
    let a := numAt tab (8 * i) 8
    let (s, st, hb) := uRead (sfTlb n) c a 64 r.1
    if st ≠ stOK then (s, st, r.2.2 ++ [{ seg := a, hdr := [] }])
    else if !hdrGood hb then (s, stCodec, r.2.2 ++ [{ seg := a, hdr := hb }])
    else (s, stOK, r.2.2 ++ [{ seg := a, hdr := hb }])) (s, stOK, [])

/-- Reads the set descriptors that the command gives: number, BASE, BITS and MAP; none where one is not good. -/
def scanSets (n : Nat) (c : UnitCmd) (s : State) : State × Option (List (Nat × Nat × Nat × List Byte)) :=
  let given := (List.range 2).filter fun k => c.quad (0x20 + 8 * k) ≠ 0
  given.foldl (fun (r : State × Option (List (Nat × Nat × Nat × List Byte))) k =>
    match r.2 with
    | none => r
    | some l =>
      let a := c.quad (0x20 + 8 * k)
      let (s, st, hd) := uRead (sfTlb n) c a 16 r.1
      let bits := fld (numAt hd 8 4) 16 0
      if st ≠ stOK || bits = 0 || 65536 < bits then (s, none)
      else
        let (s, st, m) := uRead (sfTlb n) c (a + 16) (ceilDiv bits 8) s
        if st ≠ stOK then (s, none) else (s, some (l ++ [(k, numAt hd 0 8, bits, m)]))) (s, some [])

/-- The stretches of a segment by the 64 GiB slots they lie in (R249). -/
def slotSpans (a len : Nat) : List (Nat × Nat) :=
  if len = 0 || (a + len - 1) / 2 ^ 36 = a / 2 ^ 36 then [(a, len)]
  else
    let b := (a / 2 ^ 36 + 1) * 2 ^ 36
    [(a, b - a), (b, a + len - b)]

/-- A column's segment where R104 lets it lie: every stretch of it is translated and judged, and its bytes are kept as they
stand at the command's start (R123). None where it lies elsewhere. -/
def placeCol (n : Nat) (c : UnitCmd) (x : ScanCol) (s : State) : State × Option ScanCol :=
  (slotSpans x.seg (hdrFields x.hdr).length).foldl (fun (r : State × Option ScanCol) p =>
    match r.2 with
    | none => r
    | some y =>
      let (s, st, a) := uTranslate (sfTlb n) c p.1 accRead r.1
      if st = stOK && scanReach s n a p.2 then (s, some { y with snap := y.snap ++ memBytes s a (min p.2 (2 ^ 20)) }) else (s, none))
    (s, some x)

/-- Columns in order, up to the first whose segment does not lie where R104 lets it. -/
def placeCols (n : Nat) (c : UnitCmd) (xs : List ScanCol) (s : State) : State × Option (List ScanCol) :=
  xs.foldl (fun (r : State × Option (List ScanCol)) x =>
    match r.2 with
    | none => r
    | some ys => match placeCol n c x r.1 with
      | (s, some y) => (s, some (ys ++ [y]))
      | (s, none) => (s, none)) (s, some [])

/-- A check of Table 5.2 that fails before the column table is read for good: ERR_ADDR is the table's first address. -/
def scanEarly (n : Nat) (c : UnitCmd) (st code : Nat) (s : State) : State × (ScanRun ⊕ (Nat × Nat × Nat)) :=
  let (s, e, a) := uReadNat (sfTlb n) c (c.quad 8) 8 s
  (s, .inr (st, code, if e = stOK then a else 0))

/-- The start checks of Table 5.2 in order, after the copy of the block itself (R185): the run, or status, error code and
address. -/
def scanChecks (n : Nat) (c : UnitCmd) (s : State) : State × (ScanRun ⊕ (Nat × Nat × Nat)) :=
  let prog := fld (c.word 0) 10 4
  let first := fld (c.word 4) 23 0
  let npos := fld (c.word 0x1C) 24 0
  if c.copied ≠ stOK then (s, .inr (c.copied, 0, c.block)) else
  if fld (c.word 0) 3 0 ≠ 1 || !(prog ≤ 63 || prog = 0x7F) || (prog = 0x7F && c.inst ≠ 0) then scanEarly n c stDescInvalid 6 s else
  let (s, st, f) := scanFrame n c s
  if st ≠ stOK || !frameGood f then scanEarly n c stPattern 3 s else
  let setsHere := ((stepsOf f).all fun t => t.op ≠ 8 || c.quad (0x20 + 8 * t.set) ≠ 0) && c.quad 0x20 % 16 = 0 && c.quad 0x28 % 16 = 0
  if first % 32 ≠ 0 || !setsHere || c.quad 8 % 8 ≠ 0 || (frmOut f ≠ 2 && c.quad 0x10 % 8 ≠ 0) then
    scanEarly n c stDescInvalid 6 s else
  let (s, st, cols) := scanCols n c (frmCols f) s
  let seg0 := (cols.head?.map (·.seg)).getD 0
  if st ≠ stOK then (s, .inr (st, 7, seg0)) else
  match placeCols n c cols s with
  | (s, none) => (s, .inr (stDescInvalid, 1, seg0))
  | (s, some cols) =>
  let hs := cols.map fun x => hdrFields x.hdr
  if (List.zip (List.range hs.length) hs).any fun p => p.2.type ≠ colType f p.1 || (p.2.type = 8 && p.2.scale ≠ colScale f p.1)
    then (s, .inr (stDescInvalid, 4, seg0)) else
  let vals := (hs.head?.map (·.values)).getD 0
  let blks := (hs.head?.map (·.blocks)).getD 0
  if hs.any fun h => h.values ≠ vals || h.blocks ≠ blks then (s, .inr (stDescInvalid, 2, seg0)) else
  match scanSets n c s with
  | (s, none) => (s, .inr (stDescInvalid, 5, seg0))
  | (s, some sets) =>
    if vals < first then (s, .inr (stDescInvalid, 6, seg0))
    else (s, .inl
      { cmd := c, frame := f, cols := cols, sets := sets, pos := first, endPos := if npos = 0 then vals else min (first + npos) vals,
        skip := rBit s (Reg.SF_CTRL n) 0, elide := rBit s (Reg.SF_CTRL n) 1, compat := pageCompat s (Reg.SF_PAGE n) })

/-- Starts the next held command of an idle Scan Front (R107, R108, R370). -/
def scanStart (n : Nat) (s : State) : State :=
  let x := scanOf s n
  if x.run.isSome || !pageEn s (Reg.SF_PAGE n) then s else
  match nextHeld (x.queue.filter (cmdLive s)) with
  | none => s
  | some c =>
    let s := setScan n { x with queue := x.queue.erase c } s
    match scanChecks n c s with
    | (s, .inl r) => setScan n { scanOf s n with run := some r } s
    | (s, .inr (st, code, a)) =>
      scanEnd n c 0 0 st false (fld (c.word 4) 23 0) (recErr (Reg.SF_PAGE n) code a s)

/-! ### Lane positions (R109, R114 to R118) -/

/-- A running command fails at its lane position (R121). -/
def scanFail (n : Nat) (r : ScanRun) (st a : Nat) (s : State) : State :=
  scanEnd n r.cmd r.rows r.bytes st false r.pos (recErr (Reg.SF_PAGE n) 0 a s)

/-- The head of a column's present block. -/
def colHead (x : ScanCol) : Option BlockHead :=
  match restart x.head with
  | none => none
  | some h => blockHead (hdrFields x.hdr).lhfmt h (x.head.drop 40)

/-- Reads `len` bytes of a column's segment from an offset: a status with the address it fails at, the bytes, and the column,
torn where the bytes are not those of the command's start (R123). -/
def colRead (n : Nat) (c : UnitCmd) (x : ScanCol) (off len : Nat) (s : State) : State × (Nat × Nat) × List Byte × ScanCol :=
  let (s, st, bs) := uRead (sfTlb n) c (x.seg + off) len s
  let other := off + len ≤ x.snap.length && bs ≠ slice x.snap off len
  (s, (st, x.seg + off + bs.length), bs, { x with torn := x.torn || (st = stOK && other) })

/-- A failed check of a column's present block; the block's address goes with it. -/
def colBad (x : ScanCol) : Nat × Nat := (stCodec, x.seg + x.off)

/-- Values of a block all of whose lanes are decoded, in order. -/
def laneVals (x : ScanCol) (n : Nat) : List (Nat × Bool) :=
  (List.range n).flatMap fun j => ((x.lanes.find? fun p => p.1 = j).map (·.2)).getD []

/-- Decodes lane `j` of a column unless it is decoded already; with the last lane the block's VCRC is checked (R88). -/
def decodeCol (n : Nat) (c : UnitCmd) (x : ScanCol) (j : Nat) (s : State) : State × (Nat × Nat) × ScanCol :=
  if x.lanes.any fun p => p.1 = j then (s, (stOK, 0), x) else
  match colHead x with
  | none => (s, colBad x, x)
  | some h =>
    if numLanes h ≤ j then (s, colBad x, x) else
    let hd := hdrFields x.hdr
    let l := h.lanes.getD j ⟨0, 0, 0, 0, 0, 0⟩
    let (s, st, bs, x) := colRead n c x (x.off + h.pay + l.off) (4 * l.width + 9 * l.nexc) s
    if st.1 ≠ stOK then (s, st, x) else
    match decodeLane hd.type hd.lhfmt h j bs with
    | none => (s, colBad x, x)
    | some vs =>
      let x := { x with lanes := (j, vs) :: x.lanes }
      let s := bump (Reg.SF_LANES_DECODED n) 1 s
      if 2 ≤ hd.check && x.lanes.length = numLanes h && vcrcOf (laneVals x (numLanes h)) ≠ h.vcrc then (s, colBad x, x)
      else (s, (stOK, 0), x)

/-- Where block `b` of a column begins: from the directory of a closed segment, or by walking (R109). -/
def blockOff (n : Nat) (c : UnitCmd) (x : ScanCol) (b : Nat) (s : State) : State × (Nat × Nat) × ScanCol :=
  let hd := hdrFields x.hdr
  if !hd.isOpen then
    let (s, st, bs, x) := colRead n c x (hd.dirOff + 4 * b) 4 s
    (s, st, if st.1 = stOK then { x with off := ofBytes bs } else x)
  else (List.range (b - x.blk)).foldl (fun (r : State × (Nat × Nat) × ScanCol) _ =>
    if r.2.1.1 ≠ stOK then r else
    let (s, st, bs, y) := colRead n c r.2.2 r.2.2.off 40 r.1
    if st.1 ≠ stOK then (s, st, y)
    else match restart bs with
      | none => (s, colBad y, y)
      | some h => (s, (stOK, 0), { y with off := y.off + h.bytes })) (s, (stOK, 0), x)

/-- Brings a column to block `b`: reads the block up to its payloads, and compares carried history. On a mismatch every lane
of the block is decoded, and the block is accepted only where VCRC was checked (R116, R85). -/
def enterBlock (n : Nat) (c : UnitCmd) (x : ScanCol) (b : Nat) (s : State) : State × (Nat × Nat) × ScanCol :=
  if x.blk = b && x.head ≠ [] then (s, (stOK, 0), x) else
  let prev := if x.blk + 1 = b then (x.lanes.find? fun p => p.1 = 127).map fun p => (p.2.map (·.1)).reverse.take 16 else none
  let (s, st, x) := blockOff n c { x with torn := false } b s
  if st.1 ≠ stOK then (s, st, x) else
  let (s, st, rb, x) := colRead n c x x.off 40 s
  if st.1 ≠ stOK then (s, st, x) else
  match restart rb with
  | none => (s, colBad x, x)
  | some h0 =>
    let lhfmt := (hdrFields x.hdr).lhfmt
    let (s, st, hb, x) := colRead n c x (x.off + 40) (headLen lhfmt h0 - 40) s
    if st.1 ≠ stOK then (s, st, x) else
    match blockHead lhfmt h0 hb with
    | none => (s, colBad x, x)
    | some h =>
      let x := { x with blk := b, head := rb ++ hb, lanes := [], prev := prev }
      let mismatch := !h.indep && (match prev with
        | some p => !historyAgrees h p
        | none => false)
      if !mismatch then (s, (stOK, 0), x)
      else
        let s := pulse (Reg.SF_PAGE n) 1 (bump (Reg.SF_HIST_MISMATCH n) 1 s)
        let r := (List.range (numLanes h)).foldl (fun (r : State × (Nat × Nat) × ScanCol) j =>
          if r.2.1.1 ≠ stOK then r else decodeCol n c r.2.2 j r.1) (s, (stOK, 0), x)
        if r.2.1.1 = stOK && (hdrFields x.hdr).check < 2 then (r.1, colBad x, r.2.2) else r

/-- Applies a step to some columns in order, stopping at the first failure; the address of the failing access goes with it
(R121). -/
def overCols (f : Nat → ScanCol → State → State × (Nat × Nat) × ScanCol) (which : Nat → Bool) (xs : List ScanCol) (s : State) :
    State × (Nat × Nat) × List ScanCol :=
  (List.zip (List.range xs.length) xs).foldl (fun (r : State × (Nat × Nat) × List ScanCol) p =>
    if r.2.1.1 ≠ stOK || !which p.1 then (r.1, r.2.1, r.2.2 ++ [p.2]) else
    let (s, st, x) := f p.1 p.2 r.1
    (s, st, r.2.2 ++ [x])) (s, (stOK, 0), [])

/-- A value of a decoded lane's row. -/
def colVal (xs : List ScanCol) (c j i : Nat) : Nat × Bool :=
  match xs[c]? with
  | none => (0, false)
  | some x => (((x.lanes.find? fun p => p.1 = j).map (·.2)).getD []).getD i (0, false)

/-- Bytes up to the next multiple of a field's size, then the field. -/
def putField (bs : List Byte) (size v : Nat) : List Byte := padTo size bs ++ toBytes size v

/-- One output row of SELVEC (R117). -/
def scanRow (f : List Byte) (xs : List ScanCol) (j i pos : Nat) : List Byte :=
  let ps := (List.range (frmProj f)).map fun k => (fld (projWord f k) 2 0, 2 ^ fld (projWord f k) 4 3)
  let vals := ps.map fun p => (p.2, colVal xs p.1 j i)
  let bs := vals.foldl (fun b v => putField b v.1 (if v.2.2 then 0 else v.2.1)) []
  let bs := if frmPosCol f then putField bs 4 pos else bs
  let mask := (List.zip (List.range vals.length) vals).foldl (fun a p => a + b2n p.2.2.2 * 2 ^ p.1) 0
  let bs := if frmNMask f then putField bs 1 mask else bs
  padTo ((vals.map (·.1)).foldl max (if frmPosCol f then 4 else 1)) bs

/-- The output of a lane position: undefined where the segment was rewritten while it was scanned (R123), and where another
command that ran meanwhile has written (R119). -/
def scanUndef (n : Nat) (r : ScanRun) (torn : Bool) (len : Nat) (s : State) : State :=
  let a := r.cmd.quad 0x10 + r.bytes
  let now := s.scans.filterMap fun p => match p.2.run with
    | some q => if p.1 ≠ n && q.cmd.inst = r.cmd.inst then some (q.cmd.quad 0x10, q.bytes) else none
    | none => none
  let s := if torn then undefVa r.cmd.inst a len s else s
  (now ++ r.met).foldl (fun s p =>
    let lo := max a p.1
    let hi := min (a + len) (p.1 + p.2)
    if lo < hi then undefVa r.cmd.inst lo (hi - lo) s else s) s

/-- One lane position of a running command. -/
def scanLane (n : Nat) (r : ScanRun) (s : State) : State :=
  let f := r.frame
  let c := r.cmd
  let b := r.pos / 4096
  let j := r.pos % 4096 / 32
  let rows := min 32 (r.endPos - r.pos)
  let here := fun (xs : List ScanCol) (s : State) => setScan n { scanOf s n with run := some { r with cols := xs } } s
  let (s, (st, fa), xs) := overCols (fun _ x s => enterBlock n c x b s) (fun _ => true) r.cols s
  if st ≠ stOK then scanFail n r st fa s else
  let heads := xs.map fun x => (colHead x).getD ⟨0, 0, false, false, 0, 0, 0, 0, 0, 0, 0, [], [], [], 0⟩
  if heads.any fun h => numLanes h ≤ j then scanFail n r stCodec ((xs.head?.map fun x => x.seg + x.off).getD 0) s else
  let dflt : BlockHead := ⟨0, 0, false, false, 0, 0, 0, 0, 0, 0, 0, [], [], [], 0⟩
  let stepVerdict := fun (t : StepWord) =>
    let h := heads.getD t.col dflt
    let bounds := !r.compat && !((xs[t.col]?.map fun x => (hdrFields x.hdr).lhfmt).getD true)
    leaf f r.sets bounds t h (h.lanes.getD j ⟨0, 0, 0, 0, 0, 0⟩)
  let prog := (runSteps stepVerdict Verdict.meet Verdict.join Verdict.flip (stepsOf f) []).headD .maybe
  let verdict := if r.skip then prog else .maybe
  let reads := fun (t : StepWord) (k : Nat) => t.op ≤ 0x0A && t.col = k
  let needs := fun (k : Nat) =>
    if verdict = .never then false
    else if !r.elide then (stepsOf f).any fun t => reads t k
    else if verdict = .always then false
    else (stepsOf f).any fun t => reads t k && stepVerdict t = .maybe
  let (s, (st, fa), xs) := overCols (fun _ x s => decodeCol n c x j s) needs xs s
  if st ≠ stOK then scanFail n { r with cols := xs } st fa s else
  let passes := fun (i : Nat) =>
    if verdict = .never then false
    else if verdict = .always then true
    else (runSteps (fun t => match stepVerdict t with
        | .never => false
        | .always => true
        | .maybe => stepVal f r.sets t (colVal xs t.col j i)) and or not (stepsOf f) []).headD false
  let (fv, s) := if xs.any (·.torn) then takeFree s else (0, s)
  let pass := (List.range rows).filter fun i => if xs.any (·.torn) then bit fv i else passes i
  let projected := fun (k : Nat) => pass ≠ [] && (List.range (frmProj f)).any fun i => fld (projWord f i) 2 0 = k
  let (s, (st, fa), xs) := overCols (fun _ x s => decodeCol n c x j s) projected xs s
  if st ≠ stOK then scanFail n { r with cols := xs } st fa s else
  let out := match frmOut f with
    | 0 => pass.flatMap fun i => scanRow f xs j i (r.pos + i)
    | 1 => toBytes 4 (pass.foldl (fun a i => a + 2 ^ i) 0)
    | _ => []
  if c.word 0x18 < r.bytes + out.length && frmOut f ≠ 2 then scanEnd n c r.rows r.bytes stOK true r.pos s
  else if outQueueSize < (scanOf s n).outQ + out.length then throttle n true (needRoom n out.length (here xs s))
  else
    let (s, st, done) := uWriteTo (sfTlb n) c (c.quad 0x10 + r.bytes) out s
    if st ≠ stOK then scanFail n { r with cols := xs } st (c.quad 0x10 + r.bytes + done) s else
    let s := scanUndef n r (xs.any (·.torn)) out.length s
    let s := bump2 (Reg.SF_ROWS_IN n) (Reg.SF_SNAP_ROWS_IN n) rows s
    let s := bump2 (Reg.SF_ROWS_OUT n) (Reg.SF_SNAP_ROWS_OUT n) pass.length s
    let s := if verdict = .never then bump (Reg.SF_LANES_SKIPPED n) 1 s
      else bump (Reg.SF_LANES_ELIDED n) ((xs.filter fun x => !(x.lanes.any fun p => p.1 = j)).length) s
    let r := { r with cols := xs, pos := r.pos + rows, rows := r.rows + pass.length, bytes := r.bytes + out.length }
    setScan n { scanOf s n with run := some r, outQ := (scanOf s n).outQ + out.length } s

/-- Up to `k` lane positions of the running command, and its end when its range is done. -/
def scanGo (n : Nat) : Nat → State → State
  | k, s =>
    (List.range (k + 1)).foldl (fun s i =>
      match (scanOf s n).run with
      | none => s
      | some r =>
        if (scanOf s n).stalled || !cmdLive s r.cmd then s
        else if r.endPos ≤ r.pos then scanEnd n r.cmd r.rows r.bytes stOK false r.endPos s
        else if i = k then s else scanLane n r s) s

/-- SCAN: a Scan Front starts its next command where none runs, and scans up to `lanes` lane positions. -/
def scanX (n lanes : Nat) (s : State) : State :=
  if !working s then s else
  let s := if (scanOf s n).stalled then s else scanStart n s
  scanGo n lanes s

def execScan (sf lanes : Nat) (s : State) : Host.Outcome State Fault Refusal := .next (scanX sf lanes s)

/-- SCAN_RESUME: a stalled Scan Front goes on once its queue can take the lane position's output (R120). -/
def scanResumeX (n lanes : Nat) (s : State) : State :=
  if !working s || !(scanOf s n).stalled then s else
  let s := scanGo n lanes (setScan n { scanOf s n with stalled := false } s)
  if (scanOf s n).stalled then s else throttle n false s

def execScanResume (sf lanes : Nat) (s : State) : Host.Outcome State Fault Refusal := .next (scanResumeX sf lanes s)

/-- SCAN_ABANDON: commands of ended jobs are abandoned or dropped, with no result words (R122). -/
def scanAbandonX (n : Nat) (s : State) : State :=
  let x := scanOf s n
  let deadRun := match x.run with
    | some r => !cmdLive s r.cmd
    | none => false
  let dead := (x.queue.filter fun c => !cmdLive s c).length + b2n deadRun
  if dead = 0 then s else
  let s := if deadRun && x.stalled then throttle n false s else s
  bump (Reg.SF_ABANDON n) dead
    (setScan n { scanOf s n with queue := x.queue.filter (cmdLive s), run := if deadRun then none else x.run } s)

def execScanAbandon (sf : Nat) (s : State) : Host.Outcome State Fault Refusal := .next (scanAbandonX sf s)

end Sys2Proof.Machine
end

