-- ==== Sys2Proof/Machine/Patterns.lean ====
section
/-! DEFINITION. Pattern slots: LOAD with the checks of Table 3.9, RETIRE, and writes of the Cuff (chapter 03). -/

namespace Sys2Proof.Machine

/-! ### Images (Tables 3.2 to 3.8) -/

/-- A section directory entry. -/
structure Sect where
  type  : Nat
  off   : Nat
  size  : Nat
  count : Nat
  deriving DecidableEq, Repr

/-- The directory of an image's header and directory bytes. -/
def sectsOf (im : List Byte) : List Sect :=
  (List.range (fld (numAt im 0x18 4) 15 8)).map fun i =>
    let o := 0x40 + 16 * i
    ⟨numAt im o 1, numAt im (o + 4) 4, numAt im (o + 8) 4, numAt im (o + 12) 4⟩

/-- The section of a type. -/
def sectOf (ss : List Sect) (ty : Nat) : Option Sect := ss.find? fun x => x.type = ty

/-- Bytes of one entry of a section type, and the most entries (Table 3.4); for CONSTANTS and CODE, bytes. -/
def entrySize : Nat → Nat
  | 1 => 32
  | 2 => 16
  | 5 => 512
  | 6 => 8
  | 7 => 8
  | _ => 1

def entryMax : Nat → Nat
  | 1 => 64
  | 2 => 1024
  | 5 => 64
  | 6 => 64
  | 7 => 256
  | _ => 16 * 2 ^ 20

/-- Image header fields. -/
def imLength (im : List Byte) : Nat := numAt im 8 4
def imStages (im : List Byte) : Nat := numAt im 0x18 1
def imTempl (im : List Byte) : Nat := numAt im 0x1A 2
def imParam (im : List Byte) : Nat := numAt im 0x1C 2
def imList (im : List Byte) : Nat := numAt im 0x20 4
def imExpress (im : List Byte) : Bool := bit (numAt im 4 4) 16

/-- Check 5: the directory (R52). -/
def dirGood (im : List Byte) : Bool :=
  let ss := sectsOf im
  let n := fld (numAt im 0x18 4) 15 8
  let ends := 0x40 + 16 * n
  3 ≤ n && n ≤ 7 && 1 ≤ imTempl im && imTempl im ≤ 1024
    && (ss.all fun x => 1 ≤ x.type && x.type ≤ 7 && x.off % 64 = 0 && ends ≤ x.off && x.off + x.size ≤ imLength im
          && x.count ≤ entryMax x.type && x.count * entrySize x.type ≤ x.size
          && ((x.type ≠ 3 && x.type ≠ 4) || x.count = x.size)
          && (ss.filter fun y => y.type = x.type).length = 1
          && (ss.filter fun y => x.off < y.off + y.size && y.off < x.off + x.size).length ≤ 1)
    && ((sectOf ss 1).map (·.count)) = some (imStages im) && ((sectOf ss 2).map (·.count)) = some (imTempl im)
    && (sectOf ss 4).isSome && (imParam im = 0 || (sectOf ss 7).isSome)

/-- The stages, templates, references, parameter fields and programs of an image. -/
def imageStages (im : List Byte) : List Stage :=
  let o := ((sectOf (sectsOf im) 1).map (·.off)).getD 0
  (List.range (imStages im)).map fun i =>
    let a := o + 32 * i
    ⟨numAt im a 2, fld (numAt im a 4) 17 16, numAt im (a + 4) 4,
     ((List.range 4).map fun e => let w := numAt im (a + 16 + 4 * e) 4; (⟨fld w 7 0, fld w 9 8, fld w 31 16⟩ : Edge))⟩

def imageTempls (im : List Byte) : List Template :=
  let o := ((sectOf (sectsOf im) 2).map (·.off)).getD 0
  (List.range (imTempl im)).map fun i =>
    let a := o + 16 * i
    let w := numAt im (a + 4) 4
    ⟨numAt im a 4, fld w 15 0, fld w 17 16, bit w 18, bit w 19, fld w 21 20, fld w 25 22, fld w 31 27, numAt im (a + 8) 1,
     numAt im (a + 12) 4⟩

def imageMaRefs (im : List Byte) : List (Nat × Nat) :=
  match sectOf (sectsOf im) 6 with
  | none => []
  | some x => (List.range x.count).map fun i => (fld (numAt im (x.off + 8 * i) 4) 17 0, fld (numAt im (x.off + 8 * i + 4) 4) 18 0)

def imageParams (im : List Byte) : List ParamField :=
  match sectOf (sectsOf im) 7 with
  | none => []
  | some x => (List.range x.count).map fun i =>
    let w := numAt im (x.off + 8 * i + 4) 4
    ⟨numAt im (x.off + 8 * i) 2, numAt im (x.off + 8 * i + 2) 2, fld w 7 0, fld w 11 8⟩

/-- Whether morsel counts meet Table 3.6 for an edge. -/
def edgeCounts (e : Edge) (p n : Nat) : Bool :=
  match e.kind with
  | 1 => n = p
  | 2 => n = ceilDiv p e.g
  | 3 => n = p * e.g
  | _ => true

/-- The stage checks that FIXED counts decide; `which` says which stages have a count to judge (R53 to R56). -/
def countsGood (stages : List Stage) (counts : List Nat) (known : Nat → Bool) : Bool :=
  (List.zip (List.range stages.length) stages).all fun p =>
    let es := p.2.edges.filter fun e => e.kind ≠ 0
    (es.all fun e => !known p.1 || !known e.pred || edgeCounts e (counts.getD e.pred 0) (counts.getD p.1 0))
      && (!known p.1 || !(es.all fun e => known e.pred) || depCount counts p.2 0 ≤ 65535)

/-- Check 6: the stages (R53 to R56). -/
def stagesGood (im : List Byte) : Bool :=
  let ss := imageStages im
  let known := fun i => ((ss.getD i ⟨0, 0, 0, []⟩).mkind) = 0
  1 ≤ imStages im && imStages im ≤ 64
    && ((List.zip (List.range ss.length) ss).all fun p =>
        let used := p.2.edges.filter fun e => e.kind ≠ 0
        p.2.template < imTempl im && p.2.mkind ≤ 1
          && (if p.2.mkind = 0 then 1 ≤ p.2.mcount else p.2.mcount % 4 = 0 && p.2.mcount + 4 ≤ imParam im)
          && (p.2.edges.take used.length = used)
          && (used.all fun e => e.pred < p.1
              && (e.kind ≠ 1 || e.g = 0) && (e.kind ≠ 2 || 1 ≤ e.g) && (e.kind ≠ 3 || (1 ≤ e.g && e.g ≤ 4103)))
          && (used.all fun e => (used.filter fun f => f.pred = e.pred).length = 1)
          && succCount ss p.1 ≤ 4103 && (succCount ss p.1 ≤ 8 || p.2.mkind = 0))
    && countsGood ss (ss.map (·.mcount)) known

/-- Check 8: the templates (Table 3.7). -/
def templsGood (im : List Byte) : Bool :=
  let code := ((sectOf (sectsOf im) 4).map (·.size)).getD 0
  let npred := ((sectOf (sectsOf im) 5).map (·.count)).getD 0
  (imageTempls im).all fun t =>
    t.entry % 4 = 0 && t.entry + 4 ≤ code && t.budget ≠ 0 && t.place ≠ 3 && t.saveKib ≤ 8 && (t.sfProg = 0xFF || t.sfProg < npred)

/-- Check 9: the Scan Front programs (R112). -/
def progsGood (im : List Byte) : Bool :=
  match sectOf (sectsOf im) 5 with
  | none => true
  | some x => (List.range x.count).all fun i => frameGood (slice im (x.off + 512 * i) 512)

/-- Check 10: the parameter layout (R62). -/
def paramsGood (im : List Byte) : Bool :=
  (imageParams im).all fun p =>
    p.kind ≤ 3 && 1 ≤ p.size && p.off + p.size ≤ imParam im && p.align ≤ 12
      && (if p.kind = 1 || p.kind = 2 then p.size = 8 else p.off % 2 ^ p.align = 0)

/-- Check 11: an express Pattern. -/
def expressGood (im : List Byte) : Bool :=
  let ss := imageStages im
  !imExpress im || (imParam im ≤ 96 && imList im = 0
    && ((List.zip (List.range ss.length) ss).all fun p =>
        p.2.mkind = 0 && (if p.1 = 0 then p.2.mcount = 1 && p.2.edges.all (fun e => e.kind = 0) else p.2.edges.any fun e => e.kind ≠ 0)))

/-- The size of an instance's Match Array window, and whether a reference lies in it (R62). -/
def maSize (s : State) (i : Nat) : Nat := rFld s (Reg.INST_CUFF_MA_SIZE i) 18 0
def maRefGood (s : State) (i : Nat) (r : Nat × Nat) : Bool := 1 ≤ r.2 && r.1 + r.2 ≤ maSize s i

/-- Bytes of the copied tables of an image (R48). -/
def tableBytesOf (im : List Byte) : Nat :=
  64 + 16 * (sectsOf im).length + 32 * imStages im + 16 * imTempl im + 8 * (imageMaRefs im).length + 8 * (imageParams im).length

/-- The Pattern slots in use: RESIDENT and RETIRING ones, over all instances (R45). -/
def residentCount (s : State) : Nat := (s.pat.slots.filter fun p => p.2.state ≠ .loading).length
def residentBytes (s : State) : Nat := s.pat.slots.foldl (fun n p => n + p.2.tableBytes) 0

/-- Checks 1 to 3 of Table 3.9, which the header decides: the first that fails with its status, or 0. `fits` says whether
the image lies inside its region. -/
def headCheck (i : Nat) (fits : Bool) (im : List Byte) : Nat × Nat :=
  let n := imLength im
  if numAt im 0 4 ≠ 0x54504C4D || fld (numAt im 4 4) 15 8 ≠ 1 then (stPattern, 1)
  else if n < 128 || 64 * 2 ^ 20 < n || n % 64 ≠ 0 || !fits then (stPattern, 2)
  else if fld (numAt im 0x10 4) 10 0 ≠ i then (stPattern, 3)
  else (stOK, 0)

/-- Checks 1 to 13 of Table 3.9 in order: the first that fails with its status, or 0. -/
def loadCheck (s : State) (i : Nat) (fits : Bool) (im : List Byte) : Nat × Nat :=
  let n := imLength im
  let crc := crc32c (splice (im.take n) 0x0C (toBytes 4 0))
  if (headCheck i fits im).1 ≠ stOK then headCheck i fits im
  else if numAt im 0x0C 4 ≠ crc then (stPattern, 4)
  else if !dirGood im then (stPattern, 5)
  else if !stagesGood im then (stPattern, 6)
  else if imList im < (listParts (imageStages im) ((imageStages im).map (·.mcount))).2 then (stPattern, 7)
  else if !templsGood im then (stPattern, 8)
  else if !progsGood im then (stPattern, 9)
  else if !paramsGood im then (stPattern, 10)
  else if !expressGood im then (stPattern, 11)
  else if !((imageMaRefs im).all (maRefGood s i)) then (stQuota, 12)
  else if 4096 ≤ residentCount s || 16 * 2 ^ 20 < residentBytes s + tableBytesOf im then (stQuota, 13)
  else (stOK, 0)

/-- The slot that a good image fills. -/
def slotFrom (a : Nat) (im : List Byte) : PatSlot :=
  let ss := sectsOf im
  { state := .resident, addr := a, express := imExpress im, expPanel := fld (numAt im 0x10 4) 15 11, paramLen := imParam im,
    listLen := imList im, dfltDl := numAt im 0x24 4, stages := imageStages im, templates := imageTempls im,
    maRefs := imageMaRefs im, params := imageParams im,
    constOff := ((sectOf ss 3).map (·.off)).getD 0, codeOff := ((sectOf ss 4).map (·.off)).getD 0,
    codeLen := ((sectOf ss 4).map (·.size)).getD 0, predOff := ((sectOf ss 5).map (·.off)).getD 0,
    npred := ((sectOf ss 5).map (·.count)).getD 0, tableBytes := tableBytesOf im }

/-! ### LOAD and RETIRE (R46, R47, R49, R63) -/

def patCmdOf (s : State) (i : Nat) : PatCmd := kGet {} s.pat.cmds i
def setPatCmd (i : Nat) (x : PatCmd) (s : State) : State := { s with pat := { s.pat with cmds := kSet s.pat.cmds i x } }
def setSlot (i k : Nat) (x : PatSlot) (s : State) : State := { s with pat := { s.pat with slots := kSet s.pat.slots (i * 64 + k) x } }
def delSlot (i k : Nat) (s : State) : State := { s with pat := { s.pat with slots := kDel s.pat.slots (i * 64 + k) } }

/-- The slot and the image address that the INST_PAT registers name. -/
def patSlotSel (s : State) (i : Nat) : Nat := rFld s (Reg.INST_PAT_SLOT i) 5 0
def patAddr (s : State) (i : Nat) : Nat := rGet s (Reg.INST_PAT_ADDR_LO i) + 2 ^ 32 * rFld s (Reg.INST_PAT_ADDR_HI i) 15 0

/-- A command finishes: RESULT, DETAIL, BUSY clear, and DONE pulses. -/
def patDone (i st detail : Nat) (s : State) : State :=
  pulse (Reg.INST_PAT_PAGE i) 0 (setPatCmd i { patCmdOf s i with busy := false, result := st, detail := detail } s)

/-- LOAD: the slot goes from EMPTY to LOADING, or the command is refused (R47). -/
def loadEff (i : Nat) (s : State) : State :=
  let pg := Reg.INST_PAT_PAGE i
  let k := patSlotSel s i
  if !working s then s
  else if (patCmdOf s i).busy then recErr pg 1 0 s
  else if stagePending s pg then recErr pg 3 0 s
  else if (slotOf s i k).isSome then recErr pg 2 0 s
  else setSlot i k { state := .loading, addr := patAddr s i } (setPatCmd i { busy := true, slot := k } s)

def execPatternLoad (w : Writer) (inst : Nat) (s : State) : Host.Outcome State Fault Refusal :=
  .next (acceptWrite w (Reg.INST_PAT_CMD inst) (loadEff inst) s)

/-- The image read finishes: the region is judged ahead of check 1, then the checks run in order, those of the header
before the rest of the image is read (R50, R63). -/
def loadDoneX (i : Nat) (s : State) : State :=
  let cmd := patCmdOf s i
  if !cmd.busy || !working s then s else
  match slotOf s i cmd.slot with
  | none => s
  | some sl =>
    if sl.state ≠ .loading then s else
    let fail := fun (st detail : Nat) (s : State) => patDone i st detail (delSlot i cmd.slot s)
    let t := tlbCollar (instPort s i)
    let (s, st, _, d) := translateTlb t i sl.addr false accLoad s
    if st = stXlate then fail stPattern 2 s
    else if st ≠ stOK then fail st 0 s
    else
      let top := (sl.addr / 2 ^ 36) * 2 ^ 36 + (d.voff + d.len) * 65536
      let (s, st, hd) := vRead t i sl.addr 64 s
      if st ≠ stOK then fail st 0 s else
      let n := imLength hd
      let fits := sl.addr + n ≤ top
      let head := headCheck i fits hd
      if head.1 ≠ stOK then fail head.1 head.2 s
      else
        let (s, st, im) := vRead t i sl.addr n s
        if st ≠ stOK then fail st 0 s else
        let (st, k) := loadCheck s i fits im
        if st ≠ stOK then fail st k s
        else patDone i stOK 0 (setSlot i cmd.slot (slotFrom sl.addr im) s)

def execPatternLoadDone (inst : Nat) (s : State) : Host.Outcome State Fault Refusal := .next (loadDoneX inst s)

/-- RETIRE: the slot goes to RETIRING, and to EMPTY at once where no job names it (R46, R47). -/
def retireEff (i : Nat) (s : State) : State :=
  let pg := Reg.INST_PAT_PAGE i
  let k := patSlotSel s i
  if !working s then s
  else if (patCmdOf s i).busy then recErr pg 1 0 s
  else if stagePending s pg then recErr pg 3 0 s
  else match slotOf s i k with
    | none => recErr pg 2 0 s
    | some sl =>
      if sl.state ≠ .resident then recErr pg 2 0 s
      else
        let s := setPatCmd i { patCmdOf s i with slot := k } (setSlot i k { sl with state := .retiring } s)
        patDone i stOK 0 (settleSlot i k s)

def execRetire (w : Writer) (inst : Nat) (s : State) : Host.Outcome State Fault Refusal :=
  .next (acceptWrite w (Reg.INST_PAT_CMD inst) (retireEff inst) s)

/-! ### The Cuff (R72, R73, Table 3.11) -/

/-- The JOBS values of all instances but one, summed. -/
def jobsReserved (s : State) (but : Nat) : Nat :=
  (List.range numInst).foldl (fun n i => if i = but then n else n + rFld s (Reg.INST_CUFF_JOBS i) 14 0) 0

/-- A write of an INST_CUFF register at an offset of the page. -/
def cuffEff (i off : Nat) (v : W32) (s : State) : State :=
  let pg := Reg.INST_CUFF_PAGE i
  let x := v.toNat
  match off with
  | 0x40 => if x % 2 ^ 13 ≤ 4096 then stageBits (pg + 0x40) 0x1FFF x s else recErr pg 4 0 s
  | 0x44 =>
    let n := x % 2 ^ 17
    if n = 0 || (128 ≤ n && n ≤ 65536) then rSet (pg + 0x44) n s else recErr pg 1 0 s
  | 0x48 => if jobsReserved s i + x % 2 ^ 15 ≤ 16384 then rSet (pg + 0x48) (x % 2 ^ 15) s else recErr pg 2 0 s
  | 0x4C => if x % 2 ^ 9 ≤ 256 then rSet (pg + 0x4C) (x % 2 ^ 9) s else recErr pg 4 0 s
  | 0x58 => if x % 2 ^ 15 ≤ 16384 then rSet (pg + 0x58) (x % 2 ^ 15) s else recErr pg 4 0 s
  | _ => plainWrite (pg + off) x s

def execCuffWrite (w : Writer) (inst off : Nat) (v : W32) (s : State) : Host.Outcome State Fault Refusal :=
  .next (acceptWrite w (Reg.INST_CUFF_PAGE inst + off) (cuffEff inst off v) s)

end Sys2Proof.Machine
end

