-- ==== Sys2Proof/Machine/Rings.lean ====
section
/-! DEFINITION. The rings of an instance: tail doorbells and push slots, fetches, acceptance with the job start checks,
completions and their overflow, head doorbells, abort, and enabling rings (chapter 10). -/

namespace Sys2Proof.Machine

/-! ### Ring geometry (R212, R213) -/

/-- Entries of a job ring and of a completion ring, and their base addresses. -/
def jrSize (s : State) (i r : Nat) : Nat := 2 ^ rFld s (Reg.INST_JR_SIZE i r) 4 0
def crSize (s : State) (i c : Nat) : Nat := 2 ^ rFld s (Reg.INST_CR_SIZE i c) 4 0
def jrBase (s : State) (i r : Nat) : Nat := rGet s (Reg.INST_JR_BASE_LO i r) + 2 ^ 32 * rGet s (Reg.INST_JR_BASE_HI i r)
def crBase (s : State) (i c : Nat) : Nat := rGet s (Reg.INST_CR_BASE_LO i c) + 2 ^ 32 * rGet s (Reg.INST_CR_BASE_HI i c)
def jrEn (s : State) (i r : Nat) : Bool := rBit s (Reg.INST_JR_CTRL i r) 0
def crEn (s : State) (i c : Nat) : Bool := rBit s (Reg.INST_CR_CTRL i c) 0

/-- The phase a job ring expects `k` entries past its head. -/
def phaseAt (s : State) (i r k : Nat) : Bool :=
  let x := jrOf s i r
  if x.head + k < jrSize s i r then x.expect else !x.expect

/-- The bytes that the push slot of a ring gives for its pushed entry `k`; none where a byte has not been written. -/
def slotEntry (x : JobRing) (k : Nat) : Option (List Byte) :=
  let bs := (List.range 128).filterMap fun o => kFind x.slot (128 * k + o)
  if bs.length = 128 then some bs else none

/-- The phase of the entry at a ring's head: of the entry held there, of the push slot if pushed there, or of host memory
(R213). -/
def headPhase (s : State) (i r push : Nat) : Bool :=
  let x := jrOf s i r
  let inMem := bit ((hostBytes s (jrBase s i r + 128 * x.head) 1).headD 0).toNat 0
  match x.entries with
  | .pushed bs :: _ => bit (bs.headD 0).toNat 0
  | .fetched bs :: _ => bit (bs.headD 0).toNat 0
  | .unread :: _ => inMem
  | [] => if push ≠ 0 then (match kFind x.slot 0 with
      | some b => bit b.toNat 0
      | none => inMem) else inMem

/-- pending(jr, tail) of R213. -/
def jrPending (s : State) (i r tail push : Nat) : Nat :=
  let x := jrOf s i r
  let n := jrSize s i r
  if tail ≠ x.head then (tail + n - x.head) % n
  else if headPhase s i r push = x.expect then n else 0

/-! ### Tail doorbells and push slots (R220, R221) -/

/-- A byte write burst into a push slot. -/
def pushWrite (i r off : Nat) (v : W32) (s : State) : State :=
  let x := jrOf s i r
  setJr i r { x with slot := (List.zip (List.range 4) (toBytes 4 v.toNat)).foldl (fun m p => kSet m (off + p.1) p.2) x.slot } s

/-- A dropped doorbell (R221). Every tail doorbell ends the slot's present burst. -/
def dropBell (i r code : Nat) (s : State) : State :=
  let pg := Reg.INST_RING_PAGE i
  let s := setJr i r { jrOf s i r with slot := [] } s
  pulse pg 1 (recErr pg code 0 (bump (Reg.INST_DB_DROP i) 1 s))

/-- A persistent parity error in the Collar's ring state is fatal, cause 4 (Table 16.7). -/
def ringFatal (i : Nat) (s : State) : State := fatalErr (Reg.INST_RING_PAGE i) 4 s

/-- A tail doorbell: the added entries join the ring, or the doorbell is dropped (R220, R221). -/
def tailBell (i r : Nat) (v : W32) (s : State) : State :=
  let x := jrOf s i r
  let tail := fld v.toNat 15 0
  let push := fld v.toNat 17 16
  let n := jrSize s i r
  let have_ := x.entries.length
  let added := jrPending s i r tail push - have_
  let pushed := (List.range push).map fun k => slotEntry x k
  if s.dev.mode ≠ .service || halted s then dropBell i r 5 s
  else if !hasFunction s i then dropBell i r 8 s
  else if x.bad then ringFatal i s
  else if !jrEn s i r || n ≤ tail || jrPending s i r tail push < have_ then dropBell i r 1 s
  else if push = 3 || added < push then dropBell i r 3 s
  else if pushed.any (·.isNone) then dropBell i r 2 s
  else if (List.zip (List.range push) pushed).any fun p =>
      bit ((p.2.getD []).headD 0).toNat 0 ≠ phaseAt s i r (have_ + p.1) then dropBell i r 7 s
  else
    setJr i r { x with tail := tail, slot := [], failed := false, judged := if tail = x.head && push = 0 then added else 0,
                       entries := x.entries ++ (pushed.map fun b => RingEntry.pushed (b.getD [])) ++ List.replicate (added - push) .unread } s

/-- The address of INST_JR_TAIL of a ring (Table 10.13). -/
def tailAddr (i r : Nat) : Nat := instBase i + 0x1000 + 0x1000 * (r / 4) + 0x300 + 0x200 * (r % 4)

def execTailDoorbell (w : Writer) (inst ring : Nat) (v : W32) (s : State) : Host.Outcome State Fault Refusal :=
  .next (acceptWrite w (tailAddr inst ring) (tailBell inst ring v) s)

/-- A fetch completes: up to 8 entries not yet read come in (R222). -/
def fetchX (i r : Nat) (s : State) : State :=
  let x := jrOf s i r
  let n := jrSize s i r
  let k := x.entries.findIdx (· == .unread)
  let run := ((x.entries.drop k).takeWhile (· == .unread)).length
  let idx := (x.head + k) % n
  let m := min (min run 8) (n - idx)
  if m = 0 || halted s || !jrEn s i r || x.failed then s else
  match hostRead s i (jrBase s i r + 128 * idx) (128 * m) with
  | none => s
  | some bs =>
    let got := (List.range m).map fun j => RingEntry.fetched (slice bs (128 * j) 128)
    setJr i r { x with entries := x.entries.take k ++ got ++ x.entries.drop (k + m) } s

def execFetchComplete (inst ring : Nat) (s : State) : Host.Outcome State Fault Refusal := .next (fetchX inst ring s)

/-! ### Fragment tables (R218, R219) -/

/-- A fragment entry's fields. -/
def fragOf (bs : List Byte) : Frag :=
  let w := numAt bs 0x0C 4
  { addr := numAt bs 0 8, len := numAt bs 8 4, kind := fld w 3 0, lhost := bit w 4, group := fld w 15 8 }

/-- Whether one entry of a table of `n` breaks check 4. -/
def fragBad (n : Nat) (p : Nat × Frag) : Bool :=
  let f := p.2
  !(f.kind ≤ 3 || f.kind = 15) || f.len = 0 || (f.kind = 15 && (p.1 + 1 ≠ n || 4096 < f.len))
    || ((f.kind = 0 || f.kind = 2 || (f.kind = 15 && !f.lhost)) && 2 ^ 48 ≤ f.addr)

/-- Reads a job's chain of tables: the fragments, links left out, or the status of check 4. `fuel` is one more than the
tables a chain may hold; `lost` says that a host read of a table fails (R333). -/
def readFrags (i : Nat) (lost : Bool) : Nat → Bool → Nat → Nat → List Frag → State → State × Nat × List Frag
  | 0, _, _, _, acc, s => (s, stFragment, acc)
  | fuel + 1, host, addr, n, acc, s =>
    let (s, st, bs) := if host then (match if lost then none else hostRead s i addr (16 * n) with
        | some bs => (s, stOK, bs)
        | none => (s, stFragment, []))
      else vRead (tlbCollar (instPort s i)) i addr (16 * n) s
    if st ≠ stOK then (s, st, acc)
    else
      let fs := (List.range n).map fun k => fragOf (slice bs (16 * k) 16)
      if (List.zip (List.range n) fs).any (fragBad n) then (s, stFragment, acc)
      else
        let acc := acc ++ fs.filter fun f => f.kind ≠ 15
        if 1048576 < acc.length then (s, stFragment, acc)
        else match fs.getLast? with
          | some f => if f.kind = 15 then readFrags i lost fuel f.lhost f.addr f.len acc s else (s, stOK, acc)
          | none => (s, stOK, acc)

/-- The chain of a job record; a first table of more than 4,096 entries is malformed (R1, R218). -/
def jobFrags (x : JobRec) (s : State) : State × Nat × List Frag :=
  if x.nfrag = 0 then (s, stOK, [])
  else if 4096 < x.nfrag then (s, stFragment, [])
  else readFrags x.inst ((instOf s x.inst).fragFail.contains x.tag) 256 x.fragHost x.fragAddr x.nfrag [] s

/-! ### Job start (Table 3.10) -/

/-- Reads a stretch of a job's parameter area: from the entry for an express job, otherwise from its block. -/
def paramRead (x : JobRec) (o n : Nat) (s : State) : State × Nat × List Byte :=
  if x.kind = .express then (s, stOK, slice x.params o n)
  else vRead (tlbCollar (instPort s x.inst)) x.inst (x.paramAddr + o) n s

/-- Check 6 on one parameter field (R62). -/
def paramField (x : JobRec) (p : ParamField) (s : State) : State × Nat :=
  if p.kind = 0 || (p.kind = 2 && p.align = 0) then (s, stOK)
  else
    let (s, st, bs) := paramRead x p.off p.size s
    if st ≠ stOK then (s, st)
    else
      let v := ofBytes bs
      let bad := if p.kind = 3 then v = 0 else v % 2 ^ p.align ≠ 0 || (p.kind = 1 && 2 ^ 48 ≤ v)
      (s, if bad then stDescInvalid else stOK)

/-- The morsel counts of a job's stages (R55). -/
def morselCounts (x : JobRec) (stages : List Stage) (s : State) : State × Nat × List Nat :=
  stages.foldl (fun (r : State × Nat × List Nat) t =>
    if r.2.1 ≠ stOK then r
    else if t.mkind = 0 then (r.1, stOK, r.2.2 ++ [t.mcount])
    else
      let (s, st, bs) := paramRead x t.mcount 4 r.1
      (s, if st = stOK && ofBytes bs = 0 then stDescInvalid else st, r.2.2 ++ [ofBytes bs])) (s, stOK, [])

/-- The checks of R102 on a background job's segments and buffers; `fs` is its chain. -/
def backgroundCheck (x : JobRec) (fs : List Frag) (s : State) : State × Nat :=
  let t := tlbCollar (instPort s x.inst)
  let (s, st, pb) := vRead t x.inst x.paramAddr 16 s
  if st ≠ stOK then (s, st) else
  let cap := numAt pb 4 4
  let chk := fld (numAt pb 0 4) 2 1
  let r := (fs.filter fun f => f.kind = 0).foldl (fun (r : State × Nat × List SegHdr) f =>
    if r.2.1 ≠ stOK then r else
    let (s, st, hb) := vRead t x.inst f.addr 64 r.1
    if st ≠ stOK then (s, st, r.2.2)
    else if !hdrGood hb then (s, stCodec, r.2.2) else (s, stOK, r.2.2 ++ [hdrFields hb])) (s, stOK, [])
  let hs := r.2.2
  let same := hs.all fun h => 1 ≤ h.check && (match hs.head? with
    | some g => h.type = g.type && h.scale = g.scale && h.dict = g.dict
    | none => true)
  if r.2.1 ≠ stOK then (r.1, r.2.1)
  else if !same || chk = 0 || cap < 65536 || 1048576 < cap || fs.any (fun f => f.kind = 1 || f.kind = 3)
      || (fs.any fun f => f.kind = 2 && f.len < cap) then (r.1, stDescInvalid)
  else (r.1, stOK)

/-- The checks of Table 3.10 from check 2 onward: the morsel counts and the output fragments, or a status and the check's
number. Check 3 judges the relative deadline in use, an entry's or DFLT_DL (R1, R67). -/
def startChecks (x : JobRec) (inLen outLen relDl : Nat) (s : State) : State × (List Nat × List Frag ⊕ (Nat × Nat)) :=
  let bg := x.kind = .background
  let sl := slotOf s x.inst x.slot
  let slot : PatSlot := sl.getD ⟨.resident, 0, false, 0, 0, 0, 0, [], [], [], [], 0, 0, 0, 0, 0, 0⟩
  let resident := match sl with
    | some q => q.state = .resident && (x.kind ≠ .express || q.express)
    | none => false
  if !bg && !resident then (s, .inr (stPattern, 2))
  else if (x.kind = .run && 2 ^ 30 < (if relDl ≠ 0 then relDl else slot.dfltDl))
      || (x.kind = .run && x.paramLen < slot.paramLen + slot.listLen) || (bg && x.paramLen < 16) then (s, .inr (stDescInvalid, 3))
  else
    let (s, st, fs) := jobFrags x s
    if st ≠ stOK then (s, .inr (st, 4)) else
    let outs := fs.filter fun f => f.kind = 2 || f.kind = 3
    let sum := fun (a b : Nat) => fs.foldl (fun n f => if f.kind = a || f.kind = b then n + f.len else n) 0
    if sum 0 1 ≠ inLen || sum 2 3 ≠ outLen then (s, .inr (stLength, 5))
    else if bg then
      let (s, st) := backgroundCheck x fs s
      if st ≠ stOK then (s, .inr (st, 6))
      else if rFld s (Reg.INST_CUFF_SLOTS x.inst) 16 0 < 128 then (s, .inr (stQuota, 7))
      else (s, .inl (builtinSlot.stages.map (·.mcount), outs))
    else
      let (s, st) := slot.params.foldl (fun (r : State × Nat) p => if r.2 ≠ stOK then r else paramField x p r.1) (s, stOK)
      if st ≠ stOK then (s, .inr (st, 6)) else
      let (s, st, counts) := morselCounts x slot.stages s
      if st ≠ stOK then (s, .inr (st, 6))
      else if !countsGood slot.stages counts (fun _ => true) then (s, .inr (stDescInvalid, 6))
      else if !(slot.maRefs.all (maRefGood s x.inst)) || rFld s (Reg.INST_CUFF_SLOTS x.inst) 16 0 < 128 then (s, .inr (stQuota, 7))
      else (s, .inl (counts, outs))

/-! ### Acceptance (R215 to R217, R222 to R224) -/

/-- Whether a tag is in use in an instance (R217); tags of an older generation are until its reset ends (R234). -/
def tagUsed (s : State) (i tag : Nat) : Bool :=
  (instOf s i).oldTags.contains tag || ((instJobs s i).any fun p => p.2.tag = tag && !p.2.formed && p.2.gen = (instOf s i).gen)
    || ((instOf s i).compl.any fun c => c.tag = tag && c.usesTag)
    || ((List.range 4).any fun c => (crOf s i c).tags.contains tag)

/-- The tags in use in an instance, which a reset keeps in use until it ends (R234). -/
def tagsInUse (s : State) (i : Nat) : List Nat :=
  (instOf s i).oldTags ++ ((instJobs s i).filter fun p => !p.2.formed).map (·.2.tag)
    ++ ((instOf s i).compl.filter (·.usesTag)).map (·.tag) ++ (List.range 4).flatMap fun c => (crOf s i c).tags

/-- Writes a job ring's shadow word (R224). -/
def writeShadow (i r : Nat) (s : State) : State :=
  let x := jrOf s i r
  let a := rGet s (Reg.INST_JR_SHADOW_LO i r) + 2 ^ 32 * rGet s (Reg.INST_JR_SHADOW_HI i r)
  hostWrite i a (toBytes 8 (x.head + 2 ^ 16 * b2n x.expect + 2 ^ 24 * (instOf s i).gen + 2 ^ 32 * (x.accepted % 2 ^ 32))) s

/-- A completion of an entry that takes no job record (R223). -/
def entryCompl (i r : Nat) (bs : List Byte) (st detail : Nat) (uses : Bool) (s : State) : State :=
  let w := numAt bs 0 4
  let c : Compl :=
    { ring := r, cr := rFld s (Reg.INST_JR_CTRL i r) 2 1, tag := fld w 31 16, status := st, gen := (instOf s i).gen,
      kind := fld w 2 1, detail := detail, serial := 0, rows := 0, bytes := 0, seam := s.seam.num, intr := bit w 3, job := none,
      inOvf := false, usesTag := uses }
  setInst i { instOf s i with compl := (instOf s i).compl ++ [c] } s

/-- The entry checks of Table 10.5: the DETAIL of the first that fails. -/
def entryCheck (s : State) (i : Nat) (pushed : Bool) (bs : List Byte) : Option Nat :=
  let w := numAt bs 0 4
  let k := fld w 2 1
  let nfrag := fld (numAt bs 0x14 4) 12 0
  let frag := numAt bs 0x18 8
  if k = 0 then some 0x81
  else if k = 2 && !pushed then some 0x82
  else if tagUsed s i (fld w 31 16) then some 0x83
  else if k ≠ 2 && (2 ^ 48 ≤ numAt bs 8 8 || (!bit w 4 && 2 ^ 48 ≤ frag) || (nfrag ≠ 0 && frag % 16 ≠ 0)) then some 0x84
  else if k = 3 && !(fld w 13 8 = 1 || fld w 13 8 = 2) then some 0x85
  else none

/-- The lowest free job record. -/
def freeJob (s : State) : Nat :=
  ((List.range (s.sched.jobs.length + 1)).find? fun j => (jobOf s j).isNone).getD s.sched.jobs.length

/-- The job record that an entry takes (Table 10.2; an express entry carries its 96 bytes of parameters, R216). -/
def jobFrom (s : State) (i r : Nat) (bs : List Byte) : JobRec :=
  let w := numAt bs 0 4
  let k := fld w 2 1
  let express := k = 2
  let slot := fld w 13 8
  let rel := numAt bs 4 4
  let dl := if rel ≠ 0 then rel else ((slotOf s i slot).map (·.dfltDl)).getD 0
  { inst := i, ring := r, kind := if k = 1 then .run else if k = 2 then .express else .background, kindBits := k, intr := bit w 3,
    tag := fld w 31 16, gen := (instOf s i).gen, serial := s.sched.serial, slot := slot,
    deadline := if k = 1 && dl ≠ 0 then some (s.seam.num + dl) else none,
    paramAddr := if express then 0 else numAt bs 8 8, paramLen := if express then 96 else numAt bs 0x10 4, fragHost := bit w 4,
    nfrag := if express then 0 else fld (numAt bs 0x14 4) 12 0, fragAddr := if express then 0 else numAt bs 0x18 8,
    params := if express then slice bs 0x20 96 else [] }

/-- The reads of an entry's fragment tables are over. -/
def fragsRead (i tag : Nat) (s : State) : State :=
  if (instOf s i).fragFail.contains tag then setInst i { instOf s i with fragFail := (instOf s i).fragFail.filter (· ≠ tag) } s
  else s

/-- A checked entry takes a job record and starts, or completes at once (R64, R66, R223). The record is taken up after its
checks, so that a check's own status stands; an express job's tasks are created at once (R29). -/
def startJob (i r : Nat) (bs : List Byte) (s : State) : State :=
  if rFld s (Reg.INST_CUFF_JOBS i) 14 0 ≤ (instJobs s i).length || 16384 ≤ s.sched.jobs.length then
    entryCompl i r bs stQuota 1 true s
  else
    let j := freeJob s
    let x := jobFrom s i r bs
    let s := { s with sched := { s.sched with serial := (s.sched.serial + 1) % 65536 } }
    let io := if x.kind = .express then (0, 0) else (numAt bs 0x20 8, numAt bs 0x28 8)
    match startChecks x io.1 io.2 (numAt bs 4 4) s with
    | (s, .inr (st, detail)) => endJobIn s.seam.num j st detail (setJob j x (fragsRead i x.tag s))
    | (s, .inl (counts, outs)) =>
      let s := setJob j { x with counts := counts, created := counts.map fun _ => [], outs := outs } (fragsRead i x.tag s)
      if x.kind = .express then createAll j s else s

/-- The next entry of a ring is accepted (R222, R223). -/
def acceptX (i r : Nat) (s : State) : State :=
  let x := jrOf s i r
  let modeOk := s.dev.mode = .service || s.dev.mode = .drain
  if !modeOk || halted s || ovfFull s i || !jrEn s i r then s else
  if x.bad then ringFatal i s else
  let take := fun (pushed : Bool) (bs : List Byte) =>
    let wrap := x.head + 1 = jrSize s i r
    let s := setJr i r { x with head := if wrap then 0 else x.head + 1, expect := if wrap then !x.expect else x.expect,
                                entries := x.entries.drop 1, accepted := x.accepted + 1 } s
    let s := writeShadow i r (bump (Reg.INST_JOBS_ACCEPTED i) 1 s)
    if s.xl.stopped.contains i then entryCompl i r bs stWalkDevice 0 (!tagUsed s i (fld (numAt bs 0 4) 31 16)) s else
    match entryCheck s i pushed bs with
    | some d => entryCompl i r bs stDescInvalid d (d ≠ 0x83) s
    | none => startJob i r bs s
  match x.entries with
  | .pushed bs :: _ => take true bs
  | .fetched bs :: _ => take false bs
  | _ => s

def execEntryAccept (inst ring : Nat) (s : State) : Host.Outcome State Fault Refusal := .next (acceptX inst ring s)

/-! ### Completions (R225 to R231, R235) -/

/-- The level of CQ_FULL follows the overflow. -/
def ovfLevel (i : Nat) (s : State) : State := level (Reg.INST_RING_PAGE i) 0 (ovfFull s i) s

/-- The bytes of a completion entry (Tables 10.7 and 10.8). -/
def complBytes (compat phase : Bool) (c : Compl) : List Byte :=
  if compat then
    toBytes 4 (c.tag + 2 ^ 16 * c.status + 2 ^ 31 * b2n phase) ++ toBytes 4 (min c.rows 0xFFFFFFFF)
      ++ toBytes 4 (min c.bytes 0xFFFFFFFF) ++ toBytes 4 c.seam
  else
    toBytes 4 (c.tag + 2 ^ 16 * c.status + 2 ^ 24 * c.gen)
      ++ toBytes 4 (b2n phase + 2 * c.ring + 2 ^ 4 * c.kind + 2 ^ 8 * c.detail + 2 ^ 16 * c.serial)
      ++ toBytes 8 c.rows ++ toBytes 8 c.bytes ++ toBytes 8 c.seam

/-- The ring's message, sent now (R235). -/
def crMessage (i c : Nat) (s : State) : State :=
  sendMsix i (rFld s (Reg.INST_CR_CTRL i c) 8 1) (setCr i c { crOf s i c with since := 0 } s)

/-- Whether a completion's ring can take it. -/
def hasRoom (s : State) (i : Nat) (c : Compl) : Bool := crEn s i c.cr && 0 < (crOf s i c.cr).free

/-- Writes one completion into its ring; its message follows at once, or under moderation. -/
def writeCompl (i : Nat) (c : Compl) (s : State) : State :=
  let x := crOf s i c.cr
  let compat := pageCompat s (Reg.INST_RING_PAGE i)
  let bs := complBytes compat x.phase c
  let s := hostWrite i (crBase s i c.cr + bs.length * x.tail) bs s
  let wrap := x.tail + 1 = crSize s i c.cr
  let y := { x with tail := if wrap then 0 else x.tail + 1, phase := if wrap then !x.phase else x.phase, free := x.free - 1,
                    tags := x.tags ++ [if c.usesTag then c.tag else 0x10000], since := x.since + 1,
                    firstAt := if x.since = 0 then s.now else x.firstAt }
  let s := bump (Reg.INST_JOBS_COMPLETED i) 1 (setCr i c.cr y s)
  let cnt := rFld s (Reg.INST_CR_MOD i c.cr) 7 0
  if c.intr || cnt ≤ y.since then crMessage i c.cr s else s

/-- A job record is freed when its completion is handed to the Collar (R64). -/
def handOver (c : Compl) (s : State) : State :=
  match c.job with
  | some j => delJob j s
  | none => s

/-- The Collar's next work on an instance's completions: the first whose ring has room is written, among those of the
overflow while it is full; otherwise the first that waits outside enters the overflow (R231). -/
def completionX (i : Nat) (s : State) : State :=
  if !working s then s else
  let x := instOf s i
  let full := ovfFull s i
  match x.compl.find? fun c => hasRoom s i c && (c.inOvf || !full) with
  | some c => ovfLevel i (writeCompl i c (handOver c (setInst i { x with compl := x.compl.erase c } s)))
  | none =>
    match x.compl.find? fun c => !c.inOvf with
    | some c =>
      if full then s else
      let c' := { c with inOvf := true, job := none }
      let cs := (x.compl.takeWhile fun d => d ≠ c) ++ [c'] ++ (x.compl.drop (x.compl.findIdx (· == c) + 1))
      ovfLevel i (handOver c (setInst i { x with compl := cs } s))
    | none => s

def execCompletionWrite (inst : Nat) (s : State) : Host.Outcome State Fault Refusal := .next (completionX inst s)

/-- The moderation timer of a completion ring: TIME × 100 ns, 160 fabric cycles each (R235). -/
def moderationX (i c : Nat) (s : State) : State :=
  let t := rFld s (Reg.INST_CR_MOD i c) 23 8
  if t ≠ 0 && (crOf s i c).since ≠ 0 && (crOf s i c).firstAt + 160 * t ≤ s.now && working s then crMessage i c s else s

def execModerationTimer (inst cr : Nat) (s : State) : Host.Outcome State Fault Refusal := .next (moderationX inst cr s)

/-- releasable() of R213: the free entries that a head doorbell leaves. -/
def releasable (n tail : Nat) (phase : Bool) (head : Nat) (expect : Bool) : Nat :=
  if head ≠ tail then n - (tail + n - head) % n
  else if expect = !phase then 0 else n

/-- A head doorbell (R229). -/
def headBell (i c : Nat) (v : W32) (s : State) : State :=
  let head := fld v.toNat 15 0
  let n := crSize s i c
  if n ≤ head then recErr (Reg.INST_RING_PAGE i) 6 0 s
  else
    let x := crOf s i c
    let free := releasable n x.tail x.phase head (bit v.toNat 16)
    rSet (Reg.INST_CR_HEAD i c) (v.toNat % 2 ^ 17)
      (setCr i c { x with free := free, tags := x.tags.drop (x.tags.length - (n - free)) } s)

def execHeadDoorbell (w : Writer) (inst cr : Nat) (v : W32) (s : State) : Host.Outcome State Fault Refusal :=
  .next (acceptWrite w (Reg.INST_CR_HEAD inst cr) (headBell inst cr v) s)

/-! ### Abort (R232, R233) -/

/-- Whether a task's failing end fixed a job's status in this fabric cycle, its completion not handed over (R233). -/
def failedNow (s : State) (x : JobRec) : Bool := x.failedAt = some s.now && x.status.isSome

/-- An abort wins over a task end with a failing status of the same cycle (R233). -/
def abortOver (i j : Nat) (x : JobRec) (s : State) : State :=
  let mine := fun (c : Compl) => if c.job = some j then { c with status := stAborted, detail := 0 } else c
  setInst i { instOf s i with compl := (instOf s i).compl.map mine } (setJob j { x with status := some stAborted, detail := 0 } s)

/-- A write of INST_ABORT decides the result for the job that holds the tag. -/
def abortEff (i : Nat) (v : W32) (s : State) : State :=
  let tag := fld v.toNat 15 0
  let done := fun (res : Nat) (s : State) => setInst i { instOf s i with abortTag := tag, abortRes := res } s
  match (instJobs s i).find? fun p => p.2.tag = tag && p.2.gen = (instOf s i).gen && p.2.status.isNone && !p.2.formed with
  | some (j, _) => if halted s then done 1 s else endJob j stAborted (done 1 s)
  | none =>
    match (instJobs s i).find? fun p => p.2.tag = tag && p.2.gen = (instOf s i).gen && failedNow s p.2 with
    | some (j, x) => if halted s then done 2 s else done 1 (abortOver i j x s)
    | none => done (if tagUsed s i tag then 2 else 3) s

def execAbort (w : Writer) (inst : Nat) (v : W32) (s : State) : Host.Outcome State Fault Refusal :=
  .next (acceptWrite w (Reg.INST_ABORT inst) (abortEff inst v) s)

/-- The word of INST_ABORT_RESULT. -/
def abortWord (s : State) (i : Nat) : Nat := (instOf s i).abortTag + 2 ^ 16 * (instOf s i).abortRes

/-- A read of INST_ABORT_RESULT by function 0 or I3C, through the aperture of its path, or by the instance's own VF. -/
def execAbortResultRead (p : Path) (inst : Nat) (s : State) : Host.Outcome State Fault Refusal :=
  let a := Reg.INST_ABORT_RESULT inst
  .next (if !dead s && (reaches s p 0 a || reaches s p inst a) then
      emit (.word (BitVec.ofNat 32 (abortWord s inst))) s else s)

/-! ### Enabling rings (R236) -/

/-- A write of INST_JR_CTRL: CQ is staged; setting EN starts the ring at lap 0 and writes its shadow word, clearing it
ends its unaccepted entries. The push slot's bytes stay as written since the last tail doorbell (R221). -/
def jrCtrlEff (i r : Nat) (v : W32) (s : State) : State :=
  let a := Reg.INST_JR_CTRL i r
  let was := jrEn s i r
  let s := stageBits a 6 v.toNat s
  let s := rSetFld a 0 0 (b2n (bit v.toNat 0)) s
  if bit v.toNat 0 && !was then writeShadow i r (setJr i r { slot := (jrOf s i r).slot } s)
  else if !bit v.toNat 0 && was then setJr i r { jrOf s i r with entries := [] } s
  else s

/-- A write of INST_CR_CTRL: setting EN starts the ring at lap 0 and releases every entry of it. A VEC outside the
instance's vectors is ignored. -/
def crCtrlEff (i c : Nat) (v : W32) (s : State) : State :=
  let a := Reg.INST_CR_CTRL i c
  let was := crEn s i c
  let vec := fld v.toNat 8 1
  let s := if vec < numVec i then rSetFld a 8 1 vec s else recErr (Reg.INST_RING_PAGE i) 4 0 s
  let s := rSetFld a 0 0 (b2n (bit v.toNat 0)) s
  if bit v.toNat 0 && !was then
    rSet (Reg.INST_CR_HEAD i c) 0x10000 (setCr i c { free := crSize s i c } s)
  else s

/-- A write of a ring's control register. -/
def ringCtrlEff (i : Nat) (isCr : Bool) (k : Nat) (v : W32) (s : State) : State :=
  if isCr then crCtrlEff i k v s else jrCtrlEff i k v s

def ringCtrlAddr (i : Nat) (isCr : Bool) (k : Nat) : Nat := if isCr then Reg.INST_CR_CTRL i k else Reg.INST_JR_CTRL i k

def execRingEnable (w : Writer) (inst : Nat) (isCr : Bool) (idx : Nat) (v : W32) (s : State) : Host.Outcome State Fault Refusal :=
  .next (acceptWrite w (ringCtrlAddr inst isCr idx) (ringCtrlEff inst isCr idx v) s)

def execRingDisable (w : Writer) (inst : Nat) (isCr : Bool) (idx : Nat) (v : W32) (s : State) : Host.Outcome State Fault Refusal :=
  .next (acceptWrite w (ringCtrlAddr inst isCr idx) (ringCtrlEff inst isCr idx v) s)

end Sys2Proof.Machine
end

