-- ==== Sys2Proof/Machine/Background.lean ====
section
/-! DEFINITION. The background jobs COMPACT and REENCODE (R68, R102, R103). The built-in Pattern's two tasks
are created and dispatched like any others, and their work is one event; it encodes with the first Pack Unit of the Panel
whose Pocket runs the task that encodes. -/

namespace Sys2Proof.Machine

/-- What a background job has written so far. -/
structure BgOut where
  /-- Output buffers not yet used, and the segment being written. -/
  outs : List Frag
  cur  : Option PackCtx
  rows : Nat
  bytes : Nat
  /-- The buffers ran out, or an access failed with a status. -/
  short : Bool
  fail : Nat
  deriving DecidableEq, Repr

/-- The command that stands for a background job's accesses: no windows, the job's instance. -/
def bgCmd (j : Nat) (x : JobRec) : UnitCmd :=
  { block := 0, bytes := [], task := 0, pocket := 0, inst := x.inst, job := j, serial := x.serial, stage := 0, morsel := 0, cls := 0, win6 := none, win7 := none }

/-- The Pack Unit a background job encodes with: one of the Panel whose Pocket runs the task that encodes. -/
def bgUnit (s : State) (j : Nat) : Nat :=
  match (jobTasks s j).find? fun p => p.2.stage = 1 with
  | some (_, t) => 2 * (t.runPocket / 16)
  | none => 0

/-- Whether both tasks of a background job's built-in Pattern run (R68). -/
def bgRuns (s : State) (j : Nat) : Bool :=
  (jobTasks s j).length = 2 && (jobTasks s j).all fun p => p.2.state = .running

/-- A new output segment in the next buffer, of the kind of the inputs; none where the buffers ran out. -/
def bgOpen (s : State) (j : Nat) (x : JobRec) (pb : List Byte) (h : SegHdr) (nullable : Bool) (o : BgOut) : BgOut :=
  match o.outs with
  | [] => { o with short := true }
  | f :: r =>
    let y : PackCtx :=
        { task := 0, inst := x.inst, job := j, serial := x.serial, stage := 0, morsel := 0, seg := f.addr, type := h.type, check := fld (numAt pb 0 4) 2 1,
          hist := bit (numAt pb 0 4) 0, nullable := nullable, lhfmt := pageCompat s (Reg.PACK_PAGE (bgUnit s j)), scale := h.scale,
          dict := h.dict, cap := numAt pb 4 4, length := 64, values := 0, nulls := 0, tag := 0, range := none, blocks := [],
          prior := [], pend := [] }
    { o with outs := r, cur := some y }

/-- Closes the output segment being written, if it holds blocks. -/
def bgClose (u : Nat) (c : UnitCmd) (r : State × BgOut) : State × BgOut :=
  match r.2.cur with
  | none => r
  | some x =>
    if x.blocks = [] then r else
    let (s, st) := closeSeg u c x r.1
    if st ≠ stOK then (s, { r.2 with fail := st })
    else (s, { r.2 with cur := none, rows := r.2.rows + x.values, bytes := r.2.bytes + withDir x.length x.blocks.length })

/-- Commits the pending values of the segment being written as one block; a block that does not fit goes to a new
segment. -/
def bgBlock (fresh : BgOut → BgOut) (u : Nat) (c : UnitCmd) : Nat → State × BgOut → State × BgOut
  | 0, r => r
  | fuel + 1, r =>
    match r.2.cur with
    | none => r
    | some x =>
      if x.pend = [] || r.2.short || r.2.fail ≠ stOK then r else
      match packBlock u x r.1 with
      | (s, none) => (s, { r.2 with fail := stCodec })
      | (s, some (bs, vals, pred)) =>
        if 4096 ≤ x.blocks.length || x.cap < withDir (x.length + bs.length) (x.blocks.length + 1) then
          let (s, o) := bgClose u c (s, r.2)
          let o := fresh { o with cur := none }
          bgBlock fresh u c fuel (s, { o with cur := o.cur.map fun y => { y with pend := x.pend } })
        else
          let y := { x with nullable := x.nullable || x.pend.any (·.2), length := x.length + bs.length, values := x.values + x.pend.length,
                            nulls := x.nulls + (x.pend.filter (·.2)).length,
                            range := joinRange x.type x.range (minMax x.type (nonNulls x.pend)),
                            blocks := x.blocks ++ [x.length], prior := (vals.reverse ++ x.prior).take 16, pend := [] }
          let (s, st) := uWrite (packTlb u) c (x.seg + x.length) bs s
          if st ≠ stOK then (s, { r.2 with fail := st })
          else
            let (s, st) := uWrite (packTlb u) c x.seg (hdrBytes (ctxHdr y true y.length 0 1)) s
            if st ≠ stOK then (s, { r.2 with fail := st })
            else (countBlock u pred x.pend.length s, { r.2 with cur := some y })

/-- Adds values to the output, block by block. -/
def bgAdd (fresh : BgOut → BgOut) (u : Nat) (c : UnitCmd) (vs : List (Nat × Bool)) (r : State × BgOut) : State × BgOut :=
  (List.range (vs.length / 4096 + 2)).foldl (fun (q : (State × BgOut) × List (Nat × Bool)) _ =>
    let (r, vs) := q
    if vs = [] || r.2.short || r.2.fail ≠ stOK then (r, vs) else
    let o := if r.2.cur.isNone then fresh r.2 else r.2
    match o.cur with
    | none => ((r.1, o), vs)
    | some x =>
      let n := 4096 - x.pend.length
      let x := { x with pend := x.pend ++ vs.take n }
      let r := (r.1, { o with cur := some x })
      (if x.pend.length = 4096 then bgBlock fresh u c 2 r else r, vs.drop n)) (r, vs) |>.1

/-- Decodes a whole segment: its blocks in order. -/
def decodeSegment (u : Nat) (c : UnitCmd) (seg : Nat) (s : State) : State × Nat × SegHdr × List (Nat × Bool) :=
  let (s, st, hb) := uRead (packTlb u) c seg 64 s
  let h := hdrFields hb
  if st ≠ stOK then (s, st, h, [])
  else if !hdrGood hb then (s, stCodec, h, [])
  else
    let r := (List.range h.blocks).foldl (fun (r : State × Nat × Nat × Option (List Nat) × List (Nat × Bool)) _ =>
      let (s, st, off, prior, out) := r
      if st ≠ stOK then r else
      let (s, st, rb) := uRead (packTlb u) c (seg + off) 40 s
      if st ≠ stOK then (s, st, off, prior, out) else
      match restart rb with
      | none => (s, stCodec, off, prior, out)
      | some b =>
        let (s, st, bs) := uRead (packTlb u) c (seg + off) b.bytes s
        if st ≠ stOK then (s, st, off, prior, out) else
        match decodeBlock h prior bs with
        | none => (s, stCodec, off, prior, out)
        | some (_, vs) => (s, stOK, off + b.bytes, some ((vs.map (·.1)).reverse.take 16), out ++ vs)) (s, stOK, 64, none, [])
    (r.1, r.2.1, h, r.2.2.2.2)

/-- Values with those dropped that a deletion bitmap marks, from input value `k` on. -/
def dropDeleted (u : Nat) (c : UnitCmd) (del k : Nat) (vs : List (Nat × Bool)) (s : State) : State × Nat × List (Nat × Bool) :=
  if del = 0 || vs = [] then (s, stOK, vs) else
  let (s, st, bs) := uRead (packTlb u) c (del + k / 8) ((k + vs.length - 1) / 8 - k / 8 + 1) s
  (s, st, ((List.zip (List.range vs.length) vs).filter fun p => !bit ((bs.getD ((k + p.1) / 8 - k / 8) 0).toNat) ((k + p.1) % 8)).map (·.2))

/-- The tasks of a background job report their ends: the one that encodes with the job's status and counts (R69). -/
def bgEnd (j st rows bytes : Nat) (s : State) : State :=
  (jobTasks s j).foldl (fun s p =>
    if (taskOf s p.1).state ≠ .running then s
    else if p.2.stage = 1 then endTask p.2.runPocket p.1 st rows bytes s
    else endTask p.2.runPocket p.1 stOK 0 0 s) s

/-- A background job's whole work, once both its tasks run; `each` starts a new output at the end of every input (REENCODE). -/
def backgroundX (op : Nat) (each : Bool) (j : Nat) (s : State) : State :=
  match jobOf s j with
  | none => s
  | some x =>
    if !working s || x.kind ≠ .background || x.slot ≠ op || !bgRuns s j || x.status.isSome || x.formed then s else
    let u := bgUnit s j
    let c := bgCmd j x
    let (s, st, fs) := jobFrags x s
    if st ≠ stOK then bgEnd j st 0 0 s else
    let (s, st, pb) := uRead (packTlb u) c x.paramAddr 16 s
    if st ≠ stOK then bgEnd j st 0 0 s else
    let o : BgOut := { outs := fs.filter (·.kind = 2), cur := none, rows := 0, bytes := 0, short := false, fail := stOK }
    let r := (fs.filter fun f => f.kind = 0).foldl (fun (r : (State × BgOut) × Nat) f =>
      let ((s, o), k) := r
      if o.fail ≠ stOK || o.short then r else
      let (s, st, h, vs) := decodeSegment u c f.addr s
      if st ≠ stOK then ((s, { o with fail := st }), k) else
      let (s, st, keep) := dropDeleted u c (numAt pb 8 8) k vs s
      if st ≠ stOK then ((s, { o with fail := st }), k) else
      let fresh := bgOpen s j x pb h (h.nullable || keep.any (·.2))
      let r := bgAdd fresh u c keep (s, o)
      let r := if each then bgClose u c (bgBlock fresh u c 2 r) else r
      (r, k + vs.length)) ((s, o), 0)
    let (s, o) := bgClose u c (bgBlock (fun o => match o.outs with
        | [] => { o with short := true }
        | f :: q => { o with outs := q, cur := r.1.2.cur.map fun y =>
            { y with seg := f.addr, length := 64, values := 0, nulls := 0, range := none, blocks := [], prior := [] } }) u c 2 r.1)
    bgEnd j (if o.fail ≠ stOK then o.fail else if o.short then stPartial else stOK) o.rows o.bytes s

/-- COMPACT: decode the inputs, drop deleted values, pack the rest into as few segments as OUT_CAP allows (R102). -/
def execCompact (job : Nat) (s : State) : Host.Outcome State Fault Refusal := .next (backgroundX 1 false job s)

/-- REENCODE: as COMPACT, with a new output segment at the end of every input (R102). -/
def execReencode (job : Nat) (s : State) : Host.Outcome State Fault Refusal := .next (backgroundX 2 true job s)

end Sys2Proof.Machine
end

