-- ==== Sys2Proof/Machine/Bm.lean ====
section
/-! DEFINITION. The Bulk Mover: stream queues, descriptors, bursts and beats, pacing, and the channels' states (R274 to
R286). -/

namespace Sys2Proof.Machine

/-! ### Channels and their accesses (R276) -/

def chanOf (s : State) (c : Nat) : Chan := kGet {} s.bm.chans c
def setChan (c : Nat) (x : Chan) (s : State) : State := { s with bm := { s.bm with chans := kSet s.bm.chans c x } }

/-- Bursts of a channel in flight: reads not yet answered, and bursts some of whose beats are not yet answered (R279). -/
def inFlight (x : Chan) : Nat := x.bursts.length + (x.beats.map (·.burst)).eraseDups.length

/-- A channel's way into the mesh, through the Bulk Mover TLB. -/
def moverPort (c : Nat) : Nat := viaPort tlbBm c

/-- One read of a channel, in host memory or through its owner's Region Table. -/
def bmReadOne (c : Nat) (host : Bool) (a n : Nat) (s : State) : State × Nat × List Byte :=
  let i := bmOwner s c
  if host then
    match hostRead s i a n with
    | some bs => (meshHost (moverInit s c) (instPort s i) 0 a n stOK [] bs s, stOK, bs)
    | none => (s, stUncorrectable, [])
  else
    let (s, st, p) := translate (moverPort c) i a accRead s
    if st ≠ stOK then (s, st, []) else meshRead (moverInit s c) p n s

/-- Reads bytes for a channel, up to the first read that fails. -/
def bmRead (c : Nat) (host : Bool) (a n : Nat) (s : State) : State × Nat × List Byte :=
  (granules a n).foldl (fun (r : State × Nat × List Byte) p =>
    if r.2.1 ≠ stOK then r else
    let (s, st, bs) := bmReadOne c host p.1 p.2 r.1
    (s, st, r.2.2 ++ bs)) (s, stOK, [])

/-- A channel's writes of device memory, line by line up to the first that fails; those to Panel memories and scratchpads
are stream input (R183). -/
def streamWrite (c va : Nat) (bs : List Byte) (s : State) : State × Nat :=
  (pieces va bs.length).foldl (fun (r : State × Nat) p =>
    if r.2 ≠ stOK then r else
    let (s, st, a) := translate (moverPort c) (bmOwner s c) p.1 accWrite r.1
    if st ≠ stOK then (s, st) else
    let (s, st) := meshWrite (moverInit s c) a ((bs.drop (p.1 - va)).take p.2) s
    (countStream a s, st)) (s, stOK)

/-- Writes bytes for a channel, in host memory or through its owner's Region Table. -/
def bmWrite (c : Nat) (host : Bool) (a : Nat) (bs : List Byte) (s : State) : State × Nat :=
  let i := bmOwner s c
  if !host then streamWrite c a bs s
  else if hasFunction s i then
    (meshHost (moverInit s c) (instPort s i) 1 a bs.length stOK bs [] (hostWrite i a bs s), stOK)
  else (s, stUncorrectable)

/-- A stream queue header as read (Table 12.5). -/
structure QueueHdr where
  log  : Nat
  data : Nat
  wr   : Nat
  rd   : Nat
  /-- END_AT where END is set. -/
  end_ : Option Nat
  deriving DecidableEq, Repr

/-- Reads a stream queue header: none where its MAGIC or LOG2SZ is bad (R274, R278). -/
def readHeader (c : Nat) (host : Bool) (a : Nat) (s : State) : State × Nat × Option QueueHdr :=
  let (s, st, bs) := bmRead c host a 64 s
  let log := numAt bs 4 4 % 32
  let e := numAt bs 0x20 8
  if st ≠ stOK then (s, st, none)
  else if numAt bs 0 4 ≠ 0x53515545 || log < 12 || 28 < log then (s, stOK, none)
  else (s, stOK, some ⟨log, numAt bs 8 8, numAt bs 0x10 8, numAt bs 0x18 8, if bit e 63 then some (e % 2 ^ 63) else none⟩)

/-- The stretches that `n` bytes at position p of a ring of z bytes at `base` take; a z of 0 is no ring. -/
def ringSegs (base z p n : Nat) : List (Nat × Nat) :=
  if z = 0 then [(base + p, n)]
  else if p % z + n ≤ z then [(base + p % z, n)]
  else [(base + p % z, z - p % z), (base, n - (z - p % z))]

/-- Reads the stretches in order. -/
def readSegs (c : Nat) (host : Bool) : List (Nat × Nat) → State → State × Nat × List Byte
  | [], s => (s, stOK, [])
  | (a, n) :: r, s =>
    let (s, st, bs) := bmRead c host a n s
    if st ≠ stOK then (s, st, [])
    else
      let (s, st, cs) := readSegs c host r s
      (s, st, bs ++ cs)

/-! ### Descriptors (R277, R278) -/

/-- A descriptor's fields (Table 12.8). -/
def bmDescOf (bs : List Byte) : BmDesc :=
  let w0 := numAt bs 0 4
  let w1 := numAt bs 4 4
  { op := fld w0 3 0, shost := bit w0 4, squeue := bit w0 5, dhost := bit w0 6, dqueue := bit w0 7, swap := fld w0 10 8,
    endMark := bit w0 12, intr := bit w0 13, high := fld w1 15 0, low := fld w1 31 16, src := numAt bs 8 8,
    dst := numAt bs 0x10 8, len := numAt bs 0x18 8, clen := numAt bs 0x20 4 }

/-- Bytes of a SWAP unit (Table 12.9). -/
def swapUnit (w : Nat) : Nat :=
  match w with
  | 1 => 2
  | 2 => 4
  | 3 => 8
  | 4 => 4
  | 5 => 8
  | _ => 1

/-- The checks of R278 that need no memory. A LEN beyond its range counts as invalid (DEDUCED, notes/assumptions/41.md). -/
def descBad (d : BmDesc) : Bool :=
  d.op ≠ 1 || 6 ≤ d.swap || d.len % swapUnit d.swap ≠ 0 || (d.clen ≠ 0 && d.clen % swapUnit d.swap ≠ 0) ||
    (d.clen ≠ 0 && (d.clen % 128 ≠ 0 || d.clen < 256)) || (d.clen ≠ 0 && d.dqueue) || (d.len = 0 && !d.squeue) ||
    2 ^ 48 ≤ d.len || ((d.squeue || d.dqueue) && (d.high ≤ d.low || d.low < 1)) ||
    (!d.shost && 2 ^ 48 ≤ d.src) || (!d.dhost && 2 ^ 48 ≤ d.dst)

/-- Latches an interrupt flag of a channel (R282); the message that it sends is a posted packet to the owner's host port
(R263). -/
def bmFlag (c b : Nat) (s : State) : State :=
  let t := pulse (Reg.BM_CH_PAGE c) b s
  if t.out.length = s.out.length then t
  else meshMessage (moverInit t c) true (.host (instPort t (bmOwner t c))) 4 t

/-- The address of a channel's descriptor queue header. -/
def bmQueue (s : State) (c : Nat) : Nat := rGet s (Reg.BM_CH_QADDR_LO c) + 2 ^ 32 * rGet s (Reg.BM_CH_QADDR_HI c)

/-- A descriptor ends: its result words are written, `DONE` last, and its flags latch (R277, R282, R283). -/
def finishDesc (c : Nat) (d : BmDesc) (full : Bool) (s : State) : State :=
  let x := chanOf s c
  let s := if full && d.clen = 0 then bmFlag c 1 s else s
  let s := if x.status ≠ stOK then bmFlag c 3 s else s
  let w38 := x.status + 256 * x.outcome + 1024 * b2n x.late + 2 ^ 31
  let host := rBit s (Reg.BM_CH_CTRL c) 2
  let s := match x.daddr with
    | some a =>
      let s := (bmWrite c host (a + 0x28) (toBytes 8 x.moved ++ toBytes 8 x.beatAddr) s).1
      let s := (bmWrite c host (a + 0x38) (toBytes 8 w38) s).1
      (bmWrite c host (bmQueue s c + 0x18) (toBytes 8 (x.qRd + 64)) s).1
    | none =>
      setChan c { chanOf s c with results :=
        [BitVec.ofNat 32 x.moved, BitVec.ofNat 32 (x.moved / 2 ^ 32), BitVec.ofNat 32 x.beatAddr,
         BitVec.ofNat 32 (x.beatAddr / 2 ^ 32), BitVec.ofNat 32 w38, 0] } s
  let s := bump (Reg.BM_CH_DESCS c) 1 s
  let s := setChan c { chanOf s c with state := .idle, desc := none, daddr := none, lastStatus := x.status,
                                       lastLate := x.late, again := true } s
  if d.intr then bmFlag c 2 s else s

/-- A descriptor that fails at its start ends with a status and no data written (R278). -/
def failDesc (c st : Nat) (d : BmDesc) (s : State) : State :=
  let s := setChan c { chanOf s c with status := st } s
  let s := if st = stDescInvalid then recErr (Reg.BM_CH_PAGE c) 1 0 s else s
  finishDesc c d false s

/-- A side of a descriptor at its start: the header of a queue side, read and checked, and the translation of each device
address that the side begins with (R278). It answers a failing status, or the header. -/
def openSide (c : Nat) (queue host : Bool) (a : Nat) (acc : Acc) (s : State) : State × Nat × Option QueueHdr :=
  let at_ := fun (va : Nat) (acc : Acc) (s : State) =>
    if host then (s, stOK)
    else
      let r := translate (moverPort c) (bmOwner s c) va acc s
      (r.1, r.2.1)
  if !queue then
    let (s, st) := at_ a acc s
    (s, st, if st = stOK then some ⟨0, 0, 0, 0, none⟩ else none)
  else
    match readHeader c host a s with
    | (s, st, none) => (s, if st = stOK then stDescInvalid else st, none)
    | (s, _, some h) =>
      if !host && 2 ^ 48 ≤ h.data then (s, stDescInvalid, none) else
      let (s, st) := at_ a accWrite s
      if st ≠ stOK then (s, st, none) else
      let (s, st) := at_ h.data acc s
      (s, st, if st = stOK then some h else none)

/-- Starts a descriptor: its checks, the queue headers it names, the translation of both sides, and REMAIN (R278, R279). -/
def startDesc (c : Nat) (bs : List Byte) (daddr : Option Nat) (s : State) : State :=
  let d := bmDescOf bs
  let old := chanOf s c
  let x : Chan := { state := .run, desc := some d, daddr := daddr, remain := if d.len = 0 then 2 ^ 48 - 1 else d.len,
                    frameBytes := old.frameBytes, qRd := old.qRd, results := old.results, lastStatus := old.lastStatus, lastLate := old.lastLate }
  let s := setChan c x s
  if descBad d then failDesc c stDescInvalid d s else
  match openSide c d.squeue d.shost d.src accRead s with
  | (s, st, none) => failDesc c st d s
  | (s, _, some a) =>
    match openSide c d.dqueue d.dhost d.dst accWrite s with
    | (s, st, none) => failDesc c st d s
    | (s, _, some b) =>
      setChan c { x with rdBase := a.rd, wrBase := b.wr, sData := a.data, sLog := a.log, dData := b.data, dLog := b.log } s

/-! ### Starting: GO and polls (R276, R285) -/

/-- Whether a channel may start a descriptor: it is IDLE, its page is enabled and the device works (R370). -/
def mayStart (s : State) (c : Nat) : Bool :=
  clocked s && pageEn s (Reg.BM_CH_PAGE c) && (chanOf s c).state = .idle

/-- The words of the REG descriptor. -/
def regDesc (s : State) (c : Nat) : List Byte := (List.range 10).flatMap fun k => toBytes 4 (rGet s (Reg.BM_CH_DESC c k))

/-- A write of BM_CH_CMD (R285). -/
def bmGoEff (c v : Nat) (s : State) : State :=
  if !bit v 0 then s
  else if (chanOf s c).state ≠ .idle || rBit s (Reg.BM_CH_CTRL c) 1 || stagePending s (Reg.BM_CH_PAGE c) then
    recErr (Reg.BM_CH_PAGE c) 2 0 s
  else if mayStart s c then startDesc c (regDesc s c) none s
  else s

def execBmGo (w : Writer) (ch : Nat) (v : W32) (s : State) : Host.Outcome State Fault Refusal :=
  .next (acceptWrite w (Reg.BM_CH_CMD ch) (bmGoEff ch v.toNat) s)

/-- An IDLE channel in QUEUE mode reads its descriptor queue and starts a descriptor it finds; a read that fails leaves
it IDLE (R285, R333). -/
def pollQueue (c : Nat) (s : State) : State :=
  if !mayStart s c || !rBit s (Reg.BM_CH_CTRL c) 1 then s else
  let host := rBit s (Reg.BM_CH_CTRL c) 2
  let s := setChan c { chanOf s c with again := false } s
  let (s, st, h) := readHeader c host (bmQueue s c) s
  match h with
  | none => s
  | some h =>
    if st ≠ stOK || h.wr < h.rd + 64 then s else
    let a := h.data + h.rd % 2 ^ h.log
    let (s, st, bs) := bmRead c host a 64 s
    if st ≠ stOK then s else startDesc c bs (some a) (setChan c { chanOf s c with qRd := h.rd } s)

/-- BM_POLL (R285): POLL 0 leaves only the Seam reads and the read that follows a descriptor. -/
def bmPoll (c : Nat) (s : State) : State :=
  if rFld s (Reg.BM_CH_POLL c) 15 0 = 0 && !(chanOf s c).again then s else pollQueue c s

def execBmPoll (ch : Nat) (s : State) : Host.Outcome State Fault Refusal := .next (bmPoll ch s)

/-! ### The end of a descriptor (R279, R283) -/

/-- Whether the source stream has ended: every byte up to END_AT has been taken (R275). -/
def streamEnded (x : Chan) : Bool :=
  match x.endAt with
  | some e => e ≤ x.rdBase + x.taken
  | none => false

/-- An error before the count ran out: the first status is kept and no further burst is issued; a channel in RUN drains
(R283, R285). -/
def stopDesc (c st addr : Nat) (s : State) : State :=
  let x := chanOf s c
  let x := if x.status = stOK then { x with status := st, beatAddr := addr } else x
  setChan c { x with stopped := true, state := if x.state = .run then .draining else x.state } s

/-- A write of the descriptor is answered in error: its bytes are undefined, and it stops the descriptor or, once REMAIN is
0, is late (R283). -/
def writeError (c : Nat) (host : Bool) (addr n st : Nat) (s : State) : State :=
  let s := if host then makeHostUndef addr n s else undefVa (bmOwner s c) addr n s
  let x := chanOf s c
  if 0 < x.remain then stopDesc c st addr s
  else setChan c { x with late := true, status := stLateBeat, beatAddr := if x.beatAddr = 0 then addr else x.beatAddr } s

/-- Writes a word of a queue header, and takes its answer as one of a beat. -/
def writeMark (c : Nat) (host : Bool) (addr v : Nat) (s : State) : State :=
  let (s, st) := bmWrite c host addr (toBytes 8 v) s
  if st = stOK then s else writeError c host addr 8 st s

/-- Ends the descriptor once nothing is outstanding and REMAIN is 0, the source stream has ended, or an error stopped
it; END is written for one that did not fail (R275, R279, R283). -/
def settleDesc (c : Nat) (s : State) : State :=
  let x := chanOf s c
  match x.desc with
  | none => s
  | some d =>
    if !x.bursts.isEmpty || !x.beats.isEmpty || !(x.remain = 0 || x.stopped || streamEnded x) then s else
    let s := if d.dqueue && d.endMark && x.status = stOK then
        writeMark c d.dhost (d.dst + 0x20) (x.wrBase + x.front + 2 ^ 63) s else s
    let x := chanOf s c
    let out := if x.stopped then 2 else if x.remain ≠ 0 then 1 else 0
    let s := setChan c { chanOf s c with outcome := out } s
    let s := if x.late then recErr (Reg.BM_CH_PAGE c) 4 x.beatAddr s else s
    finishDesc c d (x.remain = 0) s

/-! ### Bursts (R279 to R281) -/

/-- A channel's view of its source stream's END: with LEN 0, REMAIN falls from END_AT less the bytes already taken. -/
def noteEnd (c : Nat) (d : BmDesc) (h : QueueHdr) (s : State) : State :=
  let x := chanOf s c
  match h.end_ with
  | none => s
  | some e =>
    if x.endAt.isSome then s
    else setChan c { x with endAt := some e, remain := if d.len = 0 then e - (x.rdBase + x.issued) else x.remain } s

/-- The available amount of a paced descriptor at a burst boundary (R280), bytes in flight counted as moved. -/
def available (x : Chan) (d : BmDesc) (src dst : QueueHdr) : Nat :=
  if d.dqueue then 2 ^ x.dLog - (x.wrBase + x.taken - dst.rd) else src.wr - (x.rdBase + x.taken)

/-- The available amount that a read of the headers shows (R280). -/
def shown (x : Chan) (d : BmDesc) (src dst : QueueHdr) : Nat :=
  if d.dqueue then 2 ^ x.dLog - (dst.wr - dst.rd) else src.wr - src.rd

/-- Whether the queue that paces a descriptor is at or below its pause mark. -/
def atLow (d : BmDesc) (av : Nat) : Bool := (d.dqueue || d.squeue) && av ≤ d.low * 4096

/-- Whether a channel issues bursts: in RUN, or PAUSED with its source stream's END seen, when only the rest is left
(DEDUCED, notes/assumptions/42.md). -/
def issues (x : Chan) : Bool := (x.state = .run || (x.state = .paused && x.drain)) && !x.stopped

/-- Bytes the next burst may take: up to 256, within LEN or the stream, the source's WR, what the frame's rate leaves beside
the bursts whose writes are still to come, and whole SWAP units. -/
def burstLen (s : State) (c : Nat) (x : Chan) (d : BmDesc) (av : Nat) (src : QueueHdr) : Nat :=
  let n := if d.len = 0 then 256 else min 256 (d.len - x.taken)
  let n := match x.endAt with
    | some e => min n (e - (x.rdBase + x.taken))
    | none => n
  let n := if d.squeue then min n (src.wr - (x.rdBase + x.taken)) else n
  let n := if d.dqueue then min n av else n
  let rate := rFld s (Reg.BM_CH_RATE c) 15 0
  let n := if rate = 0 then n else min n (rate * 4096 - x.frameBytes - (x.bursts.map (·.len)).sum)
  if x.endAt = some (x.rdBase + x.taken + n) then n else n - n % swapUnit d.swap

/-- The channel enters PAUSED. -/
def pauseChan (c : Nat) (rate : Bool) (s : State) : State :=
  bump (Reg.BM_CH_PAUSES c) 1 (setChan c { chanOf s c with state := .paused, forRate := rate } s)

/-- Whether a channel has issued its frame's rate of destination writes (R281). -/
def rateSpent (s : State) (c : Nat) : Bool :=
  let rate := rFld s (Reg.BM_CH_RATE c) 15 0
  rate ≠ 0 && rate * 4096 ≤ (chanOf s c).frameBytes

/-- Whether every source byte of the descriptor has been taken. -/
def allTaken (x : Chan) (d : BmDesc) : Bool := (d.len ≠ 0 && d.len ≤ x.taken) || streamEnded x

/-- At a burst boundary with bytes left: PAUSED under R280 or R281. -/
def boundary (c : Nat) (d : BmDesc) (src dst : QueueHdr) (s : State) : State :=
  let x := chanOf s c
  if allTaken x d then s
  else if rateSpent s c then pauseChan c true s
  else if atLow d (available x d src dst) then pauseChan c false s
  else s

/-- Reads the headers of a descriptor's queue sides; an error stops the descriptor. -/
def readSides (c : Nat) (d : BmDesc) (s : State) : State × Option (QueueHdr × QueueHdr) :=
  let none_ : QueueHdr := ⟨0, 0, 0, 0, none⟩
  let (s, st1, h1) := if d.squeue then readHeader c d.shost d.src s else (s, stOK, some none_)
  let (s, st2, h2) := if d.dqueue then readHeader c d.dhost d.dst s else (s, stOK, some none_)
  if st1 ≠ stOK then (stopDesc c st1 0 s, none)
  else if st2 ≠ stOK then (stopDesc c st2 0 s, none)
  else match h1, h2 with
    | some a, some b => (s, some (a, b))
    | _, _ => (stopDesc c stDescInvalid 0 s, none)

/-- BURST_ISSUE (R279): a channel issues the read of one burst, or pauses, or finds its stream ended. -/
def burstIssue (c : Nat) (s : State) : State :=
  let x := chanOf s c
  match x.desc with
  | none => s
  | some d =>
    let all := s.bm.chans.foldl (fun n p => n + inFlight p.2) 0
    if !clocked s || !issues x || 64 ≤ inFlight x || 1024 ≤ all then s else
    let (s, h) := readSides c d s
    match h with
    | none => settleDesc c s
    | some (src, dst) =>
      let s := noteEnd c d src s
      if allTaken (chanOf s c) d then settleDesc c s else
      let s := if x.state = .run then boundary c d src dst s else s
      let x := chanOf s c
      if !issues x then s else
      let n := burstLen s c x d (available x d src dst) src
      if n = 0 then s else
      let s := setChan c { x with bursts := x.bursts ++ [⟨x.taken, n⟩], taken := x.taken + n } s
      if x.state = .run then boundary c d src dst s else s

def execBurstIssue (ch : Nat) (s : State) : Host.Outcome State Fault Refusal := .next (burstIssue ch s)

/-- Reverses the order of `k`-byte groups within each `u`-byte unit; bytes of a last unit that is not whole take free
values, since SWAP says nothing of them (DESIGN CHOICE, notes/assumptions/43.md). -/
def swapBytes (u k : Nat) (stamp : Nat) : Nat → List Byte → List Byte
  | 0, bs => bs
  | n + 1, bs =>
    if bs = [] then []
    else if bs.length < u then (List.range bs.length).map fun i => Config.freeByte stamp i
    else
      let unit := bs.take u
      ((List.range (u / k)).reverse.flatMap fun g => slice unit (g * k) k) ++ swapBytes u k stamp n (bs.drop u)

/-- The bytes of a burst under SWAP (Table 12.9). -/
def swapped (w stamp : Nat) (bs : List Byte) : List Byte :=
  if w = 0 then bs
  else if w ≤ 3 then swapBytes (swapUnit w) 1 stamp bs.length bs
  else swapBytes (swapUnit w) 2 stamp bs.length bs

/-- The beats of a burst: its destination stretches cut at 64-byte lines. -/
def beatsOf (pos : Nat) (segs : List (Nat × Nat)) (bs : List Byte) : List Beat :=
  (segs.foldl (fun (r : List Beat × Nat) g =>
    (pieces g.1 g.2).foldl (fun (r : List Beat × Nat) p =>
      (r.1 ++ [⟨pos + r.2, p.1, slice bs r.2 p.2, pos⟩], r.2 + p.2)) r) ([], 0)).1

/-- Whether the frame's rate has room for a burst's writes; they wait for the next frame where it has not (R281). -/
def rateTakes (s : State) (c : Nat) (b : Burst) : Bool :=
  let rate := rFld s (Reg.BM_CH_RATE c) 15 0
  rate = 0 || (chanOf s c).frameBytes + b.len ≤ rate * 4096

/-- BURST_READ_RESPONSE (R279, R283): the oldest burst's data arrive and its beats are issued; a read that fails is an
error before the count ran out. -/
def burstRead (c : Nat) (s : State) : State :=
  let x := chanOf s c
  match x.desc, x.bursts with
  | some d, b :: rest =>
    if halted s || !rateTakes s c b then s else
    let src := if d.squeue then x.sData else d.src
    let (s, st, bs) := readSegs c d.shost (ringSegs src (if d.squeue then 2 ^ x.sLog else 0) (if d.squeue then x.rdBase + b.pos else b.pos) b.len) s
    let s := setChan c { chanOf s c with bursts := rest } s
    if st ≠ stOK then settleDesc c (stopDesc c st 0 s)
    else
      let s := bump Reg.BM_READ (ceilDiv b.len 64) s
      let (stamp, s) := if b.len % swapUnit d.swap = 0 then (0, s) else (s.freeCtr, { s with freeCtr := s.freeCtr + 1 })
      let dst := if d.dqueue then x.dData else d.dst
      let z := if d.dqueue then 2 ^ x.dLog else d.clen
      let p := if d.dqueue then x.wrBase + b.pos else b.pos
      let bts := beatsOf b.pos (ringSegs dst z p b.len) (swapped d.swap stamp bs)
      let x := chanOf s c
      let hold := d.len = 0 && x.endAt.isNone
      let s := setChan c { x with beats := x.beats ++ bts, issued := x.issued + b.len, frameBytes := x.frameBytes + b.len,
                                  remain := if hold then x.remain else x.remain - b.len } s
      if x.state = .run && !allTaken x d && rateSpent s c then pauseChan c true s else s
  | _, _ => s

def execBurstReadResponse (ch : Nat) (s : State) : Host.Outcome State Fault Refusal := .next (burstRead ch s)

/-! ### Beats (R279, R282, R283) -/

/-- The acknowledged prefix and the stretches beyond it, with one more stretch acknowledged. -/
def ackPrefix : Nat → Nat → List (Nat × Nat) → Nat × List (Nat × Nat)
  | 0, front, r => (front, r)
  | k + 1, front, r =>
    match r.find? fun q => q.1 = front with
    | some q => ackPrefix k (front + q.2) (r.filter fun e => e ≠ q)
    | none => (front, r)

/-- HALF and FULL of a circular destination latch as the acknowledged prefix passes CLEN ÷ 2 and CLEN of a lap. -/
def lapFlags (c clen old new : Nat) (s : State) : State :=
  if clen = 0 then s else
  let s := if (old + clen / 2) / clen < (new + clen / 2) / clen then bmFlag c 0 s else s
  if old / clen < new / clen then bmFlag c 1 s else s

/-- Writes WR and RD of the queues a descriptor serves, up to the acknowledged prefix (R275, R279). -/
def advanceQueues (c : Nat) (d : BmDesc) (s : State) : State :=
  let x := chanOf s c
  let s := if d.dqueue then writeMark c d.dhost (d.dst + 0x10) (x.wrBase + x.front) s else s
  if d.squeue then writeMark c d.shost (d.src + 0x18) (x.rdBase + x.front) s else s

/-- One beat is acknowledged: MOVED, the counters, the prefix and the queues go on. -/
def beatOk (c : Nat) (d : BmDesc) (b : Beat) (s : State) : State :=
  let x := chanOf s c
  let q := ackPrefix (x.acked.length + 1) x.front ((b.pos, b.data.length) :: x.acked)
  let s := setChan c { x with moved := x.moved + b.data.length, front := q.1, acked := q.2 } s
  let s := bump2 (Reg.BM_CH_BYTES c) (Reg.BM_CH_SNAP_BYTES c) 1 (bump2 Reg.BM_WRITE Reg.BM_SNAP_WRITE 1 s)
  let s := lapFlags c d.clen x.front q.1 s
  if q.1 = x.front then s else advanceQueues c d s

/-- BEAT_RESPONSE (R283): beat `idx` of those outstanding is answered. -/
def beatResponse (c idx : Nat) (s : State) : State :=
  let x := chanOf s c
  match x.desc, x.beats[idx]? with
  | some d, some b =>
    if halted s then s else
    let s := setChan c { x with beats := x.beats.eraseIdx idx } s
    let (s, st) := bmWrite c d.dhost b.addr b.data s
    settleDesc c (if st = stOK then beatOk c d b s else writeError c d.dhost b.addr b.data.length st s)
  | _, _ => s

def execBeatResponse (ch idx : Nat) (s : State) : Host.Outcome State Fault Refusal := .next (beatResponse ch idx s)

/-! ### Enabling and disabling (R284, R285) -/

/-- What a channel was serving becomes undefined: RD of its descriptor queue in QUEUE mode, and of its descriptor the RD or
WR of each queue side and the destination bytes (R284). -/
def undefServed (c : Nat) (s : State) : State :=
  let x := chanOf s c
  let undef := fun (host : Bool) (a n : Nat) (s : State) =>
    if host then makeHostUndef a n s else undefVa (bmOwner s c) a n s
  let s := if rBit s (Reg.BM_CH_CTRL c) 1 then undef (rBit s (Reg.BM_CH_CTRL c) 2) (bmQueue s c + 0x18) 8 s else s
  match x.desc with
  | none => s
  | some d =>
    let s := if d.squeue then undef d.shost (d.src + 0x18) 8 s else s
    if d.dqueue then
      let s := undef d.dhost (d.dst + 0x10) 8 s
      (ringSegs x.dData (2 ^ x.dLog) x.wrBase (min x.taken (2 ^ x.dLog))).foldl (fun t g => undef d.dhost g.1 g.2 t) s
    else undef d.dhost d.dst (if d.clen ≠ 0 then d.clen else if d.len ≠ 0 then d.len else x.taken) s

/-- The BM counters become undefined, those of the open frame with them. -/
def freeCounters (c : Nat) (s : State) : State :=
  let s := [Reg.BM_CH_BYTES c, Reg.BM_CH_DESCS c, Reg.BM_CH_PAUSES c, Reg.BM_READ, Reg.BM_WRITE].foldl (fun s a =>
    let (f, s) := takeFree s
    rSet a f s) s
  [Reg.BM_CH_SNAP_BYTES c, Reg.BM_SNAP_WRITE].foldl (fun s a =>
    let (f, s) := takeFree s
    { s with rf := { s.rf with frame := kSet s.rf.frame a (f % 2 ^ 32) } }) s

/-- EN is cleared: everything a channel holds is dropped, and it sinks the responses still owed (R284). -/
def dropChan (c : Nat) (s : State) : State :=
  let x := chanOf s c
  let (f1, s) := takeFree (freeCounters c (undefServed c s))
  let (f2, s) := takeFree s
  setChan c { results := x.results, lastStatus := x.lastStatus, lastLate := x.lastLate, state := .sinking,
              frameBytes := x.frameBytes, remain := f1 % 2 ^ 48, moved := f2 % 2 ^ 48,
              sink := x.bursts.length + x.beats.length } s

/-- A write of BM_CH_CTRL: EN set in DISABLED makes the channel IDLE, EN cleared drops everything, and EN set while
SINKING is ignored; the staged fields take their shadow copies. -/
def bmCtrlEff (c v : Nat) (s : State) : State :=
  let st := (chanOf s c).state
  let s := if st = .sinking && bit v 0 then s else rSetFld (Reg.BM_CH_CTRL c) 0 0 (v % 2) s
  let s := stageBits (Reg.BM_CH_CTRL c) (rowMasks (Reg.BM_CH_CTRL c)).st v s
  match st, bit v 0 with
  | .disabled, true => setChan c { chanOf s c with state := .idle } s
  | .disabled, false => s
  | .sinking, true => s
  | .sinking, false => if (chanOf s c).reEn then setChan c { chanOf s c with reEn := false } s else s
  | _, true => s
  | _, false => dropChan c s

def execBmChEnable (w : Writer) (ch : Nat) (v : W32) (s : State) : Host.Outcome State Fault Refusal :=
  .next (acceptWrite w (Reg.BM_CH_CTRL ch) (bmCtrlEff ch (v.toNat ||| 1)) s)

def execBmChDisable (w : Writer) (ch : Nat) (v : W32) (s : State) : Host.Outcome State Fault Refusal :=
  .next (acceptWrite w (Reg.BM_CH_CTRL ch) (bmCtrlEff ch (setFld v.toNat 0 0 0)) s)

/-- CHANNEL_SUNK (R284, R285): the last response is sunk, and the channel is DISABLED; after an instance reset of its owner
EN is then set. -/
def channelSunk (c : Nat) (s : State) : State :=
  let x := chanOf s c
  if x.state ≠ .sinking then s
  else if x.reEn then
    setChan c { x with state := .idle, sink := 0, reEn := false } (rSetFld (Reg.BM_CH_CTRL c) 0 0 1 s)
  else setChan c { x with state := .disabled, sink := 0 } s

def execChannelSunk (ch : Nat) (s : State) : Host.Outcome State Fault Refusal := .next (channelSunk ch s)

/-- What an instance reset does to the enabled channels its instance owns: as clearing and setting EN, which is set once the
last response is sunk (R284, DESIGN CHOICE, notes/assumptions/43.md). -/
def resetChans (i : Nat) (s : State) : State :=
  forN 64 s fun c s =>
    if bmOwner s c = i && rBit s (Reg.BM_CH_CTRL c) 0 && (chanOf s c).state ≠ .disabled && (chanOf s c).state ≠ .sinking then
      let s := dropChan c (rSetFld (Reg.BM_CH_CTRL c) 0 0 0 s)
      setChan c { chanOf s c with reEn := true } s
    else s

/-! ### Step 8 of a Seam (R280, R281, R285) -/

/-- One channel at step 8: its frame's rate is new, a PAUSED channel reads its queues, and an IDLE one polls. -/
def pacing (c : Nat) (s : State) : State :=
  let x := chanOf s c
  let s := if x.frameBytes = 0 then s else setChan c { x with frameBytes := 0 } s
  match x.state, x.desc with
  | .idle, _ => pollQueue c s
  | .paused, some d =>
    if x.stopped then s
    else if x.forRate then setChan c { chanOf s c with state := .run, forRate := false } s
    else
      let (s, h) := readSides c d s
      match h with
      | none => settleDesc c s
      | some (src, dst) =>
        let s := noteEnd c d src s
        let x := chanOf s c
        if allTaken x d || x.stopped then settleDesc c s
        else if d.high * 4096 ≤ shown x d src dst then setChan c { x with state := .run, drain := false } s
        else if d.squeue && !d.dqueue && x.endAt.isSome then setChan c { x with drain := true } s
        else s
  | _, _ => s

end Sys2Proof.Machine
end

