-- ==== Sys2Proof/Machine/Hash.lean ====
section
/-! DEFINITION. The hash functions of the digest engine: SHA-2 of FIPS 180-4, SHA3-256 of FIPS 202, and the blocks of HMAC
of FIPS 198-1 (R311, R320). -/

namespace Sys2Proof.Machine

/-! ### Tables -/

/-- Constants of SHA-512, the first 40: fractional bits of cube roots of primes (FIPS 180-4). -/
def sha2K1 : List Nat :=
  [0x428A2F98D728AE22, 0x7137449123EF65CD, 0xB5C0FBCFEC4D3B2F, 0xE9B5DBA58189DBBC,
   0x3956C25BF348B538, 0x59F111F1B605D019, 0x923F82A4AF194F9B, 0xAB1C5ED5DA6D8118,
   0xD807AA98A3030242, 0x12835B0145706FBE, 0x243185BE4EE4B28C, 0x550C7DC3D5FFB4E2,
   0x72BE5D74F27B896F, 0x80DEB1FE3B1696B1, 0x9BDC06A725C71235, 0xC19BF174CF692694,
   0xE49B69C19EF14AD2, 0xEFBE4786384F25E3, 0x0FC19DC68B8CD5B5, 0x240CA1CC77AC9C65,
   0x2DE92C6F592B0275, 0x4A7484AA6EA6E483, 0x5CB0A9DCBD41FBD4, 0x76F988DA831153B5,
   0x983E5152EE66DFAB, 0xA831C66D2DB43210, 0xB00327C898FB213F, 0xBF597FC7BEEF0EE4,
   0xC6E00BF33DA88FC2, 0xD5A79147930AA725, 0x06CA6351E003826F, 0x142929670A0E6E70,
   0x27B70A8546D22FFC, 0x2E1B21385C26C926, 0x4D2C6DFC5AC42AED, 0x53380D139D95B3DF,
   0x650A73548BAF63DE, 0x766A0ABB3C77B2A8, 0x81C2C92E47EDAEE6, 0x92722C851482353B]

/-- The other 40 constants. -/
def sha2K2 : List Nat :=
  [0xA2BFE8A14CF10364, 0xA81A664BBC423001, 0xC24B8B70D0F89791, 0xC76C51A30654BE30,
   0xD192E819D6EF5218, 0xD69906245565A910, 0xF40E35855771202A, 0x106AA07032BBD1B8,
   0x19A4C116B8D2D0C8, 0x1E376C085141AB53, 0x2748774CDF8EEB99, 0x34B0BCB5E19B48A8,
   0x391C0CB3C5C95A63, 0x4ED8AA4AE3418ACB, 0x5B9CCA4F7763E373, 0x682E6FF3D6B2B8A3,
   0x748F82EE5DEFB2FC, 0x78A5636F43172F60, 0x84C87814A1F0AB72, 0x8CC702081A6439EC,
   0x90BEFFFA23631E28, 0xA4506CEBDE82BDE9, 0xBEF9A3F7B2C67915, 0xC67178F2E372532B,
   0xCA273ECEEA26619C, 0xD186B8C721C0C207, 0xEADA7DD6CDE0EB1E, 0xF57D4F7FEE6ED178,
   0x06F067AA72176FBA, 0x0A637DC5A2C898A6, 0x113F9804BEF90DAE, 0x1B710B35131C471B,
   0x28DB77F523047D84, 0x32CAAB7B40C72493, 0x3C9EBE0A15C9BEBC, 0x431D67C49C100D4C,
   0x4CC5D4BECB3E42B6, 0x597F299CFC657E2A, 0x5FCB6FAB3AD6FAEC, 0x6C44198C4A475817]

/-- Initial hash values (FIPS 180-4). -/
def initSha256 : List Nat :=
  [0x6A09E667, 0xBB67AE85, 0x3C6EF372, 0xA54FF53A,
   0x510E527F, 0x9B05688C, 0x1F83D9AB, 0x5BE0CD19]
/-- SHA-384. -/
def initSha384 : List Nat :=
  [0xCBBB9D5DC1059ED8, 0x629A292A367CD507, 0x9159015A3070DD17, 0x152FECD8F70E5939,
   0x67332667FFC00B31, 0x8EB44A8768581511, 0xDB0C2E0D64F98FA7, 0x47B5481DBEFA4FA4]
/-- SHA-512. -/
def initSha512 : List Nat :=
  [0x6A09E667F3BCC908, 0xBB67AE8584CAA73B, 0x3C6EF372FE94F82B, 0xA54FF53A5F1D36F1,
   0x510E527FADE682D1, 0x9B05688C2B3E6C1F, 0x1F83D9ABFB41BD6B, 0x5BE0CD19137E2179]

/-! ### SHA-2 -/

/-- The parameters of a SHA-2 word size: word bits, rounds, and the shifts of its four functions. -/
structure Sha2 where
  w      : Nat
  rounds : Nat
  big0   : Nat × Nat × Nat
  big1   : Nat × Nat × Nat
  small0 : Nat × Nat × Nat
  small1 : Nat × Nat × Nat
  deriving DecidableEq, Repr

def sha2w32 : Sha2 := ⟨32, 64, (2, 13, 22), (6, 11, 25), (7, 18, 3), (17, 19, 10)⟩
def sha2w64 : Sha2 := ⟨64, 80, (28, 34, 39), (14, 18, 41), (1, 8, 7), (19, 61, 6)⟩

/-- Rotation right by n of a word of w bits. -/
def rotr (w n x : Nat) : Nat := x / 2 ^ n + x % 2 ^ n * 2 ^ (w - n)

/-- The upper-case and lower-case sigma functions. -/
def bigSigma (w : Nat) (k : Nat × Nat × Nat) (x : Nat) : Nat := rotr w k.1 x ^^^ rotr w k.2.1 x ^^^ rotr w k.2.2 x
def smallSigma (w : Nat) (k : Nat × Nat × Nat) (x : Nat) : Nat := rotr w k.1 x ^^^ rotr w k.2.1 x ^^^ x / 2 ^ k.2.2

/-- The constant of a round: the first 32 bits of SHA-512's for 32-bit words. -/
def sha2K (h : Sha2) (i : Nat) : Nat :=
  let k := if i < 40 then sha2K1.getD i 0 else sha2K2.getD (i - 40) 0
  if h.w = 32 then k / 2 ^ 32 else k

/-- The next word of the message schedule from the last sixteen, oldest first. -/
def scheduleNext (h : Sha2) (ws : List Nat) : Nat :=
  (smallSigma h.w h.small1 (ws.getD 14 0) + ws.getD 9 0 + smallSigma h.w h.small0 (ws.getD 1 0) + ws.getD 0 0) % 2 ^ h.w

/-- One round on the working variables a to h. -/
def sha2Round (h : Sha2) (kw : Nat) (v : List Nat) : List Nat :=
  let x := fun i => v.getD i 0
  let ch := (x 4 &&& x 5) ^^^ ((2 ^ h.w - 1 - x 4) &&& x 6)
  let maj := (x 0 &&& x 1) ^^^ (x 0 &&& x 2) ^^^ (x 1 &&& x 2)
  let t1 := x 7 + bigSigma h.w h.big1 (x 4) + ch + kw
  let t2 := bigSigma h.w h.big0 (x 0) + maj
  [(t1 + t2) % 2 ^ h.w, x 0, x 1, x 2, (x 3 + t1) % 2 ^ h.w, x 4, x 5, x 6]

/-- A block compressed into a hash value. -/
def sha2Block (h : Sha2) (hv : List Nat) (block : List Byte) : List Nat :=
  let n := h.w / 8
  let m := (List.range 16).map fun i => ofBytes (slice block (n * i) n).reverse
  let r := (List.range h.rounds).foldl (fun (r : List Nat × List Nat) i =>
    (sha2Round h (sha2K h i + r.2.getD 0 0) r.1, r.2.drop 1 ++ [scheduleNext h r.2])) (hv, m)
  List.zipWith (fun a b => (a + b) % 2 ^ h.w) hv r.1

/-! ### Keccak -/

/-- A left rotation of a 64-bit lane. -/
def rotl64 (n x : Nat) : Nat := x * 2 ^ n % 2 ^ 64 + x / 2 ^ (64 - n)

/-- A step of the shift register that FIPS 202 draws its round constants from: x^8 + x^6 + x^5 + x^4 + 1. -/
def rcStep (r : Nat) : Nat := if r < 128 then 2 * r else (2 * r) ^^^ 0x171

/-- The constant that iota adds in the round whose register stands at `r`, with the register of the next round: the seven
bits drawn go to places 2^j - 1. -/
def rcDraw (r : Nat) : Nat × Nat :=
  (List.range 7).foldl (fun q j => (q.1 + q.2 % 2 * 2 ^ (2 ^ j - 1), rcStep q.2)) (0, r)

/-- Theta: each lane of a column takes the parities of its two neighbour columns. Lane (x, y) is at x + 5 y. -/
def theta (lanes : List Nat) : List Nat :=
  let parity := (List.range 5).map fun x => (List.range 5).foldl (fun p y => p ^^^ lanes.getD (x + 5 * y) 0) 0
  (List.range 25).map fun i => lanes.getD i 0 ^^^ parity.getD ((i + 4) % 5) 0 ^^^ rotl64 1 (parity.getD ((i + 1) % 5) 0)

/-- Rho and pi together: from (1, 0), the walk (x, y) to (y, 2x + 3y) visits every lane but (0, 0), and its step t carries the
lane it leaves to the place it reaches, rotated by (t + 1)(t + 2)/2. -/
def rhoPi (lanes : List Nat) : List Nat :=
  ((List.range 24).foldl (fun (q : Nat × Nat × List Nat) t =>
    let (x, y, out) := q
    let z := (2 * x + 3 * y) % 5
    (y, z, out.set (y + 5 * z) (rotl64 ((t + 1) * (t + 2) / 2 % 64) (lanes.getD (x + 5 * y) 0)))) (1, 0, lanes)).2.2

/-- Chi on one row of five lanes. -/
def chiRow (row : List Nat) : List Nat :=
  (List.range 5).map fun x => row.getD x 0 ^^^ ((2 ^ 64 - 1 - row.getD ((x + 1) % 5) 0) &&& row.getD ((x + 2) % 5) 0)

/-- One round of Keccak-f[1600] with iota's constant. -/
def keccakRound (rc : Nat) (lanes : List Nat) : List Nat :=
  let moved := rhoPi (theta lanes)
  let out := (List.range 5).flatMap fun y => chiRow ((moved.drop (5 * y)).take 5)
  out.set 0 (out.getD 0 0 ^^^ rc)

/-- A block absorbed: its lanes are added and the 24 rounds run. -/
def keccakBlock (lanes : List Nat) (block : List Byte) : List Nat :=
  let mixed := (List.range 25).map fun i => lanes.getD i 0 ^^^ ofBytes (slice block (8 * i) 8)
  ((List.range 24).foldl (fun (q : List Nat × Nat) _ =>
    let d := rcDraw q.2
    (keccakRound d.1 q.1, d.2)) (mixed, 1)).1

/-! ### Algorithms (Table 14.1) -/

/-- Block and result bytes, and whether an algorithm is an HMAC. -/
def algBlock (alg : Nat) : Nat := if alg = 0 || alg = 4 then 64 else if alg = 3 then 136 else 128
def algResult (alg : Nat) : Nat := if alg = 1 then 48 else if alg = 2 || alg = 5 then 64 else 32
def algHmac (alg : Nat) : Bool := alg = 4 || alg = 5

/-- The initial state, one block, and the result of a state. -/
def algInit (alg : Nat) : List Nat :=
  if alg = 0 || alg = 4 then initSha256 else if alg = 1 then initSha384
  else if alg = 3 then List.replicate 25 0 else initSha512
def algCompress (alg : Nat) (h : List Nat) (block : List Byte) : List Nat :=
  if alg = 3 then keccakBlock h block else sha2Block (if alg = 0 || alg = 4 then sha2w32 else sha2w64) h block
def algDigest (alg : Nat) (h : List Nat) : List Byte :=
  if alg = 3 then (h.take 4).flatMap (toBytes 8)
  else (h.flatMap fun x => (toBytes (if alg = 0 || alg = 4 then 4 else 8) x).reverse).take (algResult alg)

/-- A message's last bytes padded to whole blocks; `total` is the length of the whole message. -/
def algPad (alg total : Nat) (tail : List Byte) : List Byte :=
  if alg = 3 then
    let z := padTo 136 (tail ++ [0x06])
    z.dropLast ++ [z.getLastD 0 ||| 0x80]
  else
    let b := algBlock alg
    let l := b / 8
    let z := tail ++ [(0x80 : Byte)]
    z ++ List.replicate ((2 * b - l - z.length % b) % b) 0 ++ (toBytes l (8 * total)).reverse

/-- The blocks of a byte string. -/
def blocksOf (n : Nat) (bs : List Byte) : List (List Byte) := (List.range (bs.length / n)).map fun i => slice bs (n * i) n

/-- The block of an HMAC key XORed with a byte (R320). -/
def hmacBlock (alg : Nat) (pad : Byte) (key : List Byte) : List Byte :=
  (key ++ List.replicate (algBlock alg - key.length) 0).map (· ^^^ pad)

/-- A whole message hashed. -/
def hashBytes (alg : Nat) (bs : List Byte) : List Byte :=
  algDigest alg ((blocksOf (algBlock alg) (slice bs 0 (bs.length / algBlock alg * algBlock alg)
    ++ algPad alg bs.length (bs.drop (bs.length / algBlock alg * algBlock alg)))).foldl (algCompress alg) (algInit alg))

end Sys2Proof.Machine
end

