-- ==== Sys2Proof/Machine/Digest.lean ====
section
/-! DEFINITION. The digest engine, the key store and the Lining (chapter 14). -/

namespace Sys2Proof.Machine

/-! ### Accessors -/

/-- A context of the digest engine and a key slot. -/
def ctxOf (s : State) (c : Nat) : DgCtx := kGet {} s.dg.ctxs c
def setCtx (c : Nat) (x : DgCtx) (s : State) : State := { s with dg := { s.dg with ctxs := kSet s.dg.ctxs c x } }
def keyOf (s : State) (k : Nat) : KeySlot := kGet {} s.keys k

/-- The words of the Lining that hold a slot's key and attributes, and a context's key area (R325). -/
def slotWords (k : Nat) : List Nat := (List.range 16).map (fun i => 16 * k + i) ++ [8192 + k]
def keyAreaWords (c : Nat) : List Nat := (List.range 16).map fun i => 8704 + 16 * c + i

/-- Words of the Lining are written, with good parity. -/
def goodLining (ws : List Nat) (s : State) : State :=
  if s.ln.bad = [] then s else { s with ln := { s.ln with bad := s.ln.bad.filter fun w => !ws.contains w } }

/-- Whether a read of words of the Lining meets bad parity. -/
def liningBad (s : State) (ws : List Nat) : Bool := s.ln.bad.any fun w => ws.contains w

def setKey (k : Nat) (x : KeySlot) (s : State) : State := goodLining (slotWords k) { s with keys := kPut {} s.keys k x }

/-- The contexts an instance holds, apart from one (R313). -/
def ctxHeld (s : State) (owner but : Nat) : Nat :=
  ((List.range 256).filter fun c => c ≠ but && (ctxOf s c).owner = owner && (ctxOf s c).state ≠ .free).length

/-- The lowest FREE context. -/
def freeCtx (s : State) : Option Nat := (List.range 256).find? fun c => (ctxOf s c).state = .free

/-- FREE contexts, requests held, and contexts that have a block ready. -/
def ctxFree (s : State) : Nat := ((List.range 256).filter fun c => (ctxOf s c).state = .free).length
def dgHeld (s : State) : Nat :=
  s.dg.waiting.length + ((List.range 256).map fun c => (ctxOf s c).queue.length + b2n (ctxOf s c).run.isSome).sum
def ctxReady (s : State) (c : Nat) : Bool := (ctxOf s c).run.isSome

/-- Whether an instance may take context `c` as one more (R313). -/
def capAllows (s : State) (owner c : Nat) : Bool :=
  owner = 0x7FF || ctxHeld s owner c < rFld s (Reg.INST_CUFF_DIGEST owner) 8 0

/-! ### How requests end and contexts clear (R314, R318) -/

/-- A request of a context ends with a status. -/
def endReq (c st : Nat) (s : State) : State :=
  pulse Reg.DG_PAGE 0 (setCtx c { ctxOf s c with status := st } s)

/-- A use of a key slot is refused (R317). -/
def keyDenied (s : State) : State :=
  pulse Reg.KS_PAGE 0 (recErr Reg.KS_PAGE 4 0 (bump Reg.KS_DENIED 1 s))

/-- A context is zeroed and CLEARED; its running and queued requests end with DIGEST_STATE_CLEARED. -/
def zeroCtx (c : Nat) (s : State) : State :=
  let x := ctxOf s c
  let held := x.run.isSome || !x.queue.isEmpty
  let s := setCtx c { state := .cleared, requester := x.requester, bound := x.bound, alg := x.alg, owner := x.owner,
                      status := if held then stDigestCleared else x.status } (goodLining (keyAreaWords c) s)
  if held then pulse Reg.DG_PAGE 0 s else s

/-- The engine clears a context for an early read (0x03), a bus error (0x04) or an alarm (0x05) (R318). -/
def clearCtx (c code : Nat) (s : State) : State :=
  let s := pulse Reg.DG_PAGE 1 (recErr Reg.DG_PAGE code 0 (bump Reg.DG_CLEARED 1 (zeroCtx c s)))
  if code = 5 then contained Reg.DG_PAGE s else s

/-- A context is given back: FREE, or IDLE while it is bound to a Ledger stream. -/
def giveBack (c : Nat) (s : State) : State :=
  let x := ctxOf s c
  setCtx c (if x.bound then { state := .idle, requester := 2, bound := true, owner := x.owner, status := x.status,
                              queue := x.queue }
            else { status := x.status, queue := x.queue }) s

/-- A wipe begins: every word of the Lining is zeroed, with the key slots and key copies, contexts are cleared, and WIPING is
set (R327). SPDM sessions end with the secrets that the wipe takes (DEDUCED, notes/assumptions/54.md). -/
def wipeLining (s : State) : State :=
  let s := (List.range 256).foldl (fun t c =>
    if kFind t.dg.ctxs c |>.isNone then t else
    match (ctxOf t c).state with
    | .opened | .busy | .done => clearCtx c 5 t
    | _ => t) s
  let ln := { s.ln with wiping := true, wipes := (s.ln.wipes + 1) % 2 ^ 32, wipeSeam := s.seam.num % 2 ^ 32, bad := [], scratch := [] }
  { s with portA := { s.portA with sessions := [] }, portB := { s.portB with sessions := [] }, keys := [], ln := ln }

/-- A parity error found in the Lining is an alarm: a wipe without LOCKDOWN, and a contained error (R325, R362). -/
def liningParity (s : State) : State :=
  if s.ln.wiping then s else contained Reg.LN_PAGE (wipeLining s)

/-- A read of words of the Lining. -/
def readLining (ws : List Nat) (s : State) : State := if liningBad s ws then liningParity s else s

/-- The next queued requests of a context run, as far as they end at once or one begins to hash (R314, Table 14.3;
R321 for a FINAL without DERIVE on a DERIVE_ONLY key). -/
def startNext (c : Nat) : Nat → State → State
  | 0, s => s
  | n + 1, s =>
    let x := ctxOf s c
    match x.run, x.queue with
    | none, r :: q =>
      let s := setCtx c { x with queue := q } s
      let next := startNext c n
      if r.op = 4 then
        if x.state = .opened || x.state = .done || x.state = .cleared then next (giveBack c (endReq c stOK s))
        else next (endReq c stDescInvalid s)
      else if x.state = .cleared then next (endReq c stDigestCleared s)
      else if x.state ≠ .opened then next (endReq c stDescInvalid s)
      else if r.op = 2 && r.len = 0 then next (endReq c stOK s)
      else if r.op = 3 && x.deriveOnly && !r.derive then
        next (zeroCtx c (keyDenied (endReq c stKeyDenied s)))
      else setCtx c { ctxOf s c with state := .busy, run := some r, pos := 0, tail := [], padded := false, outer := false } s
    | _, _ => s

/-! ### INIT (R313, R317, R320) -/

/-- Whether a key slot may key a message of an owner (R317); none does in RETIRED (Table 14.6). -/
def keyGood (s : State) (k owner : Nat) : Bool :=
  let a := (keyOf s k).attr
  bit a 0 && fld a 13 3 = owner && bit a (14 + s.dev.fuseLc) && s.dev.fuseLc ≠ 4 && (fld a 2 1 = 1 || fld a 2 1 = 2)

/-- An INIT takes context `c`: a key is checked and copied, and its inner block hashed. A slot that the read finds with bad
parity is wiped with the Lining, and denied (R325). -/
def openCtx (c alg owner slot req : Nat) (s : State) : State :=
  let s := if algHmac alg then readLining (slotWords slot) s else s
  let old := ctxOf s c
  if algHmac alg && !keyGood s slot owner then
    keyDenied (endReq c stKeyDenied (giveBack c (setCtx c { old with queue := [] } s)))
  else
    let k := (keyOf s slot).key.take (fld (keyOf s slot).attr 25 19)
    let x : DgCtx := { state := .opened, requester := req, bound := old.bound, alg := alg, owner := owner, words := algInit alg }
    let x := if algHmac alg then
        { x with key := k, deriveOnly := fld (keyOf s slot).attr 2 1 = 2, total := algBlock alg,
                 words := algCompress alg x.words (hmacBlock alg 0x36 k) }
      else x
    let s := endReq c stOK (setCtx c x (if algHmac alg then goodLining (keyAreaWords c) s else s))
    if algHmac alg then bump2 Reg.DG_BLOCKS Reg.DG_SNAP_BLOCKS 1 s else s

/-- Whether a context can take an INIT of a requester: FREE, or DONE or CLEARED and its own (R312). -/
def ctxTakes (s : State) (c req : Nat) : Bool :=
  match (ctxOf s c).state with
  | .free => true
  | .done => (ctxOf s c).requester = req
  | .cleared => (ctxOf s c).requester = req
  | _ => false

/-- The context an INIT gets now, if its cap and the contexts allow one. -/
def initCtx (s : State) (ctx owner : Nat) : Option Nat :=
  match if ctx = 0x1FF then freeCtx s else if ctxTakes s ctx 1 then some ctx else none with
  | some c => if capAllows s owner c then some c else none
  | none => none

/-- The first waiting INIT that can be served (R313). -/
def nextWait (s : State) : Option DgWait := s.dg.waiting.find? fun w => (initCtx s w.ctx w.owner).isSome

/-- The first waiting INIT that can be is assigned a context (R313, R314). -/
def contextAssignX (s : State) : State :=
  if !working s then s else
  match nextWait s with
  | none => s
  | some w =>
    match initCtx s w.ctx w.owner with
    | none => s
    | some c =>
      let s := { s with dg := { s.dg with waiting := s.dg.waiting.erase w,
                                          lastCtx := if s.dg.gos = w.go then c else s.dg.lastCtx } }
      openCtx c w.alg w.owner w.slot 1 s

def execContextAssign (s : State) : Host.Outcome State Fault Refusal := .next (contextAssignX s)

/-! ### GO (R314) -/

/-- A word of DG_REQ. -/
def reqWord (s : State) (k : Nat) : Nat := rGet s (Reg.DG_REQ k)

/-- Sets DG_LAST. -/
def setLast (outcome ctx st : Nat) (s : State) : State :=
  { s with dg := { s.dg with outcome := outcome, lastCtx := ctx, lastStatus := st } }

/-- Why a request is refused: none where it is not, else whether the named context is another requester's. -/
def reqRefused (s : State) : Option Bool :=
  let w := reqWord s 0
  let op := fld w 2 0
  let alg := fld w 10 8
  let c := fld w 19 11
  let x := ctxOf s c
  if op = 0 || 4 < op then some false
  else if op = 1 then
    if 5 < alg || 1024 < fld w 30 20 || (255 < c && c ≠ 0x1FF) then some false
    else if c = 0x1FF then none
    else if x.state ≠ .free && x.requester ≠ 1 then some true
    else if ctxTakes s c 1 then none else some false
  else if 255 < c then some false
  else if x.state = .free then some false
  else if x.requester ≠ 1 then some true
  else if op = 4 then none
  else if op = 2 && reqWord s 4 % algBlock x.alg ≠ 0 then some false
  else if bit w 3 && 2 ^ 16 ≤ reqWord s 3 then some false
  else if x.state = .opened || x.state = .busy || x.state = .cleared then none else some false

/-- The queued form of the request in DG_REQ. -/
def reqOf (s : State) : DgReq :=
  let w := reqWord s 0
  { op := fld w 2 0, dev := bit w 3, derive := bit w 4, slot := fld (reqWord s 1) 8 0, usage := fld (reqWord s 1) 10 9,
    lcBind := fld (reqWord s 1) 15 11, addr := reqWord s 2 + 2 ^ 32 * reqWord s 3, len := reqWord s 4 }

/-- A write of DG_GO with GO set. -/
def dgGoX (s : State) : State :=
  let w := reqWord s 0
  let c := fld w 19 11
  let s := { s with dg := { s.dg with gos := s.dg.gos + 1 } }
  let busy := fun (s : State) => recErr Reg.DG_PAGE 1 0 (setLast 2 c 0 s)
  if !pageEn s Reg.DG_PAGE then busy s else
  match reqRefused s with
  | some other => (if other then recErr Reg.DG_PAGE 2 0 else id) (setLast 3 c stDescInvalid s)
  | none =>
    if 256 ≤ dgHeld s then busy s
    else if fld w 2 0 = 1 then
      let wait : DgWait := { go := s.dg.gos, ctx := c, alg := fld w 10 8, owner := fld w 30 20, slot := fld (reqWord s 1) 8 0 }
      match initCtx s c wait.owner, nextWait s with
      | some n, none => openCtx n wait.alg wait.owner wait.slot 1 (setLast 1 n 0 s)
      | _, _ => setLast 1 c 0 { s with dg := { s.dg with waiting := s.dg.waiting ++ [wait] } }
    else if 4 ≤ (ctxOf s c).queue.length then busy s
    else
      let s := setLast 1 c 0 (setCtx c { ctxOf s c with queue := (ctxOf s c).queue ++ [reqOf s] } s)
      startNext c 8 s

/-- A write of DG_GO. -/
def dgGoEff (v : Nat) (s : State) : State := if bit v 0 then dgGoX s else s

/-- A write of DG_GO where DG_REQ holds a request of the kind. -/
def dgGo (w : Writer) (op : Nat) (s : State) : State :=
  if fld (reqWord s 0) 2 0 = op then acceptWrite w Reg.DG_GO (dgGoEff 1) s else s

def execDigestInit (w : Writer) (s : State) : Host.Outcome State Fault Refusal := .next (dgGo w 1 s)
def execDigestUpdate (w : Writer) (s : State) : Host.Outcome State Fault Refusal := .next (dgGo w 2 s)
def execDigestFinal (w : Writer) (s : State) : Host.Outcome State Fault Refusal := .next (dgGo w 3 s)
def execDigestRelease (w : Writer) (s : State) : Host.Outcome State Fault Refusal := .next (dgGo w 4 s)

/-! ### Hashing (R315, R316, R320 to R322) -/

/-- Bytes of a request's data, read over the mesh; none on a bus error. -/
def dgData (r : DgReq) (pos n : Nat) (s : State) : State × Option (List Byte) :=
  if n = 0 then (s, some []) else
  match r.own with
  | some bs => (s, some (slice bs pos n))
  | none =>
    if r.dev then
      match meshRead digestInit (r.addr + pos) n s with
      | (s, st, bs) => (s, if st = stOK then some bs else none)
    else (hostTrips digestInit (instPort s 0) false (r.addr + pos) n s, hostRead s 0 (r.addr + pos) n)

/-- A FINAL's result is ready: it stays in the context, or goes into a key slot (R322). -/
def finishFinal (c : Nat) (r : DgReq) (digest : List Byte) (s : State) : State :=
  let x := ctxOf s c
  if !r.derive then
    endReq c stOK (setCtx c { x with state := .done, run := none, result := digest, words := [], key := [] } s)
  else if bit (keyOf s r.slot).attr 0 || !(r.usage = 1 || r.usage = 2) then
    let s := setCtx c { x with run := none } s
    zeroCtx c (keyDenied (endReq c stKeyDenied s))
  else
    let attr := 1 + 2 * r.usage + 8 * x.owner + 2 ^ 14 * r.lcBind + 2 ^ 19 * digest.length + 2 ^ 26
    let s := setKey r.slot { attr := attr, key := digest ++ List.replicate (64 - digest.length) 0 } s
    let s := setCtx c { x with run := none } s
    giveBack c (endReq c stOK s)

/-- The next padded or outer block of a FINAL is hashed; after the last one of the inner message HMAC's outer message
begins with the key from the context's key area, and after the last one of all the result is ready. -/
def hashTail (c : Nat) (r : DgReq) (s : State) : State :=
  let x := ctxOf s c
  match x.tail with
  | [] => s
  | b :: bs =>
    let w := algCompress x.alg x.words b
    if bs ≠ [] then setCtx c { x with words := w, tail := bs } s
    else
      let d := algDigest x.alg w
      if algHmac x.alg && !x.outer && liningBad s (keyAreaWords c) then liningParity s
      else if algHmac x.alg && !x.outer then
        let blk := algBlock x.alg
        setCtx c { x with outer := true, words := algInit x.alg,
                          tail := hmacBlock x.alg 0x5C x.key :: blocksOf blk (algPad x.alg (blk + d.length) d) } s
      else finishFinal c r d s

/-- A core hashes the next block of a context. A parity error in the context's state or in the core is an alarm that clears
it (R318). -/
def hashBlockOf (c : Nat) (s : State) : State :=
  let x := ctxOf s c
  match x.run with
  | none => s
  | some r =>
    if x.bad then clearCtx c 5 s
    else
    let b := algBlock x.alg
    let counted := bump2 Reg.DG_BLOCKS Reg.DG_SNAP_BLOCKS 1
    if x.padded then counted (hashTail c r s)
    else
      let n := min b (r.len - x.pos)
      match dgData r x.pos n s with
      | (s, none) => clearCtx c 4 s
      | (s, some bs) =>
        if n = b then
          let y := { x with words := algCompress x.alg x.words bs, total := x.total + b, pos := x.pos + b }
          let s := counted (setCtx c y s)
          if r.op = 2 && y.pos = r.len then endReq c stOK (setCtx c { y with run := none, state := .opened } s) else s
        else
          let tail := blocksOf b (algPad x.alg (x.total + n) bs)
          counted (hashTail c r (setCtx c { x with padded := true, tail := tail, pos := r.len } s))

/-- The next context in turn with a block ready (R316). -/
def hashTurn (s : State) : Option Nat :=
  ((List.range 256).map fun i => (s.dg.last + 1 + i) % 256).find? (ctxReady s)

/-- A core takes a block of the next context in turn, unless a wipe runs (R316, R327). -/
def hashX (s : State) : State :=
  if !working s || s.ln.wiping then s else
  match hashTurn s with
  | none => s
  | some c => startNext c 8 (hashBlockOf c { s with dg := { s.dg with last := c } })

/-! ### Result reads (R315, R318, R319) -/

/-- What a read of DG_RES[k] returns, and what it does. -/
def dgResX (k : Nat) (s : State) : State × Nat :=
  let c := rFld s Reg.DG_SEL 7 0
  let x := ctxOf s c
  if x.requester ≠ 1 then (s, 0) else
  match x.state with
  | .done => if x.bad then (clearCtx c 5 s, 0) else (s, ofBytes (slice x.result (4 * k) 4))
  | .opened | .busy =>
    if pageCompat s Reg.DG_PAGE then
      (pulse Reg.DG_PAGE 2 (recErr Reg.DG_PAGE 3 0 (bump Reg.DG_EARLY 1 (setCtx c { x with status := stDigestEarly } s))), 0)
    else (clearCtx c 3 s, 0)
  | _ => (s, 0)

/-- A read of DG_RES[k]; the I3C target's returns zero and does nothing else (R341). -/
def dgResReadX (p : Path) (k : Nat) (s : State) : State :=
  if dead s || !reaches s p 0 (Reg.DG_RES k) || 16 ≤ k then s else
  match if p = .i3c then (s, 0) else dgResX k s with
  | (s, w) => emit (.word (BitVec.ofNat 32 w)) s

def execDgResRead (p : Path) (k : Nat) (s : State) : Host.Outcome State Fault Refusal := .next (dgResReadX p k s)

/-- DG_STATUS, DG_CTXST and the other words a read of the DG and KS pages forms. -/
def DgState.num : DgState → Nat
  | .free => 0
  | .idle => 1
  | .opened => 2
  | .busy => 3
  | .done => 4
  | .cleared => 5
def dgStatusWord (s : State) : Nat :=
  (if s.ln.wiping then 0 else min 16 ((List.range 256).filter (ctxReady s)).length) + 2 ^ 5 * ctxFree s + 2 ^ 14 * dgHeld s
def dgLastWord (s : State) : Nat := s.dg.outcome + 2 ^ 8 * s.dg.lastCtx + 2 ^ 24 * s.dg.lastStatus
def dgCtxWord (s : State) : Nat :=
  let x := ctxOf s (rFld s Reg.DG_SEL 7 0)
  x.state.num + 8 * x.requester + 32 * x.alg + 2 ^ 8 * x.owner + 2 ^ 19 * b2n x.bound + 2 ^ 20 * x.queue.length + 2 ^ 24 * x.status
def ksValid (s : State) : Nat := (s.keys.filter fun p => bit p.2.attr 0).length

/-! ### Key store (R324) -/

/-- A write of KS_CMD. -/
def ksCmdEff (v : Nat) (s : State) : State :=
  let k := rFld s Reg.KS_RSEL 8 0
  if !bit v 0 then s else
  let s := readLining [8192 + k] s
  if bit (keyOf s k).attr 0 && fld (keyOf s k).attr 13 3 = 0x7FF then recErr Reg.KS_PAGE 2 0 s
  else setKey k {} s

def execErase (w : Writer) (v : W32) (s : State) : Host.Outcome State Fault Refusal :=
  .next (acceptWrite w Reg.KS_CMD (ksCmdEff v.toNat) s)

/-- A word of the KS shadow; KS_KEY holds nothing once the commit has run. -/
def ksPend (s : State) (a : Nat) : Nat := ((kFind s.rf.pend a).map BitVec.toNat).getD (rGet s a)

/-- STAGE_COMMIT of the KS page: accepted or refused, the key shadow is zeroed and STAGE_PENDING clears. -/
def ksCommit (s : State) : State :=
  let k := ksPend s Reg.KS_WSLOT % 512
  let a := ksPend s Reg.KS_WATTR
  let klen := fld a 25 19
  let key := ((List.range 16).flatMap fun i => toBytes 4 (((kFind s.rf.pend (Reg.KS_KEY i)).map BitVec.toNat).getD 0)).take klen
  let slots := s.rf.pend.filter fun p => p.1 = Reg.KS_WSLOT || p.1 = Reg.KS_WATTR
  let s := readLining [8192 + k] { s with rf := { s.rf with pend := s.rf.pend.filter fun p => !(Reg.KS_PAGE ≤ p.1 && p.1 < Reg.KS_PAGE + 0x1000) } }
  if bit (keyOf s k).attr 0 then recErr Reg.KS_PAGE 1 0 s
  else if !(fld a 2 1 = 1 || fld a 2 1 = 2) || klen = 0 || 64 < klen || 1024 < fld a 13 3 then recErr Reg.KS_PAGE 2 0 s
  else if s.dev.fuseLc = 4 || s.ln.wiping then recErr Reg.KS_PAGE 3 0 s
  else
    let s := slots.foldl (fun t p => rSet p.1 p.2.toNat t) s
    setKey k { attr := setFld (setFld a 31 26 0) 0 0 1, key := key ++ List.replicate (64 - key.length) 0 } s

/-! ### The Lining (R325 to R327) -/

/-- A tamper event of a source that is not masked: it latches, and wipes unless a wipe runs (R326, R327). -/
def tamperLatch (src : Nat) (s : State) : State :=
  let s := if s.ln.wiping then s else wipeLining s
  level Reg.LN_PAGE 1 true { s with ln := { s.ln with tamper := true, src := setFld s.ln.src src src 1 } }

/-- A wipe ends (R327). -/
def wipeEndX (s : State) : State :=
  if s.ln.wiping then pulse Reg.LN_PAGE 0 { s with ln := { s.ln with wiping := false } } else s

def execWipeEnd (s : State) : Host.Outcome State Fault Refusal := .next (wipeEndX s)

/-- A write of LN_TAMPER_MASK: in BLANK only (R326). -/
def tamperMaskEff (v : Nat) (s : State) : State :=
  if s.dev.fuseLc = 0 then { s with ln := { s.ln with mask := v % 16 } } else recErr Reg.LN_PAGE 1 0 s

def execTamperMaskWrite (w : Writer) (v : W32) (s : State) : Host.Outcome State Fault Refusal :=
  .next (acceptWrite w Reg.LN_TAMPER_MASK (tamperMaskEff v.toNat) s)

/-- The words of the LN page. -/
def lnStatusWord (s : State) : Nat := s.dev.fuseLc + 8 * b2n s.ln.wiping + 16 * b2n s.ln.tamper

end Sys2Proof.Machine
end

