-- ==== Sys2Proof/Machine/Flags.lean ====
section
/-! DEFINITION. IEEE 754-2019 binary32 and binary64 arithmetic with its exception flags, and the roundings and saturation
of the integer side (R171, R202, R204, R209). Every result is formed exactly and rounded once. -/

namespace Sys2Proof.Machine

/-! ### Sticky flags of FCSR -/

abbrev fxInvalid := 0x10
abbrev fxDivZero := 0x20
abbrev fxOverflow := 0x40
abbrev fxUnderflow := 0x80
abbrev fxInexact := 0x100
abbrev fxVsat := 0x200

/-! ### Formats -/

/-- A binary format: precision and exponent bits. -/
structure FloatFmt where
  prec : Nat
  ebits : Nat
  deriving DecidableEq, Repr

def fmt32 : FloatFmt := ⟨24, 8⟩
def fmt64 : FloatFmt := ⟨53, 11⟩

/-- The format's width, its bias, its least exponent, and its all-ones exponent field. -/
def FloatFmt.width (f : FloatFmt) : Nat := f.prec + f.ebits
def FloatFmt.bias (f : FloatFmt) : Int := 2 ^ (f.ebits - 1) - 1
def FloatFmt.emin (f : FloatFmt) : Int := 1 - f.bias
def FloatFmt.emax (f : FloatFmt) : Nat := 2 ^ f.ebits - 1

/-- A decoded operand; `fin neg m e` is the number ±m × 2^e. -/
inductive Fp where
  | nan (quiet : Bool)
  | inf (neg : Bool)
  | fin (neg : Bool) (m : Nat) (e : Int)
  deriving DecidableEq, Repr

/-- Decodes the bits of a format. -/
def Fp.decode (f : FloatFmt) (b : Nat) : Fp :=
  let fw := f.prec - 1
  let frac := b % 2 ^ fw
  let ex := b / 2 ^ fw % 2 ^ f.ebits
  let neg := bit b (f.width - 1)
  if ex = f.emax then (if frac = 0 then .inf neg else .nan (bit frac (fw - 1)))
  else if ex = 0 then .fin neg frac (f.emin - fw)
  else .fin neg (2 ^ fw + frac) ((ex : Int) - f.bias - fw)

/-- The bits of a sign, an exponent field and a fraction. -/
def packBits (f : FloatFmt) (neg : Bool) (ex frac : Nat) : Nat :=
  b2n neg * 2 ^ (f.width - 1) + ex * 2 ^ (f.prec - 1) + frac

def infBits (f : FloatFmt) (neg : Bool) : Nat := packBits f neg f.emax 0
def zeroBits (f : FloatFmt) (neg : Bool) : Nat := packBits f neg 0 0
def maxBits (f : FloatFmt) (neg : Bool) : Nat := packBits f neg (f.emax - 1) (2 ^ (f.prec - 1) - 1)
/-- The canonical quiet NaN: sign 0, the fraction's top bit alone (PRESUMED, notes/assumptions/48.md). -/
def nanBits (f : FloatFmt) : Nat := packBits f false f.emax (2 ^ (f.prec - 2))

/-! ### Rounding -/

/-- Whether a magnitude with remainder `rem` of 2^k below its last place is rounded up, by FCSR's mode: 0 nearest even,
1 toward zero, 2 up, 3 down. -/
def roundsUp (rm : Nat) (neg : Bool) (hi rem k : Nat) : Bool :=
  match rm with
  | 0 => 2 ^ k < 2 * rem || (2 * rem = 2 ^ k && k ≠ 0 && hi % 2 = 1)
  | 1 => false
  | 2 => !neg && rem ≠ 0
  | _ => neg && rem ≠ 0

/-- A magnitude m × 2^e rounded to a multiple of 2^q, in units of 2^q, and whether it was inexact. -/
def roundTo (rm : Nat) (neg : Bool) (m : Nat) (e q : Int) : Nat × Bool :=
  if q ≤ e then (m * 2 ^ (e - q).toNat, false)
  else
    let k := (q - e).toNat
    let hi := m / 2 ^ k
    let rem := m % 2 ^ k
    (hi + b2n (roundsUp rm neg hi rem k), rem ≠ 0)

/-- The bits and flags of a nonzero number ±m × 2^e rounded to a format. -/
def roundPack (f : FloatFmt) (rm : Nat) (neg : Bool) (m : Nat) (e : Int) : Nat × Nat :=
  let top := e + Nat.log2 m
  let q := max (top - (f.prec - 1)) (f.emin - (f.prec - 1))
  let r := roundTo rm neg m e q
  let q' := if r.1 = 2 ^ f.prec then q + 1 else q
  let m' := if r.1 = 2 ^ f.prec then 2 ^ (f.prec - 1) else r.1
  if 2 ^ (f.prec - 1) ≤ m' && f.bias < q' + (f.prec - 1) then
    let toInf := match rm with
      | 0 => true
      | 1 => false
      | 2 => !neg
      | _ => neg
    (if toInf then infBits f neg else maxBits f neg, fxOverflow + fxInexact)
  else
    let tiny := top < f.emin &&
      (!Config.tinyAfter || !((roundTo rm neg m e (top - (f.prec - 1))).1 = 2 ^ f.prec && top + 1 = f.emin))
    let fl := if r.2 then (if tiny then fxUnderflow + fxInexact else fxInexact) else 0
    if m' < 2 ^ (f.prec - 1) then (packBits f neg 0 m', fl)
    else (packBits f neg (q' + (f.prec - 1) + f.bias).toNat (m' - 2 ^ (f.prec - 1)), fl)

/-- Rounds a number that may be zero; an exact zero takes the sign given. -/
def roundZ (f : FloatFmt) (rm : Nat) (zneg neg : Bool) (m : Nat) (e : Int) : Nat × Nat :=
  if m = 0 then (zeroBits f zneg, 0) else roundPack f rm neg m e

/-! ### Operations -/

/-- Whether an operand is a signalling NaN, and the flag it raises. -/
def Fp.signals : Fp → Bool
  | .nan q => !q
  | _ => false
def Fp.isNan : Fp → Bool
  | .nan _ => true
  | _ => false
def nanFlag (xs : List Fp) : Nat := if xs.any Fp.signals then fxInvalid else 0

/-- The value with its sign changed. -/
def Fp.neg : Fp → Fp
  | .nan q => .nan q
  | .inf n => .inf !n
  | .fin n m e => .fin (!n) m e

/-- A signed integer of units of 2^e. -/
def Fp.units (neg : Bool) (m : Nat) (e lo : Int) : Int :=
  let v : Int := ((m * 2 ^ (e - lo).toNat : Nat) : Int)
  if neg then -v else v

/-- The sum of two finite numbers, rounded once; an exact zero of opposite signs is +0, or −0 when rounding down. -/
def sumFin (f : FloatFmt) (rm : Nat) (n₁ : Bool) (m₁ : Nat) (e₁ : Int) (n₂ : Bool) (m₂ : Nat) (e₂ : Int) : Nat × Nat :=
  let lo := min e₁ e₂
  let v := Fp.units n₁ m₁ e₁ lo + Fp.units n₂ m₂ e₂ lo
  let zneg := if m₁ = 0 && m₂ = 0 && n₁ = n₂ then n₁ else rm = 3
  roundZ f rm zneg (v < 0) v.natAbs lo

def fpAdd (f : FloatFmt) (rm : Nat) (a b : Nat) : Nat × Nat :=
  let x := Fp.decode f a
  let y := Fp.decode f b
  if x.isNan || y.isNan then (nanBits f, nanFlag [x, y]) else
  match x, y with
  | .inf n, .inf k => if n = k then (infBits f n, 0) else (nanBits f, fxInvalid)
  | .inf n, _ => (infBits f n, 0)
  | _, .inf n => (infBits f n, 0)
  | .fin n m e, .fin k l d => sumFin f rm n m e k l d
  | _, _ => (nanBits f, 0)

/-- The bits with their sign changed. -/
def flipSign (f : FloatFmt) (b : Nat) : Nat := setFld b (f.width - 1) (f.width - 1) (1 - b2n (bit b (f.width - 1)))

def fpSub (f : FloatFmt) (rm : Nat) (a b : Nat) : Nat × Nat := fpAdd f rm a (flipSign f b)

def fpMul (f : FloatFmt) (rm : Nat) (a b : Nat) : Nat × Nat :=
  let x := Fp.decode f a
  let y := Fp.decode f b
  if x.isNan || y.isNan then (nanBits f, nanFlag [x, y]) else
  match x, y with
  | .inf n, .inf k => (infBits f (n != k), 0)
  | .inf n, .fin k m _ => if m = 0 then (nanBits f, fxInvalid) else (infBits f (n != k), 0)
  | .fin k m _, .inf n => if m = 0 then (nanBits f, fxInvalid) else (infBits f (n != k), 0)
  | .fin n m e, .fin k l d => roundZ f rm (n != k) (n != k) (m * l) (e + d)
  | _, _ => (nanBits f, 0)

/-- A quotient with one sticky bit below its last place. -/
def divSticky (f : FloatFmt) (m l : Nat) : Nat × Nat :=
  let k := f.prec + 3 + Nat.log2 l
  let q := m * 2 ^ k / l
  (2 * q + b2n (m * 2 ^ k % l ≠ 0), k + 1)

def fpDiv (f : FloatFmt) (rm : Nat) (a b : Nat) : Nat × Nat :=
  let x := Fp.decode f a
  let y := Fp.decode f b
  if x.isNan || y.isNan then (nanBits f, nanFlag [x, y]) else
  match x, y with
  | .inf _, .inf _ => (nanBits f, fxInvalid)
  | .inf n, .fin k _ _ => (infBits f (n != k), 0)
  | .fin k _ _, .inf n => (zeroBits f (n != k), 0)
  | .fin n m e, .fin k l d =>
    if l = 0 then (if m = 0 then (nanBits f, fxInvalid) else (infBits f (n != k), fxDivZero))
    else if m = 0 then (zeroBits f (n != k), 0)
    else
      let q := divSticky f m l
      roundPack f rm (n != k) q.1 (e - d - q.2)
  | _, _ => (nanBits f, 0)

/-- The integer square root, bit by bit from 2^k. -/
def isqrt (n : Nat) : Nat → Nat → Nat
  | 0, r => if (r + 1) * (r + 1) ≤ n then r + 1 else r
  | k + 1, r => isqrt n k (if (r + 2 ^ (k + 1)) * (r + 2 ^ (k + 1)) ≤ n then r + 2 ^ (k + 1) else r)

def fpSqrt (f : FloatFmt) (rm : Nat) (a : Nat) : Nat × Nat :=
  match Fp.decode f a with
  | .nan q => (nanBits f, nanFlag [.nan q])
  | .inf n => if n then (nanBits f, fxInvalid) else (infBits f false, 0)
  | .fin n m e =>
    if m = 0 then (zeroBits f n, 0)
    else if n then (nanBits f, fxInvalid)
    else
      let odd := e % 2 = 1
      let m := (if odd then 2 * m else m) * 4 ^ (f.prec + 3)
      let e := if odd then e - 1 else e
      let r := isqrt m (2 * f.prec + 6) 0
      roundPack f rm false (2 * r + b2n (r * r ≠ m)) (e / 2 - (f.prec + 3) - 1)

/-- v × w + z, rounded once. -/
def fpFma (f : FloatFmt) (rm : Nat) (v w z : Nat) : Nat × Nat :=
  let x := Fp.decode f v
  let y := Fp.decode f w
  let c := Fp.decode f z
  let bad : Bool := match x, y with
    | .inf _, .fin _ m _ => m = 0
    | .fin _ m _, .inf _ => m = 0
    | _, _ => false
  if bad then (nanBits f, if c.isNan && !c.signals && !Config.fmaSignals then 0 else fxInvalid)
  else if x.isNan || y.isNan || c.isNan then (nanBits f, nanFlag [x, y, c])
  else
    let sgn := bit v (f.width - 1) != bit w (f.width - 1)
    match x, y, c with
    | .fin n m e, .fin k l d, .fin j i b => sumFin f rm (n != k) (m * l) (e + d) j i b
    | .fin _ _ _, .fin _ _ _, .inf j => (infBits f j, 0)
    | _, _, .inf j => if j = sgn then (infBits f j, 0) else (nanBits f, fxInvalid)
    | _, _, _ => (infBits f sgn, 0)

/-- Whether a number is below another, neither a NaN; `zeros` tells −0 from +0. -/
def Fp.lt (zeros : Bool) : Fp → Fp → Bool
  | .inf a, .inf b => a && !b
  | .inf a, _ => a
  | _, .inf b => !b
  | .fin a m e, .fin b l d =>
    if m = 0 && l = 0 then zeros && a && !b
    else decide (Fp.units a m e (min e d) < Fp.units b l d (min e d))
  | _, _ => false

/-- FMIN and FMAX: −0 is below +0. -/
def fpMinMax (f : FloatFmt) (isMax : Bool) (a b : Nat) : Nat × Nat :=
  let x := Fp.decode f a
  let y := Fp.decode f b
  if x.isNan || y.isNan then
    (if Config.minNumber && !(x.isNan && y.isNan) then (if x.isNan then b else a) else nanBits f, nanFlag [x, y])
  else if isMax then (if Fp.lt true x y then b else a, 0)
  else (if Fp.lt true y x then b else a, 0)

/-- FCMP: 1 less, 2 equal, 4 greater, 8 unordered. -/
def fpCmp (f : FloatFmt) (a b : Nat) : Nat × Nat :=
  let x := Fp.decode f a
  let y := Fp.decode f b
  if x.isNan || y.isNan then (8, if Config.cmpSignals then fxInvalid else nanFlag [x, y])
  else if Fp.lt false x y then (1, 0) else if Fp.lt false y x then (4, 0) else (2, 0)

/-- FCVTI: a number to a signed 64-bit integer by FCSR's rounding. -/
def fpToInt (f : FloatFmt) (rm : Nat) (a : Nat) : Nat × Nat :=
  let outside := ((Config.cvtOutside (f.prec = 24) a).toNat, fxInvalid)
  match Fp.decode f a with
  | .fin n m e =>
    let r := roundTo rm n m e 0
    let v : Int := if n then -(r.1 : Int) else r.1
    if v < -(2 ^ 63) || 2 ^ 63 ≤ v then outside else (narrow 64 v, if r.2 && Config.cvtInexact then fxInexact else 0)
  | _ => outside

/-- FCVTF: a signed 64-bit integer to a number. -/
def fpOfInt (f : FloatFmt) (rm : Nat) (g : Nat) : Nat × Nat :=
  let v := signed 64 g
  roundZ f rm false (v < 0) v.natAbs 0

/-! ### Integer roundings and limits -/

/-- A signed quotient by `d` rounded by a mode of Table 9.6. -/
def roundDiv (mode : Nat) (x : Int) (d : Nat) : Int :=
  let q := x.natAbs / d
  let r := x.natAbs % d
  let up := match mode with
    | 0 => false
    | 1 => d ≤ 2 * r
    | 2 => d < 2 * r || (2 * r = d && q % 2 = 1)
    | _ => r ≠ 0
  let m : Int := ((q + b2n up : Nat) : Int)
  if x < 0 then -m else m

/-- Whether an integer leaves the signed range of `n` bits, and its nearest limit. -/
def signedOver (n : Nat) (x : Int) : Bool := x < -(2 ^ (n - 1)) || 2 ^ (n - 1) ≤ x
def clampSigned (n : Nat) (x : Int) : Int := max (-(2 ^ (n - 1))) (min x (2 ^ (n - 1) - 1))
def unsignedOver (n : Nat) (x : Int) : Bool := x < 0 || 2 ^ n ≤ x
def clampUnsigned (n : Nat) (x : Int) : Int := max 0 (min x (2 ^ n - 1))

end Sys2Proof.Machine
end

