-- ==== Sys2Proof/Machine/Operands.lean ====
section
/-! DEFINITION. The fields of a Pocket instruction word, and the row of the opcode table that a word belongs to (Tables
8.2 to 8.5, 9.2 and 9.4). -/

namespace Sys2Proof.Machine

/-- The rows that the words of Pocket instructions belong to. -/
inductive PRow where
  | integerOp | floatOp | ld | st | fld | fst | ldr | str | cas | aadd | branch | loop | jl | jr | set | keep
  | nop | unit | matchReq | waitd | fence | clean | inv | clinv | zero | setWayClean | setWayInv | setWayClinv | clinvVc
  | call | rdcr | wrcr | ret | report | rgld | tlbiAll | tlbiSlot | tlbiInstance
  | vld | vst | vlds | vsts | vgath | vscat | scaddt | scadds | vunpk
  | vectorArithmetic | vmulwl | vsrr | vresc | vscan | vunzz | vredadd | vcomp | vectorFloat | vcmp | vwhilelt
  | predicateOp | pcnt | vsplat | vext | vins | undefined
  deriving DecidableEq, Repr

/-! ### Scalar fields (Table 8.2) -/

def wForm (w : W32) : Nat := fld w.toNat 31 29

/-- Forms R3, RI and SYS. -/
def wOp (w : W32) : Nat := fld w.toNat 28 23
def wD (w : W32) : Nat := fld w.toNat 22 18
def wA (w : W32) : Nat := fld w.toNat 17 13
def wB (w : W32) : Nat := fld w.toNat 12 8
def wW (w : W32) : Nat := fld w.toNat 1 0
def wImm13 (w : W32) : Int := signed 13 w.toNat
def wArg (w : W32) : Nat := fld w.toNat 12 0

/-- Form MEM. -/
def mOp (w : W32) : Nat := fld w.toNat 28 25
def mD (w : W32) : Nat := fld w.toNat 24 20
def mA (w : W32) : Nat := fld w.toNat 19 15
def mSize (w : W32) : Nat := fld w.toNat 14 12
def mOff (w : W32) : Int := signed 12 w.toNat * 2 ^ mSize w

/-- Form BR. -/
def bCond (w : W32) : Nat := fld w.toNat 28 26
def bA (w : W32) : Nat := fld w.toNat 25 21
def bB (w : W32) : Nat := fld w.toNat 20 16
def bOff (w : W32) : Int := signed 16 w.toNat * 4

/-- Form J. -/
def jLink (w : W32) : Bool := bit w.toNat 28
def jOff (w : W32) : Int := signed 28 w.toNat * 4

/-- Form WIDE. -/
def iD (w : W32) : Nat := fld w.toNat 28 24
def iPos (w : W32) : Nat := fld w.toNat 23 22
def iOp (w : W32) : Nat := fld w.toNat 21 20
def iImm (w : W32) : Nat := fld w.toNat 15 0

/-! ### Vector fields (Table 9.2) -/

def vLong (w : W32) : Bool := bit w.toNat 28
def vOp (w : W32) : Nat := fld w.toNat 27 22
def vD (w : W32) : Nat := fld w.toNat 21 17
def vA (w : W32) : Nat := fld w.toNat 16 12
def vB (w : W32) : Nat := fld w.toNat 11 7
def vPg (w : W32) : Nat := fld w.toNat 6 4
def vEw (w : W32) : Nat := fld w.toNat 3 1
def vZ (w : W32) : Bool := bit w.toNat 0

/-- Element width in bits, the bits of the view, and its elements (Table 9.1). -/
def vWidth (w : W32) : Nat := 8 * 2 ^ vEw w
def vBits (w : W32) : Nat := if vLong w then 1024 else 128
def vCount (w : W32) : Nat := vBits w / vWidth w

/-! ### Rows -/

/-- Form R3 (Table 8.3); W of 2 or 3 is invalid. -/
def rowR3 (w : W32) : PRow :=
  let o := wOp w
  if 2 ≤ wW w then .undefined
  else if o ≤ 0x0C || o = 0x0E || o = 0x0F || (0x10 ≤ o && o ≤ 0x16) || (0x18 ≤ o && o ≤ 0x1B) || o = 0x1D then .integerOp
  else if 0x20 ≤ o && o ≤ 0x29 then .floatOp
  else if o = 0x30 then .cas
  else if o = 0x31 then .aadd
  else if o = 0x38 then .jr
  else .undefined

/-- Form RI (Table 8.3). -/
def rowRI (w : W32) : PRow :=
  let o := wOp w
  if o = 0 || (2 ≤ o && o ≤ 4) || (6 ≤ o && o ≤ 0x0C) then .integerOp else .undefined

/-- Form MEM (Table 8.4). -/
def rowMem (w : W32) : PRow :=
  let n := mSize w
  match mOp w with
  | 0 => if n ≤ 3 then .ld else .undefined
  | 1 => if n ≤ 3 then .ld else .undefined
  | 2 => if n ≤ 3 then .st else .undefined
  | 3 => if 2 ≤ n && n ≤ 4 then .fld else .undefined
  | 4 => if 2 ≤ n && n ≤ 4 then .fst else .undefined
  | 5 => if n ≤ 3 then .ldr else .undefined
  | 6 => if n ≤ 3 then .str else .undefined
  | _ => .undefined

/-- Maintenance operations by ARG[2:0] (Table 8.8). -/
def rowCmo (w : W32) : PRow :=
  match wArg w % 8 with
  | 0 => .clean
  | 1 => .inv
  | 2 => .clinv
  | 3 => .zero
  | 4 => .setWayClean
  | 5 => .setWayInv
  | 6 => .setWayClinv
  | _ => .clinvVc

/-- Form SYS (Table 8.5). -/
def rowSys (w : W32) : PRow :=
  match wOp w with
  | 0x00 => .nop
  | 0x01 => .unit
  | 0x02 => .matchReq
  | 0x03 => .waitd
  | 0x04 => .fence
  | 0x05 => rowCmo w
  | 0x06 => .call
  | 0x07 => .rdcr
  | 0x10 => .wrcr
  | 0x11 => .ret
  | 0x12 => .report
  | 0x13 => .rgld
  | 0x14 => match wArg w % 4 with
    | 0 => .tlbiAll
    | 1 => .tlbiSlot
    | 2 => .tlbiInstance
    | _ => .undefined
  | _ => .undefined

/-- The row of a VEC opcode, with the least and the greatest EW field it allows (Table 9.4). -/
def vecRow : Nat → Option (PRow × Nat × Nat)
  | 0x00 => some (.vld, 0, 4)
  | 0x01 => some (.vst, 0, 4)
  | 0x02 => some (.vlds, 0, 4)
  | 0x03 => some (.vsts, 0, 4)
  | 0x04 => some (.vgath, 2, 4)
  | 0x05 => some (.vscat, 2, 4)
  | 0x06 => some (.scaddt, 3, 4)
  | 0x07 => some (.scadds, 3, 4)
  | 0x08 => some (.vunpk, 0, 3)
  | 0x18 => some (.vectorArithmetic, 0, 3)
  | 0x19 => some (.vmulwl, 0, 3)
  | 0x1A => some (.vmulwl, 0, 3)
  | 0x1B => some (.vredadd, 0, 4)
  | 0x1C => some (.vcomp, 0, 4)
  | 0x26 => some (.vsrr, 0, 4)
  | 0x27 => some (.vresc, 3, 4)
  | 0x28 => some (.vunzz, 0, 3)
  | 0x29 => some (.vscan, 0, 3)
  | 0x36 => some (.vwhilelt, 0, 4)
  | 0x3C => some (.pcnt, 0, 4)
  | 0x3D => some (.vsplat, 0, 4)
  | 0x3E => some (.vext, 0, 3)
  | 0x3F => some (.vins, 0, 3)
  | o =>
    if (0x10 ≤ o && o ≤ 0x17) || o = 0x1D || o = 0x1E || (0x20 ≤ o && o ≤ 0x25) || o = 0x2A || o = 0x2B then
      some (.vectorArithmetic, 0, 4)
    else if 0x2C ≤ o && o ≤ 0x2F then some (.vectorFloat, 2, 3)
    else if 0x30 ≤ o && o ≤ 0x35 then some (.vcmp, 0, 4)
    else if 0x38 ≤ o && o ≤ 0x3B then some (.predicateOp, 0, 4)
    else none

/-- Whether a row's predicate operands are numbered below 8 (R191), and its destination differs from the vector operands
that R193 names. -/
def vecOperandsGood (r : PRow) (w : W32) : Bool :=
  match r with
  | .vcmp => vD w < 8
  | .vwhilelt => vD w < 8
  | .predicateOp => vD w < 8 && vA w < 8 && vB w < 8
  | .pcnt => vA w < 8
  | .vgath => vD w ≠ vB w
  | _ => true

/-- The row of a VEC word (R193). -/
def rowVec (w : W32) : PRow :=
  match vecRow (vOp w) with
  | none => .undefined
  | some (r, lo, hi) => if lo ≤ vEw w && vEw w ≤ hi && vecOperandsGood r w then r else .undefined

/-- The row of an instruction word (R170). -/
def rowOfWord (w : W32) : PRow :=
  match wForm w with
  | 0 => rowR3 w
  | 1 => rowRI w
  | 2 => rowMem w
  | 3 => if bCond w ≤ 5 then .branch else if bCond w = 6 then .loop else .undefined
  | 4 => .jl
  | 5 => match iOp w with
    | 0 => .set
    | 1 => .keep
    | _ => .undefined
  | 6 => rowSys w
  | _ => rowVec w

end Sys2Proof.Machine
end

