-- ==== Sys2Proof/Machine/Pocket.lean ====
section
/-! DEFINITION. What every Pocket instruction shares: registers and control registers, translation and faults, the L1, the
accesses, and the course of one instruction (R168 to R182). -/

namespace Sys2Proof.Machine

/-! ### Registers -/

/-- A general register; g0 reads as zero and is never written (R168). -/
def gGet (s : State) (p r : Nat) : Nat := if r = 0 then 0 else (kGet 0 (pktOf s p).g r).toNat
def gSet (p r v : Nat) (s : State) : State :=
  if r = 0 then s else setPkt p { pktOf s p with g := kPut 0 (pktOf s p).g r (BitVec.ofNat 64 v) } s

/-- A vector register; `f` registers are its low 64 bits (R188). -/
def vGet (s : State) (p r : Nat) : Nat := (kGet 0 (pktOf s p).v r).toNat
def vSet (p r v : Nat) (s : State) : State :=
  setPkt p { pktOf s p with v := kPut 0 (pktOf s p).v r (BitVec.ofNat 1024 v) } s
def fGet (s : State) (p r : Nat) : Nat := vGet s p r % 2 ^ 64
def fSet (p r v : Nat) (s : State) : State := vSet p r (setFld (vGet s p r) 63 0 v) s

/-- A predicate register; p0 reads as all ones and is never written (R190). -/
def prGet (s : State) (p r : Nat) : Nat := if r = 0 then 2 ^ 128 - 1 else (kGet 0 (pktOf s p).pr r).toNat
def prSet (p r v : Nat) (s : State) : State :=
  if r = 0 then s else setPkt p { pktOf s p with pr := kPut 0 (pktOf s p).pr r (BitVec.ofNat 128 v) } s

/-! ### Control registers (Table 8.1) -/

/-- STATUS, bits [5:0]. -/
def statusWord (x : Pocket) : Nat :=
  b2n x.priv + 2 * b2n x.uacc + 4 * b2n x.ie + 8 * b2n x.nest + 16 * b2n x.ppriv + 32 * b2n x.bare

/-- Instance of a Pocket's task, 0x7FF with none. -/
def pktInst (s : State) (p : Nat) : Nat :=
  match (pktOf s p).task with
  | some n => (taskOf s n).inst
  | none => 0x7FF

/-- A Pocket's own cycle count since its reset. -/
def pktCycle (s : State) (p : Nat) : Nat := (s.cyc16 - (pktOf s p).cycBase) / 16

/-- Whether a control register is listed, and whether user mode may read it. -/
def crListed (n : Nat) : Bool := n ≤ 5 || (8 ≤ n && n ≤ 0x0E)
def crUser (n : Nat) : Bool := 8 ≤ n && n ≤ 0x0E

/-- The value of a control register. -/
def crGet (s : State) (p n : Nat) : Nat :=
  let x := pktOf s p
  match n with
  | 0x00 => statusWord x
  | 0x01 => x.epc
  | 0x02 => x.cause
  | 0x03 => x.taddr
  | 0x04 => x.tvec
  | 0x05 => x.sscr
  | 0x08 => pktCycle s p % 2 ^ 64
  | 0x09 => s.seam.num % 2 ^ 64
  | 0x0A => seamOffset s
  | 0x0B => match x.task with
    | some t => t + 65536 * (taskOf s t).inst
    | none => 0xFFFF + 65536 * 0x7FF
  | 0x0C => x.fcsr
  | 0x0D => x.vxStart
  | 0x0E => x.vxAddr
  | _ => 0

/-- A supervisor's write of a control register; a read-only one keeps its value (R169). -/
def crSet (p n v : Nat) (s : State) : State :=
  let x := pktOf s p
  let v := v % 2 ^ 64
  match n with
  | 0x00 => setPkt p { x with priv := bit v 0, uacc := bit v 1, ie := bit v 2, nest := bit v 3, ppriv := bit v 4, bare := bit v 5 } s
  | 0x01 => setPkt p { x with epc := v } s
  | 0x02 => setPkt p { x with cause := v % 256 } s
  | 0x03 => setPkt p { x with taddr := v } s
  | 0x04 => setPkt p { x with tvec := v / 64 * 64 } s
  | 0x05 => setPkt p { x with sscr := v } s
  | 0x0C => setPkt p { x with fcsr := v &&& 0x3F3 } s
  | 0x0D => setPkt p { x with vxStart := v } s
  | 0x0E => setPkt p { x with vxAddr := v } s
  | _ => s

/-- Sets sticky bits of FCSR. -/
def fcsrOr (p m : Nat) (s : State) : State :=
  if m = 0 then s else setPkt p { pktOf s p with fcsr := (pktOf s p).fcsr ||| m } s

/-! ### The course of an instruction -/

/-- Whether a Pocket can begin an instruction: it has a task, runs, waits for nothing, and no cut interrupt is due at this
boundary (R176). -/
def canRun (s : State) (p : Nat) : Bool :=
  let x := pktOf s p
  working s && x.task.isSome && !x.halted && x.wait = .none && !(x.cut && x.ie)

/-- The HALTED level follows the Pocket. -/
def haltLevel (p : Nat) (s : State) : State := level (Reg.PKT_PAGE p) 2 (pktOf s p).halted s

/-- A Pocket whose HALT bit is set halts at an instruction boundary: WAITD and a stalled UNIT are boundaries, a wait for a
Match response or a fill is not (R176). -/
def haltCheck (p : Nat) (s : State) : State :=
  let x := pktOf s p
  let boundary := match x.wait with
    | .resp _ => false
    | .fill _ => false
    | _ => true
  if rBit s (Reg.PKT_CTRL p) 0 && boundary && !x.halted then haltLevel p (setPkt p { x with halted := true } s) else s

/-- The Pocket goes on at `pc`. -/
def pMove (p pc : Nat) (s : State) : State :=
  if (pktOf s p).task.isNone then s else
  haltCheck p (setPkt p { pktOf s p with pc := pc % 2 ^ 48 / 4 * 4, wait := .none, filled := [] } s)

/-- An instruction completes: it is counted. -/
def countInstr (p : Nat) (s : State) : State := bump2 (Reg.PKT_INSTR p) (Reg.PKT_SNAP_INSTR p) 1 s

/-- An instruction completes and the Pocket goes on at `pc`. -/
def pGoto (p pc : Nat) (s : State) : State :=
  if (pktOf s p).task.isNone then s else
  haltCheck p (setPkt p { pktOf s p with pc := pc % 2 ^ 48 / 4 * 4, wait := .none, filled := [] } (countInstr p s))

/-- An instruction completes and the next one follows. -/
def pDone (p : Nat) (s : State) : State := pGoto p ((pktOf s p).pc + 4) s

/-! ### Translation (R174, R177, R251) -/

/-- The cause of a failed access (Table 8.6); 0 for OK. -/
def causeOf (st : Nat) : Nat :=
  if st = stOK then 0
  else if st = stGuard then causeGuard
  else if st = stXlate then causeXlate
  else if st = stWalk then causeWalk
  else if st = stWalkDevice then causeWalkDevice
  else if st = stDescInvalid then causeSpace
  else if st = stParity then causeParity
  else if st = stDomain then causeOffline
  else causeUncorr

/-- The region register that holds a slot for an instance, the lowest first. -/
def regionHit (x : Pocket) (slot i : Nat) : Option RegionReg :=
  (x.regions.find? fun r => r.2.slot = slot && (r.2.inst.isNone || r.2.inst = some i)).map (·.2)

/-- Whether a line of a region is cached: cacheable, not streaming, and in HBM or the capacity tier (R180). -/
def cachedAt (s : State) (d : Desc) (pa : Nat) : Bool :=
  d.c && !d.s && (match regionOf s pa with
    | .hbm _ _ => true
    | .cap _ _ => true
    | _ => false)

/-- The place of a translated address: the Ledger Store and the register space stop an access with SPACE. -/
def placeAt (s : State) (d : Desc) (pa : Nat) : Place :=
  match regionOf s pa with
  | .ledger _ => ⟨causeSpace, 0, false⟩
  | .regs _ => ⟨causeSpace, 0, false⟩
  | _ => ⟨0, pa, cachedAt s d pa⟩

/-- A supervisor address with BARE set is physical (R174); one in a hole fails at its access (R238). -/
def barePlace (s : State) (va : Nat) : Place :=
  match regionOf s va with
  | .regs _ => ⟨causeSpace, 0, false⟩
  | _ => ⟨0, va, false⟩

/-- Translates one address of a Pocket: the region registers, then its TLB, then a walk. -/
def pTranslate (p va : Nat) (r w x_ : Bool) (s : State) : State × Place :=
  let x := pktOf s p
  let acc : Acc := ⟨r, w, x_, x.priv, x.uacc⟩
  if x.priv && x.bare then (s, barePlace s va)
  else if 2 ^ 48 ≤ va then (s, ⟨causeXlate, 0, false⟩)
  else
    let i := pktInst s p
    match regionHit x (va / 2 ^ 36) i with
    | some e =>
      let q := regionPlace s true acc e (va % 2 ^ 36)
      if q.1 ≠ stOK then (s, ⟨causeOf q.1, 0, false⟩) else (s, placeAt s e.desc q.2)
    | none =>
      let (s, st, a, d) := translateTlb p i va true acc s
      if st ≠ stOK then (s, ⟨causeOf st, 0, false⟩) else (s, placeAt s d a)

/-! ### The instruction cache (R173, R185) -/

/-- Fetches a line of code into the instruction cache, which keeps the 256 lines fetched last (DESIGN CHOICE,
notes/assumptions/46.md). -/
def fetchCode (p l : Nat) (s : State) : State × Nat :=
  let (s, st, bs) := meshRead (pktInit s p) (l * 64) 64 s
  if st ≠ stOK then (s, causeOf st) else
  (setPkt p { pktOf s p with icache := (({ line := l, data := bs } : ILine)
      :: (pktOf s p).icache.filter fun e => e.line ≠ l).take 256 } s, 0)

/-- The line of an instruction: held good, good after a replay, or fetched where it is missing or its parity error is
persistent. -/
def codeLine (p l : Nat) (s : State) : State × Nat :=
  match (pktOf s p).icache.find? fun e => e.line = l with
  | none => fetchCode p l s
  | some e =>
    if e.hard then fetchCode p l s
    else if e.soft then
      (bump (Reg.PKT_REPLAY p) 1 (setPkt p { pktOf s p with
        icache := (pktOf s p).icache.map fun e => if e.line = l then { e with soft := false } else e } s), 0)
    else (s, 0)

/-- The fetch of the instruction at PC: its translation, which needs the execute right at both levels (R174), and its
line; the cause it fails with, or 0. -/
def fetchCheck (p : Nat) (s : State) : State × Nat :=
  let (s, q) := pTranslate p (pktOf s p).pc false false true s
  if q.cause ≠ 0 then (s, q.cause) else codeLine p (q.pa / 64) s

/-! ### The L1 (R180, R181) -/

/-- The set of a line, and the lines a set holds. -/
def l1Set (l : Nat) : Nat := l % 128
def l1Lines (x : Pocket) (l : Nat) : List L1Line := kGet [] x.sets (l1Set l)
def setL1 (p l : Nat) (ls : List L1Line) (s : State) : State :=
  setPkt p { pktOf s p with sets := kPut [] (pktOf s p).sets (l1Set l) ls } s

/-- Writes a line back to memory. -/
def writeBack (p : Nat) (e : L1Line) (s : State) : State :=
  bump (Reg.PKT_WRITEBACK p) 1 (meshWrite (pktInit s p) (e.line * 64) e.data s).1

/-- A dirty line pushed out of the victim cache: its write-back is issued and it stays in the buffer, clean. -/
def evictPush (p : Nat) (e : L1Line) (s : State) : State :=
  let s := writeBack p e s
  setPkt p { pktOf s p with evict := ({ e with dirty := false } :: (pktOf s p).evict).take 2 } s

/-- A line evicted from the L1. -/
def victimPush (p : Nat) (e : L1Line) (s : State) : State :=
  let x := pktOf s p
  if !x.vcOn then (if e.dirty then evictPush p e s else s)
  else if x.victim.length < 8 then setPkt p { x with victim := e :: x.victim } s
  else
    let s := setPkt p { x with victim := e :: x.victim.take 7 } s
    match x.victim.drop 7 with
    | o :: _ => if o.dirty then evictPush p o s else s
    | [] => s

/-- The lowest way of a set that no line takes. -/
def freeWay (ls : List L1Line) : Option Nat := (List.range 4).find? fun w => !(ls.any fun e => e.way = w)

/-- Allocates a line in its set, most recently used; a full set gives up its least recently used line. -/
def l1Insert (p : Nat) (e : L1Line) (s : State) : State :=
  let ls := l1Lines (pktOf s p) e.line
  match freeWay ls with
  | some w => setL1 p e.line ({ e with way := w } :: ls) s
  | none =>
    match ls.getLast? with
    | none => s
    | some o => victimPush p o (setL1 p e.line ({ e with way := o.way } :: ls.dropLast) s)

/-- Whether a line is held by the L1, or by the victim cache or the eviction buffer. -/
def inL1 (x : Pocket) (l : Nat) : Bool := (l1Lines x l).any fun e => e.line = l
def inVictim (x : Pocket) (l : Nat) : Bool := (x.victim ++ x.evict).any fun e => e.line = l

/-- Takes a line back from the victim cache or the eviction buffer. -/
def recallLine (p l : Nat) (s : State) : State :=
  let x := pktOf s p
  match (x.victim ++ x.evict).find? fun e => e.line = l with
  | none => s
  | some e =>
    bump (Reg.PKT_RECALL p) 1 (l1Insert p e
      (setPkt p { x with victim := x.victim.filter fun q => q.line ≠ l, evict := x.evict.filter fun q => q.line ≠ l } s))

/-- Makes a held line the most recently used one of its set. -/
def touch (p l : Nat) (s : State) : State :=
  let ls := l1Lines (pktOf s p) l
  match ls.find? fun e => e.line = l with
  | none => s
  | some e => setL1 p l (e :: ls.filter fun q => q.line ≠ l) s

/-- Bytes of a held line, and a store into it, which replaces the parity of its words. -/
def l1Read (x : Pocket) (pa n : Nat) : List Byte :=
  match (l1Lines x (pa / 64)).find? fun e => e.line = pa / 64 with
  | some e => slice e.data (pa % 64) n
  | none => []
def l1Write (p pa : Nat) (bs : List Byte) (s : State) : State :=
  let keep := fun (w : Nat) => !wordIn (pa % 64) bs.length w
  setL1 p (pa / 64) ((l1Lines (pktOf s p) (pa / 64)).map fun e =>
    if e.line = pa / 64 then
      { e with dirty := true, data := splice e.data (pa % 64) bs, soft := e.soft.filter keep, hard := e.hard.filter keep }
    else e) s

/-- Discards the copies of a line. -/
def dropLine (p l : Nat) (s : State) : State :=
  let keep := fun (es : List L1Line) => es.filter fun e => e.line ≠ l
  let s := setL1 p l (keep (l1Lines (pktOf s p) l)) s
  let x := pktOf s p
  setPkt p { x with victim := keep x.victim, evict := keep x.evict } s

/-- Counts a fill that starts. -/
def countMiss (p : Nat) (s : State) : State := bump2 (Reg.PKT_L1_MISS p) (Reg.PKT_SNAP_MISS p) 1 s

/-- The Pocket's own earlier stores to a line reach memory before a read of it. -/
def drainFor (p l : Nat) (s : State) : State :=
  if (pktOf s p).stores.any fun e => e.pa / 64 = l then drainStores p s else s

/-- Fetches a line: its 64 bytes are read and allocated, or the read's cause. -/
def fetchLine (p l : Nat) (s : State) : State × Nat :=
  let (s, st, bs) := meshRead (pktInit s p) (l * 64) 64 (drainFor p l s)
  if st ≠ stOK then (s, causeOf st) else (l1Insert p { line := l, way := 0, dirty := false, data := bs } s, 0)

/-- What a lookup of words of a line finds. -/
inductive LineRes where
  | hit
  | miss
  /-- A persistent parity error in a dirty line. -/
  | parity
  deriving DecidableEq, Repr

/-- The words of a line that an access of `n` bytes at offset `o` reads, with the tag: a load reads those it touches, a
store those it changes in part. -/
def wordsRead (store : Bool) (o n w : Nat) : Bool := w = 16 || (if store then wordCut o n w else wordIn o n w)

/-- The copy of a line that the L1, the victim cache or the eviction buffer holds. -/
def heldLine (x : Pocket) (l : Nat) : Option L1Line :=
  match (l1Lines x l).find? fun e => e.line = l with
  | some e => some e
  | none => (x.victim ++ x.evict).find? fun e => e.line = l

/-- What an access of `n` bytes at `pa` finds (R181, R185): a clean line with a persistent error counts as missing. -/
def lookLine (x : Pocket) (store : Bool) (pa n : Nat) : LineRes :=
  match heldLine x (pa / 64) with
  | none => .miss
  | some e => if !(e.hard.any (wordsRead store (pa % 64) n)) then .hit else if e.dirty then .parity else .miss

/-- Clears the errors of a line that a replay of the words read clears, and counts the replay. -/
def replayLine (p : Nat) (store : Bool) (pa n : Nat) (s : State) : State :=
  let x := pktOf s p
  match heldLine x (pa / 64) with
  | none => s
  | some e =>
    if !(e.soft.any (wordsRead store (pa % 64) n)) then s else
    let clear := fun (es : List L1Line) => es.map fun e =>
      if e.line = pa / 64 then { e with soft := e.soft.filter fun w => !wordsRead store (pa % 64) n w } else e
    bump (Reg.PKT_REPLAY p) 1 (setPkt p { x with sets := kPut [] x.sets (l1Set (pa / 64)) (clear (l1Lines x (pa / 64))),
                                                 victim := clear x.victim, evict := clear x.evict } s)

/-- Serves a held line: a hit is counted unless the instruction itself has just filled it. -/
def serveLine (p l : Nat) (s : State) : State :=
  let x := pktOf s p
  if inL1 x l then
    touch p l (if x.filled.contains l then s else bump (Reg.PKT_L1_HIT p) 1 s)
  else recallLine p l s

/-- What an access meets. -/
inductive MemRes where
  | ok (bs : List Byte)
  | fault (cause : Nat)
  /-- A line that the L1 must fetch first. -/
  | miss (line : Nat)
  deriving DecidableEq, Repr

/-- The line of an access that the L1 caches: served, missing, or a parity error that traps; `sync` fetches a missing
line at once. -/
def withLine (p pa n : Nat) (store sync : Bool) (s : State) : State × MemRes :=
  let l := pa / 64
  match lookLine (pktOf s p) store pa n with
  | .hit => (serveLine p l (replayLine p store pa n s), .ok [])
  | .parity => (parityFail (Reg.PKT_PAGE p) 0 pa s, .fault causeParity)
  | .miss =>
    if !sync then (s, .miss l) else
    let (s, c) := fetchLine p l (countMiss p (dropLine p l s))
    if c ≠ 0 then (s, .fault c) else (s, .ok [])

/-- Reads bytes within one line at a place. A read that is not cached goes straight to memory, after the Pocket's own
stores to the line (R180). -/
def pRead (p : Nat) (q : Place) (n : Nat) (sync : Bool) (s : State) : State × MemRes :=
  if !q.cached then
    let (s, st, bs) := meshRead (pktInit s p) q.pa n (drainFor p (q.pa / 64) s)
    if st ≠ stOK then (s, .fault (causeOf st)) else (s, .ok bs)
  else
    match withLine p q.pa n false sync s with
    | (s, .ok _) => (s, .ok (l1Read (pktOf s p) q.pa n))
    | r => r

/-- A store that is not cached enters the store buffer, whose oldest store leaves it where it is full (R180); `slot` is
the slot it was translated through. -/
def bufferStore (p slot pa : Nat) (bs : List Byte) (s : State) : State :=
  let q := (pktOf s p).stores
  let s := match q with
    | e :: r => if r.length < 3 then s else
      (meshWrite (pktInit s p) e.pa e.bytes (setPkt p { pktOf s p with stores := r } s)).1
    | [] => s
  setPkt p { pktOf s p with stores := (pktOf s p).stores ++ [⟨pa, bs, slot⟩] } s

/-- Writes bytes within one line at a place that `va` translated to. A store that memory would not take traps before it
enters the buffer. -/
def pWrite (p va : Nat) (q : Place) (bs : List Byte) (sync : Bool) (s : State) : State × MemRes :=
  if !q.cached then
    let r := lineAccess true q.pa bs.length (drainFor p (q.pa / 64) s)
    if r.2 ≠ stOK then (r.1, .fault (causeOf r.2)) else (bufferStore p (va / 2 ^ 36) q.pa bs s, .ok [])
  else
    match withLine p q.pa bs.length true sync s with
    | (s, .ok _) => (l1Write p q.pa bs s, .ok [])
    | r => r

/-! ### Maintenance (Table 8.8) -/

/-- Cleans the copies of a line: dirty data is written back. -/
def cleanLine (p l : Nat) (s : State) : State :=
  let dirty := (allLines (pktOf s p)).filter fun e => e.line = l && e.dirty
  let s := dirty.foldl (fun s e => writeBack p e s) s
  let clean := fun (es : List L1Line) => es.map fun e => if e.line = l then { e with dirty := false } else e
  let x := pktOf s p
  setPkt p { x with sets := kMap x.sets fun _ es => clean es, victim := clean x.victim, evict := clean x.evict } s

def cleanDropLine (p l : Nat) (s : State) : State := dropLine p l (cleanLine p l s)

/-- Cleans and drops the victim cache and the eviction buffer; VC_EN then takes effect. -/
def cleanVictims (p : Nat) (s : State) : State :=
  let dirty := (pktOf s p).victim.filter (·.dirty)
  let s := dirty.foldl (fun s e => writeBack p e s) s
  setPkt p { pktOf s p with victim := [], evict := [], vcOn := rBit s (Reg.PKT_CTRL p) 1 } s

/-! ### Scalar accesses and the outstanding miss (R180, R181, R184, R185) -/

/-- The address of a MEM word. -/
def memAddr (s : State) (p : Nat) (word : W32) : Nat := narrow 64 (gGet s p (mA word) + mOff word)

def rdAcc : Acc := ⟨true, false, false, false, false⟩
def wrAcc : Acc := ⟨false, true, false, false, false⟩
def rwAcc : Acc := ⟨true, true, false, false, false⟩

/-- Whether a MEM word stores, and what its access asks for. -/
def isStore (word : W32) : Bool := rowOfWord word = .st || rowOfWord word = .fst || rowOfWord word = .str
def accOf (word : W32) : Acc := if isStore word then wrAcc else rdAcc

/-- The pieces of an access, cut at lines and at the top of the address space. -/
def laneSplit (va n : Nat) : List (Nat × Nat) :=
  (pieces va n).map fun q => (q.1 % 2 ^ 64, q.2)

/-- Every piece translated, in order: the places, or the first piece that fails with its cause. -/
def placesOf (p : Nat) (write : Bool) : List (Nat × Nat) → State → State × List (Place × Nat) × Option (Nat × Nat)
  | [], s => (s, [], none)
  | (va, n) :: r, s =>
    let (s, q) := pTranslate p va (!write) write false s
    if q.cause ≠ 0 then (s, [], some (va, q.cause)) else
    let (s, ps, e) := placesOf p write r s
    (s, (q, n) :: ps, e)

/-- The first line of the pieces that the L1 would have to fetch. -/
def firstMiss (x : Pocket) (store : Bool) : List (Place × Nat) → Option Nat
  | [] => none
  | (q, n) :: r => if q.cached && lookLine x store q.pa n = .miss then some (q.pa / 64) else firstMiss x store r

/-- Reads the pieces in order, `o` bytes into the access: the bytes, or the offset of the first byte that fails with its
cause. -/
def readPlaces (p : Nat) : Nat → List (Place × Nat) → State → State × List Byte × Option (Nat × Nat)
  | _, [], s => (s, [], none)
  | o, (q, n) :: r, s =>
    match pRead p q n false s with
    | (t, .fault c) => (t, [], some (o + (if q.cached then 0 else firstBad s q.pa n), c))
    | (t, .miss _) => (t, [], none)
    | (t, .ok bs) =>
      match readPlaces p (o + n) r t with
      | (t, cs, e) => (t, bs ++ cs, e)

/-- The first of a store's pieces, with its offset, that would fail, judged before any byte is stored. -/
def failingPlace (p : Nat) (s : State) : Nat → List (Place × Nat) → Option (Nat × Place × Nat)
  | _, [] => none
  | o, (q, n) :: r =>
    let bad := if q.cached then decide (lookLine (pktOf s p) true q.pa n = .parity)
      else decide ((lineAccess true q.pa n (drainFor p (q.pa / 64) s)).2 ≠ stOK)
    if bad then some (o, q, n) else failingPlace p s (o + n) r

/-- Writes the pieces of a store, `o` bytes into the access at `va`. -/
def writePlaces (p va : Nat) : List (Place × Nat) → List Byte → State → State
  | [], _, s => s
  | (q, n) :: r, bs, s => writePlaces p va r (bs.drop n) (pWrite p va q (bs.take n) false s).1

/-- The register that a served load writes. -/
def loadPut (p : Nat) (word : W32) (bs : List Byte) (s : State) : State :=
  let v := ofBytes bs
  let d := mD word
  match rowOfWord word with
  | .ld => gSet p d (if mOp word = 1 then narrow 64 (signed (8 * 2 ^ mSize word) v) else v) s
  | .fld => vSet p d (setFld (vGet s p d) (if mSize word = 4 then 127 else 63) 0 v) s
  | _ => gSet p d v s

/-- An access whose lines are all held takes place: a load writes its register and a store its bytes, or the address and
the cause of the first byte that fails, with nothing written. -/
def serveAccess (p : Nat) (f : FillSt) (s : State) : State × Option (Nat × Nat) :=
  if isStore f.word then
    match failingPlace p s 0 f.places with
    | some (o, q, n) =>
      match pWrite p f.va q (List.replicate n 0) false s with
      | (s, .fault c) => (s, some ((f.va + o) % 2 ^ 64, c))
      | (s, _) => (s, none)
    | none => (writePlaces p f.va f.places f.data s, none)
  else
    match readPlaces p 0 f.places s with
    | (s, bs, none) => (loadPut p f.word bs s, none)
    | (s, _, some (o, c)) => (s, some ((f.va + o) % 2 ^ 64, c))

/-- The trap of an instruction at `pc`, with what its access asked for. -/
def trapAt (p pc cause taddr : Nat) (acc : Acc) (s : State) : State :=
  haltCheck p (trap p cause pc taddr (setPkt p { pktOf s p with
    fAcc := b2n acc.r + 2 * b2n acc.w + 4 * b2n acc.x, fill := none, wait := .none, filled := [] } s))

/-- The outstanding fill completes (R181): the access that waits for it goes on to its next missing line or takes place,
or it traps; the flag says that it trapped. -/
def settleLine (p : Nat) (s : State) : State × Bool :=
  match (pktOf s p).fill with
  | none => (s, false)
  | some f =>
    match fetchLine p f.line (dropLine p f.line (setPkt p { pktOf s p with fill := none } s)) with
    | (s, c) =>
      let first := ((laneSplit f.va (f.places.foldl (fun n q => n + q.2) 0)).zip f.places).find? fun q =>
        q.2.1.pa / 64 = f.line
      if c ≠ 0 then (trapAt p f.pc c (match first with
        | some q => q.1.1
        | none => f.va) (accOf f.word) s, true) else
      let got := f.line :: f.got
      match firstMiss (pktOf s p) (isStore f.word) f.places with
      | some l => (setPkt p { pktOf s p with fill := some { f with line := l, got := got } } (countMiss p s), false)
      | none =>
        match serveAccess p f (setPkt p { pktOf s p with filled := got } s) with
        | (s, some (a, c)) => (trapAt p f.pc c a (accOf f.word) s, true)
        | (s, none) => (countInstr p (setPkt p { pktOf s p with filled := [] } s), false)

/-- Every earlier instruction of the Pocket finishes: the outstanding fill, and another of the same access (R175). -/
def settleFill (p : Nat) (s : State) : State × Bool :=
  let r := settleLine p s
  if r.2 then r else settleLine p r.1

/-! ### Traps of an instruction (R175) -/

/-- A trap of the instruction at PC, once every earlier one has finished (R175); a Pocket whose job ended meanwhile, or
whose earlier instruction traps, takes none. -/
def pTrap (p cause taddr : Nat) (s : State) : State :=
  if (pktOf s p).task.isNone then s else
  let (s, trapped) := settleFill p s
  if trapped then s else haltCheck p (trap p cause (pktOf s p).pc taddr s)

/-- A trap of an access, with what it asked for. -/
def pFault (p cause taddr : Nat) (acc : Acc) (s : State) : State :=
  pTrap p cause taddr (setPkt p { pktOf s p with fAcc := b2n acc.r + 2 * b2n acc.w + 4 * b2n acc.x } s)

/-! ### Running an instruction -/

/-- Whether an instruction word names register d, of any file. -/
def names (word : W32) (d : Nat) : Bool :=
  match wForm word with
  | 0 => wD word = d || wA word = d || wB word = d
  | 1 => wD word = d || wA word = d
  | 2 => mD word = d || mA word = d
  | 3 => bA word = d || bB word = d
  | 4 => jLink word && d = 31
  | 5 => iD word = d
  | 6 => wD word = d || wA word = d
  | _ => vD word = d || vA word = d || vB word = d

/-- Rows that wait for an outstanding fill whatever they name: those that wait for earlier accesses or trap, and those that
access memory element by element (R175, R181, R186). -/
def rowWaits (row : PRow) : Bool :=
  match row with
  | .cas | .aadd | .unit | .matchReq | .waitd | .fence | .setWayClean | .setWayInv | .setWayClinv | .clinvVc => true
  | .call | .wrcr | .ret | .report | .rgld | .tlbiAll | .tlbiSlot | .tlbiInstance => true
  | .vld | .vst | .vlds | .vsts | .vgath | .vscat | .scaddt | .scadds | .vunpk => true
  | _ => false

/-- Whether an instruction waits for the outstanding fill: its row does, or it names the register that the waiting load
writes. -/
def mustWait (x : Pocket) (row : PRow) (word : W32) : Bool :=
  match x.fill with
  | none => false
  | some f => rowWaits row || (!isStore f.word && names word (mD f.word))

/-- The Pocket stalls until the outstanding fill completes, and then runs the word (R181). -/
def stallFill (p : Nat) (word : W32) (s : State) : State := setPkt p { pktOf s p with wait := .fill word } s

/-- Runs an instruction word of a row: nothing happens where the word belongs to another row or the Pocket cannot begin
it; the fetch is checked first, and an instruction that must wait for the outstanding fill stalls the Pocket. -/
def perform (row : PRow) (f : Nat → W32 → State → State) (p : Nat) (word : W32) (s : State) : State :=
  if !canRun s p || rowOfWord word ≠ row then s else
  let (s, c) := fetchCheck p s
  if c ≠ 0 then pFault p c (pktOf s p).pc ⟨false, false, true, false, false⟩ s
  else if mustWait (pktOf s p) row word then stallFill p word s else f p word s

/-- A supervisor-only instruction (Table 8.5). -/
def superOnly (p : Nat) (s : State) (f : State → State) : State :=
  if (pktOf s p).priv then f s else pTrap p causePrivileged 0 s

end Sys2Proof.Machine
end

