-- ==== Sys2Proof/Machine/Scalar.lean ====
section
/-! DEFINITION. The Pocket's scalar arithmetic, floating point, branches and constants (Tables 8.3 and 8.4, R170, R171). -/

namespace Sys2Proof.Machine

/-! ### Integer operations (R171) -/

/-- Leading zeros, trailing zeros and ones of `w` bits. -/
def clz (w a : Nat) : Nat := ((List.range w).find? fun i => bit a (w - 1 - i)).getD w
def ctz (w a : Nat) : Nat := ((List.range w).find? fun i => bit a i).getD w
def popc (w a : Nat) : Nat := ((List.range w).filter fun i => bit a i).length

/-- Quotient and remainder, truncated toward zero, defined for every input. -/
def divS (w a b : Nat) : Nat := if b = 0 then 2 ^ w - 1 else narrow w (Int.tdiv (signed w a) (signed w b))
def remS (w a b : Nat) : Nat := if b = 0 then a else narrow w (Int.tmod (signed w a) (signed w b))
def divU (w a b : Nat) : Nat := if b = 0 then 2 ^ w - 1 else a / b
def remU (a b : Nat) : Nat := if b = 0 then a else a % b

/-- A result of `w` bits in a 64-bit register: sign-extended where W is set. -/
def extend (w r : Nat) : Nat := if w = 32 then narrow 64 (signed 32 r) else r % 2 ^ 64

/-- The result of an integer opcode on operands of `w` bits. -/
def intResult (op w a b : Nat) : Nat :=
  let n := b % w
  match op with
  | 0x00 => a + b
  | 0x01 => a + 2 ^ w - b
  | 0x02 => a &&& b
  | 0x03 => a ||| b
  | 0x04 => a ^^^ b
  | 0x05 => a &&& (2 ^ w - 1 - b)
  | 0x06 => a * 2 ^ n
  | 0x07 => a / 2 ^ n
  | 0x08 => narrow w (signed w a / 2 ^ n)
  | 0x09 => a / 2 ^ n + a * 2 ^ (w - n)
  | 0x0A => b2n (a = b)
  | 0x0B => b2n (decide (signed w a < signed w b))
  | 0x0C => b2n (a < b)
  | 0x0E => if signed w a ≤ signed w b then a else b
  | 0x0F => if signed w a ≤ signed w b then b else a
  | 0x10 => a * b
  | 0x11 => narrow w (signed w a * signed w b / 2 ^ w)
  | 0x12 => a * b / 2 ^ w
  | 0x13 => divS w a b
  | 0x14 => divU w a b
  | 0x15 => remS w a b
  | 0x16 => remU a b
  | 0x18 => clz w a
  | 0x19 => ctz w a
  | 0x1A => popc w a
  | 0x1B => ofBytes (toBytes (w / 8) a).reverse
  | 0x1D => (toBytes (w / 8) b).foldl crcByte (a % 2 ^ 32)
  | _ => 0

/-- Operand B: the register of form R3, or the immediate of form RI. -/
def operandB (s : State) (p : Nat) (word : W32) : Nat :=
  if wForm word = 0 then gGet s p (wB word) else narrow 64 (wImm13 word)

/-- The width of an integer operation. -/
def intWidth (word : W32) : Nat := if wForm word = 0 && wW word = 1 then 32 else 64

def integerX (p : Nat) (word : W32) (s : State) : State :=
  let w := intWidth word
  let r := intResult (wOp word) w (gGet s p (wA word) % 2 ^ w) (operandB s p word % 2 ^ w) % 2 ^ w
  pDone p (gSet p (wD word) (extend w r) s)

def execIntegerOp (p : Nat) (word : W32) (s : State) : Host.Outcome State Fault Refusal :=
  .next (perform .integerOp integerX p word s)

/-! ### Floating point (R171) -/

/-- The format that W selects, and an operand read in it. -/
def wFmt (word : W32) : FloatFmt := if wW word = 1 then fmt32 else fmt64
def fOperand (s : State) (p r : Nat) (f : FloatFmt) : Nat := fGet s p r % 2 ^ f.width

/-- The result bits and flags of an opcode from 0x20 to 0x26. -/
def floatResult (op : Nat) (f : FloatFmt) (rm a b : Nat) : Nat × Nat :=
  match op with
  | 0x20 => fpAdd f rm a b
  | 0x21 => fpSub f rm a b
  | 0x22 => fpMul f rm a b
  | 0x23 => fpDiv f rm a b
  | 0x24 => fpSqrt f rm a
  | 0x25 => fpMinMax f false a b
  | _ => fpMinMax f true a b

def floatX (p : Nat) (word : W32) (s : State) : State :=
  let f := wFmt word
  let rm := (pktOf s p).fcsr % 4
  let a := fOperand s p (wA word) f
  let b := fOperand s p (wB word) f
  match wOp word with
  | 0x27 =>
    let r := fpCmp f a b
    pDone p (gSet p (wD word) r.1 (fcsrOr p r.2 s))
  | 0x28 =>
    let r := fpToInt f rm a
    pDone p (gSet p (wD word) r.1 (fcsrOr p r.2 s))
  | 0x29 =>
    let r := fpOfInt f rm (gGet s p (wA word))
    pDone p (fSet p (wD word) r.1 (fcsrOr p r.2 s))
  | op =>
    let r := floatResult op f rm a b
    pDone p (fSet p (wD word) r.1 (fcsrOr p r.2 s))

def execFloatOp (p : Nat) (word : W32) (s : State) : Host.Outcome State Fault Refusal :=
  .next (perform .floatOp floatX p word s)

/-! ### Branches, jumps and constants -/

/-- A PC-relative target. -/
def pcRel (s : State) (p : Nat) (off : Int) : Nat := narrow 48 ((pktOf s p).pc + off)

/-- The condition of a branch. -/
def condHolds (c a b : Nat) : Bool :=
  match c with
  | 0 => a = b
  | 1 => a ≠ b
  | 2 => decide (signed 64 a < signed 64 b)
  | 3 => decide (signed 64 b ≤ signed 64 a)
  | 4 => a < b
  | _ => b ≤ a

def branchX (p : Nat) (word : W32) (s : State) : State :=
  if condHolds (bCond word) (gGet s p (bA word)) (gGet s p (bB word)) then pGoto p (pcRel s p (bOff word)) s else pDone p s

def execBranch (p : Nat) (word : W32) (s : State) : Host.Outcome State Fault Refusal :=
  .next (perform .branch branchX p word s)

def loopX (p : Nat) (word : W32) (s : State) : State :=
  let t := pcRel s p (bOff word)
  let s := gSet p (bA word) ((gGet s p (bA word) + 2 ^ 64 - 1) % 2 ^ 64) s
  if gGet s p (bA word) ≠ 0 then pGoto p t s else pDone p s

def execLoop (p : Nat) (word : W32) (s : State) : Host.Outcome State Fault Refusal := .next (perform .loop loopX p word s)

def jlX (p : Nat) (word : W32) (s : State) : State :=
  let t := pcRel s p (jOff word)
  pGoto p t (if jLink word then gSet p 31 (((pktOf s p).pc + 4) % 2 ^ 48) s else s)

def execJl (p : Nat) (word : W32) (s : State) : Host.Outcome State Fault Refusal := .next (perform .jl jlX p word s)

def jrX (p : Nat) (word : W32) (s : State) : State :=
  let t := gGet s p (wA word)
  if t % 4 ≠ 0 then pTrap p causeAlign t s
  else pGoto p t (gSet p (wD word) (((pktOf s p).pc + 4) % 2 ^ 48) s)

def execJr (p : Nat) (word : W32) (s : State) : Host.Outcome State Fault Refusal := .next (perform .jr jrX p word s)

def setX (p : Nat) (word : W32) (s : State) : State := pDone p (gSet p (iD word) (iImm word * 2 ^ (16 * iPos word)) s)

def execSet (p : Nat) (word : W32) (s : State) : Host.Outcome State Fault Refusal := .next (perform .set setX p word s)

def keepX (p : Nat) (word : W32) (s : State) : State :=
  pDone p (gSet p (iD word) (setFld (gGet s p (iD word)) (16 * iPos word + 15) (16 * iPos word) (iImm word)) s)

def execKeep (p : Nat) (word : W32) (s : State) : Host.Outcome State Fault Refusal := .next (perform .keep keepX p word s)

def execNop (p : Nat) (word : W32) (s : State) : Host.Outcome State Fault Refusal :=
  .next (perform .nop (fun p _ s => pDone p s) p word s)

def execUndefinedInstruction (p : Nat) (word : W32) (s : State) : Host.Outcome State Fault Refusal :=
  .next (perform .undefined (fun p _ s => pTrap p causeIllegal 0 s) p word s)

end Sys2Proof.Machine
end

