-- ==== Sys2Proof/Machine/LoadStore.lean ====
section
/-! DEFINITION. The Pocket's loads, stores, atomics, cache maintenance and fills (R170, R172, R180 to R185, R188). -/

namespace Sys2Proof.Machine

/-! ### Loads and stores -/

/-- An aligned access, or the trap of a misaligned one. -/
def aligned (p va n : Nat) (s : State) (f : State → State) : State := if va % n ≠ 0 then pTrap p causeAlign va s else f s

/-- Whether an access waits for the outstanding fill: it needs that line, or another that is missing (R181). -/
def meetsFill (x : Pocket) (store : Bool) (g : FillSt) (qs : List (Place × Nat)) : Bool :=
  (firstMiss x store qs).isSome || qs.any fun q => q.1.cached && q.1.pa / 64 = g.line

/-- A scalar access of `n` bytes at `va`: the trap of its first byte that does not translate, a stall under the outstanding
miss, a miss of its own, which the Pocket does not wait for, or the access itself (R181, R184). -/
def scalarAccess (p : Nat) (word : W32) (va n : Nat) (data : List Byte) (s : State) : State :=
  match placesOf p (isStore word) (laneSplit va n) s with
  | (s, _, some (a, c)) => pFault p c a (accOf word) s
  | (s, qs, none) =>
    let x := pktOf s p
    let f : FillSt := ⟨0, word, x.pc, va, qs, data, []⟩
    let go := match serveAccess p f s with
      | (s, none) => pDone p s
      | (s, some (a, c)) => pFault p c a (accOf word) s
    match x.fill, firstMiss x (isStore word) qs with
    | some g, _ => if meetsFill x (isStore word) g qs then stallFill p word s else go
    | none, some l => pMove p (x.pc + 4) (setPkt p { pktOf s p with fill := some { f with line := l } } (countMiss p s))
    | none, none => go

/-- A load or store at an aligned address. -/
def alignedAccess (p : Nat) (word : W32) (data : List Byte) (s : State) : State :=
  aligned p (memAddr s p word) (2 ^ mSize word) s fun s => scalarAccess p word (memAddr s p word) (2 ^ mSize word) data s

def ldX (p : Nat) (word : W32) (s : State) : State := alignedAccess p word [] s

def execLd (p : Nat) (word : W32) (s : State) : Host.Outcome State Fault Refusal := .next (perform .ld ldX p word s)

def stX (p : Nat) (word : W32) (s : State) : State :=
  alignedAccess p word (toBytes (2 ^ mSize word) (gGet s p (mD word))) s

def execSt (p : Nat) (word : W32) (s : State) : Host.Outcome State Fault Refusal := .next (perform .st stX p word s)

def fldX (p : Nat) (word : W32) (s : State) : State := alignedAccess p word [] s

def execFld (p : Nat) (word : W32) (s : State) : Host.Outcome State Fault Refusal := .next (perform .fld fldX p word s)

def fstX (p : Nat) (word : W32) (s : State) : State :=
  alignedAccess p word (toBytes (2 ^ mSize word) (vGet s p (mD word))) s

def execFst (p : Nat) (word : W32) (s : State) : Host.Outcome State Fault Refusal := .next (perform .fst fstX p word s)

/-! ### Byte-lane rotate accesses (R184) -/

def ldrX (p : Nat) (word : W32) (s : State) : State := scalarAccess p word (memAddr s p word) (2 ^ mSize word) [] s

def execLdr (p : Nat) (word : W32) (s : State) : Host.Outcome State Fault Refusal := .next (perform .ldr ldrX p word s)

def strX (p : Nat) (word : W32) (s : State) : State :=
  scalarAccess p word (memAddr s p word) (2 ^ mSize word) (toBytes (2 ^ mSize word) (gGet s p (mD word))) s

def execStr (p : Nat) (word : W32) (s : State) : Host.Outcome State Fault Refusal := .next (perform .str strX p word s)

/-! ### Atomics (R172) -/

/-- A read-modify-write at the memory of the 64-bit word at `a`, as one atomic packet and its response (R172, R263): the
status and the old value. -/
def memAtomic (i : Initiator) (a : Nat) (new : Nat → Option Nat) (s : State) : State × Nat × Nat :=
  let (s, st, bs) := physRead a 8 s
  let (s, st) := if st ≠ stOK then (s, st) else match new (ofBytes bs) with
    | some v => physWrite a (toBytes 8 v) s
    | none => (s, stOK)
  (meshAccess i 3 a 8 st (List.replicate 16 0) (if st = stOK then bs else []) s, st, ofBytes bs)

/-- One read-modify-write of an aligned 64-bit word at the memory, in the scratchpad, Panel memory or HBM; its old value
goes to D. -/
def atomic (p : Nat) (word : W32) (new : Nat → Option Nat) (s : State) : State :=
  let va := gGet s p (wA word)
  aligned p va 8 s fun s =>
    let (s, q) := pTranslate p va true true false s
    if q.cause ≠ 0 then pFault p q.cause va rwAcc s else
    let atMem := match regionOf s q.pa with
      | .hbm _ _ => true
      | .panel _ _ => true
      | .scratch _ _ => true
      | _ => false
    if !atMem then pFault p causeSpace va rwAcc s else
    let s := drainFor p (q.pa / 64) s
    let s := if q.cached then cleanDropLine p (q.pa / 64) s else s
    let (s, st, old) := memAtomic (pktInit s p) q.pa new s
    if st ≠ stOK then pFault p (causeOf st) va rwAcc s else pDone p (gSet p (wD word) old s)

def casX (p : Nat) (word : W32) (s : State) : State :=
  atomic p word (fun old => if old = gGet s p (wB word) then some (gGet s p (wD word)) else none) s

def execCas (p : Nat) (word : W32) (s : State) : Host.Outcome State Fault Refusal := .next (perform .cas casX p word s)

def aaddX (p : Nat) (word : W32) (s : State) : State :=
  atomic p word (fun old => some ((old + gGet s p (wB word)) % 2 ^ 64)) s

def execAadd (p : Nat) (word : W32) (s : State) : Host.Outcome State Fault Refusal := .next (perform .aadd aaddX p word s)

/-! ### Maintenance (Table 8.8) -/

/-- An address operation: it acts on the line that holds the address at A, after translation and the guard; on the line
of the outstanding fill it acts after the fill (R181). -/
def cmoAddr (p : Nat) (word : W32) (write : Bool) (act : Place → State → State) (s : State) : State :=
  let va := gGet s p (wA word)
  let (s, q) := pTranslate p va (!write) write false s
  if q.cause ≠ 0 then pFault p q.cause va (if write then wrAcc else rdAcc) s
  else if q.cached && ((pktOf s p).fill.map (·.line)) = some (q.pa / 64) then stallFill p word s else act q s

/-- CLEAN and CLINV read a dirty line: a persistent parity error in it traps (R185). -/
def cleanCopies (p : Nat) (word : W32) (act : Nat → State → State) (s : State) : State :=
  cmoAddr p word false (fun q s =>
    let l := q.pa / 64
    if (heldLine (pktOf s p) l).any fun e => e.dirty && e.hard ≠ [] then
      pFault p causeParity (gGet s p (wA word)) rdAcc (parityFail (Reg.PKT_PAGE p) 0 (l * 64) s)
    else pDone p (act l s)) s

def execClean (p : Nat) (word : W32) (s : State) : Host.Outcome State Fault Refusal :=
  .next (perform .clean (fun p word s => cleanCopies p word (cleanLine p) s) p word s)

def execInv (p : Nat) (word : W32) (s : State) : Host.Outcome State Fault Refusal :=
  .next (perform .inv (fun p word s => cmoAddr p word false (fun q s => pDone p (dropLine p (q.pa / 64) s)) s) p word s)

def execClinv (p : Nat) (word : W32) (s : State) : Host.Outcome State Fault Refusal :=
  .next (perform .clinv (fun p word s => cleanCopies p word (cleanDropLine p) s) p word s)

/-- ZERO: the line is allocated as zeros and dirty without a fetch; where the region is not cached 64 zero bytes are
written. -/
def zeroX (p : Nat) (word : W32) (s : State) : State :=
  cmoAddr p word true (fun q s =>
    let z := List.replicate 64 (0 : Byte)
    let l := q.pa / 64
    if q.cached then pDone p (l1Insert p { line := l, way := 0, dirty := true, data := z } (dropLine p l s))
    else
      let (s, st) := meshWrite (pktInit s p) (l * 64) z (drainStores p s)
      if st ≠ stOK then pFault p (causeOf st) (gGet s p (wA word)) wrAcc s else pDone p s) s

def execZero (p : Nat) (word : W32) (s : State) : Host.Outcome State Fault Refusal := .next (perform .zero zeroX p word s)

/-- The line at a set and way: A[6:0] and A[9:8]. -/
def wayLine (s : State) (p : Nat) (word : W32) : Option Nat :=
  let a := gGet s p (wA word)
  ((kGet [] (pktOf s p).sets (a % 128)).find? fun e => e.way = fld a 9 8).map (·.line)

/-- A set and way operation acts on the L1's copy; supervisor only. -/
def setWay (p : Nat) (word : W32) (act : Nat → State → State) (s : State) : State :=
  superOnly p s fun s => pDone p (match wayLine s p word with
    | some l => act l s
    | none => s)

def execSetWayClean (p : Nat) (word : W32) (s : State) : Host.Outcome State Fault Refusal :=
  .next (perform .setWayClean (fun p word s => setWay p word (cleanLine p) s) p word s)

def execSetWayInv (p : Nat) (word : W32) (s : State) : Host.Outcome State Fault Refusal :=
  .next (perform .setWayInv (fun p word s => setWay p word (dropLine p) s) p word s)

def execSetWayClinv (p : Nat) (word : W32) (s : State) : Host.Outcome State Fault Refusal :=
  .next (perform .setWayClinv (fun p word s => setWay p word (cleanDropLine p) s) p word s)

def execClinvVc (p : Nat) (word : W32) (s : State) : Host.Outcome State Fault Refusal :=
  .next (perform .clinvVc (fun p _ s => superOnly p s fun s => pDone p (cleanVictims p s)) p word s)

/-- FENCE: the store buffer drains; an outstanding fill has been waited for, and every other access and maintenance
operation is acknowledged within its own row. -/
def execFence (p : Nat) (word : W32) (s : State) : Host.Outcome State Fault Refusal :=
  .next (perform .fence (fun p _ s => pDone p (drainStores p s)) p word s)

end Sys2Proof.Machine
end

