-- ==== Sys2Proof/Machine/Oper.lean ====
section
/-! DEFINITION. What the three operator units of a Panel share: holding, starting, taking over, ending and abandoning
commands (R125 to R129). -/

namespace Sys2Proof.Machine

/-! ### Units and their pages -/

/-- The number of an operator unit: 0 Hash Probe Unit, 1 Partition Unit, 2 Merge Network. -/
def operNum : OperUnit → Nat
  | .hpu => 0
  | .pu => 1
  | .mn => 2

def operOf (s : State) (u n : Nat) : OperSt := kGet {} s.opers (u * 32 + n)
def setOper (u n : Nat) (x : OperSt) (s : State) : State := { s with opers := kSet s.opers (u * 32 + n) x }

/-- The page of a unit, and its ABANDON counter. -/
def operPage (u n : Nat) : Nat :=
  match u with
  | 0 => Reg.PNL_HPU_PAGE n
  | 1 => Reg.PNL_PU_PAGE n
  | _ => Reg.PNL_MN_PAGE n
def operAbandonReg (u n : Nat) : Nat :=
  match u with
  | 0 => Reg.PNL_HPU_ABANDON n
  | 1 => Reg.PNL_PU_ABANDON n
  | _ => Reg.PNL_MN_ABANDON n

/-- An operator unit's port: its Panel's TLB, and index 18 to 20 at the Panel's stop (Table 12.6). -/
def operPort (u n : Nat) : Nat := viaPort (tlbPanel n) (18 + u)

/-- Commands a unit holds, the running one and one taken over included (R125). -/
def operDepth (s : State) (u n : Nat) : Nat :=
  (operOf s u n).queue.length + b2n (operOf s u n).run.isSome + b2n (operOf s u n).standby.isSome

/-- A command's OP. -/
def operOp (c : UnitCmd) : Nat := fld (c.word 0) 3 0

/-- The operations a unit has: 3, 4 and 3. -/
def operOps (u : Nat) : Nat := if u = 1 then 4 else 3

/-! ### Ending (R128) -/

/-- The running command ends: result words are written and FAULT pulses for a failing status. -/
def operEnd (u n : Nat) (r : OperRun) (st outcome : Nat) (s : State) : State :=
  let s := if failing st then pulse (operPage u n) 1 s else s
  uResult (operPort u n) r.cmd (some r.out) (some r.pos) (some (st + 256 * outcome)) (some r.aux)
    (setOper u n { operOf s u n with run := none } s)

/-- An AUX that the unit gives no meaning is a free value (DESIGN CHOICE, notes/assumptions/44.md). -/
def operEndFree (u n : Nat) (r : OperRun) (st outcome : Nat) (s : State) : State :=
  let (f, s) := takeFree s
  operEnd u n { r with aux := f % 2 ^ 32 } st outcome s

/-- A command that fails a start check: an error code of the page, and no output. -/
def operReject (u n : Nat) (r : OperRun) (st code a : Nat) (s : State) : State :=
  operEndFree u n { r with pos := 0, out := 0 } st 0 (recErr (operPage u n) code a s)

/-- A running command that fails: the error is recorded with a code of the page, and the items before it stay. -/
def operFailCode (u n : Nat) (r : OperRun) (st code a : Nat) (s : State) : State :=
  operEnd u n r st 0 (recErr (operPage u n) code a s)

/-- A command that an access ends: ERR_ADDR records it; no page has an ERR_CODE for it, so that reads 0x00 none
(DESIGN CHOICE, notes/assumptions/44.md). -/
def operFail (u n : Nat) (r : OperRun) (st a : Nat) (s : State) : State := operFailCode u n r st 0 a s

/-- Keeps a running command's progress. -/
def setRun (u n : Nat) (r : OperRun) (s : State) : State := setOper u n { operOf s u n with run := some r } s

/-! ### Starting and taking over (R126) -/

/-- Whether a live CLASS 3 command is held. -/
def expressHeld (s : State) (u n : Nat) : Bool := (operOf s u n).queue.any fun c => c.cls = 3 && cmdLive s c

/-- Whether the event of operation `op` starts a command: its own operation, or one that is invalid and ends at once. -/
def startsAt (u op : Nat) (c : UnitCmd) : Bool := operOp c = op || operOp c = 0 || operOps u < operOp c

/-- A new running command. -/
def newRun (s : State) (u n : Nat) (c : UnitCmd) : OperRun := { cmd := c, mayTake := rBit s (operPage u n + 0x40) 0 }

/-- A unit with nothing running takes up a command: one taken over once no CLASS 3 command is held, else the held
command that is next, if this event is its own; one whose block did not copy ends with the copy's status (R185). -/
def operPick (u n op : Nat) (start : UnitCmd → State → State) (s : State) : State :=
  let x := operOf s u n
  if x.run.isSome || !working s then s
  else match x.standby, expressHeld s u n with
    | some r, false => setOper u n { x with run := some r, standby := none } s
    | _, _ =>
      if !pageEn s (operPage u n) then s else
      match nextHeld (x.queue.filter (cmdLive s)) with
      | none => s
      | some c =>
        if !startsAt u op c then s else
        let s := setOper u n { x with queue := x.queue.erase c } s
        if c.copied ≠ stOK then operFail u n (newRun s u n c) c.copied c.block s else start c s

/-- Whether the running command stands at a boundary of 16 items where a held CLASS 3 command takes over. -/
def takeoverDue (s : State) (u n : Nat) : Bool :=
  match (operOf s u n).run with
  | some r => r.mayTake && r.cmd.cls < 3 && r.pos % 16 = 0 && !r.locked && expressHeld s u n && pageEn s (operPage u n)
  | none => false

/-- Runs the command of one operation for up to `items` input items, stopping where a takeover is due. -/
def operItems (u n op : Nat) (item : OperRun → State → State) (items : Nat) (s : State) : State :=
  forN items s fun _ s =>
    match (operOf s u n).run with
    | none => s
    | some r =>
      if operOp r.cmd ≠ op || !cmdLive s r.cmd || !working s || r.locked || takeoverDue s u n then s
      else item r s

/-- TAKEOVER (R126): the running command stands aside for a held CLASS 3 command, which `starts` begins. -/
def takeover (u n : Nat) (s : State) : State :=
  if !working s || !takeoverDue s u n then s else
  let x := operOf s u n
  setOper u n { x with standby := x.run, run := none } s

def execTakeover (panel : Nat) (unit : OperUnit) (s : State) : Host.Outcome State Fault Refusal :=
  .next (takeover (operNum unit) panel s)

/-! ### Abandonment (R129) -/

/-- Whether a running command's job has ended. -/
def deadRun (s : State) (r : Option OperRun) : Bool :=
  match r with
  | some r => !cmdLive s r.cmd
  | none => false

/-- OPERATOR_ABANDON (R129): commands of ended jobs are abandoned or dropped, with no result words. -/
def operatorAbandon (u n : Nat) (s : State) : State :=
  let x := operOf s u n
  let dead := (x.queue.filter fun c => !cmdLive s c).length + b2n (deadRun s x.run) + b2n (deadRun s x.standby)
  if dead = 0 then s else
  bump (operAbandonReg u n) dead (setOper u n
    { x with queue := x.queue.filter (cmdLive s), run := if deadRun s x.run then none else x.run,
             standby := if deadRun s x.standby then none else x.standby } s)

def execOperatorAbandon (panel : Nat) (unit : OperUnit) (s : State) : Host.Outcome State Fault Refusal :=
  .next (operatorAbandon (operNum unit) panel s)

/-- Several writes of one command, up to the first that fails: the status and the failing address. -/
def uWrites (t : Nat) (c : UnitCmd) (ws : List (Nat × List Byte)) (s : State) : State × Nat × Nat :=
  ws.foldl (fun (r : State × Nat × Nat) w =>
    if r.2.1 ≠ stOK then r else
    let (s, st) := uWrite t c w.1 w.2 r.1
    (s, st, w.1)) (s, stOK, 0)

end Sys2Proof.Machine
end

