-- ==== Sys2Proof/Machine/Hpu.lean ====
section
/-! DEFINITION. The Hash Probe Unit: hash tables, PROBE, INSERT and GROUP (R130 to R139). -/

namespace Sys2Proof.Machine

/-! ### Tables (R130 to R132) -/

/-- The hash of a key (R130). -/
def keyHash (key : Nat) : Nat := crc32c (toBytes 8 key)

/-- Fields of a descriptor (Table 6.2, R131). -/
def tabLog2b (d : List Byte) : Nat := fld (numAt d 4 4) 4 0
def tabGroup (d : List Byte) : Bool := bit (numAt d 4 4) 5
def tabBase (d : List Byte) : Nat := numAt d 8 8
def tabOvfBase (d : List Byte) : Nat := numAt d 0x10 8
def tabOvfCap (d : List Byte) : Nat := numAt d 0x18 4
def tabGroupCap (d : List Byte) : Nat := numAt d 0x24 4

/-- Fields of a bucket (Table 6.3). -/
def bktCount (b : List Byte) : Nat := numAt b 0 1 % 4
def bktLock (b : List Byte) : Bool := bit (numAt b 0 1) 2
def bktTag (b : List Byte) (i : Nat) : Nat := numAt b (1 + i) 1
def bktNext (b : List Byte) : Nat := numAt b 4 4
def bktKey (b : List Byte) (i : Nat) : Nat := numAt b (0x10 + 16 * i) 8
def bktPay (b : List Byte) (i : Nat) : Nat := numAt b (0x18 + 16 * i) 8

/-- The address of a key's head bucket. -/
def headBucket (d : List Byte) (key : Nat) : Nat := tabBase d + keyHash key % 2 ^ tabLog2b d * 64

/-- What a lookup finds: payloads in chain order, the first match's bucket and slot, and the chain's last bucket. -/
structure Lookup where
  pays : List Nat
  hit  : Option (Nat × List Byte × Nat)
  last : Nat
  line : List Byte
  /-- The ERR_CODE of a chain that breaks off: 4 CHAIN. -/
  code : Nat
  deriving DecidableEq, Repr

/-- Matching slots of a bucket. -/
def bktMatches (b : List Byte) (key : Nat) : List Nat :=
  (List.range (min 3 (bktCount b))).filter fun i => bktTag b i = keyHash key / 2 ^ 24 && bktKey b i = key

/-- Follows a chain from the bucket at `b` (R133): status, failing address, and what was found. `fuel` is one more than
the steps the chain may take. -/
def chainWalk (t n : Nat) (c : UnitCmd) (d : List Byte) (key : Nat) (first : Bool) :
    Nat → Nat → Lookup → State → State × Nat × Nat × Lookup
  | 0, b, f, s => (s, stDescInvalid, b, f)
  | fuel + 1, b, f, s =>
    let (s, st, line) := uRead t c b 64 s
    if st ≠ stOK then (s, st, b, f) else
    let ms := bktMatches line key
    let f : Lookup :=
      { f with pays := f.pays ++ ms.map (bktPay line), last := b, line := line,
               hit := if f.hit.isSome then f.hit else ms.head?.map fun i => (b, line, i) }
    if first && f.hit.isSome then (s, stOK, 0, { f with pays := f.pays.take 1 })
    else if bktNext line = 0 then (s, stOK, 0, f)
    else
      let (s, st, used) := uReadNat t c (c.quad 8 + 0x1C) 4 s
      if st ≠ stOK then (s, st, c.quad 8 + 0x1C, f)
      else if used ≤ bktNext line - 1 || fuel = 0 then
        (s, stDescInvalid, c.quad 8, { f with code := 4 })
      else chainWalk t n c d key first fuel (tabOvfBase d + (bktNext line - 1) * 64) f
        (bump (Reg.PNL_HPU_CHAIN n) 1 s)

/-- A lookup of a key (R133). -/
def tabLookup (n : Nat) (r : OperRun) (key : Nat) (first : Bool) (s : State) : State × Nat × Nat × Lookup :=
  chainWalk (operPort 0 n) n r.cmd r.table key first (tabOvfCap r.table + 1) (headBucket r.table key) ⟨[], none, 0, [], 0⟩ s

/-- A key looked up is counted, and a key with a match. -/
def countLookup (n : Nat) (hit : Bool) (s : State) : State :=
  let s := bump2 (Reg.PNL_HPU_LOOKUPS n) (Reg.PNL_HPU_SNAP_LOOKUPS n) 1 s
  if hit then bump (Reg.PNL_HPU_HITS n) 1 s else s

/-! ### Start checks (R139) -/

def hpuMode (c : UnitCmd) : Nat := fld (c.word 0) 5 4
def hpuStride (c : UnitCmd) : Nat := 8 * 2 ^ fld (c.word 0) 7 6
def operCount (c : UnitCmd) : Nat := fld (c.word 4) 24 0

/-- Whether OP, MODE and COUNT are valid. -/
def hpuCmdGood (c : UnitCmd) : Bool :=
  (match operOp c with
    | 1 => hpuMode c ≤ 2
    | 2 => true
    | 3 => hpuMode c = 0
    | _ => false) && 1 ≤ operCount c && operCount c ≤ 16777216

/-- Whether a descriptor is good for a command. -/
def hpuTabGood (c : UnitCmd) (d : List Byte) : Bool :=
  numAt d 0 4 = 0x4854424C && 4 ≤ tabLog2b d && tabLog2b d ≤ 24 &&
    (if tabGroup d then 1 ≤ tabGroupCap d && tabGroupCap d ≤ 0xFFFFFFFE else tabGroupCap d = 0) &&
    (match operOp c with
      | 1 => !tabGroup d
      | 3 => tabGroup d
      | _ => true)

/-- The least OUT_CAP. -/
def hpuOutCap (c : UnitCmd) : Nat :=
  match operOp c, hpuMode c with
  | 2, 0 => 16 * operCount c
  | 2, 1 => 16
  | 2, _ => 4 * ceilDiv (operCount c) 32
  | 3, _ => 4 * operCount c
  | _, _ => 0

/-- Starts a command of the Hash Probe Unit. -/
def hpuStart (n : Nat) (c : UnitCmd) (s : State) : State :=
  let r := newRun s 0 n c
  if !hpuCmdGood c then operReject 0 n r stDescInvalid 1 c.block s else
  let (s, st, d) := uRead (operPort 0 n) c (c.quad 8) 64 s
  if st ≠ stOK || !hpuTabGood c d then operReject 0 n r stDescInvalid 2 (c.quad 8) s
  else if c.word 0x20 < hpuOutCap c then operReject 0 n r stDescInvalid 3 (c.quad 0x18) s
  else setRun 0 n { r with table := d } s

/-- An item of a running command is finished; after the last the command ends. -/
def hpuNext (n : Nat) (r : OperRun) (s : State) : State :=
  let r := { r with pos := r.pos + 1 }
  if r.pos < operCount r.cmd then setRun 0 n r s
  else if operOp r.cmd = 2 && hpuMode r.cmd = 1 then operEndFree 0 n r stOK 0 s
  else operEnd 0 n r stOK 0 s

/-! ### PROBE (R134) -/

/-- A pair record (Table 6.4). -/
def pairBytes (c : UnitCmd) (pos m pay : Nat) : List Byte := toBytes 4 (c.word 0x28 + pos) ++ toBytes 4 m ++ toBytes 8 pay

/-- Writes the pairs of one key from pair `m`, up to OUT_CAP: none where every pair went, else the pairs delivered, or a
failure. -/
def probePairs (n : Nat) : List Nat → Nat → OperRun → State → State × OperRun × Option (Nat ⊕ (Nat × Nat))
  | [], _, r, s => (s, r, none)
  | p :: ps, m, r, s =>
    if r.cmd.word 0x20 < r.bytes + 16 then (s, r, some (.inl m))
    else
      let (s, st) := uWrite (operPort 0 n) r.cmd (r.cmd.quad 0x18 + r.bytes) (pairBytes r.cmd r.pos (m + 1) p) s
      if st ≠ stOK then (s, r, some (.inr (st, r.cmd.quad 0x18 + r.bytes)))
      else probePairs n ps (m + 1) { r with bytes := r.bytes + 16, out := r.out + 1 } s

/-- One key of a PROBE. -/
def probeItem (n : Nat) (r : OperRun) (s : State) : State :=
  let c := r.cmd
  let t := operPort 0 n
  let a := c.quad 0x10 + r.pos * hpuStride c
  let (s, st, key) := uReadNat t c a 8 s
  if st ≠ stOK then operFail 0 n r st a s else
  let (s, st, fa, f) := tabLookup n r key (hpuMode c ≠ 1) s
  if st ≠ stOK then operFailCode 0 n r st f.code fa s else
  let hit := f.hit.isSome
  let s := countLookup n hit s
  match hpuMode c with
  | 0 =>
    if !hit then hpuNext n r s else
    let (s, st) := uWrite t c (c.quad 0x18 + r.bytes) (pairBytes c r.pos 1 (f.pays.headD 0)) s
    if st ≠ stOK then operFail 0 n r st (c.quad 0x18 + r.bytes) s
    else hpuNext n { r with bytes := r.bytes + 16, out := r.out + 1, aux := r.aux + 1 } s
  | 1 =>
    let skip := if r.pos = 0 then c.word 0x24 else 0
    match probePairs n (f.pays.drop skip) skip r s with
    | (s, r, none) => hpuNext n r s
    | (s, r, some (.inl m)) => operEnd 0 n { r with aux := m } stOK 1 s
    | (s, r, some (.inr (st, a))) => operFail 0 n r st a s
  | m =>
    let one := if m = 2 then hit else !hit
    let bits := (if r.pos % 32 = 0 then 0 else r.bits) + (if one then 2 ^ (r.pos % 32) else 0)
    let (s, st) := uWrite t c (c.quad 0x18 + r.pos / 32 * 4) (toBytes 4 bits) s
    if st ≠ stOK then operFail 0 n r st (c.quad 0x18 + r.pos / 32 * 4) s
    else hpuNext n { r with bits := bits, out := r.out + b2n one, aux := r.aux + b2n hit } s

/-! ### Locks and new entries (R135) -/

/-- A bucket with an entry added at slot COUNT, and LOCK cleared where it is the head bucket. -/
def bktAdd (b : List Byte) (isHead : Bool) (key pay : Nat) : List Byte :=
  let i := bktCount b
  let w := setFld (setFld (numAt b 0 4) 1 0 (i + 1)) (8 * i + 15) (8 * i + 8) (keyHash key / 2 ^ 24)
  splice (splice b (0x10 + 16 * i) (toBytes 8 key ++ toBytes 8 pay)) 0 (toBytes 4 (if isHead then setFld w 2 2 0 else w))

/-- A new overflow bucket with one entry. -/
def bktNew (key pay : Nat) : List Byte :=
  toBytes 4 (1 + 256 * (keyHash key / 2 ^ 24)) ++ List.replicate 12 0 ++ toBytes 8 key ++ toBytes 8 pay ++ List.replicate 32 0

/-- The write that clears the lock of a head bucket: word 0x00 as it now stands with LOCK clear. -/
def unlock (n : Nat) (c : UnitCmd) (head : Nat) (s : State) : State :=
  let (s, st, w) := uReadNat (operPort 0 n) c head 4 s
  if st ≠ stOK || !bit w 2 then s else (uWrite (operPort 0 n) c head (toBytes 4 (setFld w 2 2 0)) s).1

/-- Takes the lock of a key's chain: whether the lock was found set, or the status of a failing access. -/
def takeLock (n : Nat) (c : UnitCmd) (head : Nat) (s : State) : State × Nat × Bool :=
  let (s, st, w) := uReadNat (operPort 0 n) c head 4 s
  if st ≠ stOK then (s, st, false)
  else if bit w 2 then (s, stOK, true)
  else
    let (s, st) := uWrite (operPort 0 n) c head (toBytes 4 (setFld w 2 2 1)) s
    (s, st, false)

/-- Takes an overflow bucket by compare-and-swap of OVF_USED: its number, or none where the table is full (R136). -/
def takeOvf (n : Nat) (r : OperRun) (s : State) : State × Nat × Option Nat :=
  let a := r.cmd.quad 8 + 0x1C
  let (s, st, v) := uReadNat (operPort 0 n) r.cmd a 4 s
  if st ≠ stOK then (s, st, none)
  else if tabOvfCap r.table ≤ v then (s, stOK, none)
  else
    let (s, st) := uWrite (operPort 0 n) r.cmd a (toBytes 4 (v + 1)) s
    (s, st, some v)

/-- Adds one to ENTRIES. -/
def addEntries (n : Nat) (c : UnitCmd) (s : State) : State × Nat :=
  let (s, st, v) := uReadNat (operPort 0 n) c (c.quad 8 + 0x20) 4 s
  if st ≠ stOK then (s, st) else uWrite (operPort 0 n) c (c.quad 8 + 0x20) (toBytes 4 (v + 1)) s

/-- The writes that publish an entry: into the chain's last bucket, or into overflow bucket v and the last bucket's NEXT. -/
def entryWrites (r : OperRun) (f : Lookup) (head : Nat) (v : Option Nat) (key pay : Nat) : List (Nat × List Byte) :=
  match v with
  | none => [(f.last, bktAdd f.line (f.last = head) key pay)]
  | some v =>
    let next := toBytes 4 (v + 1)
    (tabOvfBase r.table + 64 * v, bktNew key pay) ::
      (if f.last = head then [(head, toBytes 4 (setFld (numAt f.line 0 4) 2 2 0) ++ next)] else [(f.last + 4, next)])

/-- A failure inside an insert: the lock is released. -/
def lockedFailCode (n : Nat) (r : OperRun) (head st code a : Nat) (s : State) : State :=
  operFailCode 0 n r st code a (unlock n r.cmd head s)
def lockedFail (n : Nat) (r : OperRun) (head st a : Nat) (s : State) : State := lockedFailCode n r head st 0 a s

/-- An item that finds its chain's lock set waits for a retry. -/
def lockWait (n : Nat) (r : OperRun) (s : State) : State := setRun 0 n { r with locked := true } s

/-- One record of an INSERT. -/
def insertItem (n : Nat) (r : OperRun) (s : State) : State :=
  let c := r.cmd
  let t := operPort 0 n
  let a := c.quad 0x10 + 16 * r.pos
  let (s, st, rec) := uRead t c a 16 s
  if st ≠ stOK then operFail 0 n r st a s else
  let key := numAt rec 0 8
  let pay := numAt rec 8 8
  let head := headBucket r.table key
  let (s, st, held) := takeLock n c head s
  if st ≠ stOK then operFail 0 n r st head s
  else if held then lockWait n r s else
  let (s, st, fa, f) := tabLookup n r key (hpuMode c ≠ 0) s
  if st ≠ stOK then lockedFailCode n r head st f.code fa s else
  let s := countLookup n f.hit.isSome s
  let done := fun (r : OperRun) (s : State) => hpuNext n r (bump (Reg.PNL_HPU_INSERTS n) 1 (unlock n c head s))
  match hpuMode c, f.hit with
  | 1, some _ => hpuNext n { r with aux := r.aux + 1 } (unlock n c head s)
  | 2, some (b, line, i) =>
    let line := if b = head then splice line 0 (toBytes 4 (setFld (numAt line 0 4) 2 2 0)) else line
    let (s, st) := uWrite t c b (splice line (0x18 + 16 * i) (toBytes 8 pay)) s
    if st ≠ stOK then lockedFail n r head st b s else done { r with out := r.out + 1 } s
  | _, _ =>
    let full := bktCount f.line = 3
    let (s, st, v) := if full then takeOvf n r s else (s, stOK, none)
    if st ≠ stOK then lockedFail n r head st (c.quad 8 + 0x1C) s
    else if full && v.isNone then
      operEnd 0 n r stOK 2 (pulse (Reg.PNL_HPU_PAGE n) 0 (unlock n c head s))
    else
      let (s, st, fa) := uWrites t c (entryWrites r f head v key pay) s
      if st ≠ stOK then lockedFail n r head st fa s else
      let (s, st) := addEntries n c s
      if st ≠ stOK then lockedFail n r head st (c.quad 8 + 0x20) s else done { r with out := r.out + 1 } s

/-! ### GROUP (R137) -/

/-- Writes a key's index and goes on. -/
def groupOut (n : Nat) (r : OperRun) (g : Nat) (s : State) : State :=
  let a := r.cmd.quad 0x18 + 4 * r.pos
  let (s, st) := uWrite (operPort 0 n) r.cmd a (toBytes 4 g) s
  if st ≠ stOK then operFail 0 n r st a s else hpuNext n r s

/-- A key that gets no index: 0xFFFF_FFFF. -/
def groupNone (n : Nat) (r : OperRun) (head : Nat) (s : State) : State :=
  let s := bump (Reg.PNL_HPU_UNASSIGNED n) 1 (unlock n r.cmd head s)
  let s := if r.unassigned then s else pulse (Reg.PNL_HPU_PAGE n) 0 s
  groupOut n { r with unassigned := true } 0xFFFFFFFF s

/-- An aggregate record of a key with SUM and COUNT zero (Table 6.10). -/
def aggZero (key : Nat) : List Byte := toBytes 8 key ++ List.replicate 24 0

/-- One key of a GROUP: a key not found is looked up again once its chain is locked (R137). -/
def groupItem (n : Nat) (r : OperRun) (s : State) : State :=
  let c := r.cmd
  let t := operPort 0 n
  let a := c.quad 0x10 + r.pos * hpuStride c
  let (s, st, key) := uReadNat t c a 8 s
  if st ≠ stOK then operFail 0 n r st a s else
  let (s, st, fa, f) := tabLookup n r key false s
  if st ≠ stOK then operFailCode 0 n r st f.code fa s else
  match f.hit with
  | some _ => groupOut n { r with out := r.out + 1 } (f.pays.headD 0 % 2 ^ 32) (countLookup n true s)
  | none =>
    let head := headBucket r.table key
    let (s, st, held) := takeLock n c head s
    if st ≠ stOK then operFail 0 n r st head s
    else if held then lockWait n r s else
    let (s, st, fa, f) := tabLookup n r key false s
    if st ≠ stOK then lockedFailCode n r head st f.code fa s else
    let s := countLookup n f.hit.isSome s
    if f.hit.isSome then groupOut n { r with out := r.out + 1 } (f.pays.headD 0 % 2 ^ 32) (unlock n c head s) else
    let (s, st, v) := if bktCount f.line = 3 then takeOvf n r s else (s, stOK, none)
    if st ≠ stOK then lockedFail n r head st (c.quad 8 + 0x1C) s
    else if bktCount f.line = 3 && v.isNone then groupNone n r head s
    else
      let ea := c.quad 8 + 0x20
      let (s, st, g) := uReadNat t c ea 4 s
      if st ≠ stOK then lockedFail n r head st ea s
      else if tabGroupCap r.table ≤ g then groupNone n r head s
      else
        let (s, st) := uWrite t c ea (toBytes 4 (g + 1)) s
        if st ≠ stOK then lockedFail n r head st ea s else
        let acc := c.quad 0x28
        let (s, st) := if acc = 0 then (s, stOK) else uWrite t c (acc + 32 * g) (aggZero key) s
        if st ≠ stOK then lockedFail n r head st (acc + 32 * g) s else
        let (s, st, fa) := uWrites t c (entryWrites r f head v key g) s
        if st ≠ stOK then lockedFail n r head st fa s
        else groupOut n { r with out := r.out + 1, aux := r.aux + 1 } g (bump (Reg.PNL_HPU_GROUPS n) 1 (unlock n c head s))

/-! ### The commands -/

def hpuInsert (n items : Nat) (s : State) : State := operItems 0 n 1 (insertItem n) items (operPick 0 n 1 (hpuStart n) s)
def probeX (n items : Nat) (s : State) : State := operItems 0 n 2 (probeItem n) items (operPick 0 n 2 (hpuStart n) s)
def groupX (n items : Nat) (s : State) : State := operItems 0 n 3 (groupItem n) items (operPick 0 n 3 (hpuStart n) s)

def execHpuInsert (panel items : Nat) (s : State) : Host.Outcome State Fault Refusal := .next (hpuInsert panel items s)
def execProbe (panel items : Nat) (s : State) : Host.Outcome State Fault Refusal := .next (probeX panel items s)
def execGroup (panel items : Nat) (s : State) : Host.Outcome State Fault Refusal := .next (groupX panel items s)

/-- LOCK_RETRY (R135): the waiting item tries its chain's lock again. -/
def lockRetry (n : Nat) (s : State) : State :=
  match (operOf s 0 n).run with
  | none => s
  | some r =>
    if !r.locked || !working s || !cmdLive s r.cmd then s
    else
      let s := bump (Reg.PNL_HPU_LOCK_RETRY n) 1 s
      let r := { r with locked := false }
      if operOp r.cmd = 1 then insertItem n r s else groupItem n r s

def execLockRetry (panel : Nat) (s : State) : Host.Outcome State Fault Refusal := .next (lockRetry panel s)

end Sys2Proof.Machine
end

