-- ==== Sys2Proof/Machine/Part.lean ====
section
/-! DEFINITION. The Partition Unit: contexts, APPEND, FLUSH, RELEASE and RELOAD (R140 to R146). -/

namespace Sys2Proof.Machine

/-! ### Fields and ways (R140) -/

def puRsz (c : UnitCmd) : Nat := fld (c.word 0) 5 4
def puFunc (c : UnitCmd) : Bool := bit (c.word 0) 6
def puLog2w (c : UnitCmd) : Nat := fld (c.word 0) 10 7
def puShift (c : UnitCmd) : Nat := fld (c.word 0) 16 11

/-- The way of a key. -/
def wayOf (x : PartCtx) (key : Nat) : Nat :=
  if x.func then keyHash key / 2 ^ (32 - x.log2w) else key / 2 ^ x.shift % 2 ^ x.log2w

/-! ### Contexts (R142) -/

/-- Whether a context is bound: its job still runs. -/
def ctxBound (s : State) (x : PartCtx) : Bool := jobLive s x.job x.serial

/-- The bound context of a command's job and DIRSET, by number. -/
def findPart (s : State) (n : Nat) (c : UnitCmd) : Option (Nat × PartCtx) :=
  ((operOf s 1 n).ctx.filter fun p =>
    ctxBound s p.2 && p.2.job = c.job && p.2.serial = c.serial && p.2.inst = c.inst && p.2.dirset = c.quad 8).head?

/-- The lowest free context of a unit. -/
def freePart (s : State) (n : Nat) : Option Nat :=
  (List.range 4).find? fun k => match kFind (operOf s 1 n).ctx k with
    | some x => !ctxBound s x
    | none => true

/-- Whether a Panel's Partition Unit holds a bound context (R144). -/
def partBound (s : State) (n : Nat) : Bool := (operOf s 1 n).ctx.any fun p => ctxBound s p.2

def setPart (n k : Nat) (x : PartCtx) (s : State) : State :=
  setOper 1 n { operOf s 1 n with ctx := kSet (operOf s 1 n).ctx k x } s

/-- The directory entries read as bytes. -/
def waysOf (w : Nat) (bs : List Byte) : List PartWay :=
  (List.range w).map fun i => ⟨numAt bs (16 * i) 8, numAt bs (16 * i + 8) 4, numAt bs (16 * i + 12) 4, []⟩

/-- Binds a free context: the Panel's directory of the DIRSET and its entries (R141, R142); or status, error code and
address. -/
def bindPart (n : Nat) (c : UnitCmd) (s : State) : State × Option (Nat × Nat × Nat) :=
  match freePart s n with
  | none => (s, some (stBusy, 0, 0))
  | some k =>
    let t := operPort 1 n
    let (s, st, dir) := uReadNat t c (c.quad 8 + 8 * n) 8 s
    if st ≠ stOK then (s, some (st, 0, c.quad 8 + 8 * n)) else
    let w := 2 ^ puLog2w c
    let (s, st, bs) := uRead t c dir (16 * w) s
    if st ≠ stOK then (s, some (st, 0, dir)) else
    let ways := waysOf w bs
    match (List.range w).find? fun i =>
        let e := ways.getD i ⟨0, 0, 0, []⟩
        e.base % 64 ≠ 0 || e.cap % 64 ≠ 0 || e.fill % 64 ≠ 0 || e.cap < e.fill with
    | some i => (s, some (stDescInvalid, 3, dir + 16 * i))
    | none => (setPart n k ⟨c.inst, c.job, c.serial, c.quad 8, dir, puRsz c, puFunc c, puLog2w c, puShift c, ways⟩ s, none)

/-! ### Starting -/

/-- Whether a command's fields are in range; a field out of its range is a COMMAND error (DEDUCED, notes/assumptions/45.md). -/
def puCmdGood (c : UnitCmd) : Bool :=
  (match operOp c with
    | 1 => 1 ≤ puLog2w c && puLog2w c ≤ 8 && 1 ≤ operCount c && operCount c ≤ 16777216
    | 2 => true
    | 3 => true
    | 4 => c.quad 0x18 % 64 = 0 && c.word 0x20 % 64 = 0
    | _ => false)

/-- Starts a command of the Partition Unit: an APPEND finds or binds its context. -/
def puStart (n : Nat) (c : UnitCmd) (s : State) : State :=
  let r := newRun s 1 n c
  if !puCmdGood c then operReject 1 n r stDescInvalid 1 c.block s
  else if operOp c ≠ 1 then setRun 1 n r s
  else match findPart s n c with
    | some (_, x) =>
      if x.rsz ≠ puRsz c || x.func ≠ puFunc c || x.log2w ≠ puLog2w c || x.shift ≠ puShift c then
        operReject 1 n r stDescInvalid 2 (c.quad 8) s
      else setRun 1 n r s
    | none =>
      match bindPart n c s with
      | (s, none) => setRun 1 n r s
      | (s, some (st, code, a)) =>
        if st = stDescInvalid && code ≠ 0 then operReject 1 n r st code a s
        else if st = stBusy then operEndFree 1 n r st 0 s
        else
          let (f, s) := takeFree s
          operFail 1 n { r with aux := f % 2 ^ 32 } st a s

/-! ### APPEND (R143, R145, R146) -/

/-- One record of an APPEND. -/
def appendItem (n : Nat) (r : OperRun) (s : State) : State :=
  let c := r.cmd
  match findPart s n c with
  | none => s
  | some (k, x) =>
    let rs := 8 * 2 ^ x.rsz
    let a := c.quad 0x10 + rs * r.pos
    let (s, st, rec) := uRead (operPort 1 n) c a rs s
    if st ≠ stOK then operFail 1 n r st a s else
    let w := wayOf x (numAt rec 0 8)
    let e := x.ways.getD w ⟨0, 0, 0, []⟩
    if e.cap < e.fill + rs then
      operEnd 1 n { r with aux := w } stOK 1 (pulse (Reg.PNL_PU_PAGE n) 0 (bump (Reg.PNL_PU_PART_FULL n) 1 s))
    else
      let line := e.line ++ rec
      let full := line.length = 64
      let la := e.base + e.fill + rs - 64
      let (s, st) := if full then uWrite (operPort 1 n) c la line s else (s, stOK)
      if st ≠ stOK then operFail 1 n r st la s else
      let s := if full then bump (Reg.PNL_PU_LINES n) 1 s else s
      let s := setPart n k { x with ways := x.ways.set w { e with fill := e.fill + rs, line := if full then [] else line } } s
      let s := bump2 (Reg.PNL_PU_RECORDS n) (Reg.PNL_PU_SNAP_RECORDS n) 1 s
      let r := { r with pos := r.pos + 1, out := r.out + 1 }
      if r.pos < operCount c then setRun 1 n r s else operEndFree 1 n r stOK 0 s

def partitionAppend (n items : Nat) (s : State) : State := operItems 1 n 1 (appendItem n) items (operPick 1 n 1 (puStart n) s)
def execPartitionAppend (panel items : Nat) (s : State) : Host.Outcome State Fault Refusal := .next (partitionAppend panel items s)

/-! ### FLUSH, RELEASE and RELOAD (R143 to R145) -/

/-- Writes a way's partial staging line, with zeros after its last record: status and address. -/
def flushLine (n : Nat) (c : UnitCmd) (e : PartWay) (s : State) : State × Nat × Nat :=
  if e.line = [] then (s, stOK, 0) else
  let a := e.base + e.fill - e.line.length
  let (s, st) := uWrite (operPort 1 n) c a (padTo 64 e.line) s
  (if st = stOK then bump (Reg.PNL_PU_LINES n) 1 s else s, st, a)

/-- Writes every partial line, then every FILL. -/
def flushCtx (n : Nat) (c : UnitCmd) (x : PartCtx) (s : State) : State × Nat × Nat :=
  let r := x.ways.foldl (fun (r : State × Nat × Nat) e => if r.2.1 ≠ stOK then r else flushLine n c e r.1) (s, stOK, 0)
  if r.2.1 ≠ stOK then r else
  uWrites (operPort 1 n) c ((List.range x.ways.length).map fun i =>
    (x.dir + 16 * i + 12, toBytes 4 (x.ways.getD i ⟨0, 0, 0, []⟩).fill)) r.1

/-- FLUSH and RELEASE act on the context of the submitting task's job; without one they end at once. -/
def flushItem (n : Nat) (release : Bool) (r : OperRun) (s : State) : State :=
  match findPart s n r.cmd with
  | none => operEndFree 1 n r stOK 0 s
  | some (k, x) =>
    let (s, st, a) := flushCtx n r.cmd x s
    if st ≠ stOK then operFail 1 n r st a s
    else operEndFree 1 n r stOK 0
      (if release then setOper 1 n { operOf s 1 n with ctx := kDel (operOf s 1 n).ctx k } s else s)

/-- RELOAD gives a way a new sub-buffer; a unit without the context ends it as a CONTEXT error. -/
def reloadItem (n : Nat) (r : OperRun) (s : State) : State :=
  let c := r.cmd
  let w := fld (c.word 0x24) 7 0
  match findPart s n c with
  | none => operReject 1 n r stDescInvalid 2 (c.quad 8) s
  | some (k, x) =>
    if x.ways.length ≤ w then operReject 1 n r stDescInvalid 1 c.block s else
    let e := x.ways.getD w ⟨0, 0, 0, []⟩
    let (s, st, a) := flushLine n c e s
    if st ≠ stOK then operFail 1 n r st a s else
    let (s, st) := uWrite (operPort 1 n) c (x.dir + 16 * w) (toBytes 8 (c.quad 0x18) ++ toBytes 4 (c.word 0x20) ++ toBytes 4 0) s
    if st ≠ stOK then operFail 1 n r st (x.dir + 16 * w) s
    else operEnd 1 n { r with aux := e.fill } stOK 0
      (setPart n k { x with ways := x.ways.set w ⟨c.quad 0x18, c.word 0x20, 0, []⟩ } s)

def partitionFlush (n : Nat) (s : State) : State := operItems 1 n 2 (flushItem n false) 1 (operPick 1 n 2 (puStart n) s)
def partitionRelease (n : Nat) (s : State) : State := operItems 1 n 3 (flushItem n true) 1 (operPick 1 n 3 (puStart n) s)
def partitionReload (n : Nat) (s : State) : State := operItems 1 n 4 (reloadItem n) 1 (operPick 1 n 4 (puStart n) s)

def execPartitionFlush (panel : Nat) (s : State) : Host.Outcome State Fault Refusal := .next (partitionFlush panel s)
def execPartitionRelease (panel : Nat) (s : State) : Host.Outcome State Fault Refusal := .next (partitionRelease panel s)
def execPartitionReload (panel : Nat) (s : State) : Host.Outcome State Fault Refusal := .next (partitionReload panel s)

end Sys2Proof.Machine
end

