-- ==== Sys2Proof/Machine/MergeNet.lean ====
section
/-! DEFINITION. The Merge Network: SORTRUN, MERGE and TOPK, and aggregate records (R147, R149 to R154). -/

namespace Sys2Proof.Machine

/-! ### Aggregate records (R147) -/

/-- A signed sum outside 128 bits clamped, and whether it was. -/
def clampSum (x : Int) : Int × Bool :=
  if x < -(2 ^ 127) then (-(2 ^ 127), true) else if 2 ^ 127 - 1 < x then (2 ^ 127 - 1, true) else (x, false)

/-- Record b added into record a: the record, and whether the addition overflowed. -/
def aggAdd (a b : List Byte) : List Byte × Bool :=
  let sum := clampSum (signed 128 (numAt a 8 16) + signed 128 (numAt b 8 16))
  let ca := numAt a 0x18 8
  let cb := numAt b 0x18 8
  let cnt := ca % 2 ^ 63 + cb % 2 ^ 63
  let ovf := sum.2 || 2 ^ 63 ≤ cnt
  (slice a 0 8 ++ toBytes 16 (narrow 128 sum.1)
    ++ toBytes 8 (min cnt (2 ^ 63 - 1) + 2 ^ 63 * b2n (bit ca 63 || bit cb 63 || ovf)), ovf)

/-! ### Fields and order (R151) -/

def mnRs (c : UnitCmd) : Nat := 8 * 2 ^ fld (c.word 0) 5 4
def mnFold (c : UnitCmd) : Nat := fld (c.word 0) 7 6
def mnK (c : UnitCmd) : Nat := fld (c.word 8) 12 0

/-- Whether key a comes before key b in a command's order. -/
def mnBefore (c : UnitCmd) (a b : Nat) : Bool :=
  let lt := fun x y => if bit (c.word 0) 9 then decide (signed 64 x < signed 64 y) else decide (x < y)
  if bit (c.word 0) 8 then lt b a else lt a b

/-- A record put into a sorted list after every record that does not come after it. -/
def mnInsert (c : UnitCmd) (r : List Byte) : List (List Byte) → List (List Byte)
  | [] => [r]
  | x :: xs => if mnBefore c (numAt r 0 8) (numAt x 0 8) then r :: x :: xs else x :: mnInsert c r xs

/-! ### Output and FOLD (R153) -/

/-- Writes one output record. -/
def mnWrite (n : Nat) (r : OperRun) (rec : List Byte) (s : State) : State × OperRun × Nat :=
  let (s, st) := uWrite (operPort 2 n) r.cmd (r.cmd.quad 0x18 + r.bytes) rec s
  if st ≠ stOK then (s, r, st)
  else (bump2 (Reg.PNL_MN_RECORDS_OUT n) (Reg.PNL_MN_SNAP_RECORDS_OUT n) 1 s,
        { r with out := r.out + 1, bytes := r.bytes + rec.length }, stOK)

/-- Closes the open group of equal keys. -/
def mnClose (n : Nat) (r : OperRun) (s : State) : State × OperRun × Nat :=
  if r.group = [] then (s, r, stOK) else
  let (s, r, st) := mnWrite n r r.group s
  (s, { r with group := [] }, st)

/-- Takes the next record of the output order. -/
def mnTake (n : Nat) (r : OperRun) (rec : List Byte) (s : State) : State × OperRun × Nat :=
  let f := mnFold r.cmd
  if f = 0 then mnWrite n r rec s
  else if r.group ≠ [] && numAt r.group 0 8 = numAt rec 0 8 then
    if f = 1 then (bump (Reg.PNL_MN_FOLDED n) 1 s, { r with aux := r.aux + 1 }, stOK)
    else
      let q := aggAdd r.group rec
      if q.2 && bit (r.cmd.word 0) 10 then
        (pulse (Reg.PNL_MN_PAGE n) 0 (bump (Reg.PNL_MN_TRAPS n) 1 s), r, stArith)
      else
        let s := if q.2 then pulse (Reg.PNL_MN_PAGE n) 0 (bump (Reg.PNL_MN_SATURATED n) 1 s) else s
        (bump (Reg.PNL_MN_FOLDED n) 1 s, { r with group := q.1, aux := r.aux + 1 }, stOK)
  else
    let (s, r, st) := mnClose n r s
    if st ≠ stOK then (s, r, st) else (s, { r with group := rec }, stOK)

/-- Ends a command after its output: an overflow trap and a failing write end it with their status. -/
def mnFinish (n : Nat) (r : OperRun) (st : Nat) (s : State) : State :=
  if st = stOK then
    let (s, r, st) := mnClose n r s
    if st ≠ stOK then operFail 2 n r st (r.cmd.quad 0x18 + r.bytes) s else operEnd 2 n r stOK 0 s
  else if st = stArith then operEnd 2 n r st 0 s
  else operFail 2 n r st (r.cmd.quad 0x18 + r.bytes) s

/-! ### Start checks (R154) -/

/-- Whether OP, FOLD, COUNT and K are valid. -/
def mnCmdGood (c : UnitCmd) : Bool :=
  let n := operCount c
  mnFold c ≠ 3 && !(mnFold c = 2 && mnRs c ≠ 32) &&
    (match operOp c with
      | 1 => 1 ≤ n && n ≤ 4096
      | 2 => 1 ≤ n && n ≤ 16
      | 3 => mnFold c = 0 && 1 ≤ n && n ≤ 16777216 && 1 ≤ mnK c && mnK c ≤ 4096
      | _ => false)

/-- Starts a command of the Merge Network; a MERGE reads its run table. -/
def mnStart (n : Nat) (c : UnitCmd) (s : State) : State :=
  let r := newRun s 2 n c
  if !mnCmdGood c then operReject 2 n r stDescInvalid 1 c.block s
  else if operOp c = 2 then
    let (s, st, tab) := uRead (operPort 2 n) c (c.quad 0x10) (16 * operCount c) s
    if st ≠ stOK then operFail 2 n r st (c.quad 0x10) s else
    let runs := (List.range (operCount c)).map fun i => (numAt tab (16 * i) 8, numAt tab (16 * i + 8) 4 % 2 ^ 25, 0)
    if c.word 0x20 < (runs.foldl (fun k q => k + q.2.1) 0) * mnRs c then operReject 2 n r stDescInvalid 3 (c.quad 0x18) s
    else setRun 2 n { r with runs := runs, last := runs.map fun _ => none } s
  else if c.word 0x20 < (if operOp c = 1 then operCount c else mnK c) * mnRs c then
    operReject 2 n r stDescInvalid 3 (c.quad 0x18) s
  else setRun 2 n r s

/-! ### SORTRUN and TOPK (R152) -/

/-- Writes the records a SORTRUN or TOPK has kept, and ends it. -/
def sortOut (n : Nat) (r : OperRun) (s : State) : State :=
  let q := r.recs.foldl (fun (q : State × OperRun × Nat) rec =>
    if q.2.2 ≠ stOK then q else mnTake n q.2.1 rec q.1) (s, r, stOK)
  mnFinish n q.2.1 q.2.2 q.1

/-- One input record of a SORTRUN or TOPK, kept among the first `cap` of the output order; the output follows the last. -/
def sortItem (n cap : Nat) (r : OperRun) (s : State) : State :=
  let c := r.cmd
  let a := c.quad 0x10 + mnRs c * r.pos
  let (s, st, rec) := uRead (operPort 2 n) c a (mnRs c) s
  if st ≠ stOK then operFail 2 n r st a s else
  let s := bump (Reg.PNL_MN_RECORDS_IN n) 1 s
  let r := { r with pos := r.pos + 1, recs := (mnInsert c rec r.recs).take cap }
  if r.pos < operCount c then setRun 2 n r s else sortOut n r s

/-- Input records that the running command has still to read. -/
def itemsLeft (s : State) (u n : Nat) : Nat :=
  match (operOf s u n).run with
  | some r => operCount r.cmd - r.pos
  | none => 0

/-- SORTRUN and TOPK run to their end, or to the boundary of 16 records where a CLASS 3 command takes over (R126). -/
def sortrun (n : Nat) (s : State) : State :=
  let s := operPick 2 n 1 (mnStart n) s
  operItems 2 n 1 (sortItem n 4096) (itemsLeft s 2 n) s
def topk (n : Nat) (s : State) : State :=
  let s := operPick 2 n 3 (mnStart n) s
  operItems 2 n 3 (fun r s => sortItem n (mnK r.cmd) r s) (itemsLeft s 2 n) s

def execSortrun (panel : Nat) (s : State) : Host.Outcome State Fault Refusal := .next (sortrun panel s)
def execTopk (panel : Nat) (s : State) : Host.Outcome State Fault Refusal := .next (topk panel s)

/-! ### MERGE (R152, R154) -/

/-- The head records of the runs that are not empty: run number and record, or a failing access. -/
def mnHeads (n : Nat) (r : OperRun) (s : State) : State × List (Nat × List Byte) × Nat × Nat :=
  (List.range r.runs.length).foldl (fun (q : State × List (Nat × List Byte) × Nat × Nat) i =>
    let e := r.runs.getD i (0, 0, 0)
    if q.2.2.1 ≠ stOK || e.2.1 ≤ e.2.2 then q else
    let a := e.1 + mnRs r.cmd * e.2.2
    let (s, st, rec) := uRead (operPort 2 n) r.cmd a (mnRs r.cmd) q.1
    (s, if st = stOK then q.2.1 ++ [(i, rec)] else q.2.1, st, a)) (s, [], stOK, 0)

/-- The head that comes first; equal keys come from the lower-numbered run. -/
def mnFirst (c : UnitCmd) : List (Nat × List Byte) → Option (Nat × List Byte)
  | [] => none
  | x :: xs => match mnFirst c xs with
    | none => some x
    | some y => if mnBefore c (numAt y.2 0 8) (numAt x.2 0 8) then some y else some x

/-- One record of a MERGE. -/
def mergeItem (n : Nat) (r : OperRun) (s : State) : State :=
  let c := r.cmd
  let (s, hs, st, a) := mnHeads n r s
  if st ≠ stOK then operFail 2 n r st a s else
  match hs.find? fun h => match r.last.getD h.1 none with
      | some k => mnBefore c (numAt h.2 0 8) k
      | none => false with
  | some h =>
    let e := r.runs.getD h.1 (0, 0, 0)
    operEnd 2 n r stDescInvalid 0 (recErr (Reg.PNL_MN_PAGE n) 2 (e.1 + mnRs c * e.2.2) s)
  | none =>
    match mnFirst c hs with
    | none => mnFinish n r stOK s
    | some (i, rec) =>
      let s := bump (Reg.PNL_MN_RECORDS_IN n) 1 s
      let e := r.runs.getD i (0, 0, 0)
      let (s, r, st) := mnTake n { r with pos := r.pos + 1, runs := r.runs.set i (e.1, e.2.1, e.2.2 + 1),
                                          last := r.last.set i (some (numAt rec 0 8)) } rec s
      if st ≠ stOK then mnFinish n r st s
      else if r.runs.all fun e => e.2.1 ≤ e.2.2 then mnFinish n r stOK s
      else setRun 2 n r s

def merge (n items : Nat) (s : State) : State := operItems 2 n 2 (mergeItem n) items (operPick 2 n 2 (mnStart n) s)
def execMerge (panel items : Nat) (s : State) : Host.Outcome State Fault Refusal := .next (merge panel items s)

end Sys2Proof.Machine
end

