-- ==== Sys2Proof/Machine/MatchArray.lean ====
section
/-! DEFINITION. The Match Array: entries, lookups and steps, the update engine's commands, and scrubbing (R155 to R167,
R395). -/

namespace Sys2Proof.Machine

/-! ### Entries (R155, R156) -/

def entryOf (s : State) (e : Nat) : MaEntry := kGet {} s.ma.entries e
def setMa (x : MaSt) (s : State) : State := { s with ma := x }
def setEntry (e : Nat) (x : MaEntry) (s : State) : State := setMa { s.ma with entries := kPut {} s.ma.entries e x } s

/-- An instance's window. -/
def maBase (s : State) (i : Nat) : Nat := rFld s (Reg.INST_CUFF_MA_BASE i) 17 0

/-- The level of SUSPECT: high while any entry is. -/
def suspectLevel (s : State) : State := level Reg.MA_PAGE 2 (s.ma.entries.any fun p => p.2.suspect) s

/-- The parity bit of a 32-bit word: the sum of its bits. -/
def wordParity (w : Nat) : Nat := ((List.range 32).foldl (fun n i => n + b2n (bit w i)) 0) % 2

/-- Fresh parity of the five words of KEY or MASK, as a number of five bits. -/
def wideParity (v : Nat) : Nat := (List.range 5).foldl (fun n i => n + wordParity (fld v (32 * i + 31) (32 * i)) * 2 ^ i) 0

/-- An entry's words with fresh parity: KEY and MASK, or DATA (R162). -/
def putKm (k m : Nat) (x : MaEntry) : MaEntry :=
  { x with key := k, mask := m, cells := none, par := wideParity k + 2 ^ 5 * wideParity m + 2 ^ 10 * fld x.par 10 10 }
def putData (v : Nat) (x : MaEntry) : MaEntry := { x with data := v, par := x.par % 2 ^ 10 + 2 ^ 10 * wordParity v }

/-- Whether the parity of every word of an entry is good. -/
def MaEntry.parityOk (x : MaEntry) : Bool := x.par = wideParity x.key + 2 ^ 5 * wideParity x.mask + 2 ^ 10 * wordParity x.data

/-- Whether a key matches KEY under MASK. -/
def kmMatch (key k m : Nat) : Bool := (key ^^^ k) &&& m = 0

/-- raw_match of R157: what the match lines show. -/
def rawMatch (x : MaEntry) (key : Nat) : Bool :=
  x.valid && (let c := x.cells.getD (x.key, x.mask); kmMatch key c.1 c.2)

/-- Whether a hit is good: not SUSPECT, its parity good, and the words read back match (R159). -/
def readbackOk (x : MaEntry) (key : Nat) : Bool := !x.suspect && x.parityOk && kmMatch key x.key x.mask

/-! ### Lookups and steps (R157 to R160) -/

/-- Fields of a request (Table 7.2). -/
def reqOp (q : MaReq) : Nat := numAt q.bytes 0 4 % 4
def reqLo (q : MaReq) : Nat := numAt q.bytes 4 4 % 2 ^ 18
def reqSize (q : MaReq) : Nat := numAt q.bytes 8 4 % 2 ^ 19
def reqFrom (q : MaReq) : Nat := numAt q.bytes 12 4 % 2 ^ 19
def reqKey (q : MaReq) : Nat := numAt q.bytes 16 20

/-- What a request answers (Table 7.3): STATUS, HIT, INDEX, DATA, MULTI, SUSP. -/
structure MaAnswer where
  status : Nat
  hit    : Bool := false
  index  : Nat := 0
  data   : Nat := 0
  multi  : Bool := false
  susp   : Bool := false
  deriving DecidableEq, Repr

/-- The 16 bytes of a response. -/
def answerBytes (a : MaAnswer) : List Byte :=
  toBytes 4 (a.status + 256 * b2n a.hit + 512 * b2n a.multi + 1024 * b2n a.susp) ++ toBytes 4 a.index ++ toBytes 4 a.data
    ++ toBytes 4 0

/-- A false hit is suppressed (R159). -/
def suppress (e : Nat) (s : State) : State :=
  let s := bump2 Reg.MA_FALSE_HIT Reg.MA_SNAP_FALSE_HIT 1 (setEntry e { entryOf s e with suspect := true } s)
  corrected (suspectLevel (pulse Reg.MA_PAGE 0 (recErr Reg.MA_PAGE 1 e s)))

/-- The search of R157 over the entries that match, in ascending index. -/
def searchFrom (wb key : Nat) : List Nat → Option Nat → Bool → State → State × MaAnswer
  | [], win, susp, s =>
    (s, match win with
      | none => { status := stOK, susp := susp }
      | some e => { status := stOK, hit := true, index := e - wb, data := (entryOf s e).data, susp := susp })
  | e :: r, win, susp, s =>
    match win with
    | some w => (s, { status := stOK, hit := true, index := w - wb, data := (entryOf s w).data, multi := true, susp := susp })
    | none =>
      if readbackOk (entryOf s e) key then searchFrom wb key r (some e) susp s
      else searchFrom wb key r none true (suppress e s)

/-- answer(req, inst) of R157. -/
def maAnswer (q : MaReq) (s : State) : State × MaAnswer :=
  let wb := maBase s q.inst
  let op := reqOp q
  let lo := reqLo q
  let stop := lo + reqSize q
  let start := if op = 2 then reqFrom q else lo
  if op ≠ 1 && op ≠ 2 then (s, { status := stDescInvalid })
  else if reqSize q = 0 || maSize s q.inst < stop then (s, { status := stQuota })
  else if start < lo || stop < start then (s, { status := stDescInvalid })
  else
    let es := (s.ma.entries.filter fun p => wb + start ≤ p.1 && p.1 < wb + stop && rawMatch p.2 (reqKey q)).map (·.1)
    searchFrom wb (reqKey q) es none false s

/-- Requests in places of each kind. -/
def placesUsed (l : List MaReq) (k : Bool) : Nat := (l.filter fun q => q.place = some k).length

/-- Held requests enter as soon as a place they may take is free (R160). -/
def enterPlaces : List MaReq → List MaReq → List MaReq
  | done, [] => done
  | done, q :: r =>
    let all := done ++ q :: r
    let q := if q.place.isSome then q
      else if q.cls = 3 && placesUsed all true < 16 then { q with place := some true }
      else if placesUsed all false < 112 then { q with place := some false }
      else q
    enterPlaces (done ++ [q]) r

/-- A request reaches the array. -/
def maArrive (q : MaReq) (s : State) : State :=
  setMa { s.ma with waiting := enterPlaces [] (s.ma.waiting ++ [q]) } s

/-- The request a free port takes: highest priority, then earliest arrived (R160). -/
def portTakes (l : List MaReq) : Option MaReq :=
  l.foldl (fun b q => if q.place.isNone then b else match b with
    | none => some q
    | some x => if x.cls < q.cls then some q else b) none

/-- A port takes a request and answers it (R157): the response goes to its Pocket. -/
def answerNext (ops : List Nat) (s : State) : State :=
  match portTakes s.ma.waiting with
  | none => s
  | some q =>
    if !clocked s || !ops.contains (reqOp q) then s else
    let s := setMa { s.ma with waiting := enterPlaces [] (s.ma.waiting.erase q) } s
    let s := bumpFrame Reg.MA_SNAP_WAIT (s.now - q.at_) (bump2 Reg.MA_LOOKUPS Reg.MA_SNAP_LOOKUPS 1 s)
    let (s, a) := maAnswer q s
    let s := if a.hit then bump Reg.MA_HITS 1 s else s
    let s := if a.multi then bump Reg.MA_MULTI 1 s else s
    if q.pocket = 0xFFFF then s else setMa { s.ma with resp := kSet s.ma.resp q.pocket (answerBytes a) } s

def execLookup (s : State) : Host.Outcome State Fault Refusal := .next (answerNext [0, 1, 3] s)
def execStep (s : State) : Host.Outcome State Fault Refusal := .next (answerNext [0, 2, 3] s)

/-! ### Commands of INST_MA pages (R161 to R165) -/

def maRunOf (s : State) (i : Nat) : Option MaRun := kFind s.ma.runs i
def setMaRun (i : Nat) (x : MaRun) (s : State) : State := setMa { s.ma with runs := kSet s.ma.runs i x } s

/-- A command ends: RESULT, OUTCOME, the counts, BUSY clear, and DONE pulses (R163). -/
def maEnd (i : Nat) (x : MaRun) (st outcome : Nat) (s : State) : State :=
  let s := setMa { s.ma with runs := kDel s.ma.runs i } s
  let s := rSetFld (Reg.INST_MA_STATUS i) 0 0 0 (rSetFld (Reg.INST_MA_STATUS i) 15 8 st
    (rSetFld (Reg.INST_MA_STATUS i) 17 16 outcome s))
  pulse (Reg.INST_MA_PAGE i) 0 (rSet (Reg.INST_MA_COUNT_DONE i) x.done s)

/-- The nearest invalid entry of a range, upward on a tie (R165). -/
def nearestInvalid (s : State) (wb lo size p : Nat) : Option Nat :=
  let inv := fun i => lo ≤ i && i < lo + size && !(entryOf s (wb + i)).valid
  ((List.range size).find? fun d => inv (p + d) || (d ≤ p && inv (p - d))).map fun d => if inv (p + d) then p + d else p - d

/-- The operations of a move, b being invalid. -/
def moveOps (a b : Nat) : List MaOp := [.fetch a, .putData b, .putKeyMask b, .valid b, .inval a]

/-- The two writes of WRITE, in an order that is not fixed; SUSPECT clears at the second (R159, R162). -/
def writeOps (e : Nat) (x : MaRun) (keyFirst : Bool) : List MaOp :=
  if keyFirst then [.keyMask e x.key x.mask none, .data e x.data (some false)]
  else [.data e x.data none, .keyMask e x.key x.mask (some false)]

/-- The start checks of R163: the failing status, or the command goes on. -/
def maCheck (s : State) (i : Nat) (x : MaRun) : Nat :=
  let ws := maSize s i
  let inWin := fun lo n => 1 ≤ n && lo + n ≤ ws
  let images := if x.holes then x.count + (x.count - 1) / (x.spacing - 1) else x.count
  match x.op with
  | 4 => if ws ≤ x.pos || !inWin x.lo x.size then stQuota
         else if x.pos < x.lo || x.lo + x.size ≤ x.pos then stDescInvalid else stOK
  | 5 => if !inWin x.lo x.size then stQuota
         else if x.spacing < 2 || 4096 < x.spacing || x.size < images then stDescInvalid else stOK
  | 6 => if !inWin x.lo x.count then stQuota else stOK
  | 7 => if !inWin x.lo x.size then stQuota else stOK
  | _ => if ws ≤ x.pos then stQuota else stOK

/-- A command's start: its checks, and the first array operations. -/
def maStart (i : Nat) (x : MaRun) (s : State) : State :=
  let st := maCheck s i x
  let wb := maBase s i
  let x := { x with started := true }
  if st ≠ stOK then maEnd i x st 0 s else
  match x.op with
  | 1 => setMaRun i { x with ops := [.inval (wb + x.pos)] } s
  | 2 =>
    let live := (entryOf s (wb + x.pos)).valid
    let s := rSetFld (Reg.INST_MA_STATUS i) 18 18 (b2n live) s
    let s := if live then pulse Reg.MA_PAGE 1 (bump Reg.MA_LIVE_WRITE 1 s) else s
    let (f, s) := takeFree s
    setMaRun i { x with ops := writeOps (wb + x.pos) x (f % 2 = 1) } s
  | 3 => setMaRun i { x with ops := [.valid (wb + x.pos)] } s
  | 4 =>
    match nearestInvalid s wb x.lo x.size x.pos with
    | none => maEnd i x stOK 1 s
    | some h =>
      let moves := if x.pos ≤ h then (List.range (h - x.pos)).map fun d => (h - 1 - d, h - d)
                   else (List.range (x.pos - 1 - h)).map fun d => (h + 1 + d, h + d)
      let q := if x.pos ≤ h then x.pos else x.pos - 1
      let ops := (moves.flatMap fun m => moveOps (wb + m.1) (wb + m.2))
        ++ [.data (wb + q) x.data none, .keyMask (wb + q) x.key x.mask none, .valid (wb + q)]
      setMaRun i { x with ops := ops, done := moves.length, next := q } s
  | _ => setMaRun i { x with next := x.lo } s

/-- A write of INST_MA_CMD (R163, R370). -/
def maCmdEff (i op : Nat) (s : State) : State :=
  let pg := Reg.INST_MA_PAGE i
  if op = 0 || !clocked s then s
  else if (maRunOf s i).isSome then recErr pg 1 0 s
  else if stagePending s pg then recErr pg 3 0 s
  else
    let words := fun (a : Nat → Nat) => (List.range 5).foldl (fun n k => n + rGet s (a k) * 2 ^ (32 * k)) 0
    let x : MaRun :=
      { op := op, started := false, pos := rFld s (Reg.INST_MA_POS i) 17 0, lo := rFld s (Reg.INST_MA_RANGE_LO i) 17 0,
        size := rFld s (Reg.INST_MA_RANGE_SIZE i) 18 0, count := rFld s (Reg.INST_MA_COUNT i) 18 0,
        addr := rGet s (Reg.INST_MA_ADDR_LO i) + 2 ^ 32 * rFld s (Reg.INST_MA_ADDR_HI i) 15 0,
        holes := rBit s (Reg.INST_MA_FLAGS i) 0, spacing := rFld s (Reg.INST_MA_FLAGS i) 13 1,
        key := words (Reg.INST_MA_KEY i), mask := words (Reg.INST_MA_MASK i), data := rGet s (Reg.INST_MA_DATA i) }
    let s := setMaRun i x (rSetFld (Reg.INST_MA_STATUS i) 0 0 1 s)
    if pageEn s Reg.MA_PAGE then maStart i x s else s

/-- A write of INST_MA_CMD with a command's OP. -/
def maCommand (w : Writer) (inst op : Nat) (s : State) : State := acceptWrite w (Reg.INST_MA_CMD inst) (maCmdEff inst op) s

def execMaInvalidate (w : Writer) (inst : Nat) (s : State) : Host.Outcome State Fault Refusal := .next (maCommand w inst 1 s)
def execMaWrite (w : Writer) (inst : Nat) (s : State) : Host.Outcome State Fault Refusal := .next (maCommand w inst 2 s)
def execMaValidate (w : Writer) (inst : Nat) (s : State) : Host.Outcome State Fault Refusal := .next (maCommand w inst 3 s)
def execMaInsert (w : Writer) (inst : Nat) (s : State) : Host.Outcome State Fault Refusal := .next (maCommand w inst 4 s)
def execMaLoad (w : Writer) (inst : Nat) (s : State) : Host.Outcome State Fault Refusal := .next (maCommand w inst 5 s)
def execMaDump (w : Writer) (inst : Nat) (s : State) : Host.Outcome State Fault Refusal := .next (maCommand w inst 6 s)
def execMaClear (w : Writer) (inst : Nat) (s : State) : Host.Outcome State Fault Refusal := .next (maCommand w inst 7 s)

/-! ### Array operations (R161, R162, R164, R165) -/

/-- The image of an entry (Table 7.1). -/
def imageOf (x : MaEntry) : List Byte :=
  toBytes 20 x.key ++ toBytes 20 x.mask ++ toBytes 4 x.data ++ toBytes 4 (b2n x.valid + 2 * b2n x.suspect)

/-- The TLB that LOAD and DUMP use. -/
def maTlb (s : State) (i : Nat) : Nat := tlbCollar (instPort s i)

/-- Fetches a command's next operations where it has none left: the next image or hole of a LOAD, entry of a DUMP, or 64
entries of a CLEAR. A command with nothing left ends. -/
def maRefill (i : Nat) (x : MaRun) (s : State) : State :=
  let wb := maBase s i
  match x.op with
  | 5 =>
    if x.done = x.count then maEnd i x stOK 0 s
    else if x.holes && (x.next - x.lo) % x.spacing = x.spacing - 1 then
      setMaRun i { x with ops := [.inval (wb + x.next)], next := x.next + 1 } s
    else
      let (s, st, im) := vRead (maTlb s i) i (x.addr + 48 * x.done) 48 s
      if st ≠ stOK then maEnd i x st 0 s
      else
        let e := wb + x.next
        let ops := [MaOp.inval e, .data e (numAt im 0x28 4) none, .keyMask e (numAt im 0 20) (numAt im 0x14 20) none]
          ++ (if bit (numAt im 0x2C 4) 0 then [.valid e] else [])
        setMaRun i { x with ops := ops, next := x.next + 1, done := x.done + 1 } s
  | 6 =>
    if x.done = x.count then maEnd i x stOK 0 s
    else setMaRun i { x with ops := [.dump (wb + x.next)], next := x.next + 1 } s
  | 7 =>
    if x.done = x.size then maEnd i x stOK 0 s
    else
      let n := min 64 (x.size - x.done)
      setMaRun i { x with ops := [.clear (wb + x.next) n], next := x.next + n, done := x.done + n } s
  | 4 => maEnd i x stOK 0 (rSet (Reg.INST_MA_LANDED i) x.next s)
  | _ => maEnd i x stOK 0 s

/-- SUSPECT at the second write of a pair. -/
def withSus (sus : Option Bool) (x : MaEntry) : MaEntry :=
  match sus with
  | some b => { x with suspect := b }
  | none => x

/-- One array operation of a command. -/
def maOp (i : Nat) (x : MaRun) (o : MaOp) (s : State) : State :=
  let s := bump Reg.MA_UPD_OPS 1 s
  let on := fun (e : Nat) (f : MaEntry → MaEntry) => setMaRun i x (setEntry e (f (entryOf s e)) s)
  match o with
  | .inval e => on e fun y => { y with valid := false }
  | .valid e => on e fun y => { y with valid := true }
  | .data e v sus => on e fun y => withSus sus (putData v y)
  | .keyMask e k m sus => on e fun y => withSus sus (putKm k m y)
  | .clear e n => setMaRun i x (setMa { s.ma with entries := (s.ma.entries.map fun p =>
      if e ≤ p.1 && p.1 < e + n then (p.1, { p.2 with valid := false, suspect := false }) else p).filter fun p => p.2 ≠ {} } s)
  | .dump e =>
    let (s, st) := vWrite (maTlb s i) i (x.addr + 48 * x.done) (imageOf (entryOf s e)) s
    if st ≠ stOK then maEnd i x st 0 s else setMaRun i { x with done := x.done + 1 } s
  | .fetch e =>
    let y := entryOf s e
    setMaRun i { x with moved := { y with suspect := y.suspect || !y.parityOk } } s
  | .putData e => on e (putData x.moved.data)
  | .putKeyMask e => on e fun y => { putKm x.moved.key x.moved.mask y with suspect := x.moved.suspect }

/-- Commands that waited for MA.EN start once it is set. -/
def startWaiting (s : State) : State :=
  if !pageEn s Reg.MA_PAGE then s else
  s.ma.runs.foldl (fun s p => if p.2.started || stagePending s (Reg.INST_MA_PAGE p.1) then s else maStart p.1 p.2 s) s

/-- The instance whose running command the update engine serves next: ascending from the last served (R161). -/
def maTurn (s : State) : Option Nat :=
  let ks := (s.ma.runs.filter (·.2.started)).map (·.1)
  match ks.find? fun i => s.ma.last < i with
  | some i => some i
  | none => ks.head?

/-- One operation of an instance's command, and the command's end after its last. -/
def serveRun (i : Nat) (x : MaRun) (s : State) : State :=
  match x.ops with
  | [] => s
  | o :: r =>
    let s := suspectLevel (maOp i { x with ops := r } o (setMa { s.ma with last := i } s))
    match maRunOf s i with
    | some y => if y.ops = [] && (y.op < 5 || y.done = (if y.op = 7 then y.size else y.count)) then maRefill i y s else s
    | none => s

/-- ARRAY_OPERATION (R161): the update engine takes one operation of the next instance's running command. -/
def arrayOperation (s : State) : State :=
  if !clocked s then s else
  let s := startWaiting s
  match maTurn s with
  | none => s
  | some i =>
    let s := match maRunOf s i with
      | some x => if x.ops = [] then maRefill i x s else s
      | none => s
    match maRunOf s i with
    | none => s
    | some x => serveRun i x s

def execArrayOperation (s : State) : Host.Outcome State Fault Refusal := .next (arrayOperation s)

/-- What an instance reset does to its command: it stops at its array-operation boundary (R395). -/
def maStop (i : Nat) (s : State) : State := setMa { s.ma with runs := kDel s.ma.runs i } s

/-! ### Scrubbing (R167) -/

/-- Whether the array scrubs now. -/
def scrubs (s : State) : Bool :=
  !halted s && rBit s Reg.MA_CTRL 0 && s.dev.diagBusy ≠ some 4 &&
    (match s.dev.mode with
      | .bringup => true
      | .configure => true
      | .service => true
      | .drain => true
      | .diagnose => true
      | _ => false)

/-- MA_SCRUB (R167): one entry's parity is checked. -/
def maScrub (s : State) : State :=
  if !scrubs s then s else
  let e := s.ma.scrub
  let s := setMa { s.ma with scrub := (e + 1) % 262144 } s
  let s := if e + 1 = 262144 then bump Reg.MA_SCRUB_PASSES 1 s else s
  if (entryOf s e).parityOk then s
  else corrected (suspectLevel (recErr Reg.MA_PAGE 2 e (setEntry e { entryOf s e with suspect := true } s)))

def execMaScrub (s : State) : Host.Outcome State Fault Refusal := .next (maScrub s)

end Sys2Proof.Machine
end

