-- ==== Sys2Proof/Machine/Memory.lean ====
section
/-! DEFINITION. Commands and events of the memories: the controller stops, the capacity-tier ports, invalidation, and the
promotion engine (chapter 11). -/

namespace Sys2Proof.Machine

/-! ### Reads and writes at a controller stop (R240, R241) -/

/-- A 48-bit physical range inside one 64-byte line of a controller stop's memory. -/
def atStop (s : State) (h a : Nat) : Bool :=
  match regionOf s a with
  | .hbm k _ => k = h
  | _ => false

/-- The order of R240 within a pseudo-channel: higher mesh priority, then a request that has waited 1,024 fabric cycles or
more, then one that hits an open row, then the oldest; a request is its address, priority and arrival. -/
def stopBefore (s : State) (h : Nat) (a b : Nat × Nat × Nat) : Bool :=
  let old := fun (q : Nat × Nat × Nat) => q.2.2 + 1024 ≤ s.now
  let hit := fun (q : Nat × Nat × Nat) =>
    kFind (hmcOf s h).rows (bankKey (q.1 - h * stopBytes)) = some (rowOf (q.1 - h * stopBytes))
  if a.2.1 ≠ b.2.1 then b.2.1 < a.2.1
  else if old a ≠ old b then old a
  else if hit a ≠ hit b then hit a
  else a.2.2 < b.2.2

/-- The read a pseudo-channel serves next, and the write it takes next, which no earlier read of its line waits for. -/
def nextRead (s : State) (h pc : Nat) : Option WaitRead :=
  firstBy (fun a b => stopBefore s h (a.addr, a.prio, a.at_) (b.addr, b.prio, b.at_)) ((pcReads s h pc).filter fun r => !r.held)
def nextWrite (s : State) (h pc : Nat) : Option WqLine :=
  firstBy (fun a b => stopBefore s h (a.line * 64, a.prio, a.at_) (b.line * 64, b.prio, b.at_))
    ((pcWrites s h pc).filter fun q => !((pcReads s h pc).any fun r => !r.held && r.addr / 64 = q.line))

/-- A write drain begins at 48 waiting lines and ends at 16 (R240). -/
def drainLevel (h pc : Nat) (s : State) : State :=
  let n := (pcWrites s h pc).length
  let x := hmcOf s h
  let others := x.drain.filter (· != pc)
  setHmc h { x with drain := if 48 ≤ n || (x.drain.contains pc && 16 < n) then pc :: others else others } s

/-- Whether a request's queue has a place for it. -/
def queueRoom (s : State) (h : Nat) (q : HbmReq) : Bool :=
  if q.write then (wqFind (hmcOf s h).wq (q.addr / 64)).isSome || (pcWrites s h (pcAt h q.addr)).length < 64
  else (pcReads s h (pcAt h q.addr)).length < 64

/-- A read is compared with the write queue: answered from an entry that covers it, held for one that covers it in part,
else it waits for its stack (R241). -/
def takeRead (h : Nat) (q : HbmReq) (s : State) : State :=
  let wait := fun (held : Bool) =>
    setHmc h { hmcOf s h with reads := (hmcOf s h).reads ++ [⟨q.addr, q.len, q.prio, q.at_, held⟩] } s
  match wqFind (hmcOf s h).wq (q.addr / 64) with
  | none => wait false
  | some e =>
    if wqCovers e q.addr q.len then emit (.memData (memBytes s q.addr q.len) stOK) (bump (Reg.HMC_FORWARDS h) 1 s)
    else wait (wqMeets e q.addr q.len)

/-- A write waits in the queue, merged into a waiting entry of its line unless a held read waits for that one, which is
then written first (R241). -/
def takeWrite (h : Nat) (q : HbmReq) (s : State) : State :=
  let line := q.addr / 64
  let new := fun (m : KMap Byte) => (List.zip (List.range q.bytes.length) q.bytes).foldl (fun m p => kSet m ((q.addr + p.1) % 64) p.2) m
  let s := match wqFind (hmcOf s h).wq line with
    | some e => if ((hmcOf s h).reads.any fun r => r.held && r.addr / 64 = line) then writeEntry h e s else s
    | none => s
  let x := hmcOf s h
  let merged := x.wq.map fun e => if e.line = line then { e with bytes := new e.bytes } else e
  let wq := if (wqFind x.wq line).isSome then merged else x.wq ++ [⟨line, new [], q.prio, q.at_⟩]
  drainLevel h (pcAt h q.addr) (setHmc h { x with wq := wq } s)

def takeReq (h : Nat) (q : HbmReq) (s : State) : State := if q.write then takeWrite h q s else takeRead h q s

/-- A request reaches a stop: it enters its queue, or waits in the input buffer behind those of its pseudo-channel (R240). -/
def request (h : Nat) (q : HbmReq) (s : State) : State :=
  let s := arrive h (pcAt h q.addr) s
  if queueRoom s h q && !((hmcOf s h).input.any fun r => pcAt h r.addr = pcAt h q.addr) then takeReq h q s
  else setHmc h { hmcOf s h with input := (hmcOf s h).input ++ [q] } s

/-- The first request of a pseudo-channel in the input buffer enters its queue once there is room. -/
def takeWaiting (h pc : Nat) (s : State) : State :=
  match (hmcOf s h).input.find? fun q => pcAt h q.addr = pc with
  | none => s
  | some q => if queueRoom s h q then takeReq h q (setHmc h { hmcOf s h with input := (hmcOf s h).input.erase q } s) else s

/-- A pseudo-channel's next command (R240): a write in a drain, else a read, else a write. -/
def pcIssue (h pc : Nat) (s : State) : State :=
  let s := drainLevel h pc s
  let s := match nextRead s h pc, nextWrite s h pc with
    | some r, some q => if (hmcOf s h).drain.contains pc then writeEntry h q s else serveRead h r s
    | some r, none => serveRead h r s
    | none, some q => writeEntry h q s
    | none, none => s
  takeWaiting h pc (drainLevel h pc s)

/-- What waits for a pseudo-channel. -/
def pcLoad (s : State) (h pc : Nat) : Nat :=
  (pcWrites s h pc).length + (pcReads s h pc).length + ((hmcOf s h).input.filter fun q => pcAt h q.addr = pc).length

/-- Fabric cycles pass: each pseudo-channel issues one command in each. -/
def drainIdle (n : Nat) (s : State) : State :=
  s.hmc.foldl (fun s p =>
    if p.2.wq = [] && p.2.reads = [] && p.2.input = [] then s
    else (List.range 32).foldl (fun s pc => forN (min n (pcLoad s p.1 pc)) s fun _ s => pcIssue p.1 pc s) s) s

/-- HBM_READ: the read reaches the stop, and where it is not answered from the write queue its pseudo-channel issues a
command. -/
def hbmReadX (h a n prio : Nat) (s : State) : State :=
  if !atStop s h a then emit (.memData [] stUncorrectable) s else
  let t := request h ⟨false, a, n, [], prio, s.now⟩ s
  if (hmcOf t h).reads.length = (hmcOf s h).reads.length && (hmcOf t h).input.length = (hmcOf s h).input.length then t
  else pcIssue h (pcAt h a) t

def execHbmRead (stop addr len prio : Nat) (s : State) : Host.Outcome State Fault Refusal :=
  .next (hbmReadX stop addr len prio s)

/-- HBM_WRITE: the write reaches the stop. -/
def hbmWriteX (h a : Nat) (bs : List Byte) (prio : Nat) (s : State) : State :=
  if !atStop s h a then emit (.memData [] stUncorrectable) s else request h ⟨true, a, bs.length, bs, prio, s.now⟩ s

def execHbmWrite (stop addr : Nat) (data : List Byte) (prio : Nat) (s : State) : Host.Outcome State Fault Refusal :=
  .next (hbmWriteX stop addr data prio s)

/-! ### Refresh, self-refresh, scrub, training (R242 to R245) -/

/-- A bank's refresh: `bank` is stack ID × 16 + bank and group, as `bankKey` has it. -/
def refreshX (h pc bank : Nat) (s : State) : State :=
  setHmc h { hmcOf s h with bankRefresh := kSet (hmcOf s h).bankRefresh (pc * 1024 + bank) s.now } s

def execRefresh (stop pc bank : Nat) (s : State) : Host.Outcome State Fault Refusal := .next (refreshX stop pc bank s)

/-- A pseudo-channel enters self-refresh after its idle time (R243): HMC_SR_IDLE µs of 1,600 fabric cycles. -/
def selfRefreshX (h pc : Nat) (s : State) : State :=
  let x := hmcOf s h
  let idle := kGet 0 x.lastReq pc + 1600 * rFld s (Reg.HMC_SR_IDLE h) 15 0 ≤ s.now
  if x.selfRef.contains pc || !(rBit s (Reg.HMC_CTRL h) 5 && idle) then s
  else bump (Reg.HMC_SR_ENTRIES h) 1 (setHmc h { x with selfRef := pc :: x.selfRef } s)

def execSelfRefreshEntry (stop pc : Nat) (s : State) : Host.Outcome State Fault Refusal := .next (selfRefreshX stop pc s)

/-- The offset of a local address of a pseudo-channel: the inverse of Table 11.2. -/
def offsetOf (pc l : Nat) : Nat := l % 256 + (pc ^^^ (l / 256 / 8 % 32)) * 256 + l / 256 * 8192

/-- Lines of one pseudo-channel: 768 MiB. -/
def pcLines : Nat := 12582912

/-- A scrub read of the next line of a pseudo-channel, in ascending local address; one in self-refresh is not woken
(R243, R244). -/
def hbmScrubX (h pc : Nat) (s : State) : State :=
  let x := hmcOf s h
  if !rBit s (Reg.HMC_CTRL h) 6 || x.selfRef.contains pc || !x.trained || x.failed then s
  else
    let k := kGet 0 x.scrubAt pc
    let s := setHmc h { x with scrubAt := kSet x.scrubAt pc ((k + 1) % pcLines) } s
    let s := bump2 (Reg.HMC_READS h) (Reg.HMC_SNAP_READS h) 1 s
    (eccRead (hmcEcc h) (h * stopBytes + offsetOf pc (64 * k)) 64 s).1

def execHbmScrub (stop pc : Nat) (s : State) : Host.Outcome State Fault Refusal := .next (hbmScrubX stop pc s)

/-- The temperature of a stack is read into both of its stops; HOT is its level above 85 °C (R242, R245). -/
def hbmTempX (k t : Nat) (s : State) : State :=
  [2 * k, 2 * k + 1].foldl (fun s h =>
    level (Reg.HMC_PAGE h) 2 (85 < t) (setHmc h { hmcOf s h with temp := min t 255 } s)) s

def execHbmTempRead (stack temp : Nat) (s : State) : Host.Outcome State Fault Refusal := .next (hbmTempX stack temp s)

/-- A stack is identified and trained, or fails training (R245); the failure is one contained error (R361), reported first
in the page of the stack's lower controller stop. -/
def hbmTrainingX (k : Nat) (ok : Bool) (ident : Nat) (s : State) : State :=
  if s.dev.mode ≠ .bringup then s else
  let s := rSet Reg.MGT_BOOT_HBM (bootUs s) s
  let s := [2 * k, 2 * k + 1].foldl (fun s h =>
    let s := rSet (Reg.HMC_IDENT_HI h) (ident / 2 ^ 32) (rSet (Reg.HMC_IDENT_LO h) ident s)
    let s := setHmc h { hmcOf s h with trained := ok, failed := !ok } s
    if ok then s else level (Reg.HMC_PAGE h) 3 true (recErr (Reg.HMC_PAGE h) 2 0 s)) s
  if ok then s else contained (Reg.HMC_PAGE (2 * k)) s

def execHbmTraining (stack : Nat) (ok : Bool) (ident : Nat) (s : State) : Host.Outcome State Fault Refusal :=
  .next (hbmTrainingX stack ok ident s)

/-- A write of HMC_1500_CMD or HMC_1500_DATA acts in BRINGUP and DIAGNOSE only (R245). -/
def port1500 (s : State) : Bool := s.dev.mode = .bringup || s.dev.mode = .diagnose

def ieee1500Eff (h : Nat) (v : W32) (s : State) : State :=
  if port1500 s then emit (.ieee1500 (h / 2) (fld v.toNat 7 0) (BitVec.ofNat 32 (rGet s (Reg.HMC_1500_DATA h)))) s
  else recErr (Reg.HMC_PAGE h) 3 0 s

/-- A write of the IEEE 1500 registers: R245 gives the host the port in BRINGUP, where R332 ignores other pages. -/
def accept1500 (w : Writer) (a : Nat) (eff : State → State) (s : State) : State :=
  if s.dev.mode = .bringup && !dead s && w.enables = 15 && reaches s w.path w.fn a then eff (recordWrite w (pageBase a) s) else acceptWrite w a eff s

def execIeee1500Command (w : Writer) (stop : Nat) (v : W32) (s : State) : Host.Outcome State Fault Refusal :=
  .next (accept1500 w (Reg.HMC_1500_CMD stop) (ieee1500Eff stop v) s)

/-! ### The capacity tier (R247, R248) -/

/-- A read or write that reaches a capacity-tier port, within one line. -/
def cxtAccess (write : Bool) (a : Nat) (bs : List Byte) (n : Nat) (s : State) : State :=
  match regionOf s a with
  | .cap _ _ =>
    let (s, st) := lineAccess write a n s
    let s := if write && st = stOK then setBytes a bs s else s
    emit (.memData (if write || st ≠ stOK then [] else memBytes s a n) st) s
  | _ => emit (.memData [] stUncorrectable) s

/-- The physical address of an offset in a port's half. -/
def capAddr (p o : Nat) : Nat := 0x010000000000 + p * 2 ^ 39 + o

def execCxtRead (port addr len : Nat) (s : State) : Host.Outcome State Fault Refusal :=
  .next (cxtAccess false (capAddr port addr) [] len s)

def execCxtWrite (port addr : Nat) (data : List Byte) (s : State) : Host.Outcome State Fault Refusal :=
  .next (cxtAccess true (capAddr port addr) data data.length s)

/-- A scrub of the next 64 KiB of the usable range, line after line through the check-line cache (R247, Table 11.7). -/
def cxtScrubX (p : Nat) (s : State) : State :=
  let x := cxtOf s p
  let n := capBytes s p / 65536
  if !rBit s (Reg.CXT_CTRL p) 0 || !x.linkUp || n = 0 then s
  else
    forN 1024 (setCxt p { x with scrubAt := (x.scrubAt + 1) % n } s) fun k s =>
      (lineAccess false (capAddr p (65536 * (x.scrubAt % n) + 64 * k)) 64 s).1

def execCxtScrub (port : Nat) (s : State) : Host.Outcome State Fault Refusal := .next (cxtScrubX port s)

/-- A port's link goes down (R248). -/
def cxtLinkDownX (p : Nat) (s : State) : State :=
  let x := cxtOf s p
  if !x.linkUp then s else
  let pg := Reg.CXT_PAGE p
  contained pg (level pg 2 true (recErr pg 3 0 (setCxt p { x with linkUp := false, width := 0, speed := 0 } s)))

def execCxtLinkDown (port : Nat) (s : State) : Host.Outcome State Fault Refusal := .next (cxtLinkDownX port s)

/-- Whether a link of port C or D can train: to a directly attached memory device alone, out of reset, at up to x8 and 2.5 to
64 GT/s, for the first time in BRINGUP (R338). -/
def cxtTrains (s : State) (p width speed : Nat) : Bool :=
  (if p = 0 then s.dev.devC else s.dev.devD) = .memory && !(cxtOf s p).rstHeld && 1 ≤ width && width ≤ 8 && 1 ≤ speed && speed ≤ 6
    && ((cxtOf s p).present || s.dev.mode = .bringup)

/-- A port's link comes up at a width and speed (R248, R338). -/
def cxtLinkUpX (p width speed : Nat) (s : State) : State :=
  if !cxtTrains s p width speed then s
  else
    level (Reg.CXT_PAGE p) 2 false
      (setCxt p { cxtOf s p with linkUp := true, width := width, speed := speed, present := true } s)

def execCxtLinkUp (port width speed : Nat) (s : State) : Host.Outcome State Fault Refusal :=
  .next (cxtLinkUpX port width speed s)

/-! ### Invalidation (R256) -/

/-- Drops the TLB entries of an invalidation. -/
def invalDrop (q : Nat × Nat × Nat) (s : State) : State :=
  tlbDropAll (fun e => q.1 = 0 || (e.inst = q.2.1 && (q.1 = 1 || e.slot = q.2.2))) s

/-- A write of XL_INVAL: it runs at once, or waits behind the one in progress. -/
def invalEff (v : W32) (s : State) : State :=
  let q := (fld v.toNat 24 23, fld v.toNat 10 0, fld v.toNat 22 11)
  if q.1 = 3 then s else
  let first := s.xl.inval.isEmpty
  let s := { s with xl := { s.xl with inval := s.xl.inval ++ [q] } }
  if first then invalDrop q s else s

def execInvalidateAll (w : Writer) (v : W32) (s : State) : Host.Outcome State Fault Refusal :=
  .next (acceptWrite w Reg.XL_INVAL (invalEff v) s)

def execInvalidateInstance (w : Writer) (v : W32) (s : State) : Host.Outcome State Fault Refusal :=
  .next (acceptWrite w Reg.XL_INVAL (invalEff v) s)

def execInvalidateSlot (w : Writer) (v : W32) (s : State) : Host.Outcome State Fault Refusal :=
  .next (acceptWrite w Reg.XL_INVAL (invalEff v) s)

/-- Whether an invalidation's entries cover an instance's address. -/
def invalHits (q : Nat × Nat × Nat) (i slot : Nat) : Bool := q.1 = 0 || (i = q.2.1 && (q.1 = 1 || slot = q.2.2))

/-- Whether a Bulk Mover channel has a burst's read or a beat under way that an invalidation hits; of a channel that sinks
its responses only the owner is still known. -/
def moverOwes (s : State) (q : Nat × Nat × Nat) (c : Nat) (x : Chan) : Bool :=
  let hits := fun (a : Nat) => invalHits q (bmOwner s c) (a / 2 ^ 36)
  match x.desc with
  | some d =>
    (!d.dhost && x.beats.any fun b => hits b.addr)
      || (!d.shost && x.bursts.any fun b => hits (if d.squeue then x.sData + (x.rdBase + b.pos) % 2 ^ x.sLog else d.src + b.pos))
  | none => x.sink ≠ 0 && (q.1 = 0 || bmOwner s c = q.2.1)

/-- Whether an access already translated through the entries of an invalidation is not yet acknowledged: a Pocket's
outstanding fill, a store in its buffer, or a Bulk Mover burst (R256). -/
def invalOwed (s : State) (q : Nat × Nat × Nat) : Bool :=
  (s.pkt.any fun p =>
    (p.2.fill.any fun f => invalHits q ((pktInit s p.1).inst) (f.va / 2 ^ 36))
      || p.2.stores.any fun e => invalHits q ((pktInit s p.1).inst) e.slot)
    || s.bm.chans.any fun p => moverOwes s q p.1 p.2

/-- The running invalidation is done, once the accesses through its entries are acknowledged; the next one that waits
runs. -/
def invalDoneX (s : State) : State :=
  if (s.xl.inval.head?.any (invalOwed s)) then s else
  let r := s.xl.inval.drop 1
  let s := { s with xl := { s.xl with inval := r } }
  match r with
  | q :: _ => invalDrop q s
  | [] => s

def execInvalidationDone (s : State) : Host.Outcome State Fault Refusal := .next (invalDoneX s)

/-! ### Promotion and demotion (R258, R259) -/

/-- A request joins the queue, or is absorbed. -/
def promoPush (q : PromoReq) (s : State) : State :=
  let same := fun (r : PromoReq) => r.inst = q.inst && r.slot = q.slot
  if s.xl.queue.any same || s.xl.active.any (fun r => same r.req) || 64 ≤ s.xl.queue.length then bump Reg.XL_PROMO_IGNORED 1 s
  else { s with xl := { s.xl with queue := s.xl.queue ++ [q] } }

/-- A write of XL_PROMO_REQ. -/
def promoEff (v : W32) (s : State) : State :=
  let op := fld v.toNat 24 23
  if op = 1 || op = 2 then promoPush ⟨fld v.toNat 10 0, fld v.toNat 22 11, op = 1⟩ s else s

def execPromote (w : Writer) (v : W32) (s : State) : Host.Outcome State Fault Refusal :=
  .next (acceptWrite w Reg.XL_PROMO_REQ (promoEff v) s)

def execDemote (w : Writer) (v : W32) (s : State) : Host.Outcome State Fault Refusal :=
  .next (acceptWrite w Reg.XL_PROMO_REQ (promoEff v) s)

/-- A pool's base, number of chunks and bytes of one. -/
def poolBase (s : State) (p : Nat) : Nat := rGet s (Reg.XL_POOL_BASE_LO p) + 2 ^ 32 * rFld s (Reg.XL_POOL_BASE_HI p) 15 0
def poolChunks (s : State) (p : Nat) : Nat := rFld s (Reg.XL_POOL_CFG p) 10 0
def poolChunk (s : State) (p : Nat) : Nat := 65536 * 2 ^ rFld s (Reg.XL_POOL_CFG p) 19 16

/-- Chunks taken of a pool. -/
def poolTaken (s : State) (p : Nat) : List Nat := kGet [] s.xl.taken p
def setTaken (p : Nat) (l : List Nat) (s : State) : State := { s with xl := { s.xl with taken := kPut [] s.xl.taken p l } }
def freeChunk (p c : Nat) (s : State) : State := setTaken p ((poolTaken s p).filter (· != c)) s

/-- Swaps word 0 of a descriptor from the value read; whether the swap succeeded. -/
def swapWord0 (a old new : Nat) (s : State) : State × Bool :=
  let (s, st, ok) := memSwap promoInit a 4 old new s
  (s, st = stOK && ok)

/-- A promotion fails: PF is set by compare-and-swap (R259). -/
def promoFail (a w0 : Nat) (s : State) : State :=
  match swapWord0 a w0 (setFld w0 14 14 1) s with
  | (s, true) => pulse Reg.XL_PAGE 1 (bump Reg.XL_PROMO_FAIL 1 s)
  | (s, false) => s

/-- The engine starts the first queued request while fewer than 8 run. -/
def promoStartX (s : State) : State :=
  match s.xl.queue with
  | [] => s
  | q :: r =>
    if 8 ≤ s.xl.active.length || !working s then s else
    let s := { s with xl := { s.xl with queue := r } }
    let a := walkAddr s q.inst q.slot
    let (s, st, bs) := meshRead promoInit a 32 s
    if st ≠ stOK then s else
    let d := descOf bs
    let w0 := numAt bs 0 4
    if q.promote then
      if d.v || !d.p || d.pf then s
      else
        let free := (List.range (poolChunks s d.pool)).find? fun c => !(poolTaken s d.pool).contains c
        let home := d.home * 65536
        match free with
        | none => promoFail a w0 s
        | some c =>
          if d.len = 0 || poolChunk s d.pool < d.len * 65536 || !inCap s home (d.len * 65536)
              || !cuffCovers s q.inst home (d.len * 65536) then promoFail a w0 s
          else
            let s := setTaken d.pool (c :: poolTaken s d.pool) s
            { s with xl := { s.xl with active := s.xl.active ++ [⟨q, a, w0, d.pool, c, d.home, d.len⟩] } }
    else
      let off := d.base * 65536 - poolBase s d.pool
      let c := off / poolChunk s d.pool
      if !d.v || d.p || d.base * 65536 < poolBase s d.pool || off % poolChunk s d.pool ≠ 0 || poolChunks s d.pool ≤ c then s
      else
        let w1 := setFld (setFld w0 0 0 0) 9 9 1
        match swapWord0 a w0 w1 s with
        | (s, false) => s
        | (s, true) =>
          let s := invalDrop (2, q.inst, q.slot) s
          { s with xl := { s.xl with active := s.xl.active ++ [⟨q, a, w1, d.pool, c, d.home, d.len⟩] } }

def execPromotionStart (s : State) : Host.Outcome State Fault Refusal := .next (promoStartX s)

/-- Copies a physical range. -/
def physCopy (src dst n : Nat) (s : State) : State × Nat :=
  let (s, st, bs) := meshRead promoInit src n s
  if st ≠ stOK then (s, st) else meshWrite promoInit dst bs s

/-- A running request's copy finishes. BASE is written only where the descriptor still stands as the swap needs it, so a
swap that would fail leaves it as its other writer left it (R259). -/
def promoDoneX (k : Nat) (s : State) : State :=
  match s.xl.active[k]? with
  | none => s
  | some r =>
    let s := { s with xl := { s.xl with active := s.xl.active.eraseIdx k } }
    let chunk := poolBase s r.pool + r.chunk * poolChunk s r.pool
    if r.req.promote then
      let (s, st) := physCopy (r.home * 65536) chunk (r.len * 65536) s
      if st ≠ stOK then promoFail r.daddr r.word0 (freeChunk r.pool r.chunk s)
      else if ofBytes (memBytes s r.daddr 4) ≠ r.word0 then freeChunk r.pool r.chunk s
      else
        let (s, st) := meshWrite promoInit (r.daddr + 0x10) (toBytes 4 (chunk / 65536)) s
        if st ≠ stOK then freeChunk r.pool r.chunk s else
        match swapWord0 r.daddr r.word0 (setFld (setFld r.word0 0 0 1) 9 9 0) s with
        | (s, true) => bump Reg.XL_PROMOTIONS 1 s
        | (s, false) => freeChunk r.pool r.chunk s
    else
      let s := if bit r.word0 8 then (physCopy chunk (r.home * 65536) (r.len * 65536) s).1 else s
      let s := (swapWord0 r.daddr r.word0 (setFld r.word0 8 7 0) (freeChunk r.pool r.chunk s)).1
      bump Reg.XL_DEMOTIONS 1 s

def execPromotionCopyDone (idx : Nat) (s : State) : Host.Outcome State Fault Refusal := .next (promoDoneX idx s)

/-- A write of XL_RT_SEL: ignored while staged fields are pending (R261). The base registers then show the selected
instance's committed base. -/
def rtSelEff (v : W32) (s : State) : State :=
  if stagePending s Reg.XL_PAGE then recErr Reg.XL_PAGE 1 0 s
  else
    let i := fld v.toNat 10 0
    let b := kGet 0 s.xl.rtBase i
    rSet Reg.XL_RT_BASE_HI (b / 2 ^ 32) (rSet Reg.XL_RT_BASE_LO b (rSet Reg.XL_RT_SEL i s))

def execXlRtSelWrite (w : Writer) (v : W32) (s : State) : Host.Outcome State Fault Refusal :=
  .next (acceptWrite w Reg.XL_RT_SEL (rtSelEff v) s)

end Sys2Proof.Machine
end

