-- ==== Sys2Proof/Machine/PktSystem.lean ====
section
/-! DEFINITION. The Pocket's system instructions, its waits, its long-vector gate, and debug (R169, R174 to R178, R186,
R187, R195, R256, R260). -/

namespace Sys2Proof.Machine

/-! ### Submitting a command block (R186) -/

/-- The memory that a submitted block may lie in: the Pocket's own scratchpad or its Panel's memory. -/
def blockSpace (s : State) (p a : Nat) : Bool :=
  match regionOf s a with
  | .scratch q _ => q = p
  | .panel n _ => n = p / 16
  | _ => false

/-- The Scan Front that SF_SEL names, or among a stop's eight the one that holds the fewest commands (R107). -/
def scanTarget (s : State) (sel : Nat) : Nat :=
  if sel < 64 then sel
  else
    let h := (sel - 64) % 8
    (firstBy (fun a b => scanDepth s a < scanDepth s b || (scanDepth s a = scanDepth s b && a < b))
      ((List.range 8).map fun i => 8 * h + i)).getD (8 * h)

/-- The Panel whose operator unit takes a block: the PANEL field of the Partition Unit's FLUSH and RELEASE, else the
Pocket's own (R125, R144). -/
def operPanel (p u : Nat) (bs : List Byte) : Nat :=
  let w := numAt bs 0 4
  if u = 1 && (fld w 3 0 = 2 || fld w 3 0 = 3) then fld w 21 17 else p / 16

/-- The block whose unit a selector names. -/
def unitBlock (s : State) (p sel : Nat) (bs : List Byte) : Block :=
  match sel with
  | 1 => .panel (p / 16)
  | 2 => .panel (p / 16)
  | 3 => .hmc (scanTarget s (fld (numAt bs 0 4) 22 16) / 8)
  | _ => .panel (operPanel p (sel - 4) bs)

/-- Whether the unit that a selector names has room. -/
def unitRoom (s : State) (p sel : Nat) (bs : List Byte) : Bool :=
  match sel with
  | 1 => (packOf s (2 * (p / 16))).queue.length < 8
  | 2 => (packOf s (2 * (p / 16) + 1)).queue.length < 8
  | 3 => scanDepth s (scanTarget s (fld (numAt bs 0 4) 22 16)) < 8
  | 4 => operDepth s 0 (operPanel p 0 bs) < 8
  | 5 => operDepth s 1 (operPanel p 1 bs) < 8
  | _ => operDepth s 2 (operPanel p 2 bs) < 8

/-- Gives a copied block to its unit. -/
def unitTake (p sel : Nat) (c : UnitCmd) (s : State) : State :=
  let pack := fun u => setPack u { packOf s u with queue := (packOf s u).queue ++ [c] } s
  let oper := fun u => setOper u (operPanel p u c.bytes)
    { operOf s u (operPanel p u c.bytes) with queue := (operOf s u (operPanel p u c.bytes)).queue ++ [c] } s
  match sel with
  | 1 => pack (2 * (p / 16))
  | 2 => pack (2 * (p / 16) + 1)
  | 3 =>
    let n := scanTarget s (fld (numAt c.bytes 0 4) 22 16)
    setScan n { scanOf s n with queue := (scanOf s n).queue ++ [c] } s
  | 4 => oper 0
  | 5 => oper 1
  | _ => oper 2

/-- Submits the block at a physical address, as FENCE first: word 0x38 is zeroed and the unit copies the block, which
reaches another block's unit as a message (R107, R263); a full unit stalls the Pocket. A copy that meets a persistent parity
error is the unit's failure, not the Pocket's (R185). -/
def submit (p sel va a : Nat) (s : State) : State :=
  let s := drainStores p s
  let x := pktOf s p
  match x.task with
  | none => s
  | some n =>
    let t := taskOf s n
    if !unitRoom s p sel (memBytes s a 64) then haltCheck p (setPkt p { x with wait := .unit a sel } s) else
    let (s, st) := physWrite (a + 0x38) [0, 0, 0, 0] s
    if st ≠ stOK then pFault p (causeOf st) va rwAcc s else
    let (s, st, bs) := physRead a 64 s
    let s := meshMessage (pktInit s p) false (unitBlock s p sel bs) 64 s
    pDone p (unitTake p sel ⟨a, bs, n, p, t.inst, t.job, t.serial, t.cls, t.stage, t.morsel, kFind x.regions 6, kFind x.regions 7,
      false, st⟩ s)

def unitX (p : Nat) (word : W32) (s : State) : State :=
  let sel := wArg word % 16
  let va := gGet s p (wA word)
  if sel = 0 || 6 < sel then pTrap p causeIllegal 0 s else
  aligned p va 64 s fun s =>
    let (s, q) := pTranslate p va true true false s
    if q.cause ≠ 0 then pFault p q.cause va rwAcc s
    else if !blockSpace s p q.pa then pFault p causeSpace va rwAcc s
    else submit p sel va q.pa s

def execUnit (p : Nat) (word : W32) (s : State) : Host.Outcome State Fault Refusal := .next (perform .unit unitX p word s)

/-- A stalled UNIT is taken once its unit has a place. -/
def unitStallEndX (p : Nat) (s : State) : State :=
  let x := pktOf s p
  match x.wait with
  | .unit a sel =>
    if !working s || x.halted || (x.cut && x.ie) || !unitRoom s p sel (memBytes s a 64) then s
    else submit p sel 0 a (setPkt p { x with wait := .none } s)
  | _ => s

def execUnitStallEnd (p : Nat) (s : State) : Host.Outcome State Fault Refusal := .next (unitStallEndX p s)

/-! ### The Match Array (R187) -/

/-- Reads the pieces of a request: the bytes, or the piece that fails with its cause. -/
def matchRead (p : Nat) (qs : List (Nat × Nat)) (s : State) : State × List Byte × Option (Nat × Nat) :=
  qs.foldl (fun (r : State × List Byte × Option (Nat × Nat)) q =>
    if r.2.2.isSome then r else
    let (s, pl) := pTranslate p q.1 true false false r.1
    if pl.cause ≠ 0 then (s, r.2.1, some (q.1, pl.cause)) else
    match pRead p pl q.2 true s with
    | (s, .ok bs) => (s, r.2.1 ++ bs, none)
    | (s, .fault c) => (s, r.2.1, some (q.1, c))
    | (s, .miss _) => (s, r.2.1, none)) (s, ([], none))

def matchX (p : Nat) (word : W32) (s : State) : State :=
  let va := gGet s p (wA word)
  aligned p va 16 s fun s =>
    match (pktOf s p).task with
    | none => s
    | some n =>
      let (s, bs, e) := matchRead p (laneSplit va 48) s
      match e with
      | some (a, c) => pFault p c a rdAcc s
      | none =>
        let t := taskOf s n
        let s := meshMessage (pktInit s p) false .matchArray 48 (setPkt p { pktOf s p with wait := .resp (wD word) } s)
        maArrive ⟨p, t.inst, t.cls, s.now, bs, none⟩ s

def execMatchReq (p : Nat) (word : W32) (s : State) : Host.Outcome State Fault Refusal :=
  .next (perform .matchReq matchX p word s)

/-- The response arrives: it is written into v[D], or a failing status traps. -/
def matchResponseX (p : Nat) (s : State) : State :=
  let x := pktOf s p
  match x.wait, kFind s.ma.resp p with
  | .resp d, some bs =>
    if !working s then s else
    let s := setPkt p { x with wait := .none } { s with ma := { s.ma with resp := kDel s.ma.resp p } }
    let st := numAt bs 0 1
    if st = stOK then pDone p (vSet p d (setFld (vGet s p d) 127 0 (ofBytes bs)) s)
    else pTrap p causeMatch 0 (setPkt p { pktOf s p with matchSt := st } s)
  | _, _ => s

def execMatchResponse (p : Nat) (s : State) : Host.Outcome State Fault Refusal := .next (matchResponseX p s)

/-! ### WAITD -/

/-- Reads the watched word around the L1: the state, and the word or the fault's cause. -/
def watchWord (p va : Nat) (s : State) : State × Nat × Nat :=
  let (s, bs, c) := (laneSplit va 4).foldl (fun (r : State × List Byte × Nat) q =>
    if r.2.2 ≠ 0 then r else
    let (s, pl) := pTranslate p q.1 true false false r.1
    if pl.cause ≠ 0 then (s, r.2.1, pl.cause) else
    let (s, st, b) := meshRead (pktInit s p) pl.pa q.2 (drainFor p (pl.pa / 64) s)
    (s, r.2.1 ++ b, causeOf st)) (s, ([], 0))
  (s, c, ofBytes bs)

def waitdX (p : Nat) (word : W32) (s : State) : State :=
  let va := (gGet s p (wA word) + wArg word) % 2 ^ 64
  let (s, c, w) := watchWord p va s
  if c ≠ 0 then pFault p c va rdAcc s
  else if bit w 31 then pDone p s
  else haltCheck p (setPkt p { pktOf s p with wait := .watch va } s)

def execWaitd (p : Nat) (word : W32) (s : State) : Host.Outcome State Fault Refusal := .next (perform .waitd waitdX p word s)

/-- WAITD ends once bit 31 of the watched word is seen set. -/
def waitdEndX (p : Nat) (s : State) : State :=
  let x := pktOf s p
  match x.wait with
  | .watch va =>
    if !working s || x.halted || (x.cut && x.ie) then s else
    let (s, c, w) := watchWord p va s
    if c ≠ 0 then pFault p c va rdAcc (setPkt p { pktOf s p with wait := .none } s)
    else if bit w 31 then pDone p s else s
  | _ => s

def execWaitdEnd (p : Nat) (s : State) : Host.Outcome State Fault Refusal := .next (waitdEndX p s)

/-! ### Calls, returns and control registers -/

/-- A pending cut interrupt is taken with IE set at an instruction boundary, once every earlier instruction has finished:
the Pocket traps with CUT and the record is SAVING (R25, R175, R176). WAITD and a stalled UNIT are boundaries; a wait for a
Match response and an instruction that waits for a fill are not. A halted Pocket takes none. -/
def cutTrapX (p : Nat) (s : State) : State :=
  let x := pktOf s p
  let boundary := match x.wait with
    | .resp _ => false
    | .fill _ => false
    | _ => true
  if !working s || !x.cut || !x.ie || x.halted || !boundary then s else
  match x.task with
  | none => s
  | some n =>
    let (s, trapped) := settleFill p s
    let y := pktOf s p
    if trapped || y.task.isNone then s else
    let s := trap p causeCut y.pc 0 (setPkt p { y with cut := false, wait := .none } s)
    if x.nest then s else
    bumpFrame (Reg.SCHED_SNAP_CUT (n / 2048)) 1 (setTask n { taskOf s n with state := .saving } s)

def execCutTrap (pocket : Nat) (s : State) : Host.Outcome State Fault Refusal := .next (cutTrapX pocket s)

/-- CALL: EPC is the next instruction's PC (R175, R178). -/
def callX (p : Nat) (word : W32) (s : State) : State :=
  let x := pktOf s p
  let s := bump2 (Reg.PKT_INSTR p) (Reg.PKT_SNAP_INSTR p) 1 s
  haltCheck p (trap p causeCall ((x.pc + 4) % 2 ^ 48) 0 (setPkt p { x with callArg := wArg word } s))

def execCall (p : Nat) (word : W32) (s : State) : Host.Outcome State Fault Refusal := .next (perform .call callX p word s)

def rdcrX (p : Nat) (word : W32) (s : State) : State :=
  let n := wArg word
  if !crListed n then pTrap p causeIllegal 0 s
  else if !(pktOf s p).priv && !crUser n then pTrap p causePrivileged 0 s
  else pDone p (gSet p (wD word) (crGet s p n) s)

def execRdcr (p : Nat) (word : W32) (s : State) : Host.Outcome State Fault Refusal := .next (perform .rdcr rdcrX p word s)

def wrcrX (p : Nat) (word : W32) (s : State) : State :=
  if !crListed (wArg word) then pTrap p causeIllegal 0 s
  else superOnly p s fun s => pDone p (crSet p (wArg word) (gGet s p (wA word)) s)

def execWrcr (p : Nat) (word : W32) (s : State) : Host.Outcome State Fault Refusal := .next (perform .wrcr wrcrX p word s)

/-- The return of R175: PRIV from PPRIV, EPC, NEST clear, and IE set when user mode is entered. -/
def trapReturn (p : Nat) (s : State) : State :=
  let x := pktOf s p
  setPkt p { x with priv := x.ppriv, nest := false, ie := x.ie || !x.ppriv, pc := x.epc % 2 ^ 48 / 4 * 4, asked := false,
                    wait := .none, filled := [] } s

def retX (p : Nat) (s : State) : State :=
  superOnly p s fun s =>
    let x := pktOf s p
    if x.bare && !x.ppriv then pTrap p causeGuard 0 s
    else haltCheck p (trapReturn p (bump2 (Reg.PKT_INSTR p) (Reg.PKT_SNAP_INSTR p) 1 s))

def execRet (p : Nat) (word : W32) (s : State) : Host.Outcome State Fault Refusal :=
  .next (perform .ret (fun p _ s => retX p s) p word s)

/-! ### The end report (R69, R178, Table 8.6) -/

/-- Whether a status is in the completion status table (Table 10.9). -/
def knownStatus (st : Nat) : Bool :=
  [stOK, stPartial, stAborted, stDeadline, stShort, stDescInvalid, stLength, stPattern, stFragment, stQuota, stXlate, stWalk,
   stWalkDevice, stGuard, stParity, stUncorrectable, stCodec, stLateBeat, stArith, stVectorFault, stInstReset, stDomain,
   stLockdown, stBusy, stLedgerFull, stLedgerRange, stLedgerSealed, stDigestCleared, stKeyDenied, stDigestEarly].contains st

/-- The status the firmware reports for the trap it handles; `own` is the status its REPORT carries. -/
def reportStatus (x : Pocket) (own : Nat) : Nat :=
  let listed := if knownStatus own then own else stPattern
  if x.cause = causeCall then (if x.callArg = 0 then listed else stGuard)
  else if x.cause = causeIllegal then stPattern
  else if x.cause = causePrivileged || x.cause = causeGuard then stGuard
  else if x.cause = causeAlign || x.cause = causeSpace then stDescInvalid
  else if x.cause = causeXlate then stXlate
  else if x.cause = causeWalk then stWalk
  else if x.cause = causeWalkDevice then stWalkDevice
  else if x.cause = causeParity then stParity
  else if x.cause = causeUncorr then stUncorrectable
  else if x.cause = causeOffline then stDomain
  else if x.cause = causeMatch then x.matchSt
  else if x.cause = causeOverflow then stArith
  else if x.cause = causeVector then stVectorFault
  else listed

/-- REPORT: status A[7:0], ROWS g[D], BYTES g[D + 1]; D outside 1 to 30 is no encoding. -/
def reportX (p : Nat) (word : W32) (s : State) : State :=
  superOnly p s fun s =>
    let d := wD word
    let x := pktOf s p
    if d = 0 || d = 31 then pTrap p causeIllegal 0 s
    else match x.task with
      | none => s
      | some n =>
        let st := reportStatus x (gGet s p (wA word) % 256)
        endTask p n st (gGet s p d) (gGet s p (d + 1)) (bump2 (Reg.PKT_INSTR p) (Reg.PKT_SNAP_INSTR p) 1 s)

def execReport (p : Nat) (word : W32) (s : State) : Host.Outcome State Fault Refusal :=
  .next (perform .report reportX p word s)

/-! ### Region registers and TLBs (R177, R256) -/

/-- RGLD: region register ARG[2:0] from the descriptor at physical address A, with slot D[11:0]; A of 0 invalidates it. -/
def rgldX (p : Nat) (word : W32) (s : State) : State :=
  superOnly p s fun s =>
    let k := wArg word % 8
    let a := gGet s p (wA word)
    if a = 0 then pDone p (setPkt p { pktOf s p with regions := kDel (pktOf s p).regions k } s)
    else if 2 ^ 48 ≤ a then pTrap p causeUncorr a s
    else
      let (s, st, bs) := meshRead (pktInit s p) a 32 (drainStores p s)
      if st ≠ stOK then pTrap p (causeOf st) a s else
      let d := descOf bs
      let e : RegionReg :=
        { slot := gGet s p (wD word) % 4096, inst := if d.u then some (pktInst s p) else none, desc := d }
      pDone p (setPkt p { pktOf s p with regions := kSet (pktOf s p).regions k e } s)

def execRgld (p : Nat) (word : W32) (s : State) : Host.Outcome State Fault Refusal := .next (perform .rgld rgldX p word s)

/-- TLBI drops matching entries of the Pocket's own TLB. -/
def tlbi (p : Nat) (f : TlbEntry → Bool) (s : State) : State := superOnly p s fun s => pDone p (tlbDrop p f s)

/-- TLBI with ARG 0 also invalidates the instruction cache (R173). -/
def tlbiAllX (p : Nat) (s : State) : State :=
  superOnly p s fun s => pDone p (setPkt p { pktOf s p with icache := [] } (tlbDrop p (fun _ => true) s))

def execTlbiAll (p : Nat) (word : W32) (s : State) : Host.Outcome State Fault Refusal :=
  .next (perform .tlbiAll (fun p _ s => tlbiAllX p s) p word s)

def execTlbiSlot (p : Nat) (word : W32) (s : State) : Host.Outcome State Fault Refusal :=
  .next (perform .tlbiSlot (fun p word s => tlbi p (fun e => e.slot = gGet s p (wA word) % 4096) s) p word s)

def execTlbiInstance (p : Nat) (word : W32) (s : State) : Host.Outcome State Fault Refusal :=
  .next (perform .tlbiInstance (fun p word s => tlbi p (fun e => e.inst = gGet s p (wA word) % 2048) s) p word s)

/-! ### Promotion polls (R260) -/

/-- The firmware drops the slot's entry and returns. -/
def promoReturn (p slot i : Nat) (s : State) : State :=
  haltCheck p (trapReturn p (tlbDrop p (fun e => e.inst = i && e.slot = slot) s))

/-- On an XLATE or VECTOR trap the firmware reads the descriptor of the slot again: it returns where that is now valid, asks
once for a promotion where the region is parked and goes on reading, and ends the task in every other case. -/
def promotePollX (p : Nat) (s : State) : State :=
  let x := pktOf s p
  if !working s || x.halted || !x.priv || x.ppriv || !(x.cause = causeXlate || x.cause = causeVector) then s else
  match x.task with
  | none => s
  | some n =>
    let i := (taskOf s n).inst
    let slot := x.taddr / 2 ^ 36
    let a := walkAddr s i slot
    let fails := fun s => endTask p n (if x.cause = causeXlate then stXlate else stVectorFault) 0 0 s
    if 4096 ≤ slot then fails s else
    let (s, st, bs) := meshRead (pktInit s p) a 32 s
    let d := descOf bs
    if st ≠ stOK then fails s
    else if x.asked then
      if d.v then promoReturn p slot i s else if d.pf then fails s else s
    else if descValid s i d then promoReturn p slot i s
    else if !d.v && d.p && !d.pf then
      setPkt p { pktOf s p with asked := true } (promoPush ⟨i, slot, true⟩ s)
    else fails s

def execPromotePoll (p : Nat) (s : State) : Host.Outcome State Fault Refusal := .next (promotePollX p s)

/-! ### The long-vector gate (R195) -/

/-- Pocket cycles before gating: 1 to 63 act as 64, and 0 never gates. -/
def lvIdle (s : State) (p : Nat) : Nat := max 64 (rFld s (Reg.PKT_LV_IDLE p) 15 0)

def lvGateX (p : Nat) (s : State) : State :=
  let x := pktOf s p
  if x.lvGated || rFld s (Reg.PKT_LV_IDLE p) 15 0 = 0 || s.cyc16 < x.lvAt + 16 * lvIdle s p then s
  else setPkt p { x with lvGated := true } s

def execLvGate (p : Nat) (s : State) : Host.Outcome State Fault Refusal := .next (lvGateX p s)

/-! ### Halt and debug (R176, Table 8.10) -/

/-- A write of PKT_CTRL. -/
def pktCtrlEff (p : Nat) (v : W32) (s : State) : State :=
  let s := rwBits (Reg.PKT_CTRL p) v.toNat s
  if bit v.toNat 0 then haltCheck p s else haltLevel p (setPkt p { pktOf s p with halted := false } s)

def execPktHalt (w : Writer) (p : Nat) (v : W32) (s : State) : Host.Outcome State Fault Refusal :=
  .next (acceptWrite w (Reg.PKT_CTRL p) (pktCtrlEff p v) s)

/-- A write of PKT_DBG_DATA_LO acts only while HALTED. -/
def dbgLoEff (p : Nat) (v : W32) (s : State) : State :=
  if (pktOf s p).halted then setPkt p { pktOf s p with dbgLo := v.toNat } s else s

/-- A write of PKT_DBG_DATA_HI while HALTED commits the pair as a supervisor write. -/
def dbgHiEff (p : Nat) (v : W32) (s : State) : State :=
  let x := pktOf s p
  let sel := rFld s (Reg.PKT_DBG_SEL p) 6 0
  let d := v.toNat * 2 ^ 32 + x.dbgLo
  if !x.halted then s
  else if sel < 32 then gSet p sel d s
  else if sel < 64 then fSet p (sel - 32) d s
  else crSet p (sel - 64) d s

def execPktDbgDataHiWrite (w : Writer) (p : Nat) (v : W32) (s : State) : Host.Outcome State Fault Refusal :=
  .next (acceptWrite w (Reg.PKT_DBG_DATA_HI p) (dbgHiEff p v) s)

end Sys2Proof.Machine
end

