-- ==== Sys2Proof/Machine/Vector.lean ====
section
/-! DEFINITION. The Pocket's vector instructions (chapter 09). -/

namespace Sys2Proof.Machine

/-! ### Elements and predicates (R189, R190, R192) -/

/-- Element e of width w, and a register with that element replaced. -/
def elemOf (w v e : Nat) : Nat := v / 2 ^ (w * e) % 2 ^ w
def setElem (w v e x : Nat) : Nat := setFld v (w * e + w - 1) (w * e) x

/-- Whether element e of width w is active under a predicate. -/
def predAt (w pr e : Nat) : Bool := bit pr (e * (w / 8))

/-- Whether element e of an instruction is active. -/
def active (s : State) (p : Nat) (word : W32) (e : Nat) : Bool := predAt (vWidth word) (prGet s p (vPg word)) e

/-- The predicate of the elements below n that hold: each element sets its w / 8 bits alike, bits above are 0. -/
def mkPred (w n : Nat) (f : Nat → Bool) : Nat :=
  (List.range n).foldl (fun m e => if f e then m + (2 ^ (w / 8) - 1) * 2 ^ (e * (w / 8)) else m) 0

/-- v[D] with each of n elements of width w given by `f`, inactive ones kept or zeroed. -/
def putElems (z : Bool) (w n d : Nat) (act : Nat → Bool) (f : Nat → Nat) : Nat :=
  (List.range n).foldl (fun v e => if act e then setElem w v e (f e) else if z then setElem w v e 0 else v) d

/-- Elements of an instruction's operands A and B. -/
def elemA (s : State) (p : Nat) (word : W32) (e : Nat) : Nat := elemOf (vWidth word) (vGet s p (vA word)) e
def elemB (s : State) (p : Nat) (word : W32) (e : Nat) : Nat := elemOf (vWidth word) (vGet s p (vB word)) e
def elemD (s : State) (p : Nat) (word : W32) (e : Nat) : Nat := elemOf (vWidth word) (vGet s p (vD word)) e

/-- A long-view instruction wakes the long-vector unit (R195). -/
def viewWake (p : Nat) (word : W32) (s : State) : State := if vLong word then lvWake p s else s

/-- Runs a VEC word of a row. -/
def vecPerform (row : PRow) (f : Nat → W32 → State → State) (p : Nat) (word : W32) (s : State) : State :=
  perform row (fun p word s => f p word (viewWake p word s)) p word s

/-- Writes every element of v[D] by `f`, and completes. -/
def vecMap (p : Nat) (word : W32) (f : Nat → Nat) (s : State) : State :=
  pDone p (vSet p (vD word) (putElems (vZ word) (vWidth word) (vCount word) (vGet s p (vD word)) (active s p word) f) s)

/-- Writes p[D], 0 for every inactive element, and completes. -/
def predMap (p : Nat) (word : W32) (f : Nat → Bool) (s : State) : State :=
  pDone p (prSet p (vD word) (mkPred (vWidth word) (vCount word) fun e => active s p word e && f e) s)

/-! ### Stopping and resuming (R198, R199) -/

/-- The cause of a vector element's access: an invalid or denying descriptor is a VECTOR fault. -/
def vecCause (c : Nat) : Nat := if c = causeXlate then causeVector else c

/-- The elements of run_elements, one after another: `act` does one element and answers a cause and an address. -/
def elemLoop (p : Nat) (word : W32) (regDest : Bool) (acc : Acc) (act : Nat → State → State × Nat × Nat) :
    List Nat → State → State
  | [], s => pDone p (setPkt p { pktOf s p with vxStart := 0 } s)
  | e :: r, s =>
    if !active s p word e then
      elemLoop p word regDest acc act r
        (if vZ word && regDest then vSet p (vD word) (setElem (vWidth word) (vGet s p (vD word)) e 0) s else s)
    else
      match act e s with
      | (s, c, a) =>
        if c ≠ 0 then pFault p c a acc (setPkt p { pktOf s p with vxStart := e, vxAddr := a } s)
        else elemLoop p word regDest acc act r s

/-- run_elements of R198, from VX_START. -/
def runElements (p : Nat) (word : W32) (regDest : Bool) (acc : Acc) (act : Nat → State → State × Nat × Nat) (s : State) : State :=
  elemLoop p word regDest acc act ((List.range (vCount word)).filter ((pktOf s p).vxStart ≤ ·)) s

/-- An element's load of n bytes, aligned to `al`: the cause and the address of the first byte that fails, or the bytes. -/
def elemLoad (p va n al : Nat) (s : State) : State × (Nat × Nat) × List Byte :=
  if va % al ≠ 0 then (s, (causeAlign, va), []) else
  (laneSplit va n).foldl (fun (r : State × (Nat × Nat) × List Byte) q =>
    if r.2.1.1 ≠ 0 then r else
    let (s, pl) := pTranslate p q.1 true false false r.1
    if pl.cause ≠ 0 then (s, (vecCause pl.cause, q.1), []) else
    match pRead p pl q.2 true s with
    | (t, .ok bs) => (t, (0, 0), r.2.2 ++ bs)
    | (t, .fault c) => (t, (vecCause c, q.1 + (if al = 1 && !pl.cached then firstBad s pl.pa q.2 else 0)), [])
    | (t, .miss _) => (t, (0, 0), r.2.2)) (s, (0, 0), [])

/-- An element's store, within one line. -/
def elemStore (p va : Nat) (bs : List Byte) (s : State) : State × Nat :=
  if va % bs.length ≠ 0 then (s, causeAlign) else
  let (s, pl) := pTranslate p va false true false s
  if pl.cause ≠ 0 then (s, vecCause pl.cause) else
  match pWrite p va pl bs true s with
  | (s, .fault c) => (s, vecCause c)
  | (s, _) => (s, 0)

/-! ### Memory instructions (R196, R197) -/

/-- Loads each active element from the address that `addr` gives. -/
def vecLoad (p : Nat) (word : W32) (addr : State → Nat → Nat) (s : State) : State :=
  runElements p word true rdAcc (fun e s =>
    let n := vWidth word / 8
    let va := addr s e % 2 ^ 64
    match elemLoad p va n n s with
    | (s, c, bs) =>
      if c.1 ≠ 0 then (s, c)
      else (vSet p (vD word) (setElem (vWidth word) (vGet s p (vD word)) e (ofBytes bs)) s, 0, 0)) s

/-- Stores each active element of v[D] to the address that `addr` gives. -/
def vecStore (p : Nat) (word : W32) (addr : State → Nat → Nat) (s : State) : State :=
  runElements p word false wrAcc (fun e s =>
    let va := addr s e % 2 ^ 64
    match elemStore p va (toBytes (vWidth word / 8) (elemD s p word e)) s with
    | (s, c) => (s, c, va)) s

/-- Addresses of consecutive, strided and indexed elements. -/
def seqAddr (p : Nat) (word : W32) (s : State) (e : Nat) : Nat := gGet s p (vA word) + e * (vWidth word / 8)
def strideAddr (p : Nat) (word : W32) (s : State) (e : Nat) : Nat :=
  narrow 64 (gGet s p (vA word) + e * signed 64 (gGet s p (vB word)))
/-- Index x_e of a gather or scatter (R197). -/
def indexOf (p : Nat) (word : W32) (s : State) (e : Nat) : Int :=
  if vEw word = 2 then (elemOf 32 (vGet s p (vB word)) e : Nat) else signed 64 (elemOf 64 (vGet s p (vB word)) e)
def indexAddr (p : Nat) (word : W32) (s : State) (e : Nat) : Nat :=
  narrow 64 (gGet s p (vA word) + indexOf p word s e * (vWidth word / 8 : Nat))

def execVld (p : Nat) (word : W32) (s : State) : Host.Outcome State Fault Refusal :=
  .next (vecPerform .vld (fun p word s => vecLoad p word (seqAddr p word) s) p word s)
def execVst (p : Nat) (word : W32) (s : State) : Host.Outcome State Fault Refusal :=
  .next (vecPerform .vst (fun p word s => vecStore p word (seqAddr p word) s) p word s)
def execVlds (p : Nat) (word : W32) (s : State) : Host.Outcome State Fault Refusal :=
  .next (vecPerform .vlds (fun p word s => vecLoad p word (strideAddr p word) s) p word s)
def execVsts (p : Nat) (word : W32) (s : State) : Host.Outcome State Fault Refusal :=
  .next (vecPerform .vsts (fun p word s => vecStore p word (strideAddr p word) s) p word s)
def execVgath (p : Nat) (word : W32) (s : State) : Host.Outcome State Fault Refusal :=
  .next (vecPerform .vgath (fun p word s => vecLoad p word (indexAddr p word) s) p word s)
def execVscat (p : Nat) (word : W32) (s : State) : Host.Outcome State Fault Refusal :=
  .next (vecPerform .vscat (fun p word s => vecStore p word (indexAddr p word) s) p word s)

/-! ### Scatter-add (R206) -/

/-- One element's addition into its record: SCADDT traps on overflow, SCADDS clamps and sets SAT and VSAT. -/
def scatterElem (p : Nat) (word : W32) (saturate : Bool) (e : Nat) (s : State) : State × Nat × Nat :=
  let va := (gGet s p (vA word) + elemOf 32 (vGet s p (vB word)) e * 32) % 2 ^ 64
  if va % 32 ≠ 0 then (s, causeAlign, va) else
  let (s, q) := pTranslate p va true true false s
  if q.cause ≠ 0 then (s, vecCause q.cause, va) else
  let s := drainFor p (q.pa / 64) s
  let s := if q.cached then cleanDropLine p (q.pa / 64) s else s
  let (s, st, rec) := physRead q.pa 32 s
  let s := meshAccess (pktInit s p) 3 q.pa 32 st (List.replicate 16 0) (if st = stOK then rec else []) s
  if st ≠ stOK then (s, vecCause (causeOf st), va) else
  let x := narrow 128 (signed (vWidth word) (elemD s p word e))
  let r := aggAdd rec (toBytes 8 0 ++ toBytes 16 x ++ toBytes 8 1)
  if r.2 && !saturate then (s, causeOverflow, 0)
  else
    let (s, st) := physWrite q.pa r.1 s
    if st ≠ stOK then (s, vecCause (causeOf st), va)
    else (fcsrOr p (if r.2 then fxVsat else 0) s, 0, 0)

def execScaddt (p : Nat) (word : W32) (s : State) : Host.Outcome State Fault Refusal :=
  .next (vecPerform .scaddt (fun p word s => runElements p word false rwAcc (scatterElem p word false) s) p word s)
def execScadds (p : Nat) (word : W32) (s : State) : Host.Outcome State Fault Refusal :=
  .next (vecPerform .scadds (fun p word s => runElements p word false rwAcc (scatterElem p word true) s) p word s)

/-! ### Decode primitives (R208) -/

/-- Slot s0 + e of W bits of the bit string at g[A]. -/
def unpackElem (p : Nat) (word : W32) (w s0 e : Nat) (s : State) : State × Nat × Nat :=
  let lo := (s0 + e) * w
  let va := (gGet s p (vA word) + lo / 8) % 2 ^ 64
  let put := fun v s => vSet p (vD word) (setElem (vWidth word) (vGet s p (vD word)) e v) s
  if w = 0 then (put 0 s, 0, 0) else
  match elemLoad p va ((lo + w - 1) / 8 - lo / 8 + 1) 1 s with
  | (s, c, bs) => if c.1 ≠ 0 then (s, c) else (put (ofBytes bs / 2 ^ (lo % 8) % 2 ^ w) s, 0, 0)

/-- VUNPK: a slot width above EW is ILLEGAL. -/
def vunpkX (p : Nat) (word : W32) (s : State) : State :=
  let ctl := gGet s p (vB word)
  if vWidth word < fld ctl 6 0 then pTrap p causeIllegal 0 s
  else runElements p word true rdAcc (unpackElem p word (fld ctl 6 0) (fld ctl 23 8)) s

def execVunpk (p : Nat) (word : W32) (s : State) : Host.Outcome State Fault Refusal := .next (vecPerform .vunpk vunpkX p word s)

/-- Unzigzag of an element of w bits. -/
def vUnzig (w r : Nat) : Nat := (r / 2) ^^^ (if r % 2 = 1 then 2 ^ w - 1 else 0)

def execVunzz (p : Nat) (word : W32) (s : State) : Host.Outcome State Fault Refusal :=
  .next (vecPerform .vunzz (fun p word s => vecMap p word (fun e => vUnzig (vWidth word) (elemA s p word e)) s) p word s)

/-- The sums r_e of a stride-k prefix sum over n elements of w bits, element 0 first. -/
def prefixSums (w k : Nat) (a : List Nat) : List Nat :=
  a.foldl (fun r x => r ++ [(x + (if r.length < k then 0 else r.getD (r.length - k) 0)) % 2 ^ w]) []

/-- VSCAN: k of 0 is ILLEGAL; for k above 16, of which R208 says nothing, each active element is a free value
(DESIGN CHOICE, notes/assumptions/49.md). -/
def vscanX (p : Nat) (word : W32) (s : State) : State :=
  let k := gGet s p (vB word) % 32
  if k = 0 then pTrap p causeIllegal 0 s
  else if 16 < k then
    let (f, s) := takeFree s
    vecMap p word (fun e => elemOf (vWidth word) f e) s
  else
    let a := (List.range (vCount word)).map fun e => if active s p word e then elemA s p word e else 0
    let r := prefixSums (vWidth word) k a
    vecMap p word (fun e => r.getD e 0) s

def execVscan (p : Nat) (word : W32) (s : State) : Host.Outcome State Fault Refusal := .next (vecPerform .vscan vscanX p word s)

/-! ### Integer arithmetic (R202) -/

/-- The exact signed or unsigned value of the saturating opcodes, and whether it is judged signed. -/
def satExact (op w a b : Nat) : Int × Bool :=
  match op with
  | 0x12 => (signed w a + signed w b, true)
  | 0x13 => (signed w a - signed w b, true)
  | 0x14 => ((a : Int) + b, false)
  | _ => ((a : Int) - b, false)

/-- A saturating opcode's element, and whether it clamped. -/
def satElem (op w a b : Nat) : Nat × Bool :=
  let x := satExact op w a b
  if x.2 then (narrow w (clampSigned w x.1), signedOver w x.1) else (narrow w (clampUnsigned w x.1), unsignedOver w x.1)

/-- The element of the opcodes that neither clamp nor trap; `n` is the shift of the shifting ones. -/
def arithElem (op w a b n : Nat) : Nat :=
  match op with
  | 0x10 => (a + b) % 2 ^ w
  | 0x11 => (a + 2 ^ w - b) % 2 ^ w
  | 0x18 => a * b % 2 ^ w
  | 0x1D => if signed w a ≤ signed w b then a else b
  | 0x1E => if signed w a ≤ signed w b then b else a
  | 0x20 => a &&& b
  | 0x21 => a ||| b
  | 0x22 => a ^^^ b
  | 0x23 => a * 2 ^ n % 2 ^ w
  | 0x24 => a / 2 ^ n
  | 0x25 => narrow w (signed w a / 2 ^ n)
  | 0x2A => min a b
  | _ => max a b

/-- Sets VSAT where an active element clamps. -/
def vsatIf (p : Nat) (word : W32) (isOver : Nat → Bool) (s : State) : State :=
  fcsrOr p (if (List.range (vCount word)).any fun e => active s p word e && isOver e then fxVsat else 0) s

/-- One element of VADDT or VSUBT: an overflow traps with address 0. -/
def trapElem (p : Nat) (word : W32) (e : Nat) (s : State) : State × Nat × Nat :=
  let w := vWidth word
  let x := if vOp word = 0x16 then signed w (elemA s p word e) + signed w (elemB s p word e)
    else signed w (elemA s p word e) - signed w (elemB s p word e)
  if signedOver w x then (s, causeOverflow, 0)
  else (vSet p (vD word) (setElem w (vGet s p (vD word)) e (narrow w x)) s, 0, 0)

def vectorArithX (p : Nat) (word : W32) (s : State) : State :=
  let w := vWidth word
  let op := vOp word
  if op = 0x16 || op = 0x17 then runElements p word true rdAcc (trapElem p word) s
  else if 0x12 ≤ op && op ≤ 0x15 then
    let f := fun e => satElem op w (elemA s p word e) (elemB s p word e)
    vecMap p word (fun e => (f e).1) (vsatIf p word (fun e => (f e).2) s)
  else vecMap p word (fun e => arithElem op w (elemA s p word e) (elemB s p word e) (gGet s p (vB word) % w)) s

def execVectorArithmetic (p : Nat) (word : W32) (s : State) : Host.Outcome State Fault Refusal :=
  .next (vecPerform .vectorArithmetic vectorArithX p word s)

/-- VMULWL and VMULWH: products of the low or high source elements in elements of twice the width, which PG governs
(R203). -/
def vmulwlX (p : Nat) (word : W32) (s : State) : State :=
  let w := vWidth word
  let n := vCount word / 2
  let first := if vOp word = 0x1A then n else 0
  let act := fun e => predAt (2 * w) (prGet s p (vPg word)) e
  pDone p (vSet p (vD word) (putElems (vZ word) (2 * w) n (vGet s p (vD word)) act fun e =>
    narrow (2 * w) (signed w (elemA s p word (first + e)) * signed w (elemB s p word (first + e)))) s)

def execVmulwl (p : Nat) (word : W32) (s : State) : Host.Outcome State Fault Refusal :=
  .next (vecPerform .vmulwl vmulwlX p word s)

/-- VSRR: a rounding right shift by g[B][6:0] in mode g[B][9:8] (R204). -/
def vsrrX (p : Nat) (word : W32) (s : State) : State :=
  let c := gGet s p (vB word)
  let w := vWidth word
  vecMap p word (fun e => narrow w (roundDiv (fld c 9 8) (signed w (elemA s p word e)) (2 ^ fld c 6 0))) s

def execVsrr (p : Nat) (word : W32) (s : State) : Host.Outcome State Fault Refusal := .next (vecPerform .vsrr vsrrX p word s)

/-- The exact rescaled value of a signed element by a control operand (R205). -/
def rescale (c : Nat) (x : Int) : Int :=
  let k := signed 8 c
  if 0 ≤ k then x * 10 ^ k.toNat else roundDiv (fld c 9 8) x (10 ^ (-k).toNat)

/-- VRESC: with T a result out of range traps, else it clamps and sets VSAT (R205). -/
def vrescX (p : Nat) (word : W32) (s : State) : State :=
  let c := gGet s p (vB word)
  let w := vWidth word
  let f := fun s e => rescale c (signed w (elemA s p word e))
  if bit c 10 then
    runElements p word true rdAcc (fun e s =>
      if signedOver w (f s e) then (s, causeOverflow, 0)
      else (vSet p (vD word) (setElem w (vGet s p (vD word)) e (narrow w (f s e))) s, 0, 0)) s
  else
    vecMap p word (fun e => narrow w (clampSigned w (f s e))) (vsatIf p word (fun e => signedOver w (f s e)) s)

def execVresc (p : Nat) (word : W32) (s : State) : Host.Outcome State Fault Refusal := .next (vecPerform .vresc vrescX p word s)

/-! ### Reductions and moves (R189) -/

/-- A value in the low bits of the view of v[D], the view's other bits zero. -/
def putView (p : Nat) (word : W32) (v : Nat) (s : State) : State :=
  vSet p (vD word) (setFld (vGet s p (vD word)) (vBits word - 1) 0 v) s

/-- Active elements of A, in order. -/
def activeElems (s : State) (p : Nat) (word : W32) : List Nat :=
  ((List.range (vCount word)).filter (active s p word)).map (elemA s p word)

def vredaddX (p : Nat) (word : W32) (s : State) : State :=
  let x : Int := (activeElems s p word).foldl (fun t a => t + signed (vWidth word) a) 0
  pDone p (putView p word (narrow 128 (clampSigned 128 x)) (fcsrOr p (if signedOver 128 x then fxVsat else 0) s))

def execVredadd (p : Nat) (word : W32) (s : State) : Host.Outcome State Fault Refusal :=
  .next (vecPerform .vredadd vredaddX p word s)

def vcompX (p : Nat) (word : W32) (s : State) : State :=
  let xs := activeElems s p word
  pDone p (putView p word (putElems false (vWidth word) xs.length 0 (fun _ => true) fun e => xs.getD e 0) s)

def execVcomp (p : Nat) (word : W32) (s : State) : Host.Outcome State Fault Refusal := .next (vecPerform .vcomp vcompX p word s)

/-- VSPLAT: truncated, or sign-extended for EW 128. -/
def vsplatX (p : Nat) (word : W32) (s : State) : State :=
  vecMap p word (fun _ => narrow (vWidth word) (signed 64 (gGet s p (vA word)))) s

def execVsplat (p : Nat) (word : W32) (s : State) : Host.Outcome State Fault Refusal :=
  .next (vecPerform .vsplat vsplatX p word s)

def vextX (p : Nat) (word : W32) (s : State) : State :=
  pDone p (gSet p (vD word) (elemA s p word (gGet s p (vB word) % vCount word)) s)

def execVext (p : Nat) (word : W32) (s : State) : Host.Outcome State Fault Refusal := .next (vecPerform .vext vextX p word s)

def vinsX (p : Nat) (word : W32) (s : State) : State :=
  pDone p (vSet p (vD word) (setElem (vWidth word) (vGet s p (vD word)) (gGet s p (vB word) % vCount word) (gGet s p (vA word))) s)

def execVins (p : Nat) (word : W32) (s : State) : Host.Outcome State Fault Refusal := .next (vecPerform .vins vinsX p word s)

/-! ### Floating point (R209) -/

/-- The format of a vector element, and one element's result and flags. -/
def vFmt (word : W32) : FloatFmt := if vEw word = 2 then fmt32 else fmt64
def floatElem (word : W32) (rm a b d : Nat) : Nat × Nat :=
  match vOp word with
  | 0x2C => fpAdd (vFmt word) rm a b
  | 0x2D => fpSub (vFmt word) rm a b
  | 0x2E => fpMul (vFmt word) rm a b
  | _ => fpFma (vFmt word) rm a b d

def vectorFloatX (p : Nat) (word : W32) (s : State) : State :=
  let rm := (pktOf s p).fcsr % 4
  let f := fun e => floatElem word rm (elemA s p word e) (elemB s p word e) (elemD s p word e)
  let fl := (List.range (vCount word)).foldl (fun m e => if active s p word e then m ||| (f e).2 else m) 0
  vecMap p word (fun e => (f e).1) (fcsrOr p fl s)

def execVectorFloat (p : Nat) (word : W32) (s : State) : Host.Outcome State Fault Refusal :=
  .next (vecPerform .vectorFloat vectorFloatX p word s)

/-! ### Predicates (R207) -/

/-- The relation of a compare. -/
def cmpElem (op w a b : Nat) : Bool :=
  match op with
  | 0x30 => a = b
  | 0x31 => a ≠ b
  | 0x32 => decide (signed w a < signed w b)
  | 0x33 => decide (signed w a ≤ signed w b)
  | 0x34 => a < b
  | _ => a ≤ b

def execVcmp (p : Nat) (word : W32) (s : State) : Host.Outcome State Fault Refusal :=
  .next (vecPerform .vcmp (fun p word s =>
    predMap p word (fun e => cmpElem (vOp word) (vWidth word) (elemA s p word e) (elemB s p word e)) s) p word s)

def execVwhilelt (p : Nat) (word : W32) (s : State) : Host.Outcome State Fault Refusal :=
  .next (vecPerform .vwhilelt (fun p word s =>
    predMap p word (fun e => gGet s p (vA word) + e < gGet s p (vB word)) s) p word s)

/-- PAND, PANDN, POR and PXOR of one element. -/
def predElem (op : Nat) (a b : Bool) : Bool :=
  match op with
  | 0x38 => a && b
  | 0x39 => a && !b
  | 0x3A => a || b
  | _ => a != b

def execPredicateOp (p : Nat) (word : W32) (s : State) : Host.Outcome State Fault Refusal :=
  .next (vecPerform .predicateOp (fun p word s =>
    predMap p word (fun e => predElem (vOp word) (predAt (vWidth word) (prGet s p (vA word)) e)
      (predAt (vWidth word) (prGet s p (vB word)) e)) s) p word s)

def pcntX (p : Nat) (word : W32) (s : State) : State :=
  pDone p (gSet p (vD word) ((List.range (vCount word)).filter fun e =>
    active s p word e && predAt (vWidth word) (prGet s p (vA word)) e).length s)

def execPcnt (p : Nat) (word : W32) (s : State) : Host.Outcome State Fault Refusal := .next (vecPerform .pcnt pcntX p word s)

end Sys2Proof.Machine
end

