-- ==== Sys2Proof/Machine/Fill.lean ====
section
/-! DEFINITION. A Pocket's outstanding fill completes, and an instruction that waited for it runs (R181). -/

namespace Sys2Proof.Machine

/-- The next state of an outcome. -/
def nextOr (s : State) : Host.Outcome State Fault Refusal → State
  | .next t => t
  | _ => s

/-- Runs an instruction word by its row. -/
def runWord (p : Nat) (word : W32) (s : State) : State :=
  nextOr s (match rowOfWord word with
  | .integerOp => execIntegerOp p word s
  | .floatOp => execFloatOp p word s
  | .ld => execLd p word s
  | .st => execSt p word s
  | .fld => execFld p word s
  | .fst => execFst p word s
  | .ldr => execLdr p word s
  | .str => execStr p word s
  | .cas => execCas p word s
  | .aadd => execAadd p word s
  | .branch => execBranch p word s
  | .loop => execLoop p word s
  | .jl => execJl p word s
  | .jr => execJr p word s
  | .set => execSet p word s
  | .keep => execKeep p word s
  | .nop => execNop p word s
  | .unit => execUnit p word s
  | .matchReq => execMatchReq p word s
  | .waitd => execWaitd p word s
  | .fence => execFence p word s
  | .clean => execClean p word s
  | .inv => execInv p word s
  | .clinv => execClinv p word s
  | .zero => execZero p word s
  | .setWayClean => execSetWayClean p word s
  | .setWayInv => execSetWayInv p word s
  | .setWayClinv => execSetWayClinv p word s
  | .clinvVc => execClinvVc p word s
  | .call => execCall p word s
  | .rdcr => execRdcr p word s
  | .wrcr => execWrcr p word s
  | .ret => execRet p word s
  | .report => execReport p word s
  | .rgld => execRgld p word s
  | .tlbiAll => execTlbiAll p word s
  | .tlbiSlot => execTlbiSlot p word s
  | .tlbiInstance => execTlbiInstance p word s
  | .vld => execVld p word s
  | .vst => execVst p word s
  | .vlds => execVlds p word s
  | .vsts => execVsts p word s
  | .vgath => execVgath p word s
  | .vscat => execVscat p word s
  | .scaddt => execScaddt p word s
  | .scadds => execScadds p word s
  | .vunpk => execVunpk p word s
  | .vectorArithmetic => execVectorArithmetic p word s
  | .vmulwl => execVmulwl p word s
  | .vsrr => execVsrr p word s
  | .vresc => execVresc p word s
  | .vscan => execVscan p word s
  | .vunzz => execVunzz p word s
  | .vredadd => execVredadd p word s
  | .vcomp => execVcomp p word s
  | .vectorFloat => execVectorFloat p word s
  | .vcmp => execVcmp p word s
  | .vwhilelt => execVwhilelt p word s
  | .predicateOp => execPredicateOp p word s
  | .pcnt => execPcnt p word s
  | .vsplat => execVsplat p word s
  | .vext => execVext p word s
  | .vins => execVins p word s
  | .undefined => execUndefinedInstruction p word s)

/-- The outstanding fill completes and the access that waits for it goes on; an instruction that the Pocket stalled on then
runs, unless that access traps or misses again. -/
def l1FillX (p : Nat) (s : State) : State :=
  if !working s then s else
  let (t, trapped) := settleLine p s
  match (pktOf s p).wait with
  | .fill word =>
    if trapped || (pktOf t p).fill.isSome then t else runWord p word (setPkt p { pktOf t p with wait := .none } t)
  | _ => t

def execL1Fill (p : Nat) (s : State) : Host.Outcome State Fault Refusal := .next (l1FillX p s)

end Sys2Proof.Machine
end

