-- ==== Sys2Proof/Machine/Sched.lean ====
section
/-! DEFINITION. The frame controller's registers and edges, and the dispatcher's events (chapter 02). The Seam itself is
in Machine/Seam.lean. -/

namespace Sys2Proof.Machine

/-! ### The frame controller -/

/-- SRC in effect, the frame period and the tolerance (R16, R19). -/
def seamSrc (s : State) : Bool := rBit s Reg.SEAM_CTRL 0
def seamTol (s : State) : Nat := rFld s Reg.SEAM_TOL 10 0

/-- An ignored edge (R19). -/
def earlyEdge (s : State) : State :=
  let s := bump Reg.SEAM_EARLY 1 s
  if s.seam.locked then pulse Reg.SEAM_PAGE 2 s else s

/-- An accepted edge: the controller ticks 8 fabric cycles later (R19). -/
def acceptEdge (s : State) : State :=
  { s with seam := { s.seam with locked := true, holdover := false, edgeTick := some (s.now + 8) } }

/-- The interval that an edge sampled now would give its frame. -/
def edgeInterval (s : State) : Nat := s.now + 8 - (s.seam.edgeTick.getD s.seam.lastTick)

/-- A rising edge of SEAM_IN (R19). With the internal source it has no effect. -/
def seamInEdgeX (s : State) : State :=
  if !s.seam.running || !seamSrc s then s else
  let t := edgeInterval s
  if s.seam.locked then
    if t < max (framePeriod s - seamTol s) 3200 then earlyEdge s
    else if t ≤ framePeriod s + seamTol s then acceptEdge s
    else s
  else if t < 3200 then earlyEdge s else acceptEdge s

def execSeamInEdge (s : State) : Host.Outcome State Fault Refusal := .next (seamInEdgeX s)

/-- A write of SEAM_PERIOD (R16). -/
def seamPeriodEff (v : W32) (s : State) : State :=
  let p := v.toNat % 2 ^ 18
  if 3200 ≤ p && p ≤ 160000 then stageBits Reg.SEAM_PERIOD 0x3FFFF p s else recErr Reg.SEAM_PAGE 1 0 s

def execSeamPeriodWrite (w : Writer) (v : W32) (s : State) : Host.Outcome State Fault Refusal :=
  .next (acceptWrite w Reg.SEAM_PERIOD (seamPeriodEff v) s)

/-- A write of SEAM_TOL: a value outside 16 to 1,600 is ignored (Table 2.8). -/
def seamTolEff (v : W32) (s : State) : State :=
  let t := v.toNat % 2 ^ 11
  if 16 ≤ t && t ≤ 1600 then rSet Reg.SEAM_TOL t s else s

def execSeamTolWrite (w : Writer) (v : W32) (s : State) : Host.Outcome State Fault Refusal :=
  .next (acceptWrite w Reg.SEAM_TOL (seamTolEff v) s)

/-- A read of SEAM_NUM_LO by function 0 of a port or by I3C; in RESET nothing is answered (R332). -/
def execSeamNumLoRead (p : Path) (s : State) : Host.Outcome State Fault Refusal :=
  .next (if dead s then s else readSeamNum p s)

/-- Whether a SET field has been written since the last accepted commit or discard (R21). -/
def setPending (s : State) : Bool :=
  (kFind s.rf.pend Reg.SEAM_NUM_SET_LO).isSome || (kFind s.rf.pend Reg.SEAM_NUM_SET_HI).isSome

/-- A write of SEAM_NUM_LOAD: a 0 clears ARM, a 1 sets it unless a SET field is pending (R21). -/
def seamArmEff (v : W32) (s : State) : State :=
  if !bit v.toNat 0 then rSet Reg.SEAM_NUM_LOAD 0 s
  else if setPending s then recErr Reg.SEAM_PAGE 2 0 s
  else rSet Reg.SEAM_NUM_LOAD 1 s

def execSeamNumLoadArm (w : Writer) (v : W32) (s : State) : Host.Outcome State Fault Refusal :=
  .next (acceptWrite w Reg.SEAM_NUM_LOAD (seamArmEff v) s)

/-- A write of SCHED_CTRL: RADIUS outside 1 to 4 leaves its shadow unchanged (R39). -/
def schedCtrlEff (v : W32) (s : State) : State :=
  let s := rwBits Reg.SCHED_CTRL v.toNat s
  let r := fld v.toNat 4 2
  if 1 ≤ r && r ≤ 4 then stageBits Reg.SCHED_CTRL 0x1C v.toNat s else recErr Reg.SCHED_PAGE 3 0 s

def execSchedCtrlWrite (w : Writer) (v : W32) (s : State) : Host.Outcome State Fault Refusal :=
  .next (acceptWrite w Reg.SCHED_CTRL (schedCtrlEff v) s)

/-! ### Creation and decrements -/

/-- Whether a job record holds a persistent parity error; whether a task slot, or the record of its job, does. -/
def jobBad (s : State) (j : Nat) : Bool := (jobOf s j).any (·.bad)
def slotBad (s : State) (n : Nat) : Bool :=
  s.mem.par.any (wordIn (panelAddr (n / 2048) + n % 2048 * 64) 64) || jobBad s (taskOf s n).job

/-- The dispatcher reads a task slot or a job record: a persistent parity error there is fatal, cause 2 (Table 16.7). -/
def readRecord (bad : Bool) (go : State → State) (s : State) : State :=
  if bad then fatalErr Reg.SCHED_PAGE 2 s else go s

/-- The dispatcher creates the next task of a job, or waits (R35, R58). -/
def execTaskCreate (job : Nat) (s : State) : Host.Outcome State Fault Refusal :=
  .next (if working s then readRecord (jobBad s job) (createNext job) s else s)

/-- Whether a decrement is stale for its target's record (R36). -/
def decrStale (t : TaskRec) (d : Decr) : Bool := t.state = .free || t.inst ≠ d.inst || t.serial ≠ d.serial

/-- Applies one decrement (R36). -/
def applyDecr (d : Decr) (s : State) : State :=
  let t := taskOf s d.target
  if decrStale t d then bump Reg.SCHED_DEC_STALE 1 s
  else if t.dep = 0 then pulse Reg.SCHED_PAGE 1 (recErr Reg.SCHED_PAGE 4 0 (bump Reg.SCHED_DEC_UNDER 1 s))
  else
    let s := setTask d.target { t with dep := t.dep - 1 } s
    if t.dep = 1 && t.state = .pending then makeReady d.target s else s

/-- The oldest decrement on its way to a Panel's agent arrives; with none on its way nothing happens. -/
def decrementX (n : Nat) (s : State) : State :=
  match s.sched.decrs.find? fun d => d.target / 2048 = n with
  | none => s
  | some d =>
    readRecord (slotBad s d.target) (applyDecr d)
      { s with sched := { s.sched with decrs := s.sched.decrs.eraseP fun d => d.target / 2048 = n } }

def execDecrement (panel : Nat) (s : State) : Host.Outcome State Fault Refusal :=
  .next (if working s then decrementX panel s else s)

/-! ### Dispatch, stealing and cuts -/

/-- A Pocket with no task is given the task that select() names, or goes idle (R38). -/
def dispatchX (p : Nat) (s : State) : State :=
  if !working s || !pocketIdle s p then s else
  match select s (p / 16) with
  | some (n, _) => readRecord (slotBad s n) (startTask p n) s
  | none =>
    if s.sched.roused.contains p then
      trace 6 7 none noTask p 0 0 0 { s with sched := { s.sched with roused := s.sched.roused.filter (· ≠ p) } }
    else s

def execDispatch (pocket : Nat) (s : State) : Host.Outcome State Fault Refusal := .next (dispatchX pocket s)

/-- The lowest Pocket of a Panel that can take a task. -/
def freePocketOf (s : State) (n : Nat) : Option Nat :=
  ((List.range 16).map fun i => 16 * n + i).find? (pocketIdle s)

/-- Whether 256 fabric cycles have passed since a moment (R39). -/
def since256 (s : State) : Option Nat → Bool
  | none => true
  | some t => t + 256 ≤ s.now

/-- Whether a Panel may steal now (R39, R41). The 64 cycles of a Seam suspend steals (R24). -/
def maySteal (s : State) (n : Nat) : Bool :=
  (freePocketOf s n).isSome && (select s n).isNone && unfenced s n && rBit s Reg.SCHED_CTRL 0
    && since256 s (agentOf s n).tookAt && (agentOf s n).waitTo ≤ s.now
    && s.seam.stealsFrom ≤ s.now

/-- Candidate victims of a Panel in probing order (R39). -/
def candidates (s : State) (n : Nat) : List Nat :=
  (List.range 7).flatMap fun d =>
    (List.range 32).filter fun m =>
      hops (panelStop n) (panelStop m) = d + 1 && d + 1 ≤ rFld s Reg.SCHED_CTRL 4 2
        && (panelDie m = panelDie n || rBit s Reg.SCHED_CTRL 1)

/-- The task a victim offers: its eligible READY task with STEALABLE set that select() would take last (R39). -/
def offer (s : State) (m : Nat) : Option (Nat × TaskRec) :=
  if s.sched.gated.contains m || !since256 s (agentOf s m).lostAt then none
  else firstBy (fun a b => taskBefore s b a) ((readyTasks s m).filter fun p => eligible s p.2 && p.2.stealable)

/-- A steal probe (R39, R40). -/
def stealProbeX (n : Nat) (s : State) : State :=
  if !working s || !maySteal s n then s else
  match freePocketOf s n with
  | none => s
  | some p =>
    match (candidates s n).findSome? fun m => (offer s m).map fun t => (m, t) with
    | none => setAgent n { agentOf s n with waitTo := s.now + 256 } s
    | some (m, k, t) =>
      let s := setAgent n { agentOf s n with tookAt := some s.now } s
      let s := setAgent m { agentOf s m with lostAt := some s.now } s
      let s := bumpFrame (Reg.SCHED_SNAP_STEAL m) 1 (bumpFrame (Reg.SCHED_SNAP_STEAL n + 1) 1 s)
      let s := trace 2 3 (some k) t p m 0 0 s
      startTask p k s

def execStealProbe (panel : Nat) (s : State) : Host.Outcome State Fault Refusal := .next (stealProbeX panel s)

/-- The save of a cut task completes: registers and the declared scratchpad are in its save area, a gated
long-vector unit having woken for it (R210), the record returns to READY with a new AGE and PREEMPTS + 1, and the Pocket is free (R25, R28, R182). A record whose job has ended is freed; an access that fails ends the job with its
status (R238). -/
def saveCompleteX (p : Nat) (s : State) : State :=
  let x := pktOf s p
  match x.task with
  | none => s
  | some n =>
    let t := taskOf s n
    if !working s || !(t.state = .saving || t.doomed) then s
    else if t.doomed then settleJob t.job (setTask n { t with state := .free } (freePocket p s))
    else
      let s := lvWake p s
      let kib := min 8 (saveKibOf s t)
      let (s, st0, sp) := physRead (scratchAddr p) (kib * 1024) s
      let (s, st1) := meshWrite (pocketInit p t.inst t.cls) (saveArea s n) (saveImage x kib ++ sp) s
      let s := freePocket p s
      if st0 ≠ stOK then failJob t.job st0 (setTask n { t with state := .free } s)
      else if st1 ≠ stOK then failJob t.job st1 (setTask n { t with state := .free } s) else
      let t := { taskOf s n with state := .ready, age := ageNow s, preempts := min 255 (t.preempts + 1), saved := true }
      trace 4 5 (some n) t p 0 (s.now - t.since) 0 (setTask n t s)

def execSaveComplete (pocket : Nat) (s : State) : Host.Outcome State Fault Refusal := .next (saveCompleteX pocket s)

/-- An instance's charge reaches its share: SPENT pulses once a frame and the frame is counted (R72). -/
def shareSpentX (i : Nat) (s : State) : State :=
  if shareSpent s i && !s.sched.spent.contains i then
    pulse (Reg.INST_CUFF_PAGE i) 0 (bump (Reg.INST_CUFF_SPENT i) 1
      { s with sched := { s.sched with spent := i :: s.sched.spent } })
  else s

def execShareSpent (inst : Nat) (s : State) : Host.Outcome State Fault Refusal :=
  .next (if s.seam.running then shareSpentX inst s else s)

end Sys2Proof.Machine
end

