-- ==== Sys2Proof/Machine/Noc.lean ====
section
/-! DEFINITION. The mesh: routing, arbitration, delivery, links and the domain states of the Panels' routers (R262 to
R273). -/

namespace Sys2Proof.Machine

/-! ### Places and directions (R9, R11, R264) -/

/-- NOC_RT.OUT of a direction. -/
def dirNum : Dir → Nat
  | .north => 0
  | .east => 1
  | .south => 2
  | .west => 3

/-- The neighbour of a stop in a direction; none off the edge of the mesh. -/
def neighbour (st d : Nat) : Option Nat :=
  match d with
  | 0 => if 8 ≤ st then some (st - 8) else none
  | 1 => if st % 8 < 7 then some (st + 1) else none
  | 2 => if st + 8 < 48 then some (st + 8) else none
  | _ => if 0 < st % 8 then some (st - 1) else none

/-- The default route's direction: along the row, then along the column (R11). -/
def defaultOut (st dest : Nat) : Nat :=
  if st % 8 < dest % 8 then 1 else if dest % 8 < st % 8 then 3 else if st < dest then 2 else 0

/-- The exception table entry of a router that a packet uses, in the tables of its epoch (R264). -/
def exceptionOut (s : State) (st : Nat) (p : Packet) : Option Nat :=
  let tab := if p.epoch = s.noc.epoch then s.noc.cur else s.noc.prev
  let plane := if onResponse p.type then 9 else 8
  ((List.range 8).find? fun e =>
    let w := (kGet 0 tab (st * 8 + e)).toNat
    bit w 10 && fld w 5 0 = p.dest && bit w plane).map fun e => fld (kGet 0 tab (st * 8 + e)).toNat 7 6

/-- The direction a packet leaves a router in. -/
def routeOut (s : State) (st : Nat) (p : Packet) : Nat := (exceptionOut s st p).getD (defaultOut st p.dest)

/-! ### Links (R269) -/

def planeNum : Plane → Nat
  | .req => 0
  | .rsp => 1

/-- A link of a plane, by the stop and direction it leaves in. -/
def linkKey (st d plane : Nat) : Nat := (st * 4 + d) * 2 + plane
def linkOf (s : State) (k : Nat) : LinkSt := kGet {} s.noc.links k
def setLink (k : Nat) (x : LinkSt) (s : State) : State := { s with noc := { s.noc with links := kSet s.noc.links k x } }

/-- Whether a packet's next hop can be taken: the link is there, not down, and not retraining. -/
def mayLeave (s : State) (st : Nat) (p : Packet) : Bool :=
  let d := routeOut s st p
  let l := linkOf s (linkKey st d (b2n (onResponse p.type)))
  st = p.dest || typeReserved p.type || ((neighbour st d).isSome && !l.down && !l.retraining)

/-! ### Queues -/

def queueOf (s : State) (st : Nat) : List Flight := kGet [] s.noc.queues st
def setQueue (st : Nat) (q : List Flight) (s : State) : State := { s with noc := { s.noc with queues := kPut [] s.noc.queues st q } }

/-- A packet enters a router's queue. -/
def enqueue (st : Nat) (p : Packet) (from_ born : Nat) (s : State) : State :=
  setQueue st (queueOf s st ++ [⟨p, from_, none, born, false⟩]) s

/-- Injects a packet at a stop: it is stamped with the epoch and its source (R266), travels as its header holds it (R262),
and a request is counted (R273). -/
def inject (st : Nat) (p : Packet) (s : State) : State :=
  if 48 ≤ st || 48 ≤ p.dest || 256 < p.payload.length || 256 < p.len then s else
  let p := onWire { p with src := st, epoch := s.noc.epoch }
  let s := statRequest p s
  let s := if nonPosted p.type then
      { s with noc := { s.noc with owed := s.noc.owed ++ [(st, p.sub, p.txn, s.now)] } } else s
  enqueue st p 0 s.now s

/-- Puts the response to a request into the mesh at the stop that answers it (R263). -/
def respond (st : Nat) (p : Packet) (status : Nat) (data : List Byte) (s : State) : State :=
  enqueue st (onWire (responseTo { p with dest := st } s.noc.epoch status data)) 0 s.now s

/-- Pockets of a Panel whose line fill another block has still to answer, and Match Array requests of its Pockets not yet
answered. -/
def fillsOwed (s : State) (n : Nat) : Nat :=
  (s.pkt.filter fun p => p.1 / 16 = n && (match p.2.fill with
    | some f => (blockOf s (64 * f.line)).isSome && blockOf s (64 * f.line) ≠ some (.panel n)
    | none => false)).length
def matchesOwed (s : State) (n : Nat) : Nat :=
  (s.ma.waiting.filter fun q => q.pocket / 16 = n).length

/-- NOC_DOM_OUT: responses owed to a stop (R272). -/
def owedTo (s : State) (st : Nat) : Nat :=
  (s.noc.owed.filter fun o => o.1 = st).length + (match panelAt st with
    | some n => fillsOwed s n + matchesOwed s n
    | none => 0)

/-! ### Delivery (R263, R270, R272) -/

/-- A poisoned packet is counted where it is delivered (R270). -/
def countPoison (s : State) : State :=
  contained Reg.NOC_PAGE (pulse Reg.NOC_PAGE 2 (recErr Reg.NOC_PAGE 4 0 (bump Reg.NOC_POISON 1 s)))

/-- Takes the oldest response owed for a stop, initiator and transaction. -/
def takeOwed (st sub txn : Nat) : List (Nat × Nat × Nat × Nat) → Option Nat × List (Nat × Nat × Nat × Nat)
  | [] => (none, [])
  | o :: r =>
    if o.1 = st && o.2.1 = sub && o.2.2.1 = txn then (some o.2.2.2, r)
    else
      let q := takeOwed st sub txn r
      (q.1, o :: q.2)

/-- A response reaches its initiator, which sinks it: its latency and bytes are counted (R268, R273). -/
def deliverResponse (p : Packet) (s : State) : State :=
  let q := takeOwed p.dest p.sub p.txn s.noc.owed
  let s := { s with noc := { s.noc with owed := q.2 } }
  let s := match q.1 with
    | some born => statLatency p.dest p.sub (s.now - born) s
    | none => s
  let s := statResponse p s
  if p.poison then emit (.memData [] stParity) (countPoison s) else emit (.memData p.payload p.status) s

/-- Whether the block at a stop takes non-posted messages: a Match Array request, or a unit command (Table 12.2). -/
def takesMessages (st : Nat) : Bool :=
  match blockAt st with
  | some (.panel _) => true
  | some (.hmc _) => true
  | some .matchArray => true
  | _ => false

/-- Whether an address is served by another block than the one at a stop (R9). -/
def elsewhere (s : State) (st a : Nat) : Bool :=
  match blockOf s a with
  | some b => b.stop ≠ st
  | none => false

/-- Serves a request where it is delivered: the accesses of Table 12.2, and the response of a non-posted one. A block that
does not serve the address answers as a hole does. An atomic packet carries no field that tells its operation, so what it
leaves at its address is undefined. A posted message to a Panel is a decrement of R36 whose target is its ADDR, whose instance
is its INSTANCE and whose serial is its payload (DESIGN CHOICE, notes/assumptions/40.md). -/
def serve (st : Nat) (p : Packet) (s : State) : State :=
  if p.type ≤ 3 && elsewhere s st p.addr then
    if nonPosted p.type then respond st p stUncorrectable [] s else s
  else match p.type with
  | 0 =>
    let (s, e, bs) := physRead p.addr p.len s
    respond st p e (if e = stOK then bs else []) s
  | 1 =>
    let (s, e) := physWrite p.addr p.payload s
    respond st p e [] s
  | 2 => (physWrite p.addr p.payload s).1
  | 3 =>
    let (s, e, bs) := physRead p.addr p.len s
    if e ≠ stOK then respond st p e [] s
    else
      let (s, e) := physWrite p.addr bs s
      if e ≠ stOK then respond st p e [] s else respond st p stOK bs (makeUndef p.addr p.len s)
  | 4 => respond st p (if takesMessages st then stOK else stDescInvalid) [] s
  | 5 => match panelAt st with
    | some n => if p.addr / 2048 = n then applyDecr ⟨p.addr, p.inst, ofBytes p.payload % 65536⟩ s else s
    | none => s
  | _ => s

/-- A request reaches its destination: absorbed by a Panel's router in ABSORB, OFF or WAKING (R272), failed if it is
poisoned (R270), and served otherwise. -/
def deliverRequest (st : Nat) (p : Packet) (s : State) : State :=
  let absorbed := match panelAt st with
    | some n => !delivers s n
    | none => false
  if absorbed then
    let s := if p.poison then countPoison s else s
    if nonPosted p.type then respond st p stDomain [] (bump (Reg.NOC_ABSORBED st) 1 s)
    else bump (Reg.NOC_DROPPED st) 1 s
  else if p.poison then
    if nonPosted p.type then respond st p stParity [] (countPoison s) else countPoison s
  else serve st p s

/-! ### A hop (R264, R267) -/

/-- Whether a packet has been passed over for 256 fabric cycles. -/
def aged (s : State) (f : Flight) : Bool :=
  match f.passed with
  | some t => t + 256 ≤ s.now
  | none => false

/-- The output of a waiting packet: 4 at its destination. -/
def outOf (s : State) (st : Nat) (f : Flight) : Nat := if st = f.pkt.dest then 4 else routeOut s st f.pkt

/-- The output of a waiting packet on its plane, as the turn is kept. -/
def turnKey (s : State) (st : Nat) (f : Flight) : Nat := (st * 5 + outOf s st f) * 2 + b2n (onResponse f.pkt.type)

/-- How far a packet's input is from its turn at its output. -/
def turnGap (s : State) (st : Nat) (f : Flight) : Nat := (f.from_ + 4 - kGet 4 s.noc.turn (turnKey s st f)) % 5

/-- Which of two waiting packets an output serves first: one passed over for 256 cycles, then the higher PRIO, then the
input whose turn comes first (R267). -/
def servedFirst (s : State) (st : Nat) (a b : Flight) : Bool :=
  if aged s a ≠ aged s b then aged s a
  else if aged s a && a.passed ≠ b.passed then a.passed.getD 0 < b.passed.getD 0
  else if a.pkt.prio ≠ b.pkt.prio then b.pkt.prio < a.pkt.prio
  else turnGap s st a < turnGap s st b

/-- Takes the first packet equal to one given out of a queue. -/
def dropFlight (f : Flight) : List Flight → List Flight
  | [] => []
  | g :: r => if g = f then r else g :: dropFlight f r

/-- Flits of a packet as a link sends them: the header and payload in stretches of 128 bytes, with a parity bit for each
word (R269). -/
def flitsOf (p : Packet) : List Flit :=
  let bs := padTo128 (headerBytes p ++ p.payload)
  (List.range (flits p)).map fun k =>
    let b := (bs.drop (128 * k)).take 128
    ⟨b, (List.range 32).map fun w => ((List.range 32).filter fun i => bit (ofBytes ((b.drop (4 * w)).take 4)) i).length % 2 = 1⟩

/-- A link sends a packet: its flits enter the retry buffer, which keeps the last 32. -/
def sendOver (st d : Nat) (p : Packet) (s : State) : State :=
  let k := linkKey st d (b2n (onResponse p.type))
  setLink k { linkOf s k with sent := ((flitsOf p).reverse ++ (linkOf s k).sent).take 32 } s

/-- The packets left waiting at an output that has just served another are passed over (R267). -/
def passOver (st key : Nat) (s : State) : State :=
  setQueue st ((queueOf s st).map fun f =>
    if turnKey s st f = key && mayLeave s st f.pkt && f.passed.isNone then { f with passed := some s.now } else f) s

/-- A packet as a router reads it out of its buffer: a parity error there, which cannot be replayed, poisons it (R270). -/
def readOut (f : Flight) : Packet := { f.pkt with poison := f.pkt.poison || f.bad }

/-- A router takes one waiting packet and forwards or delivers it; a packet of a reserved TYPE is dropped (R263). -/
def routerHop (st : Nat) (s : State) : State :=
  match firstBy (servedFirst s st) ((queueOf s st).filter fun f => mayLeave s st f.pkt) with
  | none => s
  | some f =>
    let out := outOf s st f
    let key := turnKey s st f
    let s := passOver st key (setQueue st (dropFlight f (queueOf s st)) s)
    let s := { s with noc := { s.noc with turn := kSet s.noc.turn key f.from_ } }
    if typeReserved f.pkt.type then
      pulse Reg.NOC_PAGE 2 (recErr Reg.NOC_PAGE 4 0 (bump Reg.NOC_POISON 1 s))
    else if st = f.pkt.dest then
      if onResponse f.pkt.type then deliverResponse (readOut f) s else deliverRequest st (readOut f) s
    else match neighbour st out with
      | some n => enqueue n (readOut f) ((out + 2) % 4 + 1) f.born (sendOver st out (readOut f) s)
      | none => s

/-- MESH_HOP (R264): a packet may enter the router's local input, and the router serves one waiting packet. -/
def meshHop (st : Nat) (p : Option Packet) (s : State) : State :=
  if dead s then s else
  routerHop st (match p with
    | some p => inject st p s
    | none => s)

def execMeshHop (stop : Nat) (pkt : Option Packet) (s : State) : Host.Outcome State Fault Refusal := .next (meshHop stop pkt s)

/-! ### Link errors -/

/-- Degraded links of both planes (NOC_STATUS.DEGRADED). -/
def degradedLinks (s : State) : Nat := (s.noc.links.filter fun p => p.2.deg).length

/-- LINK_PARITY_ERROR (R269): a replay that arrives good is counted; the third failed replay of a flit retrains the link
at half width, and three more there take it down. -/
def linkParityError (st d plane : Nat) (good : Bool) (s : State) : State :=
  let k := linkKey st d plane
  let l := linkOf s k
  if (neighbour st d).isNone || 48 ≤ st || l.down || l.retraining || dead s then s
  else if good then corrected (bump (Reg.NOC_RETRY st d) 1 (setLink k { l with fails := 0 } s))
  else if l.fails < 2 then setLink k { l with fails := l.fails + 1 } s
  else if !l.deg then
    contained Reg.NOC_PAGE (level Reg.NOC_PAGE 0 true (recErr Reg.NOC_PAGE 2 0
      (setLink k { l with deg := true, retraining := true, fails := 0 } s)))
  else
    fatalErr Reg.NOC_PAGE 1 (level Reg.NOC_PAGE 1 true (recErr Reg.NOC_PAGE 3 0
      (setLink k { l with down := true, fails := 0 } s)))

def execLinkParityError (stop : Nat) (dir : Dir) (plane : Plane) (good : Bool) (s : State) : Host.Outcome State Fault Refusal :=
  .next (linkParityError stop (dirNum dir) (planeNum plane) good s)

/-- LINK_RETRAIN_DONE (R269): traffic continues at half width. -/
def linkRetrainDone (st d plane : Nat) (s : State) : State :=
  let k := linkKey st d plane
  if (linkOf s k).retraining then setLink k { linkOf s k with retraining := false } s else s

def execLinkRetrainDone (stop : Nat) (dir : Dir) (plane : Plane) (s : State) : Host.Outcome State Fault Refusal :=
  .next (linkRetrainDone stop (dirNum dir) (planeNum plane) s)

/-! ### Domains (R271, R272, R185) -/

def setDom (n : Nat) (d : DomState) (s : State) : State := { s with noc := { s.noc with dom := kPut .online s.noc.dom n d } }

/-- The power state of a Panel's memories. -/
def panelMem (s : State) (n : Nat) : MemPower := kGet .on s.pwr.panelMem n
def setPanelMem (n : Nat) (m : MemPower) (s : State) : State :=
  { s with pwr := { s.pwr with panelMem := kPut .on s.pwr.panelMem n m } }

/-- Whether a Panel's fence is wanted (R357). -/
def fenceWanted (s : State) (n : Nat) : Bool :=
  bit (rGet s Reg.PWR_FENCE_REQ) n || s.pwr.capFenced.contains n || s.pwr.thermFenced.contains n

/-- A Panel's memories begin to wake from their gated state. -/
def startWake (n : Nat) (s : State) : State :=
  let s := { s with pwr := { s.pwr with wakeFrom := kSet s.pwr.wakeFrom n (panelMem s n) } }
  setPanelMem n .waking (setDom n .waking s)

/-- DOMAIN_OFF (R271): with no response owed, a router in ABSORB goes to OFF, or to WAKING where a wake is held. -/
def domainOff (n : Nat) (s : State) : State :=
  if owedTo s (panelStop n) ≠ 0 then s else
  match domOf s n with
  | .absorb => setDom n .off s
  | .absorbWake => if s.dev.mode = .retain then s else startWake n s
  | _ => s

def execDomainOff (panel : Nat) (s : State) : Host.Outcome State Fault Refusal := .next (domainOff panel s)

/-- Clears the memories of a Panel that lost power: bytes 0, task slots FREE, good parity, no undefined byte (R185). -/
def zeroPanel (n : Nat) (s : State) : State :=
  let in_ := fun (a : Nat) => (panelAddr n ≤ a && a < panelAddr n + 0x200000) ||
    (panelAddr n + 0x80000000 ≤ a && a < panelAddr n + 0x80200000)
  { s with mem := { s.mem with dev := s.mem.dev.filter fun c => !in_ c.1,
                               par := s.mem.par.filter fun w => !in_ (4 * w),
                               soft := s.mem.soft.filter fun w => !in_ (4 * w),
                               undef := s.mem.undef.filter fun u => !in_ u.1 },
           sched := { s.sched with tasks := s.sched.tasks.filter fun t => t.1 / 2048 ≠ n } }

/-- PANEL_MEMORY_ON (R271, R185): the memories report ON, zeroed where they were OFF, and the router delivers again;
the fence itself changes at a Seam. -/
def panelMemoryOn (n : Nat) (s : State) : State :=
  if panelMem s n ≠ .waking then s else
  let s := if kGet .off s.pwr.wakeFrom n = .off then zeroPanel n s else s
  let s := bump (Reg.PNL_WAKES n) 1 { s with pwr := { s.pwr with wakeFrom := kDel s.pwr.wakeFrom n } }
  setDom n (if fenceWanted s n then .fenced else .online) (setPanelMem n .on s)

def execPanelMemoryOn (panel : Nat) (s : State) : Host.Outcome State Fault Refusal := .next (panelMemoryOn panel s)

end Sys2Proof.Machine
end

