-- ==== Sys2Proof/Machine/Ledger.lean ====
section
/-! DEFINITION. The Ledger Store: volumes and streams, its task registers, the lock table, records and the chain, commits,
group commit and its completion rings (chapter 13). -/

namespace Sys2Proof.Machine

/-! ### Accessors and sizes -/

def setLdg (x : LdgSt) (s : State) : State := { s with ldg := x }
def volOf (s : State) (v : Nat) : Option Volume := kFind s.ldg.vols v
def streamOf (s : State) (n : Nat) : Option LogStream := kFind s.ldg.streams n
def setVol (v : Nat) (x : Volume) (s : State) : State := setLdg { s.ldg with vols := kSet s.ldg.vols v x } s
def setStream (n : Nat) (x : LogStream) (s : State) : State := setLdg { s.ldg with streams := kSet s.ldg.streams n x } s
def lcqOf (s : State) (i : Nat) : LdgCq := kGet {} s.ldg.cq i
def setLcq (i : Nat) (x : LdgCq) (s : State) : State := setLdg { s.ldg with cq := kSet s.ldg.cq i x } s

/-- Commands of an instance in acceptance order, its unwritten completions, and the places of its queue it fills (R294). -/
def ldgCmds (s : State) (i : Nat) : List LdgCmd := s.ldg.cmds.filter fun c => c.inst = i
def ldgCompls (s : State) (i : Nat) : List LdgCompl := s.ldg.compl.filter fun c => c.inst = i
def ldgQueued (s : State) (i : Nat) : Nat := (ldgCmds s i).length + (ldgCompls s i).length

/-- Replaces a command, and takes one out. -/
def setCmd (c : LdgCmd) (s : State) : State :=
  setLdg { s.ldg with cmds := s.ldg.cmds.map fun d => if d.id = c.id then c else d } s
def dropCmd (c : LdgCmd) (s : State) : State := setLdg { s.ldg with cmds := s.ldg.cmds.filter fun d => d.id ≠ c.id } s

/-- Bytes a record of LEN payload bytes occupies (R291). -/
def recSize (len : Nat) : Nat := 64 + ceilDiv len 64 * 64

/-- APPENDs of a command's stream accepted before it and not ended, in acceptance order. -/
def priorAppends (s : State) (c : LdgCmd) : List LdgCmd :=
  s.ldg.cmds.filter fun d => d.op = 1 && d.inst = c.inst && d.stream = c.stream && d.id < c.id

/-- The volume offset and SEQ that follow a stream's last record and the APPENDs given (R300, R396). -/
def placeAfter (x : LogStream) (ds : List LdgCmd) : Nat × Nat :=
  ds.foldl (fun p d => (p.1 + recSize d.len, p.2 + 1)) (x.tail, x.seq)

/-- The place of an APPEND: volume offset and SEQ. -/
def placeOf (s : State) (c : LdgCmd) : Nat × Nat :=
  match streamOf s c.stream with
  | some x => placeAfter x (priorAppends s c)
  | none => (0, 0)

/-- The volume a command acts in. -/
def cmdVol (s : State) (c : LdgCmd) : Option Nat :=
  if c.op = 1 || (c.op = 5 && !c.vtarget) then (streamOf s c.stream).map (·.vol) else some c.vol

/-- The range of media bytes a command covers in the lock table: volume, offset, length; length 0 for a FLUSH or SEAL. -/
def cmdRange (s : State) (c : LdgCmd) : Nat × Nat × Nat :=
  if c.op = 1 then ((cmdVol s c).getD 256, (placeOf s c).1, recSize c.len)
  else if c.op = 2 || c.op = 3 then (c.vol, c.off, c.len) else (256, 0, 0)

/-- The offset in the Ledger Store of a volume offset. -/
def mediaAt (s : State) (v off : Nat) : Nat := ((volOf s v).map (·.base)).getD 0 * 2 ^ 20 + off

/-- Atomic writes in the media, and lock entries held. -/
def ldgInMedia (s : State) : Nat := (s.ldg.cmds.map fun c => c.inMedia.length).sum
def ldgLocks (s : State) : Nat := (s.ldg.cmds.filter fun c => c.phase ≠ .queued).length

/-! ### Completions (R303, R306) -/

/-- Geometry of an instance's Ledger completion ring. -/
def lcqSize (s : State) (i : Nat) : Nat := 2 ^ rFld s (Reg.INST_LDG_CQ_SIZE i) 4 0
def lcqEn (s : State) (i : Nat) : Bool := rBit s (Reg.INST_LDG_CQ_CTRL i) 0

/-- CQ_FULL is high while a completion that may be written waits for a released entry. -/
def lcqLevel (i : Nat) (s : State) : State :=
  level (Reg.INST_LDG_PAGE i) 1 ((ldgCompls s i).any fun c => !c.group) s

/-- The 32 bytes of a completion entry (Table 13.5). -/
def ldgBytes (phase : Bool) (c : LdgCompl) : List Byte :=
  toBytes 4 (c.tag + 2 ^ 16 * c.status + 2 ^ 24 * c.gen) ++ toBytes 4 (b2n phase + 2 * c.op + 16 * b2n c.held)
    ++ toBytes 8 c.a ++ toBytes 8 c.b ++ toBytes 8 c.seam

/-- The packets of the Ledger controller's accesses to an instance's host memory (R263, R297). -/
def ledgerTrips (i : Nat) (write : Bool) (a n : Nat) (s : State) : State :=
  hostTrips (ledgerInit i) (instPort s i) write a n s

/-- Writes one completion into the ring's next entry. -/
def writeLdgCompl (c : LdgCompl) (s : State) : State :=
  let i := c.inst
  let x := lcqOf s i
  let base := rGet s (Reg.INST_LDG_CQ_BASE_LO i) + 2 ^ 32 * rGet s (Reg.INST_LDG_CQ_BASE_HI i)
  let s := ledgerTrips i true (base + 32 * x.tail) 32 (hostWrite i (base + 32 * x.tail) (ldgBytes x.phase c) s)
  let wrap := x.tail + 1 = lcqSize s i
  let s := setLcq i { tail := if wrap then 0 else x.tail + 1, phase := if wrap then !x.phase else x.phase, free := x.free - 1,
                      tags := x.tags ++ [if c.usesTag then c.tag else 0x10000] } s
  let s := setLdg { s.ldg with compl := s.ldg.compl.filter fun d => d.id ≠ c.id } s
  if c.intr || rBit s (Reg.INST_LDG_CQ_CTRL i) 1 then pulse (Reg.INST_LDG_PAGE i) 0 s else s

/-- The first completion of an instance that is not held for the Seam, if its ring has a released entry for it. -/
def nextLdgCompl (s : State) (i : Nat) : Option LdgCompl :=
  if lcqEn s i && 0 < (lcqOf s i).free then (ldgCompls s i).find? fun c => !c.group else none

/-- Writes completions of an instance in order, up to `n`, while its ring has room. -/
def writeCompls (i : Nat) : Nat → State → State
  | 0, s => s
  | n + 1, s =>
    match nextLdgCompl s i with
    | some c => writeCompls i n (writeLdgCompl c s)
    | none => s

/-- Writes what an instance's ring has room for; nothing is written while the device is halted (R361). -/
def flushCompls (i : Nat) (s : State) : State :=
  if halted s then s else lcqLevel i (writeCompls i (ldgCompls s i).length s)

/-- Held completions that meet a condition are held no longer. -/
def releaseHeld (p : LdgCompl → Bool) (s : State) : State :=
  setLdg { s.ldg with compl := s.ldg.compl.map fun c => if p c then { c with group := false } else c } s

/-- A command ends with a status: its completion is held for the Seam, or written (R303, R304); after PWRFAIL_N has fallen
it is lost (R302). -/
def finishCmd (c : LdgCmd) (st a b : Nat) (s : State) : State :=
  let good := st = stOK
  let hold := good && (c.op = 1 || c.op = 2) && !c.imm && rBit s Reg.LDG_CTRL 0
  let k : LdgCompl :=
    { id := c.id, inst := c.inst, gen := c.gen, op := if c.op ≤ 5 then c.op else 0, stream := c.stream, tag := c.tag, status := st,
      held := hold, group := hold, a := if good then a else 0, b := if good then b else 0, seam := s.seam.num, intr := c.intr,
      usesTag := true }
  let s := dropCmd c s
  if s.ldg.stopped then (if good then bumpFrame Reg.LDG_SNAP_COMMITS 1 s else s) else
  let s := if c.op = 1 && c.imm then
      releaseHeld (fun d => d.op = 1 && d.inst = c.inst && d.stream = c.stream && d.id < c.id) s
    else if good && c.op = 4 then releaseHeld (fun d => d.inst = c.inst && d.id < c.id) s else s
  let s := setLdg { s.ldg with compl := s.ldg.compl ++ [k] } s
  let s := if good then bumpFrame Reg.LDG_SNAP_COMMITS 1 s else s
  flushCompls c.inst s

/-! ### Entering and checking (R295 to R298) -/

/-- The data fragments of a command: address and length. -/
def cmdFrags (c : LdgCmd) (s : State) : Nat × List (Nat × Nat) :=
  if c.nfrag = 0 then (stOK, [(c.buf, c.len)]) else
  match hostRead s c.inst c.buf (16 * c.nfrag) with
  | none => (stFragment, [])
  | some bs =>
    let fs := (List.range c.nfrag).map fun k => fragOf (slice bs (16 * k) 16)
    if fs.any fun f => f.kind ≠ (if c.op = 3 then 3 else 1) || f.len = 0 then (stFragment, [])
    else if (fs.map (·.len)).sum ≠ c.len then (stLedgerRange, [])
    else (stOK, fs.map fun f => (f.addr, f.len))

/-- Whether fields of a command are out of range (check 1 of Table 13.4). -/
def cmdMalformed (c : LdgCmd) : Bool :=
  c.op = 0 || 5 < c.op || (c.chain && c.op ≠ 1) || (c.op ≤ 3 && 64 < c.nfrag)
    || (c.op = 1 && (c.len = 0 || 32704 < c.len))
    || ((c.op = 2 || c.op = 3) && (c.off % 64 ≠ 0 || c.len % 64 ≠ 0 || c.len < 64 || 1048576 < c.len))

/-- Whether a SEAL accepted before a command seals its stream or volume. -/
def sealedBy (s : State) (c : LdgCmd) (v : Nat) : Bool :=
  s.ldg.cmds.any fun d => d.inst = c.inst && d.id < c.id && d.op = 5 &&
    (if d.vtarget then d.vol = v else c.op = 1 && d.stream = c.stream)

/-- The checks of Table 13.4 in order. -/
def cmdCheck (c : LdgCmd) (s : State) : Nat :=
  if cmdMalformed c then stDescInvalid
  else if c.op = 4 then stOK
  else
    match cmdVol s c with
    | none => stLedgerRange
    | some v =>
      match volOf s v with
      | none => stLedgerRange
      | some x =>
        let st := streamOf s c.stream
        let meets := s.ldg.streams.any fun p =>
          p.2.vol = v && c.off < (p.2.start + p.2.len) * 65536 && p.2.start * 65536 < c.off + c.len
        let sealed_ := x.isSealed || sealedBy s c v || (c.op = 1 && (st.map (·.isSealed)).getD false)
        if x.owner ≠ c.inst then stLedgerRange
        else if (c.op = 2 || c.op = 3) && x.size * 2 ^ 20 < c.off + c.len then stLedgerRange
        else if c.op = 2 && meets then stLedgerRange
        else if c.op ≤ 2 && sealed_ then stLedgerSealed
        else if c.chain && (st.bind (·.ctx)).isNone then stDescInvalid
        else if c.op ≤ 3 && (cmdFrags c s).1 ≠ stOK then (cmdFrags c s).1
        else match st with
          | some y => if c.op = 1 && (y.start + y.len) * 65536 < (placeOf s c).1 + recSize c.len then stLedgerFull else stOK
          | none => stOK

/-- Enters the queued commands of an instance that the lock table has room for, each with its checks (R296, R298). -/
def enterCmds (i : Nat) : Nat → State → State
  | 0, s => s
  | n + 1, s =>
    match (ldgCmds s i).find? fun c => c.phase = .queued with
    | none => s
    | some c =>
      let before := (s.ldg.cmds.filter fun d => d.phase = .queued && d.id < c.id).length
      if 4096 ≤ ldgLocks s + before then s else
      let st := cmdCheck c s
      let s := if c.op ≤ 3 && c.nfrag ≠ 0 && c.nfrag ≤ 64 then ledgerTrips i false c.buf (16 * c.nfrag) s else s
      enterCmds i n (if st = stOK then setCmd { c with phase := .entered, frags := (cmdFrags c s).2 } s else finishCmd c st 0 0 s)

/-- Whether two lock-table ranges meet. -/
def rangesMeet (a b : Nat × Nat × Nat) : Bool :=
  a.1 = b.1 && a.2.1 < b.2.1 + b.2.2 && b.2.1 < a.2.1 + a.2.2 && a.2.2 ≠ 0 && b.2.2 ≠ 0

/-- Whether a command may start: nothing earlier of its instance holds it back (R298, R299). -/
def canStart (s : State) (c : LdgCmd) : Bool :=
  (ldgCmds s c.inst).all fun d => c.id ≤ d.id ||
    !(c.ordered || d.ordered || (!(c.op = 3 && d.op = 3) && rangesMeet (cmdRange s c) (cmdRange s d)))

/-! ### Records and the chain (R291, R292, R396) -/

/-- Header bytes 0x00 to 0x1F of an APPEND's record (Table 13.2). -/
def recHeader (c : LdgCmd) (seq : Nat) : List Byte :=
  let w0 := toBytes 4 (0x4C52 + 2 ^ 16 * b2n c.chain)
  let rest := toBytes 6 seq ++ toBytes 2 c.len ++ toBytes 8 c.seam ++ toBytes 8 c.rtag
  w0 ++ toBytes 4 (crc32c (w0 ++ toBytes 4 0 ++ rest)) ++ rest

/-- A whole record. -/
def recBytes (c : LdgCmd) (seq : Nat) : List Byte :=
  let chain := if c.chain then c.hashed else List.replicate 32 0
  recHeader c seq ++ chain ++ c.data ++ List.replicate (recSize c.len - 64 - c.data.length) 0

/-- The chain value that an APPEND hashes from: of the last earlier chained APPEND, or of the stream (R396). -/
def chainFrom (s : State) (c : LdgCmd) (x : LogStream) : List Byte :=
  match ((priorAppends s c).filter (·.chain)).getLast? with
  | some d => d.hashed
  | none => x.chain

/-- Whether an APPEND has passed its last point of failure. -/
def pastFailure (c : LdgCmd) : Bool := c.phase = .ready || c.phase = .media

/-- A chained APPEND whose data is staged starts in its stream's context once every earlier APPEND of the stream has
passed its last point of failure. -/
def hashStart (c : LdgCmd) (s : State) : State :=
  match streamOf s c.stream with
  | none => s
  | some x =>
    match x.ctx with
    | none => s
    | some k =>
      if !(priorAppends s c).all pastFailure then s else
      let msg := chainFrom s c x ++ recHeader c (placeOf s c).2 ++ c.data
      let s := openCtx k 0 c.inst 0 2 s
      let s := setCtx k { ctxOf s k with queue := [{ op := 3, len := msg.length, own := some msg }] } s
      startNext k 8 (setCmd { c with phase := .hashing } s)

/-- A chained APPEND whose context has ended its hash, or has been cleared (R307). -/
def hashEnd (c : LdgCmd) (s : State) : State :=
  match (streamOf s c.stream).bind (·.ctx) with
  | none => s
  | some k =>
    match (ctxOf s k).state with
    | .done =>
      let d := (ctxOf s k).result
      setCmd { c with phase := .ready, hashed := d } (giveBack k s)
    | .cleared => finishCmd c stDigestCleared 0 0 s
    | _ => s

/-- The 32 KiB pieces of a write (R301). -/
def cmdPieces (c : LdgCmd) : Nat := if c.op = 2 then ceilDiv c.len 32768 else 1

/-- Writes wait for hold-up energy, and are started no more after PWRFAIL_N has fallen or the device has halted (R302). -/
def mediaOpen (s : State) : Bool := s.ldg.holdup && !s.ldg.stopped && !halted s

/-- Puts a write's next pieces into the media as far as the 64 places allow; an APPEND only as the first of its stream, and
where no earlier command holds the range its place has moved to (R298, R396). -/
def enterMedia (c : LdgCmd) (s : State) : State :=
  if !mediaOpen s || (c.op = 1 && !(priorAppends s c).isEmpty) || !canStart s c then s else
  let todo := (List.range (cmdPieces c)).filter fun k => !c.inMedia.contains k && !c.home.contains k
  let now := todo.take (64 - ldgInMedia s)
  if now = [] then s else setCmd { c with phase := .media, inMedia := c.inMedia ++ now } s

/-- One look at each command: hashing and writes begin as they may. -/
def pumpOnce (s : State) : State :=
  s.ldg.cmds.foldl (fun t c0 =>
    match t.ldg.cmds.find? fun d => d.id = c0.id with
    | none => t
    | some c =>
      match c.phase with
      | .staged => if c.chain then hashStart c t else setCmd { c with phase := .ready } t
      | .hashing => hashEnd c t
      | .ready => enterMedia c t
      | .media => enterMedia c t
      | _ => t) s

/-- HOLDUP_LOW is high while HOLDUP_OK is clear (R302). -/
def holdupLevel (s : State) : State :=
  let v := !s.ldg.holdup
  let s := if v && !rBit s (Reg.LDG_PAGE + 0x14) 2 then recErr Reg.LDG_PAGE 4 0 s else s
  level Reg.LDG_PAGE 2 v s

/-- What follows in the controller from an event: three looks, as a command passes at most staged, ready and media. -/
def pump (s : State) : State := if halted s then s else holdupLevel (pumpOnce (pumpOnce (pumpOnce s)))

/-! ### Events of a command's run -/

/-- Queued commands enter, and the earliest that may start does (R298, R299). -/
def cmdStartX (i : Nat) (s : State) : State :=
  if !working s then s else
  let s := enterCmds i (ldgCmds s i).length s
  match (ldgCmds s i).find? fun c => c.phase = .entered && canStart s c with
  | some c => pump (setCmd { c with phase := .started } s)
  | none => pump s

def execLedgerCommandStart (inst : Nat) (s : State) : Host.Outcome State Fault Refusal := .next (cmdStartX inst s)

/-- Reads a command's data from host memory. -/
def readFragData (c : LdgCmd) (s : State) : Option (List Byte) :=
  c.frags.foldl (fun (r : Option (List Byte)) f =>
    match r, hostRead s c.inst f.1 f.2 with
    | some a, some b => some (a ++ b)
    | _, _ => none) (some [])

/-- The host read of a started APPEND or WRITE completes (R297). -/
def dataReadX (i k : Nat) (ok : Bool) (s : State) : State :=
  if !working s then s else
  match (ldgCmds s i)[k]? with
  | none => s
  | some c =>
    if !(c.phase = .started && (c.op = 1 || c.op = 2)) then s else
    let s := c.frags.foldl (fun t f => ledgerTrips i false f.1 f.2 t) s
    match if ok then readFragData c s else none with
    | some bs => pump (setCmd { c with phase := .staged, data := bs } s)
    | none => pump (finishCmd c stFragment 0 0 s)

def execLedgerDataRead (inst idx : Nat) (ok : Bool) (s : State) : Host.Outcome State Fault Refusal := .next (dataReadX inst idx ok s)

/-- Writes bytes into the media: whole words are made good, and a correctable word written in part is corrected (R244,
R287). -/
def mediaWrite (off : Nat) (bs : List Byte) (s : State) : State :=
  let a := 0x030000000000 + off
  let ws := rangeWords a bs.length
  let ce := ws.filter fun w => !coversWord a bs.length w && eccOf s w = 1
  let s := ce.foldl (fun t _ => corrected t) (if ce = [] then s else bump Reg.LDG_CE ce.length s)
  let s := (ws.filter (coversWord a bs.length) ++ ce).foldl (fun t w => setEcc w 0 t)
    { s with mem := { s.mem with ledger := putBytes s.mem.ledger off bs } }
  bump2 Reg.LDG_WRITE Reg.LDG_SNAP_WRITE (ceilDiv bs.length 64) s

/-- SECDED on one line of the media (R244, R287). -/
def mediaLine (a : Nat) (s : State) : State × Nat :=
  let ce := (lineWords a).filter fun w => eccOf s w = 1
  let ue := (lineWords a).filter fun w => 2 ≤ eccOf s w
  let s := ce.foldl (fun t _ => corrected t) (if ce = [] then s else bump Reg.LDG_CE ce.length s)
  let s := if ue = [] then ce.foldl (fun t w => setEcc w 0 t) s else s
  if ue = [] then (s, stOK)
  else (contained Reg.LDG_PAGE (pulse Reg.LDG_PAGE 1 (recErr Reg.LDG_PAGE 3 a (bump Reg.LDG_UE 1 s))), stUncorrectable)

/-- Pieces in the media reach home: their bytes are durable. -/
def homePieces (c : LdgCmd) (s : State) : LdgCmd × State :=
  let v := (cmdVol s c).getD 0
  let s := c.inMedia.foldl (fun t k =>
    if c.op = 1 then mediaWrite (mediaAt t v (placeOf t c).1) (recBytes c (placeOf t c).2) t
    else mediaWrite (mediaAt t v (c.off + 32768 * k)) (slice c.data (32768 * k) (min 32768 (c.len - 32768 * k))) t) s
  let c := { c with home := c.home ++ c.inMedia, inMedia := [] }
  (c, setCmd c s)

/-- An APPEND or WRITE whose bytes are all at home has taken effect: a stream's tail, SEQ and chain advance. -/
def commitRecord (c : LdgCmd) (s : State) : State :=
  if c.op ≠ 1 then s else
  match streamOf s c.stream with
  | none => s
  | some x =>
    let p := placeOf s c
    setStream c.stream { x with tail := p.1 + recSize c.len, seq := p.2 + 1, chain := if c.chain then c.hashed else x.chain } s

/-- An APPEND or WRITE in the media commits once its last piece is home; a long WRITE's later pieces enter as the earlier
ones leave. -/
def commitWrite (c : LdgCmd) : Nat → State → State
  | 0, s => s
  | n + 1, s =>
    if c.inMedia = [] then s else
    let place := placeOf s c
    match homePieces c s with
    | (c, s) =>
      if c.home.length = cmdPieces c then
        finishCmd c stOK (if c.op = 1 then place.2 else c.len) (if c.op = 1 then place.1 else 0) (commitRecord c s)
      else
        let s := enterMedia c s
        match s.ldg.cmds.find? fun d => d.id = c.id with
        | some d => commitWrite d n s
        | none => s

/-- A READ's data goes to host memory; after an uncorrectable read its buffer is undefined (R307). -/
def commitRead (c : LdgCmd) (s : State) : State :=
  let a := mediaAt s c.vol c.off
  let frags := c.frags
  let (s, st) := (pieces (0x030000000000 + a) c.len).foldl (fun (r : State × Nat) p =>
    match mediaLine p.1 r.1 with
    | (t, st) => (t, if r.2 = stOK then st else r.2)) (bump Reg.LDG_READ (ceilDiv c.len 64) s, stOK)
  if st ≠ stOK then
    finishCmd c st 0 0 (frags.foldl (fun t f => makeHostUndef f.1 f.2 t) s)
  else
    let s := (frags.foldl (fun (r : State × Nat) f =>
      (ledgerTrips c.inst true f.1 f.2
        (hostWrite c.inst f.1 ((List.range f.2).map fun k => kGet 0 r.1.mem.ledger (a + r.2 + k)) r.1), r.2 + f.2)) (s, 0)).1
    finishCmd c stOK c.len 0 s

/-- A SEAL takes effect after every earlier APPEND, and for a volume every earlier WRITE, that it covers; its table update
is a write of the media (R300, R302). -/
def commitSeal (c : LdgCmd) (s : State) : State :=
  let held := s.ldg.cmds.any fun d => d.id < c.id &&
    (if c.vtarget then (d.op = 1 || d.op = 2) && cmdVol s d = some c.vol else d.op = 1 && d.stream = c.stream)
  if held || !mediaOpen s then s
  else if c.vtarget then
    match volOf s c.vol with
    | some x => finishCmd c stOK 0 0 (setVol c.vol { x with isSealed := true } s)
    | none => s
  else
    match streamOf s c.stream with
    | some x => finishCmd c stOK x.seq x.tail (setStream c.stream { x with isSealed := true } s)
    | none => s

/-- A FLUSH ends once every earlier command of its instance has (R304). -/
def commitFlush (c : LdgCmd) (s : State) : State :=
  if (ldgCmds s c.inst).any fun d => d.id < c.id then s else finishCmd c stOK 0 0 s

/-- A command commits (R303). Writes in the media commit even while the device is halted (R361). -/
def commitX (i k : Nat) (s : State) : State :=
  match (ldgCmds s i)[k]? with
  | none => s
  | some c =>
    match c.phase with
    | .media => pump (commitWrite c 32 s)
    | .started =>
      if !working s then s
      else if c.op = 3 then (if canStart s c then pump (commitRead c s) else s)
      else if c.op = 4 then pump (commitFlush c s)
      else if c.op = 5 then pump (commitSeal c s) else s
    | _ => s

def execLedgerCommit (inst idx : Nat) (s : State) : Host.Outcome State Fault Refusal := .next (commitX inst idx s)

/-- A hash core finishes a block, and the Ledger controller takes up a chained record whose hash has ended (R292, R316). -/
def execHashBlock (s : State) : Host.Outcome State Fault Refusal := .next (pump (hashX s))

/-- A completion that waits for ring space is written (R306). -/
def complWriteX (i : Nat) (s : State) : State :=
  if halted s then s else
  match nextLdgCompl s i with
  | some c => lcqLevel i (writeLdgCompl c s)
  | none => s

def execLedgerCompletionWrite (inst : Nat) (s : State) : Host.Outcome State Fault Refusal := .next (complWriteX inst s)

/-! ### GO (R294, R295) -/

/-- A 64-bit task word. -/
def ldgWord (s : State) (i k : Nat) : Nat := rGet s (Reg.INST_LDG_CMD i (2 * k)) + 2 ^ 32 * rGet s (Reg.INST_LDG_CMD i (2 * k + 1))

/-- The command in the task registers (Table 13.3, R293). -/
def ldgCmdOf (s : State) (i : Nat) : LdgCmd :=
  let w := ldgWord s i 0
  { id := s.ldg.nextId, inst := i, gen := (instOf s i).gen, op := fld w 3 0, ordered := bit w 4, imm := bit w 5, chain := bit w 6,
    intr := bit w 7, vtarget := bit w 8, tag := fld w 31 16, stream := fld w 41 32, vol := fld w 55 48, off := ldgWord s i 1,
    len := fld (ldgWord s i 2) 31 0, nfrag := fld (ldgWord s i 2) 38 32, buf := ldgWord s i 3, rtag := ldgWord s i 4,
    seam := s.seam.num }

/-- Whether a Ledger tag of an instance is in use (R295). -/
def ldgTagUsed (s : State) (i tag : Nat) : Bool :=
  (ldgCmds s i).any (fun c => c.tag = tag) || (ldgCompls s i).any (fun c => c.tag = tag && c.usesTag)
    || (lcqOf s i).tags.contains tag

/-- The outcome that INST_LDG_STATE shows. -/
def ldgState (i outcome : Nat) (accept : Bool) (s : State) : State :=
  setLdg { s.ldg with state := kSet s.ldg.state i (outcome, accept) } s

/-- A dropped GO. -/
def ldgDrop (i code : Nat) (s : State) : State :=
  let pg := Reg.INST_LDG_PAGE i
  pulse pg 2 (recErr pg code 0 (bump (Reg.INST_LDG_DROP i) 1 (ldgState i 3 false s)))

/-- A GO answered BUSY. -/
def ldgBusy (i code : Nat) (s : State) : State :=
  let pg := Reg.INST_LDG_PAGE i
  let s := if code = 0 then s else recErr pg code 0 s
  pulse pg 3 (bump (Reg.INST_LDG_BUSY i) 1 (ldgState i 2 false s))

/-- An accepted command; one whose tag is in use completes at once. -/
def ldgAccept (i : Nat) (s : State) : State :=
  let c := ldgCmdOf s i
  let dup := ldgTagUsed s i c.tag
  let s := ldgState i 1 true (setLdg { s.ldg with nextId := s.ldg.nextId + 1 } s)
  if dup then
    let k : LdgCompl :=
      { id := c.id, inst := i, gen := c.gen, op := if c.op ≤ 5 then c.op else 0, stream := c.stream, tag := c.tag,
        status := stDescInvalid, held := false, group := false, a := 0, b := 0, seam := s.seam.num, intr := c.intr, usesTag := false }
    flushCompls i (setLdg { s.ldg with compl := s.ldg.compl ++ [k] } s)
  else setLdg { s.ldg with cmds := s.ldg.cmds ++ [c] } s

/-- A write of INST_LDG_GO with GO set. -/
def ldgGoX (i : Nat) (s : State) : State :=
  if !hasFunction s i then ldgDrop i 5 s
  else if s.ldg.stopped || halted s then ldgDrop i 1 s
  else match s.dev.mode with
    | .service =>
      if 256 ≤ ldgQueued s i || 16384 ≤ s.ldg.cmds.length + s.ldg.compl.length then ldgBusy i 2 s else ldgAccept i s
    | .drain => ldgBusy i 0 s
    | _ => ldgDrop i 1 s

/-- A write of INST_LDG_GO. -/
def ldgGoEff (i v : Nat) (s : State) : State := if bit v 0 then ldgGoX i s else s

/-- A write of INST_LDG_GO where the task registers hold a command of the kind. -/
def ldgGo (w : Writer) (i op : Nat) (target : Option Bool) (s : State) : State :=
  let x := ldgWord s i 0
  if fld x 3 0 = op && (match target with
      | some t => bit x 8 = t
      | none => true) then acceptWrite w (Reg.INST_LDG_GO i) (ldgGoEff i 1) s else s

def execLedgerAppend (w : Writer) (inst : Nat) (s : State) : Host.Outcome State Fault Refusal := .next (ldgGo w inst 1 none s)
def execLedgerWrite (w : Writer) (inst : Nat) (s : State) : Host.Outcome State Fault Refusal := .next (ldgGo w inst 2 none s)
def execLedgerRead (w : Writer) (inst : Nat) (s : State) : Host.Outcome State Fault Refusal := .next (ldgGo w inst 3 none s)
def execLedgerFlush (w : Writer) (inst : Nat) (s : State) : Host.Outcome State Fault Refusal := .next (ldgGo w inst 4 none s)
def execStreamSeal (w : Writer) (inst : Nat) (s : State) : Host.Outcome State Fault Refusal :=
  .next (ldgGo w inst 5 (some false) s)
def execVolumeSeal (w : Writer) (inst : Nat) (s : State) : Host.Outcome State Fault Refusal :=
  .next (ldgGo w inst 5 (some true) s)

/-! ### The completion ring's registers (R306, R310) -/

/-- A head doorbell. -/
def ldgHeadEff (i v : Nat) (s : State) : State :=
  let head := fld v 15 0
  let n := lcqSize s i
  if n ≤ head then recErr (Reg.INST_LDG_PAGE i) 4 0 s
  else
    let x := lcqOf s i
    let free := releasable n x.tail x.phase head (bit v 16)
    rSet (Reg.INST_LDG_CQ_HEAD i) (v % 2 ^ 17)
      (setLcq i { x with free := free, tags := x.tags.drop (x.tags.length - (n - free)) } s)

def execLedgerCqHead (w : Writer) (inst : Nat) (v : W32) (s : State) : Host.Outcome State Fault Refusal :=
  .next (acceptWrite w (Reg.INST_LDG_CQ_HEAD inst) (ldgHeadEff inst v.toNat) s)

/-- A write of INST_LDG_CQ_CTRL: setting EN starts the ring at lap 0 with every entry and tag released. -/
def ldgCqEff (i v : Nat) (s : State) : State :=
  let was := lcqEn s i
  let s := rSet (Reg.INST_LDG_CQ_CTRL i) (v % 4) s
  if bit v 0 && !was then
    rSet (Reg.INST_LDG_CQ_HEAD i) 0x10000 (setLcq i { free := lcqSize s i } s)
  else s

def execLedgerCqEnable (w : Writer) (inst : Nat) (v : W32) (s : State) : Host.Outcome State Fault Refusal :=
  .next (acceptWrite w (Reg.INST_LDG_CQ_CTRL inst) (ldgCqEff inst v.toNat) s)

/-! ### Management commands (R288 to R290) -/

/-- MiB of an instance's volumes, and of all. -/
def ownedMib (s : State) (i : Nat) : Nat := ((s.ldg.vols.filter fun p => p.2.owner = i).map fun p => p.2.size).sum
def freeMib (s : State) : Nat := 16384 - (s.ldg.vols.map fun p => p.2.size).sum

/-- A command of the controller that names a volume or a stream of it, or a stream. -/
def namesVol (s : State) (v : Nat) : Bool := s.ldg.cmds.any fun c => c.op ≠ 4 && cmdVol s c = some v
def namesStream (s : State) (n : Nat) : Bool :=
  s.ldg.cmds.any fun c => (c.op = 1 || (c.op = 5 && !c.vtarget)) && c.stream = n

/-- Binds a context to a stream's owner, or unbinds one (R289, R290). -/
def bindCtx (owner c : Nat) (s : State) : State := setCtx c { state := .idle, requester := 2, bound := true, owner := owner } s
def unbindCtx (c : Option Nat) (s : State) : State :=
  match c with
  | some k => setCtx k {} s
  | none => s

/-- Zeros are written over a new volume's range. -/
def zeroVol (base size : Nat) (s : State) : State :=
  let lo := base * 2 ^ 20
  let hi := (base + size) * 2 ^ 20
  let a := 0x030000000000
  let s := { s with mem := { s.mem with ledger := s.mem.ledger.filter fun p => !(lo ≤ p.1 && p.1 < hi),
                                        ecc := s.mem.ecc.filter fun p => !(a + lo ≤ 8 * p.1 && 8 * p.1 < a + hi) } }
  bump2 Reg.LDG_WRITE Reg.LDG_SNAP_WRITE (size * 16384) s

/-- VOL_CREATE; its zeros wait while the controller may start no write. -/
def volCreate (s : State) : State × Nat :=
  let v := rFld s Reg.LDG_M_VOL 7 0
  let owner := rFld s Reg.LDG_M_OWNER 10 0
  let base := rFld s Reg.LDG_M_BASE 13 0
  let size := rFld s Reg.LDG_M_SIZE 14 0
  if (volOf s v).isSome || 1024 < owner || size = 0 || 16384 < size then (s, stDescInvalid)
  else if 16384 < base + size || s.ldg.vols.any fun p => p.2.base < base + size && base < p.2.base + p.2.size then
    (s, stLedgerRange)
  else if rFld s (Reg.INST_CUFF_LEDGER owner) 14 0 < ownedMib s owner + size then (s, stQuota)
  else
    let s := if mediaOpen s then zeroVol base size s else setLdg { s.ldg with fill := some (base, size) } s
    (setVol v { owner := owner, base := base, size := size } s, stOK)

/-- VOL_FREE. -/
def volFree (s : State) : State × Nat :=
  let v := rFld s Reg.LDG_M_VOL 7 0
  if (volOf s v).isNone then (s, stDescInvalid)
  else if namesVol s v then (s, stBusy)
  else
    let gone := s.ldg.streams.filter fun p => p.2.vol = v
    let s := gone.foldl (fun t p => unbindCtx p.2.ctx t) s
    (setLdg { s.ldg with vols := kDel s.ldg.vols v, streams := s.ldg.streams.filter fun p => p.2.vol ≠ v } s, stOK)

/-- The seed of a stream. -/
def streamSeed (s : State) : List Byte := (List.range 8).flatMap fun k => toBytes 4 (rGet s (Reg.LDG_M_SEED k))

/-- STREAM_CREATE. -/
def streamCreate (s : State) : State × Nat :=
  let v := rFld s Reg.LDG_M_VOL 7 0
  let n := rFld s Reg.LDG_M_STREAM 9 0
  let c := rFld s Reg.LDG_M_CTX 8 0
  let start := rFld s Reg.LDG_M_START 18 0
  let len := rFld s Reg.LDG_M_LEN 18 0
  match volOf s v with
  | none => (s, stDescInvalid)
  | some x =>
    if (streamOf s n).isSome || (255 < c && c ≠ 0x1FF) then (s, stDescInvalid)
    else if x.isSealed then (s, stLedgerSealed)
    else if x.size * 16 < start + len || len = 0 || s.ldg.streams.any fun p =>
        p.2.vol = v && p.2.start < start + len && start < p.2.start + p.2.len then (s, stLedgerRange)
    else if c ≠ 0x1FF && ((ctxOf s c).state ≠ .free || !capAllows s x.owner c) then (s, stQuota)
    else
      let s := if c ≠ 0x1FF then bindCtx x.owner c s else s
      (setStream n { vol := v, start := start, len := len, tail := start * 65536, seq := 0, chain := streamSeed s,
                     ctx := if c = 0x1FF then none else some c } s, stOK)

/-- STREAM_FREE. -/
def streamFree (s : State) : State × Nat :=
  let n := rFld s Reg.LDG_M_STREAM 9 0
  match streamOf s n with
  | none => (s, stDescInvalid)
  | some x =>
    if namesStream s n then (s, stBusy)
    else
      let s := unbindCtx x.ctx s
      (setLdg { s.ldg with streams := kDel s.ldg.streams n } s, stOK)

/-- A write of LDG_MCMD: the command's checks and effects; RESULT follows at its end. -/
def mcmdEff (v : Nat) (s : State) : State :=
  let op := v % 8
  if op = 0 || 4 < op then s
  else if s.ldg.mrun.isSome then recErr Reg.LDG_PAGE 1 0 s
  else if stagePending s Reg.LDG_PAGE then recErr Reg.LDG_PAGE 2 0 s
  else
    let r := if op = 1 then volCreate s else if op = 2 then volFree s else if op = 3 then streamCreate s else streamFree s
    setLdg { r.1.ldg with mrun := some r.2 } r.1

def execVolCreate (w : Writer) (s : State) : Host.Outcome State Fault Refusal := .next (acceptWrite w Reg.LDG_MCMD (mcmdEff 1) s)
def execVolFree (w : Writer) (s : State) : Host.Outcome State Fault Refusal := .next (acceptWrite w Reg.LDG_MCMD (mcmdEff 2) s)
def execStreamCreate (w : Writer) (s : State) : Host.Outcome State Fault Refusal :=
  .next (acceptWrite w Reg.LDG_MCMD (mcmdEff 3) s)
def execStreamFree (w : Writer) (s : State) : Host.Outcome State Fault Refusal :=
  .next (acceptWrite w Reg.LDG_MCMD (mcmdEff 4) s)

/-- A management command ends: RESULT is set, MBUSY clears and MDONE pulses (R290). One that changes the tables ends only
once the controller may write (R302). -/
def mdoneX (s : State) : State :=
  match s.ldg.mrun with
  | none => s
  | some r =>
    if halted s || (r = stOK && !mediaOpen s) then s else
    let s := match s.ldg.fill with
      | some (base, size) => zeroVol base size (setLdg { s.ldg with fill := none } s)
      | none => s
    pulse Reg.LDG_PAGE 0 (setLdg { s.ldg with mrun := none, mresult := r } s)

def execMdone (s : State) : Host.Outcome State Fault Refusal := .next (mdoneX s)

/-! ### Group commit, power failure, resets and LOCKDOWN (R302, R303, R307 to R309) -/

/-- Instances with Ledger completions not written. -/
def complInsts (s : State) : List Nat := (s.ldg.compl.map (·.inst)).eraseDups

/-- Held completions of commands that committed in frames up to `k` are written, in commit order (step 7 of Table 2.1). -/
def groupCommit (k : Nat) (s : State) : State :=
  let s := releaseHeld (fun c => c.group && c.seam ≤ k) s
  (complInsts s).foldl (fun t i => flushCompls i t) s

/-- Atomic writes in the media finish, without completions. -/
def finishMedia (s : State) : State :=
  s.ldg.cmds.foldl (fun t c =>
    if c.inMedia = [] then t else
    match homePieces c t with
    | (c, t) => if c.home.length = cmdPieces c then dropCmd c (bumpFrame Reg.LDG_SNAP_COMMITS 1 (commitRecord c t)) else t) s

/-- Completions not yet written are lost. -/
def loseCompls (s : State) : State :=
  (complInsts s).foldl (fun t i => lcqLevel i t) (setLdg { s.ldg with compl := [] } s)

/-- PWRFAIL_N acts: writes in the media finish, no other is started, GO is dropped, and completions not yet written are
lost (R302). -/
def powerFail (s : State) : State :=
  let s := loseCompls (finishMedia s)
  setLdg { s.ldg with stopped := true } s

/-- PWRFAIL_N falls: a pulse shorter than the 200 ns filter is not seen, one from there to the 1 µs minimum may be, and
longer ones are (R302, chapter 18). -/
def pwrfailX (ns : Nat) (s : State) : State :=
  let act := fun (s : State) => powerFail { s with dev := { s.dev with pwrfailN := false } }
  if ns < 200 then s
  else if ns < 1000 then
    let (f, s) := takeFree s
    if bit f 0 then act s else s
  else act s

def execPwrfailNFall (lowNs : Nat) (s : State) : Host.Outcome State Fault Refusal := .next (pwrfailX lowNs s)

/-- PWRFAIL_N rises: the pin alone changes; the controller starts again at the next bring-up. -/
def pwrfailRiseX (s : State) : State := { s with dev := { s.dev with pwrfailN := true } }
def execPwrfailNRise (s : State) : Host.Outcome State Fault Refusal := .next (pwrfailRiseX s)

/-- The hold-up store is charged: HOLDUP_OK sets and waiting writes go on. -/
def holdupChargedX (s : State) : State := pump (setLdg { s.ldg with holdup := true } s)
def execHoldupCharged (s : State) : Host.Outcome State Fault Refusal := .next (holdupChargedX s)

/-- Ends every Ledger command of an instance at its reset; what is discarded is counted (R234, R308). -/
def ldgReset (i : Nat) (s : State) : State :=
  let n := ldgQueued s i
  let s := (ldgCmds s i).foldl (fun t c =>
    if c.inMedia = [] then
      let t := if c.phase = .hashing then
          match (streamOf t c.stream).bind (·.ctx) with
          | some k => bindCtx (ctxOf t k).owner k t
          | none => t
        else t
      dropCmd c t
    else
      let (f, t) := takeFree t
      match homePieces { c with inMedia := c.inMedia.filter fun k => bit f k } t with
      | (c, t) => dropCmd c (if c.home.length = cmdPieces c then commitRecord c t else t)) s
  let s := setLdg { s.ldg with compl := s.ldg.compl.filter fun c => c.inst ≠ i, cq := kDel s.ldg.cq i, state := kDel s.ldg.state i } s
  let pg := Reg.INST_RING_PAGE i
  pump (if n = 0 then s else pulse pg 2 (bump (Reg.INST_GEN_DISCARD i) n s))

/-- The status with which LOCKDOWN ends a command that is not in the media: DIGEST_STATE_CLEARED for one whose context a wipe
has cleared under it (R307, R309). -/
def lockdownStatus (c : LdgCmd) (s : State) : Nat :=
  if c.phase = .hashing && ((streamOf s c.stream).bind (·.ctx)).any fun k => (ctxOf s k).state = .cleared then stDigestCleared
  else stLockdown

/-- LOCKDOWN: commands not in the media end, writes in the media finish, and completions are written as far as the rings
have room (R309, R354). -/
def ldgLockdown (s : State) : State :=
  let s := s.ldg.cmds.foldl (fun t c => if c.inMedia = [] then finishCmd c (lockdownStatus c t) 0 0 t else t) s
  let s := s.ldg.cmds.foldl (fun t c =>
    let place := placeOf t c
    match homePieces c t with
    | (c, t) =>
      if c.home.length = cmdPieces c then
        finishCmd c stOK (if c.op = 1 then place.2 else c.len) (if c.op = 1 then place.1 else 0) (commitRecord c t)
      else dropCmd c t) s
  loseCompls (groupCommit s.seam.num s)

/-- At the next bring-up tables are loaded, the replay finds nothing, and streams' contexts are bound again (R289, R302). -/
def ldgBoot (s : State) : State :=
  let s := holdupLevel (setLdg { s.ldg with ready := true, stopped := false } s)
  s.ldg.streams.foldl (fun t p =>
    match p.2.ctx with
    | some k => bindCtx (((volOf t p.2.vol).map (·.owner)).getD 0) k t
    | none => t) s

/-! ### Words that reads form -/

def ldgStateWord (s : State) (i : Nat) : Nat :=
  let x := kGet (0, false) s.ldg.state i
  x.1 + 4 * b2n x.2 + 2 ^ 8 * ldgQueued s i

/-- The stream INST_LDG_SSEL names, if its volume is the instance's. -/
def ldgSel (s : State) (i : Nat) : Option LogStream :=
  match streamOf s (rFld s (Reg.INST_LDG_SSEL i) 9 0) with
  | some x => if (volOf s x.vol).map (·.owner) = some i then some x else none
  | none => none

/-- Its tail and next SEQ as placed. -/
def ldgPlaced (s : State) (i : Nat) : Nat × Nat :=
  match ldgSel s i with
  | some x => placeAfter x ((ldgCmds s i).filter fun d => d.op = 1 && d.stream = rFld s (Reg.INST_LDG_SSEL i) 9 0)
  | none => (0, 0)

def ldgSstate (s : State) (i : Nat) : Nat :=
  match ldgSel s i with
  | some x => 1 + 2 * b2n (x.isSealed || ((volOf s x.vol).map (·.isSealed)).getD false) + 4 * b2n x.ctx.isSome + 8 * x.vol
  | none => 0

/-- INST_LDG_HELD and INST_LDG_CQ_TAIL. -/
def ldgHeldWord (s : State) (i : Nat) : Nat := (ldgCompls s i).length
def ldgTailWord (s : State) (i : Nat) : Nat := (lcqOf s i).tail + 2 ^ 16 * b2n (lcqOf s i).phase

end Sys2Proof.Machine
end

