-- ==== Sys2Proof/Machine/Reset.lean ====
section
/-! DEFINITION. Instance resets, mode changes, entry to LOCKDOWN, tamper events and device resets (R234, R308, R326, R348,
R349, R354). -/

namespace Sys2Proof.Machine

/-! ### Instance reset (R234) -/

/-- Whether a register address keeps its value across an instance's reset: GEN_DISCARD, each page's WRITE_GEN and the MSI-X
table. -/
def keptAt (i a : Nat) : Bool :=
  !(instBase i ≤ a && a < instBase i + 0x10000) || a = Reg.INST_GEN_DISCARD i
    || (a < instBase i + 0x6000 && a % 0x1000 = 0x34)
    || (instBase i + 0x6000 ≤ a && a < instBase i + 0x7000)

/-- The registers of an instance's window return to their reset values. -/
def resetWindow (i : Nat) (s : State) : State :=
  let keep := fun {α : Type} (m : KMap α) => m.filter fun p => keptAt i p.1
  { s with rf := { s.rf with val := keep s.rf.val, pend := keep s.rf.pend, await := keep s.rf.await, frame := keep s.rf.frame,
                             closed := keep s.rf.closed } }

/-- A completion of an older generation is discarded inside the device and counted. -/
def discardCompl (i : Nat) (c : Compl) (s : State) : State :=
  pulse (Reg.INST_RING_PAGE i) 2 (bump (Reg.INST_GEN_DISCARD i) 1 (handOver c s))

/-- What the Collar and the other blocks hold for an instance goes: rings, Patterns, Match Array command, translations. -/
def dropInst (i : Nat) (s : State) : State :=
  let mine := fun (n : Nat) (k : Nat) => k / n = i
  let s := { s with rings := { s.rings with jr := s.rings.jr.filter fun p => !mine 8 p.1,
                                            cr := s.rings.cr.filter fun p => !mine 4 p.1 },
                    pat := { slots := s.pat.slots.filter fun p => !mine 64 p.1, cmds := kDel s.pat.cmds i },
                    xl := { s.xl with stopped := s.xl.stopped.filter (· ≠ i) } }
  tlbDropAll (fun e => e.inst = i) (maStop i s)

/-- The reset of an instance. -/
def instReset (i : Nat) (s : State) : State :=
  let x := instOf s i
  let tags := tagsInUse s i
  let s := resetWindow i s
  let s := setInst i { gen := (x.gen + 1) % 256, resetting := true, oldTags := tags } s
  let s := x.compl.foldl (fun t c => discardCompl i c t) s
  let s := endInstJobs i stInstReset s
  resetChans i (dropInst i (ldgReset i s))

/-- An instance reset of an instance that exists, in a mode in which the Collar runs. -/
def instanceResetX (i : Nat) (s : State) : State :=
  if i < numInst && !dead s then instReset i s else s

def execInstanceReset (inst : Nat) (s : State) : Host.Outcome State Fault Refusal := .next (instanceResetX inst s)

/-- An instance reset ends once every job record of the old generation is free. -/
def instanceResetEndX (i : Nat) (s : State) : State :=
  if (instOf s i).resetting && !((instJobs s i).any fun p => p.2.gen ≠ (instOf s i).gen) then
    setInst i { instOf s i with resetting := false, oldTags := [] } s
  else s

def execInstanceResetEnd (inst : Nat) (s : State) : Host.Outcome State Fault Refusal := .next (instanceResetEndX inst s)

/-! ### Mode changes (R348) -/

/-- A completed change of mode: IRQ_STATUS.MODE, mirror word 1 and the MODE in-band interrupt. -/
def changeMode (m : Mode) (s : State) : State :=
  raiseIbi 2 (pulse Reg.DEV_PAGE 0 { s with dev := { s.dev with mode := m, target := 0, retainReq := false, wakeTo := 0, wakeAt := none } })

/-! ### LOCKDOWN (R309, R354) -/

/-- Every job ends with DEVICE_LOCKDOWN; a save under way is dropped with its task. -/
def lockdownJobs (s : State) : State :=
  let s := s.sched.jobs.foldl (fun t p => endJob p.1 stLockdown t) s
  s.sched.tasks.foldl (fun t p =>
    if p.2.state = .saving || p.2.doomed then
      settleJob p.2.job (setTask p.1 { p.2 with state := .free } (freePocket p.2.runPocket t))
    else t) s

/-- Pending completions are written as far as rings have room. -/
def lockdownCompls (s : State) : State :=
  s.rings.inst.foldl (fun t p => forN (2 * p.2.compl.length) t fun _ u => completionX p.1 u) s

/-- Sixteen bytes from the entropy source. -/
def drawNonce (s : State) : State :=
  let (bs, s) := (List.range 16).foldl (fun (r : List Byte × State) _ =>
    let (f, t) := takeFree r.2
    (r.1 ++ [BitVec.ofNat 8 f], t)) ([], s)
  { s with dev := { s.dev with nonce := bs } }

/-- The Collar and the frame controller stop; what is left of jobs and completions is lost. -/
def lockdownStop (s : State) : State :=
  { s with seam := { s.seam with running := false, edgeTick := none }, sched := { s.sched with jobs := [] },
           rings := { s.rings with inst := s.rings.inst.map fun p => (p.1, { p.2 with compl := [] }) } }

/-- An activation and a built-in test under way are dropped. -/
def lockdownDev (s : State) : State := { s with dev := { s.dev with activating := false, diagBusy := none } }

/-- Entry to LOCKDOWN: jobs and unstarted Ledger commands end, completions are written where there is room, the rest are
lost, and Collar, Pockets, units and frame controller stop. -/
def enterLockdown (s : State) : State :=
  changeMode .lockdown (lockdownDev (drawNonce (lockdownStop (lockdownCompls (ldgLockdown (lockdownJobs s))))))

/-- A tamper source fires (R326): masked sources do nothing; source 4 is a parity error of the Lining itself (R325). -/
def tamperX (src : Nat) (s : State) : State :=
  if dead s then s
  else if src = 4 then liningParity s
  else if 4 < src || bit s.ln.mask src then s
  else
    let s := raiseIbi 3 (tamperLatch src s)
    if s.dev.mode = .lockdown then s else enterLockdown s

def execTamperEvent (src : Nat) (s : State) : Host.Outcome State Fault Refusal := .next (tamperX src s)

/-! ### Device reset (R349) -/

/-- What a device reset keeps of the device state: pins, fuses, the flash configuration and what the part is. -/
def keptDev (d : DevSt) : DevSt :=
  { mode := .reset, thermtrip := d.thermtrip, pwrok := d.pwrok, resetN := d.resetN, pwrfailN := d.pwrfailN, straps := d.straps,
    bootAt := d.bootAt, fuseSplit := d.fuseSplit, fuseLc := d.fuseLc, flashWinBase := d.flashWinBase,
    flashWinSize := d.flashWinSize, flashVlim := d.flashVlim, serial := d.serial, orderCode := d.orderCode,
    fwVersion := d.fwVersion, vendorId := d.vendorId, mipiId := d.mipiId, dieNumber := d.dieNumber, devC := d.devC, devD := d.devD,
    vreg0 := d.vreg0, vreg1 := d.vreg1 }

/-- A device reset takes hold. Registers return to their reset values, memories become undefined, and the Ledger Store
with its volumes and streams is kept. `tamper` keeps TAMPER and its sources, which only a power cycle or a signed
release clears (R327). -/
def deviceReset (tamper : Bool) (s : State) : State :=
  { now := s.now, freeCtr := s.freeCtr + 1,
    mem := { undef := resetUndef s.freeCtr, ledger := s.mem.ledger, host := s.mem.host, hundef := s.mem.hundef,
             ecc := s.mem.ecc.filter fun p => 0x030000000000 ≤ 8 * p.1 && 8 * p.1 < 0x030400000000 },
    portA := { perst := s.portA.perst }, portB := { perst := s.portB.perst },
    dev := keptDev s.dev, pwr := { vout := s.pwr.vout },
    ln := if tamper then { tamper := s.ln.tamper, src := s.ln.src } else {},
    ldg := { vols := s.ldg.vols, streams := s.ldg.streams }, out := s.out, pending := s.pending }

/-- The device leaves RESET for BRINGUP. -/
def leaveReset (s : State) : State :=
  { s with dev := { s.dev with mode := .bringup } }

/-- PWROK rises: straps are sampled, and with RESET_N high the device leaves RESET (R345, R349). -/
def pwrokRiseX (straps : Nat) (s : State) : State :=
  if s.dev.pwrok then s else
  let s := { s with dev := { s.dev with pwrok := true, straps := straps % 16, bootAt := s.now } }
  if s.dev.resetN then leaveReset s else s

def execPwrokRise (straps : Nat) (s : State) : Host.Outcome State Fault Refusal := .next (pwrokRiseX straps s)

/-- PWROK falls: the hold-up energy finishes the writes in the media, and the reset takes hold at once (R302, R349). -/
def pwrokFallX (s : State) : State :=
  if !s.dev.pwrok then s else
  let s := deviceReset false (finishMedia s)
  { s with dev := { s.dev with pwrok := false, thermtrip := false }, pwr := {} }

def execPwrokFall (s : State) : Host.Outcome State Fault Refusal := .next (pwrokFallX s)

/-- RESET_N falls: with PWROK high it acts on the Ledger Store as a fall of PWRFAIL_N (R349). -/
def resetNFallX (s : State) : State :=
  if !s.dev.resetN then s else
  let s := { s with dev := { s.dev with resetN := false } }
  if s.dev.pwrok && !dead s then
    powerFail { s with dev := { s.dev with resetFell := some (s.dev.resetFell.getD s.now) } }
  else s

def execResetNFall (s : State) : Host.Outcome State Fault Refusal := .next (resetNFallX s)

/-- A reset by RESET_N takes hold; a RESET_N that has risen meanwhile lets the device leave it at once (Table 18.9). Once
THERMTRIP has stopped the clocks only a power cycle follows (R359). -/
def resetHoldX (s : State) : State :=
  if s.dev.resetFell.isNone || s.dev.thermtrip then s else
  let s := deviceReset true s
  if s.dev.resetN then leaveReset s else s

def execResetTakesHold (s : State) : Host.Outcome State Fault Refusal := .next (resetHoldX s)

/-- RESET_N rises. -/
def resetNRiseX (s : State) : State :=
  let s := { s with dev := { s.dev with resetN := true } }
  if s.dev.mode = .reset && s.dev.pwrok then leaveReset s else s

def execResetNRise (s : State) : Host.Outcome State Fault Refusal := .next (resetNRiseX s)

/-! ### Life-cycle (R328) -/

/-- The transitions of Table 14.6. -/
def lcAllowed (a b : Nat) : Bool :=
  match a, b with
  | 0, 1 => true
  | 0, 4 => true
  | 1, 2 => true
  | 1, 4 => true
  | 2, 3 => true
  | 2, 4 => true
  | 3, 4 => true
  | _, _ => false

/-- A life-cycle transition that the signed firmware has verified: the Lining is wiped, the fuses are programmed, and the
device resets into BRINGUP. -/
def lifeCycleX (target : Nat) (verified : Bool) (s : State) : State :=
  if !verified || !s.dev.fwUp || halted s || dead s || !lcAllowed s.dev.fuseLc target then s else
  leaveReset (deviceReset true (finishMedia (wipeLining { s with dev := { s.dev with fuseLc := target } })))

def execLifeCycleTransition (target : Nat) (verified : Bool) (s : State) : Host.Outcome State Fault Refusal :=
  .next (lifeCycleX target verified s)

end Sys2Proof.Machine
end

