-- ==== Sys2Proof/Machine/Modes.lean ====
section
/-! DEFINITION. Bring-up, mode requests, firmware staging, built-in tests, release from LOCKDOWN, and the fatal errors of the
management stop (R346 to R354, R361). -/

namespace Sys2Proof.Machine

/-! ### Bring-up (R346, R347) -/

/-- The bounds of a monitor at ±3 % of a set point in mV, within the tolerance to a whole mV (R383, R386). -/
def boundsOf (mv : Nat) : Nat := (97 * mv + 99) / 100 + 65536 * (103 * mv / 100)

/-- Whether the regulator of a die's Pocket supply answers at its static address (R386). -/
def vregOf (s : State) (d : Nat) : Bool := if d = 0 then s.dev.vreg0 else s.dev.vreg1

/-- The set point of a die's Pocket supply: 900 mV at power-up. -/
def voutOf (s : State) (d : Nat) : Nat := kGet 900 s.pwr.vout d

/-- The signed configuration in flash is loaded: the CXL.mem window and the voltage bounds (R337, R358). The bounds of a Pocket
supply follow its set point where a reset has left another than 0.90 V, and are those of 0.90 V where its regulator does not
answer (R383, R386). -/
def loadFlash (s : State) : State :=
  let s := rSet (Reg.HIF_CXLWIN_SIZE 0) s.dev.flashWinSize (rSet (Reg.HIF_CXLWIN_BASE 0) s.dev.flashWinBase s)
  let s := s.dev.flashVlim.foldl (fun t p => rSet (Reg.HLT_VLIM p.1) p.2.toNat t) s
  forN 2 s fun d t => if vregOf t d && voutOf t d = 900 then t else rSet (Reg.HLT_VLIM (2 + d)) (boundsOf (if vregOf t d then voutOf t d else 900)) t

/-- The SPDM 1.2 requests of Table 15.3, by request code. -/
def spdmKnown : List Nat := [0x84, 0xE1, 0xE3, 0x81, 0x82, 0x83, 0xE0, 0xE4, 0xE5, 0xE8, 0xE9, 0xEC]

/-- Where a session's secrets lie in the secure scratch of the Lining (R325). -/
def secretAt (p : HostPort) (id : Nat) : Nat := 256 * portIx p + 64 * id

/-- A session's secrets are drawn, or zeroed. -/
def drawSecret (p : HostPort) (id : Nat) (s : State) : State :=
  let bs := (List.range 64).map (Config.freeByte s.freeCtr)
  { s with freeCtr := s.freeCtr + 1, ln := { s.ln with scratch := putBytes s.ln.scratch (secretAt p id) bs } }
def zeroSecret (p : HostPort) (id : Nat) (s : State) : State :=
  { s with ln := { s.ln with scratch := putBytes s.ln.scratch (secretAt p id) (List.replicate 64 0) } }

/-- An SPDM ERROR with an error code: 1 InvalidRequest, 3 Busy, 4 UnexpectedRequest, 7 UnsupportedRequest,
0x0A SessionLimitExceeded (PRESUMED from SPDM 1.2, notes/assumptions/54.md). -/
def spdmError (p : HostPort) (code : Nat) (s : State) : State := emit (.spdm p 0x7F code []) s

/-- The five measurements of Table 15.3. -/
def measurements (s : State) : List Nat :=
  [Config.measurement 1 [], Config.measurement 2 [s.dev.fwVersion, s.dev.bankRun], Config.measurement 3 [],
   Config.measurement 4 [splitOf s, s.dev.fuseLc], Config.measurement 5 [s.dev.straps]]

/-- What a request without a session answers with: version 1.2; ECDSA P-384, SHA-384, secp384r1 and AES-256-GCM as bits of
their SPDM registries; slot 0; the measurements. -/
def spdmBody (code : Nat) (s : State) : List Nat :=
  if code = 0x84 then [0x12]
  else if code = 0xE3 then [0x80, 2, 0x10, 2]
  else if code = 0x81 then [1]
  else if code = 0xE0 then measurements s
  else []

/-- The session requests: KEY_EXCHANGE takes the lowest free of a port's 4 sessions, FINISH opens it, HEARTBEAT and
KEY_UPDATE need it open, and END_SESSION ends it with its secrets. -/
def spdmSession (p : HostPort) (code id : Nat) (s : State) : State :=
  let x := port s p
  let answer := fun (id : Nat) (s : State) => emit (.spdm p (code - 0x80) id []) s
  if code = 0xE4 then
    match (List.range 4).find? fun k => !(x.sessions.any fun y => y.id = k) with
    | none => spdmError p 0x0A s
    | some k => answer k (drawSecret p k (setPort p { x with sessions := x.sessions ++ [⟨k, false⟩] } s))
  else
    match x.sessions.find? fun y => y.id = id with
    | none => spdmError p 4 s
    | some y =>
      if y.open_ = (code = 0xE5 : Bool) then spdmError p 4 s
      else if code = 0xE5 then
        answer id (setPort p { x with sessions := x.sessions.map fun z => if z.id = id then ⟨id, true⟩ else z } s)
      else if code = 0xE9 then answer id (drawSecret p id s)
      else if code = 0xEC then
        answer id (zeroSecret p id (setPort p { x with sessions := x.sessions.filter fun z => z.id ≠ id } s))
      else answer id s

/-- The management firmware answers an SPDM request: ERROR Busy while the Lining is wiped, ERROR for a request that is not
supported or a certificate slot but 0, else with the request's own response (R335). -/
def spdmAnswer (p : HostPort) (code param : Nat) (s : State) : State :=
  if s.ln.wiping then spdmError p 3 s
  else if !spdmKnown.contains code then spdmError p 7 s
  else if 0xE4 ≤ code then spdmSession p code param s
  else if (code = 0x82 || code = 0x83 || code = 0xE0) && param ≠ 0 then spdmError p 1 s
  else emit (.spdm p (code - 0x80) param (spdmBody code s)) s

/-- The requests that wait in a port's mailbox are answered. -/
def spdmDrain (p : HostPort) (s : State) : State :=
  let q := (port s p).doe
  q.foldl (fun t c => spdmAnswer p c.1 c.2 t) (setPort p { port s p with doe := [] } s)

/-- BOOT_ROM_END: the boot ROM has tried the bank that BOOT_SEL0 names, then the other; `b0` and `b1` are what trying each
bank gives (1 good). With both bad the device stays in BRINGUP (R347). -/
def bootRomX (b0 b1 : Nat) (s : State) : State :=
  if s.dev.mode ≠ .bringup || s.dev.fwUp || s.dev.bank0 ≠ 0 || s.dev.bank1 ≠ 0 then s else
  let s := rSet Reg.MGT_BOOT_ROM (bootUs s) s
  let second := bit s.dev.straps 0
  let r0 := if second && b1 = 1 then 0 else b0 % 16
  let r1 := if !second && b0 = 1 then 0 else b1 % 16
  let up := r0 = 1 || r1 = 1
  let s := { s with dev := { s.dev with bank0 := r0, bank1 := r1, bankRun := if up then b2n (r0 ≠ 1) else 0, fwUp := up } }
  if up then spdmDrain .b (spdmDrain .a (loadFlash s)) else s

def execBootRomEnd (b0 b1 : Nat) (s : State) : Host.Outcome State Fault Refusal := .next (bootRomX b0 b1 s)

/-- The I3C target takes part in the bus (R339). -/
def i3cEnableX (s : State) : State :=
  if dead s then s else { s with i3c := { s.i3c with ready := true } }

def execI3cTargetEnable (s : State) : Host.Outcome State Fault Refusal := .next (i3cEnableX s)

/-- The firmware releases the modules' resets (R338). -/
def moduleReleaseX (s : State) : State :=
  if dead s || !s.dev.fwUp then s
  else setCxt 1 { cxtOf s 1 with rstHeld := false } (setCxt 0 { cxtOf s 0 with rstHeld := false } s)

def execModuleResetRelease (s : State) : Host.Outcome State Fault Refusal := .next (moduleReleaseX s)

/-- Mirror words written at entry to CONFIGURE: ordering code, serial number, firmware version, life-cycle and stepping
(Table 15.6). -/
def mirrorIdentity (s : State) : State :=
  let put := fun (w : Nat) (n : Nat) (bs : List Byte) (s : State) =>
    forN n s fun k t => rSet (Reg.MGT_MIRROR (w + k)) (ofBytes ((bs.drop (4 * k)).take 4)) t
  let s := put 40 4 s.dev.serial (put 32 8 s.dev.orderCode s)
  let s := put 44 2 (toBytes 8 s.dev.fwVersion) s
  rSet (Reg.MGT_MIRROR 46) (s.dev.fuseLc + 0xB000) s

/-- Bring-up ends: the device enters CONFIGURE and the frame controller starts counting (R17, R346). -/
def bringupX (s : State) : State :=
  if s.dev.mode ≠ .bringup || !s.dev.fwUp || halted s then s else
  let s := ldgBoot (rSet Reg.MGT_BOOT_CONFIG (bootUs s) s)
  let s := { s with seam := { s.seam with num := 0, running := true, lastTick := s.now, frameOpen := s.now, stealsFrom := s.now, edgeTick := none },
                    dev := { s.dev with memInfo := true, memActive := true, rangeGib := rFld s (Reg.HIF_CXLWIN_SIZE 0) 6 0 },
                    pwr := { s.pwr with estimates := [], windows := [], nWindows := 0 } }
  changeMode .configure (mirrorIdentity s)

def execBringupComplete (s : State) : Host.Outcome State Fault Refusal := .next (bringupX s)

/-! ### Mode requests (R348, Table 16.2) -/

/-- A refused request. -/
def refuseReq (code : Nat) (s : State) : State := recErr Reg.DEV_PAGE code 0 s

/-- Whether an earlier request is still being carried out, for a new request `m`. -/
def reqBusy (s : State) (m : Nat) : Bool :=
  s.dev.retainReq || s.dev.wakeTo ≠ 0 || s.dev.activating || (s.dev.mode = .drain && m ≠ 3)

/-- Enters DRAIN with a target. -/
def startDrain (target : Nat) (s : State) : State :=
  let s := changeMode .drain s
  { s with dev := { s.dev with target := target } }

/-- A write of DEV_MODE_REQ. -/
def modeReqEff (m : Nat) (s : State) : State :=
  if halted s then refuseReq 1 s
  else if reqBusy s m then refuseReq 2 s
  else if m = 8 && !s.dev.fwStaged then refuseReq 3 s
  else match s.dev.mode with
    | .configure =>
      if m = 3 && saveBaseSet s then changeMode .service s
      else if m = 5 then { s with dev := { s.dev with retainReq := true } }
      else if m = 6 then changeMode .diagnose s
      else refuseReq 1 s
    | .service => if m = 2 || m = 5 || m = 6 || m = 8 then startDrain m s else refuseReq 1 s
    | .drain => if m = 3 then changeMode .service s else refuseReq 1 s
    | .retain => if m = 2 || (m = 3 && saveBaseSet s) then { s with dev := { s.dev with wakeTo := m } } else refuseReq 1 s
    | .diagnose => if m = 2 && s.dev.diagBusy.isNone then changeMode .configure s else refuseReq 1 s
    | _ => refuseReq 1 s

/-- A write of DEV_MODE_REQ with a mode. -/
def modeReq (w : Writer) (m : Nat) (s : State) : State := acceptWrite w Reg.DEV_MODE_REQ (modeReqEff m) s

def execModeRequestConfigure (w : Writer) (s : State) : Host.Outcome State Fault Refusal := .next (modeReq w 2 s)
def execModeRequestService (w : Writer) (s : State) : Host.Outcome State Fault Refusal := .next (modeReq w 3 s)
def execModeRequestRetain (w : Writer) (s : State) : Host.Outcome State Fault Refusal := .next (modeReq w 5 s)
def execModeRequestDiagnose (w : Writer) (s : State) : Host.Outcome State Fault Refusal := .next (modeReq w 6 s)
def execActivate (w : Writer) (s : State) : Host.Outcome State Fault Refusal := .next (modeReq w 8 s)

/-! ### Firmware (R351) -/

/-- The firmware restarts from the staged bank, or the running one where the image fails; the device enters SERVICE. -/
def activationX (ok : Bool) (s : State) : State :=
  if !s.dev.activating || halted s then s else
  let (v, s) := if ok then takeFree s else (s.dev.fwVersion, s)
  let d := { s.dev with activating := false, fwStaged := false, fwVersion := v % 2 ^ 64,
                        bankRun := if ok then 1 - s.dev.bankRun else s.dev.bankRun,
                        fwResult := if ok then s.dev.fwResult else 2 }
  mirrorIdentity (changeMode .service { s with dev := d })

def execActivationRestart (ok : Bool) (s : State) : Host.Outcome State Fault Refusal := .next (activationX ok s)

/-- A write of DEV_FW_CMD. -/
def fwCmdEff (v : Nat) (s : State) : State :=
  if v % 4 ≠ 1 then s
  else if s.dev.fwBusy then refuseReq 3 s
  else if stagePending s Reg.DEV_PAGE then refuseReq 4 s
  else { s with dev := { s.dev with fwBusy := true, fwStaged := false } }

def execFwStage (w : Writer) (v : W32) (s : State) : Host.Outcome State Fault Refusal :=
  .next (acceptWrite w Reg.DEV_FW_CMD (fwCmdEff v.toNat) s)

/-- Staging ends with a result (1 good); an image length outside its range gives 3 (Table 16.9). -/
def fwDoneX (r : Nat) (s : State) : State :=
  if !s.dev.fwBusy || dead s then s else
  let len := rFld s Reg.DEV_FW_LEN 24 0
  let r := if len = 0 || 16777216 < len then 3 else r
  pulse Reg.DEV_PAGE 3 { s with dev := { s.dev with fwBusy := false, fwResult := r % 256, fwStaged := r = 1 } }

def execFwStageDone (result : Nat) (s : State) : Host.Outcome State Fault Refusal := .next (fwDoneX result s)

/-! ### Built-in tests (R353) -/

/-- Whether Table 16.3 has a test of a unit. -/
def diagKnown (test unit : Nat) : Bool :=
  test = 1 || test = 2 || (test = 3 && unit < 4) || test = 4 || (test = 5 && unit < 2)

/-- The stops of a stack are taken out of reach for a test, or given back. -/
def setTesting (k : Nat) (v : Bool) (s : State) : State :=
  [2 * k, 2 * k + 1].foldl (fun t h => setHmc h { hmcOf t h with testing := v } t) s

/-- A write of DEV_DIAG_CMD. -/
def diagEff (test unit : Nat) (s : State) : State :=
  if s.dev.mode ≠ .diagnose || halted s then s
  else if s.dev.diagBusy.isSome then refuseReq 3 s
  else if !diagKnown test unit then s
  else
    let s := { s with dev := { s.dev with diagBusy := some test, diagUnit := unit } }
    if test = 3 then setTesting unit true s
    else if test = 5 then setCxt unit { cxtOf s unit with linkUp := false } s
    else s

/-- A write of DEV_DIAG_CMD with a test and unit. -/
def diagCmd (w : Writer) (test unit : Nat) (s : State) : State := acceptWrite w Reg.DEV_DIAG_CMD (diagEff test (unit % 16)) s

def execTestPanelMarch (w : Writer) (s : State) : Host.Outcome State Fault Refusal := .next (diagCmd w 1 0 s)
def execTestMeshLinks (w : Writer) (s : State) : Host.Outcome State Fault Refusal := .next (diagCmd w 2 0 s)
def execTestHbmMarch (w : Writer) (unit : Nat) (s : State) : Host.Outcome State Fault Refusal := .next (diagCmd w 3 unit s)
def execTestMatchArrayMarch (w : Writer) (s : State) : Host.Outcome State Fault Refusal := .next (diagCmd w 4 0 s)
def execTestCxlLoopback (w : Writer) (unit : Nat) (s : State) : Host.Outcome State Fault Refusal := .next (diagCmd w 5 unit s)

/-- The memory a stack holds is zeros with good check bits. -/
def zeroStack (k : Nat) (s : State) : State :=
  let lo := 2 * k * stopBytes
  let hi := 2 * (k + 1) * stopBytes
  let cutLo := fun (u : Nat × Nat × Nat) => if u.1 < lo then [(u.1, min (u.1 + u.2.1) lo - u.1, u.2.2)] else []
  let cutHi := fun (u : Nat × Nat × Nat) => if hi < u.1 + u.2.1 then [(max u.1 hi, u.1 + u.2.1 - max u.1 hi, u.2.2)] else []
  { s with mem := { s.mem with dev := s.mem.dev.filter fun c => !(lo ≤ c.1 && c.1 < hi),
                               ecc := s.mem.ecc.filter fun c => !(lo ≤ 8 * c.1 && 8 * c.1 < hi),
                               undef := s.mem.undef.flatMap fun u =>
                                 (cutLo u ++ cutHi u).filter fun r => r.2.1 ≠ 0 } }

/-- The memories a test covers hold zeros when it ends. -/
def diagClear (test unit : Nat) (s : State) : State :=
  if test = 1 then forN 32 s zeroPanel
  else if test = 3 then setTesting unit false (zeroStack unit s)
  else if test = 4 then suspectLevel (setMa { s.ma with entries := [] } s)
  else s

/-- A built-in test ends. -/
def diagDoneX (errors failUnit : Nat) (s : State) : State :=
  match s.dev.diagBusy with
  | none => s
  | some t =>
    if halted s then s else
    let s := diagClear t s.dev.diagUnit s
    pulse Reg.DEV_PAGE 4
      { s with dev := { s.dev with diagBusy := none, diagResult := if errors = 0 then 1 else 2, diagErrs := min errors 65535,
                                   diagFail := if errors = 0 || t = 5 then 0 else failUnit % 256 } }

def execDiagDone (errors failUnit : Nat) (s : State) : Host.Outcome State Fault Refusal := .next (diagDoneX errors failUnit s)

/-! ### Release (R354) -/

/-- The bytes of DEV_REL_TOKEN. -/
def relToken (s : State) : List Byte := (List.range 32).flatMap fun k => toBytes 4 (rGet s (Reg.DEV_REL_TOKEN k))

/-- A serial number as mirror words 40 to 43 hold it. -/
def serial16 (s : State) : List Byte := (s.dev.serial ++ List.replicate 16 0).take 16

/-- A write of DEV_REL_CMD: a good token resets the device, another is counted and the nonce replaced. -/
def relEff (v : Nat) (s : State) : State :=
  if !bit v 0 || s.dev.mode ≠ .lockdown || !s.dev.fwUp then s else
  let t := relToken s
  if t.take 16 = s.dev.nonce && (t.drop 16).take 16 = serial16 s && Config.signatureGood (t.take 32) (t.drop 32) then
    leaveReset (deviceReset false (finishMedia s))
  else
    drawNonce { s with dev := { s.dev with relResult := 2, attempts := min (s.dev.attempts + 1) 255 } }

def execReleaseToken (w : Writer) (v : W32) (s : State) : Host.Outcome State Fault Refusal :=
  .next (acceptWrite w Reg.DEV_REL_CMD (relEff v.toNat) s)

/-! ### Fatal errors (Table 16.7) -/

/-- The management core goes 100 ms without service. -/
def watchdogX (s : State) : State := if dead s then s else fatalErr Reg.DEV_PAGE 3 s
def execWatchdogExpiry (s : State) : Host.Outcome State Fault Refusal := .next (watchdogX s)

/-- A reference clock is missing for 10 µs while PWROK is high (R387). -/
def refclkX (s : State) : State := if dead s || !s.dev.pwrok then s else fatalErr Reg.DEV_PAGE 5 s
def execRefclkLoss (s : State) : Host.Outcome State Fault Refusal := .next (refclkX s)

/-! ### Words that reads of the DEV page form (Table 16.9) -/

def devModeWord (s : State) : Nat :=
  s.dev.mode.num + 16 * s.dev.target + 256 * b2n s.dev.activating + 512 * b2n (s.dev.fatal ≠ 0)
def devBootWord (s : State) : Nat := s.dev.bank0 + 16 * s.dev.bank1 + 256 * s.dev.bankRun
def devLastErrWord (s : State) : Nat := s.dev.lastErrPage % 4096 + 4096 * (s.dev.lastErrCode % 256) + 2 ^ 20 * s.dev.lastErrClass
def devFwWord (s : State) : Nat := b2n s.dev.fwBusy + 2 * b2n s.dev.fwStaged + 256 * s.dev.fwResult
def devDiagWord (s : State) : Nat :=
  b2n s.dev.diagBusy.isSome + 2 * s.dev.diagResult + 256 * s.dev.diagFail + 65536 * s.dev.diagErrs
def devRelWord (s : State) : Nat := s.dev.relResult + 256 * s.dev.attempts

end Sys2Proof.Machine
end

