-- ==== Sys2Proof/Machine/Links.lean ====
section
/-! DEFINITION. The host ports: resets, configuration space, failed host reads, PTM, SPDM and CXL.mem (R329 to R337). -/

namespace Sys2Proof.Machine

/-! ### Port resets (R331, Table 15.2) -/

/-- The instances of a port's VFs. -/
def portVfs (s : State) : HostPort → List Nat
  | .a => (List.range (splitOf s)).map (· + 1)
  | .b => (List.range (1024 - splitOf s)).map (· + splitOf s + 1)

/-- VFs that a port offers. -/
def vfOffered (s : State) : HostPort → Nat
  | .a => splitOf s
  | .b => 1024 - splitOf s

/-- Instance 0, where the port is A. -/
def portZero : HostPort → List Nat
  | .a => [0]
  | .b => []

/-- Resets instances in ascending order. -/
def resetAll (is_ : List Nat) (s : State) : State := is_.foldl (fun t i => instReset i t) s

/-- A port's functions return to their reset values. -/
def clearPort (p : HostPort) (s : State) : State :=
  let x := port s p
  setPort p { x with vfEnable := false, numVfs := 0, fns := [], ptmOn := false, ptmValid := false, doe := [], sessions := [] } s

/-- PERST low or a hot reset: the link goes down, the functions return to reset values, and the port's instances reset. -/
def portResetX (p : HostPort) (s : State) : State :=
  if dead s then s else
  let x := port s p
  let s := clearPort p (setPort p { x with up := false, speed := 0, width := 0, flit := false, cxl := false } s)
  let s := match p with
    | .a => { s with dev := { s.dev with decoder := false, hdmBase := 0, hdmSize := 0 } }
    | .b => s
  let s := level (Reg.HIF_PAGE (portIx p)) 0 true s
  resetAll (portZero p ++ portVfs s p) s

def execPortReset (port : HostPort) (s : State) : Host.Outcome State Fault Refusal := .next (portResetX port s)

/-- A link that goes down without PERST acts as a hot reset. -/
def hostLinkDownX (p : HostPort) (s : State) : State := if (port s p).up then portResetX p s else s

def execHostLinkDown (port : HostPort) (s : State) : Host.Outcome State Fault Refusal := .next (hostLinkDownX port s)

/-- VF Enable clears: the enabled VFs' configuration and instances reset. -/
def vfClearX (p : HostPort) (s : State) : State :=
  let x := port s p
  if dead s || !x.vfEnable then s else
  let s := setPort p { x with vfEnable := false, fns := x.fns.filter fun f => f.1 = 0 } s
  resetAll ((portVfs s p).take x.numVfs) s

def execVfEnableClear (port : HostPort) (s : State) : Host.Outcome State Fault Refusal := .next (vfClearX port s)

/-- A function-level reset of function 0 (`fn` 0) or of VF `fn`. -/
def flrX (p : HostPort) (fn : Nat) (s : State) : State :=
  if dead s then s else
  let x := port s p
  if fn = 0 then resetAll (portZero p ++ portVfs s p) (clearPort p s)
  else if x.vfEnable && fn ≤ x.numVfs then
    match (portVfs s p)[fn - 1]? with
    | some i => instReset i (setPort p { x with fns := kDel x.fns fn } s)
    | none => s
  else s

def execFlr (port : HostPort) (fn : Nat) (s : State) : Host.Outcome State Fault Refusal := .next (flrX port fn s)

/-- PERST rises: the port reset ends and link training may begin (R346). -/
def perstRiseX (p : HostPort) (s : State) : State := setPort p { port s p with perst := false } s

def execPerstRise (port : HostPort) (s : State) : Host.Outcome State Fault Refusal := .next (perstRiseX port s)

/-- A link finishes training, or recovery where it was up. CXL is negotiated on port A alone, with BOOT_SEL1 high and at
32 or 64 GT/s (R336). -/
def hostLinkUpX (p : HostPort) (speed width : Nat) (flit cxl : Bool) (s : State) : State :=
  let x := port s p
  if dead s || x.perst then s else
  let c := cxl && p = .a && bit s.dev.straps 1 && 5 ≤ speed
  let s := setPort p { x with up := true, speed := speed % 8, width := width % 32, flit := flit, cxl := c } s
  let pg := Reg.HIF_PAGE (portIx p)
  let s := level pg 0 false s
  if x.up then pulse pg 1 (bump (Reg.HIF_RETRAIN (portIx p)) 1 s) else s

def execHostLinkUp (port : HostPort) (speed width : Nat) (flit cxl : Bool) (s : State) : Host.Outcome State Fault Refusal :=
  .next (hostLinkUpX port speed width flit cxl s)

/-! ### Configuration requests (R329, R330, R332) -/

/-- Offsets of configuration words (the spec places none; the layout is that of the PCIe and CXL standards with places of
the model's own, PRESUMED, notes/assumptions/52.md): command, Device Control, Device Control 2, MSI-X control, power
management control, the SR-IOV words, PTM control, DOE status, the CXL DVSEC, and the HDM decoder. -/
abbrev cfgCommand : Nat := 0x04
abbrev cfgDevCtl : Nat := 0x48
abbrev cfgDevCtl2 : Nat := 0x68
abbrev cfgMsix : Nat := 0x80
abbrev cfgPmCtl : Nat := 0x94
abbrev cfgSriovCtl : Nat := 0x108
abbrev cfgTotalVfs : Nat := 0x10C
abbrev cfgNumVfs : Nat := 0x110
abbrev cfgVfOffset : Nat := 0x114
abbrev cfgPtmCtl : Nat := 0x148
abbrev cfgHdm : Nat := 0x180
abbrev cfgDoeStatus : Nat := 0x1FC
abbrev cfgDvsec : Nat := 0x220

/-- Whether a function exists behind a port. -/
def fnExists (s : State) (p : HostPort) (fn : Nat) : Bool := fn = 0 || ((port s p).vfEnable && fn ≤ (port s p).numVfs)

/-- The kind of a function, for words the spec gives no contents. -/
def fnKind (p : HostPort) (fn : Nat) : Nat := portIx p + if fn = 0 then 0 else 2

/-- The extended capabilities of a function: offset, identifier, bytes. Function 0 has SR-IOV, PTM, ARI, AER, DOE, the link
layer's and lane margining, and with CXL negotiated the DVSECs; a VF has ARI and AER. No other capability is present
(R329, R336). -/
def extCaps (s : State) (p : HostPort) (fn : Nat) : List (Nat × Nat × Nat) :=
  if fn ≠ 0 then [(0x100, 0x0E, 8), (0x1A0, 0x01, 0x48)]
  else
    [(0x100, 0x10, 0x40), (0x140, 0x1F, 0xC), (0x150, 0x0E, 8), (0x1A0, 0x01, 0x48), (0x1F0, 0x2E, 0x18)]
      ++ (if (port s p).cxl then [(cfgDvsec, 0x23, 0x3C), (0x260, 0x23, 0x14), (0x280, 0x23, 0x14)] else [])
      ++ [(0x2C0, 0x19, 0x4C), (0x310, 0x25, 0xC), (0x320, 0x26, 0x34), (0x360, 0x27, 0x48), (0x3B0, 0x2A, 0x30), (0x3E0, 0x31, 0x20)]

/-- The header of the extended capability at an offset: its identifier, version 1, and where the next one lies. -/
def extHeader (off : Nat) : List (Nat × Nat × Nat) → Option Nat
  | [] => none
  | (o, id, _) :: r => if o = off then some (id + 2 ^ 16 + 2 ^ 20 * ((r.head?.map (·.1)).getD 0)) else extHeader off r

/-- Whether an offset lies in the type 0 header, a capability or an extended capability of a function. -/
def cfgPresent (s : State) (p : HostPort) (fn off : Nat) : Bool :=
  off < 0x7C || (0x80 ≤ off && off < 0x8C) || (0x90 ≤ off && off < 0x98)
    || (extCaps s p fn).any (fun c => c.1 ≤ off && off < c.1 + c.2.2)
    || (fn = 0 && (port s p).cxl && cfgHdm ≤ off && off < cfgHdm + 0x14)

/-- The address bits of a VF BAR0 for a System Page Size: 64 KiB or the page, whichever is larger (R365). -/
def vfBarMask (sps : Nat) : Nat := 2 ^ 32 - max 0x10000 (sps * 4096)

/-- The bits of a word that configuration writes set: the addresses of function 0's two BARs of 16 MiB and 64 KiB, and of the
VF BAR, whose low word follows the System Page Size (R364, R365), among them. -/
def cfgWritable (fn off : Nat) : Nat :=
  if fn = 0 && (off = 0x10 || off = 0x120) then (if off = 0x10 then 0xFF000000 else 0x7FF)
  else if fn = 0 && off = 0x18 then 0xFFFF0000
  else if fn = 0 && (off = 0x14 || off = 0x1C || off = 0x124 || off = 0x128) then 0xFFFFFFFF
  else if off = cfgDevCtl then 0x71EF
  else if off = cfgDevCtl2 then 0x101F
  else if off = 0x70 then 0xF
  else if off = 0x1A8 || off = 0x1AC || off = 0x1B4 then 0xFFFFFFFF
  else if off = 0x1F8 then 2
  else if off = cfgDvsec + 0xC && fn = 0 then 4
  else if off = cfgDvsec + 0x20 || off = cfgDvsec + 0x24 then 0xFFFFFFFF
  else 0

/-- What was last written of a word, or its value after a reset: Max_Read_Request_Size is 512 bytes. -/
def cfgHeld (f : FnCfg) (off : Nat) : Nat :=
  ((kFind f.words off).map BitVec.toNat).getD (if off = cfgDevCtl then 0x2000 else if off = 0x120 then 1 else 0)

/-- The words of the CXL DVSEC for a Type 3 device (R336, R337): vendor 0x1E98, DVSEC identifier 0, CXL.io and CXL.mem with one
HDM decoder, and range 1 with Memory_Info_Valid, Memory_Active and its size. -/
def dvsecWord (s : State) (f : FnCfg) (k : Nat) : Nat :=
  match k with
  | 0x4 => 0x1E98 + 2 ^ 16 * 2 + 2 ^ 20 * 0x3C
  | 0x8 => 2 ^ 16 * (2 + 4 + 16)
  | 0xC => cfgHeld f (cfgDvsec + 0xC)
  | 0x18 => s.dev.rangeGib / 4
  | 0x1C => b2n s.dev.memInfo + 2 * b2n s.dev.memActive + 2 ^ 30 * (s.dev.rangeGib % 4)
  | 0x20 => cfgHeld f (cfgDvsec + 0x20)
  | 0x24 => cfgHeld f (cfgDvsec + 0x24)
  | _ => 0

/-- The words whose contents the spec gives of a function's type 0 header and capabilities (R329, R330): payloads to 512
bytes, FLR, completion timeout ranges A to D, 10-bit tags in both roles, rates to 64 GT/s at x16, MSI-X with its tables in
the function's BAR 2 or a VF's BAR 0, two 64-bit BARs on function 0 and none on a VF, and D0 and D3hot (R364, R365). -/
def cfgFixed (s : State) (p : HostPort) (fn off : Nat) : Option Nat :=
  let x := port s p
  let f := kGet {} x.fns fn
  let bir := if fn = 0 then 2 else 0
  match off with
  | 0x00 => some (s.dev.vendorId % 65536 + 65536 * (if fn = 0 then 0xA192 else 0xA193))
  | 0x04 => some (2 * b2n f.memEn + 4 * b2n f.busMaster + 2 ^ 20)
  | 0x08 => some (0x12000000 + (Config.configWord (fnKind p fn) off none).toNat % 256)
  | 0x10 => some (if fn = 0 then cfgHeld f off + 4 else 0)
  | 0x14 => some (if fn = 0 then cfgHeld f off else 0)
  | 0x18 => some (if fn = 0 then cfgHeld f off + 4 else 0)
  | 0x1C => some (if fn = 0 then cfgHeld f off else 0)
  | 0x20 => some 0
  | 0x24 => some 0
  | 0x30 => some 0
  | 0x34 => some 0x40
  | 0x3C => some 0
  | 0x40 => some 0x00028010
  | 0x44 => some (2 + 2 ^ 5 + 2 ^ 15 + 2 ^ 28)
  | 0x48 => some (cfgHeld f off)
  | 0x4C => some (6 + 16 * 16)
  | 0x50 => some (2 ^ 16 * x.speed + 2 ^ 20 * x.width)
  | 0x64 => some (0xF + 2 ^ 4 + 2 ^ 16 + 2 ^ 17)
  | 0x68 => some (cfgHeld f off)
  | 0x6C => some 0x7E
  | 0x70 => some (cfgHeld f off)
  | 0x80 => some (0x9011 + 65536 * (if fn = 0 then 255 else 15) + 2 ^ 30 * b2n f.msixMask + 2 ^ 31 * b2n f.msixEn)
  | 0x84 => some (0x6000 + bir)
  | 0x88 => some (0x7000 + bir)
  | 0x90 => some 0x00030001
  | 0x94 => some ((if f.d3 then 3 else 0) + 8)
  | _ => none

/-- The words of the extended capabilities whose contents the spec gives. -/
def cfgExt (s : State) (p : HostPort) (fn off : Nat) : Option Nat :=
  let x := port s p
  let f := kGet {} x.fns fn
  match extHeader off (extCaps s p fn) with
  | some w => some w
  | none =>
    if 0x1A4 ≤ off && off ≤ 0x1B4 then some (cfgHeld f off)
    else if fn ≠ 0 then none
    else if off = cfgSriovCtl then some (b2n x.vfEnable)
    else if off = cfgTotalVfs then some (vfOffered s p * 65537)
    else if off = cfgNumVfs then some x.numVfs
    else if off = cfgVfOffset then some 0x10001
    else if off = 0x120 || off = 0x128 then some (cfgHeld f off)
    else if off = 0x124 then some ((cfgHeld f off &&& vfBarMask (cfgHeld f 0x120)) + 4)
    else if 0x12C ≤ off && off < 0x13C then some 0
    else if off = 0x118 then some (65536 * 0xA193)
    else if off = 0x144 then some 1
    else if off = cfgPtmCtl then some (b2n x.ptmOn)
    else if off = 0x1F8 then some (cfgHeld f off)
    else if off = cfgDoeStatus then some (b2n (!x.doe.isEmpty))
    else if cfgDvsec < off && off < cfgDvsec + 0x3C then some (dvsecWord s f (off - cfgDvsec))
    else if off = cfgHdm then some (b2n s.dev.decoder)
    else if off = cfgHdm + 4 then some (s.dev.hdmBase % 2 ^ 32)
    else if off = cfgHdm + 8 then some (s.dev.hdmBase / 2 ^ 32)
    else if off = cfgHdm + 0xC then some (s.dev.hdmSize % 2 ^ 32)
    else if off = cfgHdm + 0x10 then some (s.dev.hdmSize / 2 ^ 32)
    else none

/-- A read of a configuration word: zero where no capability lies, and an open value where the spec gives no contents. -/
def cfgRead (s : State) (p : HostPort) (fn off : Nat) : Nat :=
  if !cfgPresent s p fn off then 0 else
  match (if off < 0x100 then cfgFixed s p fn off else cfgExt s p fn off) with
  | some w => w
  | none => (Config.configWord (fnKind p fn) off (kFind (kGet {} (port s p).fns fn).words off)).toNat

/-- Replaces a function's configuration. -/
def setFn (p : HostPort) (fn : Nat) (f : FnCfg) (s : State) : State :=
  setPort p { port s p with fns := kSet (port s p).fns fn f } s

/-- When a function's MSI-X mask or enable opens, its pending messages of unmasked vectors are sent. -/
def sendPending (i : Nat) (s : State) : State :=
  forN (numVec i) s fun v t =>
    if rBit t (msixPba i v) (v % 32) && (fnCfg t i).msixEn && !(fnCfg t i).msixMask && !(fnCfg t i).d3 && !vecMasked t i v then
      emit (.msix i v) (rSetFld (msixPba i v) (v % 32) (v % 32) 0 t)
    else t

/-- The instance whose messages a function carries. -/
def fnInst (s : State) (p : HostPort) (fn : Nat) : Nat := if fn = 0 then 0 else (portVfs s p).getD (fn - 1) 0

/-- A write of the HDM decoder: its base and size take while it is not committed (R336). -/
def hdmWrite (k d : Nat) (s : State) : State :=
  let v := s.dev
  if k = 0 then { s with dev := { v with decoder := bit d 0 } }
  else if v.decoder then s
  else
    let lo := fun (w : Nat) => w / 2 ^ 32 * 2 ^ 32 + d
    let hi := fun (w : Nat) => w % 2 ^ 32 + 2 ^ 32 * d
    match k with
    | 0x4 => { s with dev := { v with hdmBase := lo v.hdmBase } }
    | 0x8 => { s with dev := { v with hdmBase := hi v.hdmBase } }
    | 0xC => { s with dev := { v with hdmSize := lo v.hdmSize } }
    | 0x10 => { s with dev := { v with hdmSize := hi v.hdmSize } }
    | _ => s

/-- The value a write gives a held word: error status bits clear where written with 1; a payload size above 512 bytes and a
read request size above 4,096 leave their field. -/
def cfgTaken (fn off old d : Nat) : Nat :=
  if off = 0x1A4 || off = 0x1B0 then old &&& (0xFFFFFFFF - d)
  else
    let w := mixBits (cfgWritable fn off) old d
    if off ≠ cfgDevCtl then w
    else
      let w := if 2 < fld d 7 5 then setFld w 7 5 (fld old 7 5) else w
      if 5 < fld d 14 12 then setFld w 14 12 (fld old 14 12) else w

/-- A write of a configuration word. -/
def cfgWrite (p : HostPort) (fn off d : Nat) (s : State) : State :=
  let x := port s p
  let f := kGet {} x.fns fn
  if !cfgPresent s p fn off then s
  else if off = cfgCommand then setFn p fn { f with memEn := bit d 1, busMaster := bit d 2 } s
  else if off = cfgMsix then sendPending (fnInst s p fn) (setFn p fn { f with msixEn := bit d 31, msixMask := bit d 30 } s)
  else if off = cfgPmCtl then
    if fld d 1 0 = 3 then setFn p fn { f with d3 := true } s
    else if fld d 1 0 = 0 then sendPending (fnInst s p fn) (setFn p fn { f with d3 := false } s) else s
  else if off = cfgDevCtl && bit d 15 then flrX p fn s
  else if fn = 0 && off = cfgSriovCtl then
    if bit d 0 then setPort p { x with vfEnable := true } s else vfClearX p s
  else if fn = 0 && off = cfgNumVfs then
    if x.vfEnable || vfOffered s p < d % 65536 then s else setPort p { x with numVfs := d % 65536 } s
  else if fn = 0 && off = cfgPtmCtl then setPort p { x with ptmOn := bit d 0 } s
  else if fn = 0 && x.cxl && cfgHdm ≤ off && off < cfgHdm + 0x14 then hdmWrite (off - cfgHdm) d s
  else
    match (if off < 0x100 then cfgFixed s p fn off else cfgExt s p fn off) with
    | some _ =>
      let w := cfgTaken fn off (cfgHeld f off) d
      if w = cfgHeld f off then s else setFn p fn { f with words := kSet f.words off (BitVec.ofNat 32 w) } s
    | none => setFn p fn { f with words := kSet f.words off (BitVec.ofNat 32 d) } s

/-- A configuration request is answered once the link is up, in every mode but RESET; a function that does not exist
answers all ones. -/
def configX (p : HostPort) (fn : Nat) (write : Bool) (off : Nat) (d : W32) (s : State) : State :=
  if dead s || !(port s p).up then s
  else if !fnExists s p fn then emit (.config 0xFFFFFFFF) s
  else if write then emit (.config 0) (cfgWrite p fn (off / 4 * 4) d.toNat s)
  else emit (.config (BitVec.ofNat 32 (cfgRead s p fn (off / 4 * 4)))) s

def execConfigRequest (port : HostPort) (fn : Nat) (write : Bool) (off : Nat) (data : W32) (s : State) :
    Host.Outcome State Fault Refusal :=
  .next (configX port fn write off data s)

/-! ### Failed host reads (R333) -/

/-- A failed read is counted at the port that issued it. -/
def countFailure (p : HostPort) (cause : ReadCause) (s : State) : State :=
  let n := portIx p
  match cause with
  | .poison => bump (Reg.HIF_POISON_RX n) 1 s
  | _ => pulse (Reg.HIF_PAGE n) 2 (recErr (Reg.HIF_PAGE n) 3 0 (bump (Reg.HIF_CPL_TIMEOUT n) 1 s))

/-- The instance for which a consumer reads. -/
def consumerInst (s : State) : ReadConsumer → Nat
  | .jobFetch i _ => i
  | .phaseJudge i _ => i
  | .fragTable i _ => i
  | .ledger i _ => i
  | .bmSource c => bmOwner s c
  | .bmQueue c => bmOwner s c
  | .digest _ => 0

/-- What the consumer of a failed read does. -/
def failConsumer (c : ReadConsumer) (s : State) : State :=
  match c with
  | .jobFetch i r => setJr i r { jrOf s i r with failed := true } s
  | .phaseJudge i r =>
    let x := jrOf s i r
    setJr i r { x with entries := x.entries.take (x.entries.length - x.judged), judged := 0 } s
  | .fragTable i tag =>
    setInst i { instOf s i with fragFail := tag :: (instOf s i).fragFail } s
  | .ledger i k =>
    match (ldgCmds s i)[k]? with
    | some d =>
      if d.op ≤ 3 && (d.phase = .queued || d.phase = .entered || d.phase = .started) then pump (finishCmd d stFragment 0 0 s) else s
    | none => s
  | .bmSource c =>
    if (chanOf s c).bursts = [] then s
    else settleDesc c (stopDesc c stUncorrectable 0 (setChan c { chanOf s c with bursts := (chanOf s c).bursts.drop 1 } s))
  | .bmQueue c => setChan c { chanOf s c with again := false } s
  | .digest c =>
    match (ctxOf s c).run with
    | some r => if r.dev || r.own.isSome then s else startNext c 8 (clearCtx c 4 s)
    | none => s

/-- Whether a consumer can have a read of host memory under way that fails: the tables of a job that runs have been read, and
a channel reads what its descriptor or its mode places in host memory. -/
def failDue (s : State) : ReadConsumer → Bool
  | .bmSource c => !(chanOf s c).bursts.isEmpty && (chanOf s c).desc.any (·.shost)
  | .bmQueue c => rBit s (Reg.BM_CH_CTRL c) 1 && rBit s (Reg.BM_CH_CTRL c) 2 && (chanOf s c).state = .idle
  | .fragTable i tag => !((instJobs s i).any fun p => p.2.tag = tag && p.2.status.isNone && !p.2.formed)
  | _ => true

/-- HOST_READ_FAILURE. A failed read of a fragment table fails check 4 of the entry that names it (R219). -/
def hostFailX (c : ReadConsumer) (cause : ReadCause) (s : State) : State :=
  if !working s || !failDue s c then s else failConsumer c (countFailure (instPort s (consumerInst s c)) cause s)

def execHostReadFailure (consumer : ReadConsumer) (cause : ReadCause) (s : State) : Host.Outcome State Fault Refusal :=
  .next (hostFailX consumer cause s)

/-! ### PTM (R334) -/

/-- A PTM dialogue gives the port the master time; without an answer the context stays. -/
def ptmRefreshX (p : HostPort) (master : Option Nat) (s : State) : State :=
  let x := port s p
  match master with
  | some t =>
    if !dead s && x.up && x.ptmOn && rBit s (Reg.HIF_PTM_CTRL (portIx p)) 0 then
      setPort p { x with ptmValid := true, ptmNs := t, ptmAt := s.now } s
    else s
  | none => s

def execPtmRefresh (port : HostPort) (master : Option Nat) (s : State) : Host.Outcome State Fault Refusal :=
  .next (ptmRefreshX port master s)

/-- The latch of step 1 of a Seam: master time now, 5 ns for each 8 fabric cycles since the context's refresh. -/
def ptmLatch (p : HostPort) (s : State) : State :=
  let x := port s p
  if x.ptmValid && x.ptmOn && rBit s (Reg.HIF_PTM_CTRL (portIx p)) 0 then
    setPort p { x with ptmSeamNs := (x.ptmNs + (s.now - x.ptmAt) * 5 / 8) % 2 ^ 64, ptmSeamNum := s.seam.num % 2 ^ 32 } s
  else s

/-! ### SPDM (R335) -/

/-- An SPDM request: it waits in the mailbox until the firmware runs. -/
def spdmX (p : HostPort) (code param : Nat) (s : State) : State :=
  if dead s || !(port s p).up then s
  else if s.dev.fwUp || s.ln.wiping then spdmAnswer p code param s
  else setPort p { port s p with doe := (port s p).doe ++ [(code, param)] } s

def execSpdmRequest (port : HostPort) (code : Nat) (s : State) : Host.Outcome State Fault Refusal :=
  .next (spdmX port (code % 256) (code / 256) s)

/-! ### CXL.mem (R336, R337) -/

/-- The device physical address of a request: a committed HDM decoder takes it as a host address and maps its own range from
0; without one it is a device address as it stands (PRESUMED, notes/assumptions/52.md). -/
def cxlDpa (s : State) (a : Nat) : Option Nat :=
  if !s.dev.decoder then some a
  else if s.dev.hdmBase ≤ a && a < s.dev.hdmBase + s.dev.hdmSize then some (a - s.dev.hdmBase) else none

/-- The physical address of a request in the window, if its 64-byte line lies in it. -/
def cxlAddr (s : State) (a : Nat) : Option Nat :=
  let size := rFld s (Reg.HIF_CXLWIN_SIZE 0) 6 0 * 2 ^ 30
  match cxlDpa s a with
  | some d =>
    if s.dev.memActive && d / 64 * 64 + 64 ≤ size then some (rFld s (Reg.HIF_CXLWIN_BASE 0) 7 0 * 2 ^ 30 + d) else none
  | none => none

/-- Marks the 64-bit words that a poisoned write touches as uncorrectable, once its line has left a write queue. -/
def poisonWords (a n : Nat) (s : State) : State :=
  let s := match regionOf s a with
    | .hbm h _ => match wqFind (hmcOf s h).wq (a / 64) with
      | some q => writeEntry h q s
      | none => s
    | _ => s
  (rangeWords a n).foldl (fun t w => setEcc w 2 t) s

/-- A CXL.mem request of the host: a write of bytes within one line, or a read of the line. -/
def cxlMemX (write : Bool) (d : Nat) (data : List Byte) (poison : Bool) (s : State) : State :=
  if !s.portA.cxl || !s.portA.up || dead s then s else
  match cxlAddr s d with
  | none => s
  | some a =>
    if write then
      if 64 < d % 64 + data.length then s
      else
        let s := (meshWrite (inboundInit .a) a data s).1
        if poison then poisonWords a data.length s else s
    else
      match meshRead (inboundInit .a) (a / 64 * 64) 64 s with
      | (s, st, bs) => emit (.cxl (if st = stOK then bs else List.replicate 64 0) (st ≠ stOK)) s

def execCxlMemRequest (write : Bool) (addr : Nat) (data : List Byte) (poison : Bool) (s : State) :
    Host.Outcome State Fault Refusal :=
  .next (cxlMemX write addr data poison s)

/-! ### Words that reads of the HIF pages form (Table 15.10) -/

def hifLinkWord (s : State) (p : HostPort) : Nat :=
  let x := port s p
  b2n x.up + 2 * x.speed + 16 * x.width + 512 * b2n x.flit + 1024 * b2n x.cxl

end Sys2Proof.Machine
end

