-- ==== Sys2Proof/Machine/Power.lean ====
section
/-! DEFINITION. Power, clock, temperature and health (R355 to R360, R386). -/

namespace Sys2Proof.Machine

def setPwr (x : PwrSt) (s : State) : State := { s with pwr := x }

/-! ### Registers in effect -/

/-- The package limit and hysteresis in 0.1 W, and the wanted clock step. -/
def limitDw (s : State) : Nat := 10 * rFld s Reg.PWR_LIMIT 8 0
def hystDw (s : State) : Nat := 10 * rFld s Reg.PWR_LIMIT 21 16
def clockTarget (s : State) : Nat := rFld s Reg.PWR_CLOCK 4 0

/-! ### Alerts (R360) -/

/-- Whether a voltage monitor with a valid reading lies outside its bounds. -/
def voltOut (s : State) (m : Nat) : Bool :=
  match kFind s.pwr.volts m with
  | some v => v < rFld s (Reg.HLT_VLIM m) 15 0 || rFld s (Reg.HLT_VLIM m) 31 16 < v
  | none => false

/-- The alerts that stand: TEMP, VOLT, POWER, THROTTLE. -/
def alertBits (s : State) : Nat :=
  let tlim : Int := 16 * (rFld s Reg.HLT_TLIM 7 0 : Nat)
  b2n (s.pwr.temps.any fun p => tlim ≤ p.2)
    + 2 * b2n ((List.range 12).any (voltOut s))
    + 4 * b2n (limitDw s < s.pwr.pkg)
    + 8 * b2n (s.pwr.ceilPwr < clockTarget s || s.pwr.ceilTherm < clockTarget s)

/-- IRQ_STATUS levels of the HLT and PWR pages follow what stands. -/
def healthLevels (s : State) : State :=
  let s := level Reg.HLT_PAGE 0 (alertBits s &&& rFld s Reg.HLT_ALERT_EN 3 0 ≠ 0) s
  let s := level Reg.HLT_PAGE 1 (s.pwr.ceilTherm < 20) s
  let s := level Reg.PWR_PAGE 0 (limitDw s < s.pwr.pkg) s
  level Reg.PWR_PAGE 2 (s.pwr.capFenced ≠ []) s

/-- ALERT_N is low while an enabled alert stands, and on a fatal error (R360, R362). -/
def alertN (s : State) : Bool := !(s.dev.fatal ≠ 0 || alertBits s &&& rFld s Reg.HLT_ALERT_EN 3 0 ≠ 0)

/-! ### Package power (R355) -/

/-- An estimate of 100 µs: 10 µJ for each 0.1 W. -/
def powerEstimateX (dw : Nat) (s : State) : State :=
  if dead s then s else
  bumpFrame Reg.PWR_SNAP_ENERGY (10 * dw) (setPwr { s.pwr with estimates := s.pwr.estimates ++ [dw] } s)

def execPowerEstimate (deciwatts : Nat) (s : State) : Host.Outcome State Fault Refusal := .next (powerEstimateX deciwatts s)

/-- A window of 1 ms completes. -/
def powerWindowX (s : State) : State :=
  let es := s.pwr.estimates
  if es = [] || dead s then s else
  let avg := es.sum / es.length
  let s := setPwr { s.pwr with estimates := [], pkg := avg, windows := (avg :: s.pwr.windows).take 10, nWindows := s.pwr.nWindows + 1 } s
  healthLevels (rSet Reg.PWR_PEAK (max (rGet s Reg.PWR_PEAK) (min avg 65535)) s)

def execPowerWindow (s : State) : Host.Outcome State Fault Refusal := .next (powerWindowX s)

/-- Panels of a die that are not fenced, lowest first. -/
def dieOpen (s : State) (d : Nat) : List Nat := (List.range 32).filter fun n => panelDie n = d && !fenceWanted s n

/-- The Panel that the power controller fences next: the highest not fenced of the die with more of them, die 1 at a tie;
never the last of a die. -/
def nextFence (s : State) : Option Nat :=
  let d := if (dieOpen s 1).length < (dieOpen s 0).length then 0 else 1
  if 2 ≤ (dieOpen s d).length then (dieOpen s d).getLast? else none

/-- Whether a window that began after a change has completed since. -/
def windowPassed (s : State) : Option Nat → Bool
  | none => true
  | some n => n + 2 ≤ s.pwr.nWindows

/-- The power ceiling at step 9 (R355). -/
def powerCeiling (s : State) : State :=
  let x := s.pwr
  if x.nWindows = 0 then s
  else if limitDw s < x.pkg then
    if !windowPassed s x.lastDown then s
    else if 10 < x.ceilPwr then setPwr { x with ceilPwr := x.ceilPwr - 1, lastDown := some x.nWindows } s
    else match nextFence s with
      | some n => setPwr { x with capFenced := n :: x.capFenced, lastDown := some x.nWindows } s
      | none => s
  else if x.windows.length = 10 && x.windows.all (fun p => p + hystDw s < limitDw s) && windowPassed s x.lastUp then
    match x.capFenced with
    | _ :: r => setPwr { x with capFenced := r, lastUp := some x.nWindows } s
    | [] => if x.ceilPwr < 20 then setPwr { x with ceilPwr := x.ceilPwr + 1, lastUp := some x.nWindows } s else s
  else s

/-! ### Clock (R356) and temperature (R358) -/

/-- The clock step of step 9. -/
def clockStep (s : State) : State :=
  let x := s.pwr
  let ceil := min x.ceilPwr x.ceilTherm
  let want := min (clockTarget s) ceil
  if x.current < want then setPwr { x with current := x.current + 1 } s
  else if want < x.current then
    let s := setPwr { x with current := x.current - 1 } s
    if ceil < clockTarget s then pulse Reg.PWR_PAGE 1 (bump Reg.PWR_THROTTLE 1 s) else s
  else s

/-- The thermal ceiling and thermal fences of step 9. Temperatures are in 1/16 °C; 1 ms is 1,600,000 fabric cycles. -/
def thermalStep (s : State) : State :=
  let x := s.pwr
  let due := match x.thermFell with
    | some t => t + 1600000 ≤ s.now
    | none => true
  let x := if 1600 ≤ x.hot && due && x.temps ≠ [] && 10 < x.ceilTherm then
      { x with ceilTherm := x.ceilTherm - 1, thermFell := some s.now }
    else if x.temps ≠ [] && x.ceilTherm < 20 && x.warmAt + 16000000 ≤ s.now then { x with ceilTherm := x.ceilTherm + 1 }
    else x
  let panel := fun (n : Nat) => kFind x.temps n
  let hot := (List.range 32).filter fun n =>
    match panel n with
    | some t => (x.ceilTherm = 10 && 1760 ≤ t) || (x.thermFenced.contains n && 1600 ≤ t)
    | none => x.thermFenced.contains n
  setPwr { x with thermFenced := hot } s

/-! ### Sensors (R358 to R360) -/

/-- The hottest reading and its sensor, the lowest number at a tie. -/
def hottest (ts : KMap Int) : Option (Nat × Int) :=
  ts.foldl (fun r p =>
    match r with
    | some q => if q.2 < p.2 then some p else some q
    | none => some p) none

/-- Readings by number; one that is missing or beyond its register's 16 bits is invalid. -/
def readings {α : Type} (n : Nat) (ok : α → Bool) (l : List α) : KMap α :=
  ((List.range n).zip l).filter fun p => ok p.2

/-- THERMTRIP: every clock stops, and the Ledger Store acts as at a fall of PWRFAIL_N (R359). -/
def thermtripX (s : State) : State :=
  let s := powerFail s
  { s with dev := { s.dev with thermtrip := true }, seam := { s.seam with running := false } }

/-- SENSOR_SAMPLE: temperatures in 1/16 °C by sensor, voltages in mV by monitor. -/
def sensorX (temps : List Int) (volts : List Nat) (s : State) : State :=
  if dead s then s else
  let ts := readings 48 (fun t : Int => -32768 ≤ t && t < 32768) temps
  let vs := readings 12 (fun v : Nat => v < 65536) volts
  let was := (List.range 12).filter (voltOut s)
  let h := hottest ts
  let warm := ts.any fun p => 1552 ≤ p.2
  let s := setPwr { s.pwr with temps := ts, volts := vs, hot := (h.map (·.2)).getD 0, hotSensor := (h.map (·.1)).getD 0,
                               warmAt := if warm then s.now else s.pwr.warmAt } s
  let s := if ts.length < 48 || vs.length < 12 then recErr Reg.HLT_PAGE 1 0 s else s
  let s := if (List.range 12).any fun m => voltOut s m && !was.contains m then pulse Reg.HLT_PAGE 2 s else s
  let s := healthLevels s
  if ts.any fun p => 1920 ≤ p.2 then thermtripX s else s

def execSensorSample (temps : List Int) (volts : List Nat) (s : State) : Host.Outcome State Fault Refusal :=
  .next (sensorX temps volts s)

/-- The firmware reads the speed indices of the Panels; the supply writes that follow are VOUT_COMMANDs. -/
def speedX (idx : List Nat) (s : State) : State :=
  if !s.dev.fwUp || halted s then s else
  setPwr { s.pwr with speeds := (readings 32 (fun v : Nat => v < 4096) idx).foldl (fun m p => kSet m p.1 p.2) s.pwr.speeds } s

def execSpeedIndexRead (idx : List Nat) (s : State) : Host.Outcome State Fault Refusal := .next (speedX idx s)

/-! ### Pocket supplies (R386) -/

/-- Whether the controller may write a set point: two dies, a regulator that answers, 650 to 900 mV, a move of at most 10 mV,
and 100 µs after its last write. -/
def voutAllowed (s : State) (d mv : Nat) : Bool :=
  d < 2 && vregOf s d && 650 ≤ mv && mv ≤ 900 && mv ≤ voutOf s d + 10 && voutOf s d ≤ mv + 10
    && s.pwr.voutAt.all fun p => p.2 + 160000 ≤ s.now

/-- VOUT_COMMAND: the controller writes a set point, and the monitor's bounds follow it (R383). -/
def voutX (d mv : Nat) (s : State) : State :=
  if !s.dev.fwUp || halted s || !voutAllowed s d mv then s else
  let s := emit (.vout d mv) (setPwr { s.pwr with vout := kSet s.pwr.vout d mv, voutAt := kSet s.pwr.voutAt d s.now } s)
  healthLevels (rSet (Reg.HLT_VLIM (2 + d)) (boundsOf mv) s)

def execVoutCommand (die mv : Nat) (s : State) : Host.Outcome State Fault Refusal := .next (voutX die mv s)

/-! ### Words that reads of the PWR and HLT pages form (Tables 16.10 and 16.11) -/

/-- PWR_FENCE_CAP. -/
def fenceCapWord (s : State) : Nat :=
  (List.range 32).foldl (fun w n => w + if s.pwr.capFenced.contains n || s.pwr.thermFenced.contains n then 2 ^ n else 0) 0
def pwrClockWord (s : State) (target : Nat) : Nat :=
  target % 32 + 2 ^ 8 * s.pwr.current + 2 ^ 16 * s.pwr.ceilPwr + 2 ^ 24 * s.pwr.ceilTherm
def hltHotWord (s : State) : Nat := narrow 16 s.pwr.hot + 65536 * s.pwr.hotSensor
def hltTempWord (s : State) (k : Nat) : Nat :=
  match kFind s.pwr.temps k with
  | some t => narrow 16 t + 65536
  | none => 0
def hltVoltWord (s : State) (m : Nat) : Nat :=
  match kFind s.pwr.volts m with
  | some v => v + 65536
  | none => 0

end Sys2Proof.Machine
end

