-- ==== Sys2Proof/Machine/Registers.lean ====
section
/-! DEFINITION. Every register of the windows: what a read returns and does, what a write does, the aperture, the common
header, commits of staged fields, and the interrupt registers (chapter 17 and the register tables of chapters 02 to 16). -/

namespace Sys2Proof.Machine

/-! ### Words of the read-only registers -/

/-- A page's bits that count instances holding something: 0x7FF with none (INSTANCE fields). -/
def instWord (c : Option UnitCmd) : Nat := (c.map (·.inst)).getD 0x7FF

/-- A number with bit k set for each k below n that satisfies a predicate. -/
def bitsOf (n : Nat) (f : Nat → Bool) : Nat := (List.range n).foldl (fun w k => w + if f k then 2 ^ k else 0) 0

/-- Whether something that the page starts is running (QUIET, R370). -/
def pageRuns (s : State) (k : PageKind) (i : Nat) : Bool :=
  match k with
  | .pack => (packOf s i).taken ≠ 0
  | .sf => (scanOf s i).run.isSome
  | .pnlHpu => (operOf s 0 i).run.isSome || (operOf s 0 i).standby.isSome
  | .pnlPu => (operOf s 1 i).run.isSome || (operOf s 1 i).standby.isSome
  | .pnlMn => (operOf s 2 i).run.isSome || (operOf s 2 i).standby.isSome
  | .ma => s.ma.runs.any fun p => p.2.started
  | .instMa => (maRunOf s i).isSome
  | .dg => dgHeld s ≠ 0
  | .bmCh => (chanOf s i).desc.isSome || (chanOf s i).state = .sinking
  | .instPat => (patCmdOf s i).busy
  | .instLdg => !(ldgCmds s i).isEmpty
  | .ldg => s.ldg.mrun.isSome
  | .xl => !s.xl.inval.isEmpty || !s.xl.active.isEmpty
  | .dev => s.dev.fwBusy || s.dev.diagBusy.isSome
  | _ => false

/-- Whether an address lies on a NOC_STOP page, whose staged fields the NOC page commits (R286). -/
def onNocStop (a : Nat) : Bool :=
  match pageOf a with
  | some (.nocStop, _, _) => true
  | _ => false

/-- BLOCK_STATUS (Table 17.3). -/
def blockStatus (s : State) (k : PageKind) (i pg : Nat) : Nat :=
  let pend := stagePending s pg || (k = .noc && s.rf.pend.any fun p => onNocStop p.1)
  let wait := seamWait s pg || (k = .noc && s.rf.await.any fun p => onNocStop p.1)
  b2n pend + 2 * b2n wait + 4 * b2n (!pageEn s pg && !pageRuns s k i)

/-- The offsets of a page's snapshot registers: the one that names the frame, and the first and last of its counts. -/
def snapOffs : PageKind → Option (Nat × Nat × Nat)
  | .schedAgent => some (0x48, 0x4C, 0x58)
  | .instCuff => some (0x68, 0x64, 0x64)
  | .sf => some (0x70, 0x74, 0x7C)
  | .pnlHpu => some (0x68, 0x6C, 0x70)
  | .pnlPu => some (0x58, 0x5C, 0x60)
  | .pnlMn => some (0x60, 0x64, 0x68)
  | .ma => some (0x6C, 0x70, 0x78)
  | .pkt => some (0x78, 0x7C, 0x80)
  | .pnl => some (0x5C, 0x60, 0x60)
  | .hmc => some (0x78, 0x7C, 0x80)
  | .cxt => some (0x64, 0x68, 0x68)
  | .nocStop => some (0x94, 0x98, 0xC8)
  | .bm => some (0x4C, 0x50, 0x50)
  | .bmCh => some (0x74, 0x78, 0x78)
  | .ldg => some (0x64, 0x68, 0x6C)
  | .dg => some (0x84, 0x88, 0x88)
  | .pwr => some (0x60, 0x64, 0x64)
  | _ => none

/-- A count of the last closed frame, clamped to the bits of its field. -/
def closedCount (s : State) (key bits : Nat) : Nat := min (kGet 0 s.rf.closed key) (2 ^ bits - 1)

/-- A snapshot register's word. -/
def snapWord (s : State) (k : PageKind) (i o a : Nat) : Nat :=
  match k with
  | .schedAgent =>
    if o = 0x50 || o = 0x54 then closedCount s a 16 + 65536 * closedCount s (a + 1) 16
    else if o = 0x58 then closedCount s a 22 else closedCount s a 32
  | .nocStop => closedCount s (statKey i (rFld s (Reg.NOC_STAT_SEL i) 5 0) ((o - 0x98) / 4)) 32
  | _ => closedCount s a 32

/-- SCHED_SLOTS and SCHED_PSTATE of a Panel. -/
def slotsWord (s : State) (n : Nat) : Nat := (2048 - (panelTasks s n).length) + 65536 * (readyTasks s n).length
def pstateWord (s : State) (n : Nat) : Nat :=
  b2n (s.sched.fenced.contains n) + 2 * b2n (s.sched.gated.contains n)
    + 4 * ((List.range 16).filter fun q => (pktOf s (16 * n + q)).task.isNone).length

/-- PKT_STATUS, and the register PKT_DBG_SEL names, while the Pocket is halted. -/
def pktStatusWord (s : State) (p : Nat) : Nat :=
  let x := pktOf s p
  (if x.halted then 3 else if x.task.isNone then 0 else if x.priv then 2 else 1) + 4 * b2n x.lvGated + 8 * b2n x.fill.isSome
    + 16 * b2n x.nest + 32 * ((x.task.map fun n => (taskOf s n).inst).getD 0x7FF) + 65536 * x.task.getD 0xFFFF
def dbgValue (s : State) (p : Nat) : Nat :=
  let sel := rFld s (Reg.PKT_DBG_SEL p) 6 0
  if !(pktOf s p).halted then 0
  else if sel < 32 then gGet s p sel
  else if sel < 64 then fGet s p (sel - 32)
  else if sel ≤ 78 then crGet s p (sel - 64)
  else 0

/-- The number of a memory power state and of a domain state, as their registers show them. -/
def MemPower.num : MemPower → Nat
  | .on => 0
  | .retention => 1
  | .off => 2
  | .waking => 3
def DomState.num : DomState → Nat
  | .online => 0
  | .fenced => 1
  | .absorb => 2
  | .absorbWake => 2
  | .off => 3
  | .waking => 4

/-- NOC_LINK of a stop and direction; NOC_DOM of a stop. -/
def linkWord (s : State) (st d : Nat) : Nat :=
  let q := linkOf s (linkKey st d 0)
  let r := linkOf s (linkKey st d 1)
  b2n (neighbour st d).isSome + 2 * b2n q.deg + 4 * b2n r.deg + 8 * b2n q.down + 16 * b2n r.down
def domWord (s : State) (st : Nat) : Nat :=
  match panelAt st with
  | some n => (domOf s n).num
  | none => 0

/-- Packets of the older epoch in the mesh, and whether a committed table waits for them (R266). -/
def oldEpoch (s : State) : Nat := (s.noc.queues.map fun q => (q.2.filter fun f => f.pkt.epoch ≠ s.noc.epoch).length).sum
def rtWaits (s : State) : Bool := s.rf.await.any fun p => onNocStop p.1

/-- BM_STATUS and BM_CH_STATUS. -/
def bmStatusWord (s : State) : Nat :=
  (s.bm.chans.filter fun p => p.2.state = .run).length + 128 * (s.bm.chans.map fun p => inFlight p.2).sum
def ChanState.num : ChanState → Nat
  | .disabled => 0
  | .idle => 1
  | .run => 2
  | .paused => 3
  | .draining => 4
  | .sinking => 5
def chanWord (s : State) (c : Nat) : Nat :=
  let x := chanOf s c
  x.state.num + 8 * b2n x.lastLate + 2 ^ 8 * x.lastStatus + 2 ^ 16 * inFlight x

/-- INST_PAT_STATUS, and the slots of an instance in a state. -/
def patStatusWord (s : State) (i : Nat) : Nat :=
  let x := patCmdOf s i
  b2n x.busy + 2 ^ 8 * x.result + 2 ^ 16 * x.detail + 2 ^ 24 * x.slot
def slotMap (s : State) (i : Nat) (st : SlotState) (lo : Nat) : Nat :=
  bitsOf 32 fun k => (slotOf s i (lo + k)).any fun x => x.state = st

/-- INST_STATUS. -/
def instStatusWord (s : State) (i : Nat) : Nat :=
  b2n (s.dev.mode = .service) + 2 * b2n (ovfFull s i) + 4 * ovfCount s i + 2 ^ 8 * (instOf s i).gen

/-- HMC_STATUS and CXT_STATUS. -/
def hmcStatusWord (s : State) (h : Nat) : Nat :=
  let x := hmcOf s h
  b2n x.trained + 2 * b2n x.failed + 4 * b2n (85 < x.temp) + 2 ^ 8 * x.temp + 2 ^ 16 * x.selfRef.length
def cxtStatusWord (s : State) (p : Nat) : Nat :=
  let x := cxtOf s p
  b2n x.linkUp + 2 * b2n x.modUp + 4 * x.width + 64 * x.speed

/-- MGT_I3C_STATUS: the static address follows BOOT_SEL2. -/
def staticAddr (s : State) : Nat := 0x58 + b2n (bit s.dev.straps 2)
def i3cStatusWord (s : State) : Nat :=
  s.i3c.da.getD 0 + 2 ^ 7 * b2n s.i3c.da.isSome + 2 ^ 8 * staticAddr s + 2 ^ 15 * b2n s.i3c.ddr + 2 ^ 16 * b2n s.i3c.ready

/-- SUSPECT entries, lowest first. -/
def suspects (s : State) : List Nat := (s.ma.entries.filter fun p => p.2.suspect).map (·.1)

/-- The offset of a run of registers, `step` bytes apart: the index of the one an offset lies in, and the rest. -/
def runIx (o base step : Nat) : Nat × Nat := ((o - base) / step, (o - base) % step)

/-- An INST_RING register of a ring, by ring and offset in its group. -/
def jrRead (s : State) (i r o a : Nat) : Nat :=
  match o with
  | 0x18 => (jrOf s i r).head + 65536 * b2n (jrOf s i r).expect
  | 0x1C => (jrOf s i r).tail
  | _ => shadowWord s a
def crRead (s : State) (i c o a : Nat) : Nat :=
  match o with
  | 0x18 => (crOf s i c).tail + 65536 * b2n (crOf s i c).phase
  | 0x1C => ((instOf s i).compl.filter fun x => x.cr = c).length
  | _ => shadowWord s a

/-- The word that a read of a register returns, without what the read does. -/
def regWord (s : State) (p : Path) (k : PageKind) (i o a : Nat) : Nat :=
  if o = 0x0C then blockStatus s k i (a - o)
  else if o < 0x40 then rGet s a
  else match snapOffs k with
  | some (n, lo, hi) =>
    if o = n then s.rf.closedSeam % 2 ^ 32
    else if lo ≤ o && o ≤ hi then snapWord s k i o a
    else pageWord s p k i o a
  | none => pageWord s p k i o a
where
  pageWord (s : State) (p : Path) (k : PageKind) (i o a : Nat) : Nat :=
    match k with
    | .dev =>
      if 0x78 ≤ o && o < 0x88 then ofBytes (slice s.dev.nonce (o - 0x78) 4)
      else if 0x88 ≤ o && o < 0x108 then 0
      else match o with
      | 0x40 => devModeWord s
      | 0x48 => devBootWord s
      | 0x54 => devLastErrWord s
      | 0x58 => s.dev.fatal
      | 0x6C => devFwWord s
      | 0x74 => devDiagWord s
      | 0x10C => devRelWord s
      | _ => shadowWord s a
    | .seam =>
      match o with
      | 0x4C => b2n s.seam.locked + 2 * b2n s.seam.holdover + 4 * b2n s.seam.running + 8 * b2n (seamSrc s)
      | 0x50 => s.seam.num % 2 ^ 32
      | 0x54 => if p = .i3c then s.seam.numHiI3c else s.seam.numHi
      | 0x64 => seamOffset s % 2 ^ 18
      | _ => shadowWord s a
    | .sched => if o = 0x70 then (s.sched.tasks.filter fun t => t.2.state = .held).length else shadowWord s a
    | .schedAgent =>
      match o with
      | 0x40 => slotsWord s i
      | 0x44 => pstateWord s i
      | _ => shadowWord s a
    | .instCuff =>
      match o with
      | 0x5C => instSlots s i
      | 0x60 => (instJobs s i).length
      | _ => shadowWord s a
    | .instPat =>
      match o with
      | 0x50 => patStatusWord s i
      | 0x54 => slotMap s i .resident 0
      | 0x58 => slotMap s i .resident 32
      | 0x5C => slotMap s i .retiring 0
      | 0x60 => slotMap s i .retiring 32
      | _ => shadowWord s a
    | .pack =>
      if o = 0x44 then
        let x := packOf s i
        let run := if x.taken = 0 then none else x.queue.head?
        b2n run.isSome + 2 * (x.queue.length - b2n run.isSome) + 32 * bitsOf 8 (fun c => (kFind x.ctx c).isSome)
          + 2 ^ 13 * instWord run
      else shadowWord s a
    | .sf =>
      if o = 0x44 then
        let x := scanOf s i
        b2n x.run.isSome + 2 * scanDepth s i + 32 * instWord (x.run.map (·.cmd)) + 2 ^ 16 * b2n (lacksRoom x)
          + 2 ^ 17 * b2n (x.run.any fun r => fld (r.cmd.word 0) 10 4 = 0x7F)
      else shadowWord s a
    | .pnlHpu => operWord s 0 i o a
    | .pnlPu => operWord s 1 i o a
    | .pnlMn => operWord s 2 i o a
    | .ma =>
      match o with
      | 0x44 => b2n (s.ma.runs.any fun r => r.2.started) + 2 ^ 8 * (s.ma.waiting.filter fun q => q.place.isSome).length
      | 0x58 => (suspects s).length
      | 0x5C => match suspects s with
        | e :: _ => e
        | [] => 2 ^ 31
      | _ => shadowWord s a
    | .pkt =>
      match o with
      | 0x44 => pktStatusWord s i
      | 0x4C => (pktOf s i).pc % 2 ^ 32
      | 0x50 => (pktOf s i).pc / 2 ^ 32
      | 0x88 => dbgValue s i % 2 ^ 32
      | 0x8C => dbgValue s i / 2 ^ 32
      | _ => shadowWord s a
    | .pnl => if o = 0x44 then (panelMem s i).num else shadowWord s a
    | .instRing =>
      if 0x200 ≤ o && o < 0x280 then crRead s i (runIx o 0x200 32).1 (runIx o 0x200 32).2 a
      else if 0x100 ≤ o && o < 0x200 then jrRead s i (runIx o 0x100 32).1 (runIx o 0x100 32).2 a
      else match o with
      | 0x40 => instStatusWord s i
      | 0x4C => abortWord s i
      | _ => shadowWord s a
    | .hmc => if o = 0x4C then hmcStatusWord s i else shadowWord s a
    | .cxt =>
      match o with
      | 0x44 => cxtStatusWord s i
      | 0x48 => if (cxtOf s i).modUp then (cxtOf s i).units else 0
      | _ => shadowWord s a
    | .xl =>
      if 0x100 ≤ o && o < 0x200 && o % 16 = 12 then
        poolChunks s ((o - 0x100) / 16) - (poolTaken s ((o - 0x100) / 16)).length
      else match o with
      | 0x4C => b2n (s.xl.stopped.contains (rFld s Reg.XL_RT_SEL 10 0))
      | 0x50 => s.xl.stopAddr % 2 ^ 32
      | 0x54 => s.xl.stopAddr / 2 ^ 32
      | 0x5C => b2n (!s.xl.inval.isEmpty)
      | 0x64 => s.xl.queue.length + 128 * s.xl.active.length
      | _ => shadowWord s a
    | .noc =>
      match o with
      | 0x44 => b2n s.noc.epoch + 2 * b2n (rtWaits s && oldEpoch s ≠ 0) + 4 * degradedLinks s
      | 0x48 => oldEpoch s
      | _ => shadowWord s a
    | .nocStop =>
      if 0x60 ≤ o && o < 0x70 then linkWord s i ((o - 0x60) / 4)
      else match o with
      | 0x80 => domWord s i
      | 0x84 => owedTo s i
      | _ => shadowWord s a
    | .bm => if o = 0x40 then bmStatusWord s else shadowWord s a
    | .bmCh =>
      if 0xA8 ≤ o && o < 0xC0 then (((chanOf s i).results)[(o - 0xA8) / 4]?.getD 0).toNat
      else match o with
      | 0x5C => chanWord s i
      | 0x60 => (chanOf s i).remain % 2 ^ 32
      | 0x64 => (chanOf s i).remain / 2 ^ 32
      | _ => shadowWord s a
    | .ldg =>
      match o with
      | 0x44 => b2n s.ldg.ready + 2 * b2n s.ldg.holdup
      | 0x48 => s.ldg.cmds.length + s.ldg.compl.length
      | 0x4C => ldgInMedia s + 2 ^ 8 * ldgLocks s
      | 0x84 => b2n s.ldg.mrun.isSome + 2 ^ 8 * s.ldg.mresult
      | 0xA8 => freeMib s
      | _ => shadowWord s a
    | .instLdg =>
      match o with
      | 0x84 => ldgStateWord s i
      | 0xA4 => ldgTailWord s i
      | 0xAC => (ldgPlaced s i).1 % 2 ^ 32
      | 0xB0 => (ldgPlaced s i).1 / 2 ^ 32
      | 0xB4 => (ldgPlaced s i).2 % 2 ^ 32
      | 0xB8 => (ldgPlaced s i).2 / 2 ^ 32 % 65536
      | 0xBC => ldgSstate s i
      | 0xC0 => ldgHeldWord s i
      | _ => shadowWord s a
    | .dg =>
      match o with
      | 0x40 => dgStatusWord s
      | 0x68 => dgLastWord s
      | 0x70 => dgCtxWord s
      | 0x74 => s.dg.waiting.length
      | _ => shadowWord s a
    | .ks =>
      if 0x48 ≤ o && o < 0x88 then 0
      else match o with
      | 0x8C => (keyOf s (rFld s Reg.KS_RSEL 8 0)).attr
      | 0x94 => ksValid s
      | _ => shadowWord s a
    | .ln =>
      match o with
      | 0x40 => lnStatusWord s
      | 0x44 => s.ln.src
      | 0x48 => s.ln.mask
      | 0x4C => s.ln.wipes
      | 0x50 => s.ln.wipeSeam
      | _ => shadowWord s a
    | .hif =>
      let q : HostPort := if i = 0 then .a else .b
      match o with
      | 0x40 => hifLinkWord s q
      | 0x44 => s.dev.straps
      | 0x48 => splitOf s
      | 0x64 => setFld (shadowWord s a) 1 1 (b2n (port s q).ptmValid)
      | 0x68 => (port s q).ptmSeamNs % 2 ^ 32
      | 0x6C => (port s q).ptmSeamNs / 2 ^ 32
      | 0x70 => (port s q).ptmSeamNum
      | 0x7C => if i = 0 then b2n s.dev.memActive + 2 * b2n s.dev.decoder else 0
      | _ => shadowWord s a
    | .mgt => if o = 0x40 then i3cStatusWord s else shadowWord s a
    | .pwr =>
      match o with
      | 0x44 => pwrClockWord s (shadowWord s a)
      | 0x4C => fenceCapWord s
      | 0x50 => min s.pwr.pkg 65535
      | _ => shadowWord s a
    | .hlt =>
      if 0x80 ≤ o && o < 0x140 then hltTempWord s ((o - 0x80) / 4)
      else if 0x140 ≤ o && o < 0x170 then hltVoltWord s ((o - 0x140) / 4)
      else if 0x1A0 ≤ o && o < 0x220 then kGet 0 s.pwr.speeds ((o - 0x1A0) / 4)
      else match o with
      | 0x44 => shadowWord s a % 256 + 100 * 256 + 110 * 65536
      | 0x48 => hltHotWord s
      | 0x4C => alertBits s
      | _ => shadowWord s a
    | .instApt => shadowWord s a
    | .instPush => shadowWord s a
    | .instMa => shadowWord s a
  /-- The status word of an operator unit; a Partition Unit's names its bound contexts, and no bucket lock is held between
  a Hash Probe Unit's commands, since an insert is one event. -/
  operWord (s : State) (u n o a : Nat) : Nat :=
    if o = 0x44 then
      let x := operOf s u n
      let base := b2n x.run.isSome + 2 * operDepth s u n
      if u = 1 then
        base + 32 * bitsOf 4 (fun k => (kFind x.ctx k).any (ctxBound s)) + 2 ^ 9 * instWord (x.run.map (·.cmd))
      else base + 32 * instWord (x.run.map (·.cmd))
    else shadowWord s a

/-! ### Addresses that an access reaches (R365, R367) -/

/-- The register address an access reaches: one in the aperture is the same offset of the selected instance's window. -/
def resolve (s : State) (p : Path) (a : Nat) : Option Nat :=
  if 0x20000 ≤ a && a < 0x26000 then
    if aptSel s p < numInst then some (instBase (aptSel s p) + (a - 0x20000)) else none
  else some a

/-- The instance and offset in its window of an address in a per-instance window. -/
def windowOff (a : Nat) : Nat × Nat := ((a - 0x1000000) / 0x10000, (a - 0x1000000) % 0x10000)

/-- A word of an instance's MSI-X table or pending-bit array (Table 10.1). -/
def msixWord (s : State) (a : Nat) : Nat :=
  let (i, o) := windowOff a
  if 0x6000 ≤ o && o < 0x6000 + 16 * numVec i then
    if o % 16 = 12 then b2n (vecMasked s i ((o - 0x6000) / 16)) else rGet s a
  else if 0x7000 ≤ o && o < 0x7000 + numVec i / 8 then rGet s a
  else 0

/-- A write of the MSI-X table; a message that waits is sent when its vector opens. -/
def msixWrite (a v : Nat) (s : State) : State :=
  let (i, o) := windowOff a
  if 0x6000 ≤ o && o < 0x6000 + 16 * numVec i then
    let k := (o - 0x6000) / 16
    if o % 16 = 12 then
      let s := rSet a (v % 2) s
      if rBit s (msixPba i k) (k % 32) && (fnCfg s i).msixEn && !(fnCfg s i).msixMask && !(fnCfg s i).d3 && !bit v 0 then
        emit (.msix i k) (rSetFld (msixPba i k) (k % 32) (k % 32) 0 s)
      else s
    else rSet a v s
  else s

/-! ### Reads (R6, R8, R318, R341, R368) -/

/-- What a host port's read of a word does besides returning it: RC fields clear, and so does IRQ_FLAG under COMPAT. -/
def readClears (k : PageKind) (o a : Nat) (s : State) : State :=
  let rc := (rowMasks a).rc
  let rc := if o = 0x18 && pageCompat s (a - o) && k ≠ .instLdg then 0xFFFFFFFF else rc
  if rc = 0 then s else rSet a (rGet s a &&& (0xFFFFFFFF - rc)) s

/-- A read of a register word: the value, and the state after it. The I3C target's read has no side effect but its own
copy of SEAM_NUM (R341). -/
def readReg (p : Path) (a : Nat) (s : State) : State × Nat :=
  match pageOf a with
  | none => (s, if 0x1000000 ≤ a then msixWord s a else 0)
  | some (k, i, o) =>
    let w := regWord s p k i o a
    if a = Reg.SEAM_NUM_LO then
      match p with
      | .i3c => ({ s with seam := { s.seam with numHiI3c := s.seam.num / 2 ^ 32 } }, w)
      | _ => ({ s with seam := { s.seam with numHi := s.seam.num / 2 ^ 32 } }, w)
    else if k = .dg && 0xC0 ≤ o && o < 0x100 then
      if p = .i3c then (s, 0) else dgResX ((o - 0xC0) / 4) s
    else if p = .i3c then (s, w)
    else (readClears k o a s, w)

/-- A read by function 0 of a path, or by the VF whose window the address lies in; what it reaches nothing of reads zero. -/
def readAt (p : Path) (addr : Nat) (s : State) : State × Nat :=
  match resolve s p addr with
  | none => (s, 0)
  | some a =>
    if reaches s p 0 a || (0x1000000 ≤ a && (windowOff a).1 ≠ 0 && reaches s p (windowOff a).1 a) then readReg p (a / 4 * 4) s
    else (s, 0)

/-- A read that acts on one word. -/
def readWordX (p : Path) (addr : Nat) (s : State) : State :=
  match readAt p addr s with
  | (s, w) => emit (.word (BitVec.ofNat 32 w)) s

/-- A read of `n` bytes from an address: within one aligned 8-byte unit it acts on each word it touches as a full read of that
word; one that spans more returns zero and acts on nothing (R368). -/
def readBytesX (p : Path) (addr n : Nat) (s : State) : State :=
  if 8 < addr % 8 + n then emit (.word 0) s
  else if addr % 4 + n ≤ 4 then readWordX p (addr / 4 * 4) s
  else readWordX p (addr / 8 * 8 + 4) (readWordX p (addr / 8 * 8) s)

/-- COUNTER_READ: a register word is read, or bytes of up to two words; in RESET nothing is answered. -/
def counterReadX (p : Path) (addr : Nat) (s : State) : State :=
  if dead s then s
  else if addr < 2 ^ 32 then readWordX p addr s
  else readBytesX p (addr % 2 ^ 32) (addr / 2 ^ 32) s

def execCounterRead (p : Path) (addr : Nat) (s : State) : Host.Outcome State Fault Refusal := .next (counterReadX p addr s)

/-! ### BLOCK_CTRL and the interrupt registers (R371, R374, R375) -/

/-- Whether every job and completion ring of an instance has EN clear (R226). -/
def ringsOff (s : State) (i : Nat) : Bool := ((List.range 8).all fun r => !jrEn s i r) && ((List.range 4).all fun c => !crEn s i c)

/-- A write of BLOCK_CTRL: EN is taken, and COMPAT only where EN already reads clear; INST_RING's asks that no ring of the
instance be enabled. -/
def blockCtrlEff (k : PageKind) (i pg v : Nat) (s : State) : State :=
  let a := pg + 0x08
  let change := bit v 1 != pageCompat s pg
  let ringBad := k = .instRing && change && !ringsOff s i
  let s := if ringBad then recErr pg 4 0 s else s
  let s := if change && !pageEn s pg && !ringBad then rSetFld a 1 1 (v / 2) s else s
  rSetFld a 0 0 v s

/-- A write of IRQ_ENABLE, of IRQ_FLAG and of IRQ_FORCE. Under COMPAT a flag is RC, and a write of it is ignored (R8). -/
def irqEnableEff (pg v : Nat) (s : State) : State := withSignal pg (rSet (pg + 0x10) v) s
def irqFlagEff (k : PageKind) (pg v : Nat) (s : State) : State :=
  if pageCompat s pg && k ≠ .instLdg then s else rSet (pg + 0x18) (rGet s (pg + 0x18) &&& (0xFFFFFFFF - v % 2 ^ 32)) s
def irqForceEff (pg v : Nat) (s : State) : State := latch pg v s

/-! ### STAGE_COMMIT (R372, R373) and the commit checks of the pages -/

/-- The pending value of a word, or the committed one. -/
def pendWord (s : State) (a : Nat) : Nat := shadowWord s a
def isPend (s : State) (a : Nat) : Bool := (kFind s.rf.pend a).isSome

/-- The pages whose shadow copies a commit of a page carries: a NOC_STOP page's commit acts as the NOC page's, which
commits the tables of all 48 routers (R266, R286). -/
def inCommit (k : PageKind) (pg a : Nat) : Bool :=
  if k = .noc || k = .nocStop then onNocStop a || pageBase a = Reg.NOC_PAGE
  else pg ≤ a && a < pg + 0x1000

/-- The error code that refuses a commit of the SCHED page (R44). -/
def schedCommitBad (s : State) : Option Nat :=
  let base := pendWord s Reg.SCHED_SAVE_BASE_LO + 2 ^ 32 * pendWord s Reg.SCHED_SAVE_BASE_HI
  let savePend := isPend s Reg.SCHED_SAVE_BASE_LO || isPend s Reg.SCHED_SAVE_BASE_HI
  let tracePend := isPend s Reg.SCHED_TRACE_BASE_LO || isPend s Reg.SCHED_TRACE_BASE_HI || isPend s Reg.SCHED_TRACE_SIZE
  let k := pendWord s Reg.SCHED_TRACE_SIZE
  if savePend && (s.dev.mode ≠ .configure || base % 2 ^ 30 ≠ 0 || 8 * stopBytes < base + 2 ^ 30) then some 1
  else if tracePend && (rBit s Reg.SCHED_TRACE_CTRL 0 || k < 8 || 24 < k) then some 2
  else none

/-- R75: whether the Match Array window of instance n may be committed. -/
def cuffCommitBad (n : Nat) (s : State) : Option Nat :=
  let pend := isPend s (Reg.INST_CUFF_MA_BASE n) || isPend s (Reg.INST_CUFF_MA_SIZE n)
  let b := pendWord s (Reg.INST_CUFF_MA_BASE n)
  let z := pendWord s (Reg.INST_CUFF_MA_SIZE n)
  let meets := fun (m : Nat) =>
    let c := maBase s m
    let y := maSize s m
    m ≠ n && z ≠ 0 && y ≠ 0 && b < c + y && c < b + z
  if !pend then none
  else if 262144 < b + z || !(instJobs s n).isEmpty then some 3
  else if n ≠ 0 && (List.range (numInst - 1)).any (fun m => meets (m + 1)) then some 3
  else none

/-- R236: whether the rings of an instance may be committed. -/
def ringCommitBad (i : Nat) (s : State) : Option Nat :=
  let jr := fun (r : Nat) => [Reg.INST_JR_BASE_LO i r, Reg.INST_JR_BASE_HI i r, Reg.INST_JR_SIZE i r, Reg.INST_JR_CTRL i r,
    Reg.INST_JR_SHADOW_LO i r, Reg.INST_JR_SHADOW_HI i r].any (isPend s)
  let cr := fun (c : Nat) => [Reg.INST_CR_BASE_LO i c, Reg.INST_CR_BASE_HI i c, Reg.INST_CR_SIZE i c].any (isPend s)
  let badK := fun (a : Nat) => isPend s a && (pendWord s a < 4 || 16 < pendWord s a)
  if (List.range 8).any (fun r => (jr r && jrEn s i r) || badK (Reg.INST_JR_SIZE i r))
      || (List.range 4).any (fun c => (cr c && crEn s i c) || badK (Reg.INST_CR_SIZE i c)) then some 4
  else none

/-- R261: whether the pools may be committed. -/
def xlCommitBad (s : State) : Option Nat :=
  let pend := fun (p : Nat) => isPend s (Reg.XL_POOL_BASE_LO p) || isPend s (Reg.XL_POOL_BASE_HI p) || isPend s (Reg.XL_POOL_CFG p)
  let cfg := fun (p : Nat) => pendWord s (Reg.XL_POOL_CFG p)
  let bad := fun (p : Nat) =>
    let chunks := fld (cfg p) 10 0
    let chunk := fld (cfg p) 19 16
    let base := pendWord s (Reg.XL_POOL_BASE_LO p) + 2 ^ 32 * pendWord s (Reg.XL_POOL_BASE_HI p)
    1024 < chunks || chunk = 15 || (chunks ≠ 0 && !inHbm s base (chunks * 65536 * 2 ^ chunk))
  if (List.range 16).any (fun p => pend p && !(poolTaken s p).isEmpty) then some 2
  else if (List.range 16).any (fun p => pend p && bad p) then some 3
  else none

/-- R266: whether a valid entry of a pending table leads off the mesh. -/
def nocCommitBad (s : State) : Option Nat :=
  let bad := fun (p : Nat × W32) => match pageOf p.1 with
    | some (.nocStop, st, _) => bit p.2.toNat 10 && (neighbour st (fld p.2.toNat 7 6)).isNone
    | _ => false
  if s.rf.pend.any bad then some 1 else none

/-- R286, R310, R337 and R363: the other pages' checks. -/
def chanCommitBad (c : Nat) (s : State) : Option Nat :=
  let st := (chanOf s c).state
  if !(st = .idle || st = .disabled) then some 2
  else if isPend s (Reg.BM_CH_OWNER c) && rBit s (Reg.BM_CH_CTRL c) 0 then some 3
  else none
def ldgCommitBad (i : Nat) (s : State) : Option Nat :=
  let k := pendWord s (Reg.INST_LDG_CQ_SIZE i)
  if lcqEn s i || k < 4 || 16 < k then some 3 else none
def hifCommitBad (s : State) : Option Nat :=
  let size := pendWord s (Reg.HIF_CXLWIN_SIZE 0)
  let base := pendWord s (Reg.HIF_CXLWIN_BASE 0)
  let trained := (List.range 8).all fun h =>
    (hmcOf s h).trained || (base + size) * 2 ^ 30 ≤ h * stopBytes || (h + 1) * stopBytes ≤ base * 2 ^ 30
  if 64 < size || (size ≠ 0 && (8 * stopBytes < (base + size) * 2 ^ 30 || !trained)) then some 1
  else if s.dev.decoder then some 2
  else none
def pwrCommitBad (s : State) : Option Nat :=
  let watts := fld (pendWord s Reg.PWR_LIMIT) 8 0
  let target := fld (pendWord s Reg.PWR_CLOCK) 4 0
  if watts < 250 || 450 < watts || target < 10 || 20 < target then some 1 else none
/-- The register program that a commit would set must be a good frame (R124). -/
def sfCommitBad (n : Nat) (s : State) : Option Nat :=
  if frameGood ((List.range 128).flatMap fun k => toBytes 4 (pendWord s (Reg.SF_PGM n k))) then none else some 3

/-- The code that refuses a page's commit, if its checks fail. -/
def commitBad (k : PageKind) (i : Nat) (s : State) : Option Nat :=
  match k with
  | .sched => schedCommitBad s
  | .instCuff => cuffCommitBad i s
  | .instRing => ringCommitBad i s
  | .xl => xlCommitBad s
  | .noc => nocCommitBad s
  | .nocStop => nocCommitBad s
  | .bmCh => chanCommitBad i s
  | .instLdg => ldgCommitBad i s
  | .hif => hifCommitBad s
  | .pwr => pwrCommitBad s
  | .sf => sfCommitBad i s
  | _ => none

/-- One pending word takes effect: its Seam-applied bits wait for the Seam, the others are in effect at once. -/
def commitWord (a w : Nat) (s : State) : State :=
  let m := rowMasks a
  let plain := m.st &&& (0xFFFFFFFF - m.seam)
  let s := if plain = 0 then s else rSet a (mixBits plain (rGet s a) w) s
  if m.seam = 0 then s
  else { s with rf := { s.rf with await := kSet s.rf.await a (BitVec.ofNat 32 (mixBits m.seam (rGet s a) w)) } }

/-- What an accepted commit does beyond its fields: a trace commit clears WR and RD (R44), and a base of the XL page becomes
the selected instance's (R261). -/
def afterCommit (k : PageKind) (pend : KMap W32) (s : State) : State :=
  match k with
  | .sched =>
    if pend.any fun p => p.1 = Reg.SCHED_TRACE_BASE_LO || p.1 = Reg.SCHED_TRACE_BASE_HI || p.1 = Reg.SCHED_TRACE_SIZE then
      traceLevel (rSet Reg.SCHED_TRACE_RD 0 (rSet Reg.SCHED_TRACE_WR 0 s)) else s
  | .xl =>
    if pend.any fun p => p.1 = Reg.XL_RT_BASE_LO || p.1 = Reg.XL_RT_BASE_HI then
      let b := rGet s Reg.XL_RT_BASE_LO + 2 ^ 32 * rGet s Reg.XL_RT_BASE_HI
      { s with xl := { s.xl with rtBase := kSet s.xl.rtBase (rFld s Reg.XL_RT_SEL 10 0) b } }
    else s
  | .hif => if s.dev.memActive then { s with dev := { s.dev with rangeGib := rFld s (Reg.HIF_CXLWIN_SIZE 0) 6 0 } } else s
  | _ => s

/-- A commit of a page's pending fields (R372). -/
def commitPage (k : PageKind) (i pg : Nat) (s : State) : State :=
  if k = .ks then ksCommit s else
  match commitBad k i s with
  | some c => recErr (if k = .nocStop then Reg.NOC_PAGE else pg) c 0 s
  | none =>
    let pend := s.rf.pend.filter fun p => inCommit k pg p.1
    let s := { s with rf := { s.rf with pend := s.rf.pend.filter fun p => !inCommit k pg p.1 } }
    afterCommit k pend (pend.foldl (fun t p => commitWord p.1 p.2.toNat t) s)

/-- DISCARD reloads every shadow copy (R372). -/
def discardPage (k : PageKind) (pg : Nat) (s : State) : State :=
  { s with rf := { s.rf with pend := s.rf.pend.filter fun p => !inCommit k pg p.1 } }

/-- A write of STAGE_COMMIT: DISCARD wins, and a page whose CAPS.COMMIT is clear ignores it. -/
def stageEff (k : PageKind) (i pg v : Nat) (s : State) : State :=
  if !bit (k.caps i) 0 then s
  else if bit v 1 then discardPage k pg s
  else if bit v 0 then commitPage k i pg s
  else s

/-! ### Register writes -/

/-- INST_VEC: a field outside the instance's vectors is ignored (R236). -/
def instVecEff (i v : Nat) (s : State) : State :=
  (List.range 4).foldl (fun t f =>
    let x := fld v (8 * f + 7) (8 * f)
    if x < numVec i then rSetFld (Reg.INST_VEC i) (8 * f + 7) (8 * f) x t else recErr (Reg.INST_RING_PAGE i) 4 0 t) s

/-- PWR_LIMIT: HYST outside 2 to 50 is ignored; WATTS is staged. -/
def pwrLimitEff (v : Nat) (s : State) : State :=
  let h := fld v 21 16
  let s := if 2 ≤ h && h ≤ 50 then rSetFld Reg.PWR_LIMIT 21 16 h s else s
  stageBits Reg.PWR_LIMIT 0x1FF v s

/-- HLT_TLIM: ALERT outside 60 to 105 is ignored. -/
def hltTlimEff (v : Nat) (s : State) : State :=
  let t := fld v 7 0
  if 60 ≤ t && t ≤ 105 then rSetFld Reg.HLT_TLIM 7 0 t s else s

/-- HIF_PTM_CTRL: an INTERVAL of 0 is ignored (Table 15.10). -/
def ptmCtrlEff (i v : Nat) (s : State) : State :=
  let a := Reg.HIF_PTM_CTRL i
  let s := if fld v 15 8 = 0 then s else rSetFld a 15 8 (fld v 15 8) s
  rSetFld a 0 0 v s

/-- What a write of a register does, by page and offset. -/
def regEff (k : PageKind) (i o a : Nat) (v : W32) (s : State) : State :=
  let x := v.toNat
  let pg := a - o
  let plain := plainWrite a x
  match o with
  | 0x08 => blockCtrlEff k i pg x s
  | 0x10 => irqEnableEff pg x s
  | 0x18 => irqFlagEff k pg x s
  | 0x1C => irqForceEff pg x s
  | 0x30 => stageEff k i pg x s
  | _ =>
    if o < 0x40 then s else
    match k with
    | .dev =>
      if 0x88 ≤ o && o < 0x108 then rSet a x s
      else match o with
      | 0x44 => modeReqEff (x % 16) s
      | 0x68 => fwCmdEff x s
      | 0x70 => diagEff (x % 16) (x / 16 % 16) s
      | 0x108 => relEff x s
      | _ => plain s
    | .seam =>
      match o with
      | 0x44 => seamPeriodEff v s
      | 0x48 => seamTolEff v s
      | 0x60 => seamArmEff v s
      | _ => plain s
    | .sched =>
      match o with
      | 0x40 => schedCtrlEff v s
      | 0x58 => traceLevel (plain s)
      | 0x60 => traceLevel (plain s)
      | _ => plain s
    | .instCuff => cuffEff i o v s
    | .instPat =>
      if o = 0x4C then
        match x % 4 with
        | 1 => loadEff i s
        | 2 => retireEff i s
        | _ => s
      else plain s
    | .pkt =>
      match o with
      | 0x40 => pktCtrlEff i v s
      | 0x88 => dbgLoEff i v s
      | 0x8C => dbgHiEff i v s
      | _ => plain s
    | .instRing =>
      if 0x200 ≤ o && o < 0x280 then
        match runIx o 0x200 32 with
        | (c, 0x0C) => crCtrlEff i c v s
        | (c, 0x14) => headBell i c v s
        | _ => plain s
      else if 0x100 ≤ o && o < 0x200 then
        match runIx o 0x100 32 with
        | (r, 0x0C) => jrCtrlEff i r v s
        | _ => plain s
      else match o with
      | 0x44 => instVecEff i x s
      | 0x48 => abortEff i v s
      | _ => plain s
    | .instPush =>
      let r := 4 * ((windowOff a).2 / 0x1000 - 1) + (o - 0x200) / 0x200
      let q := (o - 0x200) % 0x200
      if o < 0x200 || 0xA00 ≤ o then s
      else if q < 0x100 then pushWrite i r q v s
      else if q = 0x100 then tailBell i r v s
      else s
    | .instMa => if o = 0x40 then maCmdEff i (x % 8) s else plain s
    | .hmc =>
      match o with
      | 0x44 => if x % 65536 = 0 then s else plain s
      | 0x84 => ieee1500Eff i v s
      | 0x88 => if port1500 s then plain s else recErr pg 3 0 s
      | _ => plain s
    | .xl =>
      match o with
      | 0x40 => rtSelEff v s
      | 0x58 => invalEff v s
      | 0x60 => promoEff v s
      | _ => plain s
    | .bmCh =>
      match o with
      | 0x40 => bmCtrlEff i x s
      | 0x58 => bmGoEff i x s
      | _ => plain s
    | .ldg => if o = 0x80 then mcmdEff x s else plain s
    | .instLdg =>
      match o with
      | 0x80 => ldgGoEff i x s
      | 0x9C => ldgCqEff i x s
      | 0xA0 => ldgHeadEff i x s
      | _ => plain s
    | .dg => if o = 0x64 then dgGoEff x s else plain s
    | .ks =>
      if 0x48 ≤ o && o < 0x88 then { s with rf := { s.rf with pend := kSet s.rf.pend a v } }
      else if o = 0x90 then ksCmdEff x s
      else plain s
    | .ln => if o = 0x48 then tamperMaskEff x s else plain s
    | .hif =>
      if o = 0x64 then ptmCtrlEff i x s
      else if i ≠ 0 && (o = 0x4C || o = 0x74 || o = 0x78) then s
      else plain s
    | .pwr => if o = 0x40 then pwrLimitEff x s else plain s
    | .hlt => healthLevels (if o = 0x44 then hltTlimEff x s else plain s)
    | _ => plain s

/-- A write of a word by a writer, with all four byte enables (R368): through the aperture where it lies there, to the MSI-X table where it lies there. -/
def writeWord (w : Writer) (addr : Nat) (v : W32) (s : State) : State :=
  if dead s || w.enables ≠ 15 || addr % 4 ≠ 0 then s else
  match resolve s w.path addr with
  | none => s
  | some a =>
    match pageOf a with
    | none =>
      if !(0x1000000 ≤ a && reaches s w.path w.fn a) then s
      else if modeTakes s w.path .instApt then msixWrite a v.toNat s else countEarly w.path s
    | some (k, i, o) =>
      if k = .hmc && (o = 0x84 || o = 0x88) then accept1500 w a (regEff k i o a v) s
      else acceptWrite w a (regEff k i o a v) s

/-- REGISTER_WRITE: one word write of any register. -/
def execRegisterWrite (w : Writer) (addr : Nat) (v : W32) (s : State) : Host.Outcome State Fault Refusal :=
  .next (writeWord w addr v s)

/-! ### The rows of the header's registers -/

/-- STAGE_COMMIT with COMMIT set, and with DISCARD set, on a page. -/
def execStageCommit (w : Writer) (page : Nat) (s : State) : Host.Outcome State Fault Refusal :=
  .next (writeWord w (pageBase page + 0x30) 1 s)
def execStageDiscard (w : Writer) (page : Nat) (s : State) : Host.Outcome State Fault Refusal :=
  .next (writeWord w (pageBase page + 0x30) 2 s)

/-- Writes of IRQ_FLAG, IRQ_FORCE, IRQ_ENABLE and BLOCK_CTRL of a page. -/
def execIrqFlagClear (w : Writer) (page : Nat) (v : W32) (s : State) : Host.Outcome State Fault Refusal :=
  .next (writeWord w (pageBase page + 0x18) v s)
def execIrqForce (w : Writer) (page : Nat) (v : W32) (s : State) : Host.Outcome State Fault Refusal :=
  .next (writeWord w (pageBase page + 0x1C) v s)
def execIrqEnableWrite (w : Writer) (page : Nat) (v : W32) (s : State) : Host.Outcome State Fault Refusal :=
  .next (writeWord w (pageBase page + 0x10) v s)
def execBlockCtrlWrite (w : Writer) (page : Nat) (v : W32) (s : State) : Host.Outcome State Fault Refusal :=
  .next (writeWord w (pageBase page + 0x08) v s)

end Sys2Proof.Machine
end

