-- ==== Sys2Proof/Machine/I3c.lean ====
section
/-! DEFINITION. The management bus: the I3C target's command codes, private transfers and in-band interrupts, the mirror,
and the module bus (R339 to R344). -/

namespace Sys2Proof.Machine

def setI3c (x : I3cSt) (s : State) : State := { s with i3c := x }

/-- Whether the target takes part in the bus, and whether it answers private and direct transfers (R339). -/
def i3cUp (s : State) : Bool := s.i3c.ready && !dead s
def i3cOpen (s : State) : Bool := i3cUp s && s.i3c.da.isSome

/-! ### Common command codes (R339, Table 15.4) -/

/-- A dynamic address is assigned: IRQ_STATUS.DAA pulses. -/
def assignDa (a : Nat) (s : State) : State := pulse Reg.MGT_PAGE 0 (setI3c { s.i3c with da := some (a % 128) } s)

/-- The bytes of a GET code, most significant first, as I3C sends them (PRESUMED, notes/assumptions/53.md). -/
def beBytes (n w : Nat) : List Byte := (toBytes n w).reverse

/-- The 48-bit provisioned ID (R339). -/
def pidOf (s : State) : Nat := s.dev.mipiId % 2 ^ 15 * 2 ^ 33 + 0xA192 * 2 ^ 16 + s.dev.dieNumber % 2 ^ 16

/-- The lowest pending cause; 0 with none. -/
def lowestCause (s : State) : Nat := (s.i3c.causes.head?.map (·.1)).getD 0

/-- Answers a direct GET code. -/
def getCcc (bs : List Byte) (s : State) : State := if i3cOpen s then emit (.ccc bs) s else s

/-- A command code. GETCAPS returns four bytes, and a direct read of RSTACT one, that the spec does not give. -/
def cccX (c : Ccc) (s : State) : State :=
  if !i3cUp s then s else
  let x := s.i3c
  match c with
  | .enec e => setI3c { x with enInt := x.enInt || bit e 0 } s
  | .disec e => setI3c { x with enInt := x.enInt && !bit e 0 } s
  | .rstdaa => setI3c { x with da := none } s
  | .entdaa a => if x.da.isNone then assignDa a s else s
  | .setaasa => if x.da.isNone then assignDa (staticAddr s) s else s
  | .setdasa st a => if x.da.isNone && st = staticAddr s then assignDa a s else s
  | .setnewda a => if x.da.isSome then assignDa a s else s
  | .setmwl n => setI3c { x with mwl := n % 65536 } s
  | .setmrl n => setI3c { x with mrl := n % 65536 } s
  | .getmwl => getCcc (beBytes 2 x.mwl) s
  | .getmrl => getCcc (beBytes 2 x.mrl ++ [5]) s
  | .getpid => getCcc (beBytes 6 (pidOf s)) s
  | .getbcr => getCcc [0x26] s
  | .getdcr => getCcc [0x00] s
  | .getstatus => getCcc (beBytes 2 (lowestCause s)) s
  | .getmxds => getCcc [0x00, 0x00] s
  | .getcaps =>
    let (f, s) := takeFree s
    getCcc (toBytes 4 f) s
  | .enthdr0 => setI3c { x with ddr := true } s
  | .exitHdr => setI3c { x with ddr := false } s
  | .rstact a => setI3c { x with rstAct := a % 256 } s
  | .rstactRead =>
    let (f, s) := takeFree s
    getCcc (toBytes 1 f) s
  | .entas _ => s
  | .unsupported _ => s

def execI3cCcc (ccc : Ccc) (s : State) : Host.Outcome State Fault Refusal := .next (cccX ccc s)

/-! ### Private transfers (R340, R341) -/

/-- Words of register space read ahead from an offset, without side effects (R341). -/
def fetchWords : Nat → Nat → State → State × List W32
  | 0, _, s => (s, [])
  | n + 1, a, s =>
    if 0x1000000 ≤ a then (s, []) else
    match readAt .i3c a s with
    | (s, w) =>
      match fetchWords n (a + 4) s with
      | (s, ws) => (s, BitVec.ofNat 32 w :: ws)

/-- A malformed transfer is ignored and counted. -/
def i3cBad (s : State) : State := bump Reg.MGT_I3C_ERR 1 s

/-- SET_ADDR: the read pointer goes to register space, and up to 16 words are fetched ahead. -/
def setAddrX (off : Nat) (s : State) : State :=
  let a := off / 4 * 4
  match fetchWords 16 a s with
  | (s, ws) => setI3c { s.i3c with toMirror := false, ptr := a, fetched := ws, fetchAt := s.now } s

/-- The words of a private write in order from an offset, as far as they lie in the register window. -/
def i3cWords : List Byte → Nat → List (Nat × W32)
  | b0 :: b1 :: b2 :: b3 :: bs, a =>
    (if a < 0x1000000 then [(a, BitVec.ofNat 32 (ofBytes [b0, b1, b2, b3]))] else []) ++ i3cWords bs (a + 4)
  | _, _ => []

/-- The waiting words take effect in order, as writes of instance 0 over I3C. -/
def i3cDrain (s : State) : State :=
  s.i3c.waiting.foldl (fun t p => writeWord ⟨.i3c, 0, 15⟩ p.1 p.2 t) (setI3c { s.i3c with waiting := [] } s)

/-- A private write, by its first byte (Table 15.5); its address is NACKed while 16 words wait unprocessed. -/
def privateWrite (bs : List Byte) (s : State) : State :=
  if !i3cOpen s then s
  else if 16 ≤ s.i3c.waiting.length then emit .i3cNack s
  else
  match bs with
  | [] => i3cBad s
  | c :: r =>
    if c = 0x01 && r.length = 3 then setAddrX (ofBytes r) s
    else if c = 0x02 && 7 ≤ r.length && r.length ≤ 63 && (r.length - 3) % 4 = 0 then
      setI3c { s.i3c with waiting := s.i3c.waiting ++ i3cWords (r.drop 3) (ofBytes (r.take 3) / 4 * 4) } s
    else if c = 0x03 && r.length = 1 then setI3c { s.i3c with toMirror := true, ptr := ofBytes r, fetched := [] } s
    else i3cBad s

def execSetAddr (bytes : List Byte) (s : State) : Host.Outcome State Fault Refusal := .next (privateWrite bytes s)
def execI3cWrite (bytes : List Byte) (s : State) : Host.Outcome State Fault Refusal := .next (privateWrite bytes s)
def execMirror (bytes : List Byte) (s : State) : Host.Outcome State Fault Refusal := .next (privateWrite bytes s)

/-- A private read of up to 16 words. Mirror words come from the mirror SRAM; register words from what was fetched ahead,
2 µs after SET_ADDR, and before that the header is NACKed. -/
def i3cReadX (n : Nat) (s : State) : State :=
  if !i3cOpen s then s else
  let x := s.i3c
  let k := min n 16
  if x.toMirror then
    let k := min k (256 - x.ptr)
    let ws := (List.range k).map fun i => BitVec.ofNat 32 (rGet s (Reg.MGT_MIRROR (x.ptr + i)))
    emit (.i3cData ws) (setI3c { x with ptr := x.ptr + k } s)
  else if x.ptr ≥ 0x1000000 then emit (.i3cData []) s
  else if x.fetched = [] || s.now < x.fetchAt + 3200 then emit .i3cNack (bump Reg.MGT_RD_NACK 1 s)
  else
    let out := x.fetched.take k
    let rest := x.fetched.drop k
    match fetchWords (16 - rest.length) (x.ptr + 4 * x.fetched.length) s with
    | (s, more) =>
      emit (.i3cData out) (setI3c { s.i3c with ptr := x.ptr + 4 * out.length, fetched := rest ++ more } s)

def execI3cRead (n : Nat) (s : State) : Host.Outcome State Fault Refusal := .next (i3cReadX n s)

/-! ### In-band interrupts (R342) -/

/-- The target requests an in-band interrupt for its lowest pending cause; a NACK leaves the cause pending. -/
def ibiX (acked : Bool) (s : State) : State :=
  if !i3cOpen s || !s.i3c.enInt then s else
  match s.i3c.causes with
  | [] => s
  | (c, w) :: r =>
    if acked then bump Reg.MGT_IBI_SENT 1 (emit (.ibi c w) (setI3c { s.i3c with causes := r } s))
    else pulse Reg.MGT_PAGE 1 (bump Reg.MGT_IBI_NACK 1 s)

def execIbi (acked : Bool) (s : State) : Host.Outcome State Fault Refusal := .next (ibiX acked s)
def execIbiRetry (acked : Bool) (s : State) : Host.Outcome State Fault Refusal := .next (ibiX acked s)

/-! ### The mirror (R343, Table 15.6) -/

/-- A sensor in whole °C, clamped to a byte; 0 without a valid reading. -/
def sensorByte (s : State) (k : Nat) : Nat :=
  match kFind s.pwr.temps k with
  | some t => min 255 (t / 16).toNat
  | none => 0

/-- The mirror words that a pass refreshes every millisecond, after word 1. -/
def mirrorItems (s : State) : List (Nat × Nat) :=
  [(2, hltHotWord s), (3, min s.pwr.pkg 65535 + 65536 * rFld s Reg.PWR_LIMIT 8 0)]
    ++ (List.range 12).map (fun k => (4 + k, ofBytes ((List.range 4).map fun b => BitVec.ofNat 8 (sensorByte s (4 * k + b)))))
    ++ (List.range 6).map (fun k => (16 + k, kGet 0 s.pwr.volts (2 * k) % 65536 + 65536 * (kGet 0 s.pwr.volts (2 * k + 1) % 65536)))
    ++ [(23, 100 * s.pwr.current + 65536 * min (rGet s Reg.PWR_THROTTLE) 65535)]

/-- MIRROR_PASS: the management core writes the items, adds 1 to SEQ, and clears UPDATING and STALE. New error counts raise
the HEALTH interrupt. -/
def mirrorPassX (s : State) : State :=
  if !s.dev.fwUp || dead s then s else
  let seq := rFld s (Reg.MGT_MIRROR 0) 15 0
  let s := if rGet s (Reg.MGT_MIRROR 1) / 256 ≠ mirrorWord1 s / 256 then raiseIbi 1 s else writeWord1 s
  let s := (mirrorItems s).foldl (fun t p => rSet (Reg.MGT_MIRROR p.1) p.2 t) s
  rSet (Reg.MGT_MIRROR 0) ((seq + 1) % 65536) s

def execMirrorPass (s : State) : Host.Outcome State Fault Refusal := .next (mirrorPassX s)

/-- MIRROR_STALE: no pass has completed for 10 ms. -/
def mirrorStaleX (s : State) : State :=
  if dead s then s else recErr Reg.MGT_PAGE 2 0 (rSetFld (Reg.MGT_MIRROR 0) 17 17 1 s)

def execMirrorStale (s : State) : Host.Outcome State Fault Refusal := .next (mirrorStaleX s)

/-! ### The module bus (R344, R246, R347) -/

/-- Usable capacity in 256 MiB units of a module of raw capacity M MiB (R246). -/
def usableUnits (m : Nat) : Nat := min (m * 8 / 9 / 256) 2048

/-- MODULE_IDENTIFY: the firmware reads a module's Identify data over CXL.io and its EEPROM, and the board's. A module
whose Identify fails leaves its half a hole; one whose EEPROM does not answer is still used. The port programs the module's
HDM decoder with its capacity (R338). -/
def moduleIdentifyX (p rawMib : Nat) (ident eeprom board : Bool) (regs : Nat) (s : State) : State :=
  if s.dev.mode ≠ .bringup || !s.dev.fwUp || 2 ≤ p || dead s then s else
  let good := ident && (cxtOf s p).linkUp
  let s := if good then setCxt p { cxtOf s p with modUp := true, units := usableUnits rawMib, hdmMib := rawMib } s else s
  let s := rSetFld Reg.MGT_MOD_STATUS (2 * p) (2 * p) (b2n (good || eeprom)) s
  let s := rSetFld Reg.MGT_MOD_STATUS (2 * p + 1) (2 * p + 1) (b2n eeprom) s
  let s := rSetFld Reg.MGT_MOD_STATUS 11 8 regs (rSetFld Reg.MGT_MOD_STATUS 4 4 (b2n board) s)
  let s := rSet Reg.MGT_BOOT_MOD (bootUs s) s
  let s := if good && eeprom then s else recErr Reg.MGT_PAGE 1 p s
  if eeprom then s else level Reg.MGT_PAGE 2 true s

def execModuleIdentify (port rawMib : Nat) (ident eeprom board : Bool) (regs : Nat) (s : State) :
    Host.Outcome State Fault Refusal :=
  .next (moduleIdentifyX port rawMib ident eeprom board regs s)

/-- MODULE_POLL: the module sensors are polled, and mirror word 22 shows them with the modules present. -/
def modulePollX (temps : List Nat) (s : State) : State :=
  if !s.dev.fwUp || dead s then s else
  let t := fun (k : Nat) => min 255 (temps.getD k 0)
  let present := fun (k : Nat) => b2n (rBit s Reg.MGT_MOD_STATUS (2 * k))
  rSet (Reg.MGT_MIRROR 22) (t 0 + 256 * t 1 + 65536 * present 0 + 131072 * present 1) s

def execModulePoll (temps : List Nat) (s : State) : Host.Outcome State Fault Refusal := .next (modulePollX temps s)

end Sys2Proof.Machine
end

