-- ==== Sys2Proof/Machine/Time.lean ====
section
/-! DEFINITION. What fabric cycles bring by themselves: counts of charge and of busy cycles, stalls, and the queues that
drain (R25, R72, R120, R240, R356). -/

namespace Sys2Proof.Machine

/-- Records of running tasks. -/
def runningTasks (s : State) : KMap TaskRec := s.sched.tasks.filter fun p => p.2.state = .running

/-- Each running task adds a cycle to its instance's charge (R72). -/
def addCharge (n : Nat) (s : State) : State :=
  { s with sched := { s.sched with
      charge := (runningTasks s).foldl (fun m p => kSet m p.2.inst (kGet 0 m p.2.inst + n)) s.sched.charge } }

/-- Pocket-cycles with a task, by Panel (Table 2.10). -/
def countBusy (n : Nat) (s : State) : State :=
  s.pkt.foldl (fun t p => if p.2.task.isSome then bumpFrame (Reg.SCHED_SNAP_BUSY (p.1 / 16)) n t else t) s

/-- The snapshot register of an operator unit's busy cycles. -/
def operBusyReg (u n : Nat) : Nat :=
  match u with
  | 0 => Reg.PNL_HPU_SNAP_BUSY n
  | 1 => Reg.PNL_PU_SNAP_BUSY n
  | _ => Reg.PNL_MN_SNAP_BUSY n

/-- Cycles in which an operator unit runs a command (chapter 06). -/
def countUnits (n : Nat) (s : State) : State :=
  s.opers.foldl (fun t p => if p.2.run.isSome then bumpFrame (operBusyReg (p.1 / 32) (p.1 % 32)) n t else t) s

/-- A Scan Front's output queue drains 64 bytes a cycle, an eighth of its stop's outward capacity, and a stalled Scan Front
counts the cycles until the queue has room (R120). -/
def scanTime (n : Nat) (s : State) : State :=
  s.scans.foldl (fun t p =>
    let lacks := if lacksRoom p.2 then ceilDiv (p.2.outQ + p.2.need - outQueueSize) 64 else 0
    let t := if lacks = 0 then t else bump2 (Reg.SF_THROTTLE p.1) (Reg.SF_SNAP_THROTTLE p.1) (min n lacks) t
    let t := if lacks ≠ 0 && lacks ≤ n then level (Reg.SF_PAGE p.1) 2 false t else t
    if p.2.outQ = 0 then t else setScan p.1 { scanOf t p.1 with outQ := p.2.outQ - 64 * n } t) s

/-- Every Pocket's store buffer drains (R180). -/
def storesTime (s : State) : State := s.pkt.foldl (fun t p => if p.2.stores = [] then t else drainStores p.1 t) s

/-- The I3C target processes its waiting write words (R341). -/
def i3cTime (s : State) : State := if s.i3c.waiting = [] || dead s then s else i3cDrain s

/-- `n` fabric cycles pass. -/
def advance (n : Nat) (s : State) : State :=
  let s := i3cTime s
  let s :=
    if !working s then s
    else drainIdle n (storesTime (scanTime n (countUnits n (countBusy n (addCharge n s)))))
  { s with now := s.now + n, cyc16 := s.cyc16 + n * s.pwr.current }

/-- Time goes on to a cycle that has not been reached. -/
def advanceTo (c : Nat) (s : State) : State := if s.now < c then advance (c - s.now) s else s

end Sys2Proof.Machine
end

