-- ==== Sys2Proof/Machine/Seam.lean ====
section
/-! DEFINITION. The Seam: the ordered actions of Table 2.1, and the holdover tick (R16 to R30, R41, R266, R350, R352, R355
to R358). -/

namespace Sys2Proof.Machine

/-! ### Step 1: the number, TICK, FRAME and the PTM latch (R20, R21, R334) -/

/-- The number of the frame that a Seam opens: the committed load value where ARM is set, else one more (R21). -/
def nextNumber (s : State) : Nat :=
  if rBit s Reg.SEAM_NUM_LOAD 0 then rGet s Reg.SEAM_NUM_SET_LO + 2 ^ 32 * rGet s Reg.SEAM_NUM_SET_HI
  else (s.seam.num + 1) % 2 ^ 64

/-- Step 1, for a tick in cycle `tick` that the blocks see now. -/
def seamNumber (tick : Nat) (s : State) : State :=
  let s := { s with seam := { s.seam with num := nextNumber s, lastTick := tick, frameOpen := s.now, edgeTick := none,
                                          outUntil := tick + 16, stealsFrom := s.now + 64 } }
  let s := if rBit s Reg.SEAM_NUM_LOAD 0 then rSet Reg.SEAM_NUM_LOAD 0 s else s
  ptmLatch .b (ptmLatch .a (trace 7 8 none noTask 0x1FF 0 0 0 (pulse Reg.SEAM_PAGE 0 s)))

/-- Whether SEAM_OUT is driven high: with OUT_EN set, in the 16 cycles from a tick (R20). -/
def seamOut (s : State) : Bool := rBit s Reg.SEAM_CTRL 1 && s.now < s.seam.outUntil

/-! ### Step 2: Seam-applied fields (R266, R373) -/

/-- One committed word takes effect. -/
def applyWord (a : Nat) (w : W32) (s : State) : State := rSet a (mixBits (rowMasks a).seam (rGet s a) w.toNat) s

/-- The exception tables as the NOC_RT registers now hold them, by stop × 8 + entry. -/
def rtTables (s : State) : KMap W32 :=
  (s.rf.val.filter fun p => onNocStop p.1 && 0x40 ≤ p.1 % 0x1000 && p.1 % 0x1000 < 0x60).map fun p =>
    ((p.1 - Reg.NOC_STOP_PAGE 0) / 0x1000 * 8 + (p.1 % 0x1000 - 0x40) / 4, p.2)

/-- The route-table flip, once no packet of the older epoch is left in the mesh (R266). -/
def routeFlip (s : State) : State :=
  if !rtWaits s || oldEpoch s ≠ 0 then s else
  let s := (s.rf.await.filter fun p => onNocStop p.1).foldl (fun t p => applyWord p.1 p.2 t) s
  let s := pulse Reg.NOC_PAGE 3 (bump Reg.NOC_FLIPS 1 s)
  { s with rf := { s.rf with await := s.rf.await.filter fun p => !onNocStop p.1 },
           noc := { s.noc with prev := s.noc.cur, cur := rtTables s, epoch := !s.noc.epoch } }

/-- Step 2. A change of SRC clears LOCKED and HOLDOVER (R19), and the neighbour-refresh generators are reseeded (R242). -/
def seamApply (s : State) : State :=
  let src := seamSrc s
  let mine := s.rf.await.filter fun p => !onNocStop p.1
  let s := mine.foldl (fun t p => applyWord p.1 p.2 t) s
  let s := { s with rf := { s.rf with await := s.rf.await.filter fun p => onNocStop p.1 },
                    hmc := kMap s.hmc fun _ x => { x with nrGen := [] } }
  let s := if seamSrc s = src then s else { s with seam := { s.seam with locked := false, holdover := false } }
  routeFlip s

/-! ### Step 3: snapshots (R72, R273, R373) -/

/-- Instances whose SHARE is 0: they are spent from the frame's first cycle (R72). -/
def zeroShares (s : State) : List Nat :=
  s.rf.val.filterMap fun p =>
    match pageOf p.1 with
    | some (.instCuff, i, o) => if o = 0x40 && fld p.2.toNat 12 0 = 0 then some i else none
    | _ => none

/-- Step 3: the counts of frame `k` become the snapshots, and charges start again. -/
def seamSnapshot (k : Nat) (s : State) : State :=
  let counts := s.sched.charge.foldl (fun m p => kSet m (Reg.INST_CUFF_SNAP_CHARGE p.1) p.2) s.rf.frame
  let s := { s with rf := { s.rf with closed := counts, closedSeam := k, frame := [] },
                    sched := { s.sched with charge := [], spent := [] } }
  (zeroShares s).foldl (fun t i => shareSpentX i t) s

/-! ### Steps 4 to 6: deadlines, budgets, express release (R25, R27, R29, R30) -/

/-- Whether a record is unfinished and due at the end of frame `k`. -/
def dueIn (k : Nat) (t : TaskRec) : Bool :=
  (match t.state with
    | .free => false
    | .retiring => false
    | _ => true) && !t.doomed && !t.noDl && t.deadline = k % 2 ^ 32

/-- A due record that is express or has D_FAIL set ends its job (Table 2.1). -/
def deadlineTask (k n : Nat) (s : State) : State :=
  if (taskOf s n).cls = 3 || (taskOf s n).dFail then endJobIn k (taskOf s n).job stDeadline 0 s else s

/-- A due record with D_FAIL clear that is still unfinished: a MISS event, once per task (Table 2.6). -/
def passTask (n : Nat) (s : State) : State :=
  if (taskOf s n).missed then s else missEvent n 0 (setTask n { taskOf s n with missed := true } s)

/-- Step 4. An express job that has tasks not yet created at its deadline ends too (R30). -/
def seamDeadlines (k : Nat) (s : State) : State :=
  let s := (s.sched.tasks.filter fun p => dueIn k p.2).foldl (fun t p => if dueIn k (taskOf t p.1) then deadlineTask k p.1 t else t) s
  let s := (s.sched.jobs.filter fun p => p.2.kind = .express && p.2.deadline.any fun d => d % 2 ^ 32 = k % 2 ^ 32).foldl
    (fun t p => endJobIn k p.1 stDeadline 0 t) s
  (s.sched.tasks.filter fun p => dueIn k p.2).foldl (fun t p => passTask p.1 t) s

/-- Whether a record is a running task past its budget (R25). -/
def overBudget (s : State) (t : TaskRec) : Bool := t.state = .running && 16 * t.budget < s.now - t.since

/-- The budget of one record: an OVERRUN event, and for a task that is not express a cut, or at the cut limit the end of
its job (R25, R27, Table 2.6). -/
def budgetTask (k n : Nat) (s : State) : State :=
  let t := taskOf s n
  let s := trace 3 4 (some n) t t.runPocket 0 (runTime s t) 0 s
  let limit := rFld s Reg.SCHED_CTRL 15 8
  if t.cls = 3 then s
  else if limit ≠ 0 && t.preempts = limit then endJobIn k t.job stDeadline 0 s
  else setPkt t.runPocket { pktOf s t.runPocket with cut := true } s

/-- Step 5. -/
def seamBudgets (k : Nat) (s : State) : State :=
  (s.sched.tasks.filter fun p => overBudget s p.2).foldl
    (fun t p => if overBudget t (taskOf t p.1) then budgetTask k p.1 t else t) s

/-- Step 6 for one record of a released job: a HELD one is READY with the AGE it has, and all are due in the frame just
opened. -/
def releaseTask (n : Nat) (s : State) : State :=
  let t := taskOf s n
  setTask n { t with state := if t.state = .held then .ready else t.state, deadline := s.seam.num % 2 ^ 32, noDl := false } s

/-- Whether a job is an express job accepted in the frame that closes (R29). -/
def heldJob (x : JobRec) : Bool := x.kind = .express && x.deadline.isNone && x.status.isNone && !x.formed

/-- Step 6 for one express job accepted in the frame that closes: it and its records, those still to be created among
them, are due in the frame just opened (R29, R30). -/
def releaseJob (j : Nat) (x : JobRec) (s : State) : State :=
  (jobTasks s j).foldl (fun t p => releaseTask p.1 t) (setJob j { x with deadline := some s.seam.num } s)

/-- Step 6. -/
def seamRelease (s : State) : State :=
  (s.sched.jobs.filter fun p => heldJob p.2).foldl (fun t p => releaseJob p.1 p.2 t) s

/-! ### Step 9: fences, gating, modes (R41, R271, R350, R352, R357) -/

def setFenced (n : Nat) (v : Bool) (s : State) : State :=
  let r := s.sched.fenced.filter (· ≠ n)
  { s with sched := { s.sched with fenced := if v then n :: r else r } }
def setGated (n : Nat) (v : Bool) (s : State) : State :=
  let r := s.sched.gated.filter (· ≠ n)
  { s with sched := { s.sched with gated := if v then n :: r else r } }

/-- Whether a fenced Panel may be gated: every slot FREE, every Pocket idle, no Partition Unit context bound (R41). -/
def mayGate (s : State) (n : Nat) : Bool :=
  (panelTasks s n).isEmpty && ((List.range 16).all fun q => (pktOf s (16 * n + q)).task.isNone) && !partBound s n

/-- A Panel is gated: its memories leave ON, and its router absorbs (R185, R271). -/
def gatePanel (n : Nat) (ret : Bool) (s : State) : State :=
  setGated n true (setDom n .absorb (setPanelMem n (if ret then .retention else .off) s))

/-- A gated Panel's wake starts: held in a router that is owed responses, else at once (R271, R272). -/
def wakePanel (n : Nat) (s : State) : State :=
  match domOf s n with
  | .off => startWake n s
  | .absorb => if owedTo s (panelStop n) = 0 then startWake n s else setDom n .absorbWake s
  | .absorbWake => if owedTo s (panelStop n) = 0 then startWake n s else s
  | .waking => if panelMem s n = .waking then s else startWake n s
  | _ => s

/-- Step 9 for one Panel. -/
def panelStep (n : Nat) (s : State) : State :=
  let want := fenceWanted s n
  if s.sched.gated.contains n then
    if panelMem s n = .on then
      let s := setGated n false s
      if want then setDom n .fenced s else setDom n .online (setFenced n false s)
    else if want then s
    else wakePanel n s
  else if s.sched.fenced.contains n then
    if !want then setDom n .online (setFenced n false s)
    else if mayGate s n then gatePanel n (rBit s (Reg.PNL_CTRL n) 0) s
    else s
  else if want then setDom n .fenced (setFenced n true s)
  else s

/-- Whether the device is drained (R350). -/
def drained (s : State) : Bool :=
  s.sched.jobs.isEmpty && (s.rings.inst.all fun p => p.2.compl.isEmpty) && s.ldg.cmds.isEmpty && s.ldg.compl.isEmpty
    && (s.pat.cmds.all fun p => !p.2.busy) && s.ma.runs.isEmpty && s.ldg.mrun.isNone && dgHeld s = 0
    && (s.bm.chans.all fun p => p.2.state = .disabled || p.2.state = .idle) && (s.rings.jr.all fun p => p.2.entries.isEmpty)

/-- A Panel enters RETAIN: fenced, gated, its memories in RETENTION; one that was OFF has lost its contents. Its router goes
from ONLINE or FENCED to ABSORB, and a router that absorbs already stays as it is (Table 12.4). -/
def retainPanel (n : Nat) (s : State) : State :=
  let s := if panelMem s n = .off || (panelMem s n = .waking && kGet .off s.pwr.wakeFrom n = .off) then zeroPanel n s else s
  let s := { s with pwr := { s.pwr with wakeFrom := kDel s.pwr.wakeFrom n } }
  let s := setGated n true (setFenced n true (setPanelMem n .retention s))
  if delivers s n then setDom n .absorb s else s

/-- Every pseudo-channel of a controller stop enters self-refresh. -/
def retainStop (h : Nat) (s : State) : State :=
  bump (Reg.HMC_SR_ENTRIES h) (32 - (hmcOf s h).selfRef.length) (setHmc h { hmcOf s h with selfRef := List.range 32 } s)

/-- Entry to RETAIN (R352). -/
def enterRetain (s : State) : State :=
  let s := forN 8 (forN 32 s retainPanel) retainStop
  changeMode .retain { s with pkt := kMap s.pkt fun _ x => { x with lvGated := true } }

/-- The wake from RETAIN starts: every Panel, and the HBM (R352). -/
def startRetainWake (s : State) : State :=
  let s := forN 8 s fun h t => setHmc h { hmcOf t h with selfRef := [] } t
  forN 32 { s with dev := { s.dev with wakeAt := some s.now } } wakePanel

/-- The wake ends with every Panel ON: the length is recorded, the Panels open, and the mode changes. -/
def endRetainWake (start : Nat) (s : State) : State :=
  let s := rSet Reg.PWR_WAKE_US (min ((s.now - start) / 1600) 65535) s
  changeMode (if s.dev.wakeTo = 3 then .service else .configure) (forN 32 s panelStep)

/-- Step 9 in RETAIN. -/
def retainStep (s : State) : State :=
  if s.dev.wakeTo = 0 then s else
  match s.dev.wakeAt with
  | none => startRetainWake s
  | some t => if (List.range 32).all fun n => panelMem s n = .on then endRetainWake t s else s

/-- The end of a drain (R350, R351). -/
def endDrain (s : State) : State :=
  match s.dev.target with
  | 2 => changeMode .configure s
  | 5 => enterRetain s
  | 6 => changeMode .diagnose s
  | 8 => { s with dev := { s.dev with activating := true } }
  | _ => s

/-- Step 9. -/
def seamPower (s : State) : State :=
  let s := healthLevels (clockStep (thermalStep (powerCeiling s)))
  if s.dev.mode = .retain then retainStep s
  else if s.dev.retainReq then enterRetain s
  else
    let s := forN 32 s panelStep
    if s.dev.mode = .drain && !s.dev.activating && drained s then endDrain s else s

/-! ### The whole -/

/-- The Seam of a tick: the blocks see it 12 cycles later (R18), and the actions of Table 2.1 follow in order. -/
def seamAt (tick : Nat) (s : State) : State :=
  let s := advanceTo (tick + 12) s
  let k := s.seam.num
  let s := seamNumber (max tick (s.now - 12)) s
  let s := seamRelease (seamBudgets k (seamDeadlines k (seamSnapshot k (seamApply s))))
  let s := groupCommit k s
  let s := if clocked s then forN 64 s pacing else s
  seamPower s

/-- The cycle of the next tick, unless it is a holdover tick: an accepted edge's, else the counter's (R19). -/
def nextTick (s : State) : Option Nat :=
  match s.seam.edgeTick with
  | some t => some t
  | none => if seamSrc s && s.seam.locked then none else some (s.seam.lastTick + framePeriod s)

/-- SEAM. -/
def seamX (s : State) : State :=
  if !s.seam.running then s else
  match nextTick s with
  | some t => seamAt t s
  | none => s

def execSeam (s : State) : Host.Outcome State Fault Refusal := .next (seamX s)

/-- HOLDOVER_TICK: while locked, no edge was accepted by t = P + T (R19). A full Seam follows. -/
def holdoverX (s : State) : State :=
  if !s.seam.running || !seamSrc s || !s.seam.locked || s.seam.edgeTick.isSome then s else
  let tick := s.seam.lastTick + framePeriod s + seamTol s
  let s := advanceTo tick s
  let s := { s with seam := { s.seam with locked := false, holdover := true } }
  seamAt tick (pulse Reg.SEAM_PAGE 1 (bump Reg.SEAM_MISSED 1 s))

def execHoldoverTick (s : State) : Host.Outcome State Fault Refusal := .next (holdoverX s)

end Sys2Proof.Machine
end

