-- ==== Sys2Proof/Machine/Dispatch.lean ====
section
/-! DEFINITION. The dispatcher of commands: one arm for each constructor of `Instr`, each one direct call of
the meaning of that command. -/

namespace Sys2Proof.Machine

/-- The effect of one command on everything but the queue of waiting commands. -/
def exec (i : Instr) (s : State) : Host.Outcome State Fault Refusal :=
  match i with
  | .seam => Sys2Proof.Machine.execSeam s
  | .seamInEdge => Sys2Proof.Machine.execSeamInEdge s
  | .holdoverTick => Sys2Proof.Machine.execHoldoverTick s
  | .seamPeriodWrite w v => Sys2Proof.Machine.execSeamPeriodWrite w v s
  | .seamTolWrite w v => Sys2Proof.Machine.execSeamTolWrite w v s
  | .seamNumLoRead p => Sys2Proof.Machine.execSeamNumLoRead p s
  | .seamNumLoadArm w v => Sys2Proof.Machine.execSeamNumLoadArm w v s
  | .schedCtrlWrite w v => Sys2Proof.Machine.execSchedCtrlWrite w v s
  | .taskCreate job => Sys2Proof.Machine.execTaskCreate job s
  | .decrement panel => Sys2Proof.Machine.execDecrement panel s
  | .dispatch pocket => Sys2Proof.Machine.execDispatch pocket s
  | .stealProbe panel => Sys2Proof.Machine.execStealProbe panel s
  | .cutTrap pocket => Sys2Proof.Machine.execCutTrap pocket s
  | .saveComplete pocket => Sys2Proof.Machine.execSaveComplete pocket s
  | .shareSpent inst => Sys2Proof.Machine.execShareSpent inst s
  | .patternLoad w inst => Sys2Proof.Machine.execPatternLoad w inst s
  | .patternLoadDone inst => Sys2Proof.Machine.execPatternLoadDone inst s
  | .retire w inst => Sys2Proof.Machine.execRetire w inst s
  | .cuffWrite w inst off v => Sys2Proof.Machine.execCuffWrite w inst off v s
  | .compact job => Sys2Proof.Machine.execCompact job s
  | .reencode job => Sys2Proof.Machine.execReencode job s
  | .packOpen unit => Sys2Proof.Machine.execPackOpen unit s
  | .packAppend unit => Sys2Proof.Machine.execPackAppend unit s
  | .packClose unit => Sys2Proof.Machine.execPackClose unit s
  | .packSave unit => Sys2Proof.Machine.execPackSave unit s
  | .packRestore unit => Sys2Proof.Machine.execPackRestore unit s
  | .packRecover unit => Sys2Proof.Machine.execPackRecover unit s
  | .packAbandon unit => Sys2Proof.Machine.execPackAbandon unit s
  | .scan sf lanes => Sys2Proof.Machine.execScan sf lanes s
  | .scanResume sf lanes => Sys2Proof.Machine.execScanResume sf lanes s
  | .scanAbandon sf => Sys2Proof.Machine.execScanAbandon sf s
  | .hpuInsert panel items => Sys2Proof.Machine.execHpuInsert panel items s
  | .probe panel items => Sys2Proof.Machine.execProbe panel items s
  | .group panel items => Sys2Proof.Machine.execGroup panel items s
  | .lockRetry panel => Sys2Proof.Machine.execLockRetry panel s
  | .takeover panel unit => Sys2Proof.Machine.execTakeover panel unit s
  | .operatorAbandon panel unit => Sys2Proof.Machine.execOperatorAbandon panel unit s
  | .partitionAppend panel items => Sys2Proof.Machine.execPartitionAppend panel items s
  | .partitionFlush panel => Sys2Proof.Machine.execPartitionFlush panel s
  | .partitionRelease panel => Sys2Proof.Machine.execPartitionRelease panel s
  | .partitionReload panel => Sys2Proof.Machine.execPartitionReload panel s
  | .sortrun panel => Sys2Proof.Machine.execSortrun panel s
  | .merge panel items => Sys2Proof.Machine.execMerge panel items s
  | .topk panel => Sys2Proof.Machine.execTopk panel s
  | .lookup => Sys2Proof.Machine.execLookup s
  | .step => Sys2Proof.Machine.execStep s
  | .maInvalidate w inst => Sys2Proof.Machine.execMaInvalidate w inst s
  | .maWrite w inst => Sys2Proof.Machine.execMaWrite w inst s
  | .maValidate w inst => Sys2Proof.Machine.execMaValidate w inst s
  | .maInsert w inst => Sys2Proof.Machine.execMaInsert w inst s
  | .maLoad w inst => Sys2Proof.Machine.execMaLoad w inst s
  | .maDump w inst => Sys2Proof.Machine.execMaDump w inst s
  | .maClear w inst => Sys2Proof.Machine.execMaClear w inst s
  | .arrayOperation => Sys2Proof.Machine.execArrayOperation s
  | .maScrub => Sys2Proof.Machine.execMaScrub s
  | .integerOp p word => Sys2Proof.Machine.execIntegerOp p word s
  | .floatOp p word => Sys2Proof.Machine.execFloatOp p word s
  | .ld p word => Sys2Proof.Machine.execLd p word s
  | .st p word => Sys2Proof.Machine.execSt p word s
  | .fld p word => Sys2Proof.Machine.execFld p word s
  | .fst p word => Sys2Proof.Machine.execFst p word s
  | .ldr p word => Sys2Proof.Machine.execLdr p word s
  | .str p word => Sys2Proof.Machine.execStr p word s
  | .cas p word => Sys2Proof.Machine.execCas p word s
  | .aadd p word => Sys2Proof.Machine.execAadd p word s
  | .branch p word => Sys2Proof.Machine.execBranch p word s
  | .loop p word => Sys2Proof.Machine.execLoop p word s
  | .jl p word => Sys2Proof.Machine.execJl p word s
  | .jr p word => Sys2Proof.Machine.execJr p word s
  | .set p word => Sys2Proof.Machine.execSet p word s
  | .keep p word => Sys2Proof.Machine.execKeep p word s
  | .nop p word => Sys2Proof.Machine.execNop p word s
  | .unit p word => Sys2Proof.Machine.execUnit p word s
  | .unitStallEnd p => Sys2Proof.Machine.execUnitStallEnd p s
  | .matchReq p word => Sys2Proof.Machine.execMatchReq p word s
  | .matchResponse p => Sys2Proof.Machine.execMatchResponse p s
  | .waitd p word => Sys2Proof.Machine.execWaitd p word s
  | .waitdEnd p => Sys2Proof.Machine.execWaitdEnd p s
  | .fence p word => Sys2Proof.Machine.execFence p word s
  | .clean p word => Sys2Proof.Machine.execClean p word s
  | .inv p word => Sys2Proof.Machine.execInv p word s
  | .clinv p word => Sys2Proof.Machine.execClinv p word s
  | .zero p word => Sys2Proof.Machine.execZero p word s
  | .setWayClean p word => Sys2Proof.Machine.execSetWayClean p word s
  | .setWayInv p word => Sys2Proof.Machine.execSetWayInv p word s
  | .setWayClinv p word => Sys2Proof.Machine.execSetWayClinv p word s
  | .clinvVc p word => Sys2Proof.Machine.execClinvVc p word s
  | .call p word => Sys2Proof.Machine.execCall p word s
  | .rdcr p word => Sys2Proof.Machine.execRdcr p word s
  | .wrcr p word => Sys2Proof.Machine.execWrcr p word s
  | .ret p word => Sys2Proof.Machine.execRet p word s
  | .report p word => Sys2Proof.Machine.execReport p word s
  | .rgld p word => Sys2Proof.Machine.execRgld p word s
  | .tlbiAll p word => Sys2Proof.Machine.execTlbiAll p word s
  | .tlbiSlot p word => Sys2Proof.Machine.execTlbiSlot p word s
  | .tlbiInstance p word => Sys2Proof.Machine.execTlbiInstance p word s
  | .l1Fill p => Sys2Proof.Machine.execL1Fill p s
  | .lvGate p => Sys2Proof.Machine.execLvGate p s
  | .pktHalt w p v => Sys2Proof.Machine.execPktHalt w p v s
  | .pktDbgDataHiWrite w p v => Sys2Proof.Machine.execPktDbgDataHiWrite w p v s
  | .vld p word => Sys2Proof.Machine.execVld p word s
  | .vst p word => Sys2Proof.Machine.execVst p word s
  | .vlds p word => Sys2Proof.Machine.execVlds p word s
  | .vsts p word => Sys2Proof.Machine.execVsts p word s
  | .vgath p word => Sys2Proof.Machine.execVgath p word s
  | .vscat p word => Sys2Proof.Machine.execVscat p word s
  | .scaddt p word => Sys2Proof.Machine.execScaddt p word s
  | .scadds p word => Sys2Proof.Machine.execScadds p word s
  | .vunpk p word => Sys2Proof.Machine.execVunpk p word s
  | .vectorArithmetic p word => Sys2Proof.Machine.execVectorArithmetic p word s
  | .vmulwl p word => Sys2Proof.Machine.execVmulwl p word s
  | .vsrr p word => Sys2Proof.Machine.execVsrr p word s
  | .vresc p word => Sys2Proof.Machine.execVresc p word s
  | .vscan p word => Sys2Proof.Machine.execVscan p word s
  | .vunzz p word => Sys2Proof.Machine.execVunzz p word s
  | .vredadd p word => Sys2Proof.Machine.execVredadd p word s
  | .vcomp p word => Sys2Proof.Machine.execVcomp p word s
  | .vectorFloat p word => Sys2Proof.Machine.execVectorFloat p word s
  | .vcmp p word => Sys2Proof.Machine.execVcmp p word s
  | .vwhilelt p word => Sys2Proof.Machine.execVwhilelt p word s
  | .predicateOp p word => Sys2Proof.Machine.execPredicateOp p word s
  | .pcnt p word => Sys2Proof.Machine.execPcnt p word s
  | .vsplat p word => Sys2Proof.Machine.execVsplat p word s
  | .vext p word => Sys2Proof.Machine.execVext p word s
  | .vins p word => Sys2Proof.Machine.execVins p word s
  | .tailDoorbell w inst ring v => Sys2Proof.Machine.execTailDoorbell w inst ring v s
  | .fetchComplete inst ring => Sys2Proof.Machine.execFetchComplete inst ring s
  | .entryAccept inst ring => Sys2Proof.Machine.execEntryAccept inst ring s
  | .completionWrite inst => Sys2Proof.Machine.execCompletionWrite inst s
  | .moderationTimer inst cr => Sys2Proof.Machine.execModerationTimer inst cr s
  | .headDoorbell w inst cr v => Sys2Proof.Machine.execHeadDoorbell w inst cr v s
  | .abort w inst v => Sys2Proof.Machine.execAbort w inst v s
  | .abortResultRead p inst => Sys2Proof.Machine.execAbortResultRead p inst s
  | .ringEnable w inst isCr idx v => Sys2Proof.Machine.execRingEnable w inst isCr idx v s
  | .ringDisable w inst isCr idx v => Sys2Proof.Machine.execRingDisable w inst isCr idx v s
  | .instanceReset inst => Sys2Proof.Machine.execInstanceReset inst s
  | .instanceResetEnd inst => Sys2Proof.Machine.execInstanceResetEnd inst s
  | .hbmRead stop addr len prio => Sys2Proof.Machine.execHbmRead stop addr len prio s
  | .hbmWrite stop addr data prio => Sys2Proof.Machine.execHbmWrite stop addr data prio s
  | .refresh stop pc bank => Sys2Proof.Machine.execRefresh stop pc bank s
  | .selfRefreshEntry stop pc => Sys2Proof.Machine.execSelfRefreshEntry stop pc s
  | .hbmScrub stop pc => Sys2Proof.Machine.execHbmScrub stop pc s
  | .hbmTempRead stack temp => Sys2Proof.Machine.execHbmTempRead stack temp s
  | .hbmTraining stack ok ident => Sys2Proof.Machine.execHbmTraining stack ok ident s
  | .ieee1500Command w stop v => Sys2Proof.Machine.execIeee1500Command w stop v s
  | .cxtLinkDown port => Sys2Proof.Machine.execCxtLinkDown port s
  | .cxtLinkUp port width speed => Sys2Proof.Machine.execCxtLinkUp port width speed s
  | .invalidateAll w v => Sys2Proof.Machine.execInvalidateAll w v s
  | .invalidateInstance w v => Sys2Proof.Machine.execInvalidateInstance w v s
  | .invalidateSlot w v => Sys2Proof.Machine.execInvalidateSlot w v s
  | .invalidationDone => Sys2Proof.Machine.execInvalidationDone s
  | .promote w v => Sys2Proof.Machine.execPromote w v s
  | .demote w v => Sys2Proof.Machine.execDemote w v s
  | .promotionStart => Sys2Proof.Machine.execPromotionStart s
  | .promotionCopyDone idx => Sys2Proof.Machine.execPromotionCopyDone idx s
  | .promotePoll p => Sys2Proof.Machine.execPromotePoll p s
  | .xlRtSelWrite w v => Sys2Proof.Machine.execXlRtSelWrite w v s
  | .meshHop stop inject => Sys2Proof.Machine.execMeshHop stop inject s
  | .linkParityError stop dir plane good => Sys2Proof.Machine.execLinkParityError stop dir plane good s
  | .linkRetrainDone stop dir plane => Sys2Proof.Machine.execLinkRetrainDone stop dir plane s
  | .domainOff panel => Sys2Proof.Machine.execDomainOff panel s
  | .panelMemoryOn panel => Sys2Proof.Machine.execPanelMemoryOn panel s
  | .bmGo w ch v => Sys2Proof.Machine.execBmGo w ch v s
  | .bmPoll ch => Sys2Proof.Machine.execBmPoll ch s
  | .burstIssue ch => Sys2Proof.Machine.execBurstIssue ch s
  | .burstReadResponse ch => Sys2Proof.Machine.execBurstReadResponse ch s
  | .beatResponse ch idx => Sys2Proof.Machine.execBeatResponse ch idx s
  | .bmChEnable w ch v => Sys2Proof.Machine.execBmChEnable w ch v s
  | .bmChDisable w ch v => Sys2Proof.Machine.execBmChDisable w ch v s
  | .channelSunk ch => Sys2Proof.Machine.execChannelSunk ch s
  | .ledgerAppend w inst => Sys2Proof.Machine.execLedgerAppend w inst s
  | .ledgerWrite w inst => Sys2Proof.Machine.execLedgerWrite w inst s
  | .ledgerRead w inst => Sys2Proof.Machine.execLedgerRead w inst s
  | .ledgerFlush w inst => Sys2Proof.Machine.execLedgerFlush w inst s
  | .streamSeal w inst => Sys2Proof.Machine.execStreamSeal w inst s
  | .volumeSeal w inst => Sys2Proof.Machine.execVolumeSeal w inst s
  | .ledgerCommandStart inst => Sys2Proof.Machine.execLedgerCommandStart inst s
  | .ledgerDataRead inst idx ok => Sys2Proof.Machine.execLedgerDataRead inst idx ok s
  | .ledgerCommit inst idx => Sys2Proof.Machine.execLedgerCommit inst idx s
  | .ledgerCompletionWrite inst => Sys2Proof.Machine.execLedgerCompletionWrite inst s
  | .ledgerCqHead w inst v => Sys2Proof.Machine.execLedgerCqHead w inst v s
  | .ledgerCqEnable w inst v => Sys2Proof.Machine.execLedgerCqEnable w inst v s
  | .volCreate w => Sys2Proof.Machine.execVolCreate w s
  | .volFree w => Sys2Proof.Machine.execVolFree w s
  | .streamCreate w => Sys2Proof.Machine.execStreamCreate w s
  | .streamFree w => Sys2Proof.Machine.execStreamFree w s
  | .mdone => Sys2Proof.Machine.execMdone s
  | .pwrfailNFall lowNs => Sys2Proof.Machine.execPwrfailNFall lowNs s
  | .holdupCharged => Sys2Proof.Machine.execHoldupCharged s
  | .digestInit w => Sys2Proof.Machine.execDigestInit w s
  | .digestUpdate w => Sys2Proof.Machine.execDigestUpdate w s
  | .digestFinal w => Sys2Proof.Machine.execDigestFinal w s
  | .digestRelease w => Sys2Proof.Machine.execDigestRelease w s
  | .contextAssign => Sys2Proof.Machine.execContextAssign s
  | .hashBlock => Sys2Proof.Machine.execHashBlock s
  | .dgResRead p k => Sys2Proof.Machine.execDgResRead p k s
  | .erase w v => Sys2Proof.Machine.execErase w v s
  | .tamperEvent src => Sys2Proof.Machine.execTamperEvent src s
  | .wipeEnd => Sys2Proof.Machine.execWipeEnd s
  | .lifeCycleTransition target verified => Sys2Proof.Machine.execLifeCycleTransition target verified s
  | .tamperMaskWrite w v => Sys2Proof.Machine.execTamperMaskWrite w v s
  | .portReset port => Sys2Proof.Machine.execPortReset port s
  | .flr port fn => Sys2Proof.Machine.execFlr port fn s
  | .vfEnableClear port => Sys2Proof.Machine.execVfEnableClear port s
  | .hostLinkDown port => Sys2Proof.Machine.execHostLinkDown port s
  | .configRequest port fn write off data => Sys2Proof.Machine.execConfigRequest port fn write off data s
  | .hostReadFailure consumer cause => Sys2Proof.Machine.execHostReadFailure consumer cause s
  | .ptmRefresh port master => Sys2Proof.Machine.execPtmRefresh port master s
  | .spdmRequest port code => Sys2Proof.Machine.execSpdmRequest port code s
  | .cxlMemRequest write addr data poison => Sys2Proof.Machine.execCxlMemRequest write addr data poison s
  | .i3cCcc ccc => Sys2Proof.Machine.execI3cCcc ccc s
  | .setAddr bytes => Sys2Proof.Machine.execSetAddr bytes s
  | .i3cWrite bytes => Sys2Proof.Machine.execI3cWrite bytes s
  | .mirror bytes => Sys2Proof.Machine.execMirror bytes s
  | .i3cRead n => Sys2Proof.Machine.execI3cRead n s
  | .ibi acked => Sys2Proof.Machine.execIbi acked s
  | .ibiRetry acked => Sys2Proof.Machine.execIbiRetry acked s
  | .mirrorPass => Sys2Proof.Machine.execMirrorPass s
  | .mirrorStale => Sys2Proof.Machine.execMirrorStale s
  | .moduleIdentify port rawMib ident eeprom board regs => Sys2Proof.Machine.execModuleIdentify port rawMib ident eeprom board regs s
  | .modulePoll temps => Sys2Proof.Machine.execModulePoll temps s
  | .voutCommand die mv => Sys2Proof.Machine.execVoutCommand die mv s
  | .pwrokRise straps => Sys2Proof.Machine.execPwrokRise straps s
  | .pwrokFall => Sys2Proof.Machine.execPwrokFall s
  | .resetNFall => Sys2Proof.Machine.execResetNFall s
  | .resetTakesHold => Sys2Proof.Machine.execResetTakesHold s
  | .resetNRise => Sys2Proof.Machine.execResetNRise s
  | .bringupComplete => Sys2Proof.Machine.execBringupComplete s
  | .modeRequestConfigure w => Sys2Proof.Machine.execModeRequestConfigure w s
  | .modeRequestService w => Sys2Proof.Machine.execModeRequestService w s
  | .modeRequestRetain w => Sys2Proof.Machine.execModeRequestRetain w s
  | .modeRequestDiagnose w => Sys2Proof.Machine.execModeRequestDiagnose w s
  | .activate w => Sys2Proof.Machine.execActivate w s
  | .activationRestart ok => Sys2Proof.Machine.execActivationRestart ok s
  | .fwStage w v => Sys2Proof.Machine.execFwStage w v s
  | .fwStageDone result => Sys2Proof.Machine.execFwStageDone result s
  | .testPanelMarch w => Sys2Proof.Machine.execTestPanelMarch w s
  | .testMeshLinks w => Sys2Proof.Machine.execTestMeshLinks w s
  | .testHbmMarch w unit => Sys2Proof.Machine.execTestHbmMarch w unit s
  | .testMatchArrayMarch w => Sys2Proof.Machine.execTestMatchArrayMarch w s
  | .testCxlLoopback w unit => Sys2Proof.Machine.execTestCxlLoopback w unit s
  | .diagDone errors failUnit => Sys2Proof.Machine.execDiagDone errors failUnit s
  | .releaseToken w v => Sys2Proof.Machine.execReleaseToken w v s
  | .powerEstimate deciwatts => Sys2Proof.Machine.execPowerEstimate deciwatts s
  | .powerWindow => Sys2Proof.Machine.execPowerWindow s
  | .sensorSample temps volts => Sys2Proof.Machine.execSensorSample temps volts s
  | .speedIndexRead idx => Sys2Proof.Machine.execSpeedIndexRead idx s
  | .watchdogExpiry => Sys2Proof.Machine.execWatchdogExpiry s
  | .refclkLoss => Sys2Proof.Machine.execRefclkLoss s
  | .stageCommit w page => Sys2Proof.Machine.execStageCommit w page s
  | .stageDiscard w page => Sys2Proof.Machine.execStageDiscard w page s
  | .irqFlagClear w page v => Sys2Proof.Machine.execIrqFlagClear w page v s
  | .irqForce w page v => Sys2Proof.Machine.execIrqForce w page v s
  | .irqEnableWrite w page v => Sys2Proof.Machine.execIrqEnableWrite w page v s
  | .blockCtrlWrite w page v => Sys2Proof.Machine.execBlockCtrlWrite w page v s
  | .counterRead p addr => Sys2Proof.Machine.execCounterRead p addr s
  | .registerWrite w addr v => Sys2Proof.Machine.execRegisterWrite w addr v s
  | .bootRomEnd b0 b1 => Sys2Proof.Machine.execBootRomEnd b0 b1 s
  | .i3cTargetEnable => Sys2Proof.Machine.execI3cTargetEnable s
  | .moduleResetRelease => Sys2Proof.Machine.execModuleResetRelease s
  | .perstRise port => Sys2Proof.Machine.execPerstRise port s
  | .hostLinkUp port speed width flit cxl => Sys2Proof.Machine.execHostLinkUp port speed width flit cxl s
  | .cxtRead port addr len => Sys2Proof.Machine.execCxtRead port addr len s
  | .cxtWrite port addr data => Sys2Proof.Machine.execCxtWrite port addr data s
  | .cxtScrub port => Sys2Proof.Machine.execCxtScrub port s
  | .undefinedInstruction p word => Sys2Proof.Machine.execUndefinedInstruction p word s
  | .pwrfailNRise => Sys2Proof.Machine.execPwrfailNRise s

end Sys2Proof.Machine
end

