-- ==== Sys2Proof/Safety.lean ====
section
/-! DEFINITION. The words that the statements use: what a command leaves as it is, and when a register write acts. -/

namespace Sys2Proof.Machine

/-! ### What is left as it is -/

/-- The components of the state, one for each field of `State` but the queue of waiting commands. -/
inductive Comp where
  | now | freeCtr | rf | seam | sched | pat | rings | xl | hmc | cxt | mem | noc | bm | portA | portB | i3c | dev | pwr | cyc16
  | pkt | packs | scans | opers | ma | dg | keys | ln | ldg | out
  deriving DecidableEq, Repr

/-- Whether a component is the same in two states. -/
def Comp.same (s t : State) : Comp → Prop
  | .now => t.now = s.now
  | .freeCtr => t.freeCtr = s.freeCtr
  | .rf => t.rf = s.rf
  | .seam => t.seam = s.seam
  | .sched => t.sched = s.sched
  | .pat => t.pat = s.pat
  | .rings => t.rings = s.rings
  | .xl => t.xl = s.xl
  | .hmc => t.hmc = s.hmc
  | .cxt => t.cxt = s.cxt
  | .mem => t.mem = s.mem
  | .noc => t.noc = s.noc
  | .bm => t.bm = s.bm
  | .portA => t.portA = s.portA
  | .portB => t.portB = s.portB
  | .i3c => t.i3c = s.i3c
  | .dev => t.dev = s.dev
  | .pwr => t.pwr = s.pwr
  | .cyc16 => t.cyc16 = s.cyc16
  | .pkt => t.pkt = s.pkt
  | .packs => t.packs = s.packs
  | .scans => t.scans = s.scans
  | .opers => t.opers = s.opers
  | .ma => t.ma = s.ma
  | .dg => t.dg = s.dg
  | .keys => t.keys = s.keys
  | .ln => t.ln = s.ln
  | .ldg => t.ldg = s.ldg
  | .out => t.out = s.out

/-- Between two states nothing has changed but the components listed; the queue of waiting commands is the same. -/
def Only (l : List Comp) (s t : State) : Prop := t.pending = s.pending ∧ ∀ c, c ∉ l → c.same s t

/-- The three byte memories are in canonical form. -/
def MemSt.ok (m : MemSt) : Prop := Memory.wf m.dev ∧ Memory.wf m.host ∧ Memory.wf m.ledger

/-- The life-cycle fuses only ever go up, and the SPLIT fuse stays (R328, R330). -/
def DevSt.fuseKept (a b : DevSt) : Prop := a.fuseLc ≤ b.fuseLc ∧ b.fuseSplit = a.fuseSplit

/-- What no command undoes between two states, and that nothing but the components of `L` has changed. -/
structure Keeps (L : Comp → Prop) (r t : State) : Prop where
  pending : t.pending = r.pending
  out     : r.out <+: t.out
  now     : r.now ≤ t.now
  free    : r.freeCtr ≤ t.freeCtr
  mem     : r.mem.ok → t.mem.ok
  fuse    : DevSt.fuseKept r.dev t.dev
  only    : ∀ c, c.same r t ∨ L c

/-- Every register word in effect but those listed is the same in two states. -/
def OnlyRegs (l : List Nat) (s t : State) : Prop := ∀ a, a ∉ l → rGet t a = rGet s a

/-- Every byte of device memory outside `n` bytes from `a` reads as before. -/
def OnlyBytes (a n : Nat) (s t : State) : Prop := ∀ b, ¬(a ≤ b ∧ b < a + n) → memByte t b = memByte s b

/-! ### Register writes -/

/-- Whether a register write acts: something answers, all four bytes are enabled, the writer reaches the page, and the mode
takes the write (R332, R354, R364 to R368). -/
def takes (s : State) (w : Writer) (a : Nat) : Bool :=
  !dead s && w.enables = 15 && reaches s w.path w.fn a && (match pageOf a with
    | some (k, _, _) => modeTakes s w.path k
    | none => false)

/-- What each accepted write leaves on its page: WRITE_GEN has gone up by one and LAST_WRITER names the writer (R376). -/
def Recorded (w : Writer) (pg : Nat) (s t : State) : Prop :=
  rGet t (pg + 0x34) = (rGet s (pg + 0x34) + 1) % 2 ^ 32 ∧ rGet t (pg + 0x38) = (w.fn + 2048 * pathNum w.path) % 2 ^ 32

/-- What a recorded error leaves on its page: ERR_CODE and ERR_ADDR, and ERR_COUNT has gone up by one (R369). -/
def ErrorLeft (pg code addr : Nat) (s t : State) : Prop :=
  rGet t (pg + 0x20) = code % 2 ^ 32 ∧ rGet t (pg + 0x24) = addr % 2 ^ 32 ∧ rGet t (pg + 0x28) = addr / 2 ^ 32 % 2 ^ 32
    ∧ rGet t (pg + 0x2C) = (rGet s (pg + 0x2C) + 1) % 2 ^ 32

/-- The header words that a write and an error of a page may change. -/
def writeWords (pg : Nat) : List Nat := [pg + 0x34, pg + 0x38]
def errWords (pg : Nat) : List Nat := [pg + 0x20, pg + 0x24, pg + 0x28, pg + 0x2C]

/-! ### Pocket instructions -/

/-- An instruction word of a row is fetched at a Pocket that can begin one; `s1` is the state after the fetch (R173, R174,
R176). -/
def Fetched (row : PRow) (p : Nat) (word : W32) (s s1 : State) : Prop :=
  canRun s p = true ∧ rowOfWord word = row ∧ fetchCheck p s = (s1, 0)

/-- A fetched word of a row begins: it does not wait for an outstanding fill (R181). -/
def Begins (row : PRow) (p : Nat) (word : W32) (s s1 : State) : Prop :=
  Fetched row p word s s1 ∧ mustWait (pktOf s1 p) row word = false

/-- An access of `n` bytes at `va` has its places and every line it needs: each piece translates, and none waits for a fill
(R181, R184). -/
def Served (p : Nat) (store : Bool) (va n : Nat) (s s1 : State) (qs : List (Place × Nat)) : Prop :=
  placesOf p store (laneSplit va n) s = (s1, qs, none) ∧ firstMiss (pktOf s1 p) store qs = none ∧
    ∀ g, (pktOf s1 p).fill = some g → meetsFill (pktOf s1 p) store g qs = false

/-- `v` holds `f` in the active ones of its first `n` elements of `w` bits; the others are kept from `d`, or zero with `z`;
the bits above are those of `d` (R189, R192). -/
def Elements (z : Bool) (w n d v : Nat) (act : Nat → Bool) (f : Nat → Nat) : Prop :=
  (∀ e, e < n → elemOf w v e = if act e then f e % 2 ^ w else if z then 0 else elemOf w d e) ∧ v / 2 ^ (w * n) = d / 2 ^ (w * n)

/-! ### Commands of units -/

/-- A Pack Unit runs, at the front of its queue, a live command of one operation whose block was copied. -/
def PackFront (op u : Nat) (c : UnitCmd) (q : List UnitCmd) (s : State) : Prop :=
  working s = true ∧ pageEn s (Reg.PACK_PAGE u) = true ∧ cmdLive s c = true ∧ (packOf s u).queue = c :: q ∧
    c.copied = stOK ∧ packOp c = op

/-! ### What each command may change -/

/-- What an access to physical memory may change: counters, errors and what they raise (a bad task slot
halts the device, R361), and the memories. -/
def physComps : List Comp := [.freeCtr, .rf, .seam, .hmc, .cxt, .mem, .portA, .portB, .i3c, .dev, .out]

/-- What an access through translation may change: a walk into device space stops its instance and ends its jobs,
with their Pockets' tasks and their units' commands (R254). -/
def accessComps : List Comp := physComps ++ [.sched, .pat, .rings, .xl, .pkt, .packs, .scans, .opers, .ma]

/-- Every component but those listed. -/
def allBut (l : List Comp) : List Comp :=
  ([.now, .freeCtr, .rf, .seam, .sched, .pat, .rings, .xl, .hmc, .cxt, .mem, .noc, .bm, .portA, .portB,
    .i3c, .dev, .pwr, .cyc16, .pkt, .packs, .scans, .opers, .ma, .dg, .keys, .ln, .ldg, .out] : List Comp).filter fun c => !l.contains c

/-- The components that a command may change, by its row: every other one is as before. -/
def writes : Instr → List Comp
  | .seam => allBut []
  | .seamInEdge => [.rf, .seam, .out]
  | .holdoverTick => allBut []
  | .seamPeriodWrite _ _ => [.rf]
  | .seamTolWrite _ _ => [.rf]
  | .seamNumLoRead _ => [.seam, .out]
  | .seamNumLoadArm _ _ => [.rf]
  | .schedCtrlWrite _ _ => [.rf]
  | .taskCreate _ => accessComps
  | .decrement _ => [.rf, .seam, .sched, .portA, .portB, .i3c, .dev, .out]
  | .dispatch _ => physComps ++ [.sched, .pat, .rings, .pkt, .packs, .scans, .opers, .ma]
  | .stealProbe _ => physComps ++ [.sched, .pat, .rings, .pkt, .packs, .scans, .opers, .ma]
  | .cutTrap _ => physComps ++ [.sched, .pat, .rings, .pkt, .packs, .scans, .opers, .ma]
  | .saveComplete _ => physComps ++ [.sched, .pat, .rings, .pkt, .packs, .scans, .opers, .ma]
  | .shareSpent _ => [.rf, .sched, .out]
  | .patternLoad _ _ => [.rf, .pat]
  | .patternLoadDone _ => accessComps
  | .retire _ _ => [.rf, .pat, .out]
  | .cuffWrite _ _ _ _ => [.rf]
  | .compact _ => accessComps
  | .reencode _ => accessComps
  | .packOpen _ => accessComps
  | .packAppend _ => accessComps
  | .packClose _ => accessComps
  | .packSave _ => accessComps
  | .packRestore _ => accessComps
  | .packRecover _ => accessComps
  | .packAbandon _ => [.rf, .packs, .out]
  | .scan _ _ => accessComps
  | .scanResume _ _ => accessComps
  | .scanAbandon _ => [.rf, .scans, .out]
  | .hpuInsert _ _ => accessComps
  | .probe _ _ => accessComps
  | .group _ _ => accessComps
  | .lockRetry _ => accessComps
  | .takeover _ _ => [.opers]
  | .operatorAbandon _ _ => [.rf, .opers]
  | .partitionAppend _ _ => accessComps
  | .partitionFlush _ => accessComps
  | .partitionRelease _ => accessComps
  | .partitionReload _ => accessComps
  | .sortrun _ => accessComps
  | .merge _ _ => accessComps
  | .topk _ => accessComps
  | .lookup => [.rf, .dev, .ma, .out]
  | .step => [.rf, .dev, .ma, .out]
  | .maInvalidate _ _ => [.freeCtr, .rf, .ma, .out]
  | .maWrite _ _ => [.freeCtr, .rf, .ma, .out]
  | .maValidate _ _ => [.freeCtr, .rf, .ma, .out]
  | .maInsert _ _ => [.freeCtr, .rf, .ma, .out]
  | .maLoad _ _ => [.freeCtr, .rf, .ma, .out]
  | .maDump _ _ => [.freeCtr, .rf, .ma, .out]
  | .maClear _ _ => [.freeCtr, .rf, .ma, .out]
  | .arrayOperation => accessComps
  | .maScrub => [.rf, .dev, .ma, .out]
  | .integerOp _ _ => accessComps
  | .floatOp _ _ => accessComps
  | .ld _ _ => accessComps
  | .st _ _ => accessComps
  | .fld _ _ => accessComps
  | .fst _ _ => accessComps
  | .ldr _ _ => accessComps
  | .str _ _ => accessComps
  | .cas _ _ => accessComps
  | .aadd _ _ => accessComps
  | .branch _ _ => accessComps
  | .loop _ _ => accessComps
  | .jl _ _ => accessComps
  | .jr _ _ => accessComps
  | .set _ _ => accessComps
  | .keep _ _ => accessComps
  | .nop _ _ => accessComps
  | .unit _ _ => accessComps
  | .unitStallEnd _ => physComps ++ [.sched, .pat, .rings, .pkt, .packs, .scans, .opers, .ma]
  | .matchReq _ _ => accessComps
  | .matchResponse _ => physComps ++ [.sched, .pat, .rings, .pkt, .packs, .scans, .opers, .ma]
  | .waitd _ _ => accessComps
  | .waitdEnd _ => accessComps
  | .fence _ _ => accessComps
  | .clean _ _ => accessComps
  | .inv _ _ => accessComps
  | .clinv _ _ => accessComps
  | .zero _ _ => accessComps
  | .setWayClean _ _ => accessComps
  | .setWayInv _ _ => accessComps
  | .setWayClinv _ _ => accessComps
  | .clinvVc _ _ => accessComps
  | .call _ _ => accessComps
  | .rdcr _ _ => accessComps
  | .wrcr _ _ => accessComps
  | .ret _ _ => accessComps
  | .report _ _ => accessComps
  | .rgld _ _ => accessComps
  | .tlbiAll _ _ => accessComps
  | .tlbiSlot _ _ => accessComps
  | .tlbiInstance _ _ => accessComps
  | .l1Fill _ => accessComps
  | .lvGate _ => [.pkt]
  | .pktHalt _ _ _ => [.rf, .pkt, .out]
  | .pktDbgDataHiWrite _ _ _ => [.rf, .pkt]
  | .vld _ _ => accessComps
  | .vst _ _ => accessComps
  | .vlds _ _ => accessComps
  | .vsts _ _ => accessComps
  | .vgath _ _ => accessComps
  | .vscat _ _ => accessComps
  | .scaddt _ _ => accessComps
  | .scadds _ _ => accessComps
  | .vunpk _ _ => accessComps
  | .vectorArithmetic _ _ => accessComps
  | .vmulwl _ _ => accessComps
  | .vsrr _ _ => accessComps
  | .vresc _ _ => accessComps
  | .vscan _ _ => accessComps
  | .vunzz _ _ => accessComps
  | .vredadd _ _ => accessComps
  | .vcomp _ _ => accessComps
  | .vectorFloat _ _ => accessComps
  | .vcmp _ _ => accessComps
  | .vwhilelt _ _ => accessComps
  | .predicateOp _ _ => accessComps
  | .pcnt _ _ => accessComps
  | .vsplat _ _ => accessComps
  | .vext _ _ => accessComps
  | .vins _ _ => accessComps
  | .tailDoorbell _ _ _ _ => [.rf, .seam, .rings, .portA, .portB, .i3c, .dev, .out]
  | .fetchComplete _ _ => [.rings]
  | .entryAccept _ _ => accessComps
  | .completionWrite _ => [.rf, .sched, .rings, .mem, .out]
  | .moderationTimer _ _ => [.rf, .rings, .out]
  | .headDoorbell _ _ _ _ => [.rf, .rings]
  | .abort _ _ _ => physComps ++ [.sched, .pat, .rings, .pkt, .packs, .scans, .opers, .ma]
  | .abortResultRead _ _ => [.out]
  | .ringEnable _ _ _ _ _ => [.rf, .rings, .mem]
  | .ringDisable _ _ _ _ _ => [.rf, .rings, .mem]
  | .instanceReset _ => accessComps ++ [.bm, .dg, .keys, .ln, .ldg]
  | .instanceResetEnd _ => [.rings]
  | .hbmRead _ _ _ _ => [.freeCtr, .rf, .hmc, .mem, .i3c, .dev, .out]
  | .hbmWrite _ _ _ _ => [.freeCtr, .rf, .hmc, .mem, .i3c, .dev, .out]
  | .refresh _ _ _ => [.hmc]
  | .selfRefreshEntry _ _ => [.rf, .hmc]
  | .hbmScrub _ _ => [.rf, .hmc, .mem, .i3c, .dev, .out]
  | .hbmTempRead _ _ => [.rf, .hmc, .out]
  | .hbmTraining _ _ _ => [.rf, .hmc, .i3c, .dev, .out]
  | .ieee1500Command _ _ _ => [.rf, .out]
  | .cxtLinkDown _ => [.rf, .cxt, .i3c, .dev, .out]
  | .cxtLinkUp _ _ _ => [.rf, .cxt, .out]
  | .invalidateAll _ _ => [.rf, .xl]
  | .invalidateInstance _ _ => [.rf, .xl]
  | .invalidateSlot _ _ => [.rf, .xl]
  | .invalidationDone => [.xl]
  | .promote _ _ => [.rf, .xl]
  | .demote _ _ => [.rf, .xl]
  | .promotionStart => physComps ++ [.sched, .xl]
  | .promotionCopyDone _ => physComps ++ [.sched, .xl]
  | .promotePoll _ => accessComps
  | .xlRtSelWrite _ _ => [.rf]
  | .meshHop _ _ => physComps ++ [.sched, .noc]
  | .linkParityError _ _ _ _ => [.rf, .seam, .noc, .portA, .portB, .i3c, .dev, .out]
  | .linkRetrainDone _ _ _ => [.noc]
  | .domainOff _ => [.noc, .pwr]
  | .panelMemoryOn _ => [.rf, .sched, .mem, .noc, .pwr]
  | .bmGo _ _ _ => accessComps ++ [.bm]
  | .bmPoll _ => accessComps ++ [.bm]
  | .burstIssue _ => accessComps ++ [.bm]
  | .burstReadResponse _ => accessComps ++ [.bm]
  | .beatResponse _ _ => accessComps ++ [.bm]
  | .bmChEnable _ _ _ => [.freeCtr, .rf, .hmc, .mem, .bm]
  | .bmChDisable _ _ _ => [.freeCtr, .rf, .hmc, .mem, .bm]
  | .channelSunk _ => [.rf, .bm]
  | .ledgerAppend _ _ => [.rf, .mem, .ldg, .out]
  | .ledgerWrite _ _ => [.rf, .mem, .ldg, .out]
  | .ledgerRead _ _ => [.rf, .mem, .ldg, .out]
  | .ledgerFlush _ _ => [.rf, .mem, .ldg, .out]
  | .streamSeal _ _ => [.rf, .mem, .ldg, .out]
  | .volumeSeal _ _ => [.rf, .mem, .ldg, .out]
  | .ledgerCommandStart _ => [.rf, .mem, .portA, .portB, .i3c, .dev, .dg, .keys, .ln, .ldg, .out]
  | .ledgerDataRead _ _ _ => [.rf, .mem, .portA, .portB, .i3c, .dev, .dg, .keys, .ln, .ldg, .out]
  | .ledgerCommit _ _ => [.freeCtr, .rf, .mem, .portA, .portB, .i3c, .dev, .dg, .keys, .ln, .ldg, .out]
  | .ledgerCompletionWrite _ => [.rf, .mem, .ldg, .out]
  | .ledgerCqHead _ _ _ => [.rf, .ldg]
  | .ledgerCqEnable _ _ _ => [.rf, .ldg]
  | .volCreate _ => [.rf, .mem, .dg, .ldg]
  | .volFree _ => [.rf, .mem, .dg, .ldg]
  | .streamCreate _ => [.rf, .mem, .dg, .ldg]
  | .streamFree _ => [.rf, .mem, .dg, .ldg]
  | .mdone => [.rf, .mem, .ldg, .out]
  | .pwrfailNFall _ => [.freeCtr, .rf, .mem, .dev, .ldg, .out]
  | .holdupCharged => [.rf, .mem, .portA, .portB, .i3c, .dev, .dg, .keys, .ln, .ldg, .out]
  | .digestInit _ => [.rf, .portA, .portB, .i3c, .dev, .dg, .keys, .ln, .out]
  | .digestUpdate _ => [.rf, .portA, .portB, .i3c, .dev, .dg, .keys, .ln, .out]
  | .digestFinal _ => [.rf, .portA, .portB, .i3c, .dev, .dg, .keys, .ln, .out]
  | .digestRelease _ => [.rf, .portA, .portB, .i3c, .dev, .dg, .keys, .ln, .out]
  | .contextAssign => [.rf, .portA, .portB, .i3c, .dev, .dg, .keys, .ln, .out]
  | .hashBlock => physComps ++ [.dg, .keys, .ln, .ldg]
  | .dgResRead _ _ => [.rf, .i3c, .dev, .dg, .ln, .out]
  | .erase _ _ => [.rf, .portA, .portB, .i3c, .dev, .dg, .keys, .ln, .out]
  | .tamperEvent _ => physComps ++ [.sched, .pat, .rings, .pkt, .packs, .scans, .opers, .ma, .dg, .keys, .ln, .ldg]
  | .wipeEnd => [.rf, .ln, .out]
  | .lifeCycleTransition _ _ => allBut [.now]
  | .tamperMaskWrite _ _ => [.rf, .ln]
  | .portReset _ => accessComps ++ [.bm, .dg, .keys, .ln, .ldg]
  | .flr _ _ => accessComps ++ [.bm, .dg, .keys, .ln, .ldg]
  | .vfEnableClear _ => accessComps ++ [.bm, .dg, .keys, .ln, .ldg]
  | .hostLinkDown _ => accessComps ++ [.bm, .dg, .keys, .ln, .ldg]
  | .configRequest _ _ _ _ _ => accessComps ++ [.bm, .dg, .keys, .ln, .ldg]
  | .hostReadFailure _ _ => accessComps ++ [.bm, .dg, .keys, .ln, .ldg]
  | .ptmRefresh _ _ => [.portA, .portB]
  | .spdmRequest _ _ => [.freeCtr, .portA, .portB, .ln, .out]
  | .cxlMemRequest _ _ _ _ => physComps ++ [.sched]
  | .i3cCcc _ => [.freeCtr, .rf, .i3c, .out]
  | .setAddr _ => [.rf, .seam, .i3c, .dev, .dg, .ln, .out]
  | .i3cWrite _ => [.rf, .seam, .i3c, .dev, .dg, .ln, .out]
  | .mirror _ => [.rf, .seam, .i3c, .dev, .dg, .ln, .out]
  | .i3cRead _ => [.rf, .seam, .i3c, .dev, .dg, .ln, .out]
  | .ibi _ => [.rf, .i3c, .out]
  | .ibiRetry _ => [.rf, .i3c, .out]
  | .mirrorPass => [.rf, .i3c]
  | .mirrorStale => [.rf]
  | .moduleIdentify _ _ _ _ _ _ => [.rf, .cxt, .out]
  | .modulePoll _ => [.rf]
  | .voutCommand _ _ => [.rf, .pwr, .out]
  | .pwrokRise _ => [.dev]
  | .pwrokFall => allBut [.now, .out]
  | .resetNFall => [.rf, .mem, .dev, .ldg, .out]
  | .resetTakesHold => allBut [.now, .out]
  | .resetNRise => [.dev]
  | .bringupComplete => [.rf, .seam, .i3c, .dev, .pwr, .dg, .ldg, .out]
  | .modeRequestConfigure _ => [.rf, .i3c, .dev, .out]
  | .modeRequestService _ => [.rf, .i3c, .dev, .out]
  | .modeRequestRetain _ => [.rf, .i3c, .dev, .out]
  | .modeRequestDiagnose _ => [.rf, .i3c, .dev, .out]
  | .activate _ => [.rf, .i3c, .dev, .out]
  | .activationRestart _ => [.freeCtr, .rf, .i3c, .dev, .out]
  | .fwStage _ _ => [.rf, .dev]
  | .fwStageDone _ => [.rf, .dev, .out]
  | .testPanelMarch _ => [.rf, .hmc, .cxt, .dev]
  | .testMeshLinks _ => [.rf, .hmc, .cxt, .dev]
  | .testHbmMarch _ _ => [.rf, .hmc, .cxt, .dev]
  | .testMatchArrayMarch _ => [.rf, .hmc, .cxt, .dev]
  | .testCxlLoopback _ _ => [.rf, .hmc, .cxt, .dev]
  | .diagDone _ _ => [.rf, .sched, .hmc, .mem, .dev, .ma, .out]
  | .releaseToken _ _ => allBut [.now, .out]
  | .powerEstimate _ => [.rf, .pwr]
  | .powerWindow => [.rf, .pwr, .out]
  | .sensorSample _ _ => [.rf, .seam, .mem, .dev, .pwr, .ldg, .out]
  | .speedIndexRead _ => [.pwr]
  | .watchdogExpiry => [.rf, .seam, .portA, .portB, .i3c, .dev, .out]
  | .refclkLoss => [.rf, .seam, .portA, .portB, .i3c, .dev, .out]
  | .stageCommit _ _ => allBut [.now]
  | .stageDiscard _ _ => allBut [.now]
  | .irqFlagClear _ _ _ => allBut [.now]
  | .irqForce _ _ _ => allBut [.now]
  | .irqEnableWrite _ _ _ => allBut [.now]
  | .blockCtrlWrite _ _ _ => allBut [.now]
  | .counterRead _ _ => [.rf, .seam, .i3c, .dev, .dg, .ln, .out]
  | .registerWrite _ _ _ => allBut [.now]
  | .bootRomEnd _ _ => [.freeCtr, .rf, .portA, .portB, .dev, .ln, .out]
  | .i3cTargetEnable => [.i3c]
  | .moduleResetRelease => [.cxt]
  | .perstRise _ => [.portA, .portB]
  | .hostLinkUp _ _ _ _ _ => [.rf, .portA, .portB, .out]
  | .cxtRead _ _ _ => physComps ++ [.sched]
  | .cxtWrite _ _ _ => physComps ++ [.sched]
  | .cxtScrub _ => physComps
  | .undefinedInstruction _ _ => accessComps
  | .pwrfailNRise => [.dev]

end Sys2Proof.Machine
end

