-- ==== Sys2Proof/Certificates/Slice0/Obligations.lean ====
section
/-! DEFINITION. The statements for the provers. Each docstring names the rules of spec/ that the statement rests on. -/

open Sys2Proof Sys2Proof.Machine

/-- The command at the front of the queue is the one that a step runs, on the queue's rest; with none waiting one fabric
cycle passes (the model's choice, notes/assumptions/2.md). -/
def Obligations.StepRunsTheFrontCommand : Prop :=
  (∀ (c : Instr) (s : State), step { s with pending := c :: s.pending } = exec c s) ∧
  (∀ s : State, s.pending = [] → step s = .next (advance 1 s))

/-- Every command completes: whatever the state, exec answers a next state in which the queue's rest is as it was, and no
component of the state has changed but those that its row's entry in `writes` lists; what has left the part stays, time and
the life-cycle fuses never go back (R328), and the memories keep their canonical form. -/
def Obligations.EveryCommandCompletesAndKeepsItsFrame : Prop :=
  ∀ (c : Instr) (s : State), ∃ t, exec c s = .next t ∧ Keeps (fun k => k ∈ writes c) s t

/-- The model's invariant over every step, from every state: the three byte memories keep their canonical form, the queue
gives up its front and nothing else, time and the fuses do not go back, and what has left the part stays; no step is a fault
or a refusal. -/
def Obligations.StepKeepsTheInvariant : Prop :=
  ∀ s : State, ∃ t, step s = .next t ∧ (s.mem.ok → t.mem.ok) ∧ t.pending = s.pending.tail ∧ s.out <+: t.out ∧ s.now ≤ t.now ∧
    s.freeCtr ≤ t.freeCtr ∧ DevSt.fuseKept s.dev t.dev

/-- The state after reset meets the invariant: its memories list nothing, no command waits, and every page's header holds
the values of Table 17.3. -/
def Obligations.ResetMeetsTheInvariant : Prop :=
  State.reset.mem.ok ∧ State.reset.pending = [] ∧ State.reset.out = [] ∧ State.reset.sched.tasks = [] ∧
  (∀ a, rGet State.reset a = resetWord 0 a) ∧
  (∀ (pg i : Nat) (k : PageKind), pageOf pg = some (k, i, 0) →
    rGet State.reset pg = k.type + 0x100 * i + 0x10000000 ∧ rGet State.reset (pg + 4) = k.caps i ∧ rGet State.reset (pg + 8) = 1 ∧
    ∀ o ∈ [0x10, 0x14, 0x18, 0x20, 0x24, 0x28, 0x2C, 0x34, 0x38], rGet State.reset (pg + o) = 0)

/-- R16, R21, R39 and Table 2.8: what writes of the frame controller's and the dispatcher's checked fields do. R21: a read
of SEAM_NUM_LO returns the low half and latches the high half, for the I3C target in a copy of its own. R19: edges of
SEAM_IN with the external source. -/
def Obligations.FrameControllerFieldsAndEdges : Prop :=
  ((∀ (w : Writer) (v : W32) (s : State), takes s w Reg.SEAM_PERIOD = true →
    let p := v.toNat % 2 ^ 18
    ∃ t, exec (.seamPeriodWrite w v) s = .next t ∧ Recorded w Reg.SEAM_PAGE s t ∧ Only [.rf] s t ∧
      (3200 ≤ p ∧ p ≤ 160000 → fld (shadowWord t Reg.SEAM_PERIOD) 17 0 = p ∧ OnlyRegs (writeWords Reg.SEAM_PAGE) s t) ∧
      (¬(3200 ≤ p ∧ p ≤ 160000) → t.rf.pend = s.rf.pend ∧ ErrorLeft Reg.SEAM_PAGE 1 0 s t
        ∧ OnlyRegs (writeWords Reg.SEAM_PAGE ++ errWords Reg.SEAM_PAGE) s t)) ∧
  (∀ (w : Writer) (v : W32) (s : State), takes s w Reg.SEAM_TOL = true →
    let p := v.toNat % 2 ^ 11
    ∃ t, exec (.seamTolWrite w v) s = .next t ∧ Recorded w Reg.SEAM_PAGE s t ∧ Only [.rf] s t ∧
      OnlyRegs (Reg.SEAM_TOL :: writeWords Reg.SEAM_PAGE) s t ∧
      rGet t Reg.SEAM_TOL = if 16 ≤ p ∧ p ≤ 1600 then p else rGet s Reg.SEAM_TOL) ∧
  (∀ (w : Writer) (v : W32) (s : State), takes s w Reg.SEAM_NUM_LOAD = true →
    ∃ t, exec (.seamNumLoadArm w v) s = .next t ∧ Recorded w Reg.SEAM_PAGE s t ∧ Only [.rf] s t ∧ t.rf.pend = s.rf.pend ∧
      (bit v.toNat 0 = false → rGet t Reg.SEAM_NUM_LOAD = 0
        ∧ OnlyRegs (Reg.SEAM_NUM_LOAD :: writeWords Reg.SEAM_PAGE) s t) ∧
      (bit v.toNat 0 = true → setPending s = false → rGet t Reg.SEAM_NUM_LOAD = 1
        ∧ OnlyRegs (Reg.SEAM_NUM_LOAD :: writeWords Reg.SEAM_PAGE) s t) ∧
      (bit v.toNat 0 = true → setPending s = true → rGet t Reg.SEAM_NUM_LOAD = rGet s Reg.SEAM_NUM_LOAD
        ∧ ErrorLeft Reg.SEAM_PAGE 2 0 s t)) ∧
  (∀ (w : Writer) (v : W32) (s : State), takes s w Reg.SCHED_CTRL = true →
    let r := fld v.toNat 4 2
    ∃ t, exec (.schedCtrlWrite w v) s = .next t ∧ Recorded w Reg.SCHED_PAGE s t ∧ Only [.rf] s t ∧
      rFld t Reg.SCHED_CTRL 1 0 = fld v.toNat 1 0 ∧ rFld t Reg.SCHED_CTRL 15 8 = fld v.toNat 15 8 ∧
      (1 ≤ r ∧ r ≤ 4 → fld (shadowWord t Reg.SCHED_CTRL) 4 2 = r
        ∧ OnlyRegs (Reg.SCHED_CTRL :: writeWords Reg.SCHED_PAGE) s t) ∧
      (¬(1 ≤ r ∧ r ≤ 4) → t.rf.pend = s.rf.pend ∧ ErrorLeft Reg.SCHED_PAGE 3 0 s t))) ∧
  (∀ (p : Path) (s : State), dead s = false →
    ∃ t, exec (.seamNumLoRead p) s = .next t ∧ t.out = s.out ++ [.word (BitVec.ofNat 32 s.seam.num)] ∧
      (p ≠ .i3c → t.seam = { s.seam with numHi := s.seam.num / 2 ^ 32 }) ∧
      (p = .i3c → t.seam = { s.seam with numHiI3c := s.seam.num / 2 ^ 32 }) ∧ Only [.seam, .out] s t) ∧
  (∀ s : State, s.seam.running = true → seamSrc s = true →
    let d := edgeInterval s
    let lo := if s.seam.locked then max (framePeriod s - seamTol s) 3200 else 3200
    ∃ t, exec .seamInEdge s = .next t ∧
      (lo ≤ d → (s.seam.locked = true → d ≤ framePeriod s + seamTol s) →
        t.seam = { s.seam with locked := true, holdover := false, edgeTick := some (s.now + 8) } ∧ Only [.seam] s t) ∧
      (d < lo → t.seam = s.seam ∧ rGet t Reg.SEAM_EARLY = (rGet s Reg.SEAM_EARLY + 1) % 2 ^ 32
        ∧ (s.seam.locked = true → rBit t (Reg.SEAM_PAGE + 0x18) 2 = true) ∧ Only [.rf, .out] s t))

/-- R21, R22 and Table 2.1: a Seam is the nine steps in their order, 12 fabric cycles after the tick; step 1 numbers the
frame that opens, by the committed load value where ARM is set, TICK pulses, steals wait 64 cycles, and SEAM_OUT is high for
16 cycles from the tick while OUT_EN is set (R20, R24). -/
def Obligations.SeamStepsInOrder : Prop :=
  (∀ (s : State) (tick : Nat), s.seam.running = true → nextTick s = some tick →
    let s0 := advanceTo (tick + 12) s
    let s1 := seamNumber (max tick (s0.now - 12)) s0
    let s6 := seamRelease (seamBudgets s0.seam.num (seamDeadlines s0.seam.num (seamSnapshot s0.seam.num (seamApply s1))))
    let s7 := groupCommit s0.seam.num s6
    exec .seam s = .next (seamPower (if clocked s7 then forN 64 s7 pacing else s7))) ∧
  (∀ (s : State), s.seam.running = true → seamSrc s = true → s.seam.locked = true → s.seam.edgeTick = none →
    let tick := s.seam.lastTick + framePeriod s + seamTol s
    ∃ u, exec .holdoverTick s = .next (seamAt tick u) ∧ u.seam.locked = false ∧ u.seam.holdover = true ∧
      rGet u Reg.SEAM_MISSED = (rGet (advanceTo tick s) Reg.SEAM_MISSED + 1) % 2 ^ 32 ∧
      rBit u (Reg.SEAM_PAGE + 0x18) 1 = true) ∧
  (∀ (s : State) (tick : Nat), rBit s Reg.SCHED_TRACE_CTRL 0 = false →
    let t := seamNumber tick s
    t.seam.num = (if rBit s Reg.SEAM_NUM_LOAD 0 then rGet s Reg.SEAM_NUM_SET_LO + 2 ^ 32 * rGet s Reg.SEAM_NUM_SET_HI
      else (s.seam.num + 1) % 2 ^ 64) ∧
    rBit t Reg.SEAM_NUM_LOAD 0 = false ∧ t.seam.lastTick = tick ∧ t.seam.frameOpen = s.now ∧
    rBit t (Reg.SEAM_PAGE + 0x18) 0 = true ∧
    t.seam.outUntil = tick + 16 ∧ t.seam.stealsFrom = s.now + 64 ∧
    (∀ u : State, u.seam = t.seam → (seamOut u = true ↔ rBit u Reg.SEAM_CTRL 1 = true ∧ u.now < tick + 16)))

/-- R30, R25, R27: step 4 leaves no express job running past its deadline; step 5 gives the Pocket of every task past its
budget that is not express a cut where there is no cut limit, and ends the job of one at its cut limit. -/
def Obligations.NoExpressJobOutlivesItsFrame : Prop :=
  (∀ (k : Nat) (s : State) (j : Nat) (x : JobRec), jobOf s j = some x → x.kind = .express →
    x.deadline = some k →
    match jobOf (seamDeadlines k s) j with
    | none => True
    | some y => y.status.isSome = true ∨ y.formed = true) ∧
  (∀ (k n : Nat) (s : State), rBit s Reg.SCHED_TRACE_CTRL 0 = false → overBudget s (taskOf s n) = true → (taskOf s n).cls ≠ 3 →
    (rFld s Reg.SCHED_CTRL 15 8 = 0 → (pktOf (seamBudgets k s) (taskOf s n).runPocket).cut = true) ∧
    (∀ x, s.sched.tasks = [(n, taskOf s n)] → rFld s Reg.SCHED_CTRL 15 8 ≠ 0 → (taskOf s n).preempts = rFld s Reg.SCHED_CTRL 15 8 →
      jobOf s (taskOf s n).job = some x →
      match jobOf (seamBudgets k s) (taskOf s n).job with
      | none => True
      | some y => y.status.isSome = true ∨ y.formed = true))

/-- R35, R54, R57, R61, R68: a job's next task is created in the lowest free slot of its home Panel, PENDING until its
predecessors have ended, with the number of them in DEP_COUNT; more than 8 successors go to the overflow list. A persistent
parity error in the job's record is fatal instead (Table 16.7). R36: a decrement takes one from DEP_COUNT of its target, and
the last one makes the record READY with a new AGE; a stale one is counted and discarded, and one that finds DEP_COUNT 0 is
an error. -/
def Obligations.TaskCreationAndDecrements : Prop :=
  ((∀ (j st m n k : Nat) (x : JobRec) (sl : PatSlot) (s : State),
    working s = true → jobOf s j = some x → x.bad = false → x.status = none → x.formed = false →
    jobSlot s x = some sl → nextMorsel s j x sl.stages = some (st, m) →
    instSlots s x.inst < rFld s (Reg.INST_CUFF_SLOTS x.inst) 16 0 →
    (let stage := sl.stages.getD st ⟨0, 0, 0, []⟩
     let tm := sl.templates.getD stage.template ⟨0, 0, 0, false, false, 0, 0, 0, 0, 0⟩
     homeFor s (if x.kind = .express then sl.expPanel else placePanel tm x.serial m (x.counts.getD st 1)) = some n) →
    freeSlot s n = some k →
    let len := (successors sl.stages st m).length
    let dep := depCount x.counts (sl.stages.getD st ⟨0, 0, 0, []⟩) m
    (len ≤ 8 → ∃ t, exec (.taskCreate j) s = .next t ∧ Only [.sched] s t ∧
      (∀ q, q ≠ 2048 * n + k → taskOf t q = taskOf s q) ∧
      (∀ i, i ≠ j → jobOf t i = jobOf s i) ∧
      let r := taskOf t (2048 * n + k)
      r.dep = dep ∧ (dep ≠ 0 → r.state = .pending) ∧ (dep = 0 → x.kind ≠ .express → r.state = .ready) ∧
      (dep = 0 → x.kind = .express → r.state = if x.deadline.isNone then .held else .ready) ∧
      (x.kind = .express → r.cls = 3) ∧ r.inst = x.inst ∧ r.serial = x.serial ∧ r.stage = st ∧ r.morsel = m ∧
      r.age = s.now % 2 ^ 48 ∧ r.preempts = 0 ∧ r.runPocket = 0x1FF ∧ r.nsucc = len ∧ r.ovfCount = 0) ∧
    (8 < len →
      let nums := (successors sl.stages st m).map fun q => (recordOf s j q.1 q.2).getD 0xFFFF
      let a := x.paramAddr + sl.paramLen + kGet 0 (listParts sl.stages x.counts).1 st + m * (len - 8) * 2
      let s1 := setJob j { x with created := x.created.set st ((x.created.getD st []) ++ [m]) } s
      let w := vWrite (tlbCollar (instPort s1 x.inst)) x.inst a ((nums.drop 8).flatMap (toBytes 2)) s1
      w.2 = stOK → ∃ t, exec (.taskCreate j) s = .next t ∧ t = setTask (2048 * n + k) (taskOf t (2048 * n + k)) w.1 ∧
        let r := taskOf t (2048 * n + k)
        r.dep = dep ∧ r.nsucc = 8 ∧ r.succ = nums.take 8 ∧ r.ovfCount = len - 8 ∧ r.ovfAddr = a ∧ r.stage = st ∧
          r.morsel = m ∧ r.inst = x.inst ∧ r.job = j)) ∧
  (∀ (j : Nat) (s : State), working s = true → jobBad s j = true →
    ∃ t, exec (.taskCreate j) s = .next t ∧ t.dev.fatal = 2 ∧ t.seam.running = false ∧ t.sched = s.sched)) ∧
  (∀ (n : Nat) (d : Decr) (s : State), working s = true →
    s.sched.decrs.find? (fun d => d.target / 2048 = n) = some d → slotBad s d.target = false →
    let r := taskOf s d.target
    ∃ t, exec (.decrement n) s = .next t ∧ t.sched.decrs = s.sched.decrs.eraseP (fun d => d.target / 2048 = n) ∧
      (∀ q, q ≠ d.target → taskOf t q = taskOf s q) ∧ Only [.rf, .out, .sched] s t ∧
      (decrStale r d = true → taskOf t d.target = r ∧ rGet t Reg.SCHED_DEC_STALE = (rGet s Reg.SCHED_DEC_STALE + 1) % 2 ^ 32
        ∧ OnlyRegs [Reg.SCHED_DEC_STALE] s t) ∧
      (decrStale r d = false → r.dep = 0 → taskOf t d.target = r
        ∧ rGet t Reg.SCHED_DEC_UNDER = (rGet s Reg.SCHED_DEC_UNDER + 1) % 2 ^ 32
        ∧ ErrorLeft Reg.SCHED_PAGE 4 0 s t) ∧
      (decrStale r d = false → 1 < r.dep → taskOf t d.target = { r with dep := r.dep - 1 } ∧ t.rf = s.rf) ∧
      (decrStale r d = false → r.dep = 1 → taskOf t d.target =
          (if r.state = .pending then { r with dep := 0, state := .ready, age := s.now % 2 ^ 48 } else { r with dep := 0 })
        ∧ t.rf = s.rf))

/-- R38: the task that select() names is READY on the Panel and eligible, and no other eligible READY task of the Panel
comes before it, as long as the ready stamps lie within half the range of their 48 bits. R38, R39, R178, R179: a Pocket with
no task is given the selected task of its Panel, or one stolen from the nearest victim that offers one: the record is
RUNNING on it; a task that has not run before starts in user mode at its entry point, and a saved one goes on with every
register as its save area holds it. -/
def Obligations.SelectionDispatchAndSteal : Prop :=
  (∀ (s : State) (n k e : Nat) (r : TaskRec), select s n = some (k, r) → e < 2 ^ 48 →
    (∀ q, q ∈ readyTasks s n → q.2.age < 2 ^ 48 ∧ (q.2.age + 2 ^ 48 - e) % 2 ^ 48 < 2 ^ 47) →
    (k, r) ∈ readyTasks s n ∧ eligible s r = true ∧
    ∀ q, q ∈ readyTasks s n → eligible s q.2 = true → taskBefore s q (k, r) = false) ∧
  ((∀ (p n : Nat) (r : TaskRec) (x : JobRec) (s : State), working s = true → pocketIdle s p = true →
    select s (p / 16) = some (n, r) → slotBad s n = false → rBit s Reg.SCHED_TRACE_CTRL 0 = false →
    jobOf s (taskOf s n).job = some x →
    ((taskOf s n).saved = false → ∃ t, exec (.dispatch p) s = .next t ∧
      (let y := pktOf t p
       y.task = some n ∧ y.priv = false ∧ y.uacc = false ∧ y.ie = true ∧ y.nest = false ∧ y.cut = false ∧ y.wait = .none ∧
         y.fcsr = 0 ∧ kGet 0 y.g 0 = 0 ∧ kGet 0 y.g 1 = BitVec.ofNat 64 n ∧ y.v = []) ∧
      (x.kind = .run →
        taskOf t n = { taskOf s n with state := .running, runPocket := p, since := s.now } ∧
        (∀ q, q ≠ n → taskOf t q = taskOf s q) ∧ (∀ q, q ≠ p → pktOf t q = pktOf s q) ∧
        (let y := pktOf t p
         y.regions = taskRegs s p x.inst ∧ kGet 0 y.g 2 = BitVec.ofNat 64 (taskOf s n).paramAddr ∧ kGet 0 y.g 4 = BitVec.ofNat 64 (taskOf s n).morsel
           ∧ kGet 0 y.g 5 = BitVec.ofNat 64 (taskOf s n).stage) ∧
        Only [.rf, .sched, .pkt] s t)) ∧
    ((taskOf s n).saved = true →
      let i := pocketInit p (taskOf s n).inst (taskOf s n).cls
      let s0 := bumpFrame (Reg.SCHED_SNAP_DISPATCH (p / 16)) 1 (setTask n
        { taskOf s n with state := .running, runPocket := p, since := s.now }
        { s with sched := { s.sched with roused := p :: s.sched.roused.filter (· ≠ p) } })
      let r0 := meshRead i (saveArea s0 n) 8192 s0
      let word := fun (o k : Nat) => ofBytes ((r0.2.2.drop o).take k)
      let r1 := meshRead i (saveArea r0.1 n + 0x2000) (min 8 (word 0x11A0 8 % 16) * 1024) r0.1
      let r2 := physWrite (scratchAddr p) r1.2.2 r1.1
      r0.2.1 = stOK → r1.2.1 = stOK → r2.2 = stOK →
      ∃ t, exec (.dispatch p) s = .next t ∧
        let y := pktOf t p
        y.task = some n ∧ y.priv = false ∧ y.ie = true ∧ y.epc = word 0x1180 8 ∧ y.pc = word 0x1180 8 % 2 ^ 48 / 4 * 4 ∧
          y.vxStart = word 0x1190 8 ∧ y.v = loadRegs 1024 32 (r0.2.2.drop 0x100) 128 ∧
          y.pr = loadRegs 128 8 (r0.2.2.drop 0x1100) 16 ∧ y.g = kDel (loadRegs 64 32 r0.2.2 8) 0)) ∧
  (∀ (p : Nat) (s : State), working s = true → pocketIdle s p = true → select s (p / 16) = none →
    rBit s Reg.SCHED_TRACE_CTRL 0 = false →
    exec (.dispatch p) s = .next { s with sched := { s.sched with roused := s.sched.roused.filter (· ≠ p) } }) ∧
  (∀ (n p m k : Nat) (r : TaskRec) (x : JobRec) (s : State), working s = true → maySteal s n = true →
    freePocketOf s n = some p →
    (candidates s n).findSome? (fun m => (offer s m).map fun t => (m, t)) = some (m, k, r) →
    rBit s Reg.SCHED_TRACE_CTRL 0 = false → jobOf s (taskOf s k).job = some x → (taskOf s k).saved = false →
    ∃ t, exec (.stealProbe n) s = .next t ∧ (pktOf t p).task = some k ∧ (pktOf t p).priv = false ∧
      (x.kind = .run →
        taskOf t k = { taskOf s k with state := .running, runPocket := p, since := s.now } ∧
        (agentOf t m).lostAt = some s.now ∧ (m ≠ n → (agentOf t n).tookAt = some s.now) ∧
        (∀ q, q ≠ k → taskOf t q = taskOf s q) ∧ (∀ q, q ≠ p → pktOf t q = pktOf s q) ∧ Only [.rf, .sched, .pkt] s t)) ∧
  (∀ (n : Nat) (s : State), working s = true → maySteal s n = true →
    (candidates s n).findSome? (fun m => (offer s m).map fun t => (m, t)) = none →
    ∃ t, exec (.stealProbe n) s = .next t ∧ (agentOf t n).waitTo = s.now + 256 ∧ Only [.sched] s t))

/-- R25, R28, R70, R72, R176, R238: at an instruction boundary a cut interrupt traps with CUT and its record is SAVING; the
save's completion puts the registers and the declared scratchpad into the save area, returns the record to READY with a new
AGE and one more in PREEMPTS and frees the Pocket; a save of a record whose job has ended frees both, and one whose accesses
fail ends the job; a share that is spent pulses SPENT once a frame and is counted. -/
def Obligations.CutsAndShares : Prop :=
  (∀ (p n : Nat) (s : State), working s = true → (pktOf s p).cut = true → (pktOf s p).ie = true →
    (pktOf s p).halted = false → (∀ k, (pktOf s p).wait ≠ .resp k) → (∀ k, (pktOf s p).wait ≠ .fill k) →
    (pktOf s p).fill = none → (pktOf s p).nest = false → (pktOf s p).task = some n →
    ∃ t, exec (.cutTrap p) s = .next t ∧ taskOf t n = { taskOf s n with state := .saving } ∧
      (∀ q, q ≠ n → taskOf t q = taskOf s q) ∧ (∀ q, q ≠ p → pktOf t q = pktOf s q) ∧
      pktOf t p = { pktOf s p with
        cut := false, wait := .none, epc := (pktOf s p).pc, cause := causeCut, taddr := 0,
        ppriv := (pktOf s p).priv, nest := (pktOf s p).priv, priv := true, ie := false, uacc := false,
        pc := (pktOf s p).tvec % 2 ^ 48, asked := false, filled := [] } ∧
      rGet t (Reg.PKT_TRAPS p) = (rGet s (Reg.PKT_TRAPS p) + 1) % 2 ^ 32 ∧ OnlyRegs [Reg.PKT_TRAPS p] s t ∧
      kGet 0 t.rf.frame (Reg.SCHED_SNAP_CUT (n / 2048)) = kGet 0 s.rf.frame (Reg.SCHED_SNAP_CUT (n / 2048)) + 1 ∧
      Only [.rf, .sched, .pkt] s t) ∧
  (∀ (p n : Nat) (s : State), working s = true → (pktOf s p).task = some n → (taskOf s n).state = .saving →
    (taskOf s n).doomed = false → rBit s Reg.SCHED_TRACE_CTRL 0 = false →
    let r := taskOf s n
    let kib := min 8 (saveKibOf s r)
    let r0 := physRead (scratchAddr p) (kib * 1024) (lvWake p s)
    let r1 := meshWrite (pocketInit p r.inst r.cls) (saveArea r0.1 n) (saveImage (pktOf s p) kib ++ r0.2.2) r0.1
    r0.2.1 = stOK → r1.2 = stOK →
    ∃ t, exec (.saveComplete p) s = .next t ∧
      t = (let u := freePocket p r1.1
           setTask n { taskOf u n with state := .ready, age := s.now % 2 ^ 48, preempts := min 255 (r.preempts + 1),
                                       saved := true } u) ∧
      (pktOf t p).task = none ∧ (pktOf t p).cut = false ∧ (pktOf t p).regions = [] ∧ (taskOf t n).state = .ready) ∧
  (∀ (p n : Nat) (s : State), working s = true → (pktOf s p).task = some n → (taskOf s n).doomed = true →
    ∃ t, exec (.saveComplete p) s = .next t ∧ (taskOf t n).state = .free ∧ (pktOf t p).task = none) ∧
  (∀ (i : Nat) (s : State), s.seam.running = true → shareSpent s i = true → i < numInst →
    ∃ t, exec (.shareSpent i) s = .next t ∧
      (s.sched.spent.contains i = false → t.sched = { s.sched with spent := i :: s.sched.spent } ∧
        rGet t (Reg.INST_CUFF_SPENT i) = (rGet s (Reg.INST_CUFF_SPENT i) + 1) % 2 ^ 32 ∧
        rBit t (Reg.INST_CUFF_PAGE i + 0x18) 0 = true ∧ Only [.rf, .out, .sched] s t) ∧
      (s.sched.spent.contains i = true → t = s))

/-- R33, Table 2.3: a task record is its 64 bytes. Every field is read back from them, whatever record they are read into,
and the dispatcher's own fields stay those of that record. -/
def Obligations.TaskRecordsAreTheirBytes : Prop :=
  ∀ t old : TaskRec, t.cls < 4 → t.preempts < 256 → t.gen < 256 → t.inst < 2 ^ 11 → t.serial < 2 ^ 16 → t.dep < 2 ^ 16 →
    t.nsucc < 16 → t.ovfCount < 2 ^ 12 → t.deadline < 2 ^ 32 → t.succ.length = 8 → (∀ x ∈ t.succ, x < 2 ^ 16) → t.ovfAddr < 2 ^ 48 →
    t.template < 2 ^ 16 → t.paramAddr < 2 ^ 48 → t.budget < 2 ^ 16 → t.age < 2 ^ 48 → t.tag < 2 ^ 16 → t.runPocket < 512 →
    t.stage < 256 → t.morsel < 2 ^ 32 →
    (taskBytes t).length = 64 ∧
    taskOfBytes old (taskBytes t) = { t with job := old.job, since := old.since, missed := old.missed, saved := old.saved,
                                             doomed := old.doomed }

/-- R46, R47, R49, R50, R63: LOAD reserves the slot and runs; the end of the image read leaves the slot RESIDENT with result
OK or EMPTY with the status of the check that failed; RETIRE ends at once. Table 3.11: a checked field of INST_CUFF takes a
value in its range and refuses another with its error code. -/
def Obligations.PatternAndCuffCommands : Prop :=
  ((∀ (w : Writer) (i : Nat) (s : State), takes s w (Reg.INST_PAT_CMD i) = true → i < numInst → working s = true →
    (patCmdOf s i).busy = false → stagePending s (Reg.INST_PAT_PAGE i) = false → slotOf s i (patSlotSel s i) = none →
    ∃ t, exec (.patternLoad w i) s = .next t ∧ Recorded w (Reg.INST_PAT_PAGE i) s t ∧
      patCmdOf t i = { busy := true, slot := patSlotSel s i } ∧
      (slotOf t i (patSlotSel s i)).map (fun x => (x.state, x.addr)) = some (.loading, patAddr s i) ∧
      (∀ j k, j * 64 + k ≠ i * 64 + patSlotSel s i → slotOf t j k = slotOf s j k)) ∧
  (∀ (w : Writer) (i : Nat) (s : State), takes s w (Reg.INST_PAT_CMD i) = true → i < numInst → working s = true →
    (patCmdOf s i).busy = true →
    ∃ t u, exec (.patternLoad w i) s = .next t ∧ exec (.retire w i) s = .next u ∧ t = u ∧ t.pat = s.pat ∧
      ErrorLeft (Reg.INST_PAT_PAGE i) 1 0 s t) ∧
  (∀ (i : Nat) (x : PatSlot) (s : State), working s = true → (patCmdOf s i).busy = true → i < numInst →
    slotOf s i (patCmdOf s i).slot = some x → x.state = .loading →
    ∃ t, exec (.patternLoadDone i) s = .next t ∧ (patCmdOf t i).busy = false ∧
      rBit t (Reg.INST_PAT_PAGE i + 0x18) 0 = true ∧
      ((patCmdOf t i).result = stOK → ∃ y, slotOf t i (patCmdOf s i).slot = some y ∧ y.state = .resident ∧ y.addr = x.addr) ∧
      ((patCmdOf t i).result ≠ stOK → slotOf t i (patCmdOf s i).slot = none)) ∧
  (∀ (w : Writer) (i : Nat) (x : PatSlot) (s : State), takes s w (Reg.INST_PAT_CMD i) = true → i < numInst →
    working s = true → (patCmdOf s i).busy = false → stagePending s (Reg.INST_PAT_PAGE i) = false →
    slotOf s i (patSlotSel s i) = some x → x.state = .resident →
    ∃ t, exec (.retire w i) s = .next t ∧ (patCmdOf t i).busy = false ∧ (patCmdOf t i).result = stOK ∧
      rBit t (Reg.INST_PAT_PAGE i + 0x18) 0 = true ∧
      (slotOf t i (patSlotSel s i) = none ∨ slotOf t i (patSlotSel s i) = some { x with state := .retiring }))) ∧
  (∀ (w : Writer) (i off : Nat) (v : W32) (s : State), i < numInst → off < 0x1000 →
    takes s w (Reg.INST_CUFF_PAGE i + off) = true →
    let pg := Reg.INST_CUFF_PAGE i
    let x := v.toNat
    ∃ t, exec (.cuffWrite w i off v) s = .next t ∧ Recorded w pg s t ∧
      (off = 0x40 → x % 2 ^ 13 ≤ 4096 → fld (shadowWord t (pg + 0x40)) 12 0 = x % 2 ^ 13 ∧ OnlyRegs (writeWords pg) s t) ∧
      (off = 0x40 → 4096 < x % 2 ^ 13 → ErrorLeft pg 4 0 s t ∧ t.rf.pend = s.rf.pend) ∧
      (off = 0x44 → (x % 2 ^ 17 = 0 ∨ 128 ≤ x % 2 ^ 17 ∧ x % 2 ^ 17 ≤ 65536) → rGet t (pg + 0x44) = x % 2 ^ 17) ∧
      (off = 0x44 → ¬(x % 2 ^ 17 = 0 ∨ 128 ≤ x % 2 ^ 17 ∧ x % 2 ^ 17 ≤ 65536) → ErrorLeft pg 1 0 s t
        ∧ rGet t (pg + 0x44) = rGet s (pg + 0x44)) ∧
      (off = 0x48 → jobsReserved s i + x % 2 ^ 15 ≤ 16384 → rGet t (pg + 0x48) = x % 2 ^ 15) ∧
      (off = 0x48 → 16384 < jobsReserved s i + x % 2 ^ 15 → ErrorLeft pg 2 0 s t ∧ rGet t (pg + 0x48) = rGet s (pg + 0x48)) ∧
      (off = 0x4C → x % 2 ^ 9 ≤ 256 → rGet t (pg + 0x4C) = x % 2 ^ 9) ∧
      (off = 0x4C → 256 < x % 2 ^ 9 → ErrorLeft pg 4 0 s t ∧ rGet t (pg + 0x4C) = rGet s (pg + 0x4C)) ∧
      (off = 0x58 → x % 2 ^ 15 ≤ 16384 → rGet t (pg + 0x58) = x % 2 ^ 15))

/-- R92 to R98: the Pack Unit's commands at the head of its queue. OPEN writes the header of a new segment and binds a
context over it; CLOSE commits what is pending, writes the directory and the closed header and frees the context, or spills
where the block does not fit; SAVE writes the staging area and the state record and moves the tag; RESTORE claims the
segment whose record agrees and binds a context; RECOVER claims and closes a segment; APPEND takes values into the pending
block; a command of a job that failed is abandoned. Each ends with its result words, off the queue. R186: a unit's result
words lie in its command block, DONE with them. R68, R69, R102: once both tasks of its built-in Pattern run, a background
job of COMPACT or REENCODE does its work in one command and its tasks report their ends: with the failing status of its
fragment list or its parameters, or else with the rows and bytes of what it wrote. Both ends of tasks with no successor free
the records and form the job's completion. -/
def Obligations.PackUnitAndBackgroundJobs : Prop :=
  ((∀ (u : Nat) (c : UnitCmd) (q : List UnitCmd) (s : State), PackFront 1 u c q s →
    let w := c.word 0
    let x : PackCtx :=
      { task := c.task, inst := c.inst, job := c.job, serial := c.serial, stage := c.stage, morsel := c.morsel,
        seg := c.quad 8, type := fld w 11 8, check := fld w 13 12, hist := bit w 14, nullable := bit w 15,
        lhfmt := pageCompat s (Reg.PACK_PAGE u), scale := fld w 23 16,
        dict := if fld w 11 8 = 9 then c.quad 0x10 % 2 ^ 48 else 0, cap := c.word 0x30, length := 64, values := 0, nulls := 0,
        tag := 1, range := none, blocks := [], prior := [], pend := [] }
    let r := uWrite (packTlb u) c x.seg (hdrBytes (ctxHdr x true 64 0 1)) s
    (8 ≤ (packOf s u).ctx.length → exec (.packOpen u) s = .next (packEnd u c x.seg stBusy 0 0 0 0 s)) ∧
    ((packOf s u).ctx.length < 8 → (9 < x.type ∨ x.seg % 64 ≠ 0 ∨ 2 ^ 48 ≤ x.seg ∨ x.cap < 4096 ∨ 1048576 < x.cap
        ∨ x.type = 8 ∧ 18 < x.scale ∨ x.check = 0 ∧ rBit s (Reg.PACK_CTRL u) 0 = false) →
      exec (.packOpen u) s = .next (packEnd u c x.seg stDescInvalid 0 0 0 0 s)) ∧
    ((packOf s u).ctx.length < 8 → packCtxOf s u (packCtx c) = none → x.type ≤ 9 → x.seg % 64 = 0 → x.seg < 2 ^ 48 →
      4096 ≤ x.cap → x.cap ≤ 1048576 → (x.type = 8 → x.scale ≤ 18) → (x.type ≠ 8 → x.scale = 0) →
      (x.check = 0 → rBit s (Reg.PACK_CTRL u) 0 = true) → r.2 = stOK →
      exec (.packOpen u) s = .next (packEnd u c x.seg stOK 0 0 0 0 (setPackCtx u (packCtx c) x r.1)))) ∧
  (∀ (u : Nat) (c : UnitCmd) (q : List UnitCmd) (x : PackCtx) (s s1 : State), PackFront 3 u c q s →
    ownCtx s u c = some x → x.pend = [] → closeSeg u c x s = (s1, stOK) →
    exec (.packClose u) s = .next (packEnd u c x.seg stOK 0 0 0 0 (freePackCtx u (packCtx c) s1))) ∧
  (∀ (u : Nat) (c : UnitCmd) (q : List UnitCmd) (x y : PackCtx) (s s1 s2 : State), PackFront 3 u c q s →
    ownCtx s u c = some x → x.pend ≠ [] → commitBlock u c x s = (s1, .done y) → closeSeg u c y s1 = (s2, stOK) →
    exec (.packClose u) s = .next (packEnd u c y.seg stOK 0 0 0 0 (freePackCtx u (packCtx c) s2)) ∧
      y.pend = [] ∧ y.values = x.values + x.pend.length ∧ y.blocks = x.blocks ++ [x.length]) ∧
  (∀ (u : Nat) (c : UnitCmd) (q : List UnitCmd) (x : PackCtx) (s s1 s2 s3 : State), PackFront 3 u c q s →
    ownCtx s u c = some x → x.pend ≠ [] → commitBlock u c x s = (s1, .full) →
    stageOut u c (c.quad 0x28) x.pend s1 = (s2, stOK) → closeSeg u c x s2 = (s3, stOK) →
    exec (.packClose u) s = .next (packEnd u c x.seg stOK 2 x.pend.length 0 0 (freePackCtx u (packCtx c) s3))) ∧
  (∀ (u : Nat) (c : UnitCmd) (q : List UnitCmd) (x : PackCtx) (s s1 s2 s3 : State), PackFront 4 u c q s →
    ownCtx s u c = some x → c.quad 0x20 % 64 = 0 → c.quad 0x28 % 64 = 0 →
    let tag := (x.tag + 1) % 2 ^ 32
    stageOut u c (c.quad 0x28) x.pend s = (s1, stOK) →
    uWrite (packTlb u) c (c.quad 0x20) (stateRecord x (c.quad 0x28) tag) s1 = (s2, stOK) →
    uWrite (packTlb u) c (x.seg + 0x34) (toBytes 4 tag) s2 = (s3, stOK) →
    exec (.packSave u) s = .next (packEnd u c x.seg stOK 0 0 0 0 (freePackCtx u (packCtx c) s3))) ∧
  (∀ (u : Nat) (c : UnitCmd) (q : List UnitCmd) (s s1 s2 s3 s4 s5 s6 : State) (rc hb sg : List Byte) (offs last : List Nat),
    PackFront 5 u c q s → (packOf s u).ctx.length < 8 → packCtxOf s u (packCtx c) = none → c.quad 0x20 % 64 = 0 →
    uRead (packTlb u) c (c.quad 0x20) 256 s = (s1, stOK, rc) →
    numAt rc 0 4 = 0x4D505354 → numAt rc 0xFC 4 = crc32c (rc.take 252) →
    let seg := numAt rc 8 8
    let h := hdrFields hb
    let n := fld (numAt rc 0x1C 4) 11 0
    let pend := (List.range n).map fun i => (numAt sg (8 * i) 8, bit (numAt sg (0x8000 + i / 8) 1) (i % 8))
    uRead (packTlb u) c seg 64 s1 = (s2, stOK, hb) →
    (h.isOpen = true → h.length = numAt rc 0x10 4 → h.blocks = fld (numAt rc 0x14 4) 12 0 → h.tag ≠ numAt rc 0x2C 4 →
      exec (.packRestore u) s = .next (packEnd u c seg stBusy 0 0 0 3 s2)) ∧
    (h.isOpen = true → h.length = numAt rc 0x10 4 → h.blocks = fld (numAt rc 0x14 4) 12 0 → h.tag = numAt rc 0x2C 4 →
      uRead (packTlb u) c (numAt rc 0x20 8) 33280 s2 = (s3, stOK, sg) →
      walkBlocks u c seg h.length h.blocks 64 [] s3 = (s4, stOK, offs) → lastValues u c h seg offs s4 = (s5, stOK, last) →
      uWrite (packTlb u) c (seg + 0x34) (toBytes 4 ((h.tag + 1) % 2 ^ 32)) s5 = (s6, stOK) →
      exec (.packRestore u) s = .next (packEnd u c seg stOK 0 0 0 0 (setPackCtx u (packCtx c)
        (ctxFrom c h seg (numAt rc 0x28 4) offs (priorFrom rc n last) pend ((h.tag + 1) % 2 ^ 32)) s6)))) ∧
  (∀ (u : Nat) (c : UnitCmd) (q : List UnitCmd) (s s1 s2 s3 s4 : State) (hb : List Byte) (offs : List Nat),
    PackFront 6 u c q s → (packCtxOf s u (packCtx c) = none ∨ ownCtx s u c ≠ none) → uRead (packTlb u) c (c.quad 8) 64 s = (s1, stOK, hb) →
    hdrGood hb = true → (hdrFields hb).isOpen = true →
    let tag := ((hdrFields hb).tag + 1 - (hdrFields hb).tag % 2) % 2 ^ 32
    uWrite (packTlb u) c (c.quad 8 + 0x34) (toBytes 4 tag) s1 = (s2, stOK) →
    walkBlocks u c (c.quad 8) (hdrFields hb).length (hdrFields hb).blocks 64 [] s2 = (s3, stOK, offs) →
    closeSeg u c (ctxFrom c (hdrFields hb) (c.quad 8) 1048576 offs [] [] tag) s3 = (s4, stOK) →
    ∃ t, exec (.packRecover u) s = .next (packEnd u c (c.quad 8) stOK 0 0 0 0 t) ∧
      (ownCtx s4 u c = none → t = s4) ∧ (ownCtx s4 u c ≠ none → t = freePackCtx u (packCtx c) s4)) ∧
  (∀ (u a : Nat) (c : UnitCmd) (q : List UnitCmd) (x : PackCtx) (s s1 s2 : State) (bs : List Byte), PackFront 2 u c q s →
    (packOf s u).taken = 0 → ownCtx s u c = some x → c.quad 0x10 = a → bit (c.word 0) 7 = false → c.quad 0x18 = 0 →
    0 < c.word 4 → x.pend.length + c.word 4 < 4096 →
    uRead (packTlb u) c a (8 * c.word 4) s = (s1, stOK, bs) →
    let vs := (List.range (c.word 4)).map fun i => (numAt bs (8 * i) 8, false)
    (∀ v ∈ vs, inType x.type v.1 = true) →
    s2 = setPackCtx u (packCtx c) { x with pend := x.pend ++ vs } s1 →
    exec (.packAppend u) s = .next (packEnd u c x.seg stOK 0 0 (c.word 4) 0 s2)) ∧
  (∀ (u : Nat) (c : UnitCmd) (q : List UnitCmd) (x y : PackCtx) (s s1 s2 : State) (bs : List Byte), PackFront 2 u c q s →
    (packOf s u).taken = 0 → ownCtx s u c = some x → bit (c.word 0) 7 = false → c.quad 0x18 = 0 →
    0 < c.word 4 → x.pend.length + c.word 4 = 4096 →
    uRead (packTlb u) c (c.quad 0x10) (8 * c.word 4) s = (s1, stOK, bs) →
    let vs := (List.range (c.word 4)).map fun i => (numAt bs (8 * i) 8, false)
    (∀ v ∈ vs, inType x.type v.1 = true) → commitBlock u c { x with pend := x.pend ++ vs } s1 = (s2, .done y) →
    exec (.packAppend u) s = .next (packEnd u c x.seg stOK 0 0 (c.word 4) 0 s2) ∧ packCtxOf s2 u (packCtx c) = some y ∧
      y.pend = [] ∧ y.values = x.values + 4096) ∧
  (∀ (u k st outcome spill consumed err : Nat) (c : UnitCmd) (seg : Nat) (s : State),
    let t := packEnd u c seg st outcome spill consumed err s
    (packOf t u).queue = (packOf s u).queue.drop 1 ∧ (packOf t u).taken = 0 ∧ packCtxOf t u k = packCtxOf s u k) ∧
  (∀ (u : Nat) (c : UnitCmd) (q : List UnitCmd) (s : State), (packOf s u).queue = c :: q → cmdLive s c = false → u < 64 →
    ∃ t, exec (.packAbandon u) s = .next t ∧ (packOf t u).queue = q ∧ (packOf t u).taken = 0 ∧
      rGet t (Reg.PACK_ABANDON u) = (rGet s (Reg.PACK_ABANDON u) + 1) % 2 ^ 32 ∧
      rBit t (Reg.PACK_PAGE u + 0x18) 1 = true ∧ (ownCtx s u c ≠ none → packCtxOf t u (packCtx c) = none) ∧
      Only [.rf, .out, .packs] s t)) ∧
  (∀ (u : Nat) (c : UnitCmd) (n : Nat) (w : Nat) (a b d : Option Nat) (s : State), c.block % 64 = 0 →
    (∀ i, i < 64 → ∃ o, regionOf s (c.block + i) = .panel n o ∧ 0x20000 ≤ o) → delivers s n = true →
    memBytes (uResult u c a b (some w) d s) (c.block + 0x38) 4 = toBytes 4 (setFld w 31 31 1)) ∧
  ((∀ (j : Nat) (x : JobRec) (s : State), working s = true → jobOf s j = some x → x.kind = .background →
    bgRuns s j = true → x.status = none → x.formed = false →
    let r0 := jobFrags x s
    let r1 := uRead (packTlb (bgUnit s j)) (bgCmd j x) x.paramAddr 16 r0.1
    (x.slot = 1 →
      (r0.2.1 ≠ stOK → exec (.compact j) s = .next (bgEnd j r0.2.1 0 0 r0.1)) ∧
      (r0.2.1 = stOK → r1.2.1 ≠ stOK → exec (.compact j) s = .next (bgEnd j r1.2.1 0 0 r1.1)) ∧
      (r0.2.1 = stOK → r1.2.1 = stOK → ∃ st rows bytes u, exec (.compact j) s = .next (bgEnd j st rows bytes u) ∧
        ((∀ f ∈ r0.2.2, f.kind ≠ 0) → st = stOK ∧ rows = 0 ∧ bytes = 0 ∧ u = r1.1))) ∧
    (x.slot = 2 →
      (r0.2.1 ≠ stOK → exec (.reencode j) s = .next (bgEnd j r0.2.1 0 0 r0.1)) ∧
      (r0.2.1 = stOK → r1.2.1 ≠ stOK → exec (.reencode j) s = .next (bgEnd j r1.2.1 0 0 r1.1)) ∧
      (r0.2.1 = stOK → r1.2.1 = stOK → ∃ st rows bytes u, exec (.reencode j) s = .next (bgEnd j st rows bytes u) ∧
        ((∀ f ∈ r0.2.2, f.kind ≠ 0) → st = stOK ∧ rows = 0 ∧ bytes = 0 ∧ u = r1.1)))) ∧
  (∀ (j rows bytes n0 n1 : Nat) (t0 t1 : TaskRec) (x : JobRec) (s : State), n0 < n1 →
    jobTasks s j = [(n0, t0), (n1, t1)] → taskOf s n0 = t0 → taskOf s n1 = t1 → t0.stage = 0 → t1.stage = 1 →
    (∀ t, t = t0 ∨ t = t1 → t.state = .running ∧ t.nsucc = 0 ∧ t.ovfCount = 0 ∧ allLines (pktOf s t.runPocket) = [] ∧
      (pktOf s t.runPocket).stores = []) →
    rBit s Reg.SCHED_TRACE_CTRL 0 = false → jobOf s j = some x → x.status = none → x.formed = false →
    x.counts = [1, 1] → x.created = [[0], [0]] → x.sawShort = false → x.sawPartial = false → x.gen = (instOf s x.inst).gen →
    let t := bgEnd j stOK rows bytes s
    jobTasks t j = [] ∧ ∃ y, jobOf t j = some y ∧ y.formed = true ∧ y.status = some stOK ∧
      y.rows = (x.rows % 2 ^ 64 + rows) % 2 ^ 64 ∧ y.bytes = (x.bytes % 2 ^ 64 + bytes) % 2 ^ 64 ∧
      (instOf t x.inst).compl = (instOf s x.inst).compl ++ [complOf t j y]))

/-- R107 to R109, R119, R120, R122: a Scan Front starts the held command of the highest CLASS whose checks are good, or ends
it with the failing check's status; it scans lane position by lane position and ends with NEXT at the end of its range; a
stalled one resumes; and commands of failed jobs are abandoned. -/
def Obligations.ScanFronts : Prop :=
  (∀ (n : Nat) (c : UnitCmd) (r : ScanRun) (s s1 : State), working s = true → pageEn s (Reg.SF_PAGE n) = true →
    (scanOf s n).run = none → (scanOf s n).stalled = false → nextHeld ((scanOf s n).queue.filter (cmdLive s)) = some c →
    scanChecks n c (setScan n { scanOf s n with queue := (scanOf s n).queue.erase c } s) = (s1, .inl r) →
    r.pos < r.endPos →
    exec (.scan n 0) s = .next (setScan n { scanOf s1 n with run := some r } s1) ∧ r.cmd = c ∧ r.rows = 0 ∧ r.bytes = 0 ∧
      r.pos = fld (c.word 4) 23 0) ∧
  (∀ (n st code a : Nat) (c : UnitCmd) (s s1 : State), working s = true → pageEn s (Reg.SF_PAGE n) = true →
    (scanOf s n).run = none → (scanOf s n).stalled = false → nextHeld ((scanOf s n).queue.filter (cmdLive s)) = some c →
    scanChecks n c (setScan n { scanOf s n with queue := (scanOf s n).queue.erase c } s) = (s1, .inr (st, code, a)) →
    exec (.scan n 0) s
      = .next (scanEnd n c 0 0 st false (fld (c.word 4) 23 0) (recErr (Reg.SF_PAGE n) code a s1))) ∧
  (∀ (n lanes : Nat) (r : ScanRun) (s : State), working s = true → (scanOf s n).stalled = false →
    (scanOf s n).run = some r → cmdLive s r.cmd = true → r.endPos ≤ r.pos →
    exec (.scan n lanes) s = .next (scanEnd n r.cmd r.rows r.bytes stOK false r.endPos s)) ∧
  (∀ (n : Nat) (r : ScanRun) (s : State), working s = true → (scanOf s n).stalled = false →
    (scanOf s n).run = some r → cmdLive s r.cmd = true → r.pos < r.endPos →
    exec (.scan n 1) s = .next (scanGo n 0 (scanLane n r s)) ∧ ∀ r', (scanOf (scanLane n r s) n).run = some r' →
      r'.cmd = r.cmd ∧ r'.endPos = r.endPos ∧
      (r'.pos = r.pos + min 32 (r.endPos - r.pos) ∧ r.rows ≤ r'.rows ∧ r'.rows ≤ r.rows + min 32 (r.endPos - r.pos) ∨
        r'.pos = r.pos ∧ r'.rows = r.rows ∧ r'.bytes = r.bytes ∧ (scanOf (scanLane n r s) n).stalled = true)) ∧
  (∀ (n lanes : Nat) (s : State), working s = true → (scanOf s n).stalled = true → n < 64 →
    ∃ t, exec (.scanResume n lanes) s = .next t ∧
      ((scanOf t n).stalled = false → rBit t (Reg.SF_PAGE n + 0x14) 2 = false)) ∧
  (∀ (n : Nat) (s : State), n < 64 →
    let x := scanOf s n
    let gone := (x.run.map fun r => !cmdLive s r.cmd).getD false
    0 < (x.queue.filter fun c => !cmdLive s c).length + b2n gone →
    ∃ t, exec (.scanAbandon n) s = .next t ∧ (scanOf t n).queue = x.queue.filter (cmdLive s) ∧
      (gone = true → (scanOf t n).run = none ∧ (scanOf t n).stalled = false) ∧ (gone = false → (scanOf t n).run = x.run) ∧
      rGet t (Reg.SF_ABANDON n)
        = (rGet s (Reg.SF_ABANDON n) + ((x.queue.filter fun c => !cmdLive s c).length + b2n gone)) % 2 ^ 32 ∧
      (gone = false ∨ x.stalled = false → OnlyRegs [Reg.SF_ABANDON n] s t ∧ Only [.rf, .scans] s t))

/-- R125, R126: an idle operator unit takes up the held command that is next at the event of its operation, with no item
done; one whose block did not copy ends with the copy's status. R126, R127, R134, R135, R137, R143, R154: where no takeover
is due, each item of a running command is finished in one event, or waits for a chain's lock, or ends the command; the order
of items is the input's. R126, R129: at a boundary of 16 items a held CLASS 3 command takes a running one's place, which
goes on later and does no item before it has stood aside; commands of ended jobs are abandoned. -/
def Obligations.OperatorCommandsAndItems : Prop :=
  ((∀ (n : Nat) (c : UnitCmd) (s : State), working s = true → (operOf s 0 n).run = none → (operOf s 0 n).standby = none →
    pageEn s (Reg.PNL_HPU_PAGE n) = true → nextHeld ((operOf s 0 n).queue.filter (cmdLive s)) = some c → c.copied = stOK →
    let s0 := setOper 0 n { operOf s 0 n with queue := (operOf s 0 n).queue.erase c } s
    (operOp c = 1 → exec (.hpuInsert n 0) s = .next (hpuStart n c s0)) ∧
    (operOp c = 2 → exec (.probe n 0) s = .next (hpuStart n c s0)) ∧
    (operOp c = 3 → exec (.group n 0) s = .next (hpuStart n c s0))) ∧
  (∀ (n : Nat) (c : UnitCmd) (s : State), working s = true → (operOf s 1 n).run = none → (operOf s 1 n).standby = none →
    pageEn s (Reg.PNL_PU_PAGE n) = true → nextHeld ((operOf s 1 n).queue.filter (cmdLive s)) = some c → c.copied = stOK → operOp c = 1 →
    exec (.partitionAppend n 0) s
      = .next (puStart n c (setOper 1 n { operOf s 1 n with queue := (operOf s 1 n).queue.erase c } s))) ∧
  (∀ (n : Nat) (c : UnitCmd) (s : State), working s = true → (operOf s 2 n).run = none → (operOf s 2 n).standby = none →
    pageEn s (Reg.PNL_MN_PAGE n) = true → nextHeld ((operOf s 2 n).queue.filter (cmdLive s)) = some c → c.copied = stOK → operOp c = 2 →
    exec (.merge n 0) s
      = .next (mnStart n c (setOper 2 n { operOf s 2 n with queue := (operOf s 2 n).queue.erase c } s))) ∧
  (∀ (n : Nat) (c : UnitCmd) (s : State), working s = true → (operOf s 0 n).run = none → (operOf s 0 n).standby = none →
    pageEn s (Reg.PNL_HPU_PAGE n) = true → nextHeld ((operOf s 0 n).queue.filter (cmdLive s)) = some c → c.copied ≠ stOK →
    operOp c = 2 →
    exec (.probe n 0) s = .next (operFail 0 n (newRun s 0 n c) c.copied c.block
      (setOper 0 n { operOf s 0 n with queue := (operOf s 0 n).queue.erase c } s)))) ∧
  (∀ (n : Nat) (r : OperRun) (s : State), working s = true → cmdLive s r.cmd = true → r.locked = false →
    (∀ u, u < 3 → takeoverDue s u n = false) →
    ((operOf s 0 n).run = some r → operOp r.cmd = 1 → ∃ t, exec (.hpuInsert n 1) s = .next t ∧
      ∀ q, (operOf t 0 n).run = some q → q.cmd = r.cmd ∧ (q.locked = true ∧ q.pos = r.pos ∨ q.locked = false ∧ q.pos = r.pos + 1)) ∧
    ((operOf s 0 n).run = some r → operOp r.cmd = 2 → ∃ t, exec (.probe n 1) s = .next t ∧
      ∀ q, (operOf t 0 n).run = some q → q.cmd = r.cmd ∧ q.locked = false ∧ q.pos = r.pos + 1) ∧
    ((operOf s 0 n).run = some r → operOp r.cmd = 3 → ∃ t, exec (.group n 1) s = .next t ∧
      ∀ q, (operOf t 0 n).run = some q → q.cmd = r.cmd ∧ (q.locked = true ∧ q.pos = r.pos ∨ q.locked = false ∧ q.pos = r.pos + 1)) ∧
    ((operOf s 1 n).run = some r → operOp r.cmd = 1 → findPart s n r.cmd ≠ none → ∃ t, exec (.partitionAppend n 1) s = .next t ∧
      ∀ q, (operOf t 1 n).run = some q → q.cmd = r.cmd ∧ q.pos = r.pos + 1 ∧ q.out = r.out + 1) ∧
    ((operOf s 2 n).run = some r → operOp r.cmd = 2 → ∃ t, exec (.merge n 1) s = .next t ∧
      ∀ q, (operOf t 2 n).run = some q → q.cmd = r.cmd ∧ q.pos = r.pos + 1) ∧
    ((operOf s 1 n).run = some r → operOp r.cmd = 2 → ∃ t, exec (.partitionFlush n) s = .next t ∧ (operOf t 1 n).run = none) ∧
    ((operOf s 1 n).run = some r → operOp r.cmd = 3 → ∃ t, exec (.partitionRelease n) s = .next t ∧ (operOf t 1 n).run = none) ∧
    ((operOf s 1 n).run = some r → operOp r.cmd = 4 → ∃ t, exec (.partitionReload n) s = .next t ∧ (operOf t 1 n).run = none) ∧
    ((operOf s 2 n).run = some r → operOp r.cmd = 1 → r.pos < operCount r.cmd → expressHeld s 2 n = false →
      ∃ t, exec (.sortrun n) s = .next t ∧ (operOf t 2 n).run = none) ∧
    ((operOf s 2 n).run = some r → operOp r.cmd = 3 → r.pos < operCount r.cmd → expressHeld s 2 n = false →
      ∃ t, exec (.topk n) s = .next t ∧ (operOf t 2 n).run = none)) ∧
  ((∀ (n : Nat) (u : OperUnit) (s : State), working s = true → takeoverDue s (operNum u) n = true →
    ∃ t, exec (.takeover n u) s = .next t ∧ (operOf t (operNum u) n).run = none ∧
      (operOf t (operNum u) n).standby = (operOf s (operNum u) n).run ∧
      (operOf t (operNum u) n).queue = (operOf s (operNum u) n).queue ∧ Only [.opers] s t) ∧
  (∀ (n items : Nat) (s : State),
    (takeoverDue s 0 n = true →
      exec (.hpuInsert n items) s = .next s ∧ exec (.probe n items) s = .next s ∧ exec (.group n items) s = .next s) ∧
    (takeoverDue s 1 n = true → exec (.partitionAppend n items) s = .next s) ∧
    (takeoverDue s 2 n = true → exec (.merge n items) s = .next s)) ∧
  (∀ (n : Nat) (u : OperUnit) (s : State), n < 32 →
    let x := operOf s (operNum u) n
    let dead := (x.queue.filter fun c => !cmdLive s c).length + b2n (deadRun s x.run) + b2n (deadRun s x.standby)
    dead ≠ 0 →
    ∃ t, exec (.operatorAbandon n u) s = .next t ∧
      (operOf t (operNum u) n).queue = x.queue.filter (cmdLive s) ∧
      (deadRun s x.run = true → (operOf t (operNum u) n).run = none) ∧
      rGet t (operAbandonReg (operNum u) n) = (rGet s (operAbandonReg (operNum u) n) + dead) % 2 ^ 32 ∧
      OnlyRegs [operAbandonReg (operNum u) n] s t ∧ Only [.rf, .opers] s t))

/-- R133 to R137: an insert of a key that the chain does not hold, under the chain's lock; a group that the table already
has; a probe that finds its key, and one that does not. -/
def Obligations.HashProbeEffects : Prop :=
  (∀ (n fa fb : Nat) (r : OperRun) (f : Lookup) (rec : List Byte) (s s1 s2 s3 s4 s5 : State), working s = true →
    cmdLive s r.cmd = true → r.locked = false → takeoverDue s 0 n = false → (operOf s 0 n).run = some r → operOp r.cmd = 1 →
    uRead (operPort 0 n) r.cmd (r.cmd.quad 0x10 + 16 * r.pos) 16 s = (s1, stOK, rec) →
    let key := numAt rec 0 8
    let head := headBucket r.table key
    takeLock n r.cmd head s1 = (s2, stOK, false) →
    tabLookup n r key (decide (hpuMode r.cmd ≠ 0)) s2 = (s3, stOK, fa, f) → f.hit = none → bktCount f.line ≠ 3 →
    uWrites (operPort 0 n) r.cmd (entryWrites r f head none key (numAt rec 8 8)) (countLookup n false s3) = (s4, stOK, fb) →
    addEntries n r.cmd s4 = (s5, stOK) →
    exec (.hpuInsert n 1) s = .next (hpuNext n { r with out := r.out + 1 }
      (bump (Reg.PNL_HPU_INSERTS n) 1 (unlock n r.cmd head s5)))) ∧
  (∀ (n fa key : Nat) (h : Nat × List Byte × Nat) (r : OperRun) (f : Lookup) (s s1 s2 : State), working s = true →
    cmdLive s r.cmd = true → r.locked = false → takeoverDue s 0 n = false → (operOf s 0 n).run = some r → operOp r.cmd = 3 →
    uReadNat (operPort 0 n) r.cmd (r.cmd.quad 0x10 + r.pos * hpuStride r.cmd) 8 s = (s1, stOK, key) →
    tabLookup n r key false s1 = (s2, stOK, fa, f) → f.hit = some h →
    exec (.group n 1) s
      = .next (groupOut n { r with out := r.out + 1 } (f.pays.headD 0 % 2 ^ 32) (countLookup n true s2))) ∧
  (∀ (n : Nat) (r : OperRun) (s : State), working s = true → cmdLive s r.cmd = true → r.locked = true →
    (operOf s 0 n).run = some r →
    let s0 := bump (Reg.PNL_HPU_LOCK_RETRY n) 1 s
    let r0 := { r with locked := false }
    exec (.lockRetry n) s = .next (if operOp r.cmd = 1 then insertItem n r0 s0 else groupItem n r0 s0)) ∧
  (∀ (n fa key : Nat) (r : OperRun) (f : Lookup) (s s1 s2 : State), working s = true →
    cmdLive s r.cmd = true → r.locked = false → takeoverDue s 0 n = false → (operOf s 0 n).run = some r → operOp r.cmd = 2 →
    hpuMode r.cmd = 0 →
    uReadNat (operPort 0 n) r.cmd (r.cmd.quad 0x10 + r.pos * hpuStride r.cmd) 8 s = (s1, stOK, key) →
    tabLookup n r key true s1 = (s2, stOK, fa, f) →
    (f.hit = none → exec (.probe n 1) s = .next (hpuNext n r (countLookup n false s2))) ∧
    (∀ (s3 : State), f.hit ≠ none →
      uWrite (operPort 0 n) r.cmd (r.cmd.quad 0x18 + r.bytes) (pairBytes r.cmd r.pos 1 (f.pays.headD 0)) (countLookup n true s2)
        = (s3, stOK) →
      exec (.probe n 1) s = .next (hpuNext n { r with bytes := r.bytes + 16, out := r.out + 1, aux := r.aux + 1 } s3)))

/-- R142, R143, R145: a record appended goes to the way its key names; RELEASE frees the context after its lines and fill
counts are written. -/
def Obligations.PartitionEffects : Prop :=
  (∀ (n k : Nat) (r : OperRun) (x : PartCtx) (rec : List Byte) (s s1 : State), working s = true → cmdLive s r.cmd = true →
    r.locked = false → takeoverDue s 1 n = false → (operOf s 1 n).run = some r → operOp r.cmd = 1 →
    findPart s n r.cmd = some (k, x) → uRead (operPort 1 n) r.cmd (r.cmd.quad 0x10 + 8 * 2 ^ x.rsz * r.pos) (8 * 2 ^ x.rsz) s = (s1, stOK, rec) →
    let w := wayOf x (numAt rec 0 8)
    let e := x.ways.getD w ⟨0, 0, 0, []⟩
    e.fill + 8 * 2 ^ x.rsz ≤ e.cap → (e.line ++ rec).length ≠ 64 → r.pos + 1 < operCount r.cmd →
    exec (.partitionAppend n 1) s = .next (setRun 1 n { r with pos := r.pos + 1, out := r.out + 1 }
      (bump2 (Reg.PNL_PU_RECORDS n) (Reg.PNL_PU_SNAP_RECORDS n) 1
        (setPart n k { x with ways := x.ways.set w { e with fill := e.fill + 8 * 2 ^ x.rsz, line := e.line ++ rec } } s1)))) ∧
  (∀ (n k a : Nat) (r : OperRun) (x : PartCtx) (s s1 : State), working s = true → cmdLive s r.cmd = true → r.locked = false →
    takeoverDue s 1 n = false → (operOf s 1 n).run = some r → findPart s n r.cmd = some (k, x) → flushCtx n r.cmd x s = (s1, stOK, a) →
    (operOp r.cmd = 2 → exec (.partitionFlush n) s = .next (operEndFree 1 n r stOK 0 s1)) ∧
    (operOp r.cmd = 3 → exec (.partitionRelease n) s
      = .next (operEndFree 1 n r stOK 0 (setOper 1 n { operOf s1 1 n with ctx := kDel (operOf s1 1 n).ctx k } s1)))) ∧
  (∀ (n k a : Nat) (r : OperRun) (x : PartCtx) (s s1 s2 : State), working s = true → cmdLive s r.cmd = true → r.locked = false →
    takeoverDue s 1 n = false → (operOf s 1 n).run = some r → operOp r.cmd = 4 → findPart s n r.cmd = some (k, x) →
    let w := fld (r.cmd.word 0x24) 7 0
    w < x.ways.length → flushLine n r.cmd (x.ways.getD w ⟨0, 0, 0, []⟩) s = (s1, stOK, a) →
    uWrite (operPort 1 n) r.cmd (x.dir + 16 * w) (toBytes 8 (r.cmd.quad 0x18) ++ toBytes 4 (r.cmd.word 0x20) ++ toBytes 4 0) s1
      = (s2, stOK) →
    exec (.partitionReload n) s = .next (operEnd 1 n { r with aux := (x.ways.getD w ⟨0, 0, 0, []⟩).fill } stOK 0
      (setPart n k { x with ways := x.ways.set w ⟨r.cmd.quad 0x18, r.cmd.word 0x20, 0, []⟩ } s2)))

/-- R152: SORTRUN and TOPK put each record after every earlier record that does not come after it: the list stays sorted,
and holds the records it held and the new one; after the last record the kept ones are written out; a MERGE takes the first
of its runs' heads. -/
def Obligations.SortingIsStable : Prop :=
  (∀ (c : UnitCmd) (rec : List Byte) (l : List (List Byte)),
    l.Pairwise (fun a b => mnBefore c (numAt b 0 8) (numAt a 0 8) = false) →
    (mnInsert c rec l).Pairwise (fun a b => mnBefore c (numAt b 0 8) (numAt a 0 8) = false) ∧
    (mnInsert c rec l).Perm (rec :: l) ∧
    (mnInsert c rec l).filter (fun x => decide (numAt x 0 8 = numAt rec 0 8))
      = l.filter (fun x => decide (numAt x 0 8 = numAt rec 0 8)) ++ [rec]) ∧
  (∀ (n : Nat) (r : OperRun) (rec : List Byte) (s s1 : State), working s = true → cmdLive s r.cmd = true → r.locked = false →
    takeoverDue s 2 n = false → (operOf s 2 n).run = some r → r.pos + 1 = operCount r.cmd →
    uRead (operPort 2 n) r.cmd (r.cmd.quad 0x10 + mnRs r.cmd * r.pos) (mnRs r.cmd) s = (s1, stOK, rec) →
    let done := fun (cap : Nat) => sortOut n { r with pos := r.pos + 1, recs := (mnInsert r.cmd rec r.recs).take cap }
      (bump (Reg.PNL_MN_RECORDS_IN n) 1 s1)
    (operOp r.cmd = 1 → exec (.sortrun n) s = .next (done 4096)) ∧
    (operOp r.cmd = 3 → exec (.topk n) s = .next (done (mnK r.cmd)))) ∧
  (∀ (n i a : Nat) (hs : List (Nat × List Byte)) (rec : List Byte) (r r2 : OperRun) (s s1 s2 : State), working s = true →
    cmdLive s r.cmd = true → r.locked = false → takeoverDue s 2 n = false → (operOf s 2 n).run = some r → operOp r.cmd = 2 →
    mnHeads n r s = (s1, hs, stOK, a) →
    (∀ h, h ∈ hs → ∀ k, r.last.getD h.1 none = some k → mnBefore r.cmd (numAt h.2 0 8) k = false) →
    mnFirst r.cmd hs = some (i, rec) →
    mnTake n { r with pos := r.pos + 1,
                      runs := r.runs.set i ((r.runs.getD i (0, 0, 0)).1, (r.runs.getD i (0, 0, 0)).2.1, (r.runs.getD i (0, 0, 0)).2.2 + 1),
                      last := r.last.set i (some (numAt rec 0 8)) } rec (bump (Reg.PNL_MN_RECORDS_IN n) 1 s1) = (s2, r2, stOK) →
    (∃ e, e ∈ r2.runs ∧ e.2.2 < e.2.1) →
    exec (.merge n 1) s = .next (setRun 2 n r2 s2))

/-- R157, R159: in an array whose entries are listed in rising order, a lookup in a good scope hits exactly where some entry
of its range matches with its read-back good, and names the lowest such entry with its data. -/
def Obligations.LookupAnswersTheLowestMatch : Prop :=
  ∀ (q : MaReq) (s : State), s.ma.entries.Pairwise (fun a b => a.1 < b.1) → reqOp q = 1 → reqSize q ≠ 0 →
    reqLo q + reqSize q ≤ maSize s q.inst →
    let wb := maBase s q.inst
    let a := (maAnswer q s).2
    let good := fun e => wb + reqLo q ≤ e ∧ e < wb + reqLo q + reqSize q ∧ rawMatch (entryOf s e) (reqKey q) = true ∧
      readbackOk (entryOf s e) (reqKey q) = true
    a.status = stOK ∧
    (a.hit = true → ∃ e, good e ∧ a.index = e - wb ∧ a.data = (entryOf s e).data ∧ ∀ f, good f → e ≤ f) ∧
    (a.hit = false → ∀ e, ¬good e)

/-- R157, R160: a free port takes the waiting request of the highest priority, earliest first, and its answer goes to the
Pocket that asked. R161 to R165: a command written to an idle INST_MA page starts, with the array operations of its kind, or
ends with QUOTA_EXCEEDED where it reaches outside its window. -/
def Obligations.LookupsAndArrayCommands : Prop :=
  (∀ (q : MaReq) (s : State), clocked s = true → portTakes s.ma.waiting = some q → q.pocket ≠ 0xFFFF →
    let s0 := setMa { s.ma with waiting := enterPlaces [] (s.ma.waiting.erase q) } s
    let s1 := bumpFrame Reg.MA_SNAP_WAIT (s.now - q.at_) (bump2 Reg.MA_LOOKUPS Reg.MA_SNAP_LOOKUPS 1 s0)
    (reqOp q = 1 → ∃ t, exec .lookup s = .next t ∧ t.ma.waiting = enterPlaces [] (s.ma.waiting.erase q) ∧
      kFind t.ma.resp q.pocket = some (answerBytes (maAnswer q s1).2) ∧
      rGet t Reg.MA_LOOKUPS = (rGet s Reg.MA_LOOKUPS + 1) % 2 ^ 32) ∧
    (reqOp q = 2 → ∃ t, exec .step s = .next t ∧ t.ma.waiting = enterPlaces [] (s.ma.waiting.erase q) ∧
      kFind t.ma.resp q.pocket = some (answerBytes (maAnswer q s1).2) ∧
      rGet t Reg.MA_LOOKUPS = (rGet s Reg.MA_LOOKUPS + 1) % 2 ^ 32)) ∧
  (∀ (w : Writer) (i : Nat) (s : State), takes s w (Reg.INST_MA_CMD i) = true → i < numInst → clocked s = true →
    maRunOf s i = none → stagePending s (Reg.INST_MA_PAGE i) = false → pageEn s Reg.MA_PAGE = true →
    let pos := rFld s (Reg.INST_MA_POS i) 17 0
    let lo := rFld s (Reg.INST_MA_RANGE_LO i) 17 0
    let size := rFld s (Reg.INST_MA_RANGE_SIZE i) 18 0
    let count := rFld s (Reg.INST_MA_COUNT i) 18 0
    let holes := rBit s (Reg.INST_MA_FLAGS i) 0
    let spacing := rFld s (Reg.INST_MA_FLAGS i) 13 1
    let images := if holes then count + (count - 1) / (spacing - 1) else count
    let e := maBase s i + pos
    let ws := maSize s i
    (pos < ws → ∃ t x, exec (.maInvalidate w i) s = .next t ∧ maRunOf t i = some x ∧ x.op = 1 ∧ x.ops = [.inval e]) ∧
    (pos < ws → ∃ t x, exec (.maWrite w i) s = .next t ∧ maRunOf t i = some x ∧ x.op = 2 ∧
      (x.ops = [.keyMask e x.key x.mask none, .data e x.data (some false)] ∨
        x.ops = [.data e x.data none, .keyMask e x.key x.mask (some false)]) ∧
      x.data = rGet s (Reg.INST_MA_DATA i) ∧
      rBit t (Reg.INST_MA_STATUS i) 18 = (entryOf s e).valid) ∧
    (pos < ws → ∃ t x, exec (.maValidate w i) s = .next t ∧ maRunOf t i = some x ∧ x.op = 3 ∧ x.ops = [.valid e]) ∧
    (∀ h, lo ≤ pos → pos < lo + size → pos < ws → lo + size ≤ ws →
      nearestInvalid s (maBase s i) lo size pos = some h →
      ∃ t x, exec (.maInsert w i) s = .next t ∧ maRunOf t i = some x ∧ x.op = 4 ∧
        x.next = (if pos ≤ h then pos else pos - 1) ∧ x.done = (if pos ≤ h then h - pos else pos - 1 - h) ∧
        x.ops.getLast? = some (.valid (maBase s i + x.next))) ∧
    (1 ≤ size → lo + size ≤ ws → 2 ≤ spacing → spacing ≤ 4096 → images ≤ size →
      ∃ t x, exec (.maLoad w i) s = .next t ∧ maRunOf t i = some x ∧ x.op = 5 ∧ x.next = lo ∧ x.done = 0 ∧ x.count = count) ∧
    (1 ≤ count → lo + count ≤ ws →
      ∃ t x, exec (.maDump w i) s = .next t ∧ maRunOf t i = some x ∧ x.op = 6 ∧ x.next = lo ∧ x.done = 0) ∧
    (1 ≤ size → lo + size ≤ ws →
      ∃ t x, exec (.maClear w i) s = .next t ∧ maRunOf t i = some x ∧ x.op = 7 ∧ x.next = lo ∧ x.done = 0) ∧
    (ws ≤ pos → ∃ t, exec (.maValidate w i) s = .next t ∧ maRunOf t i = none ∧ t.ma.entries = s.ma.entries ∧
      rFld t (Reg.INST_MA_STATUS i) 15 8 = stQuota ∧ rBit t (Reg.INST_MA_STATUS i) 0 = false ∧
      rBit t (Reg.INST_MA_PAGE i + 0x18) 0 = true))

/-- R161, R162, R167: one operation of the update engine changes one entry, or those of a CLEAR, and no other; a scrub
visits one entry and marks it SUSPECT where its parity is bad. -/
def Obligations.ArrayOperations : Prop :=
  (∀ (i e : Nat) (o : MaOp) (r : List MaOp) (x : MaRun) (s : State), clocked s = true → maTurn s = some i →
    (∀ p, p ∈ s.ma.runs → p.2.started = true) → maRunOf s i = some x → x.ops = o :: r →
    ∃ t, exec .arrayOperation s = .next t ∧ t.ma.last = i ∧
      (o = .inval e → (entryOf t e).valid = false ∧ ∀ f, f ≠ e → entryOf t f = entryOf s f) ∧
      (o = .valid e → entryOf t e = { entryOf s e with valid := true } ∧ ∀ f, f ≠ e → entryOf t f = entryOf s f) ∧
      (∀ v sus, o = .data e v sus → (entryOf t e).data = v ∧ (entryOf t e).valid = (entryOf s e).valid ∧
        ∀ f, f ≠ e → entryOf t f = entryOf s f) ∧
      (∀ k m sus, o = .keyMask e k m sus → (entryOf t e).key = k ∧ (entryOf t e).mask = m ∧
        (entryOf t e).valid = (entryOf s e).valid ∧ ∀ f, f ≠ e → entryOf t f = entryOf s f) ∧
      (∀ k, o = .clear e k → s.ma.entries.Pairwise (fun a b => a.1 < b.1) → ∀ f,
        if e ≤ f ∧ f < e + k then (entryOf t f).valid = false ∧ (entryOf t f).suspect = false else entryOf t f = entryOf s f)) ∧
  (∀ (s : State), scrubs s = true →
    let e := s.ma.scrub
    ∃ t, exec .maScrub s = .next t ∧ t.ma.scrub = (e + 1) % 262144 ∧ (∀ f, f ≠ e → entryOf t f = entryOf s f) ∧
      ((entryOf s e).parityOk = true → entryOf t e = entryOf s e) ∧
      ((entryOf s e).parityOk = false → (entryOf t e).suspect = true ∧ rGet t (Reg.MA_PAGE + 0x20) = 2 ∧
        rGet t Reg.DEV_CE = (rGet s Reg.DEV_CE + 1) % 2 ^ 32))

/-- R168, R176, R188, R190: writing a Pocket's register changes that register alone, g0 reads as zero and p0 as all ones
whatever is written, and a completed instruction moves PC and counts in PKT_INSTR. -/
def Obligations.PocketRegistersAndCompletion : Prop :=
  (∀ (p r v k : Nat) (s : State), gGet (gSet p r v s) p k = if k = r ∧ r ≠ 0 then v % 2 ^ 64 else gGet s p k) ∧
  (∀ (p r v k : Nat) (s : State), vGet (vSet p r v s) p k = if k = r then v % 2 ^ 1024 else vGet s p k) ∧
  (∀ (p r v k : Nat) (s : State), vGet (fSet p r v s) p k
    = if k = r then v % 2 ^ 64 + vGet s p k / 2 ^ 64 * 2 ^ 64 else vGet s p k) ∧
  (∀ (p r v k : Nat) (s : State), prGet (prSet p r v s) p k = if k = r ∧ r ≠ 0 then v % 2 ^ 128 else prGet s p k) ∧
  (∀ (p : Nat) (s : State), gGet s p 0 = 0 ∧ prGet s p 0 = 2 ^ 128 - 1) ∧
  (∀ (p r v q : Nat) (s : State),
    (q ≠ p → pktOf (gSet p r v s) q = pktOf s q ∧ pktOf (vSet p r v s) q = pktOf s q ∧ pktOf (prSet p r v s) q = pktOf s q) ∧
    pktOf (gSet p r v s) p = { pktOf s p with g := (pktOf (gSet p r v s) p).g } ∧
    pktOf (vSet p r v s) p = { pktOf s p with v := (pktOf (vSet p r v s) p).v } ∧
    pktOf (prSet p r v s) p = { pktOf s p with pr := (pktOf (prSet p r v s) p).pr } ∧
    Only [.pkt] s (gSet p r v s) ∧ Only [.pkt] s (vSet p r v s) ∧ Only [.pkt] s (fSet p r v s) ∧ Only [.pkt] s (prSet p r v s)) ∧
  (∀ (p pc : Nat) (s : State), (pktOf s p).task ≠ none → rBit s (Reg.PKT_CTRL p) 0 = false →
    let t := pGoto p pc s
    pktOf t p = { pktOf s p with pc := pc % 2 ^ 48 / 4 * 4, wait := .none, filled := [] } ∧
    (∀ q, q ≠ p → pktOf t q = pktOf s q) ∧
    rGet t (Reg.PKT_INSTR p) = (rGet s (Reg.PKT_INSTR p) + 1) % 2 ^ 32 ∧
    OnlyRegs [Reg.PKT_INSTR p] s t ∧ Only [.rf, .pkt] s t)

/-- R170, R171: integer operations on 64-bit and, sign-extended, on 32-bit operands; floating point rounds as FCSR says and
gathers its flags there. Table 9.6: the four rounding modes. -/
def Obligations.IntegerFloatAndRounding : Prop :=
  ((∀ (p : Nat) (word : W32) (s s1 : State), Begins .integerOp p word s s1 →
    let imm := wForm word = 1
    let w := if wForm word = 0 ∧ wW word = 1 then 32 else 64
    let a : BitVec w := BitVec.ofNat w (gGet s1 p (wA word))
    let b : BitVec w := if imm then BitVec.ofInt w (wImm13 word) else BitVec.ofNat w (gGet s1 p (wB word))
    let n := b.toNat % w
    ∃ r : BitVec w, exec (.integerOp p word) s = .next (pDone p (gSet p (wD word) (r.signExtend 64).toNat s1)) ∧
      (wOp word = 0x00 → r = a + b) ∧ (wOp word = 0x01 → r = a - b) ∧ (wOp word = 0x02 → r = a &&& b) ∧
      (wOp word = 0x03 → r = a ||| b) ∧ (wOp word = 0x04 → r = a ^^^ b) ∧ (wOp word = 0x05 → r = a &&& ~~~b) ∧
      (wOp word = 0x06 → r = a <<< n) ∧ (wOp word = 0x07 → r = a >>> n) ∧ (wOp word = 0x08 → r = a.sshiftRight n) ∧
      (wOp word = 0x09 → r = a.rotateRight n) ∧ (wOp word = 0x0A → (r = if a = b then 1 else 0)) ∧
      (wOp word = 0x0B → (r = if a.slt b then 1 else 0)) ∧ (wOp word = 0x0C → (r = if a.ult b then 1 else 0)) ∧
      (wOp word = 0x0E → (r = if a.sle b then a else b)) ∧ (wOp word = 0x0F → (r = if a.sle b then b else a)) ∧
      (wOp word = 0x10 → r = a * b) ∧
      (wOp word = 0x11 → r = ((a.signExtend (2 * w) * b.signExtend (2 * w)) >>> w).truncate w) ∧
      (wOp word = 0x12 → r = ((a.zeroExtend (2 * w) * b.zeroExtend (2 * w)) >>> w).truncate w) ∧
      (wOp word = 0x13 → (r = if b = 0 then BitVec.allOnes w else a.sdiv b)) ∧
      (wOp word = 0x14 → (r = if b = 0 then BitVec.allOnes w else a / b)) ∧
      (wOp word = 0x15 → (r = if b = 0 then a else a.srem b)) ∧ (wOp word = 0x16 → (r = if b = 0 then a else a % b)) ∧
      (wOp word = 0x18 → r.toNat ≤ w ∧ (∀ k, w - r.toNat ≤ k → a.getLsbD k = false) ∧
        (a ≠ 0 → a.getLsbD (w - 1 - r.toNat) = true)) ∧
      (wOp word = 0x19 → r.toNat ≤ w ∧ (∀ k, k < r.toNat → a.getLsbD k = false) ∧ (a ≠ 0 → a.getLsbD r.toNat = true)) ∧
      (wOp word = 0x1A → r.toNat = ((List.range w).filter fun k => a.getLsbD k).length) ∧
      (wOp word = 0x1B → toBytes (w / 8) r.toNat = (toBytes (w / 8) a.toNat).reverse) ∧
      (wOp word = 0x1D → r.toNat = (toBytes (w / 8) b.toNat).foldl crcByte (a.toNat % 2 ^ 32) % 2 ^ w)) ∧
  (∀ (p : Nat) (word : W32) (s s1 : State), Begins .floatOp p word s s1 →
    let f := if wW word = 1 then fmt32 else fmt64
    let rm := (pktOf s1 p).fcsr % 4
    let a := fGet s1 p (wA word) % 2 ^ f.width
    let b := fGet s1 p (wB word) % 2 ^ f.width
    let done := fun (q : Nat × Nat) => exec (.floatOp p word) s = .next (pDone p (fSet p (wD word) q.1 (fcsrOr p q.2 s1)))
    let doneG := fun (q : Nat × Nat) => exec (.floatOp p word) s = .next (pDone p (gSet p (wD word) q.1 (fcsrOr p q.2 s1)))
    (wOp word = 0x20 → done (fpAdd f rm a b)) ∧ (wOp word = 0x21 → done (fpSub f rm a b)) ∧
    (wOp word = 0x22 → done (fpMul f rm a b)) ∧ (wOp word = 0x23 → done (fpDiv f rm a b)) ∧
    (wOp word = 0x24 → done (fpSqrt f rm a)) ∧ (wOp word = 0x25 → done (fpMinMax f false a b)) ∧
    (wOp word = 0x26 → done (fpMinMax f true a b)) ∧ (wOp word = 0x27 → doneG (fpCmp f a b)) ∧
    (wOp word = 0x28 → doneG (fpToInt f rm a)) ∧ (wOp word = 0x29 → done (fpOfInt f rm (gGet s1 p (wA word)))))) ∧
  (∀ (x : Int) (d : Nat), 0 < d →
    roundDiv 0 x d = x.tdiv d ∧
    (let y := roundDiv 1 x d
     2 * (x - y * d).natAbs ≤ d ∧ (2 * (x - y * d).natAbs = d → x.natAbs ≤ y.natAbs * d)) ∧
    (let y := roundDiv 2 x d
     2 * (x - y * d).natAbs ≤ d ∧ (2 * (x - y * d).natAbs = d → y % 2 = 0)) ∧
    (let y := roundDiv 3 x d
     (x - y * d).natAbs < d ∧ x.natAbs ≤ y.natAbs * d ∧ 0 ≤ x * y))

/-- R170, R173: branches, the loop, jumps, constants, NOP and FENCE. -/
def Obligations.BranchesAndConstants : Prop :=
  ∀ (p : Nat) (word : W32) (s s1 : State),
    let pc := (pktOf s1 p).pc
    let a := gGet s1 p (bA word)
    let b := gGet s1 p (bB word)
    (Begins .branch p word s s1 →
      let taken := (bCond word = 0 ∧ a = b) ∨ (bCond word = 1 ∧ a ≠ b) ∨ (bCond word = 2 ∧ signed 64 a < signed 64 b) ∨
        (bCond word = 3 ∧ signed 64 b ≤ signed 64 a) ∨ (bCond word = 4 ∧ a < b) ∨ (bCond word = 5 ∧ b ≤ a)
      (taken → exec (.branch p word) s = .next (pGoto p (narrow 48 (pc + bOff word)) s1)) ∧
      (¬taken → exec (.branch p word) s = .next (pDone p s1))) ∧
    (Begins .loop p word s s1 → bA word = 0 → exec (.loop p word) s = .next (pDone p s1)) ∧
    (Begins .loop p word s s1 → bA word ≠ 0 →
      let s2 := gSet p (bA word) ((a + 2 ^ 64 - 1) % 2 ^ 64) s1
      (a ≠ 1 → exec (.loop p word) s = .next (pGoto p (narrow 48 (pc + bOff word)) s2)) ∧
      (a = 1 → exec (.loop p word) s = .next (pDone p s2))) ∧
    (Begins .jl p word s s1 → exec (.jl p word) s
      = .next (pGoto p (narrow 48 (pc + jOff word)) (if jLink word then gSet p 31 ((pc + 4) % 2 ^ 48) s1 else s1))) ∧
    (Begins .jr p word s s1 → gGet s1 p (wA word) % 4 = 0 → exec (.jr p word) s
      = .next (pGoto p (gGet s1 p (wA word)) (gSet p (wD word) ((pc + 4) % 2 ^ 48) s1))) ∧
    (Begins .jr p word s s1 → gGet s1 p (wA word) % 4 ≠ 0 → exec (.jr p word) s
      = .next (pTrap p causeAlign (gGet s1 p (wA word)) s1)) ∧
    (Begins .set p word s s1 → exec (.set p word) s
      = .next (pDone p (gSet p (iD word) (iImm word * 2 ^ (16 * iPos word)) s1))) ∧
    (Begins .keep p word s s1 → ∃ v, exec (.keep p word) s = .next (pDone p (gSet p (iD word) v s1)) ∧
      ∀ k, k < 4 → fld v (16 * k + 15) (16 * k)
        = if k = iPos word then iImm word else fld (gGet s1 p (iD word)) (16 * k + 15) (16 * k)) ∧
    (Begins .nop p word s s1 → exec (.nop p word) s = .next (pDone p s1)) ∧
    (Begins .fence p word s s1 → exec (.fence p word) s = .next (pDone p (drainStores p s1)))

/-- R170, R180, R181, R184: loads and stores that the L1 or memory serves; a miss that the Pocket does not wait for, an
instruction that has to wait for it, and the fill that completes it; misaligned and failing accesses trap. -/
def Obligations.LoadsAndStores : Prop :=
  (∀ (p : Nat) (word : W32) (qs : List (Place × Nat)) (bs : List Byte) (s s1 s2 s3 : State),
    let n := 2 ^ mSize word
    let va := narrow 64 (gGet s1 p (mA word) + mOff word)
    Served p false va n s1 s2 qs → readPlaces p 0 qs s2 = (s3, bs, none) →
    (va % n = 0 →
      (Begins .ld p word s s1 → mOp word = 0 → exec (.ld p word) s = .next (pDone p (gSet p (mD word) (ofBytes bs) s3))) ∧
      (Begins .ld p word s s1 → mOp word = 1 → exec (.ld p word) s
        = .next (pDone p (gSet p (mD word) (narrow 64 (signed (8 * n) (ofBytes bs))) s3))) ∧
      (Begins .fld p word s s1 → n ≤ 8 → exec (.fld p word) s = .next (pDone p (fSet p (mD word) (ofBytes bs) s3))) ∧
      (Begins .fld p word s s1 → n = 16 → exec (.fld p word) s
        = .next (pDone p (vSet p (mD word) (setFld (vGet s3 p (mD word)) 127 0 (ofBytes bs)) s3)))) ∧
    (Begins .ldr p word s s1 → exec (.ldr p word) s = .next (pDone p (gSet p (mD word) (ofBytes bs) s3)))) ∧
  (∀ (p : Nat) (word : W32) (qs : List (Place × Nat)) (s s1 s2 : State),
    let n := 2 ^ mSize word
    let va := narrow 64 (gGet s1 p (mA word) + mOff word)
    Served p true va n s1 s2 qs → failingPlace p s2 0 qs = none →
    (va % n = 0 → Begins .st p word s s1 → exec (.st p word) s
      = .next (pDone p (writePlaces p va qs (toBytes n (gGet s1 p (mD word))) s2))) ∧
    (va % n = 0 → Begins .fst p word s s1 → exec (.fst p word) s
      = .next (pDone p (writePlaces p va qs (toBytes n (vGet s1 p (mD word))) s2))) ∧
    (Begins .str p word s s1 → exec (.str p word) s
      = .next (pDone p (writePlaces p va qs (toBytes n (gGet s1 p (mD word))) s2)))) ∧
  (∀ (p : Nat) (word : W32) (qs : List (Place × Nat)) (s s1 s2 : State), Begins .ld p word s s1 →
    let n := 2 ^ mSize word
    let va := narrow 64 (gGet s1 p (mA word) + mOff word)
    (va % n ≠ 0 → exec (.ld p word) s = .next (pTrap p causeAlign va s1)) ∧
    (∀ a c, va % n = 0 → placesOf p false (laneSplit va n) s1 = (s2, qs, some (a, c)) →
      exec (.ld p word) s = .next (pFault p c a rdAcc s2)) ∧
    (∀ l, va % n = 0 → placesOf p false (laneSplit va n) s1 = (s2, qs, none) → (pktOf s2 p).fill = none →
      firstMiss (pktOf s2 p) false qs = some l →
      exec (.ld p word) s = .next (pMove p ((pktOf s2 p).pc + 4)
        (setPkt p { pktOf s2 p with fill := some ⟨l, word, (pktOf s2 p).pc, va, qs, [], []⟩ } (countMiss p s2)))) ∧
    (∀ g, va % n = 0 → placesOf p false (laneSplit va n) s1 = (s2, qs, none) → (pktOf s2 p).fill = some g →
      meetsFill (pktOf s2 p) false g qs = true → exec (.ld p word) s = .next (stallFill p word s2))) ∧
  (∀ (p : Nat) (word : W32) (s s1 : State),
    (Fetched .integerOp p word s s1 → mustWait (pktOf s1 p) .integerOp word = true →
      exec (.integerOp p word) s = .next (stallFill p word s1)) ∧
    (Fetched .fence p word s s1 → (pktOf s1 p).fill ≠ none → exec (.fence p word) s = .next (stallFill p word s1))) ∧
  (∀ (p : Nat) (f : FillSt) (s s1 s2 : State), working s = true → (pktOf s p).fill = some f →
    fetchLine p f.line (dropLine p f.line (setPkt p { pktOf s p with fill := none } s)) = (s1, 0) →
    firstMiss (pktOf s1 p) (isStore f.word) f.places = none →
    serveAccess p f (setPkt p { pktOf s1 p with filled := f.line :: f.got } s1) = (s2, none) →
    let t := countInstr p (setPkt p { pktOf s2 p with filled := [] } s2)
    ((∀ w, (pktOf s p).wait ≠ .fill w) → exec (.l1Fill p) s = .next t) ∧
    (∀ w, (pktOf s p).wait = .fill w → (pktOf t p).fill = none →
      exec (.l1Fill p) s = .next (runWord p w (setPkt p { pktOf t p with wait := .none } t))))

/-- R180: a held line answers a read with its own bytes and takes a store without memory being written; a line that no level
of the L1 holds is not served. R172: CAS and AADD read the old value at the memory, write the new one where they do, and put
the old value into D. -/
def Obligations.HeldLinesAndAtomics : Prop :=
  ((∀ (p va n : Nat) (q : Place) (bs : List Byte) (e : L1Line) (s : State), q.cached = true →
    (l1Lines (pktOf s p) (q.pa / 64)).find? (fun e => decide (e.line = q.pa / 64)) = some e → e.hard = [] → e.data.length = 64 →
    q.pa % 64 + n ≤ 64 → bs.length = n →
    (∃ t, pRead p q n false s = (t, .ok ((e.data.drop (q.pa % 64)).take n)) ∧ t.mem = s.mem) ∧
    (∃ t r, pWrite p va q bs false s = (t, .ok r) ∧ t.mem = s.mem ∧
      ∃ u, pRead p q n false t = (u, .ok bs) ∧ u.mem = s.mem)) ∧
  (∀ (p n : Nat) (q : Place) (s : State), q.cached = true → inL1 (pktOf s p) (q.pa / 64) = false →
    inVictim (pktOf s p) (q.pa / 64) = false → pRead p q n false s = (s, .miss (q.pa / 64)))) ∧
  (∀ (p : Nat) (word : W32) (q : Place) (bs : List Byte) (s s1 s2 s3 : State),
    let va := gGet s1 p (wA word)
    let d := drainFor p (q.pa / 64) s2
    let u := if q.cached then cleanDropLine p (q.pa / 64) d else d
    let sent := fun (t : State) => meshAccess (pktInit u p) 3 q.pa 8 stOK (List.replicate 16 0) bs t
    va % 8 = 0 → pTranslate p va true true false s1 = (s2, q) → q.cause = 0 →
    (∃ i o, regionOf s2 q.pa = .hbm i o ∨ regionOf s2 q.pa = .panel i o ∨ regionOf s2 q.pa = .scratch i o) →
    physRead q.pa 8 u = (s3, stOK, bs) →
    let old := ofBytes bs
    (∀ s4, Begins .cas p word s s1 → old = gGet s1 p (wB word) →
      physWrite q.pa (toBytes 8 (gGet s1 p (wD word))) s3 = (s4, stOK) →
      exec (.cas p word) s = .next (pDone p (gSet p (wD word) old (sent s4)))) ∧
    (Begins .cas p word s s1 → old ≠ gGet s1 p (wB word) →
      exec (.cas p word) s = .next (pDone p (gSet p (wD word) old (sent s3)))) ∧
    (∀ s4, Begins .aadd p word s s1 → physWrite q.pa (toBytes 8 ((old + gGet s1 p (wB word)) % 2 ^ 64)) s3 = (s4, stOK) →
      exec (.aadd p word) s = .next (pDone p (gSet p (wD word) old (sent s4)))))

/-- R180, R183 and Table 8.8: cleaning writes dirty copies back, invalidating drops copies, ZERO allocates a line of zeros;
set and way operations and CLINV_VC are the supervisor's. -/
def Obligations.CacheMaintenance : Prop :=
  (∀ (p : Nat) (word : W32) (q : Place) (s s1 s2 : State),
    let va := gGet s1 p (wA word)
    let l := q.pa / 64
    (∀ g, (pktOf s2 p).fill = some g → g.line ≠ l) →
    (pTranslate p va true false false s1 = (s2, q) → q.cause = 0 →
      (∀ e, heldLine (pktOf s2 p) l = some e → e.dirty = true → e.hard = []) →
      (Begins .clean p word s s1 → exec (.clean p word) s = .next (pDone p (cleanLine p l s2))) ∧
      (Begins .clinv p word s s1 → exec (.clinv p word) s = .next (pDone p (dropLine p l (cleanLine p l s2))))) ∧
    (pTranslate p va true false false s1 = (s2, q) → q.cause = 0 → Begins .inv p word s s1 →
      exec (.inv p word) s = .next (pDone p (dropLine p l s2))) ∧
    (pTranslate p va false true false s1 = (s2, q) → q.cause = 0 → q.cached = true → Begins .zero p word s s1 →
      exec (.zero p word) s = .next (pDone p (l1Insert p { line := l, way := 0, dirty := true, data := List.replicate 64 0 } (dropLine p l s2)))) ∧
    (∀ s3, pTranslate p va false true false s1 = (s2, q) → q.cause = 0 → q.cached = false → Begins .zero p word s s1 →
      meshWrite (pktInit s2 p) (l * 64) (List.replicate 64 0) (drainStores p s2) = (s3, stOK) → exec (.zero p word) s = .next (pDone p s3))) ∧
  (∀ (p : Nat) (word : W32) (s s1 : State), (pktOf s1 p).priv = true →
    let a := gGet s1 p (wA word)
    let at_ := fun (act : Nat → State → State) =>
      match (kGet [] (pktOf s1 p).sets (a % 128)).find? fun e => decide (e.way = fld a 9 8) with
      | some e => act e.line s1
      | none => s1
    (Begins .setWayClean p word s s1 → exec (.setWayClean p word) s = .next (pDone p (at_ (cleanLine p)))) ∧
    (Begins .setWayInv p word s s1 → exec (.setWayInv p word) s = .next (pDone p (at_ (dropLine p)))) ∧
    (Begins .setWayClinv p word s s1 → exec (.setWayClinv p word) s
      = .next (pDone p (at_ fun l u => dropLine p l (cleanLine p l u))))) ∧
  (∀ (p : Nat) (word : W32) (s s1 : State), (pktOf s1 p).priv = true → Begins .clinvVc p word s s1 →
    exec (.clinvVc p word) s = .next (pDone p (cleanVictims p s1))) ∧
  (∀ (p l : Nat) (s : State), inL1 (pktOf (dropLine p l s) p) l = false ∧ inVictim (pktOf (dropLine p l s) p) l = false ∧
    (dropLine p l s).mem = s.mem ∧ (∀ e ∈ allLines (pktOf (cleanLine p l s) p), e.line = l → e.dirty = false))

/-- R186, R187: a command block goes to a unit with room, a lookup waits for its response, WAITD waits for bit 31. -/
def Obligations.UnitsMatchAndWaits : Prop :=
  (∀ (p n a sel va st : Nat) (bs : List Byte) (q : Place) (s s1 s2 s4 s5 : State),
    let s3 := drainStores p s2
    (pktOf s3 p).task = some n → unitRoom s3 p sel (memBytes s3 a 64) = true → physWrite (a + 0x38) [0, 0, 0, 0] s3 = (s4, stOK) →
    physRead a 64 s4 = (s5, st, bs) →
    let x := pktOf s3 p
    let t := taskOf s3 n
    let c : UnitCmd := ⟨a, bs, n, p, t.inst, t.job, t.serial, t.cls, t.stage, t.morsel, kFind x.regions 6, kFind x.regions 7, false, st⟩
    let u := pDone p (unitTake p sel c (meshMessage (pktInit s5 p) false (unitBlock s5 p sel bs) 64 s5))
    (∀ word, Begins .unit p word s s1 → wArg word % 16 = sel → 1 ≤ sel → sel ≤ 6 → gGet s1 p (wA word) = va → va % 64 = 0 →
      pTranslate p va true true false s1 = (s2, q) → q.cause = 0 → q.pa = a → blockSpace s2 p a = true →
      exec (.unit p word) s = .next u) ∧
    (working s = true → (pktOf s p).wait = .unit a sel → (pktOf s p).halted = false →
      ((pktOf s p).cut && (pktOf s p).ie) = false →
      unitRoom s p sel (memBytes s a 64) = true → s2 = setPkt p { pktOf s p with wait := .none } s →
      exec (.unitStallEnd p) s = .next u)) ∧
  (∀ (p n : Nat) (word : W32) (bs : List Byte) (s s1 s2 : State), Begins .matchReq p word s s1 →
    let va := gGet s1 p (wA word)
    va % 16 = 0 → (pktOf s1 p).task = some n →
    (matchRead p (laneSplit va 48) s1 = (s2, bs, none) →
      let t := taskOf s2 n
      let u := meshMessage (pktInit s2 p) false .matchArray 48 (setPkt p { pktOf s2 p with wait := .resp (wD word) } s2)
      exec (.matchReq p word) s = .next (maArrive ⟨p, t.inst, t.cls, u.now, bs, none⟩ u)) ∧
    (∀ a c, matchRead p (laneSplit va 48) s1 = (s2, bs, some (a, c)) →
      exec (.matchReq p word) s = .next (pFault p c a rdAcc s2))) ∧
  (∀ (p d : Nat) (bs : List Byte) (s : State), working s = true → (pktOf s p).wait = .resp d → kFind s.ma.resp p = some bs →
    let s1 := setPkt p { pktOf s p with wait := .none } { s with ma := { s.ma with resp := kDel s.ma.resp p } }
    (numAt bs 0 1 = stOK →
      exec (.matchResponse p) s = .next (pDone p (vSet p d (setFld (vGet s1 p d) 127 0 (ofBytes bs)) s1))) ∧
    (numAt bs 0 1 ≠ stOK →
      exec (.matchResponse p) s = .next (pTrap p causeMatch 0 (setPkt p { pktOf s1 p with matchSt := numAt bs 0 1 } s1)))) ∧
  (∀ (p va w : Nat) (word : W32) (s s1 s2 : State), watchWord p va s1 = (s2, 0, w) →
    (Begins .waitd p word s s1 → va = (gGet s1 p (wA word) + wArg word) % 2 ^ 64 →
      (bit w 31 = true → exec (.waitd p word) s = .next (pDone p s2)) ∧
      (bit w 31 = false → exec (.waitd p word) s
        = .next (haltCheck p (setPkt p { pktOf s2 p with wait := .watch va } s2)))) ∧
    (working s = true → (pktOf s p).wait = .watch va → (pktOf s p).halted = false →
      ((pktOf s p).cut && (pktOf s p).ie) = false → s1 = s →
      (bit w 31 = true → exec (.waitdEnd p) s = .next (pDone p s2)) ∧
      (bit w 31 = false → exec (.waitdEnd p) s = .next s2)))

/-- R169, R175, R178: CALL traps with the next PC, RET returns, control registers are read and written, an undefined word is
ILLEGAL, and a supervisor instruction in user mode is PRIVILEGED. -/
def Obligations.TrapsReturnsAndControlRegisters : Prop :=
  (∀ (p cause epc taddr : Nat) (s : State), (pktOf s p).nest = false →
    let x := pktOf s p
    let t := trap p cause epc taddr s
    pktOf t p = { x with
      epc := epc, cause := cause, taddr := taddr, ppriv := x.priv, nest := x.priv, priv := true, ie := false, uacc := false,
      pc := x.tvec % 2 ^ 48, asked := false, filled := [] } ∧
    (∀ q, q ≠ p → pktOf t q = pktOf s q) ∧ rGet t (Reg.PKT_TRAPS p) = (rGet s (Reg.PKT_TRAPS p) + 1) % 2 ^ 32 ∧
    OnlyRegs [Reg.PKT_TRAPS p] s t ∧ Only [.rf, .pkt] s t) ∧
  (∀ (p : Nat) (s : State),
    let x := pktOf s p
    let t := trapReturn p s
    pktOf t p = { x with
      priv := x.ppriv, nest := false, ie := x.ie || !x.ppriv, pc := x.epc % 2 ^ 48 / 4 * 4, asked := false, wait := .none,
      filled := [] } ∧ (∀ q, q ≠ p → pktOf t q = pktOf s q) ∧ Only [.pkt] s t) ∧
  (∀ (p : Nat) (word : W32) (s s1 : State),
    let x := pktOf s1 p
    let count := fun u => bump2 (Reg.PKT_INSTR p) (Reg.PKT_SNAP_INSTR p) 1 u
    (Begins .call p word s s1 → exec (.call p word) s
      = .next (haltCheck p (trap p causeCall ((x.pc + 4) % 2 ^ 48) 0 (setPkt p { pktOf s1 p with callArg := wArg word } (count s1))))) ∧
    (Begins .ret p word s s1 → x.priv = true → (x.bare && !x.ppriv) = false →
      exec (.ret p word) s = .next (haltCheck p (trapReturn p (count s1)))) ∧
    (Begins .rdcr p word s s1 → crListed (wArg word) = true → (x.priv || crUser (wArg word)) = true →
      exec (.rdcr p word) s = .next (pDone p (gSet p (wD word) (crGet s1 p (wArg word)) s1))) ∧
    (Begins .wrcr p word s s1 → crListed (wArg word) = true → x.priv = true →
      exec (.wrcr p word) s = .next (pDone p (crSet p (wArg word) (gGet s1 p (wA word)) s1))) ∧
    (Begins .undefined p word s s1 → exec (.undefinedInstruction p word) s = .next (pTrap p causeIllegal 0 s1)) ∧
    (x.priv = false →
      (Begins .ret p word s s1 → exec (.ret p word) s = .next (pTrap p causePrivileged 0 s1)) ∧
      (Begins .wrcr p word s s1 → crListed (wArg word) = true →
        exec (.wrcr p word) s = .next (pTrap p causePrivileged 0 s1)) ∧
      (Begins .report p word s s1 → exec (.report p word) s = .next (pTrap p causePrivileged 0 s1)) ∧
      (Begins .rgld p word s s1 → exec (.rgld p word) s = .next (pTrap p causePrivileged 0 s1)) ∧
      (Begins .tlbiAll p word s s1 → exec (.tlbiAll p word) s = .next (pTrap p causePrivileged 0 s1)) ∧
      (Begins .setWayClean p word s s1 → exec (.setWayClean p word) s = .next (pTrap p causePrivileged 0 s1)) ∧
      (Begins .clinvVc p word s s1 → exec (.clinvVc p word) s = .next (pTrap p causePrivileged 0 s1)))) ∧
  (∀ (p n v : Nat) (s : State), crListed n = true → n ≠ 0x08 → n ≠ 0x09 → n ≠ 0x0A → n ≠ 0x0B →
    crGet (crSet p n v s) p n = (if n = 0 then v % 64 else if n = 2 then v % 256 else if n = 4 then v % 2 ^ 64 / 64 * 64
      else if n = 0x0C then v % 2 ^ 64 &&& 0x3F3 else v % 2 ^ 64))

/-- R69, R177, R178, R256: the supervisor's REPORT ends its task, RGLD loads or invalidates a region register, and TLBI
drops entries of the Pocket's own TLB. R176, R195 and Table 8.10: the long-vector unit gates after PKT_LV_IDLE cycles, HALT
stops a Pocket at a boundary and its clearing lets it go on, and a halted Pocket's registers are written through PKT_DBG. -/
def Obligations.ReportsTlbsHaltAndGating : Prop :=
  (∀ (p : Nat) (word : W32) (s s1 : State), (pktOf s1 p).priv = true →
    let a := gGet s1 p (wA word)
    let d := gGet s1 p (wD word)
    let k := wArg word % 8
    (∀ n, Begins .report p word s s1 → 1 ≤ wD word → wD word ≤ 30 → (pktOf s1 p).task = some n →
      exec (.report p word) s = .next (endTask p n (reportStatus (pktOf s1 p) (a % 256)) d (gGet s1 p (wD word + 1))
        (bump2 (Reg.PKT_INSTR p) (Reg.PKT_SNAP_INSTR p) 1 s1))) ∧
    (Begins .rgld p word s s1 → a = 0 → ∃ t, exec (.rgld p word) s = .next (pDone p t) ∧
      kFind (pktOf t p).regions k = none ∧ ∀ j, j ≠ k → kFind (pktOf t p).regions j = kFind (pktOf s1 p).regions j) ∧
    (∀ bs s2, Begins .rgld p word s s1 → a ≠ 0 → a < 2 ^ 48 →
      meshRead (pktInit s1 p) a 32 (drainStores p s1) = (s2, stOK, bs) →
      ∃ t e, exec (.rgld p word) s = .next (pDone p t) ∧ kFind (pktOf t p).regions k = some e ∧ e.desc = descOf bs ∧
        e.slot = gGet s2 p (wD word) % 4096 ∧ (e.inst = if (descOf bs).u then some (pktInst s2 p) else none)) ∧
    (Begins .tlbiAll p word s s1 → exec (.tlbiAll p word) s
      = .next (pDone p (setPkt p { pktOf s1 p with icache := [] } (tlbDrop p (fun _ => true) s1)))) ∧
    (Begins .tlbiSlot p word s s1 → exec (.tlbiSlot p word) s
      = .next (pDone p (tlbDrop p (fun e => decide (e.slot = a % 4096)) s1))) ∧
    (Begins .tlbiInstance p word s s1 → exec (.tlbiInstance p word) s
      = .next (pDone p (tlbDrop p (fun e => decide (e.inst = a % 2048)) s1)))) ∧
  ((∀ (p : Nat) (s : State), (pktOf s p).lvGated = false → rFld s (Reg.PKT_LV_IDLE p) 15 0 ≠ 0 →
    (pktOf s p).lvAt + 16 * max 64 (rFld s (Reg.PKT_LV_IDLE p) 15 0) ≤ s.cyc16 →
    exec (.lvGate p) s = .next (setPkt p { pktOf s p with lvGated := true } s)) ∧
  (∀ (w : Writer) (p : Nat) (v : W32) (s : State), takes s w (Reg.PKT_CTRL p) = true → p < 512 →
    ∃ t, exec (.pktHalt w p v) s = .next t ∧ Recorded w (Reg.PKT_PAGE p) s t ∧
      (bit v.toNat 0 = true → (pktOf s p).wait = .none → (pktOf t p).halted = true) ∧
      (bit v.toNat 0 = false → (pktOf t p).halted = false ∧ rBit t (Reg.PKT_PAGE p + 0x14) 2 = false) ∧
      rBit t (Reg.PKT_CTRL p) 0 = bit v.toNat 0 ∧ rBit t (Reg.PKT_CTRL p) 1 = bit v.toNat 1 ∧
      pktOf t p = { pktOf s p with halted := (pktOf t p).halted } ∧ ∀ q, q ≠ p → pktOf t q = pktOf s q) ∧
  (∀ (w : Writer) (p : Nat) (v : W32) (s : State), takes s w (Reg.PKT_DBG_DATA_HI p) = true → p < 512 →
    let sel := rFld s (Reg.PKT_DBG_SEL p) 6 0
    let d := v.toNat * 2 ^ 32 + (pktOf s p).dbgLo
    ∃ t u, exec (.pktDbgDataHiWrite w p v) s = .next t ∧ Recorded w (Reg.PKT_PAGE p) s t ∧ u.pkt = t.pkt ∧
      ((pktOf s p).halted = false → t.pkt = s.pkt) ∧
      ((pktOf s p).halted = true → sel < 32 → u = gSet p sel d s) ∧
      ((pktOf s p).halted = true → 32 ≤ sel → sel < 64 → u = fSet p (sel - 32) d s) ∧
      ((pktOf s p).halted = true → 64 ≤ sel → u = crSet p (sel - 64) d s)))

/-- R189, R192, R202 to R205, R208, R209: element by element, a vector instruction writes the result of each active element,
keeps or zeroes the others, and leaves the bits above its view. -/
def Obligations.VectorElementsAreWrittenOneByOne : Prop :=
  ∀ (p : Nat) (word : W32) (s s1 : State),
    let s2 := if vLong word then lvWake p s1 else s1
    let w := 8 * 2 ^ vEw word
    let n := (if vLong word then 1024 else 128) / w
    let act := fun e => bit (prGet s2 p (vPg word)) (e * (w / 8))
    let A := fun e => elemOf w (vGet s2 p (vA word)) e
    let B := fun e => elemOf w (vGet s2 p (vB word)) e
    let D := fun e => elemOf w (vGet s2 p (vD word)) e
    let sh := gGet s2 p (vB word) % w
    let c := gGet s2 p (vB word)
    let done := fun (o : Host.Outcome State Fault Refusal) (flags : Nat) (f : Nat → Nat) =>
      ∃ v, o = .next (pDone p (vSet p (vD word) v (fcsrOr p flags s2))) ∧ Elements (vZ word) w n (vGet s2 p (vD word)) v act f
    let vsat := fun (isOver : Nat → Bool) => if (List.range n).any (fun e => act e && isOver e) then fxVsat else 0
    (Begins .vectorArithmetic p word s s1 →
      let run := fun f => done (exec (.vectorArithmetic p word) s) 0 f
      (vOp word = 0x10 → run fun e => A e + B e) ∧ (vOp word = 0x11 → run fun e => A e + 2 ^ w - B e) ∧
      (vOp word = 0x18 → run fun e => A e * B e) ∧
      (vOp word = 0x1D → run fun e => if signed w (A e) ≤ signed w (B e) then A e else B e) ∧
      (vOp word = 0x1E → run fun e => if signed w (A e) ≤ signed w (B e) then B e else A e) ∧
      (vOp word = 0x20 → run fun e => A e &&& B e) ∧ (vOp word = 0x21 → run fun e => A e ||| B e) ∧
      (vOp word = 0x22 → run fun e => A e ^^^ B e) ∧ (vOp word = 0x23 → run fun e => A e * 2 ^ sh) ∧
      (vOp word = 0x24 → run fun e => A e / 2 ^ sh) ∧ (vOp word = 0x25 → run fun e => narrow w (signed w (A e) / 2 ^ sh)) ∧
      (vOp word = 0x2A → run fun e => min (A e) (B e)) ∧ (vOp word = 0x2B → run fun e => max (A e) (B e)) ∧
      (∀ x : Nat → Int, (vOp word = 0x12 ∧ x = fun e => signed w (A e) + signed w (B e)) ∨
          (vOp word = 0x13 ∧ x = fun e => signed w (A e) - signed w (B e)) →
        done (exec (.vectorArithmetic p word) s) (vsat fun e => decide (x e < -(2 ^ (w - 1)) ∨ 2 ^ (w - 1) - 1 < x e))
          fun e => narrow w (max (-(2 ^ (w - 1))) (min (x e) (2 ^ (w - 1) - 1)))) ∧
      (∀ x : Nat → Int, (vOp word = 0x14 ∧ x = fun e => (A e : Int) + B e) ∨ (vOp word = 0x15 ∧ x = fun e => (A e : Int) - B e) →
        done (exec (.vectorArithmetic p word) s) (vsat fun e => decide (x e < 0 ∨ 2 ^ w - 1 < x e))
          fun e => (max 0 (min (x e) (2 ^ w - 1))).toNat)) ∧
    (Begins .vsrr p word s s1 → done (exec (.vsrr p word) s) 0
      fun e => narrow w (roundDiv (fld c 9 8) (signed w (A e)) (2 ^ fld c 6 0))) ∧
    (Begins .vresc p word s s1 → bit c 10 = false →
      let x := fun e => if 0 ≤ signed 8 c then signed w (A e) * 10 ^ (signed 8 c).toNat
        else roundDiv (fld c 9 8) (signed w (A e)) (10 ^ (-signed 8 c).toNat)
      done (exec (.vresc p word) s) (vsat fun e => decide (x e < -(2 ^ (w - 1)) ∨ 2 ^ (w - 1) - 1 < x e))
        fun e => narrow w (max (-(2 ^ (w - 1))) (min (x e) (2 ^ (w - 1) - 1)))) ∧
    (Begins .vunzz p word s s1 → done (exec (.vunzz p word) s) 0
      fun e => if A e % 2 = 0 then A e / 2 else 2 ^ w - 1 - A e / 2) ∧
    (∀ r : Nat → Nat, Begins .vscan p word s s1 → 1 ≤ c % 32 → c % 32 ≤ 16 →
      (∀ e, r e = (if act e then A e else 0) + (if c % 32 ≤ e then r (e - c % 32) else 0)) →
      done (exec (.vscan p word) s) 0 r) ∧
    (Begins .vsplat p word s s1 → done (exec (.vsplat p word) s) 0 fun _ => narrow w (signed 64 (gGet s2 p (vA word)))) ∧
    (Begins .vectorFloat p word s s1 →
      let f := if vEw word = 2 then fmt32 else fmt64
      let rm := (pktOf s2 p).fcsr % 4
      let r := fun e => match vOp word with
        | 0x2C => fpAdd f rm (A e) (B e)
        | 0x2D => fpSub f rm (A e) (B e)
        | 0x2E => fpMul f rm (A e) (B e)
        | _ => fpFma f rm (A e) (B e) (D e)
      ∃ flags, done (exec (.vectorFloat p word) s) flags (fun e => (r e).1) ∧
        ∀ k, bit flags k = true ↔ ∃ e, e < n ∧ act e = true ∧ bit (r e).2 k = true)

/-- R203, R207 and Table 9.4: widening products, reductions, packing, moves of one element, and predicates. -/
def Obligations.VectorReductionsMovesAndPredicates : Prop :=
  ∀ (p : Nat) (word : W32) (s s1 : State),
    let s2 := if vLong word then lvWake p s1 else s1
    let w := 8 * 2 ^ vEw word
    let bits := if vLong word then 1024 else 128
    let n := bits / w
    let act := fun e => bit (prGet s2 p (vPg word)) (e * (w / 8))
    let A := fun e => elemOf w (vGet s2 p (vA word)) e
    let B := fun e => elemOf w (vGet s2 p (vB word)) e
    let d := vGet s2 p (vD word)
    let xs := ((List.range n).filter act).map A
    let holds := fun (o : Host.Outcome State Fault Refusal) (f : Nat → Bool) =>
      ∃ m, o = .next (pDone p (prSet p (vD word) m s2)) ∧ m < 2 ^ (n * (w / 8)) ∧
        ∀ e, e < n → fld m (e * (w / 8) + w / 8 - 1) (e * (w / 8)) = if act e && f e then 2 ^ (w / 8) - 1 else 0
    (Begins .vmulwl p word s s1 →
      let h := if vOp word = 0x1A then n / 2 else 0
      ∃ v, exec (.vmulwl p word) s = .next (pDone p (vSet p (vD word) v s2)) ∧
        Elements (vZ word) (2 * w) (n / 2) d v (fun e => bit (prGet s2 p (vPg word)) (e * (2 * w / 8)))
          fun e => narrow (2 * w) (signed w (A (h + e)) * signed w (B (h + e)))) ∧
    (Begins .vredadd p word s s1 →
      let x : Int := (xs.map (signed w)).sum
      ∃ v, exec (.vredadd p word) s
          = .next (pDone p (vSet p (vD word) v (fcsrOr p (if x < -(2 ^ 127) ∨ 2 ^ 127 - 1 < x then fxVsat else 0) s2))) ∧
        v % 2 ^ bits = narrow 128 (max (-(2 ^ 127)) (min x (2 ^ 127 - 1))) ∧ v / 2 ^ bits = d / 2 ^ bits) ∧
    (Begins .vcomp p word s s1 → ∃ v, exec (.vcomp p word) s = .next (pDone p (vSet p (vD word) v s2)) ∧
      Elements false w n d v (fun _ => true) fun e => xs.getD e 0) ∧
    (Begins .vext p word s s1 → exec (.vext p word) s
      = .next (pDone p (gSet p (vD word) (A (gGet s2 p (vB word) % n)) s2))) ∧
    (Begins .vins p word s s1 → ∃ v, exec (.vins p word) s = .next (pDone p (vSet p (vD word) v s2)) ∧
      Elements false w n d v (fun e => decide (e = gGet s2 p (vB word) % n)) fun _ => gGet s2 p (vA word)) ∧
    (Begins .vcmp p word s s1 →
      (vOp word = 0x30 → holds (exec (.vcmp p word) s) fun e => decide (A e = B e)) ∧
      (vOp word = 0x31 → holds (exec (.vcmp p word) s) fun e => decide (A e ≠ B e)) ∧
      (vOp word = 0x32 → holds (exec (.vcmp p word) s) fun e => decide (signed w (A e) < signed w (B e))) ∧
      (vOp word = 0x33 → holds (exec (.vcmp p word) s) fun e => decide (signed w (A e) ≤ signed w (B e))) ∧
      (vOp word = 0x34 → holds (exec (.vcmp p word) s) fun e => decide (A e < B e)) ∧
      (vOp word = 0x35 → holds (exec (.vcmp p word) s) fun e => decide (A e ≤ B e))) ∧
    (Begins .vwhilelt p word s s1 → holds (exec (.vwhilelt p word) s)
      fun e => decide (gGet s2 p (vA word) + e < gGet s2 p (vB word))) ∧
    (Begins .predicateOp p word s s1 →
      let a := fun e => bit (prGet s2 p (vA word)) (e * (w / 8))
      let b := fun e => bit (prGet s2 p (vB word)) (e * (w / 8))
      (vOp word = 0x38 → holds (exec (.predicateOp p word) s) fun e => a e && b e) ∧
      (vOp word = 0x39 → holds (exec (.predicateOp p word) s) fun e => a e && !b e) ∧
      (vOp word = 0x3A → holds (exec (.predicateOp p word) s) fun e => a e || b e) ∧
      (vOp word = 0x3B → holds (exec (.predicateOp p word) s) fun e => xor (a e) (b e))) ∧
    (Begins .pcnt p word s s1 → exec (.pcnt p word) s = .next (pDone p (gSet p (vD word)
      ((List.range n).filter fun e => act e && bit (prGet s2 p (vA word)) (e * (w / 8))).length s2)))

/-- R196 to R198, R202, R205, R206, R208: the elements of a faulting instruction are done one after another from element 0
where VX_START is 0; each that succeeds is committed, and VX_START is 0 at the end. R198 to R200: an element that faults
leaves its number in VX_START and its address in VX_ADDR and TADDR; an invalid or denying descriptor is a VECTOR fault; the
instruction goes on from that element when it runs again. -/
def Obligations.VectorElementsInOrderAndResume : Prop :=
  (∀ (p : Nat) (word : W32) (s s1 : State) (σ : Nat → State), (pktOf s1 p).vxStart = 0 →
    σ 0 = (if vLong word then lvWake p s1 else s1) →
    let w := vWidth word
    let n := vCount word
    let put := fun e x u => vSet p (vD word) (setElem w (vGet u p (vD word)) e x) u
    let skip := fun (e : Nat) => σ (e + 1) = if vZ word then put e 0 (σ e) else σ e
    let fin := pDone p (setPkt p { pktOf (σ n) p with vxStart := 0 } (σ n))
    let g := fun e r => gGet (σ e) p r
    let x := fun (e : Nat) => (if vEw word = 2 then ((elemOf 32 (vGet (σ e) p (vB word)) e : Nat) : Int)
      else signed 64 (elemOf 64 (vGet (σ e) p (vB word)) e))
    let D := fun e => elemOf w (vGet (σ e) p (vD word)) e
    let loads := fun (addr : Nat → Nat) => ∀ e, e < n → (active (σ e) p word e = false → skip e) ∧
      (active (σ e) p word e = true → ∃ u bs, elemLoad p (addr e % 2 ^ 64) (w / 8) (w / 8) (σ e) = (u, (0, 0), bs) ∧
        σ (e + 1) = put e (ofBytes bs) u)
    let stores := fun (addr : Nat → Nat) => ∀ e, e < n → (active (σ e) p word e = false → σ (e + 1) = σ e) ∧
      (active (σ e) p word e = true → elemStore p (addr e % 2 ^ 64) (toBytes (w / 8) (D e)) (σ e) = (σ (e + 1), 0))
    let adds := fun (sat : Bool) => ∀ e, e < n → (active (σ e) p word e = false → σ (e + 1) = σ e) ∧
      (active (σ e) p word e = true → ∃ u1 u2 u3 q rec,
        let va := (g e (vA word) + elemOf 32 (vGet (σ e) p (vB word)) e * 32) % 2 ^ 64
        let r := aggAdd rec (toBytes 8 0 ++ toBytes 16 (narrow 128 (signed w (D e))) ++ toBytes 8 1)
        va % 32 = 0 ∧ pTranslate p va true true false (σ e) = (u1, q) ∧ q.cause = 0 ∧
        physRead q.pa 32 (if q.cached then cleanDropLine p (q.pa / 64) (drainFor p (q.pa / 64) u1)
          else drainFor p (q.pa / 64) u1) = (u2, stOK, rec) ∧
        (sat = true ∨ r.2 = false) ∧
        physWrite q.pa r.1 (meshAccess (pktInit u2 p) 3 q.pa 32 stOK (List.replicate 16 0) rec u2) = (u3, stOK) ∧
        σ (e + 1) = fcsrOr p (if r.2 then fxVsat else 0) u3)
    let computes := fun (y : Nat → Int) => ∀ e, e < n → (active (σ e) p word e = false → skip e) ∧
      (active (σ e) p word e = true → -(2 ^ (w - 1)) ≤ y e ∧ y e < 2 ^ (w - 1) ∧ σ (e + 1) = put e (narrow w (y e)) (σ e))
    let seq := fun e => g e (vA word) + e * (w / 8)
    let stride := fun (e : Nat) => narrow 64 (g e (vA word) + e * signed 64 (g e (vB word)))
    let index := fun (e : Nat) => narrow 64 (g e (vA word) + x e * (w / 8 : Nat))
    (Begins .vld p word s s1 → loads seq → exec (.vld p word) s = .next fin) ∧
    (Begins .vst p word s s1 → stores seq → exec (.vst p word) s = .next fin) ∧
    (Begins .vlds p word s s1 → loads stride → exec (.vlds p word) s = .next fin) ∧
    (Begins .vsts p word s s1 → stores stride → exec (.vsts p word) s = .next fin) ∧
    (Begins .vgath p word s s1 → loads index → exec (.vgath p word) s = .next fin) ∧
    (Begins .vscat p word s s1 → stores index → exec (.vscat p word) s = .next fin) ∧
    (Begins .scaddt p word s s1 → adds false → exec (.scaddt p word) s = .next fin) ∧
    (Begins .scadds p word s s1 → adds true → exec (.scadds p word) s = .next fin) ∧
    (Begins .vunpk p word s s1 →
      let ctl := gGet (σ 0) p (vB word)
      let W := fld ctl 6 0
      let lo := fun e => (fld ctl 23 8 + e) * W
      W ≤ w →
      (∀ e, e < n → (active (σ e) p word e = false → skip e) ∧
        (active (σ e) p word e = true → W = 0 → σ (e + 1) = put e 0 (σ e)) ∧
        (active (σ e) p word e = true → W ≠ 0 → ∃ u bs,
          elemLoad p ((g e (vA word) + lo e / 8) % 2 ^ 64) ((lo e + W - 1) / 8 - lo e / 8 + 1) 1 (σ e) = (u, (0, 0), bs) ∧
          σ (e + 1) = put e (ofBytes bs / 2 ^ (lo e % 8) % 2 ^ W) u)) →
      exec (.vunpk p word) s = .next fin) ∧
    (Begins .vectorArithmetic p word s s1 → vOp word = 0x16 →
      computes (fun e => signed w (elemA (σ e) p word e) + signed w (elemB (σ e) p word e)) →
      exec (.vectorArithmetic p word) s = .next fin) ∧
    (Begins .vectorArithmetic p word s s1 → vOp word = 0x17 →
      computes (fun e => signed w (elemA (σ e) p word e) - signed w (elemB (σ e) p word e)) →
      exec (.vectorArithmetic p word) s = .next fin) ∧
    (Begins .vresc p word s s1 → bit (gGet (σ 0) p (vB word)) 10 = true →
      computes (fun e => rescale (gGet (σ 0) p (vB word)) (signed w (elemA (σ e) p word e))) →
      exec (.vresc p word) s = .next fin)) ∧
  (∀ (p : Nat) (word : W32) (s s1 u : State) (k c a : Nat) (bs : List Byte), Begins .vld p word s s1 →
    k < vCount word →
    let s2 := if vLong word then lvWake p s1 else s1
    (pktOf s1 p).vxStart = k → active s2 p word k = true →
    let va := (gGet s2 p (vA word) + k * (vWidth word / 8)) % 2 ^ 64
    elemLoad p va (vWidth word / 8) (vWidth word / 8) s2 = (u, (c, a), bs) →
    (c ≠ 0 → exec (.vld p word) s = .next (pFault p c a rdAcc (setPkt p { pktOf u p with vxStart := k, vxAddr := a } u))) ∧
    (va % (vWidth word / 8) ≠ 0 → c = causeAlign ∧ a = va) ∧
    (∀ t q, va % (vWidth word / 8) = 0 → pTranslate p va true false false s2 = (t, q) → q.cause ≠ 0 → u = t ∧ a = va ∧
      c = if q.cause = causeXlate then causeVector else q.cause))

/-- R213, R220 to R222, R229, R361: a tail doorbell adds entries to its ring or is dropped and counted, and one that finds
ring state with a parity error is fatal; a fetch brings entries in, and a head doorbell releases completion entries. -/
def Obligations.DoorbellsAndFetches : Prop :=
  (∀ (w : Writer) (i r : Nat) (v : W32) (s : State), i < numInst → r < 8 → takes s w (tailAddr i r) = true →
    let x := jrOf s i r
    let tail := fld v.toNat 15 0
    let n := 2 ^ rFld s (Reg.INST_JR_SIZE i r) 4 0
    let total := if tail ≠ x.head then (tail + n - x.head) % n else if headPhase s i r 0 = x.expect then n else 0
    let live := s.dev.mode = .service ∧ halted s = false ∧ hasFunction s i = true
    ∃ t, exec (.tailDoorbell w i r v) s = .next t ∧ Recorded w (pageBase (tailAddr i r)) s t ∧
      (∀ k, k ≠ 8 * i + r → kFind t.rings.jr k = kFind s.rings.jr k) ∧ t.rings.cr = s.rings.cr ∧ t.rings.inst = s.rings.inst ∧
      (live → x.bad = false → jrEn s i r = true → tail < n → x.entries.length ≤ total → fld v.toNat 17 16 = 0 →
        (jrOf t i r).tail = tail ∧ (jrOf t i r).head = x.head ∧ (jrOf t i r).accepted = x.accepted ∧
        (jrOf t i r).entries = x.entries ++ List.replicate (total - x.entries.length) .unread ∧
        OnlyRegs (writeWords (pageBase (tailAddr i r))) s t ∧ Only [.rf, .rings] s t) ∧
      (live → x.bad = false → (jrEn s i r = false ∨ n ≤ tail) → jrOf t i r = { x with slot := [] } ∧
        rGet t (Reg.INST_DB_DROP i) = (rGet s (Reg.INST_DB_DROP i) + 1) % 2 ^ 32 ∧ rGet t (Reg.INST_RING_PAGE i + 0x20) = 1 ∧
        Only [.rf, .rings, .out] s t) ∧
      (live → x.bad = true → t.dev.fatal = 4) ∧
      (¬live → jrOf t i r = { x with slot := [] } ∧
        rGet t (Reg.INST_DB_DROP i) = (rGet s (Reg.INST_DB_DROP i) + 1) % 2 ^ 32)) ∧
  (∀ (i r k m : Nat) (bs : List Byte) (rest : List RingEntry) (s : State),
    let x := jrOf s i r
    let n := 2 ^ rFld s (Reg.INST_JR_SIZE i r) 4 0
    (∀ e ∈ x.entries.take k, e ≠ .unread) → k ≤ x.entries.length → 1 ≤ m → m ≤ 8 →
    x.entries.drop k = List.replicate m .unread ++ rest → (m = 8 ∨ rest.head? ≠ some .unread ∨ (x.head + k) % n + m = n) → (x.head + k) % n + m ≤ n →
    halted s = false → jrEn s i r = true → x.failed = false →
    hostRead s i (jrBase s i r + 128 * ((x.head + k) % n)) (128 * m) = some bs →
    exec (.fetchComplete i r) s = .next (setJr i r { x with
      entries := x.entries.take k ++ ((List.range m).map fun j => .fetched ((bs.drop (128 * j)).take 128)) ++ rest } s)) ∧
  (∀ (w : Writer) (i c : Nat) (v : W32) (s : State), i < numInst → c < 4 → takes s w (Reg.INST_CR_HEAD i c) = true →
    let head := fld v.toNat 15 0
    let n := 2 ^ rFld s (Reg.INST_CR_SIZE i c) 4 0
    let x := crOf s i c
    ∃ t, exec (.headDoorbell w i c v) s = .next t ∧ Recorded w (Reg.INST_RING_PAGE i) s t ∧ Only [.rf, .rings] s t ∧
      (head < n → rGet t (Reg.INST_CR_HEAD i c) = v.toNat % 2 ^ 17 ∧ (crOf t i c).tail = x.tail ∧
        (head ≠ x.tail → (crOf t i c).free = n - (x.tail + n - head) % n) ∧
        (head = x.tail → bit v.toNat 16 = x.phase → (crOf t i c).free = n) ∧
        (head = x.tail → bit v.toNat 16 ≠ x.phase → (crOf t i c).free = 0)) ∧
      (n ≤ head → t.rings = s.rings ∧ ErrorLeft (Reg.INST_RING_PAGE i) 6 0 s t))

/-- R215 to R217, R222, R223: an entry is accepted in its ring's order; one that breaks an entry check, or that its instance
has no job record for, completes at once, and one that passes takes a job record, which starts or ends by its start checks.
-/
def Obligations.EntriesAreAccepted : Prop :=
  ∀ (i r : Nat) (pushed : Bool) (bs : List Byte) (rest : List RingEntry) (s : State),
    let x := jrOf s i r
    s.dev.mode = .service ∨ s.dev.mode = .drain → halted s = false → ovfFull s i = false → jrEn s i r = true → x.bad = false →
    x.entries = (if pushed then .pushed bs else .fetched bs) :: rest →
    let wrap := decide (x.head + 1 = 2 ^ rFld s (Reg.INST_JR_SIZE i r) 4 0)
    let y := { x with
      head := if wrap then 0 else x.head + 1, expect := if wrap then !x.expect else x.expect, entries := rest,
      accepted := x.accepted + 1 }
    let s1 := writeShadow i r (bump (Reg.INST_JOBS_ACCEPTED i) 1 (setJr i r y s))
    (s.xl.stopped.contains i = true → exec (.entryAccept i r) s
      = .next (entryCompl i r bs stWalkDevice 0 (!tagUsed s1 i (fld (numAt bs 0 4) 31 16)) s1)) ∧
    (s.xl.stopped.contains i = false →
      (∀ d, entryCheck s1 i pushed bs = some d →
        exec (.entryAccept i r) s = .next (entryCompl i r bs stDescInvalid d (decide (d ≠ 0x83)) s1)) ∧
      (entryCheck s1 i pushed bs = none → rFld s (Reg.INST_CUFF_JOBS i) 14 0 ≤ (instJobs s i).length →
        exec (.entryAccept i r) s = .next (entryCompl i r bs stQuota 1 true s1)) ∧
      (entryCheck s1 i pushed bs = none → (instJobs s i).length < rFld s (Reg.INST_CUFF_JOBS i) 14 0 →
        s.sched.jobs.length < 16384 →
        let j := freeJob s1
        let q := jobFrom s1 i r bs
        let s0 := { s1 with sched := { s1.sched with serial := (s1.sched.serial + 1) % 65536 } }
        let io := if q.kind = .express then (0, 0) else (numAt bs 0x20 8, numAt bs 0x28 8)
        q.tag = fld (numAt bs 0 4) 31 16 ∧ q.inst = i ∧ q.gen = (instOf s i).gen ∧ q.status = none ∧ q.serial = s.sched.serial ∧
        (∀ s2 counts outs, startChecks q io.1 io.2 (numAt bs 4 4) s0 = (s2, .inl (counts, outs)) →
          let s3 := setJob j { q with counts := counts, created := counts.map fun _ => [], outs := outs } (fragsRead i q.tag s2)
          exec (.entryAccept i r) s = .next (if q.kind = .express then createAll j s3 else s3)) ∧
        (∀ s2 st d, startChecks q io.1 io.2 (numAt bs 4 4) s0 = (s2, .inr (st, d)) →
          exec (.entryAccept i r) s = .next (endJobIn s2.seam.num j st d (setJob j q (fragsRead i q.tag s2))))))

/-- R225 to R231, R235: a completion whose ring has room is written into the entry at its tail, which the phase bit marks;
the ring's message follows at once for a job that asks for it, or under moderation. -/
def Obligations.CompletionsAreWritten : Prop :=
  (∀ (i : Nat) (c : Compl) (s : State), working s = true → i < numInst → hasFunction s i = true →
    (instOf s i).compl.find? (fun c => hasRoom s i c && (c.inOvf || !ovfFull s i)) = some c → c.cr < 4 →
    let x := crOf s i c.cr
    let bs := complBytes (pageCompat s (Reg.INST_RING_PAGE i)) x.phase c
    let a := crBase s i c.cr + bs.length * x.tail
    let wrap := x.tail + 1 = 2 ^ rFld s (Reg.INST_CR_SIZE i c.cr) 4 0
    ∃ t, exec (.completionWrite i) s = .next t ∧
      (instOf t i).compl = (instOf s i).compl.erase c ∧
      (crOf t i c.cr).tail = (if wrap then 0 else x.tail + 1) ∧ (crOf t i c.cr).phase = (if wrap then !x.phase else x.phase) ∧
      (crOf t i c.cr).free = x.free - 1 ∧
      rGet t (Reg.INST_JOBS_COMPLETED i) = (rGet s (Reg.INST_JOBS_COMPLETED i) + 1) % 2 ^ 32 ∧
      (∀ j, c.job = some j → jobOf t j = none) ∧
      (a + bs.length ≤ 2 ^ 64 → hostBytes t a bs.length = bs ∧
        ∀ b, ¬(a ≤ b ∧ b < a + bs.length) → hostBytes t b 1 = hostBytes s b 1) ∧
      (c.intr = true → (crOf t i c.cr).since = 0) ∧
      Only [.rf, .sched, .rings, .mem, .out] s t) ∧
  (∀ (i : Nat) (c : Compl) (rest : List Compl) (s : State), working s = true →
    (instOf s i).compl = c :: rest → (∀ d ∈ c :: rest, hasRoom s i d = false) → c.inOvf = false → ovfFull s i = false →
    ∃ t, exec (.completionWrite i) s = .next t ∧ (instOf t i).compl = { c with inOvf := true, job := none } :: rest ∧
      (∀ j, c.job = some j → jobOf t j = none) ∧ t.mem = s.mem ∧
      rBit t (Reg.INST_RING_PAGE i + 0x14) 0 = decide (16 ≤ ((c :: rest).filter (·.inOvf)).length + 1)) ∧
  (∀ (i c : Nat) (s : State), working s = true →
    let t := rFld s (Reg.INST_CR_MOD i c) 23 8
    t ≠ 0 → (crOf s i c).since ≠ 0 → (crOf s i c).firstAt + 160 * t ≤ s.now →
    exec (.moderationTimer i c) s
      = .next (sendMsix i (rFld s (Reg.INST_CR_CTRL i c) 8 1) (setCr i c { crOf s i c with since := 0 } s))) ∧
  (∀ (c : Compl) (compat phase : Bool),
    let bs := complBytes compat phase c
    (bs.length = if compat then 16 else 32) ∧
    (c.tag < 2 ^ 16 → c.status < 2 ^ 8 → c.gen < 2 ^ 8 → numAt bs 0 2 = c.tag ∧ numAt bs 2 1 = c.status % 2 ^ 8) ∧
    (compat = false → c.ring < 8 → c.kind < 16 → c.detail < 256 → c.serial < 2 ^ 16 → bit (numAt bs 4 4) 0 = phase ∧ numAt bs 5 1 = c.detail))

/-- R232 to R234, R236: ABORT ends the job that holds a tag, also one that failed in the same cycle, rings start at lap 0
when they are enabled, and a reset of an instance moves it to its next generation with its rings empty. -/
def Obligations.AbortsRingsAndResets : Prop :=
  (∀ (w : Writer) (i : Nat) (v : W32) (s : State), i < numInst → takes s w (Reg.INST_ABORT i) = true →
    let tag := fld v.toNat 15 0
    let mine := fun (p : Nat × JobRec) => p.2.tag = tag && p.2.gen = (instOf s i).gen && p.2.status.isNone && !p.2.formed
    let victim := (instJobs s i).find? mine
    let late := (instJobs s i).find? fun p => p.2.tag = tag && p.2.gen = (instOf s i).gen && failedNow s p.2
    ∃ u, Recorded w (Reg.INST_RING_PAGE i) s u ∧ Only [.rf, .rings] s u ∧
      (instOf u i).abortTag = tag ∧ (instOf u i).gen = (instOf s i).gen ∧ (instOf u i).compl = (instOf s i).compl ∧
      (∀ p, victim = some p → (instOf u i).abortRes = 1 ∧
        exec (.abort w i v) s = .next (if halted s then u else endJob p.1 stAborted u)) ∧
      (victim = none → late = none →
        (instOf u i).abortRes = (if tagUsed s i tag then 2 else 3) ∧ exec (.abort w i v) s = .next u) ∧
      (∀ j x, victim = none → late = some (j, x) → halted s = false → ∃ t, exec (.abort w i v) s = .next t ∧
        (instOf t i).abortTag = tag ∧ (instOf t i).abortRes = 1 ∧ jobOf t j = some { x with status := some stAborted, detail := 0 })) ∧
  (∀ (p : Path) (i : Nat) (s : State), dead s = false → reaches s p i (Reg.INST_ABORT_RESULT i) = true →
    exec (.abortResultRead p i) s
      = .next { s with out := s.out ++ [.word (BitVec.ofNat 32 ((instOf s i).abortTag + 2 ^ 16 * (instOf s i).abortRes))] }) ∧
  (∀ (w : Writer) (i k : Nat) (v : W32) (s : State), i < numInst →
    (k < 8 → takes s w (Reg.INST_JR_CTRL i k) = true →
      (bit v.toNat 0 = true → jrEn s i k = false → ∃ t, exec (.ringEnable w i false k v) s = .next t ∧
        Recorded w (Reg.INST_RING_PAGE i) s t ∧ jrEn t i k = true ∧ jrOf t i k = { slot := (jrOf s i k).slot } ∧
        fld (shadowWord t (Reg.INST_JR_CTRL i k)) 2 1 = fld v.toNat 2 1 ∧ Only [.rf, .rings, .mem] s t) ∧
      (bit v.toNat 0 = false → jrEn s i k = true → ∃ t, exec (.ringDisable w i false k v) s = .next t ∧
        Recorded w (Reg.INST_RING_PAGE i) s t ∧ jrEn t i k = false ∧
        jrOf t i k = { jrOf s i k with entries := [] } ∧ Only [.rf, .rings] s t)) ∧
    (k < 4 → takes s w (Reg.INST_CR_CTRL i k) = true →
      (bit v.toNat 0 = true → crEn s i k = false → ∃ t, exec (.ringEnable w i true k v) s = .next t ∧
        Recorded w (Reg.INST_RING_PAGE i) s t ∧ crEn t i k = true ∧ (crOf t i k).free = 2 ^ rFld s (Reg.INST_CR_SIZE i k) 4 0 ∧
        (crOf t i k).tail = 0 ∧ Only [.rf, .rings] s t) ∧
      (bit v.toNat 0 = false → crEn s i k = true → ∃ t, exec (.ringDisable w i true k v) s = .next t ∧
        Recorded w (Reg.INST_RING_PAGE i) s t ∧ crEn t i k = false ∧ Only [.rf] s t))) ∧
  (∀ (i : Nat) (s : State), i < numInst → dead s = false → ∃ t, exec (.instanceReset i) s = .next t ∧
    (instOf t i).gen = ((instOf s i).gen + 1) % 256 ∧ (instOf t i).resetting = true ∧
    (∀ r, r < 8 → jrOf t i r = {}) ∧ (∀ c, c < 4 → crOf t i c = {}) ∧ ∀ k, k < 64 → slotOf t i k = none) ∧
  (∀ (i : Nat) (s : State), (instOf s i).resetting = true → (∀ p ∈ instJobs s i, p.2.gen = (instOf s i).gen) →
    exec (.instanceResetEnd i) s = .next (setInst i { instOf s i with resetting := false, oldTags := [] } s))

/-- R240, R241, R244, R247: a write to a memory is what a later read answers, no other byte changes, and a read of an
uncorrectable word fails; a read that a waiting line covers in part follows that line, and a write whose queue is full
waits. -/
def Obligations.MemoryReadsWhatWasWritten : Prop :=
  (∀ (h a prio : Nat) (bs : List Byte) (s : State), (∃ o, regionOf s a = .hbm h o) → a % 64 + bs.length ≤ 64 →
    (pcWrites s h (pcAt h a)).length < 64 → (pcReads s h (pcAt h a)).length < 64 →
    (∀ q ∈ (hmcOf s h).input, pcAt h q.addr ≠ pcAt h a) → (∀ r ∈ (hmcOf s h).reads, r.held = true → r.addr / 64 ≠ a / 64) →
    ∃ t, exec (.hbmWrite h a bs prio) s = .next t ∧ memBytes t a bs.length = bs ∧ OnlyBytes a bs.length s t ∧
      Only [.hmc] s t ∧
      ∃ u, exec (.hbmRead h a bs.length prio) t = .next u ∧ u.out = t.out ++ [.memData bs stOK] ∧
        (hmcOf u h).wq = (hmcOf t h).wq ∧ rGet u (Reg.HMC_FORWARDS h) = (rGet t (Reg.HMC_FORWARDS h) + 1) % 2 ^ 32) ∧
  (∀ (h a prio : Nat) (bs : List Byte) (s : State), (∃ o, regionOf s a = .hbm h o) →
    wqFind (hmcOf s h).wq (a / 64) = none → 64 ≤ (pcWrites s h (pcAt h a)).length →
    ∃ t, exec (.hbmWrite h a bs prio) s = .next t ∧
      (hmcOf t h).input = (hmcOf s h).input ++ [⟨true, a, bs.length, bs, prio, s.now⟩] ∧ t.mem = s.mem ∧ Only [.hmc] s t) ∧
  (∀ (h a n prio : Nat) (s : State), (∃ o, regionOf s a = .hbm h o) → a % 64 + n ≤ 64 → wqFind (hmcOf s h).wq (a / 64) = none →
    pcWrites s h (pcAt h a) = [] → pcReads s h (pcAt h a) = [] → (∀ q ∈ (hmcOf s h).input, pcAt h q.addr ≠ pcAt h a) →
    ∃ t m, exec (.hbmRead h a n prio) s = .next t ∧
      rGet t (Reg.HMC_READS h) = (rGet s (Reg.HMC_READS h) + 1) % 2 ^ 32 ∧ (∀ b, memByte t b = memByte s b) ∧
      ((∀ w ∈ rangeWords a n, eccOf s w < 2) → (∀ w ∈ lineWords a, eccOf s w ≠ 3) →
        t.out = s.out ++ m ++ [.memData (memBytes s a n) stOK]) ∧
      ((∃ w ∈ rangeWords a n, 2 ≤ eccOf s w) → t.out = s.out ++ m ++ [.memData [] stUncorrectable] ∧
        rGet t (Reg.HMC_PAGE h + 0x24) = a % 2 ^ 32)) ∧
  (∀ (h a n prio : Nat) (q : WqLine) (s : State), (∃ o, regionOf s a = .hbm h o) → a % 64 + n ≤ 64 →
    wqFind (hmcOf s h).wq (a / 64) = some q → wqMeets q a n = true → wqCovers q a n = false →
    pcWrites s h (pcAt h a) = [q] → pcReads s h (pcAt h a) = [] → (∀ q ∈ (hmcOf s h).input, pcAt h q.addr ≠ pcAt h a) →
    (∀ w ∈ lineWords a, eccOf s w < 2) → q.bytes.Pairwise (fun a b => a.1 < b.1) → (∀ p ∈ q.bytes, p.1 < 64) →
    ∃ t m, exec (.hbmRead h a n prio) s = .next t ∧ t.out = s.out ++ m ++ [.memData (memBytes s a n) stOK] ∧
      wqFind (hmcOf t h).wq (a / 64) = none ∧ (∀ b, memByte t b = memByte s b) ∧
      rGet t (Reg.HMC_WRITES h) = (rGet s (Reg.HMC_WRITES h) + 1) % 2 ^ 32 ∧
      rGet t (Reg.HMC_READS h) = (rGet s (Reg.HMC_READS h) + 1) % 2 ^ 32) ∧
  (∀ (p o : Nat) (bs : List Byte) (s : State), p < 2 → o < capBytes s p → capBytes s p ≤ 2 ^ 39 → o % 64 + bs.length ≤ 64 →
    (cxtOf s p).linkUp = true → (∀ w ∈ rangeWords (capAddr p o) bs.length, eccOf s w < 2) →
    (∀ w ∈ lineWords (capAddr p o), eccOf s w ≠ 3) →
    ∃ t m, exec (.cxtWrite p o bs) s = .next t ∧ t.out = s.out ++ m ++ [.memData [] stOK] ∧
      memBytes t (capAddr p o) bs.length = bs ∧ OnlyBytes (capAddr p o) bs.length s t ∧
      rGet t (Reg.CXT_WRITES p) = (rGet s (Reg.CXT_WRITES p) + 1) % 2 ^ 32 ∧
      ∃ u m, exec (.cxtRead p o bs.length) t = .next u ∧ u.out = t.out ++ m ++ [.memData bs stOK] ∧
        rGet u (Reg.CXT_READS p) = (rGet t (Reg.CXT_READS p) + 1) % 2 ^ 32) ∧
  (∀ (p o n : Nat) (s : State), p < 2 → o < capBytes s p → capBytes s p ≤ 2 ^ 39 → (cxtOf s p).linkUp = false →
    exec (.cxtRead p o n) s = .next (emit (.memData [] stUncorrectable) s))

/-- R242, R243, R245, R247, R248: refreshes, self-refresh, scrubs, temperatures, training, the IEEE 1500 port, and the
capacity tier's links. -/
def Obligations.MemoryHousekeeping : Prop :=
  (∀ (h pc bank : Nat) (s : State), ∃ t, exec (.refresh h pc bank) s = .next t ∧ Only [.hmc] s t ∧
    (∀ k, k ≠ h → hmcOf t k = hmcOf s k) ∧ kFind (hmcOf t h).bankRefresh (pc * 1024 + bank) = some s.now ∧
    hmcOf t h = { hmcOf s h with bankRefresh := (hmcOf t h).bankRefresh }) ∧
  (∀ (h pc : Nat) (s : State), rBit s (Reg.HMC_CTRL h) 5 = true → (hmcOf s h).selfRef.contains pc = false →
    kGet 0 (hmcOf s h).lastReq pc + 1600 * rFld s (Reg.HMC_SR_IDLE h) 15 0 ≤ s.now →
    ∃ t, exec (.selfRefreshEntry h pc) s = .next t ∧ hmcOf t h = { hmcOf s h with selfRef := pc :: (hmcOf s h).selfRef } ∧
      rGet t (Reg.HMC_SR_ENTRIES h) = (rGet s (Reg.HMC_SR_ENTRIES h) + 1) % 2 ^ 32 ∧
      OnlyRegs [Reg.HMC_SR_ENTRIES h] s t ∧ Only [.rf, .hmc] s t) ∧
  (∀ (h pc : Nat) (s : State), h < 8 → rBit s (Reg.HMC_CTRL h) 6 = true → (hmcOf s h).selfRef.contains pc = false →
    (hmcOf s h).trained = true → (hmcOf s h).failed = false →
    let k := kGet 0 (hmcOf s h).scrubAt pc
    ∃ t, exec (.hbmScrub h pc) s = .next t ∧ kFind (hmcOf t h).scrubAt pc = some ((k + 1) % pcLines) ∧
      rGet t (Reg.HMC_READS h) = (rGet s (Reg.HMC_READS h) + 1) % 2 ^ 32 ∧ (hmcOf t h).selfRef = (hmcOf s h).selfRef ∧
      t.mem.dev = s.mem.dev) ∧
  (∀ (k deg : Nat) (s : State), k < 4 → ∃ t, exec (.hbmTempRead k deg) s = .next t ∧
    ∀ h, h = 2 * k ∨ h = 2 * k + 1 → (hmcOf t h).temp = min deg 255 ∧ rBit t (Reg.HMC_PAGE h + 0x14) 2 = decide (85 < deg)) ∧
  (∀ (k ident : Nat) (ok : Bool) (s : State), k < 4 → s.dev.mode = .bringup → ∃ t, exec (.hbmTraining k ok ident) s = .next t ∧
    ∀ h, h = 2 * k ∨ h = 2 * k + 1 → (hmcOf t h).trained = ok ∧ (hmcOf t h).failed = !ok ∧
      rGet t (Reg.HMC_IDENT_LO h) = ident % 2 ^ 32 ∧ rGet t (Reg.HMC_IDENT_HI h) = ident / 2 ^ 32 % 2 ^ 32 ∧
      (ok = false → rBit t (Reg.HMC_PAGE h + 0x14) 3 = true ∧ rGet t (Reg.HMC_PAGE h + 0x20) = 2)) ∧
  (∀ (w : Writer) (h : Nat) (v : W32) (s : State), h < 8 →
    (s.dev.mode = .bringup → dead s = false → w.enables = 15 → reaches s w.path w.fn (Reg.HMC_1500_CMD h) = true →
      ∃ t, exec (.ieee1500Command w h v) s = .next t ∧ Recorded w (Reg.HMC_PAGE h) s t ∧
        t.out = s.out ++ [.ieee1500 (h / 2) (v.toNat % 256) (BitVec.ofNat 32 (rGet s (Reg.HMC_1500_DATA h)))]) ∧
    (s.dev.mode = .diagnose → takes s w (Reg.HMC_1500_CMD h) = true →
      ∃ t, exec (.ieee1500Command w h v) s = .next t ∧ Recorded w (Reg.HMC_PAGE h) s t ∧
        t.out = s.out ++ [.ieee1500 (h / 2) (v.toNat % 256) (BitVec.ofNat 32 (rGet s (Reg.HMC_1500_DATA h)))]) ∧
    (s.dev.mode = .service → takes s w (Reg.HMC_1500_CMD h) = true →
      ∃ t, exec (.ieee1500Command w h v) s = .next t ∧ t.out = s.out ∧ ErrorLeft (Reg.HMC_PAGE h) 3 0 s t)) ∧
  (∀ (p : Nat) (s : State), p < 2 → (cxtOf s p).linkUp = true → ∃ t, exec (.cxtLinkDown p) s = .next t ∧
    cxtOf t p = { cxtOf s p with linkUp := false, width := 0, speed := 0 } ∧ rBit t (Reg.CXT_PAGE p + 0x14) 2 = true ∧
    rGet t (Reg.CXT_PAGE p + 0x20) = 3 ∧ rGet t Reg.DEV_CONTAINED = (rGet s Reg.DEV_CONTAINED + 1) % 2 ^ 32) ∧
  (∀ (p width speed : Nat) (s : State), p < 2 →
    (cxtTrains s p width speed = true → ∃ t, exec (.cxtLinkUp p width speed) s = .next t ∧
      cxtOf t p = { cxtOf s p with linkUp := true, width := width, speed := speed, present := true } ∧
      rBit t (Reg.CXT_PAGE p + 0x14) 2 = false ∧ Only [.rf, .cxt] s t) ∧
    (cxtTrains s p width speed = false → exec (.cxtLinkUp p width speed) s = .next s)) ∧
  (∀ (p : Nat) (s : State), p < 2 → rBit s (Reg.CXT_CTRL p) 0 = true → (cxtOf s p).linkUp = true → 65536 ≤ capBytes s p →
    capBytes s p ≤ 2 ^ 39 →
    ∃ t, exec (.cxtScrub p) s = .next t ∧ (cxtOf t p).scrubAt = ((cxtOf s p).scrubAt + 1) % (capBytes s p / 65536) ∧
      rGet t (Reg.CXT_READS p) = (rGet s (Reg.CXT_READS p) + 1024) % 2 ^ 32 ∧ t.mem.dev = s.mem.dev)

/-- R256, R258 to R261: an invalidation drops the entries it names from every TLB and those that wait run in order; requests
are queued or absorbed; a promotion or demotion ends with a swap of the descriptor; the firmware's poll of a trap. -/
def Obligations.TranslationCommands : Prop :=
  (∀ (w : Writer) (v : W32) (s : State), takes s w Reg.XL_INVAL = true →
    let q := (fld v.toNat 24 23, fld v.toNat 10 0, fld v.toNat 22 11)
    let hit := fun (e : TlbEntry) => q.1 = 0 ∨ (e.inst = q.2.1 ∧ (q.1 = 1 ∨ e.slot = q.2.2))
    let ends := fun (o : Host.Outcome State Fault Refusal) => ∃ t, o = .next t ∧ Recorded w Reg.XL_PAGE s t ∧
      t.xl.inval = s.xl.inval ++ [q] ∧ (s.xl.inval ≠ [] → t.xl.tlbs = s.xl.tlbs) ∧
      (s.xl.inval = [] → ∀ n e, (e ∈ tlbOf t n → ¬hit e) ∧ (e ∈ tlbOf s n → ¬hit e → e ∈ tlbOf t n)) ∧ Only [.rf, .xl] s t
    (q.1 = 0 → ends (exec (.invalidateAll w v) s)) ∧ (q.1 = 1 → ends (exec (.invalidateInstance w v) s)) ∧
    (q.1 = 2 → ends (exec (.invalidateSlot w v) s))) ∧
  (∀ (q r : Nat × Nat × Nat) (l : List (Nat × Nat × Nat)) (s : State),
    (s.xl.inval.head? = some q → invalOwed s q = true → exec .invalidationDone s = .next s) ∧
    (s.xl.inval = [q] → invalOwed s q = false → exec .invalidationDone s = .next { s with xl := { s.xl with inval := [] } }) ∧
    (s.xl.inval = q :: r :: l → invalOwed s q = false → ∃ t, exec .invalidationDone s = .next t ∧ t.xl.inval = r :: l ∧ Only [.xl] s t ∧
      ∀ n e, e ∈ tlbOf t n → ¬(r.1 = 0 ∨ (e.inst = r.2.1 ∧ (r.1 = 1 ∨ e.slot = r.2.2))))) ∧
  (∀ (w : Writer) (v : W32) (s : State), takes s w Reg.XL_PROMO_REQ = true →
    let i := fld v.toNat 10 0
    let slot := fld v.toNat 22 11
    let known := (∃ r ∈ s.xl.queue, r.inst = i ∧ r.slot = slot) ∨ ∃ r ∈ s.xl.active, r.req.inst = i ∧ r.req.slot = slot
    let ends := fun (o : Host.Outcome State Fault Refusal) (up : Bool) => ∃ t, o = .next t ∧ Recorded w Reg.XL_PAGE s t ∧
      (¬known → s.xl.queue.length < 64 → t.xl = { s.xl with queue := s.xl.queue ++ [⟨i, slot, up⟩] } ∧
        OnlyRegs (writeWords Reg.XL_PAGE) s t) ∧
      (known ∨ 64 ≤ s.xl.queue.length → t.xl = s.xl ∧
        rGet t Reg.XL_PROMO_IGNORED = (rGet s Reg.XL_PROMO_IGNORED + 1) % 2 ^ 32) ∧ Only [.rf, .xl] s t
    (fld v.toNat 24 23 = 1 → ends (exec (.promote w v) s) true) ∧ (fld v.toNat 24 23 = 2 → ends (exec (.demote w v) s) false)) ∧
  (∀ (q : PromoReq) (l : List PromoReq) (bs : List Byte) (s s1 : State), working s = true → s.xl.queue = q :: l →
    s.xl.active.length < 8 →
    let a := walkAddr s q.inst q.slot
    meshRead promoInit a 32 { s with xl := { s.xl with queue := l } } = (s1, stOK, bs) →
    let d := descOf bs
    let w0 := numAt bs 0 4
    (q.promote = true → d.v = false → d.p = true → d.pf = false →
      ∀ c, (List.range (poolChunks s1 d.pool)).find? (fun c => !(poolTaken s1 d.pool).contains c) = some c →
        1 ≤ d.len → d.len * 65536 ≤ poolChunk s1 d.pool → inCap s1 (d.home * 65536) (d.len * 65536) = true →
        cuffCovers s1 q.inst (d.home * 65536) (d.len * 65536) = true →
        ∃ t, exec .promotionStart s = .next t ∧ t.xl.active = s1.xl.active ++ [⟨q, a, w0, d.pool, c, d.home, d.len⟩] ∧
          poolTaken t d.pool = c :: poolTaken s1 d.pool ∧ t.xl.queue = s1.xl.queue ∧ t.mem = s1.mem) ∧
    (∀ s2, q.promote = false → d.v = true → d.p = false → poolBase s1 d.pool ≤ d.base * 65536 →
      let off := d.base * 65536 - poolBase s1 d.pool
      let c := off / poolChunk s1 d.pool
      let w1 := setFld (setFld w0 0 0 0) 9 9 1
      off % poolChunk s1 d.pool = 0 → c < poolChunks s1 d.pool → swapWord0 a w0 w1 s1 = (s2, true) →
      ∃ t, exec .promotionStart s = .next t ∧ t.xl.active = s2.xl.active ++ [⟨q, a, w1, d.pool, c, d.home, d.len⟩] ∧
        t.mem = s2.mem ∧ ∀ n e, e ∈ tlbOf t n → ¬(e.inst = q.inst ∧ e.slot = q.slot)) ∧
    ((q.promote = true ∧ (d.v = true ∨ d.p = false ∨ d.pf = true)) ∨ (q.promote = false ∧ (d.v = false ∨ d.p = true)) →
      exec .promotionStart s = .next s1)) ∧
  (∀ (k : Nat) (r : PromoRun) (s s1 s2 s3 : State), s.xl.active[k]? = some r →
    let s0 := { s with xl := { s.xl with active := s.xl.active.eraseIdx k } }
    let chunk := poolBase s0 r.pool + r.chunk * poolChunk s0 r.pool
    (r.req.promote = true → physCopy (r.home * 65536) chunk (r.len * 65536) s0 = (s1, stOK) →
      ofBytes (memBytes s1 r.daddr 4) = r.word0 →
      meshWrite promoInit (r.daddr + 0x10) (toBytes 4 (chunk / 65536)) s1 = (s2, stOK) →
      swapWord0 r.daddr r.word0 (setFld (setFld r.word0 0 0 1) 9 9 0) s2 = (s3, true) →
      exec (.promotionCopyDone k) s = .next (bump Reg.XL_PROMOTIONS 1 s3)) ∧
    (r.req.promote = false →
      s1 = (if bit r.word0 8 then (physCopy chunk (r.home * 65536) (r.len * 65536) s0).1 else s0) →
      exec (.promotionCopyDone k) s = .next (bump Reg.XL_DEMOTIONS 1
        (swapWord0 r.daddr r.word0 (setFld r.word0 8 7 0) (freeChunk r.pool r.chunk s1)).1))) ∧
  (∀ (p n : Nat) (bs : List Byte) (s s1 : State), working s = true → (pktOf s p).task = some n → (pktOf s p).halted = false →
    (pktOf s p).priv = true → (pktOf s p).ppriv = false → (pktOf s p).cause = causeXlate →
    let i := (taskOf s n).inst
    let slot := (pktOf s p).taddr / 2 ^ 36
    let d := descOf bs
    (4096 ≤ slot → exec (.promotePoll p) s = .next (endTask p n stXlate 0 0 s)) ∧
    (slot < 4096 → meshRead (pktInit s p) (walkAddr s i slot) 32 s = (s1, stOK, bs) →
      ((pktOf s p).asked = true →
        (d.v = true → exec (.promotePoll p) s = .next (promoReturn p slot i s1)) ∧
        (d.v = false → d.pf = true → exec (.promotePoll p) s = .next (endTask p n stXlate 0 0 s1)) ∧
        (d.v = false → d.pf = false → exec (.promotePoll p) s = .next s1)) ∧
      ((pktOf s p).asked = false →
        (descValid s1 i d = true → exec (.promotePoll p) s = .next (promoReturn p slot i s1)) ∧
        (descValid s1 i d = false → d.v = false → d.p = true → d.pf = false → exec (.promotePoll p) s
          = .next (setPkt p { pktOf s1 p with asked := true } (promoPush ⟨i, slot, true⟩ s1))) ∧
        (descValid s1 i d = false → (d.v = true ∨ d.p = false ∨ d.pf = true) →
          exec (.promotePoll p) s = .next (endTask p n stXlate 0 0 s1))))) ∧
  (∀ (w : Writer) (v : W32) (s : State), takes s w Reg.XL_RT_SEL = true →
    let i := fld v.toNat 10 0
    ∃ t, exec (.xlRtSelWrite w v) s = .next t ∧ Recorded w Reg.XL_PAGE s t ∧ Only [.rf] s t ∧
      (stagePending s Reg.XL_PAGE = false → rGet t Reg.XL_RT_SEL = i ∧ rGet t Reg.XL_RT_BASE_LO = kGet 0 s.xl.rtBase i % 2 ^ 32 ∧
        rGet t Reg.XL_RT_BASE_HI = kGet 0 s.xl.rtBase i / 2 ^ 32 % 2 ^ 32) ∧
      (stagePending s Reg.XL_PAGE = true → rGet t Reg.XL_RT_SEL = rGet s Reg.XL_RT_SEL ∧ ErrorLeft Reg.XL_PAGE 1 0 s t))

/-- R11: with no exception entry in its router a packet goes along its row to the destination column, then along that column
to the destination row, one stop to its neighbour a hop. -/
def Obligations.PacketsGoAlongTheRowFirst : Prop :=
  ∀ (s : State) (st : Nat) (p : Packet), st < 48 → p.dest < 48 → st ≠ p.dest → exceptionOut s st p = none →
    ∃ n, neighbour st (routeOut s st p) = some n ∧ n < 48 ∧
      (st % 8 ≠ p.dest % 8 → n / 8 = st / 8 ∧ (st % 8 < p.dest % 8 → n % 8 = st % 8 + 1) ∧ (p.dest % 8 < st % 8 → n % 8 + 1 = st % 8)) ∧
      (st % 8 = p.dest % 8 → n % 8 = st % 8 ∧ (st / 8 < p.dest / 8 → n / 8 = st / 8 + 1) ∧ (p.dest / 8 < st / 8 → n / 8 + 1 = st / 8)) ∧
      hops n p.dest + 1 = hops st p.dest

/-- R263 to R267, R269 to R272: an injected packet takes its first hop at once; a packet is served where it is delivered,
and one that is poisoned, or that a router's buffer has damaged, fails with DATA_PARITY; a link's third failed replay
retrains it and three more take it down; a domain goes off once no response is owed and its router delivers again with its
memories. -/
def Obligations.MeshHopsLinksAndDomains : Prop :=
  (∀ (st n : Nat) (p : Packet) (s : State), dead s = false → st < 48 → p.dest < 48 → st ≠ p.dest → p.payload.length ≤ 256 →
    p.len ≤ 256 → p.sub < 64 → p.type < 12 → p.type ≠ 6 → p.type ≠ 7 → queueOf s st = [] →
    let q := onWire { p with src := st, epoch := s.noc.epoch }
    exceptionOut s st q = none → neighbour st (defaultOut st p.dest) = some n →
    let l := linkOf s (linkKey st (defaultOut st p.dest) (if 8 ≤ p.type then 1 else 0))
    l.down = false → l.retraining = false →
    ∃ t f, exec (.meshHop st (some p)) s = .next t ∧ queueOf t st = [] ∧ queueOf t n = queueOf s n ++ [f] ∧ f.pkt = q ∧
      f.born = s.now ∧ t.noc.owed = s.noc.owed ++ (if nonPosted p.type then [(st, p.sub, q.txn, s.now)] else []) ∧
      t.mem = s.mem ∧ Only [.rf, .noc] s t) ∧
  (∀ (st : Nat) (f : Flight) (s : State), dead s = false →
    firstBy (servedFirst s st) ((queueOf s st).filter fun f => mayLeave s st f.pkt) = some f → st = f.pkt.dest → f.pkt.type < 12 → f.pkt.type ≠ 6 → f.pkt.type ≠ 7 →
    ∃ s1, Only [.noc] s s1 ∧ (queueOf s1 st).map (·.pkt) = (dropFlight f (queueOf s st)).map (·.pkt) ∧ s1.noc.owed = s.noc.owed ∧ s1.noc.dom = s.noc.dom ∧
      (8 ≤ f.pkt.type → exec (.meshHop st none) s = .next (deliverResponse (readOut f) s1)) ∧
      ((∀ n, panelAt st = some n → delivers s n = true) → (readOut f).poison = false →
        (f.pkt.type = 0 ∨ f.pkt.type = 1 → elsewhere s1 st f.pkt.addr = true →
          exec (.meshHop st none) s = .next (respond st (readOut f) stUncorrectable [] s1)) ∧
        (f.pkt.type = 0 → elsewhere s1 st f.pkt.addr = false → ∀ s2 bs, physRead f.pkt.addr f.pkt.len s1 = (s2, stOK, bs) →
          exec (.meshHop st none) s = .next (respond st (readOut f) stOK bs s2)) ∧
        (f.pkt.type = 1 → elsewhere s1 st f.pkt.addr = false → ∀ s2 e, physWrite f.pkt.addr f.pkt.payload s1 = (s2, e) →
          exec (.meshHop st none) s = .next (respond st (readOut f) e [] s2)) ∧
        (f.pkt.type = 2 → elsewhere s1 st f.pkt.addr = false →
          exec (.meshHop st none) s = .next (physWrite f.pkt.addr f.pkt.payload s1).1) ∧
        (f.pkt.type = 4 → exec (.meshHop st none) s
          = .next (respond st (readOut f) (if takesMessages st then stOK else stDescInvalid) [] s1))) ∧
      ((∀ n, panelAt st = some n → delivers s n = true) → f.pkt.poison = true ∨ f.bad = true → f.pkt.type < 8 →
        exec (.meshHop st none) s = .next (if nonPosted f.pkt.type then respond st (readOut f) stParity [] (countPoison s1) else countPoison s1)) ∧
      (∀ n, panelAt st = some n → delivers s n = false → (readOut f).poison = false → f.pkt.type < 8 →
        (nonPosted f.pkt.type = true → exec (.meshHop st none) s
          = .next (respond st (readOut f) stDomain [] (bump (Reg.NOC_ABSORBED st) 1 s1))) ∧
        (nonPosted f.pkt.type = false → exec (.meshHop st none) s = .next (bump (Reg.NOC_DROPPED st) 1 s1)))) ∧
  (∀ (st : Nat) (dir : Dir) (plane : Plane) (s : State), dead s = false → st < 48 →
    (neighbour st (dirNum dir)).isSome = true →
    let k := linkKey st (dirNum dir) (planeNum plane)
    let l := linkOf s k
    l.down = false → l.retraining = false →
    (∃ t, exec (.linkParityError st dir plane true) s = .next t ∧ linkOf t k = { l with fails := 0 } ∧
      rGet t Reg.DEV_CE = (rGet s Reg.DEV_CE + 1) % 2 ^ 32) ∧
    (l.fails < 2 → exec (.linkParityError st dir plane false) s = .next (setLink k { l with fails := l.fails + 1 } s)) ∧
    (2 ≤ l.fails → l.deg = false → ∃ t, exec (.linkParityError st dir plane false) s = .next t ∧
      linkOf t k = { l with deg := true, retraining := true, fails := 0 } ∧ rGet t (Reg.NOC_PAGE + 0x20) = 2 ∧
      rBit t (Reg.NOC_PAGE + 0x14) 0 = true ∧ rGet t Reg.DEV_CONTAINED = (rGet s Reg.DEV_CONTAINED + 1) % 2 ^ 32) ∧
    (2 ≤ l.fails → l.deg = true → s.dev.fatal = 0 → ∃ t, exec (.linkParityError st dir plane false) s = .next t ∧
      linkOf t k = { l with down := true, fails := 0 } ∧ rGet t (Reg.NOC_PAGE + 0x20) = 3 ∧ t.dev.fatal = 1 ∧
      t.seam.running = false)) ∧
  (∀ (st : Nat) (dir : Dir) (plane : Plane) (s : State),
    let k := linkKey st (dirNum dir) (planeNum plane)
    (linkOf s k).retraining = true →
    exec (.linkRetrainDone st dir plane) s = .next (setLink k { linkOf s k with retraining := false } s)) ∧
  (∀ (n : Nat) (s : State),
    (owedTo s (panelStop n) = 0 → domOf s n = .absorb → ∃ t, exec (.domainOff n) s = .next t ∧ domOf t n = .off ∧
      Only [.noc] s t) ∧
    (owedTo s (panelStop n) = 0 → domOf s n = .absorbWake → s.dev.mode ≠ .retain → ∃ t, exec (.domainOff n) s = .next t ∧
      domOf t n = .waking ∧ panelMem t n = .waking ∧ Only [.noc, .pwr] s t) ∧
    (owedTo s (panelStop n) ≠ 0 → exec (.domainOff n) s = .next s) ∧
    (n < 32 → panelMem s n = .waking → ∃ t, exec (.panelMemoryOn n) s = .next t ∧ panelMem t n = .on ∧
      domOf t n = (if fenceWanted s n then .fenced else .online) ∧
      rGet t (Reg.PNL_WAKES n) = (rGet s (Reg.PNL_WAKES n) + 1) % 2 ^ 32 ∧
      (kGet .off s.pwr.wakeFrom n = .retention → t.mem = s.mem ∧ t.sched = s.sched) ∧
      (kGet .off s.pwr.wakeFrom n = .off → ∀ k, k / 2048 = n → taskOf t k = taskOf State.reset k)))

/-- R276 to R285: GO and the polls start a descriptor on an idle channel, bursts of at most 256 bytes are read and their
beats written, a bad descriptor ends with DESC_INVALID and no data written, and EN makes a channel idle or drops its work.
-/
def Obligations.BulkMoverChannels : Prop :=
  (∀ (w : Writer) (c : Nat) (v : W32) (s : State), c < 64 → takes s w (Reg.BM_CH_CMD c) = true → bit v.toNat 0 = true →
    (mayStart s c = true → rBit s (Reg.BM_CH_CTRL c) 1 = false → stagePending s (Reg.BM_CH_PAGE c) = false →
      exec (.bmGo w c v) s = .next (startDesc c (regDesc s c) none (recordWrite w (Reg.BM_CH_PAGE c) s))) ∧
    ((chanOf s c).state ≠ .idle → ∃ t, exec (.bmGo w c v) s = .next t ∧ t.bm = s.bm ∧ Recorded w (Reg.BM_CH_PAGE c) s t ∧
      ErrorLeft (Reg.BM_CH_PAGE c) 2 0 s t)) ∧
  (∀ (c : Nat) (h : QueueHdr) (bs : List Byte) (s s1 s2 : State), mayStart s c = true → rBit s (Reg.BM_CH_CTRL c) 1 = true →
    (rFld s (Reg.BM_CH_POLL c) 15 0 ≠ 0 ∨ (chanOf s c).again = true) →
    let host := rBit s (Reg.BM_CH_CTRL c) 2
    readHeader c host (rGet s (Reg.BM_CH_QADDR_LO c) + 2 ^ 32 * rGet s (Reg.BM_CH_QADDR_HI c))
      (setChan c { chanOf s c with again := false } s) = (s1, stOK, some h) →
    (h.wr < h.rd + 64 → exec (.bmPoll c) s = .next s1) ∧
    (h.rd + 64 ≤ h.wr → bmRead c host (h.data + h.rd % 2 ^ h.log) 64 s1 = (s2, stOK, bs) → exec (.bmPoll c) s
      = .next (startDesc c bs (some (h.data + h.rd % 2 ^ h.log)) (setChan c { chanOf s2 c with qRd := h.rd } s2)))) ∧
  (∀ (c : Nat) (bs : List Byte) (s : State), c < 64 → descBad (bmDescOf bs) = true →
    let t := startDesc c bs none s
    (chanOf t c).state = .idle ∧ (chanOf t c).desc = none ∧ (chanOf t c).lastStatus = stDescInvalid ∧
    rGet t (Reg.BM_CH_PAGE c + 0x20) = 1 ∧ rGet t (Reg.BM_CH_DESCS c) = (rGet s (Reg.BM_CH_DESCS c) + 1) % 2 ^ 32 ∧
    t.mem = s.mem ∧ Only [.rf, .bm, .out] s t) ∧
  (∀ (c : Nat) (d : BmDesc) (s : State), clocked s = true → (chanOf s c).state = .run → (chanOf s c).desc = some d →
    (chanOf s c).stopped = false → inFlight (chanOf s c) < 64 → s.bm.chans.foldl (fun n p => n + inFlight p.2) 0 < 1024 →
    d.squeue = false → d.dqueue = false → (chanOf s c).taken < d.len → (chanOf s c).endAt = none →
    rFld s (Reg.BM_CH_RATE c) 15 0 = 0 → d.swap = 0 →
    let x := chanOf s c
    let n := min 256 (d.len - x.taken)
    exec (.burstIssue c) s = .next (setChan c { x with
      bursts := x.bursts ++ [⟨x.taken, n⟩], taken := x.taken + n } s)) ∧
  (∀ (c : Nat) (d : BmDesc) (b : Burst) (l : List Burst) (bs : List Byte) (s s1 : State), halted s = false →
    (chanOf s c).desc = some d → (chanOf s c).bursts = b :: l → d.squeue = false → d.dqueue = false → d.swap = 0 → d.clen = 0 →
    d.len ≠ 0 → rateTakes s c b = true → bmRead c d.shost (d.src + b.pos) b.len s = (s1, stOK, bs) → chanOf s1 c = chanOf s c →
    let x := chanOf s c
    ∃ t, exec (.burstReadResponse c) s = .next t ∧ (chanOf t c).bursts = l ∧ (chanOf t c).remain = x.remain - b.len ∧
      (chanOf t c).beats = x.beats ++ beatsOf b.pos [(d.dst + b.pos, b.len)] bs ∧ t.mem = s1.mem ∧
      (chanOf t c).frameBytes = x.frameBytes + b.len ∧ rGet t Reg.BM_READ = (rGet s1 Reg.BM_READ + ceilDiv b.len 64) % 2 ^ 32) ∧
  (∀ (c k st : Nat) (d : BmDesc) (b : Beat) (s s1 : State), halted s = false → (chanOf s c).desc = some d →
    (chanOf s c).beats[k]? = some b →
    bmWrite c d.dhost b.addr b.data (setChan c { chanOf s c with beats := (chanOf s c).beats.eraseIdx k } s) = (s1, st) →
    exec (.beatResponse c k) s = .next (settleDesc c
      (if st = stOK then beatOk c d b s1 else writeError c d.dhost b.addr b.data.length st s1))) ∧
  (∀ (w : Writer) (c : Nat) (v : W32) (s : State), c < 64 → takes s w (Reg.BM_CH_CTRL c) = true →
    ((chanOf s c).state = .disabled → ∃ t, exec (.bmChEnable w c v) s = .next t ∧ Recorded w (Reg.BM_CH_PAGE c) s t ∧
      chanOf t c = { chanOf s c with state := .idle } ∧ rBit t (Reg.BM_CH_CTRL c) 0 = true ∧ Only [.rf, .bm] s t) ∧
    ((chanOf s c).state ≠ .disabled → (chanOf s c).state ≠ .sinking → ∃ t, exec (.bmChDisable w c v) s = .next t ∧
      Recorded w (Reg.BM_CH_PAGE c) s t ∧ (chanOf t c).state = .sinking ∧ rBit t (Reg.BM_CH_CTRL c) 0 = false ∧
      (chanOf t c).desc = none ∧ (chanOf t c).bursts = [] ∧ (chanOf t c).beats = [] ∧
      (chanOf t c).sink = (chanOf s c).bursts.length + (chanOf s c).beats.length)) ∧
  (∀ (c : Nat) (s : State), (chanOf s c).state = .sinking →
    ((chanOf s c).reEn = false →
      exec (.channelSunk c) s = .next (setChan c { chanOf s c with state := .disabled, sink := 0 } s)) ∧
    ((chanOf s c).reEn = true → exec (.channelSunk c) s
      = .next (setChan c { chanOf s c with state := .idle, sink := 0, reEn := false } (rSetFld (Reg.BM_CH_CTRL c) 0 0 1 s))))

/-- R291, Table 13.2: an APPEND writes one record at its stream's tail, a header, the payload and zeros, and the tail
advances by the record's size; a LEN outside 1 to 32,704 is no APPEND that runs. -/
def Obligations.AppendWritesOneRecord : Prop :=
  (∀ (c : LdgCmd) (x : LogStream) (v : Volume) (s : State), s.ldg.cmds = [c] → c.phase = .media → c.op = 1 → c.inMedia = [0] →
    c.home = [] → streamOf s c.stream = some x → volOf s x.vol = some v → c.data.length = c.len → 1 ≤ c.len → c.len ≤ 32704 →
    c.hashed.length = 32 ∨ c.chain = false → x.seq < 2 ^ 48 → c.seam < 2 ^ 64 → c.rtag < 2 ^ 64 →
    let at_ := v.base * 2 ^ 20 + x.tail
    let size := 64 + ceilDiv c.len 64 * 64
    ∃ t, exec (.ledgerCommit c.inst 0) s = .next t ∧
      let byte := fun k => kGet 0 t.mem.ledger (at_ + k)
      let num := fun k n => ofBytes ((List.range n).map fun i => byte (k + i))
      size ≤ 32768 ∧ num 0 2 = 0x4C52 ∧ num 2 2 = b2n c.chain ∧ num 8 6 = x.seq ∧ num 0x0E 2 = c.len ∧ num 0x10 8 = c.seam ∧
      num 0x18 8 = c.rtag ∧
      num 4 4 = crc32c ((List.range 32).map fun k => if 4 ≤ k ∧ k < 8 then 0 else byte k) % 2 ^ 32 ∧
      (∀ k, k < 32 → byte (0x20 + k) = if c.chain then c.hashed.getD k 0 else 0) ∧
      (∀ k, k < c.len → byte (64 + k) = c.data.getD k 0) ∧ (∀ k, 64 + c.len ≤ k → k < size → byte k = 0) ∧
      (∀ a, ¬(at_ ≤ a ∧ a < at_ + size) → kGet 0 t.mem.ledger a = kGet 0 s.mem.ledger a) ∧
      streamOf t c.stream = some { x with tail := x.tail + size, seq := x.seq + 1, chain := if c.chain then c.hashed else x.chain } ∧
      (∀ n, n ≠ c.stream → streamOf t n = streamOf s n) ∧ t.ldg.vols = s.ldg.vols ∧ t.ldg.cmds = [] ∧
      (s.ldg.compl = [] → s.ldg.stopped = false → c.imm = false → rBit s Reg.LDG_CTRL 0 = true → ∃ k, t.ldg.compl = [k] ∧ k.group = true ∧
        k.status = stOK ∧ k.tag = c.tag ∧ k.inst = c.inst ∧ k.a = x.seq ∧ k.b = x.tail ∧ k.seam = s.seam.num)) ∧
  (∀ (c : LdgCmd) (s : State), c.op = 1 → c.len = 0 ∨ 32704 < c.len → cmdCheck c s = stDescInvalid)

/-- R294, R295, R300: a GO of each Ledger command is accepted, answered BUSY or dropped, and INST_LDG_STATE and the counters
say which; a command whose tag is in use is accepted and never queued. R306, R310: the earliest completion that is not held
is written into the ring's next released entry as 32 bytes; a head doorbell releases entries, and setting EN starts the ring
again at lap 0 with every entry and tag released. -/
def Obligations.LedgerGoAndItsRing : Prop :=
  (∀ (cmd : Instr) (w : Writer) (i : Nat) (s : State), i < numInst → takes s w (Reg.INST_LDG_GO i) = true →
    ((cmd = .ledgerAppend w i ∧ fld (ldgWord s i 0) 3 0 = 1) ∨ (cmd = .ledgerWrite w i ∧ fld (ldgWord s i 0) 3 0 = 2) ∨
     (cmd = .ledgerRead w i ∧ fld (ldgWord s i 0) 3 0 = 3) ∨ (cmd = .ledgerFlush w i ∧ fld (ldgWord s i 0) 3 0 = 4) ∨
     (cmd = .streamSeal w i ∧ fld (ldgWord s i 0) 3 0 = 5 ∧ bit (ldgWord s i 0) 8 = false) ∨
     (cmd = .volumeSeal w i ∧ fld (ldgWord s i 0) 3 0 = 5 ∧ bit (ldgWord s i 0) 8 = true)) →
    let open_ := hasFunction s i = true ∧ s.ldg.stopped = false ∧ halted s = false
    let full := 256 ≤ ldgQueued s i ∨ 16384 ≤ s.ldg.cmds.length + s.ldg.compl.length
    ∃ t, exec cmd s = .next t ∧ Recorded w (Reg.INST_LDG_PAGE i) s t ∧
      (open_ → s.dev.mode = .service → ¬full → ldgTagUsed s i (fld (ldgWord s i 0) 31 16) = false →
        t.ldg = { s.ldg with cmds := s.ldg.cmds ++ [ldgCmdOf s i], nextId := s.ldg.nextId + 1,
                             state := kSet s.ldg.state i (1, true) } ∧
        OnlyRegs (writeWords (Reg.INST_LDG_PAGE i)) s t ∧ Only [.rf, .ldg] s t) ∧
      (open_ → s.dev.mode = .service → ¬full → ldgTagUsed s i (fld (ldgWord s i 0) 31 16) = true →
        t.ldg.cmds = s.ldg.cmds ∧ t.ldg.state = kSet s.ldg.state i (1, true) ∧ Only [.rf, .mem, .ldg, .out] s t) ∧
      (open_ → s.dev.mode = .service → full →
        t.ldg = { s.ldg with state := kSet s.ldg.state i (2, false) } ∧ ErrorLeft (Reg.INST_LDG_PAGE i) 2 0 s t ∧
        rGet t (Reg.INST_LDG_BUSY i) = (rGet s (Reg.INST_LDG_BUSY i) + 1) % 2 ^ 32 ∧ Only [.rf, .ldg, .out] s t) ∧
      (open_ → s.dev.mode = .drain →
        t.ldg = { s.ldg with state := kSet s.ldg.state i (2, false) } ∧
        rGet t (Reg.INST_LDG_BUSY i) = (rGet s (Reg.INST_LDG_BUSY i) + 1) % 2 ^ 32 ∧ Only [.rf, .ldg, .out] s t) ∧
      (¬open_ ∨ s.dev.mode = .retain ∨ s.dev.mode = .diagnose →
        t.ldg = { s.ldg with state := kSet s.ldg.state i (3, false) } ∧
        ErrorLeft (Reg.INST_LDG_PAGE i) (if hasFunction s i then 1 else 5) 0 s t ∧
        rGet t (Reg.INST_LDG_DROP i) = (rGet s (Reg.INST_LDG_DROP i) + 1) % 2 ^ 32 ∧ Only [.rf, .ldg, .out] s t)) ∧
  ((∀ (i : Nat) (c : LdgCompl) (s : State), halted s = false → nextLdgCompl s i = some c → i < numInst → hasFunction s i = true →
    let x := lcqOf s i
    let bs := ldgBytes x.phase c
    let a := rGet s (Reg.INST_LDG_CQ_BASE_LO i) + 2 ^ 32 * rGet s (Reg.INST_LDG_CQ_BASE_HI i) + 32 * x.tail
    let wrap := x.tail + 1 = 2 ^ rFld s (Reg.INST_LDG_CQ_SIZE i) 4 0
    ∃ t, exec (.ledgerCompletionWrite i) s = .next t ∧ bs.length = 32 ∧
      (a + 32 ≤ 2 ^ 64 → hostBytes t a 32 = bs ∧ ∀ b, ¬(a ≤ b ∧ b < a + 32) → hostBytes t b 1 = hostBytes s b 1) ∧
      lcqOf t i = { tail := if wrap then 0 else x.tail + 1, phase := if wrap then !x.phase else x.phase, free := x.free - 1,
                    tags := x.tags ++ [if c.usesTag then c.tag else 0x10000] } ∧
      t.ldg.compl = s.ldg.compl.filter (fun d => d.id ≠ c.id) ∧ t.ldg.cmds = s.ldg.cmds ∧
      (∀ j, j ≠ i → lcqOf t j = lcqOf s j) ∧ Only [.rf, .mem, .ldg, .out] s t) ∧
  (∀ (w : Writer) (i : Nat) (v : W32) (s : State), i < numInst → takes s w (Reg.INST_LDG_CQ_HEAD i) = true →
    let head := fld v.toNat 15 0
    let n := 2 ^ rFld s (Reg.INST_LDG_CQ_SIZE i) 4 0
    let x := lcqOf s i
    ∃ t, exec (.ledgerCqHead w i v) s = .next t ∧ Recorded w (Reg.INST_LDG_PAGE i) s t ∧ Only [.rf, .ldg] s t ∧
      (n ≤ head → t.ldg = s.ldg ∧ ErrorLeft (Reg.INST_LDG_PAGE i) 4 0 s t) ∧
      (head < n → rGet t (Reg.INST_LDG_CQ_HEAD i) = v.toNat % 2 ^ 17 ∧ (lcqOf t i).tail = x.tail ∧ (lcqOf t i).phase = x.phase ∧
        (lcqOf t i).free = (if head ≠ x.tail then n - (x.tail + n - head) % n else if bit v.toNat 16 = x.phase then n else 0) ∧
        (lcqOf t i).tags = x.tags.drop (x.tags.length - (n - (lcqOf t i).free)) ∧ t.ldg.cmds = s.ldg.cmds)) ∧
  (∀ (w : Writer) (i : Nat) (v : W32) (s : State), i < numInst → takes s w (Reg.INST_LDG_CQ_CTRL i) = true →
    ∃ t, exec (.ledgerCqEnable w i v) s = .next t ∧ Recorded w (Reg.INST_LDG_PAGE i) s t ∧ Only [.rf, .ldg] s t ∧
      rGet t (Reg.INST_LDG_CQ_CTRL i) = v.toNat % 4 ∧ t.ldg.cmds = s.ldg.cmds ∧ t.ldg.compl = s.ldg.compl ∧
      (bit v.toNat 0 = true → lcqEn s i = false → rGet t (Reg.INST_LDG_CQ_HEAD i) = 0x10000 ∧
        lcqOf t i = { tail := 0, phase := true, free := 2 ^ rFld s (Reg.INST_LDG_CQ_SIZE i) 4 0, tags := [] }) ∧
      (bit v.toNat 0 = false ∨ lcqEn s i = true → t.ldg = s.ldg ∧
        rGet t (Reg.INST_LDG_CQ_HEAD i) = rGet s (Reg.INST_LDG_CQ_HEAD i))))

/-- R291, R296 to R300, R303, R304: a Ledger command that passes its checks starts, an APPEND's data is staged and enters
the media, and each command's commit has its effect: the record at the stream's tail, the bytes written, the seal, the data
read or the flush. -/
def Obligations.LedgerCommandsRunAndCommit : Prop :=
  (∀ (c : LdgCmd) (s : State), working s = true → s.ldg.cmds = [c] →
    (c.phase = .queued → cmdCheck c s = stOK → ∃ t, exec (.ledgerCommandStart c.inst) s = .next t ∧
      t.ldg = { s.ldg with cmds := [{ c with phase := .started, frags := (cmdFrags c s).2 }] } ∧ Only [.rf, .ldg] s t) ∧
    (c.phase = .queued → cmdCheck c s ≠ stOK → ∃ t, exec (.ledgerCommandStart c.inst) s = .next t ∧ t.ldg.cmds = [] ∧
      t.ldg.streams = s.ldg.streams ∧ t.mem.ledger = s.mem.ledger) ∧
    (∀ bs, c.phase = .started → c.op = 1 → c.chain = false → c.inMedia = [] → c.home = [] → readFragData c s = some bs →
      mediaOpen s = true → ∃ t, exec (.ledgerDataRead c.inst 0 true) s = .next t ∧
        t.ldg = { s.ldg with cmds := [{ c with phase := .media, data := bs, inMedia := [0] }] } ∧ Only [.rf, .ldg] s t) ∧
    (c.phase = .started → c.op = 1 ∨ c.op = 2 → ∃ t, exec (.ledgerDataRead c.inst 0 false) s = .next t ∧ t.ldg.cmds = [] ∧
      t.ldg.streams = s.ldg.streams ∧ t.mem.ledger = s.mem.ledger) ∧
    (∀ x, c.phase = .media → c.op = 1 → c.inMedia = [0] → c.home = [] → streamOf s c.stream = some x → ∃ t,
      exec (.ledgerCommit c.inst 0) s = .next t ∧ t.ldg.cmds = [] ∧
        (let bs := recBytes c x.seq
         let a := mediaAt s x.vol x.tail
         ∀ b, kGet 0 t.mem.ledger b = if a ≤ b ∧ b < a + bs.length then bs.getD (b - a) 0 else kGet 0 s.mem.ledger b) ∧
        streamOf t c.stream = some { x with tail := x.tail + recSize c.len, seq := x.seq + 1,
                                            chain := if c.chain then c.hashed else x.chain } ∧ t.ldg.vols = s.ldg.vols) ∧
    (c.phase = .media → c.op = 2 → c.inMedia = [0] → c.home = [] → 0 < c.len → c.len ≤ 32768 → c.data.length = c.len → ∃ t,
      exec (.ledgerCommit c.inst 0) s = .next t ∧ t.ldg.cmds = [] ∧
        (let a := mediaAt s c.vol c.off
         ∀ b, kGet 0 t.mem.ledger b = if a ≤ b ∧ b < a + c.len then c.data.getD (b - a) 0 else kGet 0 s.mem.ledger b) ∧
        t.ldg.streams = s.ldg.streams ∧ t.ldg.vols = s.ldg.vols) ∧
    (∀ x, c.phase = .started → c.op = 5 → mediaOpen s = true → c.vtarget = false → streamOf s c.stream = some x →
      ∃ t, exec (.ledgerCommit c.inst 0) s = .next t ∧ t.ldg.cmds = [] ∧ streamOf t c.stream = some { x with isSealed := true } ∧
        t.ldg.vols = s.ldg.vols ∧ t.mem.ledger = s.mem.ledger) ∧
    (∀ x, c.phase = .started → c.op = 5 → mediaOpen s = true → c.vtarget = true → volOf s c.vol = some x →
      ∃ t, exec (.ledgerCommit c.inst 0) s = .next t ∧ t.ldg.cmds = [] ∧ volOf t c.vol = some { x with isSealed := true } ∧
        t.ldg.streams = s.ldg.streams ∧ t.mem.ledger = s.mem.ledger) ∧
    (c.phase = .started → c.op = 4 → s.ldg.stopped = false → ∃ t, exec (.ledgerCommit c.inst 0) s = .next t ∧ t.ldg.cmds = [] ∧
      (∀ d ∈ t.ldg.compl, d.inst = c.inst → d.id < c.id → d.group = false) ∧ t.mem.ledger = s.mem.ledger) ∧
    (c.phase = .started → c.op = 3 → c.frags = [(c.buf, c.len)] → hasFunction s c.inst = true → lcqEn s c.inst = false →
      c.buf + c.len ≤ 2 ^ 64 → s.mem.ecc = [] → ∃ t, exec (.ledgerCommit c.inst 0) s = .next t ∧ t.ldg.cmds = [] ∧
        (∀ k, k < c.len → hostBytes t (c.buf + k) 1 = [kGet 0 s.mem.ledger (mediaAt s c.vol c.off + k)]) ∧
        (∀ a, ¬(c.buf ≤ a ∧ a < c.buf + c.len) → hostBytes t a 1 = hostBytes s a 1) ∧ t.mem.ledger = s.mem.ledger ∧
        t.ldg.streams = s.ldg.streams ∧ t.ldg.vols = s.ldg.vols))

/-- R288 to R290, R302: the management commands create and free volumes and streams or are refused, MDONE ends one with its
RESULT, a fall of PWRFAIL_N that lasts stops the controller, and the charge of the hold-up store lets waiting writes go on.
-/
def Obligations.VolumesStreamsAndPowerFailure : Prop :=
  (∀ (w : Writer) (s : State), takes s w Reg.LDG_MCMD = true →
    let v := rFld s Reg.LDG_M_VOL 7 0
    let n := rFld s Reg.LDG_M_STREAM 9 0
    let owner := rFld s Reg.LDG_M_OWNER 10 0
    let base := rFld s Reg.LDG_M_BASE 13 0
    let size := rFld s Reg.LDG_M_SIZE 14 0
    let start := rFld s Reg.LDG_M_START 18 0
    let len := rFld s Reg.LDG_M_LEN 18 0
    (∀ cmd, cmd = .volCreate w ∨ cmd = .volFree w ∨ cmd = .streamCreate w ∨ cmd = .streamFree w →
      (s.ldg.mrun.isSome = true → ∃ t, exec cmd s = .next t ∧ ErrorLeft Reg.LDG_PAGE 1 0 s t ∧ Recorded w Reg.LDG_PAGE s t ∧ Only [.rf] s t) ∧
      (s.ldg.mrun = none → stagePending s Reg.LDG_PAGE = true → ∃ t, exec cmd s = .next t ∧ ErrorLeft Reg.LDG_PAGE 2 0 s t ∧
        Recorded w Reg.LDG_PAGE s t ∧ Only [.rf] s t)) ∧
    (s.ldg.mrun = none → stagePending s Reg.LDG_PAGE = false →
      (volOf s v = none → owner ≤ 1024 → 0 < size → base + size ≤ 16384 →
        (∀ p ∈ s.ldg.vols, p.2.base + p.2.size ≤ base ∨ base + size ≤ p.2.base) →
        ownedMib s owner + size ≤ rFld s (Reg.INST_CUFF_LEDGER owner) 14 0 →
        ∃ t, exec (.volCreate w) s = .next t ∧ t.ldg.mrun = some stOK ∧
          volOf t v = some { owner := owner, base := base, size := size } ∧ (∀ u, u ≠ v → volOf t u = volOf s u) ∧
          (mediaOpen s = true → t.ldg.fill = s.ldg.fill ∧
            ∀ a, kGet 0 t.mem.ledger a = if base * 2 ^ 20 ≤ a ∧ a < (base + size) * 2 ^ 20 then 0 else kGet 0 s.mem.ledger a) ∧
          (mediaOpen s = false → t.ldg.fill = some (base, size) ∧ t.mem = s.mem) ∧ t.ldg.streams = s.ldg.streams ∧ Recorded w Reg.LDG_PAGE s t ∧ Only [.rf, .mem, .ldg] s t) ∧
      ((volOf s v).isSome = true → ∃ t, exec (.volCreate w) s = .next t ∧ t.ldg = { s.ldg with mrun := some stDescInvalid } ∧
        Only [.rf, .ldg] s t) ∧
      ((volOf s v).isSome = true → namesVol s v = false → ∃ t, exec (.volFree w) s = .next t ∧ t.ldg.mrun = some stOK ∧
        t.ldg.vols = kDel s.ldg.vols v ∧ t.ldg.streams = s.ldg.streams.filter (fun p => p.2.vol ≠ v) ∧
        Recorded w Reg.LDG_PAGE s t ∧ Only [.rf, .dg, .ldg] s t) ∧
      ((volOf s v).isSome = true → namesVol s v = true → ∃ t, exec (.volFree w) s = .next t ∧
        t.ldg = { s.ldg with mrun := some stBusy } ∧ Only [.rf, .ldg] s t) ∧
      (∀ x, volOf s v = some x → streamOf s n = none → x.isSealed = false → 0 < len → start + len ≤ x.size * 16 →
        (∀ p ∈ s.ldg.streams, p.2.vol = v → p.2.start + p.2.len ≤ start ∨ start + len ≤ p.2.start) →
        rFld s Reg.LDG_M_CTX 8 0 = 0x1FF →
        ∃ t, exec (.streamCreate w) s = .next t ∧ t.ldg.mrun = some stOK ∧
          streamOf t n = some { vol := v, start := start, len := len, tail := start * 65536, seq := 0, chain := streamSeed s, ctx := none } ∧
          (∀ m, m ≠ n → streamOf t m = streamOf s m) ∧ t.ldg.vols = s.ldg.vols ∧ Recorded w Reg.LDG_PAGE s t ∧ Only [.rf, .ldg] s t) ∧
      ((streamOf s n).isSome = true → namesStream s n = false → ∃ t, exec (.streamFree w) s = .next t ∧ t.ldg.mrun = some stOK ∧
        t.ldg.streams = kDel s.ldg.streams n ∧ t.ldg.vols = s.ldg.vols ∧ Recorded w Reg.LDG_PAGE s t ∧ Only [.rf, .dg, .ldg] s t))) ∧
  (∀ (r : Nat) (s : State), s.ldg.mrun = some r → halted s = false → (r = stOK → mediaOpen s = true) → ∃ t,
    exec .mdone s = .next t ∧ t.ldg = { s.ldg with mrun := none, mresult := r, fill := none } ∧
    bit (rGet t (Reg.LDG_PAGE + 0x18)) 0 = true ∧ Only [.rf, .mem, .ldg, .out] s t ∧ (s.ldg.fill = none → t.mem = s.mem) ∧
    ∀ base size a, s.ldg.fill = some (base, size) → kGet 0 t.mem.ledger a =
      if base * 2 ^ 20 ≤ a ∧ a < (base + size) * 2 ^ 20 then 0 else kGet 0 s.mem.ledger a) ∧
  (∀ (ns : Nat) (s : State),
    (ns < 200 → exec (.pwrfailNFall ns) s = .next s) ∧
    (1000 ≤ ns → ∃ t, exec (.pwrfailNFall ns) s = .next t ∧ t.ldg.stopped = true ∧ t.ldg.compl = [] ∧ t.dev.pwrfailN = false ∧
      (∀ c ∈ t.ldg.cmds, c.inMedia = []) ∧
      ((∀ c ∈ s.ldg.cmds, c.inMedia = []) → t.ldg.cmds = s.ldg.cmds ∧ t.mem = s.mem))) ∧
  (∀ s : State, exec .pwrfailNRise s = .next { s with dev := { s.dev with pwrfailN := true } }) ∧
  (∀ (c : LdgCmd) (s : State), halted s = false → s.ldg.stopped = false → s.ldg.cmds = [c] → c.phase = .ready → c.op = 1 →
    c.inMedia = [] → c.home = [] → ∃ t, exec .holdupCharged s = .next t ∧
      t.ldg = { s.ldg with holdup := true, cmds := [{ c with phase := .media, inMedia := [0] }] } ∧
      rBit t (Reg.LDG_PAGE + 0x14) 2 = false ∧ Only [.rf, .ldg] s t)

/-- R312 to R314, R317, R321, Table 14.3: a request is BUSY, refused or accepted; an accepted INIT opens a context or waits,
an UPDATE or FINAL of an OPEN context begins to hash, and a RELEASE frees its context. An INIT that reads a key slot with
bad parity wipes the Lining and is denied (R325). -/
def Obligations.DigestRequests : Prop :=
  ∀ (cmd : Instr) (w : Writer) (op : Nat) (s : State), takes s w Reg.DG_GO = true → fld (reqWord s 0) 2 0 = op →
    ((cmd = .digestInit w ∧ op = 1) ∨ (cmd = .digestUpdate w ∧ op = 2) ∨ (cmd = .digestFinal w ∧ op = 3) ∨
     (cmd = .digestRelease w ∧ op = 4)) →
    let c := fld (reqWord s 0) 19 11
    let x := ctxOf s c
    let alg := fld (reqWord s 0) 10 8
    let owner := fld (reqWord s 0) 30 20
    let slot := fld (reqWord s 1) 8 0
    let last := fun (outcome ctx st : Nat) (y : DgSt) =>
      { y with gos := s.dg.gos + 1, outcome := outcome, lastCtx := ctx, lastStatus := st }
    ∃ t, exec cmd s = .next t ∧ Recorded w Reg.DG_PAGE s t ∧ (s.ln.bad = [] → Only [.rf, .dg, .out] s t) ∧
      (pageEn s Reg.DG_PAGE = false → t.dg = last 2 c 0 s.dg ∧ ErrorLeft Reg.DG_PAGE 1 0 s t) ∧
      (pageEn s Reg.DG_PAGE = true →
        (∀ other, reqRefused s = some other → t.dg = last 3 c stDescInvalid s.dg ∧
          (other = true → ErrorLeft Reg.DG_PAGE 2 0 s t) ∧ (other = false → OnlyRegs (writeWords Reg.DG_PAGE) s t)) ∧
        (reqRefused s = none →
          (256 ≤ dgHeld s → t.dg = last 2 c 0 s.dg ∧ ErrorLeft Reg.DG_PAGE 1 0 s t) ∧
          (dgHeld s < 256 →
            (∀ n, op = 1 → initCtx s c owner = some n → nextWait s = none →
              (algHmac alg = false → ctxOf t n = { state := .opened, requester := 1, bound := (ctxOf s n).bound, alg := alg,
                                                   owner := owner, words := algInit alg, status := stOK } ∧
                t.dg.waiting = s.dg.waiting ∧ t.dg.outcome = 1 ∧ t.dg.lastCtx = n ∧ ∀ d, d ≠ n → ctxOf t d = ctxOf s d) ∧
              (algHmac alg = true → liningBad s (slotWords slot) = false → keyGood s slot owner = true → (ctxOf t n).state = .opened ∧ (ctxOf t n).alg = alg ∧
                (ctxOf t n).owner = owner ∧ (ctxOf t n).requester = 1 ∧ (ctxOf t n).status = stOK ∧
                (ctxOf t n).key = (keyOf s slot).key.take (fld (keyOf s slot).attr 25 19) ∧
                (ctxOf t n).words = algCompress alg (algInit alg) (hmacBlock alg 0x36 (ctxOf t n).key) ∧
                rGet t Reg.DG_BLOCKS = (rGet s Reg.DG_BLOCKS + 1) % 2 ^ 32) ∧
              (algHmac alg = true → liningBad s (slotWords slot) = true → s.ln.wiping = false → t.ln.wiping = true ∧ t.keys = [] ∧
                (ctxOf t n).status = stKeyDenied ∧ (ctxOf t n).key = []) ∧
              (algHmac alg = true → liningBad s (slotWords slot) = false → keyGood s slot owner = false → (ctxOf t n).status = stKeyDenied ∧
                (ctxOf t n).key = [] ∧ rGet t Reg.KS_DENIED = (rGet s Reg.KS_DENIED + 1) % 2 ^ 32 ∧ ErrorLeft Reg.KS_PAGE 4 0 s t)) ∧
            (op = 1 → initCtx s c owner = none ∨ (nextWait s).isSome = true →
              t.dg = last 1 c 0 { s.dg with waiting := s.dg.waiting ++
                [{ go := s.dg.gos + 1, ctx := c, alg := alg, owner := owner, slot := slot }] }) ∧
            (op = 2 ∨ op = 3 → x.state = .opened → x.run = none → x.queue = [] → (op = 2 → 0 < reqWord s 4) →
              (op = 3 → x.deriveOnly = true → bit (reqWord s 0) 4 = true) →
              ctxOf t c = { x with state := .busy, run := some (reqOf s), pos := 0, tail := [], padded := false, outer := false } ∧
              OnlyRegs (writeWords Reg.DG_PAGE) s t) ∧
            (op = 2 → x.state = .opened → x.run = none → x.queue = [] → reqWord s 4 = 0 → ctxOf t c = { x with status := stOK }) ∧
            (op = 3 → x.state = .opened → x.run = none → x.queue = [] → x.deriveOnly = true → bit (reqWord s 0) 4 = false →
              (ctxOf t c).state = .cleared ∧ (ctxOf t c).status = stKeyDenied ∧
              rGet t Reg.KS_DENIED = (rGet s Reg.KS_DENIED + 1) % 2 ^ 32) ∧
            (op = 4 → x.state = .opened ∨ x.state = .done ∨ x.state = .cleared → x.run = none → x.queue = [] → x.bound = false →
              ctxOf t c = { status := stOK }) ∧
            (2 ≤ op → 4 ≤ x.queue.length → ctxOf t c = x ∧ t.dg.outcome = 2 ∧ ErrorLeft Reg.DG_PAGE 1 0 s t))) ∧
        (op ≠ 1 → ∀ d, d ≠ c → ctxOf t d = ctxOf s d))

/-- R313, R315, R316, R318, R319: a waiting INIT takes a context that frees, a core hashes the next block of the context
whose turn it is, the last block makes a FINAL's result readable, and a read before then clears the context. -/
def Obligations.HashingAndResults : Prop :=
  (∀ (wt : DgWait) (c : Nat) (s : State), working s = true → nextWait s = some wt → initCtx s wt.ctx wt.owner = some c →
    algHmac wt.alg = false → ∃ t, exec .contextAssign s = .next t ∧ t.dg.waiting = s.dg.waiting.erase wt ∧
      ctxOf t c = { state := .opened, requester := 1, bound := (ctxOf s c).bound, alg := wt.alg, owner := wt.owner,
                    words := algInit wt.alg, status := stOK } ∧
      (∀ d, d ≠ c → ctxOf t d = ctxOf s d) ∧ Only [.rf, .dg, .out] s t) ∧
  (∀ (c : Nat) (s : State), hashTurn s = some c → c < 256 ∧ (ctxOf s c).run.isSome = true ∧
    ∀ k, k < 256 → (k + 255 - s.dg.last) % 256 < (c + 255 - s.dg.last) % 256 → s.dg.last < 256 → (ctxOf s k).run = none) ∧
  (∀ (c : Nat) (r : DgReq) (s : State), working s = true → s.ln.wiping = false → hashTurn s = some c → (ctxOf s c).run = some r →
    (ctxOf s c).queue = [] → s.ldg.cmds = [] →
    let x := ctxOf s c
    let b := algBlock x.alg
    (x.bad = true → ∃ t, exec .hashBlock s = .next t ∧ (ctxOf t c).state = .cleared ∧ (ctxOf t c).run = none ∧
      (ctxOf t c).words = [] ∧ ErrorLeft Reg.DG_PAGE 5 0 s t ∧ rGet t Reg.DEV_CONTAINED = (rGet s Reg.DEV_CONTAINED + 1) % 2 ^ 32) ∧
    (∀ s2 bs, x.bad = false → x.padded = false → x.pos + b ≤ r.len → 0 < b →
      dgData r x.pos b { s with dg := { s.dg with last := c } } = (s2, some bs) →
      ∃ t, exec .hashBlock s = .next t ∧ t.dg.last = c ∧
        ctxOf t c = (if r.op = 2 ∧ x.pos + b = r.len then
            { x with words := algCompress x.alg x.words bs, total := x.total + b, pos := x.pos + b, run := none, state := .opened, status := stOK }
          else { x with words := algCompress x.alg x.words bs, total := x.total + b, pos := x.pos + b }) ∧
        rGet t Reg.DG_BLOCKS = (rGet s2 Reg.DG_BLOCKS + 1) % 2 ^ 32 ∧ (∀ d, d ≠ c → ctxOf t d = ctxOf s d)) ∧
    (∀ s2, x.bad = false → x.padded = false → dgData r x.pos (min b (r.len - x.pos)) { s with dg := { s.dg with last := c } } = (s2, none) →
      ∃ t, exec .hashBlock s = .next t ∧ (ctxOf t c).state = .cleared ∧ (ctxOf t c).run = none ∧ (ctxOf t c).words = [] ∧
        (ctxOf t c).status = stDigestCleared ∧ rGet t Reg.DG_CLEARED = (rGet s2 Reg.DG_CLEARED + 1) % 2 ^ 32 ∧
        ErrorLeft Reg.DG_PAGE 4 0 s2 t) ∧
    (∀ blk, x.bad = false → x.padded = true → x.tail = [blk] → algHmac x.alg = true → x.outer = false →
      liningBad s (keyAreaWords c) = true → ∃ t, exec .hashBlock s = .next t ∧ t.ln.wiping = true ∧ t.keys = [] ∧ t.ln.bad = []) ∧
    (∀ blk, x.bad = false → x.padded = true → x.tail = [blk] → algHmac x.alg = false ∨ x.outer = true → r.derive = false →
      ∃ t, exec .hashBlock s = .next t ∧ (ctxOf t c).state = .done ∧ (ctxOf t c).status = stOK ∧
        (ctxOf t c).result = algDigest x.alg (algCompress x.alg x.words blk) ∧ (ctxOf t c).run = none ∧
        (ctxOf t c).key = [] ∧ (ctxOf t c).words = [] ∧ t.keys = s.keys) ∧
    (∀ blk, x.bad = false → x.padded = true → x.tail = [blk] → algHmac x.alg = false ∨ x.outer = true → r.derive = true →
      bit (keyOf s r.slot).attr 0 = false → r.usage = 1 ∨ r.usage = 2 → x.owner < 2 ^ 11 → r.lcBind < 2 ^ 5 → x.bound = false →
      let d := algDigest x.alg (algCompress x.alg x.words blk)
      ∃ t, exec .hashBlock s = .next t ∧ (keyOf t r.slot).key = d ++ List.replicate (64 - d.length) 0 ∧
        bit (keyOf t r.slot).attr 0 = true ∧ fld (keyOf t r.slot).attr 2 1 = r.usage ∧ fld (keyOf t r.slot).attr 13 3 = x.owner ∧
        (ctxOf t c).state = .free ∧ (ctxOf t c).result = [] ∧ ∀ k, k ≠ r.slot → keyOf t k = keyOf s k)) ∧
  (∀ (p : Path) (k : Nat) (s : State), dead s = false → reaches s p 0 (Reg.DG_RES k) = true → k < 16 →
    let c := rFld s Reg.DG_SEL 7 0
    let x := ctxOf s c
    ∃ t, exec (.dgResRead p k) s = .next t ∧
      (p = .i3c → t = { s with out := s.out ++ [.word 0] }) ∧ (p ≠ .i3c →
      (x.requester = 1 → x.state = .done → x.bad = true → t.out.getLast? = some (.word 0) ∧ (ctxOf t c).state = .cleared ∧
        ErrorLeft Reg.DG_PAGE 5 0 s t) ∧
      (x.requester = 1 → x.state = .done → x.bad = false →
        t = { s with out := s.out ++ [.word (BitVec.ofNat 32 (ofBytes (slice x.result (4 * k) 4)))] }) ∧
      (x.requester ≠ 1 ∨ x.state = .free ∨ x.state = .idle ∨ x.state = .cleared → t = { s with out := s.out ++ [.word 0] }) ∧
      (x.requester = 1 → x.state = .opened ∨ x.state = .busy → t.out.getLast? = some (.word 0) ∧
        ErrorLeft Reg.DG_PAGE 3 0 s t ∧ Only [.rf, .dg, .ln, .out] s t ∧ (∀ d, d ≠ c → ctxOf t d = ctxOf s d) ∧
        (pageCompat s Reg.DG_PAGE = false → (ctxOf t c).state = .cleared ∧ (ctxOf t c).words = [] ∧ (ctxOf t c).key = [] ∧
          (ctxOf t c).run = none ∧ (ctxOf t c).queue = [] ∧ rGet t Reg.DG_CLEARED = (rGet s Reg.DG_CLEARED + 1) % 2 ^ 32) ∧
        (pageCompat s Reg.DG_PAGE = true → ctxOf t c = { x with status := stDigestEarly } ∧
          rGet t Reg.DG_EARLY = (rGet s Reg.DG_EARLY + 1) % 2 ^ 32))))

/-- R324 to R328, R354, Table 14.6: a key slot is erased, a tamper event that is not masked wipes the Lining and takes the
device into LOCKDOWN, a wipe ends, and a verified life-cycle transition programs the fuses, wipes and resets the device. -/
def Obligations.KeysTamperAndLifeCycle : Prop :=
  (∀ (w : Writer) (v : W32) (s : State), takes s w Reg.KS_CMD = true →
    let k := rFld s Reg.KS_RSEL 8 0
    let held := bit (keyOf s k).attr 0 = true ∧ fld (keyOf s k).attr 13 3 = 0x7FF
    let good := liningBad s [8192 + k] = false
    ∃ t, exec (.erase w v) s = .next t ∧ Recorded w Reg.KS_PAGE s t ∧ (good → Only [.rf, .keys, .ln] s t) ∧
      (bit v.toNat 0 = true → good → ¬held → keyOf t k = {} ∧ ∀ j, j ≠ k → keyOf t j = keyOf s j) ∧
      (bit v.toNat 0 = true → good → held → t.keys = s.keys ∧ ErrorLeft Reg.KS_PAGE 2 0 s t) ∧
      (bit v.toNat 0 = true → ¬good → s.ln.wiping = false → t.keys = [] ∧ t.ln.wiping = true) ∧
      (bit v.toNat 0 = false → t.keys = s.keys ∧ t.ln = s.ln)) ∧
  (∀ (src : Nat) (s : State), dead s = false → src < 4 →
    (bit s.ln.mask src = true → exec (.tamperEvent src) s = .next s) ∧
    (bit s.ln.mask src = false → ∃ t, exec (.tamperEvent src) s = .next t ∧ t.dev.mode = .lockdown ∧ t.ln.tamper = true ∧
      bit t.ln.src src = true ∧ t.ln.mask = s.ln.mask ∧ t.ln.wiping = true ∧
      (s.dev.mode ≠ .lockdown → t.sched.jobs = [] ∧ t.seam.running = false ∧ (∀ i, (instOf t i).compl = []) ∧ t.ldg.compl = [] ∧
        t.dev.activating = false ∧ t.dev.diagBusy = none) ∧
      (s.ln.wiping = false → t.keys = [] ∧ t.ln.scratch = [] ∧ t.ln.bad = [] ∧ t.ln.wipes = (s.ln.wipes + 1) % 2 ^ 32 ∧
        ∀ n, n < 256 → (ctxOf t n).state ≠ .opened ∧ (ctxOf t n).state ≠ .busy ∧ (ctxOf t n).state ≠ .done))) ∧
  (∀ s : State, dead s = false → s.ln.wiping = false → ∃ t, exec (.tamperEvent 4) s = .next t ∧ t.ln.wiping = true ∧ t.keys = [] ∧
    t.ln.tamper = s.ln.tamper ∧ t.dev.mode = s.dev.mode ∧ bit (rGet t (Reg.DEV_PAGE + 0x18)) 1 = true) ∧
  (∀ s : State, s.ln.wiping = true → ∃ t, exec .wipeEnd s = .next t ∧ t.ln = { s.ln with wiping := false } ∧
    bit (rGet t (Reg.LN_PAGE + 0x18)) 0 = true ∧ Only [.rf, .ln, .out] s t) ∧
  (∀ (target : Nat) (verified : Bool) (s : State),
    let allowed := (s.dev.fuseLc, target) ∈ [(0, 1), (0, 4), (1, 2), (1, 4), (2, 3), (2, 4), (3, 4)]
    (verified = false ∨ s.dev.fwUp = false ∨ ¬allowed → exec (.lifeCycleTransition target verified) s = .next s) ∧
    (verified = true → s.dev.fwUp = true → halted s = false → dead s = false → allowed →
      ∃ t, exec (.lifeCycleTransition target verified) s = .next t ∧ t.dev.mode = .bringup ∧ t.dev.fuseLc = target ∧
        t.dev.fuseSplit = s.dev.fuseSplit ∧ t.keys = [] ∧ t.dg = {} ∧ t.sched = {} ∧ t.rings = {} ∧ t.ln.tamper = s.ln.tamper ∧
        t.ldg.vols = s.ldg.vols ∧ t.mem.host = s.mem.host ∧
        ((∀ c ∈ s.ldg.cmds, c.inMedia = []) → t.mem.ledger = s.mem.ledger ∧ t.ldg.streams = s.ldg.streams))) ∧
  (∀ (w : Writer) (v : W32) (s : State), takes s w Reg.LN_TAMPER_MASK = true →
    ∃ t, exec (.tamperMaskWrite w v) s = .next t ∧ Recorded w Reg.LN_PAGE s t ∧ Only [.rf, .ln] s t ∧
      (s.dev.fuseLc = 0 → t.ln = { s.ln with mask := v.toNat % 16 } ∧ OnlyRegs (writeWords Reg.LN_PAGE) s t) ∧
      (s.dev.fuseLc ≠ 0 → t.ln = s.ln ∧ ErrorLeft Reg.LN_PAGE 1 0 s t))

/-- R329 to R332, R336, Table 15.2: a port reset, a link that goes down, a function-level reset and a cleared VF Enable
reset the instances behind their functions and nothing of the other port; a link that trains shows its speed and width. -/
def Obligations.PortResetsReachTheirInstances : Prop :=
  let isReset := fun (i : Nat) (s t : State) => (instOf t i).gen = ((instOf s i).gen + 1) % 256 ∧ (instOf t i).resetting = true
  let other := fun (p : HostPort) => match p with
    | .a => HostPort.b
    | .b => HostPort.a
  (∀ (p : HostPort) (s : State), dead s = false → splitOf s ≤ 1024 →
    ∃ t, exec (.portReset p) s = .next t ∧ (port t p).up = false ∧ (port t p).vfEnable = false ∧ (port t p).numVfs = 0 ∧
      (port t p).fns = [] ∧ (port t p).ptmValid = false ∧ (port t p).cxl = false ∧ port t (other p) = port s (other p) ∧
      (p = .a → t.dev.decoder = false) ∧ rBit t (Reg.HIF_PAGE (portIx p) + 0x14) 0 = true ∧
      (∀ i, i ≤ 1024 → if (i = 0 ∧ p = .a) ∨ (0 < i ∧ (p = .a ↔ i ≤ splitOf s)) then isReset i s t else (instOf t i).gen = (instOf s i).gen) ∧
      ((port s p).up = true → exec (.hostLinkDown p) s = .next t)) ∧
  (∀ (p : HostPort) (s : State), (port s p).up = false → exec (.hostLinkDown p) s = .next s) ∧
  (∀ (p : HostPort) (fn : Nat) (s : State), dead s = false → splitOf s ≤ 1024 →
    (fn = 0 → ∃ t, exec (.flr p fn) s = .next t ∧ (port t p).vfEnable = false ∧ (port t p).fns = [] ∧ (port t p).up = (port s p).up ∧
      ∀ i, i ≤ 1024 → (i = 0 ∧ p = .a) ∨ (0 < i ∧ (p = .a ↔ i ≤ splitOf s)) → isReset i s t) ∧
    (∀ i, 0 < fn → (port s p).vfEnable = true → fn ≤ (port s p).numVfs → (portVfs s p)[fn - 1]? = some i →
      ∃ t, exec (.flr p fn) s = .next t ∧ isReset i s t ∧ port t p = { port s p with fns := kDel (port s p).fns fn } ∧
        port t (other p) = port s (other p) ∧ ∀ j, j ≠ i → (instOf t j).gen = (instOf s j).gen) ∧
    (0 < fn → (port s p).vfEnable = false ∨ (port s p).numVfs < fn → exec (.flr p fn) s = .next s)) ∧
  (∀ (p : HostPort) (s : State), dead s = false → splitOf s ≤ 1024 →
    ((port s p).vfEnable = true → ∃ t, exec (.vfEnableClear p) s = .next t ∧ (port t p).vfEnable = false ∧
      (port t p).fns = (port s p).fns.filter (fun f => f.1 = 0) ∧ (port t p).numVfs = (port s p).numVfs ∧
      ∀ i, if i ∈ (portVfs s p).take (port s p).numVfs then isReset i s t else (instOf t i).gen = (instOf s i).gen) ∧
    ((port s p).vfEnable = false → exec (.vfEnableClear p) s = .next s)) ∧
  (∀ (p : HostPort) (s : State), exec (.perstRise p) s = .next (setPort p { port s p with perst := false } s)) ∧
  (∀ (p : HostPort) (speed width : Nat) (flit cxl : Bool) (s : State), dead s = false →
    ((port s p).perst = true → exec (.hostLinkUp p speed width flit cxl) s = .next s) ∧
    ((port s p).perst = false → ∃ t, exec (.hostLinkUp p speed width flit cxl) s = .next t ∧
      port t p = { port s p with up := true, speed := speed % 8, width := width % 32, flit := flit,
                                 cxl := cxl && decide (p = .a) && bit s.dev.straps 1 && decide (5 ≤ speed) } ∧
      port t (other p) = port s (other p) ∧ rBit t (Reg.HIF_PAGE (portIx p) + 0x14) 0 = false ∧ Only [.rf, .portA, .portB, .out] s t ∧
      rGet t (Reg.HIF_RETRAIN (portIx p)) = (rGet s (Reg.HIF_RETRAIN (portIx p)) + b2n (port s p).up) % 2 ^ 32))

/-- R329, R330, R332 to R337: hardware answers configuration requests, a failed host read is counted and reaches its
consumer, PTM refreshes, SPDM requests wait or are answered, and CXL.mem requests reach the window. The words of
configuration space lie where log entry 52 puts them, and log entry 54's response codes answer SPDM. -/
def Obligations.PortRequestsAreServed : Prop :=
  (∀ (p : HostPort) (fn off : Nat) (d : W32) (s : State), dead s = false → (port s p).up = true →
    (fnExists s p fn = false → ∀ wr, exec (.configRequest p fn wr off d) s = .next { s with out := s.out ++ [.config 0xFFFFFFFF] }) ∧
    (fnExists s p fn = true →
      exec (.configRequest p fn false off d) s = .next { s with out := s.out ++ [.config (BitVec.ofNat 32 (cfgRead s p fn (off / 4 * 4)))] } ∧
      (off / 4 * 4 = 0 → cfgRead s p fn 0 / 65536 = if fn = 0 then 0xA192 else 0xA193) ∧
      (off / 4 * 4 = cfgCommand → ∃ t, exec (.configRequest p fn true off d) s = .next t ∧
        kGet {} (port t p).fns fn = { kGet {} (port s p).fns fn with memEn := bit d.toNat 1, busMaster := bit d.toNat 2 } ∧
        (port t p).numVfs = (port s p).numVfs ∧ Only [.portA, .portB, .out] s t) ∧
      (fn = 0 → off / 4 * 4 = cfgNumVfs → ∃ t, exec (.configRequest p fn true off d) s = .next t ∧
        port t p = { port s p with numVfs := if (port s p).vfEnable ∨ vfOffered s p < d.toNat % 65536 then (port s p).numVfs
                                             else d.toNat % 65536 } ∧ Only [.portA, .portB, .out] s t) ∧
      (fn = 0 → off / 4 * 4 = cfgSriovCtl → bit d.toNat 0 = true → ∃ t, exec (.configRequest p fn true off d) s = .next t ∧
        port t p = { port s p with vfEnable := true } ∧ Only [.portA, .portB, .out] s t) ∧
      (off / 4 * 4 = cfgPmCtl → fld d.toNat 1 0 = 3 → ∃ t, exec (.configRequest p fn true off d) s = .next t ∧
        kGet {} (port t p).fns fn = { kGet {} (port s p).fns fn with d3 := true } ∧ Only [.portA, .portB, .out] s t) ∧
      (fn = 0 → (port s p).cxl = true → off / 4 * 4 = cfgHdm → exec (.configRequest p fn true off d) s
        = .next { s with dev := { s.dev with decoder := bit d.toNat 0 }, out := s.out ++ [.config 0] }) ∧
      (fn = 0 → (port s p).cxl = false → cfgHdm ≤ off / 4 * 4 → off / 4 * 4 < cfgHdm + 0x14 →
        cfgRead s p fn (off / 4 * 4) = 0 ∧ exec (.configRequest p fn true off d) s = .next { s with out := s.out ++ [.config 0] }))) ∧
  (∀ (p : HostPort) (fn off : Nat) (d : W32) (wr : Bool) (s : State), (port s p).up = false ∨ s.dev.mode = .reset →
    exec (.configRequest p fn wr off d) s = .next s) ∧
  (∀ (i r : Nat) (cause : ReadCause) (s : State), working s = true → i < numInst →
    let n := portIx (instPort s i)
    ∃ t, exec (.hostReadFailure (.jobFetch i r) cause) s = .next t ∧ jrOf t i r = { jrOf s i r with failed := true } ∧
      (cause = .poison → rGet t (Reg.HIF_POISON_RX n) = (rGet s (Reg.HIF_POISON_RX n) + 1) % 2 ^ 32) ∧
      (cause ≠ .poison → rGet t (Reg.HIF_CPL_TIMEOUT n) = (rGet s (Reg.HIF_CPL_TIMEOUT n) + 1) % 2 ^ 32 ∧
        ErrorLeft (Reg.HIF_PAGE n) 3 0 s t) ∧ Only [.rf, .rings, .out] s t) ∧
  (∀ (i tag : Nat) (cause : ReadCause) (s : State), working s = true →
    (∀ p ∈ s.sched.jobs, p.2.inst = i → p.2.tag = tag → p.2.status.isSome = true ∨ p.2.formed = true) →
    ∃ t, exec (.hostReadFailure (.fragTable i tag) cause) s = .next t ∧ (instOf t i).fragFail = tag :: (instOf s i).fragFail ∧
      Only [.rf, .rings, .out] s t) ∧
  (∀ (c : Nat) (r : DgReq) (cause : ReadCause) (s : State), working s = true → (ctxOf s c).run = some r → r.dev = false → r.own = none →
    ∃ t, exec (.hostReadFailure (.digest c) cause) s = .next t ∧ (ctxOf t c).state = .cleared ∧ (ctxOf t c).run = none ∧
      rGet t Reg.DG_CLEARED = (rGet s Reg.DG_CLEARED + 1) % 2 ^ 32) ∧
  (∀ (p : HostPort) (m : Nat) (s : State),
    (dead s = false → (port s p).up = true → (port s p).ptmOn = true → rBit s (Reg.HIF_PTM_CTRL (portIx p)) 0 = true →
      exec (.ptmRefresh p (some m)) s = .next (setPort p { port s p with ptmValid := true, ptmNs := m, ptmAt := s.now } s)) ∧
    exec (.ptmRefresh p none) s = .next s) ∧
  (∀ (p : HostPort) (req : Nat) (s : State), dead s = false → (port s p).up = true →
    let code := req % 256
    let param := req / 256
    let sends := fun (r x : Nat) (body : List Nat) => exec (.spdmRequest p req) s = .next { s with out := s.out ++ [.spdm p r x body] }
    let ss := (port s p).sessions
    (s.dev.fwUp = false → s.ln.wiping = false →
      exec (.spdmRequest p req) s = .next (setPort p { port s p with doe := (port s p).doe ++ [(code, param)] } s)) ∧
    (s.ln.wiping = true → sends 0x7F 3 []) ∧
    (s.dev.fwUp = true → s.ln.wiping = false →
      (code ∉ spdmKnown → sends 0x7F 7 []) ∧
      (code ∈ spdmKnown → code < 0xE4 →
        if code ∈ [0x82, 0x83, 0xE0] ∧ param ≠ 0 then sends 0x7F 1 [] else sends (code - 0x80) param (spdmBody code s)) ∧
      (∀ k, code = 0xE4 → k < 4 → (∀ y ∈ ss, y.id ≠ k) → (∀ j, j < k → ∃ y ∈ ss, y.id = j) →
        ∃ t, exec (.spdmRequest p req) s = .next t ∧ (port t p).sessions = ss ++ [⟨k, false⟩] ∧
          t.out = s.out ++ [.spdm p 0x64 k []] ∧ t.freeCtr = s.freeCtr + 1 ∧ Only [.freeCtr, .portA, .portB, .ln, .out] s t) ∧
      (code = 0xE4 → (∀ j, j < 4 → ∃ y ∈ ss, y.id = j) → sends 0x7F 0x0A []) ∧
      (code = 0xEC → ss.find? (fun y => y.id = param) = some ⟨param, true⟩ →
        ∃ t, exec (.spdmRequest p req) s = .next t ∧ (port t p).sessions = ss.filter (fun y => y.id ≠ param) ∧
          (∀ k, k < 64 → kGet 0 t.ln.scratch (secretAt p param + k) = 0) ∧ t.out = s.out ++ [.spdm p 0x6C param []]))) ∧
  (∀ (d a0 : Nat) (bs : List Byte) (s : State), dead s = false → s.portA.up = true → s.portA.cxl = true → s.dev.memActive = true →
    cxlDpa s d = some a0 → a0 / 64 * 64 + 64 ≤ rFld s (Reg.HIF_CXLWIN_SIZE 0) 6 0 * 2 ^ 30 →
    let a := rFld s (Reg.HIF_CXLWIN_BASE 0) 7 0 * 2 ^ 30 + a0
    (s.dev.decoder = false → a0 = d) ∧ (s.dev.decoder = true → d = s.dev.hdmBase + a0 ∧ a0 < s.dev.hdmSize) ∧
    (d % 64 + bs.length ≤ 64 → exec (.cxlMemRequest true d bs false) s = .next (meshWrite (inboundInit .a) a bs s).1 ∧
      ∃ t, exec (.cxlMemRequest true d bs true) s = .next t ∧ ∀ w ∈ rangeWords a bs.length, eccOf t w = 2) ∧
    (∀ s2 st data, meshRead (inboundInit .a) (a / 64 * 64) 64 s = (s2, st, data) → ∃ t, exec (.cxlMemRequest false d bs false) s = .next t ∧
      t = { s2 with out := s2.out ++ [.cxl (if st = stOK then data else List.replicate 64 0) (decide (st ≠ stOK))] })) ∧
  (∀ (wr : Bool) (d : Nat) (bs : List Byte) (poison : Bool) (s : State),
    s.portA.cxl = false ∨ s.portA.up = false ∨ s.dev.memActive = false ∨
      (∀ a0, cxlDpa s d = some a0 → rFld s (Reg.HIF_CXLWIN_SIZE 0) 6 0 * 2 ^ 30 < a0 / 64 * 64 + 64) → exec (.cxlMemRequest wr d bs poison) s = .next s)

/-- R339 to R342, Tables 15.4 and 15.5, with the bytes of GETPID in the order of log entry 53 (the model's choice): the
target keeps its address and event enables by command codes, private transfers move words between the bus and register space
or the mirror (written words wait, and take effect when time passes), and an in-band interrupt carries its lowest pending
cause. -/
def Obligations.TheI3cTargetServesTheBus : Prop :=
  (∀ s : State, s.i3c.ready = true → dead s = false →
    (∀ a, s.i3c.da = none → ∃ t, exec (.i3cCcc (.entdaa a)) s = .next t ∧ t.i3c = { s.i3c with da := some (a % 128) } ∧
      bit (rGet t (Reg.MGT_PAGE + 0x18)) 0 = true ∧ Only [.rf, .i3c, .out] s t) ∧
    exec (.i3cCcc .rstdaa) s = .next { s with i3c := { s.i3c with da := none } } ∧
    (∀ e, exec (.i3cCcc (.enec e)) s = .next { s with i3c := { s.i3c with enInt := s.i3c.enInt || bit e 0 } } ∧
      exec (.i3cCcc (.disec e)) s = .next { s with i3c := { s.i3c with enInt := s.i3c.enInt && !bit e 0 } }) ∧
    (∀ n, exec (.i3cCcc (.rstact n)) s = .next { s with i3c := { s.i3c with rstAct := n % 256 } }) ∧
    (∀ n, exec (.i3cCcc (.setmwl n)) s = .next { s with i3c := { s.i3c with mwl := n % 65536 } }) ∧
    (s.i3c.da.isSome = true → exec (.i3cCcc .getbcr) s = .next { s with out := s.out ++ [.ccc [0x26]] } ∧
      exec (.i3cCcc .getdcr) s = .next { s with out := s.out ++ [.ccc [0x00]] } ∧
      exec (.i3cCcc .getpid) s = .next { s with out := s.out ++ [.ccc (beBytes 6 (pidOf s))] } ∧
      ∀ a, ∃ t, exec (.i3cCcc (.setnewda a)) s = .next t ∧ t.i3c = { s.i3c with da := some (a % 128) } ∧ Only [.rf, .i3c, .out] s t)) ∧
  (∀ s : State, s.i3c.ready = false ∨ dead s = true → ∀ c, exec (.i3cCcc c) s = .next s) ∧
  (∀ s : State, s.i3c.ready = true → dead s = false → s.i3c.da.isSome = true →
    (∀ c bs, 16 ≤ s.i3c.waiting.length → exec (.i3cWrite (c :: bs)) s = .next { s with out := s.out ++ [.i3cNack] }) ∧
    (∀ (o0 o1 o2 b0 b1 b2 b3 : Byte), s.i3c.waiting.length < 16 →
      let a := ofBytes [o0, o1, o2] / 4 * 4
      (∀ s2 ws, fetchWords 16 a s = (s2, ws) → exec (.setAddr [0x01, o0, o1, o2]) s
        = .next { s2 with i3c := { s2.i3c with toMirror := false, ptr := a, fetched := ws, fetchAt := s2.now } }) ∧
      exec (.i3cWrite [0x02, o0, o1, o2, b0, b1, b2, b3]) s
        = .next { s with i3c := { s.i3c with waiting := s.i3c.waiting ++ [(a, BitVec.ofNat 32 (ofBytes [b0, b1, b2, b3]))] } } ∧
      exec (.mirror [0x03, o0]) s = .next { s with i3c := { s.i3c with toMirror := true, ptr := o0.toNat, fetched := [] } }) ∧
    (∀ a v, s.pending = [] → s.i3c.waiting = [(a, v)] →
      step s = step (writeWord ⟨.i3c, 0, 15⟩ a v { s with i3c := { s.i3c with waiting := [] } })) ∧
    (s.i3c.waiting.length < 16 → ∃ t, exec (.i3cWrite [0x04]) s = .next t ∧ rGet t Reg.MGT_I3C_ERR = (rGet s Reg.MGT_I3C_ERR + 1) % 2 ^ 32 ∧ Only [.rf] s t) ∧
    (∀ n, s.i3c.toMirror = true → n ≤ 16 → s.i3c.ptr + n ≤ 256 → exec (.i3cRead n) s
      = .next { s with i3c := { s.i3c with ptr := s.i3c.ptr + n },
                       out := s.out ++ [.i3cData ((List.range n).map fun k => BitVec.ofNat 32 (rGet s (Reg.MGT_MIRROR (s.i3c.ptr + k))))] }) ∧
    (∀ n, s.i3c.toMirror = false → s.i3c.ptr < 0x1000000 → s.now < s.i3c.fetchAt + 3200 → ∃ t, exec (.i3cRead n) s = .next t ∧
      t.out = s.out ++ [.i3cNack] ∧ t.i3c = s.i3c ∧ rGet t Reg.MGT_RD_NACK = (rGet s Reg.MGT_RD_NACK + 1) % 2 ^ 32) ∧
    (∀ n, s.i3c.toMirror = false → s.i3c.ptr < 0x1000000 → s.i3c.fetched ≠ [] → s.i3c.fetchAt + 3200 ≤ s.now → n ≤ 16 →
      n ≤ s.i3c.fetched.length → ∃ t, exec (.i3cRead n) s = .next t ∧ t.i3c.ptr = s.i3c.ptr + 4 * n ∧
        t.out = s.out ++ [.i3cData (s.i3c.fetched.take n)] ∧ s.i3c.fetched.drop n <+: t.i3c.fetched ∧ t.rf = s.rf ∧ t.dg = s.dg)) ∧
  (∀ (c : Nat) (w : W32) (rest : KMap W32) (s : State), s.i3c.ready = true → dead s = false → s.i3c.da.isSome = true →
    s.i3c.enInt = true → s.i3c.causes = (c, w) :: rest →
    (∃ t, exec (.ibi true) s = .next t ∧ t.i3c = { s.i3c with causes := rest } ∧ t.out = s.out ++ [.ibi c w] ∧
      rGet t Reg.MGT_IBI_SENT = (rGet s Reg.MGT_IBI_SENT + 1) % 2 ^ 32 ∧ Only [.rf, .i3c, .out] s t ∧
      exec (.ibiRetry true) s = .next t) ∧
    (∃ t, exec (.ibi false) s = .next t ∧ t.i3c = s.i3c ∧ rGet t Reg.MGT_IBI_NACK = (rGet s Reg.MGT_IBI_NACK + 1) % 2 ^ 32 ∧
      bit (rGet t (Reg.MGT_PAGE + 0x18)) 1 = true ∧ exec (.ibiRetry false) s = .next t))

/-- R338, R343, R344, R346, R347, Table 15.6: a mirror pass writes its items and counts, staleness shows, and the boot ROM,
the module bus and the target start as bring-up lays down. -/
def Obligations.MirrorModulesAndBoot : Prop :=
  (∀ s : State, s.dev.fwUp = true → dead s = false →
    (∃ t, exec .mirrorPass s = .next t ∧ rGet t (Reg.MGT_MIRROR 0) = (rFld s (Reg.MGT_MIRROR 0) 15 0 + 1) % 65536 ∧
      (∀ p ∈ mirrorItems s, rGet t (Reg.MGT_MIRROR p.1) = p.2 % 2 ^ 32) ∧
      rGet t (Reg.MGT_MIRROR 1) = mirrorWord1 s % 2 ^ 32 ∧ Only [.rf, .i3c] s t) ∧
    (∀ temps, ∃ t, exec (.modulePoll temps) s = .next t ∧
      rGet t (Reg.MGT_MIRROR 22) = min 255 (temps.getD 0 0) + 256 * min 255 (temps.getD 1 0)
        + 65536 * b2n (rBit s Reg.MGT_MOD_STATUS 0) + 131072 * b2n (rBit s Reg.MGT_MOD_STATUS 2) ∧ Only [.rf] s t) ∧
    (∃ t, exec .moduleResetRelease s = .next t ∧ (cxtOf t 0).rstHeld = false ∧ (cxtOf t 1).rstHeld = false ∧ Only [.cxt] s t)) ∧
  (∀ s : State, dead s = false → ∃ t, exec .mirrorStale s = .next t ∧ rBit t (Reg.MGT_MIRROR 0) 17 = true ∧
    ErrorLeft Reg.MGT_PAGE 2 0 s t ∧ Only [.rf] s t) ∧
  (∀ s : State, dead s = false → exec .i3cTargetEnable s = .next { s with i3c := { s.i3c with ready := true } }) ∧
  (∀ (p rawMib regs : Nat) (ident eeprom board : Bool) (s : State), s.dev.mode = .bringup → s.dev.fwUp = true → p < 2 → dead s = false →
    ∃ t, exec (.moduleIdentify p rawMib ident eeprom board regs) s = .next t ∧
      (ident = true → (cxtOf s p).linkUp = true → cxtOf t p = { cxtOf s p with modUp := true, units := min (rawMib * 8 / 9 / 256) 2048, hdmMib := rawMib }) ∧
      (ident = false ∨ (cxtOf s p).linkUp = false → t.cxt = s.cxt ∧ ErrorLeft Reg.MGT_PAGE 1 p s t) ∧
      rBit t Reg.MGT_MOD_STATUS (2 * p + 1) = eeprom ∧ rBit t Reg.MGT_MOD_STATUS 4 = board ∧
      rGet t Reg.MGT_BOOT_MOD = (s.now - s.dev.bootAt) / 1600 % 2 ^ 32 ∧
      (eeprom = false → rBit t (Reg.MGT_PAGE + 0x14) 2 = true) ∧ Only [.rf, .cxt, .out] s t) ∧
  (∀ (b0 b1 : Nat) (s : State), s.dev.mode = .bringup → s.dev.fwUp = false → s.dev.bank0 = 0 → s.dev.bank1 = 0 →
    (∀ p ∈ s.dev.flashVlim, p.1 < 12) →
    let second := bit s.dev.straps 0
    (second = false → b0 = 1 → ∃ t, exec (.bootRomEnd b0 b1) s = .next t ∧ t.dev.fwUp = true ∧ t.dev.bankRun = 0 ∧ t.dev.bank0 = 1 ∧
      t.dev.bank1 = 0 ∧ (port t .a).doe = [] ∧ (port t .b).doe = [] ∧ rGet t Reg.MGT_BOOT_ROM = (s.now - s.dev.bootAt) / 1600 % 2 ^ 32) ∧
    (second = true → b1 = 1 → ∃ t, exec (.bootRomEnd b0 b1) s = .next t ∧ t.dev.fwUp = true ∧ t.dev.bankRun = 1 ∧ t.dev.bank1 = 1 ∧
      t.dev.bank0 = 0) ∧
    (second = false → b0 % 16 ≠ 1 → b1 % 16 = 1 → ∃ t, exec (.bootRomEnd b0 b1) s = .next t ∧ t.dev.fwUp = true ∧ t.dev.bankRun = 1 ∧
      t.dev.bank0 = b0 % 16) ∧
    (b0 % 16 ≠ 1 → b1 % 16 ≠ 1 → ∃ t, exec (.bootRomEnd b0 b1) s = .next t ∧ t.dev.fwUp = false ∧ t.dev.mode = .bringup ∧
      t.dev.bank0 = b0 % 16 ∧ t.dev.bank1 = b1 % 16 ∧ Only [.rf, .dev] s t))

/-- R44, R348, R352, Table 16.2: a mode request has the effect the table gives, or is refused and changes no mode. -/
def Obligations.ModeRequestsFollowTheTable : Prop :=
  ∀ (cmd : Instr) (w : Writer) (m : Nat) (s : State), takes s w Reg.DEV_MODE_REQ = true →
    ((cmd = .modeRequestConfigure w ∧ m = 2) ∨ (cmd = .modeRequestService w ∧ m = 3) ∨ (cmd = .modeRequestRetain w ∧ m = 5) ∨
     (cmd = .modeRequestDiagnose w ∧ m = 6) ∨ (cmd = .activate w ∧ m = 8)) →
    let busy := s.dev.retainReq = true ∨ s.dev.wakeTo ≠ 0 ∨ s.dev.activating = true ∨ (s.dev.mode = .drain ∧ m ≠ 3)
    let fine := halted s = false ∧ ¬busy ∧ (m = 8 → s.dev.fwStaged = true)
    let changed := fun (k : Mode) (target : Nat) (t : State) =>
      t.dev = { s.dev with mode := k, target := target, retainReq := false, wakeTo := 0, wakeAt := none } ∧
        bit (rGet t (Reg.DEV_PAGE + 0x18)) 0 = true
    let kept := fun (code : Nat) (t : State) => t.dev = s.dev ∧ ErrorLeft Reg.DEV_PAGE code 0 s t ∧ Only [.rf] s t
    let saved := (kFind s.rf.val Reg.SCHED_SAVE_BASE_LO).isSome ∨ (kFind s.rf.val Reg.SCHED_SAVE_BASE_HI).isSome
    ∃ t, exec cmd s = .next t ∧ Recorded w Reg.DEV_PAGE s t ∧ Only [.rf, .i3c, .dev, .out] s t ∧
      (halted s = true → kept 1 t) ∧ (halted s = false → busy → kept 2 t) ∧
      (halted s = false → ¬busy → m = 8 → s.dev.fwStaged = false → kept 3 t) ∧
      (fine → s.dev.mode = .configure →
        (m = 3 → if saved then changed .service 0 t else kept 1 t) ∧ (m = 5 → t.dev = { s.dev with retainReq := true }) ∧
        (m = 6 → changed .diagnose 0 t) ∧ (m = 2 ∨ m = 8 → kept 1 t)) ∧
      (fine → s.dev.mode = .service → if m = 3 then kept 1 t else changed .drain m t) ∧
      (fine → s.dev.mode = .drain → changed .service 0 t) ∧
      (fine → s.dev.mode = .retain → if m = 2 ∨ m = 3 ∧ saved then t.dev = { s.dev with wakeTo := m } else kept 1 t) ∧
      (fine → s.dev.mode = .diagnose → if m = 2 ∧ s.dev.diagBusy = none then changed .configure 0 t else kept 1 t) ∧
      (fine → s.dev.mode = .lockdown → kept 1 t)

/-- R345, R346, R349, R361, R387: the pins and events that reset the device, end a reset or bring-up, or are fatal. -/
def Obligations.ResetsBringUpAndFatalErrors : Prop :=
  let fresh := fun (s t : State) => t.rf.val = [] ∧ t.keys = [] ∧ t.dg = {} ∧ t.sched = {} ∧ t.rings = {} ∧ t.seam = {} ∧ t.pat = {} ∧
    t.ma = {} ∧ t.mem.dev = [] ∧ t.mem.undef = resetUndef s.freeCtr ∧ t.now = s.now ∧ t.dev.fatal = 0 ∧ t.dev.fuseLc = s.dev.fuseLc ∧
    t.dev.fuseSplit = s.dev.fuseSplit ∧ t.ldg.vols = s.ldg.vols ∧ t.ldg.cmds = [] ∧ t.ldg.compl = [] ∧ t.pending = s.pending
  (∀ (straps : Nat) (s : State),
    (s.dev.pwrok = true → exec (.pwrokRise straps) s = .next s) ∧
    (s.dev.pwrok = false → exec (.pwrokRise straps) s = .next { s with dev := { s.dev with
      pwrok := true, straps := straps % 16, bootAt := s.now, mode := if s.dev.resetN then .bringup else s.dev.mode } })) ∧
  (∀ s : State, s.dev.pwrok = true → (∀ c ∈ s.ldg.cmds, c.inMedia = []) → ∃ t, exec .pwrokFall s = .next t ∧ fresh s t ∧
    t.dev.mode = .reset ∧ t.dev.pwrok = false ∧ t.dev.thermtrip = false ∧ t.mem.ledger = s.mem.ledger ∧
    t.ldg.streams = s.ldg.streams ∧ t.ln = {} ∧ t.pwr = {} ∧ Only (allBut [.now, .out]) s t) ∧
  (∀ s : State, s.dev.pwrok = false → exec .pwrokFall s = .next s) ∧
  (∀ s : State, s.dev.resetN = true →
    (s.dev.pwrok = true → dead s = false → ∃ t, exec .resetNFall s = .next t ∧ t.dev.resetN = false ∧ t.ldg.stopped = true ∧
      t.ldg.compl = [] ∧ t.dev.resetFell = some (s.dev.resetFell.getD s.now) ∧ t.dev.mode = s.dev.mode) ∧
    (s.dev.pwrok = false → exec .resetNFall s = .next { s with dev := { s.dev with resetN := false } })) ∧
  (∀ s : State, s.dev.resetFell.isSome = true → s.dev.thermtrip = false → ∃ t, exec .resetTakesHold s = .next t ∧ fresh s t ∧
    t.dev.mode = (if s.dev.resetN then .bringup else .reset) ∧ t.dev.resetFell = none ∧ t.mem.ledger = s.mem.ledger ∧
    t.ldg.streams = s.ldg.streams ∧ t.ln.tamper = s.ln.tamper ∧ t.ln.src = s.ln.src ∧ t.ln.wiping = false) ∧
  (∀ s : State, exec .resetNRise s = .next { s with dev := { s.dev with
    resetN := true, mode := if s.dev.mode = .reset ∧ s.dev.pwrok = true then .bringup else s.dev.mode } }) ∧
  (∀ s : State, s.dev.mode = .bringup → s.dev.fwUp = true → halted s = false → ∃ t, exec .bringupComplete s = .next t ∧
    t.dev.mode = .configure ∧ t.seam.num = 0 ∧ t.seam.running = true ∧ t.seam.lastTick = s.now ∧ t.dev.memActive = true ∧
    t.dev.memInfo = true ∧ t.dev.rangeGib = rFld s (Reg.HIF_CXLWIN_SIZE 0) 6 0 ∧
    t.ldg.ready = true ∧ t.ldg.stopped = false ∧ t.pwr.estimates = [] ∧ rGet t Reg.MGT_BOOT_CONFIG = (s.now - s.dev.bootAt) / 1600 % 2 ^ 32 ∧
    rGet t (Reg.MGT_MIRROR 46) = (s.dev.fuseLc + 0xB000) % 2 ^ 32 ∧ t.mem = s.mem ∧ t.sched = s.sched) ∧
  (∀ s : State, s.dev.mode ≠ .bringup → exec .bringupComplete s = .next s) ∧
  (∀ (cmd : Instr) (cause : Nat) (s : State), dead s = false → s.dev.pwrok = true → s.dev.fatal = 0 →
    (cmd = .watchdogExpiry ∧ cause = 3) ∨ (cmd = .refclkLoss ∧ cause = 5) → ∃ t, exec cmd s = .next t ∧ t.dev.fatal = cause ∧
      t.seam = { s.seam with running := false } ∧ t.dev.mode = s.dev.mode ∧ halted t = true ∧ working t = false ∧
      t.dev.lastErrClass = 3 ∧ rBit t (Reg.DEV_PAGE + 0x14) 2 = true ∧ .aer .a ∈ t.out ∧ .aer .b ∈ t.out ∧
      Only [.rf, .seam, .portA, .portB, .i3c, .dev, .out] s t)

/-- R351, R353, R354, Table 16.3: firmware images are staged and activated, built-in tests run in DIAGNOSE and leave what
they cover zero, and a signed token releases the device from LOCKDOWN. -/
def Obligations.FirmwareTestsAndRelease : Prop :=
  (∀ (w : Writer) (v : W32) (s : State), takes s w Reg.DEV_FW_CMD = true →
    ∃ t, exec (.fwStage w v) s = .next t ∧ Recorded w Reg.DEV_PAGE s t ∧ Only [.rf, .dev] s t ∧
      (v.toNat % 4 = 1 → s.dev.fwBusy = false → stagePending s Reg.DEV_PAGE = false →
        t.dev = { s.dev with fwBusy := true, fwStaged := false } ∧ OnlyRegs (writeWords Reg.DEV_PAGE) s t) ∧
      (v.toNat % 4 = 1 → s.dev.fwBusy = true → t.dev = s.dev ∧ ErrorLeft Reg.DEV_PAGE 3 0 s t) ∧
      (v.toNat % 4 = 1 → s.dev.fwBusy = false → stagePending s Reg.DEV_PAGE = true → t.dev = s.dev ∧ ErrorLeft Reg.DEV_PAGE 4 0 s t) ∧
      (v.toNat % 4 ≠ 1 → t.dev = s.dev)) ∧
  (∀ (r : Nat) (s : State), s.dev.fwBusy = true → dead s = false →
    let len := rFld s Reg.DEV_FW_LEN 24 0
    let r' := if len = 0 ∨ 16777216 < len then 3 else r
    ∃ t, exec (.fwStageDone r) s = .next t ∧ t.dev = { s.dev with fwBusy := false, fwResult := r' % 256, fwStaged := decide (r' = 1) } ∧
      bit (rGet t (Reg.DEV_PAGE + 0x18)) 3 = true ∧ Only [.rf, .dev, .out] s t) ∧
  (∀ (ok : Bool) (s : State), s.dev.activating = true → halted s = false → ∃ t, exec (.activationRestart ok) s = .next t ∧
    t.dev.mode = .service ∧ t.dev.activating = false ∧ t.dev.fwStaged = false ∧
    t.dev.bankRun = (if ok then 1 - s.dev.bankRun else s.dev.bankRun) ∧ t.dev.fwResult = (if ok then s.dev.fwResult else 2) ∧
    (ok = false → t.dev.fwVersion = s.dev.fwVersion % 2 ^ 64) ∧ rGet t (Reg.MGT_MIRROR 44) = t.dev.fwVersion % 2 ^ 32) ∧
  (∀ (cmd : Instr) (w : Writer) (test unit : Nat) (s : State), takes s w Reg.DEV_DIAG_CMD = true → unit < 16 →
    ((cmd = .testPanelMarch w ∧ test = 1 ∧ unit = 0) ∨ (cmd = .testMeshLinks w ∧ test = 2 ∧ unit = 0) ∨
     (cmd = .testHbmMarch w unit ∧ test = 3) ∨ (cmd = .testMatchArrayMarch w ∧ test = 4 ∧ unit = 0) ∨
     (cmd = .testCxlLoopback w unit ∧ test = 5)) →
    ∃ t, exec cmd s = .next t ∧ Recorded w Reg.DEV_PAGE s t ∧ Only [.rf, .hmc, .cxt, .dev] s t ∧
      (s.dev.mode ≠ .diagnose ∨ halted s = true → Only [.rf] s t ∧ OnlyRegs (writeWords Reg.DEV_PAGE) s t) ∧
      (s.dev.mode = .diagnose → halted s = false → s.dev.diagBusy.isSome = true → t.dev = s.dev ∧ ErrorLeft Reg.DEV_PAGE 3 0 s t) ∧
      (s.dev.mode = .diagnose → halted s = false → s.dev.diagBusy = none → (test = 3 → unit < 4) → (test = 5 → unit < 2) →
        t.dev = { s.dev with diagBusy := some test, diagUnit := unit } ∧
        (test = 3 → (hmcOf t (2 * unit)).testing = true ∧ (hmcOf t (2 * unit + 1)).testing = true) ∧
        (test = 5 → (cxtOf t unit).linkUp = false))) ∧
  (∀ (errors failUnit test : Nat) (s : State), s.dev.diagBusy = some test → halted s = false →
    ∃ t, exec (.diagDone errors failUnit) s = .next t ∧
      t.dev = { s.dev with diagBusy := none, diagResult := if errors = 0 then 1 else 2, diagErrs := min errors 65535,
                           diagFail := if errors = 0 ∨ test = 5 then 0 else failUnit % 256 } ∧
      bit (rGet t (Reg.DEV_PAGE + 0x18)) 4 = true ∧
      (test = 3 → ∀ a, 2 * s.dev.diagUnit * stopBytes ≤ a → a < 2 * (s.dev.diagUnit + 1) * stopBytes →
        kGet 0 t.mem.dev a = 0 ∧ undefAt t.mem.undef a = none) ∧
      (test = 3 → (hmcOf t (2 * s.dev.diagUnit)).testing = false) ∧ (test = 4 → t.ma.entries = []) ∧
      (test = 2 ∨ test = 5 → t.mem = s.mem)) ∧
  (∀ (w : Writer) (v : W32) (s : State), takes s w Reg.DEV_REL_CMD = true → s.dev.mode = .lockdown → s.dev.fwUp = true → bit v.toNat 0 = true →
    let k := relToken s
    let good := k.take 16 = s.dev.nonce ∧ (k.drop 16).take 16 = serial16 s ∧ Config.signatureGood (k.take 32) (k.drop 32) = true
    (good → ∃ t, exec (.releaseToken w v) s = .next t ∧ t.dev.mode = .bringup ∧ t.ln = {} ∧ t.keys = [] ∧ t.sched = {}) ∧
    (¬good → ∃ t, exec (.releaseToken w v) s = .next t ∧ t.dev.mode = .lockdown ∧ t.dev.relResult = 2 ∧
      t.dev.attempts = min (s.dev.attempts + 1) 255 ∧ t.dev.nonce.length = 16 ∧ t.ln = s.ln ∧ Recorded w Reg.DEV_PAGE s t))

/-- R355, R358 to R360, R386: power estimates and windows, samples of the sensors and what stands because of them, the
Panels' speed indices, and the writes of the Pocket supplies. -/
def Obligations.PowerSensorsAndSupplies : Prop :=
  (∀ (dw : Nat) (s : State), dead s = false → ∃ t, exec (.powerEstimate dw) s = .next t ∧
    t.pwr = { s.pwr with estimates := s.pwr.estimates ++ [dw] } ∧
    kGet 0 t.rf.frame Reg.PWR_SNAP_ENERGY = kGet 0 s.rf.frame Reg.PWR_SNAP_ENERGY + 10 * dw ∧ Only [.rf, .pwr] s t) ∧
  (∀ s : State, dead s = false → s.pwr.estimates ≠ [] →
    let avg := s.pwr.estimates.sum / s.pwr.estimates.length
    ∃ t, exec .powerWindow s = .next t ∧
      t.pwr = { s.pwr with estimates := [], pkg := avg, windows := (avg :: s.pwr.windows).take 10, nWindows := s.pwr.nWindows + 1 } ∧
      rGet t Reg.PWR_PEAK = max (rGet s Reg.PWR_PEAK) (min avg 65535) ∧
      rBit t (Reg.PWR_PAGE + 0x14) 0 = decide (10 * rFld s Reg.PWR_LIMIT 8 0 < avg) ∧ Only [.rf, .pwr, .out] s t) ∧
  (∀ s : State, s.pwr.estimates = [] → exec .powerWindow s = .next s) ∧
  (∀ (temps : List Int) (volts : List Nat) (s : State), dead s = false → temps.length = 48 → volts.length = 12 →
    (∀ x ∈ temps, -32768 ≤ x ∧ x < 32768) → (∀ v ∈ volts, v < 65536) →
    ∃ t, exec (.sensorSample temps volts) s = .next t ∧
      (∀ k, k < 48 → kFind t.pwr.temps k = temps[k]?) ∧ (∀ k, k < 12 → kFind t.pwr.volts k = volts[k]?) ∧
      (∀ x ∈ temps, x ≤ t.pwr.hot) ∧ temps[t.pwr.hotSensor]? = some t.pwr.hot ∧
      ((∃ x ∈ temps, 1552 ≤ x) → t.pwr.warmAt = s.now) ∧
      ((∃ x ∈ temps, 1920 ≤ x) → t.dev.thermtrip = true ∧ dead t = true ∧ t.seam.running = false ∧ t.ldg.stopped = true) ∧
      ((∀ x ∈ temps, x < 1920) → t.dev = s.dev ∧ Only [.rf, .pwr, .out] s t) ∧
      t.pwr.ceilTherm = s.pwr.ceilTherm ∧ t.pwr.current = s.pwr.current) ∧
  (∀ (idx : List Nat) (s : State), s.dev.fwUp = true → halted s = false → idx.length = 32 → (∀ v ∈ idx, v < 4096) →
    ∃ t, exec (.speedIndexRead idx) s = .next t ∧ (∀ n, n < 32 → kFind t.pwr.speeds n = idx[n]?) ∧ Only [.pwr] s t) ∧
  (∀ (d mv : Nat) (s : State), s.dev.fwUp = true → halted s = false →
    let ok := d < 2 ∧ (if d = 0 then s.dev.vreg0 else s.dev.vreg1) = true ∧ 650 ≤ mv ∧ mv ≤ 900 ∧ mv ≤ voutOf s d + 10 ∧ voutOf s d ≤ mv + 10 ∧ ∀ p ∈ s.pwr.voutAt, p.2 + 160000 ≤ s.now
    (ok → ∃ t, exec (.voutCommand d mv) s = .next t ∧ voutOf t d = mv ∧ (∀ e, e ≠ d → voutOf t e = voutOf s e) ∧
      OutMsg.vout d mv ∈ t.out ∧ rGet t (Reg.HLT_VLIM (2 + d)) = (97 * mv + 99) / 100 + 65536 * (103 * mv / 100) ∧
      Only [.rf, .pwr, .out] s t) ∧
    (¬ok → exec (.voutCommand d mv) s = .next s))

/-- R7, R8, R369, R371 to R376: on every page, DISCARD and COMMIT act on the whole pending set, flags latch, clear and
signal, and EN and COMPAT change as the header's rules say; each write is recorded on its page. -/
def Obligations.PageHeaders : Prop :=
  ∀ (w : Writer) (pg i : Nat) (k : PageKind) (s : State), pageOf pg = some (k, i, 0) → takes s w pg = true →
    let flags := rGet s (pg + 0x18)
    let sends := fun (new : Nat) (t : State) =>
      (signals s pg = true ∨ new = 0 → t.out = s.out) ∧
      (∀ n v, signals s pg = false → new ≠ 0 → pageVector s pg = some (n, v) → hasFunction s n = true → v < numVec n →
        (fnCfg s n).msixEn = true →
        (if (fnCfg s n).msixMask = true ∨ vecMasked s n v = true then t.out = s.out ∧ rBit t (msixPba n v) (v % 32) = true
         else t.out = s.out ++ [.msix n v]))
    (∃ t, exec (.stageDiscard w pg) s = .next t ∧ Recorded w pg s t ∧ OnlyRegs (writeWords pg) s t ∧ Only [.rf] s t ∧
      t.rf.await = s.rf.await ∧
      t.rf.pend = (if bit (k.caps i) 0 then s.rf.pend.filter (fun p => !inCommit k pg p.1) else s.rf.pend)) ∧
    (bit (k.caps i) 0 = false → ∃ t, exec (.stageCommit w pg) s = .next t ∧ Recorded w pg s t ∧ OnlyRegs (writeWords pg) s t ∧
      Only [.rf] s t ∧ t.rf.pend = s.rf.pend ∧ t.rf.await = s.rf.await) ∧
    (bit (k.caps i) 0 = true → k ≠ .ks →
      (∀ c, commitBad k i s = some c → ∃ t, exec (.stageCommit w pg) s = .next t ∧ t.rf.pend = s.rf.pend ∧ t.rf.await = s.rf.await ∧
        ErrorLeft (if k = .nocStop then Reg.NOC_PAGE else pg) c 0 s t ∧ Recorded w pg s t ∧ Only [.rf] s t) ∧
      (commitBad k i s = none → (s.rf.pend.map (·.1)).Nodup → ∃ t, exec (.stageCommit w pg) s = .next t ∧ Recorded w pg s t ∧
        t.rf.pend = s.rf.pend.filter (fun p => !inCommit k pg p.1) ∧
        (∀ a v, kFind s.rf.pend a = some v → inCommit k pg a = true →
          ((rowMasks a).seam = 0 → (rowMasks a).st ≠ 0 → (rowMasks a).st < 2 ^ 32 →
            rGet t a = mixBits (rowMasks a).st (rGet s a) v.toNat % 2 ^ 32) ∧
          ((rowMasks a).seam ≠ 0 → (rowMasks a).st = (rowMasks a).seam → (rowMasks a).st < 2 ^ 32 → rGet t a = rGet s a ∧
            kFind t.rf.await a = some (BitVec.ofNat 32 (mixBits (rowMasks a).seam (rGet s a) v.toNat)))) ∧
        (∀ a, kFind s.rf.pend a = none ∨ inCommit k pg a = false → kFind t.rf.await a = kFind s.rf.await a))) ∧
    (∀ v : W32,
      (∃ t, exec (.irqFlagClear w pg v) s = .next t ∧ Recorded w pg s t ∧ Only [.rf] s t ∧
        OnlyRegs ((pg + 0x18) :: writeWords pg) s t ∧
        rGet t (pg + 0x18) = if pageCompat s pg ∧ k ≠ .instLdg then flags else flags &&& (0xFFFFFFFF - v.toNat)) ∧
      (∃ t, exec (.irqForce w pg v) s = .next t ∧ Recorded w pg s t ∧ Only [.rf, .out] s t ∧
        rGet t (pg + 0x18) = (flags ||| v.toNat) % 2 ^ 32 ∧ sends ((flags ||| v.toNat) % 2 ^ 32 &&& rGet s (pg + 0x10)) t) ∧
      (∃ t, exec (.irqEnableWrite w pg v) s = .next t ∧ Recorded w pg s t ∧ Only [.rf, .out] s t ∧ rGet t (pg + 0x10) = v.toNat ∧
        rGet t (pg + 0x18) = flags ∧ sends (flags &&& v.toNat) t) ∧
      (∃ t, exec (.blockCtrlWrite w pg v) s = .next t ∧ Recorded w pg s t ∧ Only [.rf] s t ∧ pageEn t pg = bit v.toNat 0 ∧
        (pageEn s pg = true → pageCompat t pg = pageCompat s pg) ∧
        (k ≠ .instRing → pageEn s pg = false → pageCompat t pg = bit v.toNat 1 ∧ OnlyRegs ((pg + 8) :: writeWords pg) s t) ∧
        (k = .instRing → bit v.toNat 1 ≠ pageCompat s pg → ringsOff s i = false → pageCompat t pg = pageCompat s pg ∧
          ErrorLeft pg 4 0 s t)))

/-- R332, R354, R364 to R368, R372, R376, R377: where writes of registers act, where they are recorded only and where they
are ignored; a staged field keeps its value in effect; and reads clear an RC field through a host port and never through
I3C. -/
def Obligations.RegisterAccesses : Prop :=
  (∀ (w : Writer) (a : Nat) (v : W32) (s : State), dead s = true ∨ a % 4 ≠ 0 ∨ w.enables ≠ 15 →
    exec (.registerWrite w a v) s = .next s) ∧
  (∀ (w : Writer) (a i o : Nat) (k : PageKind) (v : W32) (s : State), dead s = false → a % 4 = 0 → pageOf a = some (k, i, o) →
    (reaches s w.path w.fn a = false → exec (.registerWrite w a v) s = .next s) ∧
    (reaches s w.path w.fn a = true → w.enables = 15 → modeTakes s w.path k = false → (k = .hmc → o ≠ 0x84 ∧ o ≠ 0x88) →
      ∃ t, exec (.registerWrite w a v) s = .next t ∧ Only [.rf] s t ∧
        OnlyRegs (writeWords (pageBase a) ++ [Reg.HIF_EARLY_WR 0, Reg.HIF_EARLY_WR 1]) s t ∧ Recorded w (pageBase a) s t ∧
        (s.dev.mode = .bringup → w.path = .portA → rGet t (Reg.HIF_EARLY_WR 0) = (rGet s (Reg.HIF_EARLY_WR 0) + 1) % 2 ^ 32)) ∧
    (takes s w a = true → o ∈ [0x00, 0x04, 0x0C, 0x14, 0x20, 0x24, 0x28, 0x2C, 0x34, 0x38, 0x3C] →
      ∃ t, exec (.registerWrite w a v) s = .next t ∧ Only [.rf] s t ∧ OnlyRegs (writeWords (pageBase a)) s t ∧
        Recorded w (pageBase a) s t)) ∧
  (∀ (w : Writer) (a : Nat) (v : W32) (s : State), takes s w a = true →
    a ∈ [Reg.SCHED_SAVE_BASE_LO, Reg.SCHED_SAVE_BASE_HI, Reg.SCHED_TRACE_BASE_LO, Reg.SCHED_TRACE_BASE_HI, Reg.SCHED_TRACE_SIZE,
          Reg.PWR_CLOCK, Reg.DEV_FW_ADDR_LO, Reg.DEV_FW_ADDR_HI, Reg.DEV_FW_LEN] →
    ∃ t, exec (.registerWrite w a v) s = .next t ∧ Only [.rf] s t ∧ OnlyRegs (writeWords (pageBase a)) s t ∧
      Recorded w (pageBase a) s t ∧ stagePending t (pageBase a) = true ∧
      shadowWord t a &&& (rowMasks a).st = v.toNat &&& (rowMasks a).st ∧ (∀ b, b ≠ a → shadowWord t b = shadowWord s b ∨ b ∈ writeWords (pageBase a))) ∧
  (∀ (p : Path) (pg i : Nat) (k : PageKind) (s : State), dead s = false → pageOf pg = some (k, i, 0) → reaches s p 0 pg = true →
    ∃ t, exec (.counterRead p (pg + 0x2C)) s = .next t ∧ t.out = s.out ++ [.word (BitVec.ofNat 32 (rGet s (pg + 0x2C)))] ∧
      OnlyRegs [pg + 0x2C] s t ∧ Only [.rf, .out] s t ∧ rGet t (pg + 0x2C) = if p = .i3c then rGet s (pg + 0x2C) else 0) ∧
  (∀ (p : Path) (a : Nat) (s : State), dead s = true → exec (.counterRead p a) s = .next s) ∧
  (∀ (p : Path) (a n : Nat) (s : State), dead s = false → a < 2 ^ 32 → 1 ≤ n →
    let r := exec (.counterRead p (a + n * 2 ^ 32)) s
    (8 < a % 8 + n → r = .next { s with out := s.out ++ [.word 0] }) ∧
    (a % 4 + n ≤ 4 → r = exec (.counterRead p (a / 4 * 4)) s) ∧
    (4 < a % 4 + n → a % 8 + n ≤ 8 → ∀ u t, exec (.counterRead p (a / 8 * 8)) s = .next u → dead u = false →
      exec (.counterRead p (a / 8 * 8 + 4)) u = .next t → r = .next t)) ∧
  (∀ (p : Path) (a : Nat) (s : State), dead s = false → a < 0x1000000 → pageOf a = none → ¬(0x20000 ≤ a ∧ a < 0x26000) →
    exec (.counterRead p a) s = .next { s with out := s.out ++ [.word 0] }) ∧
  (∀ (w : Writer) (a : Nat) (v : W32) (s : State), s.dev.mode = .lockdown → w.path ≠ .i3c →
    ∃ t pg, exec (.registerWrite w a v) s = .next t ∧ Only [.rf] s t ∧ OnlyRegs (writeWords pg) s t)
end

