-- ==== Sys2Proof/Laws/Maps.lean ====
section
/-! SUPPORT. Laws of the maps: what a lookup finds after a change, and that changes keep the canonical form. -/

namespace Sys2Proof.Machine

variable {α : Type}

/-! ### Lookups -/

@[simp] theorem kFind_nil (n : Nat) : kFind ([] : KMap α) n = none := rfl

theorem kFind_kSet (m : KMap α) (n j : Nat) (a : α) : kFind (kSet m n a) j = if n = j then some a else kFind m j := by
  induction m with
  | nil => simp [kSet, kFind]
  | cons p m ih =>
    obtain ⟨k, v⟩ := p
    simp only [kSet]
    split
    · simp [kFind]
    · split
      · subst_vars; simp only [kFind]; split <;> simp_all
      · simp only [kFind, ih]; split <;> simp_all

@[simp] theorem kFind_kSet_self (m : KMap α) (n : Nat) (a : α) : kFind (kSet m n a) n = some a := by simp [kFind_kSet]

theorem kFind_kSet_ne {m : KMap α} {n j : Nat} {a : α} (h : n ≠ j) : kFind (kSet m n a) j = kFind m j := by
  simp [kFind_kSet, h]

theorem kFind_kDel (m : KMap α) (n j : Nat) : kFind (kDel m n) j = if n = j then none else kFind m j := by
  induction m with
  | nil => simp [kDel, kFind]
  | cons p m ih =>
    obtain ⟨k, v⟩ := p
    simp only [kDel]
    split
    · subst_vars; rw [ih]; split <;> simp_all [kFind]
    · simp only [kFind, ih]; split <;> split <;> simp_all

theorem kGet_kSet (d : α) (m : KMap α) (n j : Nat) (a : α) : kGet d (kSet m n a) j = if n = j then a else kGet d m j := by
  unfold kGet; rw [kFind_kSet]; split <;> rfl

@[simp] theorem kGet_kSet_self (d : α) (m : KMap α) (n : Nat) (a : α) : kGet d (kSet m n a) n = a := by simp [kGet_kSet]

theorem kGet_kDel (d : α) (m : KMap α) (n j : Nat) : kGet d (kDel m n) j = if n = j then d else kGet d m j := by
  unfold kGet; rw [kFind_kDel]; split <;> rfl

theorem kGet_kPut [DecidableEq α] (d : α) (m : KMap α) (n j : Nat) (a : α) :
    kGet d (kPut d m n a) j = if n = j then a else kGet d m j := by
  unfold kPut; split
  · rw [kGet_kDel]; split <;> simp_all
  · rw [kGet_kSet]

@[simp] theorem kGet_kPut_self [DecidableEq α] (d : α) (m : KMap α) (n : Nat) (a : α) : kGet d (kPut d m n a) n = a := by
  simp [kGet_kPut]

/-! ### Canonical form -/

/-- Keys strictly rising. -/
abbrev rising (m : KMap α) : Prop := m.Pairwise fun a b => a.1 < b.1

theorem mem_kSet {m : KMap α} {n : Nat} {a : α} {p : Nat × α} (h : p ∈ kSet m n a) : p = (n, a) ∨ p ∈ m := by
  induction m with
  | nil => simp [kSet] at h; exact .inl h
  | cons q m ih =>
    obtain ⟨k, v⟩ := q
    simp only [kSet] at h
    split at h
    · simpa using h
    · split at h
      · simp at h
        rcases h with h | h
        · exact .inl h
        · exact .inr (List.mem_cons_of_mem _ h)
      · rcases List.mem_cons.mp h with h | h
        · exact .inr (by simp [h])
        · rcases ih h with h | h
          · exact .inl h
          · exact .inr (List.mem_cons_of_mem _ h)

theorem rising_kSet {m : KMap α} (n : Nat) (a : α) (h : rising m) : rising (kSet m n a) := by
  induction m with
  | nil => simp [kSet]
  | cons q m ih =>
    obtain ⟨k, v⟩ := q
    simp only [rising, List.pairwise_cons] at h
    simp only [kSet]
    split
    · simp only [rising, List.pairwise_cons]
      refine ⟨fun p hp => ?_, h⟩
      simp at hp; rcases hp with rfl | hp
      · assumption
      · exact Nat.lt_trans ‹_› (h.1 p hp)
    · split
      · subst_vars; simp only [rising, List.pairwise_cons]; exact h
      · simp only [rising, List.pairwise_cons]
        refine ⟨fun p hp => ?_, ih h.2⟩
        rcases mem_kSet hp with rfl | hp
        · show k < n; omega
        · exact h.1 p hp

theorem kDel_sublist (m : KMap α) (n : Nat) : (kDel m n).Sublist m := by
  induction m with
  | nil => simp [kDel]
  | cons p m ih =>
    obtain ⟨k, v⟩ := p
    simp only [kDel]
    split
    · exact ih.cons _
    · exact ih.cons_cons _

/-- The empty memory is in canonical form. -/
theorem Memory.wf_nil : Memory.wf [] := ⟨.nil, by simp⟩

/-- Setting a byte keeps a memory's canonical form. -/
theorem Memory.wf_kPut {m : List Host.Cell} (a : Nat) (b : Byte) (h : Memory.wf m) : Memory.wf (kPut 0 m a b) := by
  unfold kPut
  split
  · exact ⟨h.1.sublist (kDel_sublist _ _), fun c hc => h.2 c ((kDel_sublist _ _).subset hc)⟩
  · refine ⟨rising_kSet _ _ h.1, fun c hc => ?_⟩
    rcases mem_kSet hc with rfl | hc
    · assumption
    · exact h.2 c hc

/-- Writing bytes keeps a memory's canonical form. -/
theorem Memory.wf_putBytes {bs : List Byte} : ∀ {m : List Host.Cell} (a : Nat), Memory.wf m → Memory.wf (putBytes m a bs) := by
  induction bs with
  | nil => intro m a h; exact h
  | cons b bs ih => intro m a h; exact ih _ (Memory.wf_kPut a b h)

/-- Leaving cells out keeps a memory's canonical form. -/
theorem Memory.wf_filter {m : List Host.Cell} (f : Host.Cell → Bool) (h : Memory.wf m) : Memory.wf (m.filter f) :=
  ⟨h.1.sublist List.filter_sublist, fun c hc => h.2 c ((List.mem_filter.mp hc).1)⟩

end Sys2Proof.Machine
end

