-- ==== Sys2Proof/Laws/Keeps.lean ====
section
/-! SUPPORT. What no command undoes: the queue of waiting commands stays as it is, what has left the part stays, time and the
count of used free values do not fall, the memories keep their canonical form, and the fuses are never unprogrammed; and
what each command leaves as it is. `Keeps` says it of two states; the lemmas `keeps_f` say it of one function each. -/

namespace Sys2Proof.Machine

theorem DevSt.fuseKept_of {a b : DevSt} (h : a.fuseLc ≤ b.fuseLc) (g : b.fuseSplit = a.fuseSplit) : DevSt.fuseKept a b := ⟨h, g⟩

theorem DevSt.fuseKept_refl (a : DevSt) : DevSt.fuseKept a a := ⟨Nat.le_refl _, rfl⟩

variable {L : Comp → Prop}

theorem Comp.same_refl (c : Comp) (s : State) : c.same s s := by cases c <;> rfl

theorem Comp.same_trans {c : Comp} {r s t : State} (h : c.same r s) (g : c.same s t) : c.same r t := by
  cases c <;> exact Eq.trans g h

theorem Keeps.refl (s : State) : Keeps L s s :=
  ⟨rfl, List.prefix_rfl, Nat.le_refl _, Nat.le_refl _, id, DevSt.fuseKept_refl _, fun c => .inl (c.same_refl s)⟩

theorem Keeps.trans {a b c : State} (h : Keeps L a b) (g : Keeps L b c) : Keeps L a c :=
  ⟨g.1.trans h.1, h.2.trans g.2, Nat.le_trans h.3 g.3, Nat.le_trans h.4 g.4, g.5 ∘ h.5,
    ⟨Nat.le_trans h.6.1 g.6.1, g.6.2.trans h.6.2⟩, fun c => (h.7 c).elim (fun x => (g.7 c).imp (Comp.same_trans x) id) .inr⟩

variable {r t : State}

/-- `Keeps` of a state, under a name that is not the structure's. -/
def KeepsF (L : Comp → Prop) (r t : State) : Prop := Keeps L r t

/-- `Keeps` of a state written out field by field. -/
theorem keeps_mk {now' freeCtr' rf' seam' sched' pat' rings' xl' hmc' cxt' mem' noc' bm' portA' portB' i3c' dev' pwr' cyc16' pkt' packs' scans' opers' ma' dg' keys' ln' ldg' out' pending'} :
    Keeps L r (State.mk now' freeCtr' rf' seam' sched' pat' rings' xl' hmc' cxt' mem' noc' bm' portA' portB' i3c' dev' pwr' cyc16' pkt' packs' scans' opers' ma' dg' keys' ln' ldg' out' pending') ↔
      KeepsF L r (State.mk now' freeCtr' rf' seam' sched' pat' rings' xl' hmc' cxt' mem' noc' bm' portA' portB' i3c' dev' pwr' cyc16' pkt' packs' scans' opers' ma' dg' keys' ln' ldg' out' pending') := Iff.rfl

/-- A change of some components of a state. -/
theorem KeepsF.upd {now' freeCtr' rf' seam' sched' pat' rings' xl' hmc' cxt' mem' noc' bm' portA' portB' i3c' dev' pwr' cyc16' pkt' packs' scans' opers' ma' dg' keys' ln' ldg' out'} (h : Keeps L r t) (hn : t.now ≤ now')
    (hf : t.freeCtr ≤ freeCtr') (hm : t.mem.ok → mem'.ok) (ho : t.out <+: out') (hd : DevSt.fuseKept t.dev dev')
    (e_now : now' = t.now ∨ L .now := by first | exact .inl rfl | exact .inr (by assumption))
    (e_freeCtr : freeCtr' = t.freeCtr ∨ L .freeCtr := by first | exact .inl rfl | exact .inr (by assumption))
    (e_rf : rf' = t.rf ∨ L .rf := by first | exact .inl rfl | exact .inr (by assumption))
    (e_seam : seam' = t.seam ∨ L .seam := by first | exact .inl rfl | exact .inr (by assumption))
    (e_sched : sched' = t.sched ∨ L .sched := by first | exact .inl rfl | exact .inr (by assumption))
    (e_pat : pat' = t.pat ∨ L .pat := by first | exact .inl rfl | exact .inr (by assumption))
    (e_rings : rings' = t.rings ∨ L .rings := by first | exact .inl rfl | exact .inr (by assumption))
    (e_xl : xl' = t.xl ∨ L .xl := by first | exact .inl rfl | exact .inr (by assumption))
    (e_hmc : hmc' = t.hmc ∨ L .hmc := by first | exact .inl rfl | exact .inr (by assumption))
    (e_cxt : cxt' = t.cxt ∨ L .cxt := by first | exact .inl rfl | exact .inr (by assumption))
    (e_mem : mem' = t.mem ∨ L .mem := by first | exact .inl rfl | exact .inr (by assumption))
    (e_noc : noc' = t.noc ∨ L .noc := by first | exact .inl rfl | exact .inr (by assumption))
    (e_bm : bm' = t.bm ∨ L .bm := by first | exact .inl rfl | exact .inr (by assumption))
    (e_portA : portA' = t.portA ∨ L .portA := by first | exact .inl rfl | exact .inr (by assumption))
    (e_portB : portB' = t.portB ∨ L .portB := by first | exact .inl rfl | exact .inr (by assumption))
    (e_i3c : i3c' = t.i3c ∨ L .i3c := by first | exact .inl rfl | exact .inr (by assumption))
    (e_dev : dev' = t.dev ∨ L .dev := by first | exact .inl rfl | exact .inr (by assumption))
    (e_pwr : pwr' = t.pwr ∨ L .pwr := by first | exact .inl rfl | exact .inr (by assumption))
    (e_cyc16 : cyc16' = t.cyc16 ∨ L .cyc16 := by first | exact .inl rfl | exact .inr (by assumption))
    (e_pkt : pkt' = t.pkt ∨ L .pkt := by first | exact .inl rfl | exact .inr (by assumption))
    (e_packs : packs' = t.packs ∨ L .packs := by first | exact .inl rfl | exact .inr (by assumption))
    (e_scans : scans' = t.scans ∨ L .scans := by first | exact .inl rfl | exact .inr (by assumption))
    (e_opers : opers' = t.opers ∨ L .opers := by first | exact .inl rfl | exact .inr (by assumption))
    (e_ma : ma' = t.ma ∨ L .ma := by first | exact .inl rfl | exact .inr (by assumption))
    (e_dg : dg' = t.dg ∨ L .dg := by first | exact .inl rfl | exact .inr (by assumption))
    (e_keys : keys' = t.keys ∨ L .keys := by first | exact .inl rfl | exact .inr (by assumption))
    (e_ln : ln' = t.ln ∨ L .ln := by first | exact .inl rfl | exact .inr (by assumption))
    (e_ldg : ldg' = t.ldg ∨ L .ldg := by first | exact .inl rfl | exact .inr (by assumption))
    (e_out : out' = t.out ∨ L .out := by first | exact .inl rfl | exact .inr (by assumption))
    : KeepsF L r (State.mk now' freeCtr' rf' seam' sched' pat' rings' xl' hmc' cxt' mem' noc' bm' portA' portB' i3c' dev' pwr' cyc16' pkt' packs' scans' opers' ma' dg' keys' ln' ldg' out' t.pending) :=
  ⟨h.1, h.2.trans ho, Nat.le_trans h.3 hn, Nat.le_trans h.4 hf, hm ∘ h.5, ⟨Nat.le_trans h.6.1 hd.1, hd.2.trans h.6.2⟩, fun c =>
    match c, h.7 c with
    | _, .inr l => .inr l
    | .now, .inl x => e_now.imp (·.trans x) id
    | .freeCtr, .inl x => e_freeCtr.imp (·.trans x) id
    | .rf, .inl x => e_rf.imp (·.trans x) id
    | .seam, .inl x => e_seam.imp (·.trans x) id
    | .sched, .inl x => e_sched.imp (·.trans x) id
    | .pat, .inl x => e_pat.imp (·.trans x) id
    | .rings, .inl x => e_rings.imp (·.trans x) id
    | .xl, .inl x => e_xl.imp (·.trans x) id
    | .hmc, .inl x => e_hmc.imp (·.trans x) id
    | .cxt, .inl x => e_cxt.imp (·.trans x) id
    | .mem, .inl x => e_mem.imp (·.trans x) id
    | .noc, .inl x => e_noc.imp (·.trans x) id
    | .bm, .inl x => e_bm.imp (·.trans x) id
    | .portA, .inl x => e_portA.imp (·.trans x) id
    | .portB, .inl x => e_portB.imp (·.trans x) id
    | .i3c, .inl x => e_i3c.imp (·.trans x) id
    | .dev, .inl x => e_dev.imp (·.trans x) id
    | .pwr, .inl x => e_pwr.imp (·.trans x) id
    | .cyc16, .inl x => e_cyc16.imp (·.trans x) id
    | .pkt, .inl x => e_pkt.imp (·.trans x) id
    | .packs, .inl x => e_packs.imp (·.trans x) id
    | .scans, .inl x => e_scans.imp (·.trans x) id
    | .opers, .inl x => e_opers.imp (·.trans x) id
    | .ma, .inl x => e_ma.imp (·.trans x) id
    | .dg, .inl x => e_dg.imp (·.trans x) id
    | .keys, .inl x => e_keys.imp (·.trans x) id
    | .ln, .inl x => e_ln.imp (·.trans x) id
    | .ldg, .inl x => e_ldg.imp (·.trans x) id
    | .out, .inl x => e_out.imp (·.trans x) id⟩

theorem Keeps.same {s : State} (h : Keeps L r s) : Keeps L r (id s) := h

theorem Keeps.ite {c : Prop} [Decidable c] {a b : State} (ha : Keeps L r a) (hb : Keeps L r b) : Keeps L r (if c then a else b) := by
  split <;> assumption

theorem Keeps.ite1 {β : Type} {c : Prop} [Decidable c] {a b : State × β} (ha : Keeps L r a.1) (hb : Keeps L r b.1) :
    Keeps L r (if c then a else b).1 := by
  split <;> assumption

theorem Keeps.ite2 {β : Type} {c : Prop} [Decidable c] {a b : β × State} (ha : Keeps L r a.2) (hb : Keeps L r b.2) :
    Keeps L r (if c then a else b).2 := by
  split <;> assumption

theorem Keeps.ite11 {β γ : Type} {c : Prop} [Decidable c] {a b : (State × β) × γ} (ha : Keeps L r a.1.1) (hb : Keeps L r b.1.1) :
    Keeps L r (if c then a else b).1.1 := by
  split <;> assumption

theorem Keeps.foldl {β : Type} {l : List β} {F : State → β → State} {s : State} (hF : ∀ t p, Keeps L r t → Keeps L r (F t p))
    (h : Keeps L r s) : Keeps L r (l.foldl F s) := by
  induction l generalizing s with
  | nil => exact h
  | cons a l ih => exact ih (hF _ _ h)

theorem Keeps.foldl_fst {β γ : Type} {l : List β} {F : State × γ → β → State × γ} {q : State × γ}
    (hF : ∀ t p, Keeps L r t.1 → Keeps L r (F t p).1) (h : Keeps L r q.1) : Keeps L r (l.foldl F q).1 := by
  induction l generalizing q with
  | nil => exact h
  | cons a l ih => exact ih (hF _ _ h)

theorem Keeps.foldl_snd {β γ : Type} {l : List β} {F : γ × State → β → γ × State} {q : γ × State}
    (hF : ∀ t p, Keeps L r t.2 → Keeps L r (F t p).2) (h : Keeps L r q.2) : Keeps L r (l.foldl F q).2 := by
  induction l generalizing q with
  | nil => exact h
  | cons a l ih => exact ih (hF _ _ h)

theorem Keeps.foldl_fst2 {β γ δ : Type} {l : List β} {F : (State × γ) × δ → β → (State × γ) × δ} {q : (State × γ) × δ}
    (hF : ∀ t p, Keeps L r t.1.1 → Keeps L r (F t p).1.1) (h : Keeps L r q.1.1) : Keeps L r (l.foldl F q).1.1 := by
  induction l generalizing q with
  | nil => exact h
  | cons a l ih => exact ih (hF _ _ h)

theorem Keeps.cut {v u : State} (h : Keeps L r v) (g : Keeps L r v → Keeps L r u) : Keeps L r u := g h

theorem Keeps.of_eq1 {β : Type} {p : State × β} {t : State} {b : β} (e : p = (t, b)) (h : Keeps L r p.1) : Keeps L r t := by
  subst e; exact h

theorem Keeps.of_eq2 {β : Type} {p : β × State} {t : State} {b : β} (e : p = (b, t)) (h : Keeps L r p.2) : Keeps L r t := by
  subst e; exact h

theorem Keeps.of_eq11 {β γ : Type} {p : (State × β) × γ} {t : State} {b : β} {c : γ} (e : p = ((t, b), c))
    (h : Keeps L r p.1.1) : Keeps L r t := by
  subst e; exact h

theorem keeps_forN {n : Nat} {s : State} {f : Nat → State → State} (hf : ∀ i t, Keeps L r t → Keeps L r (f i t)) (h : Keeps L r s) :
    Keeps L r (forN n s f) := Keeps.foldl (fun t p ht => hf p t ht) h

end Sys2Proof.Machine
end

