-- ==== Sys2Proof/Laws/KeepsOps.lean ====
section
/-! SUPPORT. `Keeps` of the functions of Machine/Ops.lean. -/

namespace Sys2Proof.Machine

set_option linter.all false
set_option Elab.async false

variable {r0 : State} {L : Comp → Prop}

theorem keeps_hostWrite (i a : Nat) (bs : List Byte) (s : State) (h : Keeps L r0 s) (l_mem : L .mem := by assumption) : Keeps L r0 (hostWrite i a bs s) := by
  unfold hostWrite
  split
  · exact h
  · exact keeps_mk.mpr <| .upd h (Nat.le_refl _) (Nat.le_refl _) (fun m => ⟨m.1, Memory.wf_putBytes _ m.2.1, m.2.2⟩) List.prefix_rfl (DevSt.fuseKept_refl _)

theorem keeps_emit (m : OutMsg) (s : State) (h : Keeps L r0 s) (l_out : L .out := by assumption) : Keeps L r0 (emit m s) :=
  keeps_mk.mpr <| .upd h (Nat.le_refl _) (Nat.le_refl _) id (List.prefix_append _ _) (DevSt.fuseKept_refl _)

theorem keeps_takeFree (s : State) (h : Keeps L r0 s) (l_freeCtr : L .freeCtr := by assumption) : Keeps L r0 (takeFree s).2 :=
  keeps_mk.mpr <| .upd h (Nat.le_refl _) (Nat.le_succ _) id List.prefix_rfl (DevSt.fuseKept_refl _)

theorem keeps_wqForget (a n : Nat) (s : State) (h : Keeps L r0 s) (l_hmc : L .hmc := by assumption) : Keeps L r0 (wqForget a n s) :=
  keeps_mk.mpr <| .upd h (Nat.le_refl _) (Nat.le_refl _) id List.prefix_rfl (DevSt.fuseKept_refl _)

theorem keeps_makeUndef (a n : Nat) (s : State) (h : Keeps L r0 s) (l_freeCtr : L .freeCtr := by assumption) (l_hmc : L .hmc := by assumption) (l_mem : L .mem := by assumption) : Keeps L r0 (makeUndef a n s) := by
  unfold makeUndef
  split
  · exact h
  · exact keeps_mk.mpr <| .upd (keeps_wqForget a n s h) (Nat.le_refl _) (Nat.le_succ _) id List.prefix_rfl (DevSt.fuseKept_refl _)

theorem keeps_makeHostUndef (a n : Nat) (s : State) (h : Keeps L r0 s) (l_freeCtr : L .freeCtr := by assumption) (l_mem : L .mem := by assumption) : Keeps L r0 (makeHostUndef a n s) := by
  unfold makeHostUndef
  split
  · exact h
  · exact keeps_mk.mpr <| .upd h (Nat.le_refl _) (Nat.le_succ _) id List.prefix_rfl (DevSt.fuseKept_refl _)

theorem keeps_setCell (a : Nat) (b : Byte) (s : State) (h : Keeps L r0 s) (l_mem : L .mem := by assumption) : Keeps L r0 (setCell a b s) :=
  keeps_mk.mpr <| .upd h (Nat.le_refl _) (Nat.le_refl _) (fun m => ⟨Memory.wf_kPut _ _ m.1, m.2⟩) List.prefix_rfl (DevSt.fuseKept_refl _)

theorem keeps_setHmc (n : Nat) (x : HmcSt) (s : State) (h : Keeps L r0 s) (l_hmc : L .hmc := by assumption) : Keeps L r0 (setHmc n x s) :=
  keeps_mk.mpr <| .upd h (Nat.le_refl _) (Nat.le_refl _) id List.prefix_rfl (DevSt.fuseKept_refl _)

theorem keeps_setTask (n : Nat) (x : TaskRec) (s : State) (h : Keeps L r0 s) (l_sched : L .sched := by assumption) : Keeps L r0 (setTask n x s) :=
  keeps_mk.mpr <| .upd h (Nat.le_refl _) (Nat.le_refl _) id List.prefix_rfl (DevSt.fuseKept_refl _)

theorem keeps_setByte (a : Nat) (b : Byte) (s : State) (h : Keeps L r0 s) (l_sched : L .sched := by assumption) (l_hmc : L .hmc := by assumption) (l_mem : L .mem := by assumption) : Keeps L r0 (setByte a b s) := by
  unfold setByte
  split
  · split
    · exact keeps_setHmc _ _ _ h
    · exact keeps_setCell _ _ _ h
  · split
    · exact keeps_setTask _ _ _ h
    · exact keeps_setCell _ _ _ h
  · exact keeps_mk.mpr <| .upd h (Nat.le_refl _) (Nat.le_refl _) (fun m => ⟨m.1, m.2.1, Memory.wf_kPut _ _ m.2.2⟩) List.prefix_rfl (DevSt.fuseKept_refl _)
  · exact keeps_setCell _ _ _ h

theorem keeps_setBytes (a : Nat) (bs : List Byte) (s : State) (h : Keeps L r0 s) (l_sched : L .sched := by assumption) (l_hmc : L .hmc := by assumption) (l_mem : L .mem := by assumption) : Keeps L r0 (setBytes a bs s) := by
  induction bs generalizing a s with
  | nil => exact h
  | cons b bs ih => exact ih _ _ (keeps_setByte _ _ _ h)

theorem keeps_rSet (a v : Nat) (s : State) (h_s : Keeps L r0 s) (l_rf : L .rf := by assumption) :
    Keeps L r0 (rSet a v s) := by
  unfold rSet
  repeat' first
    | with_reducible assumption
    | with_reducible exact Or.inl rfl | with_reducible exact Or.inr (by assumption)
    | with_reducible exact Nat.le_refl _ | with_reducible exact List.prefix_rfl | exact id | exact Nat.le_add_right _ _ | exact DevSt.fuseKept_of (Nat.le_refl _) rfl
    | intro _
    | (extract_lets +onlyGivenNames x; refine Keeps.cut (v := x) ?_ ?_; rotate_left; intro hx; clear_value x; rotate_left; subst x)
    | (extract_lets +onlyGivenNames x; subst x)
    | with_reducible apply Keeps.ite | with_reducible apply Keeps.ite1 | with_reducible apply Keeps.ite2 | with_reducible apply Keeps.ite11
    | split
    | (refine Keeps.of_eq1 (by with_reducible assumption) ?_)
    | (refine Keeps.of_eq2 (by with_reducible assumption) ?_)
    | (refine Keeps.of_eq11 (by with_reducible assumption) ?_)
    | (simp -zeta only [keeps_mk]; with_reducible apply KeepsF.upd)
    | dsimp -zeta only

theorem keeps_rSetFld (a hi lo v : Nat) (s : State) (h_s : Keeps L r0 s) (l_rf : L .rf := by assumption) :
    Keeps L r0 (rSetFld a hi lo v s) := by
  unfold rSetFld
  repeat' first
    | with_reducible assumption
    | with_reducible exact Or.inl rfl | with_reducible exact Or.inr (by assumption)
    | with_reducible exact Nat.le_refl _ | with_reducible exact List.prefix_rfl | exact id | exact Nat.le_add_right _ _ | exact DevSt.fuseKept_of (Nat.le_refl _) rfl
    | with_reducible apply keeps_rSet
    | intro _
    | (extract_lets +onlyGivenNames x; refine Keeps.cut (v := x) ?_ ?_; rotate_left; intro hx; clear_value x; rotate_left; subst x)
    | (extract_lets +onlyGivenNames x; subst x)
    | with_reducible apply Keeps.ite | with_reducible apply Keeps.ite1 | with_reducible apply Keeps.ite2 | with_reducible apply Keeps.ite11
    | split
    | (refine Keeps.of_eq1 (by with_reducible assumption) ?_)
    | (refine Keeps.of_eq2 (by with_reducible assumption) ?_)
    | (refine Keeps.of_eq11 (by with_reducible assumption) ?_)
    | (simp -zeta only [keeps_mk]; with_reducible apply KeepsF.upd)
    | dsimp -zeta only

theorem keeps_bump (a n : Nat) (s : State) (h_s : Keeps L r0 s) (l_rf : L .rf := by assumption) :
    Keeps L r0 (bump a n s) := by
  unfold bump
  repeat' first
    | with_reducible assumption
    | with_reducible exact Or.inl rfl | with_reducible exact Or.inr (by assumption)
    | with_reducible exact Nat.le_refl _ | with_reducible exact List.prefix_rfl | exact id | exact Nat.le_add_right _ _ | exact DevSt.fuseKept_of (Nat.le_refl _) rfl
    | with_reducible apply keeps_rSet
    | intro _
    | (extract_lets +onlyGivenNames x; refine Keeps.cut (v := x) ?_ ?_; rotate_left; intro hx; clear_value x; rotate_left; subst x)
    | (extract_lets +onlyGivenNames x; subst x)
    | with_reducible apply Keeps.ite | with_reducible apply Keeps.ite1 | with_reducible apply Keeps.ite2 | with_reducible apply Keeps.ite11
    | split
    | (refine Keeps.of_eq1 (by with_reducible assumption) ?_)
    | (refine Keeps.of_eq2 (by with_reducible assumption) ?_)
    | (refine Keeps.of_eq11 (by with_reducible assumption) ?_)
    | (simp -zeta only [keeps_mk]; with_reducible apply KeepsF.upd)
    | dsimp -zeta only

theorem keeps_bumpSat (a hi lo n : Nat) (s : State) (h_s : Keeps L r0 s) (l_rf : L .rf := by assumption) :
    Keeps L r0 (bumpSat a hi lo n s) := by
  unfold bumpSat
  repeat' first
    | with_reducible assumption
    | with_reducible exact Or.inl rfl | with_reducible exact Or.inr (by assumption)
    | with_reducible exact Nat.le_refl _ | with_reducible exact List.prefix_rfl | exact id | exact Nat.le_add_right _ _ | exact DevSt.fuseKept_of (Nat.le_refl _) rfl
    | with_reducible apply keeps_rSetFld
    | intro _
    | (extract_lets +onlyGivenNames x; refine Keeps.cut (v := x) ?_ ?_; rotate_left; intro hx; clear_value x; rotate_left; subst x)
    | (extract_lets +onlyGivenNames x; subst x)
    | with_reducible apply Keeps.ite | with_reducible apply Keeps.ite1 | with_reducible apply Keeps.ite2 | with_reducible apply Keeps.ite11
    | split
    | (refine Keeps.of_eq1 (by with_reducible assumption) ?_)
    | (refine Keeps.of_eq2 (by with_reducible assumption) ?_)
    | (refine Keeps.of_eq11 (by with_reducible assumption) ?_)
    | (simp -zeta only [keeps_mk]; with_reducible apply KeepsF.upd)
    | dsimp -zeta only

theorem keeps_bumpFrame (a n : Nat) (s : State) (h_s : Keeps L r0 s) (l_rf : L .rf := by assumption) :
    Keeps L r0 (bumpFrame a n s) := by
  unfold bumpFrame
  repeat' first
    | with_reducible assumption
    | with_reducible exact Or.inl rfl | with_reducible exact Or.inr (by assumption)
    | with_reducible exact Nat.le_refl _ | with_reducible exact List.prefix_rfl | exact id | exact Nat.le_add_right _ _ | exact DevSt.fuseKept_of (Nat.le_refl _) rfl
    | intro _
    | (extract_lets +onlyGivenNames x; refine Keeps.cut (v := x) ?_ ?_; rotate_left; intro hx; clear_value x; rotate_left; subst x)
    | (extract_lets +onlyGivenNames x; subst x)
    | with_reducible apply Keeps.ite | with_reducible apply Keeps.ite1 | with_reducible apply Keeps.ite2 | with_reducible apply Keeps.ite11
    | split
    | (refine Keeps.of_eq1 (by with_reducible assumption) ?_)
    | (refine Keeps.of_eq2 (by with_reducible assumption) ?_)
    | (refine Keeps.of_eq11 (by with_reducible assumption) ?_)
    | (simp -zeta only [keeps_mk]; with_reducible apply KeepsF.upd)
    | dsimp -zeta only

theorem keeps_bump2 (a snap n : Nat) (s : State) (h_s : Keeps L r0 s) (l_rf : L .rf := by assumption) :
    Keeps L r0 (bump2 a snap n s) := by
  unfold bump2
  repeat' first
    | with_reducible assumption
    | with_reducible exact Or.inl rfl | with_reducible exact Or.inr (by assumption)
    | with_reducible exact Nat.le_refl _ | with_reducible exact List.prefix_rfl | exact id | exact Nat.le_add_right _ _ | exact DevSt.fuseKept_of (Nat.le_refl _) rfl
    | with_reducible apply keeps_bumpFrame
    | with_reducible apply keeps_bump
    | intro _
    | (extract_lets +onlyGivenNames x; refine Keeps.cut (v := x) ?_ ?_; rotate_left; intro hx; clear_value x; rotate_left; subst x)
    | (extract_lets +onlyGivenNames x; subst x)
    | with_reducible apply Keeps.ite | with_reducible apply Keeps.ite1 | with_reducible apply Keeps.ite2 | with_reducible apply Keeps.ite11
    | split
    | (refine Keeps.of_eq1 (by with_reducible assumption) ?_)
    | (refine Keeps.of_eq2 (by with_reducible assumption) ?_)
    | (refine Keeps.of_eq11 (by with_reducible assumption) ?_)
    | (simp -zeta only [keeps_mk]; with_reducible apply KeepsF.upd)
    | dsimp -zeta only

theorem keeps_setPort (p : HostPort) (x : PortSt) (s : State) (h_s : Keeps L r0 s) (l_portA : L .portA := by assumption) (l_portB : L .portB := by assumption) :
    Keeps L r0 (setPort p x s) := by
  unfold setPort
  repeat' first
    | with_reducible assumption
    | with_reducible exact Or.inl rfl | with_reducible exact Or.inr (by assumption)
    | with_reducible exact Nat.le_refl _ | with_reducible exact List.prefix_rfl | exact id | exact Nat.le_add_right _ _ | exact DevSt.fuseKept_of (Nat.le_refl _) rfl
    | intro _
    | (extract_lets +onlyGivenNames x; refine Keeps.cut (v := x) ?_ ?_; rotate_left; intro hx; clear_value x; rotate_left; subst x)
    | (extract_lets +onlyGivenNames x; subst x)
    | with_reducible apply Keeps.ite | with_reducible apply Keeps.ite1 | with_reducible apply Keeps.ite2 | with_reducible apply Keeps.ite11
    | split
    | (refine Keeps.of_eq1 (by with_reducible assumption) ?_)
    | (refine Keeps.of_eq2 (by with_reducible assumption) ?_)
    | (refine Keeps.of_eq11 (by with_reducible assumption) ?_)
    | (simp -zeta only [keeps_mk]; with_reducible apply KeepsF.upd)
    | dsimp -zeta only

theorem keeps_sendMsix (i v : Nat) (s : State) (h_s : Keeps L r0 s) (l_rf : L .rf := by assumption) (l_out : L .out := by assumption) :
    Keeps L r0 (sendMsix i v s) := by
  unfold sendMsix
  repeat' first
    | with_reducible assumption
    | with_reducible exact Or.inl rfl | with_reducible exact Or.inr (by assumption)
    | with_reducible exact Nat.le_refl _ | with_reducible exact List.prefix_rfl | exact id | exact Nat.le_add_right _ _ | exact DevSt.fuseKept_of (Nat.le_refl _) rfl
    | with_reducible apply keeps_rSetFld
    | with_reducible apply keeps_emit
    | intro _
    | (extract_lets +onlyGivenNames x; refine Keeps.cut (v := x) ?_ ?_; rotate_left; intro hx; clear_value x; rotate_left; subst x)
    | (extract_lets +onlyGivenNames x; subst x)
    | with_reducible apply Keeps.ite | with_reducible apply Keeps.ite1 | with_reducible apply Keeps.ite2 | with_reducible apply Keeps.ite11
    | split
    | (refine Keeps.of_eq1 (by with_reducible assumption) ?_)
    | (refine Keeps.of_eq2 (by with_reducible assumption) ?_)
    | (refine Keeps.of_eq11 (by with_reducible assumption) ?_)
    | (simp -zeta only [keeps_mk]; with_reducible apply KeepsF.upd)
    | dsimp -zeta only

theorem keeps_withSignal (pg : Nat) (f : State → State) (s : State) (h_f : ∀  t, Keeps L r0 t → Keeps L r0 (f  t)) (h_s : Keeps L r0 s) (l_rf : L .rf := by assumption) (l_out : L .out := by assumption) :
    Keeps L r0 (withSignal pg f s) := by
  unfold withSignal
  repeat' first
    | with_reducible assumption
    | with_reducible exact Or.inl rfl | with_reducible exact Or.inr (by assumption)
    | with_reducible exact Nat.le_refl _ | with_reducible exact List.prefix_rfl | exact id | exact Nat.le_add_right _ _ | exact DevSt.fuseKept_of (Nat.le_refl _) rfl
    | with_reducible apply keeps_sendMsix
    | with_reducible apply h_f
    | intro _
    | (extract_lets +onlyGivenNames x; refine Keeps.cut (v := x) ?_ ?_; rotate_left; intro hx; clear_value x; rotate_left; subst x)
    | (extract_lets +onlyGivenNames x; subst x)
    | with_reducible apply Keeps.ite | with_reducible apply Keeps.ite1 | with_reducible apply Keeps.ite2 | with_reducible apply Keeps.ite11
    | split
    | (refine Keeps.of_eq1 (by with_reducible assumption) ?_)
    | (refine Keeps.of_eq2 (by with_reducible assumption) ?_)
    | (refine Keeps.of_eq11 (by with_reducible assumption) ?_)
    | (simp -zeta only [keeps_mk]; with_reducible apply KeepsF.upd)
    | dsimp -zeta only

theorem keeps_latch (pg mask : Nat) (s : State) (h_s : Keeps L r0 s) (l_rf : L .rf := by assumption) (l_out : L .out := by assumption) :
    Keeps L r0 (latch pg mask s) := by
  unfold latch
  repeat' first
    | with_reducible assumption
    | with_reducible exact Or.inl rfl | with_reducible exact Or.inr (by assumption)
    | with_reducible exact Nat.le_refl _ | with_reducible exact List.prefix_rfl | exact id | exact Nat.le_add_right _ _ | exact DevSt.fuseKept_of (Nat.le_refl _) rfl
    | with_reducible apply keeps_withSignal
    | with_reducible apply keeps_rSet
    | intro _
    | (extract_lets +onlyGivenNames x; refine Keeps.cut (v := x) ?_ ?_; rotate_left; intro hx; clear_value x; rotate_left; subst x)
    | (extract_lets +onlyGivenNames x; subst x)
    | with_reducible apply Keeps.ite | with_reducible apply Keeps.ite1 | with_reducible apply Keeps.ite2 | with_reducible apply Keeps.ite11
    | split
    | (refine Keeps.of_eq1 (by with_reducible assumption) ?_)
    | (refine Keeps.of_eq2 (by with_reducible assumption) ?_)
    | (refine Keeps.of_eq11 (by with_reducible assumption) ?_)
    | (simp -zeta only [keeps_mk]; with_reducible apply KeepsF.upd)
    | dsimp -zeta only

theorem keeps_pulse (pg b : Nat) (s : State) (h_s : Keeps L r0 s) (l_rf : L .rf := by assumption) (l_out : L .out := by assumption) :
    Keeps L r0 (pulse pg b s) := by
  unfold pulse
  repeat' first
    | with_reducible assumption
    | with_reducible exact Or.inl rfl | with_reducible exact Or.inr (by assumption)
    | with_reducible exact Nat.le_refl _ | with_reducible exact List.prefix_rfl | exact id | exact Nat.le_add_right _ _ | exact DevSt.fuseKept_of (Nat.le_refl _) rfl
    | with_reducible apply keeps_latch
    | intro _
    | (extract_lets +onlyGivenNames x; refine Keeps.cut (v := x) ?_ ?_; rotate_left; intro hx; clear_value x; rotate_left; subst x)
    | (extract_lets +onlyGivenNames x; subst x)
    | with_reducible apply Keeps.ite | with_reducible apply Keeps.ite1 | with_reducible apply Keeps.ite2 | with_reducible apply Keeps.ite11
    | split
    | (refine Keeps.of_eq1 (by with_reducible assumption) ?_)
    | (refine Keeps.of_eq2 (by with_reducible assumption) ?_)
    | (refine Keeps.of_eq11 (by with_reducible assumption) ?_)
    | (simp -zeta only [keeps_mk]; with_reducible apply KeepsF.upd)
    | dsimp -zeta only

theorem keeps_level (pg b : Nat) (v : Bool) (s : State) (h_s : Keeps L r0 s) (l_rf : L .rf := by assumption) (l_out : L .out := by assumption) :
    Keeps L r0 (level pg b v s) := by
  unfold level
  repeat' first
    | with_reducible assumption
    | with_reducible exact Or.inl rfl | with_reducible exact Or.inr (by assumption)
    | with_reducible exact Nat.le_refl _ | with_reducible exact List.prefix_rfl | exact id | exact Nat.le_add_right _ _ | exact DevSt.fuseKept_of (Nat.le_refl _) rfl
    | with_reducible apply keeps_rSetFld
    | with_reducible apply keeps_latch
    | intro _
    | (extract_lets +onlyGivenNames x; refine Keeps.cut (v := x) ?_ ?_; rotate_left; intro hx; clear_value x; rotate_left; subst x)
    | (extract_lets +onlyGivenNames x; subst x)
    | with_reducible apply Keeps.ite | with_reducible apply Keeps.ite1 | with_reducible apply Keeps.ite2 | with_reducible apply Keeps.ite11
    | split
    | (refine Keeps.of_eq1 (by with_reducible assumption) ?_)
    | (refine Keeps.of_eq2 (by with_reducible assumption) ?_)
    | (refine Keeps.of_eq11 (by with_reducible assumption) ?_)
    | (simp -zeta only [keeps_mk]; with_reducible apply KeepsF.upd)
    | dsimp -zeta only

theorem keeps_recErr (pg code addr : Nat) (s : State) (h_s : Keeps L r0 s) (l_rf : L .rf := by assumption) :
    Keeps L r0 (recErr pg code addr s) := by
  unfold recErr
  repeat' first
    | with_reducible assumption
    | with_reducible exact Or.inl rfl | with_reducible exact Or.inr (by assumption)
    | with_reducible exact Nat.le_refl _ | with_reducible exact List.prefix_rfl | exact id | exact Nat.le_add_right _ _ | exact DevSt.fuseKept_of (Nat.le_refl _) rfl
    | with_reducible apply keeps_bump
    | with_reducible apply keeps_rSet
    | intro _
    | (extract_lets +onlyGivenNames x; refine Keeps.cut (v := x) ?_ ?_; rotate_left; intro hx; clear_value x; rotate_left; subst x)
    | (extract_lets +onlyGivenNames x; subst x)
    | with_reducible apply Keeps.ite | with_reducible apply Keeps.ite1 | with_reducible apply Keeps.ite2 | with_reducible apply Keeps.ite11
    | split
    | (refine Keeps.of_eq1 (by with_reducible assumption) ?_)
    | (refine Keeps.of_eq2 (by with_reducible assumption) ?_)
    | (refine Keeps.of_eq11 (by with_reducible assumption) ?_)
    | (simp -zeta only [keeps_mk]; with_reducible apply KeepsF.upd)
    | dsimp -zeta only

theorem keeps_writeWord1 (s : State) (h_s : Keeps L r0 s) (l_rf : L .rf := by assumption) :
    Keeps L r0 (writeWord1 s) := by
  unfold writeWord1
  repeat' first
    | with_reducible assumption
    | with_reducible exact Or.inl rfl | with_reducible exact Or.inr (by assumption)
    | with_reducible exact Nat.le_refl _ | with_reducible exact List.prefix_rfl | exact id | exact Nat.le_add_right _ _ | exact DevSt.fuseKept_of (Nat.le_refl _) rfl
    | with_reducible apply keeps_rSet
    | intro _
    | (extract_lets +onlyGivenNames x; refine Keeps.cut (v := x) ?_ ?_; rotate_left; intro hx; clear_value x; rotate_left; subst x)
    | (extract_lets +onlyGivenNames x; subst x)
    | with_reducible apply Keeps.ite | with_reducible apply Keeps.ite1 | with_reducible apply Keeps.ite2 | with_reducible apply Keeps.ite11
    | split
    | (refine Keeps.of_eq1 (by with_reducible assumption) ?_)
    | (refine Keeps.of_eq2 (by with_reducible assumption) ?_)
    | (refine Keeps.of_eq11 (by with_reducible assumption) ?_)
    | (simp -zeta only [keeps_mk]; with_reducible apply KeepsF.upd)
    | dsimp -zeta only

theorem keeps_addCause (c : Nat) (s : State) (h_s : Keeps L r0 s) (l_i3c : L .i3c := by assumption) :
    Keeps L r0 (addCause c s) := by
  unfold addCause
  repeat' first
    | with_reducible assumption
    | with_reducible exact Or.inl rfl | with_reducible exact Or.inr (by assumption)
    | with_reducible exact Nat.le_refl _ | with_reducible exact List.prefix_rfl | exact id | exact Nat.le_add_right _ _ | exact DevSt.fuseKept_of (Nat.le_refl _) rfl
    | intro _
    | (extract_lets +onlyGivenNames x; refine Keeps.cut (v := x) ?_ ?_; rotate_left; intro hx; clear_value x; rotate_left; subst x)
    | (extract_lets +onlyGivenNames x; subst x)
    | with_reducible apply Keeps.ite | with_reducible apply Keeps.ite1 | with_reducible apply Keeps.ite2 | with_reducible apply Keeps.ite11
    | split
    | (refine Keeps.of_eq1 (by with_reducible assumption) ?_)
    | (refine Keeps.of_eq2 (by with_reducible assumption) ?_)
    | (refine Keeps.of_eq11 (by with_reducible assumption) ?_)
    | (simp -zeta only [keeps_mk]; with_reducible apply KeepsF.upd)
    | dsimp -zeta only

theorem keeps_raiseIbi (c : Nat) (s : State) (h_s : Keeps L r0 s) (l_rf : L .rf := by assumption) (l_i3c : L .i3c := by assumption) :
    Keeps L r0 (raiseIbi c s) := by
  unfold raiseIbi
  repeat' first
    | with_reducible assumption
    | with_reducible exact Or.inl rfl | with_reducible exact Or.inr (by assumption)
    | with_reducible exact Nat.le_refl _ | with_reducible exact List.prefix_rfl | exact id | exact Nat.le_add_right _ _ | exact DevSt.fuseKept_of (Nat.le_refl _) rfl
    | with_reducible apply keeps_writeWord1
    | with_reducible apply keeps_addCause
    | intro _
    | (extract_lets +onlyGivenNames x; refine Keeps.cut (v := x) ?_ ?_; rotate_left; intro hx; clear_value x; rotate_left; subst x)
    | (extract_lets +onlyGivenNames x; subst x)
    | with_reducible apply Keeps.ite | with_reducible apply Keeps.ite1 | with_reducible apply Keeps.ite2 | with_reducible apply Keeps.ite11
    | split
    | (refine Keeps.of_eq1 (by with_reducible assumption) ?_)
    | (refine Keeps.of_eq2 (by with_reducible assumption) ?_)
    | (refine Keeps.of_eq11 (by with_reducible assumption) ?_)
    | (simp -zeta only [keeps_mk]; with_reducible apply KeepsF.upd)
    | dsimp -zeta only

theorem keeps_lastErr (pg cls : Nat) (s : State) (h_s : Keeps L r0 s) (l_dev : L .dev := by assumption) :
    Keeps L r0 (lastErr pg cls s) := by
  unfold lastErr
  repeat' first
    | with_reducible assumption
    | with_reducible exact Or.inl rfl | with_reducible exact Or.inr (by assumption)
    | with_reducible exact Nat.le_refl _ | with_reducible exact List.prefix_rfl | exact id | exact Nat.le_add_right _ _ | exact DevSt.fuseKept_of (Nat.le_refl _) rfl
    | intro _
    | (extract_lets +onlyGivenNames x; refine Keeps.cut (v := x) ?_ ?_; rotate_left; intro hx; clear_value x; rotate_left; subst x)
    | (extract_lets +onlyGivenNames x; subst x)
    | with_reducible apply Keeps.ite | with_reducible apply Keeps.ite1 | with_reducible apply Keeps.ite2 | with_reducible apply Keeps.ite11
    | split
    | (refine Keeps.of_eq1 (by with_reducible assumption) ?_)
    | (refine Keeps.of_eq2 (by with_reducible assumption) ?_)
    | (refine Keeps.of_eq11 (by with_reducible assumption) ?_)
    | (simp -zeta only [keeps_mk]; with_reducible apply KeepsF.upd)
    | dsimp -zeta only

theorem keeps_corrected (s : State) (h_s : Keeps L r0 s) (l_rf : L .rf := by assumption) (l_dev : L .dev := by assumption) :
    Keeps L r0 (corrected s) := by
  unfold corrected
  repeat' first
    | with_reducible assumption
    | with_reducible exact Or.inl rfl | with_reducible exact Or.inr (by assumption)
    | with_reducible exact Nat.le_refl _ | with_reducible exact List.prefix_rfl | exact id | exact Nat.le_add_right _ _ | exact DevSt.fuseKept_of (Nat.le_refl _) rfl
    | with_reducible apply keeps_bump
    | intro _
    | (extract_lets +onlyGivenNames x; refine Keeps.cut (v := x) ?_ ?_; rotate_left; intro hx; clear_value x; rotate_left; subst x)
    | (extract_lets +onlyGivenNames x; subst x)
    | with_reducible apply Keeps.ite | with_reducible apply Keeps.ite1 | with_reducible apply Keeps.ite2 | with_reducible apply Keeps.ite11
    | split
    | (refine Keeps.of_eq1 (by with_reducible assumption) ?_)
    | (refine Keeps.of_eq2 (by with_reducible assumption) ?_)
    | (refine Keeps.of_eq11 (by with_reducible assumption) ?_)
    | (simp -zeta only [keeps_mk]; with_reducible apply KeepsF.upd)
    | dsimp -zeta only

theorem keeps_contained (pg : Nat) (s : State) (h_s : Keeps L r0 s) (l_rf : L .rf := by assumption) (l_i3c : L .i3c := by assumption) (l_dev : L .dev := by assumption) (l_out : L .out := by assumption) :
    Keeps L r0 (contained pg s) := by
  unfold contained
  repeat' first
    | with_reducible assumption
    | with_reducible exact Or.inl rfl | with_reducible exact Or.inr (by assumption)
    | with_reducible exact Nat.le_refl _ | with_reducible exact List.prefix_rfl | exact id | exact Nat.le_add_right _ _ | exact DevSt.fuseKept_of (Nat.le_refl _) rfl
    | with_reducible apply keeps_raiseIbi
    | with_reducible apply keeps_pulse
    | with_reducible apply keeps_lastErr
    | with_reducible apply keeps_bump
    | intro _
    | (extract_lets +onlyGivenNames x; refine Keeps.cut (v := x) ?_ ?_; rotate_left; intro hx; clear_value x; rotate_left; subst x)
    | (extract_lets +onlyGivenNames x; subst x)
    | with_reducible apply Keeps.ite | with_reducible apply Keeps.ite1 | with_reducible apply Keeps.ite2 | with_reducible apply Keeps.ite11
    | split
    | (refine Keeps.of_eq1 (by with_reducible assumption) ?_)
    | (refine Keeps.of_eq2 (by with_reducible assumption) ?_)
    | (refine Keeps.of_eq11 (by with_reducible assumption) ?_)
    | (simp -zeta only [keeps_mk]; with_reducible apply KeepsF.upd)
    | dsimp -zeta only

theorem keeps_sendAer (p : HostPort) (s : State) (h_s : Keeps L r0 s) (l_portA : L .portA := by assumption) (l_portB : L .portB := by assumption) (l_out : L .out := by assumption) :
    Keeps L r0 (sendAer p s) := by
  unfold sendAer
  repeat' first
    | with_reducible assumption
    | with_reducible exact Or.inl rfl | with_reducible exact Or.inr (by assumption)
    | with_reducible exact Nat.le_refl _ | with_reducible exact List.prefix_rfl | exact id | exact Nat.le_add_right _ _ | exact DevSt.fuseKept_of (Nat.le_refl _) rfl
    | with_reducible apply keeps_emit
    | with_reducible apply keeps_setPort
    | intro _
    | (extract_lets +onlyGivenNames x; refine Keeps.cut (v := x) ?_ ?_; rotate_left; intro hx; clear_value x; rotate_left; subst x)
    | (extract_lets +onlyGivenNames x; subst x)
    | with_reducible apply Keeps.ite | with_reducible apply Keeps.ite1 | with_reducible apply Keeps.ite2 | with_reducible apply Keeps.ite11
    | split
    | (refine Keeps.of_eq1 (by with_reducible assumption) ?_)
    | (refine Keeps.of_eq2 (by with_reducible assumption) ?_)
    | (refine Keeps.of_eq11 (by with_reducible assumption) ?_)
    | (simp -zeta only [keeps_mk]; with_reducible apply KeepsF.upd)
    | dsimp -zeta only

theorem keeps_fatalErr (pg cause : Nat) (s : State) (h_s : Keeps L r0 s) (l_rf : L .rf := by assumption) (l_seam : L .seam := by assumption) (l_portA : L .portA := by assumption) (l_portB : L .portB := by assumption) (l_i3c : L .i3c := by assumption) (l_dev : L .dev := by assumption) (l_out : L .out := by assumption) :
    Keeps L r0 (fatalErr pg cause s) := by
  unfold fatalErr
  repeat' first
    | with_reducible assumption
    | with_reducible exact Or.inl rfl | with_reducible exact Or.inr (by assumption)
    | with_reducible exact Nat.le_refl _ | with_reducible exact List.prefix_rfl | exact id | exact Nat.le_add_right _ _ | exact DevSt.fuseKept_of (Nat.le_refl _) rfl
    | with_reducible apply keeps_lastErr
    | with_reducible apply keeps_raiseIbi
    | with_reducible apply keeps_level
    | with_reducible apply keeps_sendAer
    | intro _
    | (extract_lets +onlyGivenNames x; refine Keeps.cut (v := x) ?_ ?_; rotate_left; intro hx; clear_value x; rotate_left; subst x)
    | (extract_lets +onlyGivenNames x; subst x)
    | with_reducible apply Keeps.ite | with_reducible apply Keeps.ite1 | with_reducible apply Keeps.ite2 | with_reducible apply Keeps.ite11
    | split
    | (refine Keeps.of_eq1 (by with_reducible assumption) ?_)
    | (refine Keeps.of_eq2 (by with_reducible assumption) ?_)
    | (refine Keeps.of_eq11 (by with_reducible assumption) ?_)
    | (simp -zeta only [keeps_mk]; with_reducible apply KeepsF.upd)
    | dsimp -zeta only

theorem keeps_setCxt (p : Nat) (x : CxtSt) (s : State) (h_s : Keeps L r0 s) (l_cxt : L .cxt := by assumption) :
    Keeps L r0 (setCxt p x s) := by
  unfold setCxt
  repeat' first
    | with_reducible assumption
    | with_reducible exact Or.inl rfl | with_reducible exact Or.inr (by assumption)
    | with_reducible exact Nat.le_refl _ | with_reducible exact List.prefix_rfl | exact id | exact Nat.le_add_right _ _ | exact DevSt.fuseKept_of (Nat.le_refl _) rfl
    | intro _
    | (extract_lets +onlyGivenNames x; refine Keeps.cut (v := x) ?_ ?_; rotate_left; intro hx; clear_value x; rotate_left; subst x)
    | (extract_lets +onlyGivenNames x; subst x)
    | with_reducible apply Keeps.ite | with_reducible apply Keeps.ite1 | with_reducible apply Keeps.ite2 | with_reducible apply Keeps.ite11
    | split
    | (refine Keeps.of_eq1 (by with_reducible assumption) ?_)
    | (refine Keeps.of_eq2 (by with_reducible assumption) ?_)
    | (refine Keeps.of_eq11 (by with_reducible assumption) ?_)
    | (simp -zeta only [keeps_mk]; with_reducible apply KeepsF.upd)
    | dsimp -zeta only

end Sys2Proof.Machine
end

