-- ==== Sys2Proof/Laws/KeepsPhys.lean ====
section
/-! SUPPORT. `Keeps` of the functions of Machine/Phys.lean. -/

namespace Sys2Proof.Machine

set_option linter.all false
set_option Elab.async false

variable {r0 : State} {L : Comp → Prop}


theorem keeps_activate (h o : Nat) (s : State) (h_s : Keeps L r0 s) (l_freeCtr : L .freeCtr := by assumption) (l_rf : L .rf := by assumption) (l_hmc : L .hmc := by assumption) :
    Keeps L r0 (activate h o s) := by
  unfold activate
  repeat' first
    | with_reducible assumption
    | with_reducible exact Or.inl rfl | with_reducible exact Or.inr (by assumption)
    | with_reducible exact Nat.le_refl _ | with_reducible exact List.prefix_rfl | exact id | exact Nat.le_add_right _ _ | exact DevSt.fuseKept_of (Nat.le_refl _) rfl
    | with_reducible apply keeps_bump
    | with_reducible apply keeps_setHmc
    | with_reducible apply keeps_takeFree
    | with_reducible apply Keeps.foldl
    | with_reducible apply Keeps.foldl_fst
    | with_reducible apply Keeps.foldl_snd
    | with_reducible apply Keeps.foldl_fst2
    | intro _
    | (extract_lets +onlyGivenNames x; refine Keeps.cut (v := x) ?_ ?_; rotate_left; intro hx; clear_value x; rotate_left; subst x)
    | (extract_lets +onlyGivenNames x; subst x)
    | with_reducible apply Keeps.ite | with_reducible apply Keeps.ite1 | with_reducible apply Keeps.ite2 | with_reducible apply Keeps.ite11
    | split
    | (refine Keeps.of_eq1 (by with_reducible assumption) ?_)
    | (refine Keeps.of_eq2 (by with_reducible assumption) ?_)
    | (refine Keeps.of_eq11 (by with_reducible assumption) ?_)
    | (simp -zeta only [keeps_mk]; with_reducible apply KeepsF.upd)
    | dsimp -zeta only

theorem keeps_arrive (h pc : Nat) (s : State) (h_s : Keeps L r0 s) (l_hmc : L .hmc := by assumption) :
    Keeps L r0 (arrive h pc s) := by
  unfold arrive
  repeat' first
    | with_reducible assumption
    | with_reducible exact Or.inl rfl | with_reducible exact Or.inr (by assumption)
    | with_reducible exact Nat.le_refl _ | with_reducible exact List.prefix_rfl | exact id | exact Nat.le_add_right _ _ | exact DevSt.fuseKept_of (Nat.le_refl _) rfl
    | with_reducible apply keeps_setHmc
    | intro _
    | (extract_lets +onlyGivenNames x; refine Keeps.cut (v := x) ?_ ?_; rotate_left; intro hx; clear_value x; rotate_left; subst x)
    | (extract_lets +onlyGivenNames x; subst x)
    | with_reducible apply Keeps.ite | with_reducible apply Keeps.ite1 | with_reducible apply Keeps.ite2 | with_reducible apply Keeps.ite11
    | split
    | (refine Keeps.of_eq1 (by with_reducible assumption) ?_)
    | (refine Keeps.of_eq2 (by with_reducible assumption) ?_)
    | (refine Keeps.of_eq11 (by with_reducible assumption) ?_)
    | (simp -zeta only [keeps_mk]; with_reducible apply KeepsF.upd)
    | dsimp -zeta only

theorem keeps_stackLine (h o : Nat) (write : Bool) (s : State) (h_s : Keeps L r0 s) (l_freeCtr : L .freeCtr := by assumption) (l_rf : L .rf := by assumption) (l_hmc : L .hmc := by assumption) :
    Keeps L r0 (stackLine h o write s) := by
  unfold stackLine
  repeat' first
    | with_reducible assumption
    | with_reducible exact Or.inl rfl | with_reducible exact Or.inr (by assumption)
    | with_reducible exact Nat.le_refl _ | with_reducible exact List.prefix_rfl | exact id | exact Nat.le_add_right _ _ | exact DevSt.fuseKept_of (Nat.le_refl _) rfl
    | with_reducible apply keeps_bump2
    | with_reducible apply keeps_activate
    | intro _
    | (extract_lets +onlyGivenNames x; refine Keeps.cut (v := x) ?_ ?_; rotate_left; intro hx; clear_value x; rotate_left; subst x)
    | (extract_lets +onlyGivenNames x; subst x)
    | with_reducible apply Keeps.ite | with_reducible apply Keeps.ite1 | with_reducible apply Keeps.ite2 | with_reducible apply Keeps.ite11
    | split
    | (refine Keeps.of_eq1 (by with_reducible assumption) ?_)
    | (refine Keeps.of_eq2 (by with_reducible assumption) ?_)
    | (refine Keeps.of_eq11 (by with_reducible assumption) ?_)
    | (simp -zeta only [keeps_mk]; with_reducible apply KeepsF.upd)
    | dsimp -zeta only

theorem keeps_setEcc (w m : Nat) (s : State) (h_s : Keeps L r0 s) (l_mem : L .mem := by assumption) :
    Keeps L r0 (setEcc w m s) := by
  unfold setEcc
  repeat' first
    | with_reducible assumption
    | with_reducible exact Or.inl rfl | with_reducible exact Or.inr (by assumption)
    | with_reducible exact Nat.le_refl _ | with_reducible exact List.prefix_rfl | exact id | exact Nat.le_add_right _ _ | exact DevSt.fuseKept_of (Nat.le_refl _) rfl
    | exact fun m => ⟨Memory.wf_filter _ m.1, m.2⟩ | exact fun m => ⟨m.1, m.2.1, Memory.wf_filter _ m.2.2⟩
    | exact fun m => ⟨m.1, m.2.1, Memory.wf_putBytes _ m.2.2⟩ | exact fun m => ⟨Memory.wf_nil, m.2⟩
    | intro _
    | (extract_lets +onlyGivenNames x; refine Keeps.cut (v := x) ?_ ?_; rotate_left; intro hx; clear_value x; rotate_left; subst x)
    | (extract_lets +onlyGivenNames x; subst x)
    | with_reducible apply Keeps.ite | with_reducible apply Keeps.ite1 | with_reducible apply Keeps.ite2 | with_reducible apply Keeps.ite11
    | split
    | (refine Keeps.of_eq1 (by with_reducible assumption) ?_)
    | (refine Keeps.of_eq2 (by with_reducible assumption) ?_)
    | (refine Keeps.of_eq11 (by with_reducible assumption) ?_)
    | (simp -zeta only [keeps_mk]; with_reducible apply KeepsF.upd)
    | dsimp -zeta only

theorem keeps_countCe (e : EccRegs) (n : Nat) (s : State) (h_s : Keeps L r0 s) (l_rf : L .rf := by assumption) (l_dev : L .dev := by assumption) (l_out : L .out := by assumption) :
    Keeps L r0 (countCe e n s) := by
  unfold countCe
  repeat' first
    | with_reducible assumption
    | with_reducible exact Or.inl rfl | with_reducible exact Or.inr (by assumption)
    | with_reducible exact Nat.le_refl _ | with_reducible exact List.prefix_rfl | exact id | exact Nat.le_add_right _ _ | exact DevSt.fuseKept_of (Nat.le_refl _) rfl
    | with_reducible apply keeps_pulse
    | with_reducible apply keeps_forN
    | with_reducible apply keeps_bump
    | with_reducible apply keeps_corrected
    | intro _
    | (extract_lets +onlyGivenNames x; refine Keeps.cut (v := x) ?_ ?_; rotate_left; intro hx; clear_value x; rotate_left; subst x)
    | (extract_lets +onlyGivenNames x; subst x)
    | with_reducible apply Keeps.ite | with_reducible apply Keeps.ite1 | with_reducible apply Keeps.ite2 | with_reducible apply Keeps.ite11
    | split
    | (refine Keeps.of_eq1 (by with_reducible assumption) ?_)
    | (refine Keeps.of_eq2 (by with_reducible assumption) ?_)
    | (refine Keeps.of_eq11 (by with_reducible assumption) ?_)
    | (simp -zeta only [keeps_mk]; with_reducible apply KeepsF.upd)
    | dsimp -zeta only

theorem keeps_eccRead (e : EccRegs) (a n : Nat) (s : State) (h_s : Keeps L r0 s) (l_rf : L .rf := by assumption) (l_mem : L .mem := by assumption) (l_i3c : L .i3c := by assumption) (l_dev : L .dev := by assumption) (l_out : L .out := by assumption) :
    Keeps L r0 (eccRead e a n s).1 := by
  unfold eccRead
  repeat' first
    | with_reducible assumption
    | with_reducible exact Or.inl rfl | with_reducible exact Or.inr (by assumption)
    | with_reducible exact Nat.le_refl _ | with_reducible exact List.prefix_rfl | exact id | exact Nat.le_add_right _ _ | exact DevSt.fuseKept_of (Nat.le_refl _) rfl
    | with_reducible apply keeps_countCe
    | with_reducible apply keeps_setEcc
    | with_reducible apply keeps_contained
    | with_reducible apply keeps_pulse
    | with_reducible apply keeps_recErr
    | with_reducible apply keeps_bump
    | with_reducible apply Keeps.foldl
    | with_reducible apply Keeps.foldl_fst
    | with_reducible apply Keeps.foldl_snd
    | with_reducible apply Keeps.foldl_fst2
    | intro _
    | (extract_lets +onlyGivenNames x; refine Keeps.cut (v := x) ?_ ?_; rotate_left; intro hx; clear_value x; rotate_left; subst x)
    | (extract_lets +onlyGivenNames x; subst x)
    | with_reducible apply Keeps.ite | with_reducible apply Keeps.ite1 | with_reducible apply Keeps.ite2 | with_reducible apply Keeps.ite11
    | split
    | (refine Keeps.of_eq1 (by with_reducible assumption) ?_)
    | (refine Keeps.of_eq2 (by with_reducible assumption) ?_)
    | (refine Keeps.of_eq11 (by with_reducible assumption) ?_)
    | (simp -zeta only [keeps_mk]; with_reducible apply KeepsF.upd)
    | dsimp -zeta only

theorem keeps_eccWrite (e : EccRegs) (ws : List Nat) (whole : Nat → Bool) (s : State) (h_s : Keeps L r0 s) (l_rf : L .rf := by assumption) (l_mem : L .mem := by assumption) (l_dev : L .dev := by assumption) (l_out : L .out := by assumption) :
    Keeps L r0 (eccWrite e ws whole s) := by
  unfold eccWrite
  repeat' first
    | with_reducible assumption
    | with_reducible exact Or.inl rfl | with_reducible exact Or.inr (by assumption)
    | with_reducible exact Nat.le_refl _ | with_reducible exact List.prefix_rfl | exact id | exact Nat.le_add_right _ _ | exact DevSt.fuseKept_of (Nat.le_refl _) rfl
    | with_reducible apply keeps_setEcc
    | with_reducible apply keeps_countCe
    | with_reducible apply Keeps.foldl
    | with_reducible apply Keeps.foldl_fst
    | with_reducible apply Keeps.foldl_snd
    | with_reducible apply Keeps.foldl_fst2
    | intro _
    | (extract_lets +onlyGivenNames x; refine Keeps.cut (v := x) ?_ ?_; rotate_left; intro hx; clear_value x; rotate_left; subst x)
    | (extract_lets +onlyGivenNames x; subst x)
    | with_reducible apply Keeps.ite | with_reducible apply Keeps.ite1 | with_reducible apply Keeps.ite2 | with_reducible apply Keeps.ite11
    | split
    | (refine Keeps.of_eq1 (by with_reducible assumption) ?_)
    | (refine Keeps.of_eq2 (by with_reducible assumption) ?_)
    | (refine Keeps.of_eq11 (by with_reducible assumption) ?_)
    | (simp -zeta only [keeps_mk]; with_reducible apply KeepsF.upd)
    | dsimp -zeta only

theorem keeps_drainLine (h : Nat) (q : WqLine) (s : State) (h_s : Keeps L r0 s) (l_freeCtr : L .freeCtr := by assumption) (l_rf : L .rf := by assumption) (l_hmc : L .hmc := by assumption) (l_mem : L .mem := by assumption) (l_dev : L .dev := by assumption) (l_out : L .out := by assumption) :
    Keeps L r0 (drainLine h q s) := by
  unfold drainLine
  repeat' first
    | with_reducible assumption
    | with_reducible exact Or.inl rfl | with_reducible exact Or.inr (by assumption)
    | with_reducible exact Nat.le_refl _ | with_reducible exact List.prefix_rfl | exact id | exact Nat.le_add_right _ _ | exact DevSt.fuseKept_of (Nat.le_refl _) rfl
    | with_reducible apply keeps_setHmc
    | with_reducible apply keeps_setCell
    | with_reducible apply keeps_eccWrite
    | with_reducible apply keeps_stackLine
    | with_reducible apply Keeps.foldl
    | with_reducible apply Keeps.foldl_fst
    | with_reducible apply Keeps.foldl_snd
    | with_reducible apply Keeps.foldl_fst2
    | intro _
    | (extract_lets +onlyGivenNames x; refine Keeps.cut (v := x) ?_ ?_; rotate_left; intro hx; clear_value x; rotate_left; subst x)
    | (extract_lets +onlyGivenNames x; subst x)
    | with_reducible apply Keeps.ite | with_reducible apply Keeps.ite1 | with_reducible apply Keeps.ite2 | with_reducible apply Keeps.ite11
    | split
    | (refine Keeps.of_eq1 (by with_reducible assumption) ?_)
    | (refine Keeps.of_eq2 (by with_reducible assumption) ?_)
    | (refine Keeps.of_eq11 (by with_reducible assumption) ?_)
    | (simp -zeta only [keeps_mk]; with_reducible apply KeepsF.upd)
    | dsimp -zeta only

theorem keeps_serveRead (h : Nat) (r : WaitRead) (s : State) (h_s : Keeps L r0 s) (l_freeCtr : L .freeCtr := by assumption) (l_rf : L .rf := by assumption) (l_hmc : L .hmc := by assumption) (l_mem : L .mem := by assumption) (l_i3c : L .i3c := by assumption) (l_dev : L .dev := by assumption) (l_out : L .out := by assumption) :
    Keeps L r0 (serveRead h r s) := by
  unfold serveRead
  repeat' first
    | with_reducible assumption
    | with_reducible exact Or.inl rfl | with_reducible exact Or.inr (by assumption)
    | with_reducible exact Nat.le_refl _ | with_reducible exact List.prefix_rfl | exact id | exact Nat.le_add_right _ _ | exact DevSt.fuseKept_of (Nat.le_refl _) rfl
    | with_reducible apply keeps_setHmc
    | with_reducible apply keeps_eccRead
    | with_reducible apply keeps_stackLine
    | with_reducible apply keeps_emit
    | intro _
    | (extract_lets +onlyGivenNames x; refine Keeps.cut (v := x) ?_ ?_; rotate_left; intro hx; clear_value x; rotate_left; subst x)
    | (extract_lets +onlyGivenNames x; subst x)
    | with_reducible apply Keeps.ite | with_reducible apply Keeps.ite1 | with_reducible apply Keeps.ite2 | with_reducible apply Keeps.ite11
    | split
    | (refine Keeps.of_eq1 (by with_reducible assumption) ?_)
    | (refine Keeps.of_eq2 (by with_reducible assumption) ?_)
    | (refine Keeps.of_eq11 (by with_reducible assumption) ?_)
    | (simp -zeta only [keeps_mk]; with_reducible apply KeepsF.upd)
    | dsimp -zeta only

theorem keeps_writeEntry (h : Nat) (q : WqLine) (s : State) (h_s : Keeps L r0 s) (l_freeCtr : L .freeCtr := by assumption) (l_rf : L .rf := by assumption) (l_hmc : L .hmc := by assumption) (l_mem : L .mem := by assumption) (l_i3c : L .i3c := by assumption) (l_dev : L .dev := by assumption) (l_out : L .out := by assumption) :
    Keeps L r0 (writeEntry h q s) := by
  unfold writeEntry
  repeat' first
    | with_reducible assumption
    | with_reducible exact Or.inl rfl | with_reducible exact Or.inr (by assumption)
    | with_reducible exact Nat.le_refl _ | with_reducible exact List.prefix_rfl | exact id | exact Nat.le_add_right _ _ | exact DevSt.fuseKept_of (Nat.le_refl _) rfl
    | with_reducible apply keeps_drainLine
    | with_reducible apply keeps_serveRead
    | with_reducible apply Keeps.foldl
    | with_reducible apply Keeps.foldl_fst
    | with_reducible apply Keeps.foldl_snd
    | with_reducible apply Keeps.foldl_fst2
    | intro _
    | (extract_lets +onlyGivenNames x; refine Keeps.cut (v := x) ?_ ?_; rotate_left; intro hx; clear_value x; rotate_left; subst x)
    | (extract_lets +onlyGivenNames x; subst x)
    | with_reducible apply Keeps.ite | with_reducible apply Keeps.ite1 | with_reducible apply Keeps.ite2 | with_reducible apply Keeps.ite11
    | split
    | (refine Keeps.of_eq1 (by with_reducible assumption) ?_)
    | (refine Keeps.of_eq2 (by with_reducible assumption) ?_)
    | (refine Keeps.of_eq11 (by with_reducible assumption) ?_)
    | (simp -zeta only [keeps_mk]; with_reducible apply KeepsF.upd)
    | dsimp -zeta only

theorem keeps_stopRead (h o a n : Nat) (s : State) (h_s : Keeps L r0 s) (l_freeCtr : L .freeCtr := by assumption) (l_rf : L .rf := by assumption) (l_hmc : L .hmc := by assumption) (l_mem : L .mem := by assumption) (l_i3c : L .i3c := by assumption) (l_dev : L .dev := by assumption) (l_out : L .out := by assumption) :
    Keeps L r0 (stopRead h o a n s).1 := by
  unfold stopRead
  repeat' first
    | with_reducible assumption
    | with_reducible exact Or.inl rfl | with_reducible exact Or.inr (by assumption)
    | with_reducible exact Nat.le_refl _ | with_reducible exact List.prefix_rfl | exact id | exact Nat.le_add_right _ _ | exact DevSt.fuseKept_of (Nat.le_refl _) rfl
    | with_reducible apply keeps_arrive
    | with_reducible apply keeps_eccRead
    | with_reducible apply keeps_stackLine
    | with_reducible apply keeps_bump
    | with_reducible apply keeps_writeEntry
    | intro _
    | (extract_lets +onlyGivenNames x; refine Keeps.cut (v := x) ?_ ?_; rotate_left; intro hx; clear_value x; rotate_left; subst x)
    | (extract_lets +onlyGivenNames x; subst x)
    | with_reducible apply Keeps.ite | with_reducible apply Keeps.ite1 | with_reducible apply Keeps.ite2 | with_reducible apply Keeps.ite11
    | split
    | (refine Keeps.of_eq1 (by with_reducible assumption) ?_)
    | (refine Keeps.of_eq2 (by with_reducible assumption) ?_)
    | (refine Keeps.of_eq11 (by with_reducible assumption) ?_)
    | (simp -zeta only [keeps_mk]; with_reducible apply KeepsF.upd)
    | dsimp -zeta only

theorem keeps_stopWrite (h o a n : Nat) (s : State) (h_s : Keeps L r0 s) (l_freeCtr : L .freeCtr := by assumption) (l_rf : L .rf := by assumption) (l_hmc : L .hmc := by assumption) (l_mem : L .mem := by assumption) (l_i3c : L .i3c := by assumption) (l_dev : L .dev := by assumption) (l_out : L .out := by assumption) :
    Keeps L r0 (stopWrite h o a n s) := by
  unfold stopWrite
  repeat' first
    | with_reducible assumption
    | with_reducible exact Or.inl rfl | with_reducible exact Or.inr (by assumption)
    | with_reducible exact Nat.le_refl _ | with_reducible exact List.prefix_rfl | exact id | exact Nat.le_add_right _ _ | exact DevSt.fuseKept_of (Nat.le_refl _) rfl
    | with_reducible apply keeps_arrive
    | with_reducible apply keeps_writeEntry
    | with_reducible apply keeps_eccWrite
    | with_reducible apply keeps_stackLine
    | with_reducible apply keeps_setHmc
    | intro _
    | (extract_lets +onlyGivenNames x; refine Keeps.cut (v := x) ?_ ?_; rotate_left; intro hx; clear_value x; rotate_left; subst x)
    | (extract_lets +onlyGivenNames x; subst x)
    | with_reducible apply Keeps.ite | with_reducible apply Keeps.ite1 | with_reducible apply Keeps.ite2 | with_reducible apply Keeps.ite11
    | split
    | (refine Keeps.of_eq1 (by with_reducible assumption) ?_)
    | (refine Keeps.of_eq2 (by with_reducible assumption) ?_)
    | (refine Keeps.of_eq11 (by with_reducible assumption) ?_)
    | (simp -zeta only [keeps_mk]; with_reducible apply KeepsF.upd)
    | dsimp -zeta only

theorem keeps_parityFail (page cnt a : Nat) (s : State) (h_s : Keeps L r0 s) (l_rf : L .rf := by assumption) (l_i3c : L .i3c := by assumption) (l_dev : L .dev := by assumption) (l_out : L .out := by assumption) :
    Keeps L r0 (parityFail page cnt a s) := by
  unfold parityFail
  repeat' first
    | with_reducible assumption
    | with_reducible exact Or.inl rfl | with_reducible exact Or.inr (by assumption)
    | with_reducible exact Nat.le_refl _ | with_reducible exact List.prefix_rfl | exact id | exact Nat.le_add_right _ _ | exact DevSt.fuseKept_of (Nat.le_refl _) rfl
    | with_reducible apply keeps_contained
    | with_reducible apply keeps_pulse
    | with_reducible apply keeps_recErr
    | with_reducible apply keeps_bump
    | intro _
    | (extract_lets +onlyGivenNames x; refine Keeps.cut (v := x) ?_ ?_; rotate_left; intro hx; clear_value x; rotate_left; subst x)
    | (extract_lets +onlyGivenNames x; subst x)
    | with_reducible apply Keeps.ite | with_reducible apply Keeps.ite1 | with_reducible apply Keeps.ite2 | with_reducible apply Keeps.ite11
    | split
    | (refine Keeps.of_eq1 (by with_reducible assumption) ?_)
    | (refine Keeps.of_eq2 (by with_reducible assumption) ?_)
    | (refine Keeps.of_eq11 (by with_reducible assumption) ?_)
    | (simp -zeta only [keeps_mk]; with_reducible apply KeepsF.upd)
    | dsimp -zeta only

theorem keeps_parityWords (e : ParRegs) (a : Nat) (f : Nat → Bool) (s : State) (h_s : Keeps L r0 s) (l_rf : L .rf := by assumption) (l_mem : L .mem := by assumption) (l_i3c : L .i3c := by assumption) (l_dev : L .dev := by assumption) (l_out : L .out := by assumption) :
    Keeps L r0 (parityWords e a f s).1 := by
  unfold parityWords
  repeat' first
    | with_reducible assumption
    | with_reducible exact Or.inl rfl | with_reducible exact Or.inr (by assumption)
    | with_reducible exact Nat.le_refl _ | with_reducible exact List.prefix_rfl | exact id | exact Nat.le_add_right _ _ | exact DevSt.fuseKept_of (Nat.le_refl _) rfl
    | with_reducible apply keeps_parityFail
    | with_reducible apply keeps_corrected
    | with_reducible apply keeps_bump
    | exact fun m => ⟨Memory.wf_filter _ m.1, m.2⟩ | exact fun m => ⟨m.1, m.2.1, Memory.wf_filter _ m.2.2⟩
    | exact fun m => ⟨m.1, m.2.1, Memory.wf_putBytes _ m.2.2⟩ | exact fun m => ⟨Memory.wf_nil, m.2⟩
    | intro _
    | (extract_lets +onlyGivenNames x; refine Keeps.cut (v := x) ?_ ?_; rotate_left; intro hx; clear_value x; rotate_left; subst x)
    | (extract_lets +onlyGivenNames x; subst x)
    | with_reducible apply Keeps.ite | with_reducible apply Keeps.ite1 | with_reducible apply Keeps.ite2 | with_reducible apply Keeps.ite11
    | split
    | (refine Keeps.of_eq1 (by with_reducible assumption) ?_)
    | (refine Keeps.of_eq2 (by with_reducible assumption) ?_)
    | (refine Keeps.of_eq11 (by with_reducible assumption) ?_)
    | (simp -zeta only [keeps_mk]; with_reducible apply KeepsF.upd)
    | dsimp -zeta only

theorem keeps_parityRead (e : ParRegs) (a n : Nat) (s : State) (h_s : Keeps L r0 s) (l_rf : L .rf := by assumption) (l_mem : L .mem := by assumption) (l_i3c : L .i3c := by assumption) (l_dev : L .dev := by assumption) (l_out : L .out := by assumption) :
    Keeps L r0 (parityRead e a n s).1 := by
  unfold parityRead
  repeat' first
    | with_reducible assumption
    | with_reducible exact Or.inl rfl | with_reducible exact Or.inr (by assumption)
    | with_reducible exact Nat.le_refl _ | with_reducible exact List.prefix_rfl | exact id | exact Nat.le_add_right _ _ | exact DevSt.fuseKept_of (Nat.le_refl _) rfl
    | with_reducible apply keeps_parityWords
    | intro _
    | (extract_lets +onlyGivenNames x; refine Keeps.cut (v := x) ?_ ?_; rotate_left; intro hx; clear_value x; rotate_left; subst x)
    | (extract_lets +onlyGivenNames x; subst x)
    | with_reducible apply Keeps.ite | with_reducible apply Keeps.ite1 | with_reducible apply Keeps.ite2 | with_reducible apply Keeps.ite11
    | split
    | (refine Keeps.of_eq1 (by with_reducible assumption) ?_)
    | (refine Keeps.of_eq2 (by with_reducible assumption) ?_)
    | (refine Keeps.of_eq11 (by with_reducible assumption) ?_)
    | (simp -zeta only [keeps_mk]; with_reducible apply KeepsF.upd)
    | dsimp -zeta only

theorem keeps_parityWrite (e : ParRegs) (a n : Nat) (s : State) (h_s : Keeps L r0 s) (l_rf : L .rf := by assumption) (l_mem : L .mem := by assumption) (l_i3c : L .i3c := by assumption) (l_dev : L .dev := by assumption) (l_out : L .out := by assumption) :
    Keeps L r0 (parityWrite e a n s).1 := by
  unfold parityWrite
  repeat' first
    | with_reducible assumption
    | with_reducible exact Or.inl rfl | with_reducible exact Or.inr (by assumption)
    | with_reducible exact Nat.le_refl _ | with_reducible exact List.prefix_rfl | exact id | exact Nat.le_add_right _ _ | exact DevSt.fuseKept_of (Nat.le_refl _) rfl
    | with_reducible apply keeps_parityWords
    | exact fun m => ⟨Memory.wf_filter _ m.1, m.2⟩ | exact fun m => ⟨m.1, m.2.1, Memory.wf_filter _ m.2.2⟩
    | exact fun m => ⟨m.1, m.2.1, Memory.wf_putBytes _ m.2.2⟩ | exact fun m => ⟨Memory.wf_nil, m.2⟩
    | intro _
    | (extract_lets +onlyGivenNames x; refine Keeps.cut (v := x) ?_ ?_; rotate_left; intro hx; clear_value x; rotate_left; subst x)
    | (extract_lets +onlyGivenNames x; subst x)
    | with_reducible apply Keeps.ite | with_reducible apply Keeps.ite1 | with_reducible apply Keeps.ite2 | with_reducible apply Keeps.ite11
    | split
    | (refine Keeps.of_eq1 (by with_reducible assumption) ?_)
    | (refine Keeps.of_eq2 (by with_reducible assumption) ?_)
    | (refine Keeps.of_eq11 (by with_reducible assumption) ?_)
    | (simp -zeta only [keeps_mk]; with_reducible apply KeepsF.upd)
    | dsimp -zeta only

theorem keeps_panelRead (p o a n : Nat) (s : State) (h_s : Keeps L r0 s) (l_rf : L .rf := by assumption) (l_seam : L .seam := by assumption) (l_mem : L .mem := by assumption) (l_portA : L .portA := by assumption) (l_portB : L .portB := by assumption) (l_i3c : L .i3c := by assumption) (l_dev : L .dev := by assumption) (l_out : L .out := by assumption) :
    Keeps L r0 (panelRead p o a n s).1 := by
  unfold panelRead
  repeat' first
    | with_reducible assumption
    | with_reducible exact Or.inl rfl | with_reducible exact Or.inr (by assumption)
    | with_reducible exact Nat.le_refl _ | with_reducible exact List.prefix_rfl | exact id | exact Nat.le_add_right _ _ | exact DevSt.fuseKept_of (Nat.le_refl _) rfl
    | with_reducible apply keeps_parityRead
    | with_reducible apply keeps_fatalErr
    | intro _
    | (extract_lets +onlyGivenNames x; refine Keeps.cut (v := x) ?_ ?_; rotate_left; intro hx; clear_value x; rotate_left; subst x)
    | (extract_lets +onlyGivenNames x; subst x)
    | with_reducible apply Keeps.ite | with_reducible apply Keeps.ite1 | with_reducible apply Keeps.ite2 | with_reducible apply Keeps.ite11
    | split
    | (refine Keeps.of_eq1 (by with_reducible assumption) ?_)
    | (refine Keeps.of_eq2 (by with_reducible assumption) ?_)
    | (refine Keeps.of_eq11 (by with_reducible assumption) ?_)
    | (simp -zeta only [keeps_mk]; with_reducible apply KeepsF.upd)
    | dsimp -zeta only

theorem keeps_checkLine (p o : Nat) (write : Bool) (s : State) (h_s : Keeps L r0 s) (l_rf : L .rf := by assumption) (l_cxt : L .cxt := by assumption) :
    Keeps L r0 (checkLine p o write s) := by
  unfold checkLine
  repeat' first
    | with_reducible assumption
    | with_reducible exact Or.inl rfl | with_reducible exact Or.inr (by assumption)
    | with_reducible exact Nat.le_refl _ | with_reducible exact List.prefix_rfl | exact id | exact Nat.le_add_right _ _ | exact DevSt.fuseKept_of (Nat.le_refl _) rfl
    | with_reducible apply keeps_bump
    | with_reducible apply keeps_setCxt
    | intro _
    | (extract_lets +onlyGivenNames x; refine Keeps.cut (v := x) ?_ ?_; rotate_left; intro hx; clear_value x; rotate_left; subst x)
    | (extract_lets +onlyGivenNames x; subst x)
    | with_reducible apply Keeps.ite | with_reducible apply Keeps.ite1 | with_reducible apply Keeps.ite2 | with_reducible apply Keeps.ite11
    | split
    | (refine Keeps.of_eq1 (by with_reducible assumption) ?_)
    | (refine Keeps.of_eq2 (by with_reducible assumption) ?_)
    | (refine Keeps.of_eq11 (by with_reducible assumption) ?_)
    | (simp -zeta only [keeps_mk]; with_reducible apply KeepsF.upd)
    | dsimp -zeta only

theorem keeps_lineAccess (write : Bool) (a n : Nat) (s : State) (h_s : Keeps L r0 s) (l_freeCtr : L .freeCtr := by assumption) (l_rf : L .rf := by assumption) (l_seam : L .seam := by assumption) (l_hmc : L .hmc := by assumption) (l_cxt : L .cxt := by assumption) (l_mem : L .mem := by assumption) (l_portA : L .portA := by assumption) (l_portB : L .portB := by assumption) (l_i3c : L .i3c := by assumption) (l_dev : L .dev := by assumption) (l_out : L .out := by assumption) :
    Keeps L r0 (lineAccess write a n s).1 := by
  unfold lineAccess
  repeat' first
    | with_reducible assumption
    | with_reducible exact Or.inl rfl | with_reducible exact Or.inr (by assumption)
    | with_reducible exact Nat.le_refl _ | with_reducible exact List.prefix_rfl | exact id | exact Nat.le_add_right _ _ | exact DevSt.fuseKept_of (Nat.le_refl _) rfl
    | with_reducible apply keeps_stopWrite
    | with_reducible apply keeps_stopRead
    | with_reducible apply keeps_bumpFrame
    | with_reducible apply keeps_checkLine
    | with_reducible apply keeps_eccWrite
    | with_reducible apply keeps_bump
    | with_reducible apply keeps_eccRead
    | with_reducible apply keeps_parityWrite
    | with_reducible apply keeps_panelRead
    | with_reducible apply keeps_parityRead
    | intro _
    | (extract_lets +onlyGivenNames x; refine Keeps.cut (v := x) ?_ ?_; rotate_left; intro hx; clear_value x; rotate_left; subst x)
    | (extract_lets +onlyGivenNames x; subst x)
    | with_reducible apply Keeps.ite | with_reducible apply Keeps.ite1 | with_reducible apply Keeps.ite2 | with_reducible apply Keeps.ite11
    | split
    | (refine Keeps.of_eq1 (by with_reducible assumption) ?_)
    | (refine Keeps.of_eq2 (by with_reducible assumption) ?_)
    | (refine Keeps.of_eq11 (by with_reducible assumption) ?_)
    | (simp -zeta only [keeps_mk]; with_reducible apply KeepsF.upd)
    | dsimp -zeta only

theorem keeps_physRead (a n : Nat) (s : State) (h_s : Keeps L r0 s) (l_freeCtr : L .freeCtr := by assumption) (l_rf : L .rf := by assumption) (l_seam : L .seam := by assumption) (l_hmc : L .hmc := by assumption) (l_cxt : L .cxt := by assumption) (l_mem : L .mem := by assumption) (l_portA : L .portA := by assumption) (l_portB : L .portB := by assumption) (l_i3c : L .i3c := by assumption) (l_dev : L .dev := by assumption) (l_out : L .out := by assumption) :
    Keeps L r0 (physRead a n s).1 := by
  unfold physRead
  repeat' first
    | with_reducible assumption
    | with_reducible exact Or.inl rfl | with_reducible exact Or.inr (by assumption)
    | with_reducible exact Nat.le_refl _ | with_reducible exact List.prefix_rfl | exact id | exact Nat.le_add_right _ _ | exact DevSt.fuseKept_of (Nat.le_refl _) rfl
    | with_reducible apply keeps_lineAccess
    | with_reducible apply Keeps.foldl
    | with_reducible apply Keeps.foldl_fst
    | with_reducible apply Keeps.foldl_snd
    | with_reducible apply Keeps.foldl_fst2
    | intro _
    | (extract_lets +onlyGivenNames x; refine Keeps.cut (v := x) ?_ ?_; rotate_left; intro hx; clear_value x; rotate_left; subst x)
    | (extract_lets +onlyGivenNames x; subst x)
    | with_reducible apply Keeps.ite | with_reducible apply Keeps.ite1 | with_reducible apply Keeps.ite2 | with_reducible apply Keeps.ite11
    | split
    | (refine Keeps.of_eq1 (by with_reducible assumption) ?_)
    | (refine Keeps.of_eq2 (by with_reducible assumption) ?_)
    | (refine Keeps.of_eq11 (by with_reducible assumption) ?_)
    | (simp -zeta only [keeps_mk]; with_reducible apply KeepsF.upd)
    | dsimp -zeta only

theorem keeps_physWrite (a : Nat) (bs : List Byte) (s : State) (h_s : Keeps L r0 s) (l_freeCtr : L .freeCtr := by assumption) (l_rf : L .rf := by assumption) (l_seam : L .seam := by assumption) (l_sched : L .sched := by assumption) (l_hmc : L .hmc := by assumption) (l_cxt : L .cxt := by assumption) (l_mem : L .mem := by assumption) (l_portA : L .portA := by assumption) (l_portB : L .portB := by assumption) (l_i3c : L .i3c := by assumption) (l_dev : L .dev := by assumption) (l_out : L .out := by assumption) :
    Keeps L r0 (physWrite a bs s).1 := by
  unfold physWrite
  repeat' first
    | with_reducible assumption
    | with_reducible exact Or.inl rfl | with_reducible exact Or.inr (by assumption)
    | with_reducible exact Nat.le_refl _ | with_reducible exact List.prefix_rfl | exact id | exact Nat.le_add_right _ _ | exact DevSt.fuseKept_of (Nat.le_refl _) rfl
    | with_reducible apply keeps_lineAccess
    | with_reducible apply keeps_setBytes
    | with_reducible apply Keeps.foldl
    | with_reducible apply Keeps.foldl_fst
    | with_reducible apply Keeps.foldl_snd
    | with_reducible apply Keeps.foldl_fst2
    | intro _
    | (extract_lets +onlyGivenNames x; refine Keeps.cut (v := x) ?_ ?_; rotate_left; intro hx; clear_value x; rotate_left; subst x)
    | (extract_lets +onlyGivenNames x; subst x)
    | with_reducible apply Keeps.ite | with_reducible apply Keeps.ite1 | with_reducible apply Keeps.ite2 | with_reducible apply Keeps.ite11
    | split
    | (refine Keeps.of_eq1 (by with_reducible assumption) ?_)
    | (refine Keeps.of_eq2 (by with_reducible assumption) ?_)
    | (refine Keeps.of_eq11 (by with_reducible assumption) ?_)
    | (simp -zeta only [keeps_mk]; with_reducible apply KeepsF.upd)
    | dsimp -zeta only

end Sys2Proof.Machine
end

