-- ==== Sys2Proof/Laws/KeepsMesh.lean ====
section
/-! SUPPORT. `Keeps` of the functions of Machine/Mesh.lean. -/

namespace Sys2Proof.Machine

set_option linter.all false
set_option Elab.async false

variable {r0 : State} {L : Comp → Prop}


theorem keeps_statAdd (st sub k n : Nat) (s : State) (h_s : Keeps L r0 s) (l_rf : L .rf := by assumption) :
    Keeps L r0 (statAdd st sub k n s) := by
  unfold statAdd
  repeat' first
    | with_reducible assumption
    | with_reducible exact Or.inl rfl | with_reducible exact Or.inr (by assumption)
    | with_reducible exact Nat.le_refl _ | with_reducible exact List.prefix_rfl | exact id | exact Nat.le_add_right _ _ | exact DevSt.fuseKept_of (Nat.le_refl _) rfl
    | with_reducible apply keeps_bumpFrame
    | intro _
    | (extract_lets +onlyGivenNames x; refine Keeps.cut (v := x) ?_ ?_; rotate_left; intro hx; clear_value x; rotate_left; subst x)
    | (extract_lets +onlyGivenNames x; subst x)
    | with_reducible apply Keeps.ite | with_reducible apply Keeps.ite1 | with_reducible apply Keeps.ite2 | with_reducible apply Keeps.ite11
    | split
    | (refine Keeps.of_eq1 (by with_reducible assumption) ?_)
    | (refine Keeps.of_eq2 (by with_reducible assumption) ?_)
    | (refine Keeps.of_eq11 (by with_reducible assumption) ?_)
    | (simp -zeta only [keeps_mk]; with_reducible apply KeepsF.upd)
    | dsimp -zeta only

theorem keeps_statLatency (st sub n : Nat) (s : State) (h_s : Keeps L r0 s) (l_rf : L .rf := by assumption) :
    Keeps L r0 (statLatency st sub n s) := by
  unfold statLatency
  repeat' first
    | with_reducible assumption
    | with_reducible exact Or.inl rfl | with_reducible exact Or.inr (by assumption)
    | with_reducible exact Nat.le_refl _ | with_reducible exact List.prefix_rfl | exact id | exact Nat.le_add_right _ _ | exact DevSt.fuseKept_of (Nat.le_refl _) rfl
    | with_reducible apply keeps_statAdd
    | intro _
    | (extract_lets +onlyGivenNames x; refine Keeps.cut (v := x) ?_ ?_; rotate_left; intro hx; clear_value x; rotate_left; subst x)
    | (extract_lets +onlyGivenNames x; subst x)
    | with_reducible apply Keeps.ite | with_reducible apply Keeps.ite1 | with_reducible apply Keeps.ite2 | with_reducible apply Keeps.ite11
    | split
    | (refine Keeps.of_eq1 (by with_reducible assumption) ?_)
    | (refine Keeps.of_eq2 (by with_reducible assumption) ?_)
    | (refine Keeps.of_eq11 (by with_reducible assumption) ?_)
    | (simp -zeta only [keeps_mk]; with_reducible apply KeepsF.upd)
    | dsimp -zeta only

theorem keeps_statRequest (p : Packet) (s : State) (h_s : Keeps L r0 s) (l_rf : L .rf := by assumption) :
    Keeps L r0 (statRequest p s) := by
  unfold statRequest
  repeat' first
    | with_reducible assumption
    | with_reducible exact Or.inl rfl | with_reducible exact Or.inr (by assumption)
    | with_reducible exact Nat.le_refl _ | with_reducible exact List.prefix_rfl | exact id | exact Nat.le_add_right _ _ | exact DevSt.fuseKept_of (Nat.le_refl _) rfl
    | with_reducible apply keeps_statAdd
    | intro _
    | (extract_lets +onlyGivenNames x; refine Keeps.cut (v := x) ?_ ?_; rotate_left; intro hx; clear_value x; rotate_left; subst x)
    | (extract_lets +onlyGivenNames x; subst x)
    | with_reducible apply Keeps.ite | with_reducible apply Keeps.ite1 | with_reducible apply Keeps.ite2 | with_reducible apply Keeps.ite11
    | split
    | (refine Keeps.of_eq1 (by with_reducible assumption) ?_)
    | (refine Keeps.of_eq2 (by with_reducible assumption) ?_)
    | (refine Keeps.of_eq11 (by with_reducible assumption) ?_)
    | (simp -zeta only [keeps_mk]; with_reducible apply KeepsF.upd)
    | dsimp -zeta only

theorem keeps_statResponse (p : Packet) (s : State) (h_s : Keeps L r0 s) (l_rf : L .rf := by assumption) :
    Keeps L r0 (statResponse p s) := by
  unfold statResponse
  repeat' first
    | with_reducible assumption
    | with_reducible exact Or.inl rfl | with_reducible exact Or.inr (by assumption)
    | with_reducible exact Nat.le_refl _ | with_reducible exact List.prefix_rfl | exact id | exact Nat.le_add_right _ _ | exact DevSt.fuseKept_of (Nat.le_refl _) rfl
    | with_reducible apply keeps_statAdd
    | intro _
    | (extract_lets +onlyGivenNames x; refine Keeps.cut (v := x) ?_ ?_; rotate_left; intro hx; clear_value x; rotate_left; subst x)
    | (extract_lets +onlyGivenNames x; subst x)
    | with_reducible apply Keeps.ite | with_reducible apply Keeps.ite1 | with_reducible apply Keeps.ite2 | with_reducible apply Keeps.ite11
    | split
    | (refine Keeps.of_eq1 (by with_reducible assumption) ?_)
    | (refine Keeps.of_eq2 (by with_reducible assumption) ?_)
    | (refine Keeps.of_eq11 (by with_reducible assumption) ?_)
    | (simp -zeta only [keeps_mk]; with_reducible apply KeepsF.upd)
    | dsimp -zeta only

theorem keeps_transact (p : Packet) (status : Nat) (data : List Byte) (s : State) (h_s : Keeps L r0 s) (l_rf : L .rf := by assumption) :
    Keeps L r0 (transact p status data s) := by
  unfold transact
  repeat' first
    | with_reducible assumption
    | with_reducible exact Or.inl rfl | with_reducible exact Or.inr (by assumption)
    | with_reducible exact Nat.le_refl _ | with_reducible exact List.prefix_rfl | exact id | exact Nat.le_add_right _ _ | exact DevSt.fuseKept_of (Nat.le_refl _) rfl
    | with_reducible apply keeps_statRequest
    | with_reducible apply keeps_statLatency
    | with_reducible apply keeps_statResponse
    | intro _
    | (extract_lets +onlyGivenNames x; refine Keeps.cut (v := x) ?_ ?_; rotate_left; intro hx; clear_value x; rotate_left; subst x)
    | (extract_lets +onlyGivenNames x; subst x)
    | with_reducible apply Keeps.ite | with_reducible apply Keeps.ite1 | with_reducible apply Keeps.ite2 | with_reducible apply Keeps.ite11
    | split
    | (refine Keeps.of_eq1 (by with_reducible assumption) ?_)
    | (refine Keeps.of_eq2 (by with_reducible assumption) ?_)
    | (refine Keeps.of_eq11 (by with_reducible assumption) ?_)
    | (simp -zeta only [keeps_mk]; with_reducible apply KeepsF.upd)
    | dsimp -zeta only

theorem keeps_meshAccess (i : Initiator) (type a n status : Nat) (data back : List Byte) (s : State) (h_s : Keeps L r0 s) (l_rf : L .rf := by assumption) :
    Keeps L r0 (meshAccess i type a n status data back s) := by
  unfold meshAccess
  repeat' first
    | with_reducible assumption
    | with_reducible exact Or.inl rfl | with_reducible exact Or.inr (by assumption)
    | with_reducible exact Nat.le_refl _ | with_reducible exact List.prefix_rfl | exact id | exact Nat.le_add_right _ _ | exact DevSt.fuseKept_of (Nat.le_refl _) rfl
    | with_reducible apply keeps_transact
    | intro _
    | (extract_lets +onlyGivenNames x; refine Keeps.cut (v := x) ?_ ?_; rotate_left; intro hx; clear_value x; rotate_left; subst x)
    | (extract_lets +onlyGivenNames x; subst x)
    | with_reducible apply Keeps.ite | with_reducible apply Keeps.ite1 | with_reducible apply Keeps.ite2 | with_reducible apply Keeps.ite11
    | split
    | (refine Keeps.of_eq1 (by with_reducible assumption) ?_)
    | (refine Keeps.of_eq2 (by with_reducible assumption) ?_)
    | (refine Keeps.of_eq11 (by with_reducible assumption) ?_)
    | (simp -zeta only [keeps_mk]; with_reducible apply KeepsF.upd)
    | dsimp -zeta only

theorem keeps_meshRead (i : Initiator) (a n : Nat) (s : State) (h_s : Keeps L r0 s) (l_freeCtr : L .freeCtr := by assumption) (l_rf : L .rf := by assumption) (l_seam : L .seam := by assumption) (l_hmc : L .hmc := by assumption) (l_cxt : L .cxt := by assumption) (l_mem : L .mem := by assumption) (l_portA : L .portA := by assumption) (l_portB : L .portB := by assumption) (l_i3c : L .i3c := by assumption) (l_dev : L .dev := by assumption) (l_out : L .out := by assumption) :
    Keeps L r0 (meshRead i a n s).1 := by
  unfold meshRead
  repeat' first
    | with_reducible assumption
    | with_reducible exact Or.inl rfl | with_reducible exact Or.inr (by assumption)
    | with_reducible exact Nat.le_refl _ | with_reducible exact List.prefix_rfl | exact id | exact Nat.le_add_right _ _ | exact DevSt.fuseKept_of (Nat.le_refl _) rfl
    | with_reducible apply keeps_physRead
    | with_reducible apply keeps_meshAccess
    | intro _
    | (extract_lets +onlyGivenNames x; refine Keeps.cut (v := x) ?_ ?_; rotate_left; intro hx; clear_value x; rotate_left; subst x)
    | (extract_lets +onlyGivenNames x; subst x)
    | with_reducible apply Keeps.ite | with_reducible apply Keeps.ite1 | with_reducible apply Keeps.ite2 | with_reducible apply Keeps.ite11
    | split
    | (refine Keeps.of_eq1 (by with_reducible assumption) ?_)
    | (refine Keeps.of_eq2 (by with_reducible assumption) ?_)
    | (refine Keeps.of_eq11 (by with_reducible assumption) ?_)
    | (simp -zeta only [keeps_mk]; with_reducible apply KeepsF.upd)
    | dsimp -zeta only

theorem keeps_meshWrite (i : Initiator) (a : Nat) (bs : List Byte) (s : State) (h_s : Keeps L r0 s) (l_freeCtr : L .freeCtr := by assumption) (l_rf : L .rf := by assumption) (l_seam : L .seam := by assumption) (l_sched : L .sched := by assumption) (l_hmc : L .hmc := by assumption) (l_cxt : L .cxt := by assumption) (l_mem : L .mem := by assumption) (l_portA : L .portA := by assumption) (l_portB : L .portB := by assumption) (l_i3c : L .i3c := by assumption) (l_dev : L .dev := by assumption) (l_out : L .out := by assumption) :
    Keeps L r0 (meshWrite i a bs s).1 := by
  unfold meshWrite
  repeat' first
    | with_reducible assumption
    | with_reducible exact Or.inl rfl | with_reducible exact Or.inr (by assumption)
    | with_reducible exact Nat.le_refl _ | with_reducible exact List.prefix_rfl | exact id | exact Nat.le_add_right _ _ | exact DevSt.fuseKept_of (Nat.le_refl _) rfl
    | with_reducible apply keeps_physWrite
    | with_reducible apply keeps_meshAccess
    | intro _
    | (extract_lets +onlyGivenNames x; refine Keeps.cut (v := x) ?_ ?_; rotate_left; intro hx; clear_value x; rotate_left; subst x)
    | (extract_lets +onlyGivenNames x; subst x)
    | with_reducible apply Keeps.ite | with_reducible apply Keeps.ite1 | with_reducible apply Keeps.ite2 | with_reducible apply Keeps.ite11
    | split
    | (refine Keeps.of_eq1 (by with_reducible assumption) ?_)
    | (refine Keeps.of_eq2 (by with_reducible assumption) ?_)
    | (refine Keeps.of_eq11 (by with_reducible assumption) ?_)
    | (simp -zeta only [keeps_mk]; with_reducible apply KeepsF.upd)
    | dsimp -zeta only

theorem keeps_memSwap (i : Initiator) (a n old new : Nat) (s : State) (h_s : Keeps L r0 s) (l_freeCtr : L .freeCtr := by assumption) (l_rf : L .rf := by assumption) (l_seam : L .seam := by assumption) (l_sched : L .sched := by assumption) (l_hmc : L .hmc := by assumption) (l_cxt : L .cxt := by assumption) (l_mem : L .mem := by assumption) (l_portA : L .portA := by assumption) (l_portB : L .portB := by assumption) (l_i3c : L .i3c := by assumption) (l_dev : L .dev := by assumption) (l_out : L .out := by assumption) :
    Keeps L r0 (memSwap i a n old new s).1 := by
  unfold memSwap
  repeat' first
    | with_reducible assumption
    | with_reducible exact Or.inl rfl | with_reducible exact Or.inr (by assumption)
    | with_reducible exact Nat.le_refl _ | with_reducible exact List.prefix_rfl | exact id | exact Nat.le_add_right _ _ | exact DevSt.fuseKept_of (Nat.le_refl _) rfl
    | with_reducible apply keeps_physRead
    | with_reducible apply keeps_physWrite
    | with_reducible apply keeps_meshAccess
    | intro _
    | (extract_lets +onlyGivenNames x; refine Keeps.cut (v := x) ?_ ?_; rotate_left; intro hx; clear_value x; rotate_left; subst x)
    | (extract_lets +onlyGivenNames x; subst x)
    | with_reducible apply Keeps.ite | with_reducible apply Keeps.ite1 | with_reducible apply Keeps.ite2 | with_reducible apply Keeps.ite11
    | split
    | (refine Keeps.of_eq1 (by with_reducible assumption) ?_)
    | (refine Keeps.of_eq2 (by with_reducible assumption) ?_)
    | (refine Keeps.of_eq11 (by with_reducible assumption) ?_)
    | (simp -zeta only [keeps_mk]; with_reducible apply KeepsF.upd)
    | dsimp -zeta only

theorem keeps_meshHost (i : Initiator) (p : HostPort) (type a n status : Nat) (data back : List Byte) (s : State) (h_s : Keeps L r0 s) (l_rf : L .rf := by assumption) :
    Keeps L r0 (meshHost i p type a n status data back s) := by
  unfold meshHost
  repeat' first
    | with_reducible assumption
    | with_reducible exact Or.inl rfl | with_reducible exact Or.inr (by assumption)
    | with_reducible exact Nat.le_refl _ | with_reducible exact List.prefix_rfl | exact id | exact Nat.le_add_right _ _ | exact DevSt.fuseKept_of (Nat.le_refl _) rfl
    | with_reducible apply keeps_transact
    | intro _
    | (extract_lets +onlyGivenNames x; refine Keeps.cut (v := x) ?_ ?_; rotate_left; intro hx; clear_value x; rotate_left; subst x)
    | (extract_lets +onlyGivenNames x; subst x)
    | with_reducible apply Keeps.ite | with_reducible apply Keeps.ite1 | with_reducible apply Keeps.ite2 | with_reducible apply Keeps.ite11
    | split
    | (refine Keeps.of_eq1 (by with_reducible assumption) ?_)
    | (refine Keeps.of_eq2 (by with_reducible assumption) ?_)
    | (refine Keeps.of_eq11 (by with_reducible assumption) ?_)
    | (simp -zeta only [keeps_mk]; with_reducible apply KeepsF.upd)
    | dsimp -zeta only

theorem keeps_hostTrips (i : Initiator) (p : HostPort) (write : Bool) (a n : Nat) (s : State) (h_s : Keeps L r0 s) (l_rf : L .rf := by assumption) :
    Keeps L r0 (hostTrips i p write a n s) := by
  unfold hostTrips
  repeat' first
    | with_reducible assumption
    | with_reducible exact Or.inl rfl | with_reducible exact Or.inr (by assumption)
    | with_reducible exact Nat.le_refl _ | with_reducible exact List.prefix_rfl | exact id | exact Nat.le_add_right _ _ | exact DevSt.fuseKept_of (Nat.le_refl _) rfl
    | with_reducible apply keeps_meshHost
    | with_reducible apply Keeps.foldl
    | with_reducible apply Keeps.foldl_fst
    | with_reducible apply Keeps.foldl_snd
    | with_reducible apply Keeps.foldl_fst2
    | intro _
    | (extract_lets +onlyGivenNames x; refine Keeps.cut (v := x) ?_ ?_; rotate_left; intro hx; clear_value x; rotate_left; subst x)
    | (extract_lets +onlyGivenNames x; subst x)
    | with_reducible apply Keeps.ite | with_reducible apply Keeps.ite1 | with_reducible apply Keeps.ite2 | with_reducible apply Keeps.ite11
    | split
    | (refine Keeps.of_eq1 (by with_reducible assumption) ?_)
    | (refine Keeps.of_eq2 (by with_reducible assumption) ?_)
    | (refine Keeps.of_eq11 (by with_reducible assumption) ?_)
    | (simp -zeta only [keeps_mk]; with_reducible apply KeepsF.upd)
    | dsimp -zeta only

theorem keeps_meshMessage (i : Initiator) (posted : Bool) (b : Block) (n : Nat) (s : State) (h_s : Keeps L r0 s) (l_rf : L .rf := by assumption) :
    Keeps L r0 (meshMessage i posted b n s) := by
  unfold meshMessage
  repeat' first
    | with_reducible assumption
    | with_reducible exact Or.inl rfl | with_reducible exact Or.inr (by assumption)
    | with_reducible exact Nat.le_refl _ | with_reducible exact List.prefix_rfl | exact id | exact Nat.le_add_right _ _ | exact DevSt.fuseKept_of (Nat.le_refl _) rfl
    | with_reducible apply keeps_transact
    | intro _
    | (extract_lets +onlyGivenNames x; refine Keeps.cut (v := x) ?_ ?_; rotate_left; intro hx; clear_value x; rotate_left; subst x)
    | (extract_lets +onlyGivenNames x; subst x)
    | with_reducible apply Keeps.ite | with_reducible apply Keeps.ite1 | with_reducible apply Keeps.ite2 | with_reducible apply Keeps.ite11
    | split
    | (refine Keeps.of_eq1 (by with_reducible assumption) ?_)
    | (refine Keeps.of_eq2 (by with_reducible assumption) ?_)
    | (refine Keeps.of_eq11 (by with_reducible assumption) ?_)
    | (simp -zeta only [keeps_mk]; with_reducible apply KeepsF.upd)
    | dsimp -zeta only

end Sys2Proof.Machine
end

