-- ==== Sys2Proof/Laws/KeepsJobs.lean ====
section
/-! SUPPORT. `Keeps` of the functions of Machine/Jobs.lean. -/

namespace Sys2Proof.Machine

set_option linter.all false
set_option Elab.async false

variable {r0 : State} {L : Comp → Prop}


theorem keeps_setPkt (p : Nat) (x : Pocket) (s : State) (h_s : Keeps L r0 s) (l_pkt : L .pkt := by assumption) :
    Keeps L r0 (setPkt p x s) := by
  unfold setPkt
  repeat' first
    | with_reducible assumption
    | with_reducible exact Or.inl rfl | with_reducible exact Or.inr (by assumption)
    | with_reducible exact Nat.le_refl _ | with_reducible exact List.prefix_rfl | exact id | exact Nat.le_add_right _ _ | exact DevSt.fuseKept_of (Nat.le_refl _) rfl
    | intro _
    | (extract_lets +onlyGivenNames x; refine Keeps.cut (v := x) ?_ ?_; rotate_left; intro hx; clear_value x; rotate_left; subst x)
    | (extract_lets +onlyGivenNames x; subst x)
    | with_reducible apply Keeps.ite | with_reducible apply Keeps.ite1 | with_reducible apply Keeps.ite2 | with_reducible apply Keeps.ite11
    | split
    | (refine Keeps.of_eq1 (by with_reducible assumption) ?_)
    | (refine Keeps.of_eq2 (by with_reducible assumption) ?_)
    | (refine Keeps.of_eq11 (by with_reducible assumption) ?_)
    | (simp -zeta only [keeps_mk]; with_reducible apply KeepsF.upd)
    | dsimp -zeta only

theorem keeps_setInst (i : Nat) (x : InstSt) (s : State) (h_s : Keeps L r0 s) (l_rings : L .rings := by assumption) :
    Keeps L r0 (setInst i x s) := by
  unfold setInst
  repeat' first
    | with_reducible assumption
    | with_reducible exact Or.inl rfl | with_reducible exact Or.inr (by assumption)
    | with_reducible exact Nat.le_refl _ | with_reducible exact List.prefix_rfl | exact id | exact Nat.le_add_right _ _ | exact DevSt.fuseKept_of (Nat.le_refl _) rfl
    | intro _
    | (extract_lets +onlyGivenNames x; refine Keeps.cut (v := x) ?_ ?_; rotate_left; intro hx; clear_value x; rotate_left; subst x)
    | (extract_lets +onlyGivenNames x; subst x)
    | with_reducible apply Keeps.ite | with_reducible apply Keeps.ite1 | with_reducible apply Keeps.ite2 | with_reducible apply Keeps.ite11
    | split
    | (refine Keeps.of_eq1 (by with_reducible assumption) ?_)
    | (refine Keeps.of_eq2 (by with_reducible assumption) ?_)
    | (refine Keeps.of_eq11 (by with_reducible assumption) ?_)
    | (simp -zeta only [keeps_mk]; with_reducible apply KeepsF.upd)
    | dsimp -zeta only

theorem keeps_setJr (i r : Nat) (x : JobRing) (s : State) (h_s : Keeps L r0 s) (l_rings : L .rings := by assumption) :
    Keeps L r0 (setJr i r x s) := by
  unfold setJr
  repeat' first
    | with_reducible assumption
    | with_reducible exact Or.inl rfl | with_reducible exact Or.inr (by assumption)
    | with_reducible exact Nat.le_refl _ | with_reducible exact List.prefix_rfl | exact id | exact Nat.le_add_right _ _ | exact DevSt.fuseKept_of (Nat.le_refl _) rfl
    | intro _
    | (extract_lets +onlyGivenNames x; refine Keeps.cut (v := x) ?_ ?_; rotate_left; intro hx; clear_value x; rotate_left; subst x)
    | (extract_lets +onlyGivenNames x; subst x)
    | with_reducible apply Keeps.ite | with_reducible apply Keeps.ite1 | with_reducible apply Keeps.ite2 | with_reducible apply Keeps.ite11
    | split
    | (refine Keeps.of_eq1 (by with_reducible assumption) ?_)
    | (refine Keeps.of_eq2 (by with_reducible assumption) ?_)
    | (refine Keeps.of_eq11 (by with_reducible assumption) ?_)
    | (simp -zeta only [keeps_mk]; with_reducible apply KeepsF.upd)
    | dsimp -zeta only

theorem keeps_setCr (i c : Nat) (x : ComplRing) (s : State) (h_s : Keeps L r0 s) (l_rings : L .rings := by assumption) :
    Keeps L r0 (setCr i c x s) := by
  unfold setCr
  repeat' first
    | with_reducible assumption
    | with_reducible exact Or.inl rfl | with_reducible exact Or.inr (by assumption)
    | with_reducible exact Nat.le_refl _ | with_reducible exact List.prefix_rfl | exact id | exact Nat.le_add_right _ _ | exact DevSt.fuseKept_of (Nat.le_refl _) rfl
    | intro _
    | (extract_lets +onlyGivenNames x; refine Keeps.cut (v := x) ?_ ?_; rotate_left; intro hx; clear_value x; rotate_left; subst x)
    | (extract_lets +onlyGivenNames x; subst x)
    | with_reducible apply Keeps.ite | with_reducible apply Keeps.ite1 | with_reducible apply Keeps.ite2 | with_reducible apply Keeps.ite11
    | split
    | (refine Keeps.of_eq1 (by with_reducible assumption) ?_)
    | (refine Keeps.of_eq2 (by with_reducible assumption) ?_)
    | (refine Keeps.of_eq11 (by with_reducible assumption) ?_)
    | (simp -zeta only [keeps_mk]; with_reducible apply KeepsF.upd)
    | dsimp -zeta only

theorem keeps_setJob (j : Nat) (x : JobRec) (s : State) (h_s : Keeps L r0 s) (l_sched : L .sched := by assumption) :
    Keeps L r0 (setJob j x s) := by
  unfold setJob
  repeat' first
    | with_reducible assumption
    | with_reducible exact Or.inl rfl | with_reducible exact Or.inr (by assumption)
    | with_reducible exact Nat.le_refl _ | with_reducible exact List.prefix_rfl | exact id | exact Nat.le_add_right _ _ | exact DevSt.fuseKept_of (Nat.le_refl _) rfl
    | intro _
    | (extract_lets +onlyGivenNames x; refine Keeps.cut (v := x) ?_ ?_; rotate_left; intro hx; clear_value x; rotate_left; subst x)
    | (extract_lets +onlyGivenNames x; subst x)
    | with_reducible apply Keeps.ite | with_reducible apply Keeps.ite1 | with_reducible apply Keeps.ite2 | with_reducible apply Keeps.ite11
    | split
    | (refine Keeps.of_eq1 (by with_reducible assumption) ?_)
    | (refine Keeps.of_eq2 (by with_reducible assumption) ?_)
    | (refine Keeps.of_eq11 (by with_reducible assumption) ?_)
    | (simp -zeta only [keeps_mk]; with_reducible apply KeepsF.upd)
    | dsimp -zeta only

theorem keeps_delJob (j : Nat) (s : State) (h_s : Keeps L r0 s) (l_sched : L .sched := by assumption) :
    Keeps L r0 (delJob j s) := by
  unfold delJob
  repeat' first
    | with_reducible assumption
    | with_reducible exact Or.inl rfl | with_reducible exact Or.inr (by assumption)
    | with_reducible exact Nat.le_refl _ | with_reducible exact List.prefix_rfl | exact id | exact Nat.le_add_right _ _ | exact DevSt.fuseKept_of (Nat.le_refl _) rfl
    | intro _
    | (extract_lets +onlyGivenNames x; refine Keeps.cut (v := x) ?_ ?_; rotate_left; intro hx; clear_value x; rotate_left; subst x)
    | (extract_lets +onlyGivenNames x; subst x)
    | with_reducible apply Keeps.ite | with_reducible apply Keeps.ite1 | with_reducible apply Keeps.ite2 | with_reducible apply Keeps.ite11
    | split
    | (refine Keeps.of_eq1 (by with_reducible assumption) ?_)
    | (refine Keeps.of_eq2 (by with_reducible assumption) ?_)
    | (refine Keeps.of_eq11 (by with_reducible assumption) ?_)
    | (simp -zeta only [keeps_mk]; with_reducible apply KeepsF.upd)
    | dsimp -zeta only

theorem keeps_setAgent (n : Nat) (x : Agent) (s : State) (h_s : Keeps L r0 s) (l_sched : L .sched := by assumption) :
    Keeps L r0 (setAgent n x s) := by
  unfold setAgent
  repeat' first
    | with_reducible assumption
    | with_reducible exact Or.inl rfl | with_reducible exact Or.inr (by assumption)
    | with_reducible exact Nat.le_refl _ | with_reducible exact List.prefix_rfl | exact id | exact Nat.le_add_right _ _ | exact DevSt.fuseKept_of (Nat.le_refl _) rfl
    | intro _
    | (extract_lets +onlyGivenNames x; refine Keeps.cut (v := x) ?_ ?_; rotate_left; intro hx; clear_value x; rotate_left; subst x)
    | (extract_lets +onlyGivenNames x; subst x)
    | with_reducible apply Keeps.ite | with_reducible apply Keeps.ite1 | with_reducible apply Keeps.ite2 | with_reducible apply Keeps.ite11
    | split
    | (refine Keeps.of_eq1 (by with_reducible assumption) ?_)
    | (refine Keeps.of_eq2 (by with_reducible assumption) ?_)
    | (refine Keeps.of_eq11 (by with_reducible assumption) ?_)
    | (simp -zeta only [keeps_mk]; with_reducible apply KeepsF.upd)
    | dsimp -zeta only

theorem keeps_traceLevel (s : State) (h_s : Keeps L r0 s) (l_rf : L .rf := by assumption) (l_out : L .out := by assumption) :
    Keeps L r0 (traceLevel s) := by
  unfold traceLevel
  repeat' first
    | with_reducible assumption
    | with_reducible exact Or.inl rfl | with_reducible exact Or.inr (by assumption)
    | with_reducible exact Nat.le_refl _ | with_reducible exact List.prefix_rfl | exact id | exact Nat.le_add_right _ _ | exact DevSt.fuseKept_of (Nat.le_refl _) rfl
    | with_reducible apply keeps_level
    | intro _
    | (extract_lets +onlyGivenNames x; refine Keeps.cut (v := x) ?_ ?_; rotate_left; intro hx; clear_value x; rotate_left; subst x)
    | (extract_lets +onlyGivenNames x; subst x)
    | with_reducible apply Keeps.ite | with_reducible apply Keeps.ite1 | with_reducible apply Keeps.ite2 | with_reducible apply Keeps.ite11
    | split
    | (refine Keeps.of_eq1 (by with_reducible assumption) ?_)
    | (refine Keeps.of_eq2 (by with_reducible assumption) ?_)
    | (refine Keeps.of_eq11 (by with_reducible assumption) ?_)
    | (simp -zeta only [keeps_mk]; with_reducible apply KeepsF.upd)
    | dsimp -zeta only

theorem keeps_trace (e code : Nat) (n : Option Nat) (t : TaskRec) (pocket peer run status : Nat) (s : State) (h_s : Keeps L r0 s) (l_freeCtr : L .freeCtr := by assumption) (l_rf : L .rf := by assumption) (l_seam : L .seam := by assumption) (l_sched : L .sched := by assumption) (l_hmc : L .hmc := by assumption) (l_cxt : L .cxt := by assumption) (l_mem : L .mem := by assumption) (l_portA : L .portA := by assumption) (l_portB : L .portB := by assumption) (l_i3c : L .i3c := by assumption) (l_dev : L .dev := by assumption) (l_out : L .out := by assumption) :
    Keeps L r0 (trace e code n t pocket peer run status s) := by
  unfold trace
  repeat' first
    | with_reducible assumption
    | with_reducible exact Or.inl rfl | with_reducible exact Or.inr (by assumption)
    | with_reducible exact Nat.le_refl _ | with_reducible exact List.prefix_rfl | exact id | exact Nat.le_add_right _ _ | exact DevSt.fuseKept_of (Nat.le_refl _) rfl
    | with_reducible apply keeps_traceLevel
    | with_reducible apply keeps_bump
    | with_reducible apply keeps_meshAccess
    | with_reducible apply keeps_physWrite
    | intro _
    | (extract_lets +onlyGivenNames x; refine Keeps.cut (v := x) ?_ ?_; rotate_left; intro hx; clear_value x; rotate_left; subst x)
    | (extract_lets +onlyGivenNames x; subst x)
    | with_reducible apply Keeps.ite | with_reducible apply Keeps.ite1 | with_reducible apply Keeps.ite2 | with_reducible apply Keeps.ite11
    | split
    | (refine Keeps.of_eq1 (by with_reducible assumption) ?_)
    | (refine Keeps.of_eq2 (by with_reducible assumption) ?_)
    | (refine Keeps.of_eq11 (by with_reducible assumption) ?_)
    | (simp -zeta only [keeps_mk]; with_reducible apply KeepsF.upd)
    | dsimp -zeta only

theorem keeps_drainStores (p : Nat) (s : State) (h_s : Keeps L r0 s) (l_freeCtr : L .freeCtr := by assumption) (l_rf : L .rf := by assumption) (l_seam : L .seam := by assumption) (l_sched : L .sched := by assumption) (l_hmc : L .hmc := by assumption) (l_cxt : L .cxt := by assumption) (l_mem : L .mem := by assumption) (l_portA : L .portA := by assumption) (l_portB : L .portB := by assumption) (l_i3c : L .i3c := by assumption) (l_dev : L .dev := by assumption) (l_pkt : L .pkt := by assumption) (l_out : L .out := by assumption) :
    Keeps L r0 (drainStores p s) := by
  unfold drainStores
  repeat' first
    | with_reducible assumption
    | with_reducible exact Or.inl rfl | with_reducible exact Or.inr (by assumption)
    | with_reducible exact Nat.le_refl _ | with_reducible exact List.prefix_rfl | exact id | exact Nat.le_add_right _ _ | exact DevSt.fuseKept_of (Nat.le_refl _) rfl
    | with_reducible apply keeps_meshWrite
    | with_reducible apply keeps_setPkt
    | with_reducible apply Keeps.foldl
    | with_reducible apply Keeps.foldl_fst
    | with_reducible apply Keeps.foldl_snd
    | with_reducible apply Keeps.foldl_fst2
    | intro _
    | (extract_lets +onlyGivenNames x; refine Keeps.cut (v := x) ?_ ?_; rotate_left; intro hx; clear_value x; rotate_left; subst x)
    | (extract_lets +onlyGivenNames x; subst x)
    | with_reducible apply Keeps.ite | with_reducible apply Keeps.ite1 | with_reducible apply Keeps.ite2 | with_reducible apply Keeps.ite11
    | split
    | (refine Keeps.of_eq1 (by with_reducible assumption) ?_)
    | (refine Keeps.of_eq2 (by with_reducible assumption) ?_)
    | (refine Keeps.of_eq11 (by with_reducible assumption) ?_)
    | (simp -zeta only [keeps_mk]; with_reducible apply KeepsF.upd)
    | dsimp -zeta only

theorem keeps_cleanAll (p : Nat) (s : State) (h_s : Keeps L r0 s) (l_freeCtr : L .freeCtr := by assumption) (l_rf : L .rf := by assumption) (l_seam : L .seam := by assumption) (l_sched : L .sched := by assumption) (l_hmc : L .hmc := by assumption) (l_cxt : L .cxt := by assumption) (l_mem : L .mem := by assumption) (l_portA : L .portA := by assumption) (l_portB : L .portB := by assumption) (l_i3c : L .i3c := by assumption) (l_dev : L .dev := by assumption) (l_pkt : L .pkt := by assumption) (l_out : L .out := by assumption) :
    Keeps L r0 (cleanAll p s) := by
  unfold cleanAll
  repeat' first
    | with_reducible assumption
    | with_reducible exact Or.inl rfl | with_reducible exact Or.inr (by assumption)
    | with_reducible exact Nat.le_refl _ | with_reducible exact List.prefix_rfl | exact id | exact Nat.le_add_right _ _ | exact DevSt.fuseKept_of (Nat.le_refl _) rfl
    | with_reducible apply keeps_drainStores
    | with_reducible apply keeps_meshWrite
    | with_reducible apply keeps_bump
    | with_reducible apply keeps_setPkt
    | with_reducible apply Keeps.foldl
    | with_reducible apply Keeps.foldl_fst
    | with_reducible apply Keeps.foldl_snd
    | with_reducible apply Keeps.foldl_fst2
    | intro _
    | (extract_lets +onlyGivenNames x; refine Keeps.cut (v := x) ?_ ?_; rotate_left; intro hx; clear_value x; rotate_left; subst x)
    | (extract_lets +onlyGivenNames x; subst x)
    | with_reducible apply Keeps.ite | with_reducible apply Keeps.ite1 | with_reducible apply Keeps.ite2 | with_reducible apply Keeps.ite11
    | split
    | (refine Keeps.of_eq1 (by with_reducible assumption) ?_)
    | (refine Keeps.of_eq2 (by with_reducible assumption) ?_)
    | (refine Keeps.of_eq11 (by with_reducible assumption) ?_)
    | (simp -zeta only [keeps_mk]; with_reducible apply KeepsF.upd)
    | dsimp -zeta only

theorem keeps_dropMatch (p : Nat) (s : State) (h_s : Keeps L r0 s) (l_ma : L .ma := by assumption) :
    Keeps L r0 (dropMatch p s) := by
  unfold dropMatch
  repeat' first
    | with_reducible assumption
    | with_reducible exact Or.inl rfl | with_reducible exact Or.inr (by assumption)
    | with_reducible exact Nat.le_refl _ | with_reducible exact List.prefix_rfl | exact id | exact Nat.le_add_right _ _ | exact DevSt.fuseKept_of (Nat.le_refl _) rfl
    | intro _
    | (extract_lets +onlyGivenNames x; refine Keeps.cut (v := x) ?_ ?_; rotate_left; intro hx; clear_value x; rotate_left; subst x)
    | (extract_lets +onlyGivenNames x; subst x)
    | with_reducible apply Keeps.ite | with_reducible apply Keeps.ite1 | with_reducible apply Keeps.ite2 | with_reducible apply Keeps.ite11
    | split
    | (refine Keeps.of_eq1 (by with_reducible assumption) ?_)
    | (refine Keeps.of_eq2 (by with_reducible assumption) ?_)
    | (refine Keeps.of_eq11 (by with_reducible assumption) ?_)
    | (simp -zeta only [keeps_mk]; with_reducible apply KeepsF.upd)
    | dsimp -zeta only

theorem keeps_freePocket (p : Nat) (s : State) (h_s : Keeps L r0 s) (l_freeCtr : L .freeCtr := by assumption) (l_rf : L .rf := by assumption) (l_seam : L .seam := by assumption) (l_sched : L .sched := by assumption) (l_hmc : L .hmc := by assumption) (l_cxt : L .cxt := by assumption) (l_mem : L .mem := by assumption) (l_portA : L .portA := by assumption) (l_portB : L .portB := by assumption) (l_i3c : L .i3c := by assumption) (l_dev : L .dev := by assumption) (l_pkt : L .pkt := by assumption) (l_ma : L .ma := by assumption) (l_out : L .out := by assumption) :
    Keeps L r0 (freePocket p s) := by
  unfold freePocket
  repeat' first
    | with_reducible assumption
    | with_reducible exact Or.inl rfl | with_reducible exact Or.inr (by assumption)
    | with_reducible exact Nat.le_refl _ | with_reducible exact List.prefix_rfl | exact id | exact Nat.le_add_right _ _ | exact DevSt.fuseKept_of (Nat.le_refl _) rfl
    | with_reducible apply keeps_dropMatch
    | with_reducible apply keeps_cleanAll
    | with_reducible apply keeps_setPkt
    | intro _
    | (extract_lets +onlyGivenNames x; refine Keeps.cut (v := x) ?_ ?_; rotate_left; intro hx; clear_value x; rotate_left; subst x)
    | (extract_lets +onlyGivenNames x; subst x)
    | with_reducible apply Keeps.ite | with_reducible apply Keeps.ite1 | with_reducible apply Keeps.ite2 | with_reducible apply Keeps.ite11
    | split
    | (refine Keeps.of_eq1 (by with_reducible assumption) ?_)
    | (refine Keeps.of_eq2 (by with_reducible assumption) ?_)
    | (refine Keeps.of_eq11 (by with_reducible assumption) ?_)
    | (simp -zeta only [keeps_mk]; with_reducible apply KeepsF.upd)
    | dsimp -zeta only

theorem keeps_undefVa (i va n : Nat) (s : State) (h_s : Keeps L r0 s) (l_freeCtr : L .freeCtr := by assumption) (l_hmc : L .hmc := by assumption) (l_mem : L .mem := by assumption) :
    Keeps L r0 (undefVa i va n s) := by
  unfold undefVa
  repeat' first
    | with_reducible assumption
    | with_reducible exact Or.inl rfl | with_reducible exact Or.inr (by assumption)
    | with_reducible exact Nat.le_refl _ | with_reducible exact List.prefix_rfl | exact id | exact Nat.le_add_right _ _ | exact DevSt.fuseKept_of (Nat.le_refl _) rfl
    | with_reducible apply keeps_makeUndef
    | with_reducible apply Keeps.foldl
    | with_reducible apply Keeps.foldl_fst
    | with_reducible apply Keeps.foldl_snd
    | with_reducible apply Keeps.foldl_fst2
    | intro _
    | (extract_lets +onlyGivenNames x; refine Keeps.cut (v := x) ?_ ?_; rotate_left; intro hx; clear_value x; rotate_left; subst x)
    | (extract_lets +onlyGivenNames x; subst x)
    | with_reducible apply Keeps.ite | with_reducible apply Keeps.ite1 | with_reducible apply Keeps.ite2 | with_reducible apply Keeps.ite11
    | split
    | (refine Keeps.of_eq1 (by with_reducible assumption) ?_)
    | (refine Keeps.of_eq2 (by with_reducible assumption) ?_)
    | (refine Keeps.of_eq11 (by with_reducible assumption) ?_)
    | (simp -zeta only [keeps_mk]; with_reducible apply KeepsF.upd)
    | dsimp -zeta only

theorem keeps_undefOutputs (x : JobRec) (s : State) (h_s : Keeps L r0 s) (l_freeCtr : L .freeCtr := by assumption) (l_hmc : L .hmc := by assumption) (l_mem : L .mem := by assumption) :
    Keeps L r0 (undefOutputs x s) := by
  unfold undefOutputs
  repeat' first
    | with_reducible assumption
    | with_reducible exact Or.inl rfl | with_reducible exact Or.inr (by assumption)
    | with_reducible exact Nat.le_refl _ | with_reducible exact List.prefix_rfl | exact id | exact Nat.le_add_right _ _ | exact DevSt.fuseKept_of (Nat.le_refl _) rfl
    | with_reducible apply keeps_makeHostUndef
    | with_reducible apply keeps_undefVa
    | with_reducible apply Keeps.foldl
    | with_reducible apply Keeps.foldl_fst
    | with_reducible apply Keeps.foldl_snd
    | with_reducible apply Keeps.foldl_fst2
    | intro _
    | (extract_lets +onlyGivenNames x; refine Keeps.cut (v := x) ?_ ?_; rotate_left; intro hx; clear_value x; rotate_left; subst x)
    | (extract_lets +onlyGivenNames x; subst x)
    | with_reducible apply Keeps.ite | with_reducible apply Keeps.ite1 | with_reducible apply Keeps.ite2 | with_reducible apply Keeps.ite11
    | split
    | (refine Keeps.of_eq1 (by with_reducible assumption) ?_)
    | (refine Keeps.of_eq2 (by with_reducible assumption) ?_)
    | (refine Keeps.of_eq11 (by with_reducible assumption) ?_)
    | (simp -zeta only [keeps_mk]; with_reducible apply KeepsF.upd)
    | dsimp -zeta only

theorem keeps_settleSlot (i k : Nat) (s : State) (h_s : Keeps L r0 s) (l_pat : L .pat := by assumption) :
    Keeps L r0 (settleSlot i k s) := by
  unfold settleSlot
  repeat' first
    | with_reducible assumption
    | with_reducible exact Or.inl rfl | with_reducible exact Or.inr (by assumption)
    | with_reducible exact Nat.le_refl _ | with_reducible exact List.prefix_rfl | exact id | exact Nat.le_add_right _ _ | exact DevSt.fuseKept_of (Nat.le_refl _) rfl
    | intro _
    | (extract_lets +onlyGivenNames x; refine Keeps.cut (v := x) ?_ ?_; rotate_left; intro hx; clear_value x; rotate_left; subst x)
    | (extract_lets +onlyGivenNames x; subst x)
    | with_reducible apply Keeps.ite | with_reducible apply Keeps.ite1 | with_reducible apply Keeps.ite2 | with_reducible apply Keeps.ite11
    | split
    | (refine Keeps.of_eq1 (by with_reducible assumption) ?_)
    | (refine Keeps.of_eq2 (by with_reducible assumption) ?_)
    | (refine Keeps.of_eq11 (by with_reducible assumption) ?_)
    | (simp -zeta only [keeps_mk]; with_reducible apply KeepsF.upd)
    | dsimp -zeta only

theorem keeps_settleJob (j : Nat) (s : State) (h_s : Keeps L r0 s) (l_freeCtr : L .freeCtr := by assumption) (l_rf : L .rf := by assumption) (l_sched : L .sched := by assumption) (l_pat : L .pat := by assumption) (l_rings : L .rings := by assumption) (l_hmc : L .hmc := by assumption) (l_mem : L .mem := by assumption) (l_out : L .out := by assumption) :
    Keeps L r0 (settleJob j s) := by
  unfold settleJob
  repeat' first
    | with_reducible assumption
    | with_reducible exact Or.inl rfl | with_reducible exact Or.inr (by assumption)
    | with_reducible exact Nat.le_refl _ | with_reducible exact List.prefix_rfl | exact id | exact Nat.le_add_right _ _ | exact DevSt.fuseKept_of (Nat.le_refl _) rfl
    | with_reducible apply keeps_undefOutputs
    | with_reducible apply keeps_setJob
    | with_reducible apply keeps_setInst
    | with_reducible apply keeps_pulse
    | with_reducible apply keeps_bump
    | with_reducible apply keeps_delJob
    | with_reducible apply keeps_settleSlot
    | intro _
    | (extract_lets +onlyGivenNames x; refine Keeps.cut (v := x) ?_ ?_; rotate_left; intro hx; clear_value x; rotate_left; subst x)
    | (extract_lets +onlyGivenNames x; subst x)
    | with_reducible apply Keeps.ite | with_reducible apply Keeps.ite1 | with_reducible apply Keeps.ite2 | with_reducible apply Keeps.ite11
    | split
    | (refine Keeps.of_eq1 (by with_reducible assumption) ?_)
    | (refine Keeps.of_eq2 (by with_reducible assumption) ?_)
    | (refine Keeps.of_eq11 (by with_reducible assumption) ?_)
    | (simp -zeta only [keeps_mk]; with_reducible apply KeepsF.upd)
    | dsimp -zeta only

theorem keeps_retireTask (n : Nat) (s : State) (h_s : Keeps L r0 s) (l_freeCtr : L .freeCtr := by assumption) (l_rf : L .rf := by assumption) (l_seam : L .seam := by assumption) (l_sched : L .sched := by assumption) (l_hmc : L .hmc := by assumption) (l_cxt : L .cxt := by assumption) (l_mem : L .mem := by assumption) (l_portA : L .portA := by assumption) (l_portB : L .portB := by assumption) (l_i3c : L .i3c := by assumption) (l_dev : L .dev := by assumption) (l_pkt : L .pkt := by assumption) (l_ma : L .ma := by assumption) (l_out : L .out := by assumption) :
    Keeps L r0 (retireTask n s) := by
  unfold retireTask
  repeat' first
    | with_reducible assumption
    | with_reducible exact Or.inl rfl | with_reducible exact Or.inr (by assumption)
    | with_reducible exact Nat.le_refl _ | with_reducible exact List.prefix_rfl | exact id | exact Nat.le_add_right _ _ | exact DevSt.fuseKept_of (Nat.le_refl _) rfl
    | with_reducible apply keeps_setTask
    | with_reducible apply keeps_freePocket
    | intro _
    | (extract_lets +onlyGivenNames x; refine Keeps.cut (v := x) ?_ ?_; rotate_left; intro hx; clear_value x; rotate_left; subst x)
    | (extract_lets +onlyGivenNames x; subst x)
    | with_reducible apply Keeps.ite | with_reducible apply Keeps.ite1 | with_reducible apply Keeps.ite2 | with_reducible apply Keeps.ite11
    | split
    | (refine Keeps.of_eq1 (by with_reducible assumption) ?_)
    | (refine Keeps.of_eq2 (by with_reducible assumption) ?_)
    | (refine Keeps.of_eq11 (by with_reducible assumption) ?_)
    | (simp -zeta only [keeps_mk]; with_reducible apply KeepsF.upd)
    | dsimp -zeta only

theorem keeps_missEvent (n st : Nat) (s : State) (h_s : Keeps L r0 s) (l_freeCtr : L .freeCtr := by assumption) (l_rf : L .rf := by assumption) (l_seam : L .seam := by assumption) (l_sched : L .sched := by assumption) (l_hmc : L .hmc := by assumption) (l_cxt : L .cxt := by assumption) (l_mem : L .mem := by assumption) (l_portA : L .portA := by assumption) (l_portB : L .portB := by assumption) (l_i3c : L .i3c := by assumption) (l_dev : L .dev := by assumption) (l_out : L .out := by assumption) :
    Keeps L r0 (missEvent n st s) := by
  unfold missEvent
  repeat' first
    | with_reducible assumption
    | with_reducible exact Or.inl rfl | with_reducible exact Or.inr (by assumption)
    | with_reducible exact Nat.le_refl _ | with_reducible exact List.prefix_rfl | exact id | exact Nat.le_add_right _ _ | exact DevSt.fuseKept_of (Nat.le_refl _) rfl
    | with_reducible apply keeps_trace
    | with_reducible apply keeps_bumpFrame
    | intro _
    | (extract_lets +onlyGivenNames x; refine Keeps.cut (v := x) ?_ ?_; rotate_left; intro hx; clear_value x; rotate_left; subst x)
    | (extract_lets +onlyGivenNames x; subst x)
    | with_reducible apply Keeps.ite | with_reducible apply Keeps.ite1 | with_reducible apply Keeps.ite2 | with_reducible apply Keeps.ite11
    | split
    | (refine Keeps.of_eq1 (by with_reducible assumption) ?_)
    | (refine Keeps.of_eq2 (by with_reducible assumption) ?_)
    | (refine Keeps.of_eq11 (by with_reducible assumption) ?_)
    | (simp -zeta only [keeps_mk]; with_reducible apply KeepsF.upd)
    | dsimp -zeta only

theorem keeps_missAll (j : Nat) (s : State) (h_s : Keeps L r0 s) (l_freeCtr : L .freeCtr := by assumption) (l_rf : L .rf := by assumption) (l_seam : L .seam := by assumption) (l_sched : L .sched := by assumption) (l_hmc : L .hmc := by assumption) (l_cxt : L .cxt := by assumption) (l_mem : L .mem := by assumption) (l_portA : L .portA := by assumption) (l_portB : L .portB := by assumption) (l_i3c : L .i3c := by assumption) (l_dev : L .dev := by assumption) (l_out : L .out := by assumption) :
    Keeps L r0 (missAll j s) := by
  unfold missAll
  repeat' first
    | with_reducible assumption
    | with_reducible exact Or.inl rfl | with_reducible exact Or.inr (by assumption)
    | with_reducible exact Nat.le_refl _ | with_reducible exact List.prefix_rfl | exact id | exact Nat.le_add_right _ _ | exact DevSt.fuseKept_of (Nat.le_refl _) rfl
    | with_reducible apply keeps_pulse
    | with_reducible apply keeps_missEvent
    | with_reducible apply Keeps.foldl
    | with_reducible apply Keeps.foldl_fst
    | with_reducible apply Keeps.foldl_snd
    | with_reducible apply Keeps.foldl_fst2
    | intro _
    | (extract_lets +onlyGivenNames x; refine Keeps.cut (v := x) ?_ ?_; rotate_left; intro hx; clear_value x; rotate_left; subst x)
    | (extract_lets +onlyGivenNames x; subst x)
    | with_reducible apply Keeps.ite | with_reducible apply Keeps.ite1 | with_reducible apply Keeps.ite2 | with_reducible apply Keeps.ite11
    | split
    | (refine Keeps.of_eq1 (by with_reducible assumption) ?_)
    | (refine Keeps.of_eq2 (by with_reducible assumption) ?_)
    | (refine Keeps.of_eq11 (by with_reducible assumption) ?_)
    | (simp -zeta only [keeps_mk]; with_reducible apply KeepsF.upd)
    | dsimp -zeta only

theorem keeps_deadCmds (j serial : Nat) (s : State) (h_s : Keeps L r0 s) (l_packs : L .packs := by assumption) (l_scans : L .scans := by assumption) (l_opers : L .opers := by assumption) :
    Keeps L r0 (deadCmds j serial s) := by
  unfold deadCmds
  repeat' first
    | with_reducible assumption
    | with_reducible exact Or.inl rfl | with_reducible exact Or.inr (by assumption)
    | with_reducible exact Nat.le_refl _ | with_reducible exact List.prefix_rfl | exact id | exact Nat.le_add_right _ _ | exact DevSt.fuseKept_of (Nat.le_refl _) rfl
    | intro _
    | (extract_lets +onlyGivenNames x; refine Keeps.cut (v := x) ?_ ?_; rotate_left; intro hx; clear_value x; rotate_left; subst x)
    | (extract_lets +onlyGivenNames x; subst x)
    | with_reducible apply Keeps.ite | with_reducible apply Keeps.ite1 | with_reducible apply Keeps.ite2 | with_reducible apply Keeps.ite11
    | split
    | (refine Keeps.of_eq1 (by with_reducible assumption) ?_)
    | (refine Keeps.of_eq2 (by with_reducible assumption) ?_)
    | (refine Keeps.of_eq11 (by with_reducible assumption) ?_)
    | (simp -zeta only [keeps_mk]; with_reducible apply KeepsF.upd)
    | dsimp -zeta only

theorem keeps_endJobIn (k j st detail : Nat) (s : State) (h_s : Keeps L r0 s) (l_freeCtr : L .freeCtr := by assumption) (l_rf : L .rf := by assumption) (l_seam : L .seam := by assumption) (l_sched : L .sched := by assumption) (l_pat : L .pat := by assumption) (l_rings : L .rings := by assumption) (l_hmc : L .hmc := by assumption) (l_cxt : L .cxt := by assumption) (l_mem : L .mem := by assumption) (l_portA : L .portA := by assumption) (l_portB : L .portB := by assumption) (l_i3c : L .i3c := by assumption) (l_dev : L .dev := by assumption) (l_pkt : L .pkt := by assumption) (l_packs : L .packs := by assumption) (l_scans : L .scans := by assumption) (l_opers : L .opers := by assumption) (l_ma : L .ma := by assumption) (l_out : L .out := by assumption) :
    Keeps L r0 (endJobIn k j st detail s) := by
  unfold endJobIn
  repeat' first
    | with_reducible assumption
    | with_reducible exact Or.inl rfl | with_reducible exact Or.inr (by assumption)
    | with_reducible exact Nat.le_refl _ | with_reducible exact List.prefix_rfl | exact id | exact Nat.le_add_right _ _ | exact DevSt.fuseKept_of (Nat.le_refl _) rfl
    | with_reducible apply keeps_setJob
    | with_reducible apply keeps_deadCmds
    | with_reducible apply keeps_missAll
    | with_reducible apply keeps_settleJob
    | with_reducible apply keeps_retireTask
    | with_reducible apply Keeps.foldl
    | with_reducible apply Keeps.foldl_fst
    | with_reducible apply Keeps.foldl_snd
    | with_reducible apply Keeps.foldl_fst2
    | intro _
    | (extract_lets +onlyGivenNames x; refine Keeps.cut (v := x) ?_ ?_; rotate_left; intro hx; clear_value x; rotate_left; subst x)
    | (extract_lets +onlyGivenNames x; subst x)
    | with_reducible apply Keeps.ite | with_reducible apply Keeps.ite1 | with_reducible apply Keeps.ite2 | with_reducible apply Keeps.ite11
    | split
    | (refine Keeps.of_eq1 (by with_reducible assumption) ?_)
    | (refine Keeps.of_eq2 (by with_reducible assumption) ?_)
    | (refine Keeps.of_eq11 (by with_reducible assumption) ?_)
    | (simp -zeta only [keeps_mk]; with_reducible apply KeepsF.upd)
    | dsimp -zeta only

theorem keeps_endJob (j st : Nat) (s : State) (h_s : Keeps L r0 s) (l_freeCtr : L .freeCtr := by assumption) (l_rf : L .rf := by assumption) (l_seam : L .seam := by assumption) (l_sched : L .sched := by assumption) (l_pat : L .pat := by assumption) (l_rings : L .rings := by assumption) (l_hmc : L .hmc := by assumption) (l_cxt : L .cxt := by assumption) (l_mem : L .mem := by assumption) (l_portA : L .portA := by assumption) (l_portB : L .portB := by assumption) (l_i3c : L .i3c := by assumption) (l_dev : L .dev := by assumption) (l_pkt : L .pkt := by assumption) (l_packs : L .packs := by assumption) (l_scans : L .scans := by assumption) (l_opers : L .opers := by assumption) (l_ma : L .ma := by assumption) (l_out : L .out := by assumption) :
    Keeps L r0 (endJob j st s) := by
  unfold endJob
  repeat' first
    | with_reducible assumption
    | with_reducible exact Or.inl rfl | with_reducible exact Or.inr (by assumption)
    | with_reducible exact Nat.le_refl _ | with_reducible exact List.prefix_rfl | exact id | exact Nat.le_add_right _ _ | exact DevSt.fuseKept_of (Nat.le_refl _) rfl
    | with_reducible apply keeps_endJobIn
    | intro _
    | (extract_lets +onlyGivenNames x; refine Keeps.cut (v := x) ?_ ?_; rotate_left; intro hx; clear_value x; rotate_left; subst x)
    | (extract_lets +onlyGivenNames x; subst x)
    | with_reducible apply Keeps.ite | with_reducible apply Keeps.ite1 | with_reducible apply Keeps.ite2 | with_reducible apply Keeps.ite11
    | split
    | (refine Keeps.of_eq1 (by with_reducible assumption) ?_)
    | (refine Keeps.of_eq2 (by with_reducible assumption) ?_)
    | (refine Keeps.of_eq11 (by with_reducible assumption) ?_)
    | (simp -zeta only [keeps_mk]; with_reducible apply KeepsF.upd)
    | dsimp -zeta only

theorem keeps_failJob (j st : Nat) (s : State) (h_s : Keeps L r0 s) (l_freeCtr : L .freeCtr := by assumption) (l_rf : L .rf := by assumption) (l_seam : L .seam := by assumption) (l_sched : L .sched := by assumption) (l_pat : L .pat := by assumption) (l_rings : L .rings := by assumption) (l_hmc : L .hmc := by assumption) (l_cxt : L .cxt := by assumption) (l_mem : L .mem := by assumption) (l_portA : L .portA := by assumption) (l_portB : L .portB := by assumption) (l_i3c : L .i3c := by assumption) (l_dev : L .dev := by assumption) (l_pkt : L .pkt := by assumption) (l_packs : L .packs := by assumption) (l_scans : L .scans := by assumption) (l_opers : L .opers := by assumption) (l_ma : L .ma := by assumption) (l_out : L .out := by assumption) :
    Keeps L r0 (failJob j st s) := by
  unfold failJob
  repeat' first
    | with_reducible assumption
    | with_reducible exact Or.inl rfl | with_reducible exact Or.inr (by assumption)
    | with_reducible exact Nat.le_refl _ | with_reducible exact List.prefix_rfl | exact id | exact Nat.le_add_right _ _ | exact DevSt.fuseKept_of (Nat.le_refl _) rfl
    | with_reducible apply keeps_endJob
    | with_reducible apply keeps_setJob
    | intro _
    | (extract_lets +onlyGivenNames x; refine Keeps.cut (v := x) ?_ ?_; rotate_left; intro hx; clear_value x; rotate_left; subst x)
    | (extract_lets +onlyGivenNames x; subst x)
    | with_reducible apply Keeps.ite | with_reducible apply Keeps.ite1 | with_reducible apply Keeps.ite2 | with_reducible apply Keeps.ite11
    | split
    | (refine Keeps.of_eq1 (by with_reducible assumption) ?_)
    | (refine Keeps.of_eq2 (by with_reducible assumption) ?_)
    | (refine Keeps.of_eq11 (by with_reducible assumption) ?_)
    | (simp -zeta only [keeps_mk]; with_reducible apply KeepsF.upd)
    | dsimp -zeta only

theorem keeps_endInstJobs (i st : Nat) (s : State) (h_s : Keeps L r0 s) (l_freeCtr : L .freeCtr := by assumption) (l_rf : L .rf := by assumption) (l_seam : L .seam := by assumption) (l_sched : L .sched := by assumption) (l_pat : L .pat := by assumption) (l_rings : L .rings := by assumption) (l_hmc : L .hmc := by assumption) (l_cxt : L .cxt := by assumption) (l_mem : L .mem := by assumption) (l_portA : L .portA := by assumption) (l_portB : L .portB := by assumption) (l_i3c : L .i3c := by assumption) (l_dev : L .dev := by assumption) (l_pkt : L .pkt := by assumption) (l_packs : L .packs := by assumption) (l_scans : L .scans := by assumption) (l_opers : L .opers := by assumption) (l_ma : L .ma := by assumption) (l_out : L .out := by assumption) :
    Keeps L r0 (endInstJobs i st s) := by
  unfold endInstJobs
  repeat' first
    | with_reducible assumption
    | with_reducible exact Or.inl rfl | with_reducible exact Or.inr (by assumption)
    | with_reducible exact Nat.le_refl _ | with_reducible exact List.prefix_rfl | exact id | exact Nat.le_add_right _ _ | exact DevSt.fuseKept_of (Nat.le_refl _) rfl
    | with_reducible apply keeps_endJob
    | with_reducible apply Keeps.foldl
    | with_reducible apply Keeps.foldl_fst
    | with_reducible apply Keeps.foldl_snd
    | with_reducible apply Keeps.foldl_fst2
    | intro _
    | (extract_lets +onlyGivenNames x; refine Keeps.cut (v := x) ?_ ?_; rotate_left; intro hx; clear_value x; rotate_left; subst x)
    | (extract_lets +onlyGivenNames x; subst x)
    | with_reducible apply Keeps.ite | with_reducible apply Keeps.ite1 | with_reducible apply Keeps.ite2 | with_reducible apply Keeps.ite11
    | split
    | (refine Keeps.of_eq1 (by with_reducible assumption) ?_)
    | (refine Keeps.of_eq2 (by with_reducible assumption) ?_)
    | (refine Keeps.of_eq11 (by with_reducible assumption) ?_)
    | (simp -zeta only [keeps_mk]; with_reducible apply KeepsF.upd)
    | dsimp -zeta only

theorem keeps_makeReady (n : Nat) (s : State) (h_s : Keeps L r0 s) (l_sched : L .sched := by assumption) :
    Keeps L r0 (makeReady n s) := by
  unfold makeReady
  repeat' first
    | with_reducible assumption
    | with_reducible exact Or.inl rfl | with_reducible exact Or.inr (by assumption)
    | with_reducible exact Nat.le_refl _ | with_reducible exact List.prefix_rfl | exact id | exact Nat.le_add_right _ _ | exact DevSt.fuseKept_of (Nat.le_refl _) rfl
    | with_reducible apply keeps_setTask
    | intro _
    | (extract_lets +onlyGivenNames x; refine Keeps.cut (v := x) ?_ ?_; rotate_left; intro hx; clear_value x; rotate_left; subst x)
    | (extract_lets +onlyGivenNames x; subst x)
    | with_reducible apply Keeps.ite | with_reducible apply Keeps.ite1 | with_reducible apply Keeps.ite2 | with_reducible apply Keeps.ite11
    | split
    | (refine Keeps.of_eq1 (by with_reducible assumption) ?_)
    | (refine Keeps.of_eq2 (by with_reducible assumption) ?_)
    | (refine Keeps.of_eq11 (by with_reducible assumption) ?_)
    | (simp -zeta only [keeps_mk]; with_reducible apply KeepsF.upd)
    | dsimp -zeta only

end Sys2Proof.Machine
end

