-- ==== Sys2Proof/Laws/KeepsXlate.lean ====
section
/-! SUPPORT. `Keeps` of the functions of Machine/Xlate.lean. -/

namespace Sys2Proof.Machine

set_option linter.all false
set_option Elab.async false

variable {r0 : State} {L : Comp → Prop}


theorem keeps_setTlb (t : Nat) (es : List TlbEntry) (s : State) (h_s : Keeps L r0 s) (l_xl : L .xl := by assumption) :
    Keeps L r0 (setTlb t es s) := by
  unfold setTlb
  repeat' first
    | with_reducible assumption
    | with_reducible exact Or.inl rfl | with_reducible exact Or.inr (by assumption)
    | with_reducible exact Nat.le_refl _ | with_reducible exact List.prefix_rfl | exact id | exact Nat.le_add_right _ _ | exact DevSt.fuseKept_of (Nat.le_refl _) rfl
    | intro _
    | (extract_lets +onlyGivenNames x; refine Keeps.cut (v := x) ?_ ?_; rotate_left; intro hx; clear_value x; rotate_left; subst x)
    | (extract_lets +onlyGivenNames x; subst x)
    | with_reducible apply Keeps.ite | with_reducible apply Keeps.ite1 | with_reducible apply Keeps.ite2 | with_reducible apply Keeps.ite11
    | split
    | (refine Keeps.of_eq1 (by with_reducible assumption) ?_)
    | (refine Keeps.of_eq2 (by with_reducible assumption) ?_)
    | (refine Keeps.of_eq11 (by with_reducible assumption) ?_)
    | (simp -zeta only [keeps_mk]; with_reducible apply KeepsF.upd)
    | dsimp -zeta only

theorem keeps_tlbDrop (t : Nat) (f : TlbEntry → Bool) (s : State) (h_s : Keeps L r0 s) (l_xl : L .xl := by assumption) :
    Keeps L r0 (tlbDrop t f s) := by
  unfold tlbDrop
  repeat' first
    | with_reducible assumption
    | with_reducible exact Or.inl rfl | with_reducible exact Or.inr (by assumption)
    | with_reducible exact Nat.le_refl _ | with_reducible exact List.prefix_rfl | exact id | exact Nat.le_add_right _ _ | exact DevSt.fuseKept_of (Nat.le_refl _) rfl
    | with_reducible apply keeps_setTlb
    | intro _
    | (extract_lets +onlyGivenNames x; refine Keeps.cut (v := x) ?_ ?_; rotate_left; intro hx; clear_value x; rotate_left; subst x)
    | (extract_lets +onlyGivenNames x; subst x)
    | with_reducible apply Keeps.ite | with_reducible apply Keeps.ite1 | with_reducible apply Keeps.ite2 | with_reducible apply Keeps.ite11
    | split
    | (refine Keeps.of_eq1 (by with_reducible assumption) ?_)
    | (refine Keeps.of_eq2 (by with_reducible assumption) ?_)
    | (refine Keeps.of_eq11 (by with_reducible assumption) ?_)
    | (simp -zeta only [keeps_mk]; with_reducible apply KeepsF.upd)
    | dsimp -zeta only

theorem keeps_tlbDropAll (f : TlbEntry → Bool) (s : State) (h_s : Keeps L r0 s) (l_xl : L .xl := by assumption) :
    Keeps L r0 (tlbDropAll f s) := by
  unfold tlbDropAll
  repeat' first
    | with_reducible assumption
    | with_reducible exact Or.inl rfl | with_reducible exact Or.inr (by assumption)
    | with_reducible exact Nat.le_refl _ | with_reducible exact List.prefix_rfl | exact id | exact Nat.le_add_right _ _ | exact DevSt.fuseKept_of (Nat.le_refl _) rfl
    | intro _
    | (extract_lets +onlyGivenNames x; refine Keeps.cut (v := x) ?_ ?_; rotate_left; intro hx; clear_value x; rotate_left; subst x)
    | (extract_lets +onlyGivenNames x; subst x)
    | with_reducible apply Keeps.ite | with_reducible apply Keeps.ite1 | with_reducible apply Keeps.ite2 | with_reducible apply Keeps.ite11
    | split
    | (refine Keeps.of_eq1 (by with_reducible assumption) ?_)
    | (refine Keeps.of_eq2 (by with_reducible assumption) ?_)
    | (refine Keeps.of_eq11 (by with_reducible assumption) ?_)
    | (simp -zeta only [keeps_mk]; with_reducible apply KeepsF.upd)
    | dsimp -zeta only

theorem keeps_tlbFill (t : Nat) (e : TlbEntry) (s : State) (h_s : Keeps L r0 s) (l_freeCtr : L .freeCtr := by assumption) (l_xl : L .xl := by assumption) :
    Keeps L r0 (tlbFill t e s) := by
  unfold tlbFill
  repeat' first
    | with_reducible assumption
    | with_reducible exact Or.inl rfl | with_reducible exact Or.inr (by assumption)
    | with_reducible exact Nat.le_refl _ | with_reducible exact List.prefix_rfl | exact id | exact Nat.le_add_right _ _ | exact DevSt.fuseKept_of (Nat.le_refl _) rfl
    | with_reducible apply keeps_setTlb
    | with_reducible apply keeps_takeFree
    | intro _
    | (extract_lets +onlyGivenNames x; refine Keeps.cut (v := x) ?_ ?_; rotate_left; intro hx; clear_value x; rotate_left; subst x)
    | (extract_lets +onlyGivenNames x; subst x)
    | with_reducible apply Keeps.ite | with_reducible apply Keeps.ite1 | with_reducible apply Keeps.ite2 | with_reducible apply Keeps.ite11
    | split
    | (refine Keeps.of_eq1 (by with_reducible assumption) ?_)
    | (refine Keeps.of_eq2 (by with_reducible assumption) ?_)
    | (refine Keeps.of_eq11 (by with_reducible assumption) ?_)
    | (simp -zeta only [keeps_mk]; with_reducible apply KeepsF.upd)
    | dsimp -zeta only

theorem keeps_stopInstance (i a : Nat) (s : State) (h_s : Keeps L r0 s) (l_freeCtr : L .freeCtr := by assumption) (l_rf : L .rf := by assumption) (l_seam : L .seam := by assumption) (l_sched : L .sched := by assumption) (l_pat : L .pat := by assumption) (l_rings : L .rings := by assumption) (l_xl : L .xl := by assumption) (l_hmc : L .hmc := by assumption) (l_cxt : L .cxt := by assumption) (l_mem : L .mem := by assumption) (l_portA : L .portA := by assumption) (l_portB : L .portB := by assumption) (l_i3c : L .i3c := by assumption) (l_dev : L .dev := by assumption) (l_pkt : L .pkt := by assumption) (l_packs : L .packs := by assumption) (l_scans : L .scans := by assumption) (l_opers : L .opers := by assumption) (l_ma : L .ma := by assumption) (l_out : L .out := by assumption) :
    Keeps L r0 (stopInstance i a s) := by
  unfold stopInstance
  repeat' first
    | with_reducible assumption
    | with_reducible exact Or.inl rfl | with_reducible exact Or.inr (by assumption)
    | with_reducible exact Nat.le_refl _ | with_reducible exact List.prefix_rfl | exact id | exact Nat.le_add_right _ _ | exact DevSt.fuseKept_of (Nat.le_refl _) rfl
    | with_reducible apply keeps_endInstJobs
    | with_reducible apply keeps_pulse
    | intro _
    | (extract_lets +onlyGivenNames x; refine Keeps.cut (v := x) ?_ ?_; rotate_left; intro hx; clear_value x; rotate_left; subst x)
    | (extract_lets +onlyGivenNames x; subst x)
    | with_reducible apply Keeps.ite | with_reducible apply Keeps.ite1 | with_reducible apply Keeps.ite2 | with_reducible apply Keeps.ite11
    | split
    | (refine Keeps.of_eq1 (by with_reducible assumption) ?_)
    | (refine Keeps.of_eq2 (by with_reducible assumption) ?_)
    | (refine Keeps.of_eq11 (by with_reducible assumption) ?_)
    | (simp -zeta only [keeps_mk]; with_reducible apply KeepsF.upd)
    | dsimp -zeta only

theorem keeps_walk (ini : Initiator) (i slot : Nat) (pocket : Bool) (acc : Acc) (s : State) (h_s : Keeps L r0 s) (l_freeCtr : L .freeCtr := by assumption) (l_rf : L .rf := by assumption) (l_seam : L .seam := by assumption) (l_sched : L .sched := by assumption) (l_pat : L .pat := by assumption) (l_rings : L .rings := by assumption) (l_xl : L .xl := by assumption) (l_hmc : L .hmc := by assumption) (l_cxt : L .cxt := by assumption) (l_mem : L .mem := by assumption) (l_portA : L .portA := by assumption) (l_portB : L .portB := by assumption) (l_i3c : L .i3c := by assumption) (l_dev : L .dev := by assumption) (l_pkt : L .pkt := by assumption) (l_packs : L .packs := by assumption) (l_scans : L .scans := by assumption) (l_opers : L .opers := by assumption) (l_ma : L .ma := by assumption) (l_out : L .out := by assumption) :
    Keeps L r0 (walk ini i slot pocket acc s).1 := by
  unfold walk
  repeat' first
    | with_reducible assumption
    | with_reducible exact Or.inl rfl | with_reducible exact Or.inr (by assumption)
    | with_reducible exact Nat.le_refl _ | with_reducible exact List.prefix_rfl | exact id | exact Nat.le_add_right _ _ | exact DevSt.fuseKept_of (Nat.le_refl _) rfl
    | with_reducible apply keeps_bump
    | with_reducible apply keeps_stopInstance
    | with_reducible apply keeps_meshRead
    | with_reducible apply keeps_memSwap
    | intro _
    | (extract_lets +onlyGivenNames x; refine Keeps.cut (v := x) ?_ ?_; rotate_left; intro hx; clear_value x; rotate_left; subst x)
    | (extract_lets +onlyGivenNames x; subst x)
    | with_reducible apply Keeps.ite | with_reducible apply Keeps.ite1 | with_reducible apply Keeps.ite2 | with_reducible apply Keeps.ite11
    | split
    | (refine Keeps.of_eq1 (by with_reducible assumption) ?_)
    | (refine Keeps.of_eq2 (by with_reducible assumption) ?_)
    | (refine Keeps.of_eq11 (by with_reducible assumption) ?_)
    | (simp -zeta only [keeps_mk]; with_reducible apply KeepsF.upd)
    | dsimp -zeta only

theorem keeps_setDirty (t i slot : Nat) (pocket : Bool) (acc : Acc) (e : Desc) (s : State) (h_s : Keeps L r0 s) (l_freeCtr : L .freeCtr := by assumption) (l_rf : L .rf := by assumption) (l_seam : L .seam := by assumption) (l_sched : L .sched := by assumption) (l_pat : L .pat := by assumption) (l_rings : L .rings := by assumption) (l_xl : L .xl := by assumption) (l_hmc : L .hmc := by assumption) (l_cxt : L .cxt := by assumption) (l_mem : L .mem := by assumption) (l_portA : L .portA := by assumption) (l_portB : L .portB := by assumption) (l_i3c : L .i3c := by assumption) (l_dev : L .dev := by assumption) (l_pkt : L .pkt := by assumption) (l_packs : L .packs := by assumption) (l_scans : L .scans := by assumption) (l_opers : L .opers := by assumption) (l_ma : L .ma := by assumption) (l_out : L .out := by assumption) :
    Keeps L r0 (setDirty t i slot pocket acc e s).1 := by
  unfold setDirty
  repeat' first
    | with_reducible assumption
    | with_reducible exact Or.inl rfl | with_reducible exact Or.inr (by assumption)
    | with_reducible exact Nat.le_refl _ | with_reducible exact List.prefix_rfl | exact id | exact Nat.le_add_right _ _ | exact DevSt.fuseKept_of (Nat.le_refl _) rfl
    | with_reducible apply keeps_memSwap
    | with_reducible apply keeps_bump
    | with_reducible apply keeps_tlbFill
    | with_reducible apply keeps_tlbDrop
    | with_reducible apply keeps_walk
    | intro _
    | (extract_lets +onlyGivenNames x; refine Keeps.cut (v := x) ?_ ?_; rotate_left; intro hx; clear_value x; rotate_left; subst x)
    | (extract_lets +onlyGivenNames x; subst x)
    | with_reducible apply Keeps.ite | with_reducible apply Keeps.ite1 | with_reducible apply Keeps.ite2 | with_reducible apply Keeps.ite11
    | split
    | (refine Keeps.of_eq1 (by with_reducible assumption) ?_)
    | (refine Keeps.of_eq2 (by with_reducible assumption) ?_)
    | (refine Keeps.of_eq11 (by with_reducible assumption) ?_)
    | (simp -zeta only [keeps_mk]; with_reducible apply KeepsF.upd)
    | dsimp -zeta only

theorem keeps_translateTlb (t i va : Nat) (pocket : Bool) (acc : Acc) (s : State) (h_s : Keeps L r0 s) (l_freeCtr : L .freeCtr := by assumption) (l_rf : L .rf := by assumption) (l_seam : L .seam := by assumption) (l_sched : L .sched := by assumption) (l_pat : L .pat := by assumption) (l_rings : L .rings := by assumption) (l_xl : L .xl := by assumption) (l_hmc : L .hmc := by assumption) (l_cxt : L .cxt := by assumption) (l_mem : L .mem := by assumption) (l_portA : L .portA := by assumption) (l_portB : L .portB := by assumption) (l_i3c : L .i3c := by assumption) (l_dev : L .dev := by assumption) (l_pkt : L .pkt := by assumption) (l_packs : L .packs := by assumption) (l_scans : L .scans := by assumption) (l_opers : L .opers := by assumption) (l_ma : L .ma := by assumption) (l_out : L .out := by assumption) :
    Keeps L r0 (translateTlb t i va pocket acc s).1 := by
  unfold translateTlb
  repeat' first
    | with_reducible assumption
    | with_reducible exact Or.inl rfl | with_reducible exact Or.inr (by assumption)
    | with_reducible exact Nat.le_refl _ | with_reducible exact List.prefix_rfl | exact id | exact Nat.le_add_right _ _ | exact DevSt.fuseKept_of (Nat.le_refl _) rfl
    | with_reducible apply keeps_walk
    | with_reducible apply keeps_tlbFill
    | with_reducible apply keeps_setDirty
    | intro _
    | (extract_lets +onlyGivenNames x; refine Keeps.cut (v := x) ?_ ?_; rotate_left; intro hx; clear_value x; rotate_left; subst x)
    | (extract_lets +onlyGivenNames x; subst x)
    | with_reducible apply Keeps.ite | with_reducible apply Keeps.ite1 | with_reducible apply Keeps.ite2 | with_reducible apply Keeps.ite11
    | split
    | (refine Keeps.of_eq1 (by with_reducible assumption) ?_)
    | (refine Keeps.of_eq2 (by with_reducible assumption) ?_)
    | (refine Keeps.of_eq11 (by with_reducible assumption) ?_)
    | (simp -zeta only [keeps_mk]; with_reducible apply KeepsF.upd)
    | dsimp -zeta only

theorem keeps_translate (t i va : Nat) (acc : Acc) (s : State) (h_s : Keeps L r0 s) (l_freeCtr : L .freeCtr := by assumption) (l_rf : L .rf := by assumption) (l_seam : L .seam := by assumption) (l_sched : L .sched := by assumption) (l_pat : L .pat := by assumption) (l_rings : L .rings := by assumption) (l_xl : L .xl := by assumption) (l_hmc : L .hmc := by assumption) (l_cxt : L .cxt := by assumption) (l_mem : L .mem := by assumption) (l_portA : L .portA := by assumption) (l_portB : L .portB := by assumption) (l_i3c : L .i3c := by assumption) (l_dev : L .dev := by assumption) (l_pkt : L .pkt := by assumption) (l_packs : L .packs := by assumption) (l_scans : L .scans := by assumption) (l_opers : L .opers := by assumption) (l_ma : L .ma := by assumption) (l_out : L .out := by assumption) :
    Keeps L r0 (translate t i va acc s).1 := by
  unfold translate
  repeat' first
    | with_reducible assumption
    | with_reducible exact Or.inl rfl | with_reducible exact Or.inr (by assumption)
    | with_reducible exact Nat.le_refl _ | with_reducible exact List.prefix_rfl | exact id | exact Nat.le_add_right _ _ | exact DevSt.fuseKept_of (Nat.le_refl _) rfl
    | with_reducible apply keeps_translateTlb
    | intro _
    | (extract_lets +onlyGivenNames x; refine Keeps.cut (v := x) ?_ ?_; rotate_left; intro hx; clear_value x; rotate_left; subst x)
    | (extract_lets +onlyGivenNames x; subst x)
    | with_reducible apply Keeps.ite | with_reducible apply Keeps.ite1 | with_reducible apply Keeps.ite2 | with_reducible apply Keeps.ite11
    | split
    | (refine Keeps.of_eq1 (by with_reducible assumption) ?_)
    | (refine Keeps.of_eq2 (by with_reducible assumption) ?_)
    | (refine Keeps.of_eq11 (by with_reducible assumption) ?_)
    | (simp -zeta only [keeps_mk]; with_reducible apply KeepsF.upd)
    | dsimp -zeta only

theorem keeps_vRead (t i va n : Nat) (s : State) (h_s : Keeps L r0 s) (l_freeCtr : L .freeCtr := by assumption) (l_rf : L .rf := by assumption) (l_seam : L .seam := by assumption) (l_sched : L .sched := by assumption) (l_pat : L .pat := by assumption) (l_rings : L .rings := by assumption) (l_xl : L .xl := by assumption) (l_hmc : L .hmc := by assumption) (l_cxt : L .cxt := by assumption) (l_mem : L .mem := by assumption) (l_portA : L .portA := by assumption) (l_portB : L .portB := by assumption) (l_i3c : L .i3c := by assumption) (l_dev : L .dev := by assumption) (l_pkt : L .pkt := by assumption) (l_packs : L .packs := by assumption) (l_scans : L .scans := by assumption) (l_opers : L .opers := by assumption) (l_ma : L .ma := by assumption) (l_out : L .out := by assumption) :
    Keeps L r0 (vRead t i va n s).1 := by
  unfold vRead
  repeat' first
    | with_reducible assumption
    | with_reducible exact Or.inl rfl | with_reducible exact Or.inr (by assumption)
    | with_reducible exact Nat.le_refl _ | with_reducible exact List.prefix_rfl | exact id | exact Nat.le_add_right _ _ | exact DevSt.fuseKept_of (Nat.le_refl _) rfl
    | with_reducible apply keeps_translate
    | with_reducible apply keeps_meshRead
    | with_reducible apply Keeps.foldl
    | with_reducible apply Keeps.foldl_fst
    | with_reducible apply Keeps.foldl_snd
    | with_reducible apply Keeps.foldl_fst2
    | intro _
    | (extract_lets +onlyGivenNames x; refine Keeps.cut (v := x) ?_ ?_; rotate_left; intro hx; clear_value x; rotate_left; subst x)
    | (extract_lets +onlyGivenNames x; subst x)
    | with_reducible apply Keeps.ite | with_reducible apply Keeps.ite1 | with_reducible apply Keeps.ite2 | with_reducible apply Keeps.ite11
    | split
    | (refine Keeps.of_eq1 (by with_reducible assumption) ?_)
    | (refine Keeps.of_eq2 (by with_reducible assumption) ?_)
    | (refine Keeps.of_eq11 (by with_reducible assumption) ?_)
    | (simp -zeta only [keeps_mk]; with_reducible apply KeepsF.upd)
    | dsimp -zeta only

theorem keeps_vWrite (t i va : Nat) (bs : List Byte) (s : State) (h_s : Keeps L r0 s) (l_freeCtr : L .freeCtr := by assumption) (l_rf : L .rf := by assumption) (l_seam : L .seam := by assumption) (l_sched : L .sched := by assumption) (l_pat : L .pat := by assumption) (l_rings : L .rings := by assumption) (l_xl : L .xl := by assumption) (l_hmc : L .hmc := by assumption) (l_cxt : L .cxt := by assumption) (l_mem : L .mem := by assumption) (l_portA : L .portA := by assumption) (l_portB : L .portB := by assumption) (l_i3c : L .i3c := by assumption) (l_dev : L .dev := by assumption) (l_pkt : L .pkt := by assumption) (l_packs : L .packs := by assumption) (l_scans : L .scans := by assumption) (l_opers : L .opers := by assumption) (l_ma : L .ma := by assumption) (l_out : L .out := by assumption) :
    Keeps L r0 (vWrite t i va bs s).1 := by
  unfold vWrite
  repeat' first
    | with_reducible assumption
    | with_reducible exact Or.inl rfl | with_reducible exact Or.inr (by assumption)
    | with_reducible exact Nat.le_refl _ | with_reducible exact List.prefix_rfl | exact id | exact Nat.le_add_right _ _ | exact DevSt.fuseKept_of (Nat.le_refl _) rfl
    | with_reducible apply keeps_translate
    | with_reducible apply keeps_meshWrite
    | with_reducible apply Keeps.foldl
    | with_reducible apply Keeps.foldl_fst
    | with_reducible apply Keeps.foldl_snd
    | with_reducible apply Keeps.foldl_fst2
    | intro _
    | (extract_lets +onlyGivenNames x; refine Keeps.cut (v := x) ?_ ?_; rotate_left; intro hx; clear_value x; rotate_left; subst x)
    | (extract_lets +onlyGivenNames x; subst x)
    | with_reducible apply Keeps.ite | with_reducible apply Keeps.ite1 | with_reducible apply Keeps.ite2 | with_reducible apply Keeps.ite11
    | split
    | (refine Keeps.of_eq1 (by with_reducible assumption) ?_)
    | (refine Keeps.of_eq2 (by with_reducible assumption) ?_)
    | (refine Keeps.of_eq11 (by with_reducible assumption) ?_)
    | (simp -zeta only [keeps_mk]; with_reducible apply KeepsF.upd)
    | dsimp -zeta only

theorem keeps_vReadNat (t i va n : Nat) (s : State) (h_s : Keeps L r0 s) (l_freeCtr : L .freeCtr := by assumption) (l_rf : L .rf := by assumption) (l_seam : L .seam := by assumption) (l_sched : L .sched := by assumption) (l_pat : L .pat := by assumption) (l_rings : L .rings := by assumption) (l_xl : L .xl := by assumption) (l_hmc : L .hmc := by assumption) (l_cxt : L .cxt := by assumption) (l_mem : L .mem := by assumption) (l_portA : L .portA := by assumption) (l_portB : L .portB := by assumption) (l_i3c : L .i3c := by assumption) (l_dev : L .dev := by assumption) (l_pkt : L .pkt := by assumption) (l_packs : L .packs := by assumption) (l_scans : L .scans := by assumption) (l_opers : L .opers := by assumption) (l_ma : L .ma := by assumption) (l_out : L .out := by assumption) :
    Keeps L r0 (vReadNat t i va n s).1 := by
  unfold vReadNat
  repeat' first
    | with_reducible assumption
    | with_reducible exact Or.inl rfl | with_reducible exact Or.inr (by assumption)
    | with_reducible exact Nat.le_refl _ | with_reducible exact List.prefix_rfl | exact id | exact Nat.le_add_right _ _ | exact DevSt.fuseKept_of (Nat.le_refl _) rfl
    | with_reducible apply keeps_vRead
    | intro _
    | (extract_lets +onlyGivenNames x; refine Keeps.cut (v := x) ?_ ?_; rotate_left; intro hx; clear_value x; rotate_left; subst x)
    | (extract_lets +onlyGivenNames x; subst x)
    | with_reducible apply Keeps.ite | with_reducible apply Keeps.ite1 | with_reducible apply Keeps.ite2 | with_reducible apply Keeps.ite11
    | split
    | (refine Keeps.of_eq1 (by with_reducible assumption) ?_)
    | (refine Keeps.of_eq2 (by with_reducible assumption) ?_)
    | (refine Keeps.of_eq11 (by with_reducible assumption) ?_)
    | (simp -zeta only [keeps_mk]; with_reducible apply KeepsF.upd)
    | dsimp -zeta only

end Sys2Proof.Machine
end

