-- ==== Sys2Proof/Laws/KeepsTasks.lean ====
section
/-! SUPPORT. `Keeps` of the functions of Machine/Tasks.lean. -/

namespace Sys2Proof.Machine

set_option linter.all false
set_option Elab.async false

variable {r0 : State} {L : Comp → Prop}


theorem keeps_resetPocket (p : Nat) (s : State) (h_s : Keeps L r0 s) (l_pkt : L .pkt := by assumption) :
    Keeps L r0 (resetPocket p s) := by
  unfold resetPocket
  repeat' first
    | with_reducible assumption
    | with_reducible exact Or.inl rfl | with_reducible exact Or.inr (by assumption)
    | with_reducible exact Nat.le_refl _ | with_reducible exact List.prefix_rfl | exact id | exact Nat.le_add_right _ _ | exact DevSt.fuseKept_of (Nat.le_refl _) rfl
    | with_reducible apply keeps_setPkt
    | intro _
    | (extract_lets +onlyGivenNames x; refine Keeps.cut (v := x) ?_ ?_; rotate_left; intro hx; clear_value x; rotate_left; subst x)
    | (extract_lets +onlyGivenNames x; subst x)
    | with_reducible apply Keeps.ite | with_reducible apply Keeps.ite1 | with_reducible apply Keeps.ite2 | with_reducible apply Keeps.ite11
    | split
    | (refine Keeps.of_eq1 (by with_reducible assumption) ?_)
    | (refine Keeps.of_eq2 (by with_reducible assumption) ?_)
    | (refine Keeps.of_eq11 (by with_reducible assumption) ?_)
    | (simp -zeta only [keeps_mk]; with_reducible apply KeepsF.upd)
    | dsimp -zeta only

theorem keeps_trap (p cause epc taddr : Nat) (s : State) (h_s : Keeps L r0 s) (l_freeCtr : L .freeCtr := by assumption) (l_rf : L .rf := by assumption) (l_seam : L .seam := by assumption) (l_sched : L .sched := by assumption) (l_pat : L .pat := by assumption) (l_rings : L .rings := by assumption) (l_hmc : L .hmc := by assumption) (l_cxt : L .cxt := by assumption) (l_mem : L .mem := by assumption) (l_portA : L .portA := by assumption) (l_portB : L .portB := by assumption) (l_i3c : L .i3c := by assumption) (l_dev : L .dev := by assumption) (l_pkt : L .pkt := by assumption) (l_packs : L .packs := by assumption) (l_scans : L .scans := by assumption) (l_opers : L .opers := by assumption) (l_ma : L .ma := by assumption) (l_out : L .out := by assumption) :
    Keeps L r0 (trap p cause epc taddr s) := by
  unfold trap
  repeat' first
    | with_reducible assumption
    | with_reducible exact Or.inl rfl | with_reducible exact Or.inr (by assumption)
    | with_reducible exact Nat.le_refl _ | with_reducible exact List.prefix_rfl | exact id | exact Nat.le_add_right _ _ | exact DevSt.fuseKept_of (Nat.le_refl _) rfl
    | with_reducible apply keeps_contained
    | with_reducible apply keeps_pulse
    | with_reducible apply keeps_recErr
    | with_reducible apply keeps_failJob
    | with_reducible apply keeps_settleJob
    | with_reducible apply keeps_setTask
    | with_reducible apply keeps_resetPocket
    | with_reducible apply keeps_freePocket
    | with_reducible apply keeps_bump
    | with_reducible apply keeps_setPkt
    | intro _
    | (extract_lets +onlyGivenNames x; refine Keeps.cut (v := x) ?_ ?_; rotate_left; intro hx; clear_value x; rotate_left; subst x)
    | (extract_lets +onlyGivenNames x; subst x)
    | with_reducible apply Keeps.ite | with_reducible apply Keeps.ite1 | with_reducible apply Keeps.ite2 | with_reducible apply Keeps.ite11
    | split
    | (refine Keeps.of_eq1 (by with_reducible assumption) ?_)
    | (refine Keeps.of_eq2 (by with_reducible assumption) ?_)
    | (refine Keeps.of_eq11 (by with_reducible assumption) ?_)
    | (simp -zeta only [keeps_mk]; with_reducible apply KeepsF.upd)
    | dsimp -zeta only

theorem keeps_lvWake (p : Nat) (s : State) (h_s : Keeps L r0 s) (l_rf : L .rf := by assumption) (l_pkt : L .pkt := by assumption) :
    Keeps L r0 (lvWake p s) := by
  unfold lvWake
  repeat' first
    | with_reducible assumption
    | with_reducible exact Or.inl rfl | with_reducible exact Or.inr (by assumption)
    | with_reducible exact Nat.le_refl _ | with_reducible exact List.prefix_rfl | exact id | exact Nat.le_add_right _ _ | exact DevSt.fuseKept_of (Nat.le_refl _) rfl
    | with_reducible apply keeps_bump
    | with_reducible apply keeps_setPkt
    | intro _
    | (extract_lets +onlyGivenNames x; refine Keeps.cut (v := x) ?_ ?_; rotate_left; intro hx; clear_value x; rotate_left; subst x)
    | (extract_lets +onlyGivenNames x; subst x)
    | with_reducible apply Keeps.ite | with_reducible apply Keeps.ite1 | with_reducible apply Keeps.ite2 | with_reducible apply Keeps.ite11
    | split
    | (refine Keeps.of_eq1 (by with_reducible assumption) ?_)
    | (refine Keeps.of_eq2 (by with_reducible assumption) ?_)
    | (refine Keeps.of_eq11 (by with_reducible assumption) ?_)
    | (simp -zeta only [keeps_mk]; with_reducible apply KeepsF.upd)
    | dsimp -zeta only

theorem keeps_createNext (j : Nat) (s : State) (h_s : Keeps L r0 s) (l_freeCtr : L .freeCtr := by assumption) (l_rf : L .rf := by assumption) (l_seam : L .seam := by assumption) (l_sched : L .sched := by assumption) (l_pat : L .pat := by assumption) (l_rings : L .rings := by assumption) (l_xl : L .xl := by assumption) (l_hmc : L .hmc := by assumption) (l_cxt : L .cxt := by assumption) (l_mem : L .mem := by assumption) (l_portA : L .portA := by assumption) (l_portB : L .portB := by assumption) (l_i3c : L .i3c := by assumption) (l_dev : L .dev := by assumption) (l_pkt : L .pkt := by assumption) (l_packs : L .packs := by assumption) (l_scans : L .scans := by assumption) (l_opers : L .opers := by assumption) (l_ma : L .ma := by assumption) (l_out : L .out := by assumption) :
    Keeps L r0 (createNext j s) := by
  unfold createNext
  repeat' first
    | with_reducible assumption
    | with_reducible exact Or.inl rfl | with_reducible exact Or.inr (by assumption)
    | with_reducible exact Nat.le_refl _ | with_reducible exact List.prefix_rfl | exact id | exact Nat.le_add_right _ _ | exact DevSt.fuseKept_of (Nat.le_refl _) rfl
    | with_reducible apply keeps_setJob
    | with_reducible apply keeps_setTask
    | with_reducible apply keeps_vWrite
    | with_reducible apply keeps_endJob
    | intro _
    | (extract_lets +onlyGivenNames x; refine Keeps.cut (v := x) ?_ ?_; rotate_left; intro hx; clear_value x; rotate_left; subst x)
    | (extract_lets +onlyGivenNames x; subst x)
    | with_reducible apply Keeps.ite | with_reducible apply Keeps.ite1 | with_reducible apply Keeps.ite2 | with_reducible apply Keeps.ite11
    | split
    | (refine Keeps.of_eq1 (by with_reducible assumption) ?_)
    | (refine Keeps.of_eq2 (by with_reducible assumption) ?_)
    | (refine Keeps.of_eq11 (by with_reducible assumption) ?_)
    | (simp -zeta only [keeps_mk]; with_reducible apply KeepsF.upd)
    | dsimp -zeta only

theorem keeps_createAll (j : Nat) (s : State) (h_s : Keeps L r0 s) (l_freeCtr : L .freeCtr := by assumption) (l_rf : L .rf := by assumption) (l_seam : L .seam := by assumption) (l_sched : L .sched := by assumption) (l_pat : L .pat := by assumption) (l_rings : L .rings := by assumption) (l_xl : L .xl := by assumption) (l_hmc : L .hmc := by assumption) (l_cxt : L .cxt := by assumption) (l_mem : L .mem := by assumption) (l_portA : L .portA := by assumption) (l_portB : L .portB := by assumption) (l_i3c : L .i3c := by assumption) (l_dev : L .dev := by assumption) (l_pkt : L .pkt := by assumption) (l_packs : L .packs := by assumption) (l_scans : L .scans := by assumption) (l_opers : L .opers := by assumption) (l_ma : L .ma := by assumption) (l_out : L .out := by assumption) :
    Keeps L r0 (createAll j s) := by
  unfold createAll
  repeat' first
    | with_reducible assumption
    | with_reducible exact Or.inl rfl | with_reducible exact Or.inr (by assumption)
    | with_reducible exact Nat.le_refl _ | with_reducible exact List.prefix_rfl | exact id | exact Nat.le_add_right _ _ | exact DevSt.fuseKept_of (Nat.le_refl _) rfl
    | with_reducible apply keeps_forN
    | with_reducible apply keeps_createNext
    | intro _
    | (extract_lets +onlyGivenNames x; refine Keeps.cut (v := x) ?_ ?_; rotate_left; intro hx; clear_value x; rotate_left; subst x)
    | (extract_lets +onlyGivenNames x; subst x)
    | with_reducible apply Keeps.ite | with_reducible apply Keeps.ite1 | with_reducible apply Keeps.ite2 | with_reducible apply Keeps.ite11
    | split
    | (refine Keeps.of_eq1 (by with_reducible assumption) ?_)
    | (refine Keeps.of_eq2 (by with_reducible assumption) ?_)
    | (refine Keeps.of_eq11 (by with_reducible assumption) ?_)
    | (simp -zeta only [keeps_mk]; with_reducible apply KeepsF.upd)
    | dsimp -zeta only

theorem keeps_enterTask (p n : Nat) (s : State) (h_s : Keeps L r0 s) (l_freeCtr : L .freeCtr := by assumption) (l_rf : L .rf := by assumption) (l_seam : L .seam := by assumption) (l_sched : L .sched := by assumption) (l_hmc : L .hmc := by assumption) (l_cxt : L .cxt := by assumption) (l_mem : L .mem := by assumption) (l_portA : L .portA := by assumption) (l_portB : L .portB := by assumption) (l_i3c : L .i3c := by assumption) (l_dev : L .dev := by assumption) (l_pkt : L .pkt := by assumption) (l_out : L .out := by assumption) :
    Keeps L r0 (enterTask p n s) := by
  unfold enterTask
  repeat' first
    | with_reducible assumption
    | with_reducible exact Or.inl rfl | with_reducible exact Or.inr (by assumption)
    | with_reducible exact Nat.le_refl _ | with_reducible exact List.prefix_rfl | exact id | exact Nat.le_add_right _ _ | exact DevSt.fuseKept_of (Nat.le_refl _) rfl
    | with_reducible apply keeps_takeFree
    | with_reducible apply keeps_bump
    | with_reducible apply keeps_physWrite
    | with_reducible apply keeps_setPkt
    | with_reducible apply Keeps.foldl
    | with_reducible apply Keeps.foldl_fst
    | with_reducible apply Keeps.foldl_snd
    | with_reducible apply Keeps.foldl_fst2
    | intro _
    | (extract_lets +onlyGivenNames x; refine Keeps.cut (v := x) ?_ ?_; rotate_left; intro hx; clear_value x; rotate_left; subst x)
    | (extract_lets +onlyGivenNames x; subst x)
    | with_reducible apply Keeps.ite | with_reducible apply Keeps.ite1 | with_reducible apply Keeps.ite2 | with_reducible apply Keeps.ite11
    | split
    | (refine Keeps.of_eq1 (by with_reducible assumption) ?_)
    | (refine Keeps.of_eq2 (by with_reducible assumption) ?_)
    | (refine Keeps.of_eq11 (by with_reducible assumption) ?_)
    | (simp -zeta only [keeps_mk]; with_reducible apply KeepsF.upd)
    | dsimp -zeta only

theorem keeps_resumeTask (p n : Nat) (s : State) (h_s : Keeps L r0 s) (l_freeCtr : L .freeCtr := by assumption) (l_rf : L .rf := by assumption) (l_seam : L .seam := by assumption) (l_sched : L .sched := by assumption) (l_pat : L .pat := by assumption) (l_rings : L .rings := by assumption) (l_hmc : L .hmc := by assumption) (l_cxt : L .cxt := by assumption) (l_mem : L .mem := by assumption) (l_portA : L .portA := by assumption) (l_portB : L .portB := by assumption) (l_i3c : L .i3c := by assumption) (l_dev : L .dev := by assumption) (l_pkt : L .pkt := by assumption) (l_packs : L .packs := by assumption) (l_scans : L .scans := by assumption) (l_opers : L .opers := by assumption) (l_ma : L .ma := by assumption) (l_out : L .out := by assumption) :
    Keeps L r0 (resumeTask p n s) := by
  unfold resumeTask
  repeat' first
    | with_reducible assumption
    | with_reducible exact Or.inl rfl | with_reducible exact Or.inr (by assumption)
    | with_reducible exact Nat.le_refl _ | with_reducible exact List.prefix_rfl | exact id | exact Nat.le_add_right _ _ | exact DevSt.fuseKept_of (Nat.le_refl _) rfl
    | with_reducible apply keeps_meshRead
    | with_reducible apply keeps_physWrite
    | with_reducible apply keeps_setPkt
    | with_reducible apply keeps_failJob
    | intro _
    | (extract_lets +onlyGivenNames x; refine Keeps.cut (v := x) ?_ ?_; rotate_left; intro hx; clear_value x; rotate_left; subst x)
    | (extract_lets +onlyGivenNames x; subst x)
    | with_reducible apply Keeps.ite | with_reducible apply Keeps.ite1 | with_reducible apply Keeps.ite2 | with_reducible apply Keeps.ite11
    | split
    | (refine Keeps.of_eq1 (by with_reducible assumption) ?_)
    | (refine Keeps.of_eq2 (by with_reducible assumption) ?_)
    | (refine Keeps.of_eq11 (by with_reducible assumption) ?_)
    | (simp -zeta only [keeps_mk]; with_reducible apply KeepsF.upd)
    | dsimp -zeta only

theorem keeps_startTask (p n : Nat) (s : State) (h_s : Keeps L r0 s) (l_freeCtr : L .freeCtr := by assumption) (l_rf : L .rf := by assumption) (l_seam : L .seam := by assumption) (l_sched : L .sched := by assumption) (l_pat : L .pat := by assumption) (l_rings : L .rings := by assumption) (l_hmc : L .hmc := by assumption) (l_cxt : L .cxt := by assumption) (l_mem : L .mem := by assumption) (l_portA : L .portA := by assumption) (l_portB : L .portB := by assumption) (l_i3c : L .i3c := by assumption) (l_dev : L .dev := by assumption) (l_pkt : L .pkt := by assumption) (l_packs : L .packs := by assumption) (l_scans : L .scans := by assumption) (l_opers : L .opers := by assumption) (l_ma : L .ma := by assumption) (l_out : L .out := by assumption) :
    Keeps L r0 (startTask p n s) := by
  unfold startTask
  repeat' first
    | with_reducible assumption
    | with_reducible exact Or.inl rfl | with_reducible exact Or.inr (by assumption)
    | with_reducible exact Nat.le_refl _ | with_reducible exact List.prefix_rfl | exact id | exact Nat.le_add_right _ _ | exact DevSt.fuseKept_of (Nat.le_refl _) rfl
    | with_reducible apply keeps_setTask
    | with_reducible apply keeps_bumpFrame
    | with_reducible apply keeps_trace
    | with_reducible apply keeps_resumeTask
    | with_reducible apply keeps_enterTask
    | intro _
    | (extract_lets +onlyGivenNames x; refine Keeps.cut (v := x) ?_ ?_; rotate_left; intro hx; clear_value x; rotate_left; subst x)
    | (extract_lets +onlyGivenNames x; subst x)
    | with_reducible apply Keeps.ite | with_reducible apply Keeps.ite1 | with_reducible apply Keeps.ite2 | with_reducible apply Keeps.ite11
    | split
    | (refine Keeps.of_eq1 (by with_reducible assumption) ?_)
    | (refine Keeps.of_eq2 (by with_reducible assumption) ?_)
    | (refine Keeps.of_eq11 (by with_reducible assumption) ?_)
    | (simp -zeta only [keeps_mk]; with_reducible apply KeepsF.upd)
    | dsimp -zeta only

theorem keeps_sendDecrs (n : Nat) (t : TaskRec) (ks : List Nat) (s : State) (h_s : Keeps L r0 s) (l_rf : L .rf := by assumption) (l_sched : L .sched := by assumption) :
    Keeps L r0 (sendDecrs n t ks s) := by
  unfold sendDecrs
  repeat' first
    | with_reducible assumption
    | with_reducible exact Or.inl rfl | with_reducible exact Or.inr (by assumption)
    | with_reducible exact Nat.le_refl _ | with_reducible exact List.prefix_rfl | exact id | exact Nat.le_add_right _ _ | exact DevSt.fuseKept_of (Nat.le_refl _) rfl
    | with_reducible apply keeps_meshMessage
    | with_reducible apply Keeps.foldl
    | with_reducible apply Keeps.foldl_fst
    | with_reducible apply Keeps.foldl_snd
    | with_reducible apply Keeps.foldl_fst2
    | intro _
    | (extract_lets +onlyGivenNames x; refine Keeps.cut (v := x) ?_ ?_; rotate_left; intro hx; clear_value x; rotate_left; subst x)
    | (extract_lets +onlyGivenNames x; subst x)
    | with_reducible apply Keeps.ite | with_reducible apply Keeps.ite1 | with_reducible apply Keeps.ite2 | with_reducible apply Keeps.ite11
    | split
    | (refine Keeps.of_eq1 (by with_reducible assumption) ?_)
    | (refine Keeps.of_eq2 (by with_reducible assumption) ?_)
    | (refine Keeps.of_eq11 (by with_reducible assumption) ?_)
    | (simp -zeta only [keeps_mk]; with_reducible apply KeepsF.upd)
    | dsimp -zeta only

theorem keeps_retireNormal (n : Nat) (s : State) (h_s : Keeps L r0 s) (l_freeCtr : L .freeCtr := by assumption) (l_rf : L .rf := by assumption) (l_seam : L .seam := by assumption) (l_sched : L .sched := by assumption) (l_pat : L .pat := by assumption) (l_rings : L .rings := by assumption) (l_xl : L .xl := by assumption) (l_hmc : L .hmc := by assumption) (l_cxt : L .cxt := by assumption) (l_mem : L .mem := by assumption) (l_portA : L .portA := by assumption) (l_portB : L .portB := by assumption) (l_i3c : L .i3c := by assumption) (l_dev : L .dev := by assumption) (l_pkt : L .pkt := by assumption) (l_packs : L .packs := by assumption) (l_scans : L .scans := by assumption) (l_opers : L .opers := by assumption) (l_ma : L .ma := by assumption) (l_out : L .out := by assumption) :
    Keeps L r0 (retireNormal n s) := by
  unfold retireNormal
  repeat' first
    | with_reducible assumption
    | with_reducible exact Or.inl rfl | with_reducible exact Or.inr (by assumption)
    | with_reducible exact Nat.le_refl _ | with_reducible exact List.prefix_rfl | exact id | exact Nat.le_add_right _ _ | exact DevSt.fuseKept_of (Nat.le_refl _) rfl
    | with_reducible apply keeps_sendDecrs
    | with_reducible apply keeps_vRead
    | with_reducible apply keeps_failJob
    | with_reducible apply keeps_setTask
    | with_reducible apply keeps_settleJob
    | intro _
    | (extract_lets +onlyGivenNames x; refine Keeps.cut (v := x) ?_ ?_; rotate_left; intro hx; clear_value x; rotate_left; subst x)
    | (extract_lets +onlyGivenNames x; subst x)
    | with_reducible apply Keeps.ite | with_reducible apply Keeps.ite1 | with_reducible apply Keeps.ite2 | with_reducible apply Keeps.ite11
    | split
    | (refine Keeps.of_eq1 (by with_reducible assumption) ?_)
    | (refine Keeps.of_eq2 (by with_reducible assumption) ?_)
    | (refine Keeps.of_eq11 (by with_reducible assumption) ?_)
    | (simp -zeta only [keeps_mk]; with_reducible apply KeepsF.upd)
    | dsimp -zeta only

theorem keeps_endTask (p n st rows bytes : Nat) (s : State) (h_s : Keeps L r0 s) (l_freeCtr : L .freeCtr := by assumption) (l_rf : L .rf := by assumption) (l_seam : L .seam := by assumption) (l_sched : L .sched := by assumption) (l_pat : L .pat := by assumption) (l_rings : L .rings := by assumption) (l_xl : L .xl := by assumption) (l_hmc : L .hmc := by assumption) (l_cxt : L .cxt := by assumption) (l_mem : L .mem := by assumption) (l_portA : L .portA := by assumption) (l_portB : L .portB := by assumption) (l_i3c : L .i3c := by assumption) (l_dev : L .dev := by assumption) (l_pkt : L .pkt := by assumption) (l_packs : L .packs := by assumption) (l_scans : L .scans := by assumption) (l_opers : L .opers := by assumption) (l_ma : L .ma := by assumption) (l_out : L .out := by assumption) :
    Keeps L r0 (endTask p n st rows bytes s) := by
  unfold endTask
  repeat' first
    | with_reducible assumption
    | with_reducible exact Or.inl rfl | with_reducible exact Or.inr (by assumption)
    | with_reducible exact Nat.le_refl _ | with_reducible exact List.prefix_rfl | exact id | exact Nat.le_add_right _ _ | exact DevSt.fuseKept_of (Nat.le_refl _) rfl
    | with_reducible apply keeps_trace
    | with_reducible apply keeps_freePocket
    | with_reducible apply keeps_failJob
    | with_reducible apply keeps_setTask
    | with_reducible apply keeps_setJob
    | with_reducible apply keeps_retireNormal
    | intro _
    | (extract_lets +onlyGivenNames x; refine Keeps.cut (v := x) ?_ ?_; rotate_left; intro hx; clear_value x; rotate_left; subst x)
    | (extract_lets +onlyGivenNames x; subst x)
    | with_reducible apply Keeps.ite | with_reducible apply Keeps.ite1 | with_reducible apply Keeps.ite2 | with_reducible apply Keeps.ite11
    | split
    | (refine Keeps.of_eq1 (by with_reducible assumption) ?_)
    | (refine Keeps.of_eq2 (by with_reducible assumption) ?_)
    | (refine Keeps.of_eq11 (by with_reducible assumption) ?_)
    | (simp -zeta only [keeps_mk]; with_reducible apply KeepsF.upd)
    | dsimp -zeta only

end Sys2Proof.Machine
end

