-- ==== Sys2Proof/Laws/KeepsColumn.lean ====
section
/-! SUPPORT. `Keeps` of the functions of Machine/Column.lean. -/

namespace Sys2Proof.Machine

set_option linter.all false
set_option Elab.async false

variable {r0 : State} {L : Comp → Prop}


end Sys2Proof.Machine
end

