-- ==== Sys2Proof/Laws/KeepsFlags.lean ====
section
/-! SUPPORT. `Keeps` of the functions of Machine/Flags.lean. -/

namespace Sys2Proof.Machine

set_option linter.all false
set_option Elab.async false

variable {r0 : State} {L : Comp → Prop}


end Sys2Proof.Machine
end

