-- ==== Sys2Proof/Laws/KeepsFill.lean ====
section
/-! SUPPORT. `Keeps` of the functions of Machine/Fill.lean. -/

namespace Sys2Proof.Machine

set_option linter.all false
set_option Elab.async false

variable {r0 : State} {L : Comp → Prop}

theorem keeps_nextOr {s : State} {o : Host.Outcome State Fault Refusal} (h : ∃ t, o = .next t ∧ Keeps L r0 t) : Keeps L r0 (nextOr s o) := by
  obtain ⟨t, rfl, ht⟩ := h
  exact ht

theorem keeps_runWord (p : Nat) (word : W32) (s : State) (h : Keeps L r0 s) (l_freeCtr : L .freeCtr := by assumption) (l_rf : L .rf := by assumption) (l_seam : L .seam := by assumption) (l_sched : L .sched := by assumption) (l_pat : L .pat := by assumption) (l_rings : L .rings := by assumption) (l_xl : L .xl := by assumption) (l_hmc : L .hmc := by assumption) (l_cxt : L .cxt := by assumption) (l_mem : L .mem := by assumption) (l_portA : L .portA := by assumption) (l_portB : L .portB := by assumption) (l_i3c : L .i3c := by assumption) (l_dev : L .dev := by assumption) (l_pkt : L .pkt := by assumption) (l_packs : L .packs := by assumption) (l_scans : L .scans := by assumption) (l_opers : L .opers := by assumption) (l_ma : L .ma := by assumption) (l_out : L .out := by assumption) : Keeps L r0 (runWord p word s) := by
  unfold runWord
  refine keeps_nextOr ?_
  split
  · exact keeps_execIntegerOp p word s h
  · exact keeps_execFloatOp p word s h
  · exact keeps_execLd p word s h
  · exact keeps_execSt p word s h
  · exact keeps_execFld p word s h
  · exact keeps_execFst p word s h
  · exact keeps_execLdr p word s h
  · exact keeps_execStr p word s h
  · exact keeps_execCas p word s h
  · exact keeps_execAadd p word s h
  · exact keeps_execBranch p word s h
  · exact keeps_execLoop p word s h
  · exact keeps_execJl p word s h
  · exact keeps_execJr p word s h
  · exact keeps_execSet p word s h
  · exact keeps_execKeep p word s h
  · exact keeps_execNop p word s h
  · exact keeps_execUnit p word s h
  · exact keeps_execMatchReq p word s h
  · exact keeps_execWaitd p word s h
  · exact keeps_execFence p word s h
  · exact keeps_execClean p word s h
  · exact keeps_execInv p word s h
  · exact keeps_execClinv p word s h
  · exact keeps_execZero p word s h
  · exact keeps_execSetWayClean p word s h
  · exact keeps_execSetWayInv p word s h
  · exact keeps_execSetWayClinv p word s h
  · exact keeps_execClinvVc p word s h
  · exact keeps_execCall p word s h
  · exact keeps_execRdcr p word s h
  · exact keeps_execWrcr p word s h
  · exact keeps_execRet p word s h
  · exact keeps_execReport p word s h
  · exact keeps_execRgld p word s h
  · exact keeps_execTlbiAll p word s h
  · exact keeps_execTlbiSlot p word s h
  · exact keeps_execTlbiInstance p word s h
  · exact keeps_execVld p word s h
  · exact keeps_execVst p word s h
  · exact keeps_execVlds p word s h
  · exact keeps_execVsts p word s h
  · exact keeps_execVgath p word s h
  · exact keeps_execVscat p word s h
  · exact keeps_execScaddt p word s h
  · exact keeps_execScadds p word s h
  · exact keeps_execVunpk p word s h
  · exact keeps_execVectorArithmetic p word s h
  · exact keeps_execVmulwl p word s h
  · exact keeps_execVsrr p word s h
  · exact keeps_execVresc p word s h
  · exact keeps_execVscan p word s h
  · exact keeps_execVunzz p word s h
  · exact keeps_execVredadd p word s h
  · exact keeps_execVcomp p word s h
  · exact keeps_execVectorFloat p word s h
  · exact keeps_execVcmp p word s h
  · exact keeps_execVwhilelt p word s h
  · exact keeps_execPredicateOp p word s h
  · exact keeps_execPcnt p word s h
  · exact keeps_execVsplat p word s h
  · exact keeps_execVext p word s h
  · exact keeps_execVins p word s h
  · exact keeps_execUndefinedInstruction p word s h

theorem keeps_l1FillX (p : Nat) (s : State) (h_s : Keeps L r0 s) (l_freeCtr : L .freeCtr := by assumption) (l_rf : L .rf := by assumption) (l_seam : L .seam := by assumption) (l_sched : L .sched := by assumption) (l_pat : L .pat := by assumption) (l_rings : L .rings := by assumption) (l_xl : L .xl := by assumption) (l_hmc : L .hmc := by assumption) (l_cxt : L .cxt := by assumption) (l_mem : L .mem := by assumption) (l_portA : L .portA := by assumption) (l_portB : L .portB := by assumption) (l_i3c : L .i3c := by assumption) (l_dev : L .dev := by assumption) (l_pkt : L .pkt := by assumption) (l_packs : L .packs := by assumption) (l_scans : L .scans := by assumption) (l_opers : L .opers := by assumption) (l_ma : L .ma := by assumption) (l_out : L .out := by assumption) :
    Keeps L r0 (l1FillX p s) := by
  unfold l1FillX
  repeat' first
    | with_reducible assumption
    | with_reducible exact Or.inl rfl | with_reducible exact Or.inr (by assumption)
    | with_reducible exact Nat.le_refl _ | with_reducible exact List.prefix_rfl | exact id | exact Nat.le_add_right _ _ | exact DevSt.fuseKept_of (Nat.le_refl _) rfl
    | with_reducible apply keeps_settleLine
    | with_reducible apply keeps_runWord
    | with_reducible apply keeps_setPkt
    | intro _
    | (extract_lets +onlyGivenNames x; refine Keeps.cut (v := x) ?_ ?_; rotate_left; intro hx; clear_value x; rotate_left; subst x)
    | (extract_lets +onlyGivenNames x; subst x)
    | with_reducible apply Keeps.ite | with_reducible apply Keeps.ite1 | with_reducible apply Keeps.ite2 | with_reducible apply Keeps.ite11
    | split
    | (refine Keeps.of_eq1 (by with_reducible assumption) ?_)
    | (refine Keeps.of_eq2 (by with_reducible assumption) ?_)
    | (refine Keeps.of_eq11 (by with_reducible assumption) ?_)
    | (simp -zeta only [keeps_mk]; with_reducible apply KeepsF.upd)
    | dsimp -zeta only

theorem keeps_execL1Fill (p : Nat) (s : State) (h_s : Keeps L r0 s) (l_freeCtr : L .freeCtr := by assumption) (l_rf : L .rf := by assumption) (l_seam : L .seam := by assumption) (l_sched : L .sched := by assumption) (l_pat : L .pat := by assumption) (l_rings : L .rings := by assumption) (l_xl : L .xl := by assumption) (l_hmc : L .hmc := by assumption) (l_cxt : L .cxt := by assumption) (l_mem : L .mem := by assumption) (l_portA : L .portA := by assumption) (l_portB : L .portB := by assumption) (l_i3c : L .i3c := by assumption) (l_dev : L .dev := by assumption) (l_pkt : L .pkt := by assumption) (l_packs : L .packs := by assumption) (l_scans : L .scans := by assumption) (l_opers : L .opers := by assumption) (l_ma : L .ma := by assumption) (l_out : L .out := by assumption) :
    ∃ t, execL1Fill p s = .next t ∧ Keeps L r0 t := by
  refine ⟨_, rfl, ?_⟩
  repeat' first
    | with_reducible assumption
    | with_reducible exact Or.inl rfl | with_reducible exact Or.inr (by assumption)
    | with_reducible exact Nat.le_refl _ | with_reducible exact List.prefix_rfl | exact id | exact Nat.le_add_right _ _ | exact DevSt.fuseKept_of (Nat.le_refl _) rfl
    | with_reducible apply keeps_l1FillX
    | intro _
    | (extract_lets +onlyGivenNames x; refine Keeps.cut (v := x) ?_ ?_; rotate_left; intro hx; clear_value x; rotate_left; subst x)
    | (extract_lets +onlyGivenNames x; subst x)
    | with_reducible apply Keeps.ite | with_reducible apply Keeps.ite1 | with_reducible apply Keeps.ite2 | with_reducible apply Keeps.ite11
    | split
    | (refine Keeps.of_eq1 (by with_reducible assumption) ?_)
    | (refine Keeps.of_eq2 (by with_reducible assumption) ?_)
    | (refine Keeps.of_eq11 (by with_reducible assumption) ?_)
    | (simp -zeta only [keeps_mk]; with_reducible apply KeepsF.upd)
    | dsimp -zeta only

end Sys2Proof.Machine
end

