-- ==== Sys2Proof/Laws/State.lean ====
section
/-! SUPPORT. What the named updates leave as it is: for each of them, one lemma for each component of the state that it does
not change. -/

namespace Sys2Proof.Machine

variable (s : State)

/-! ### rSet changes rf -/

@[simp] theorem rSet_now (a v : Nat) : (rSet a v s).now = s.now := rfl
@[simp] theorem rSet_freeCtr (a v : Nat) : (rSet a v s).freeCtr = s.freeCtr := rfl
@[simp] theorem rSet_seam (a v : Nat) : (rSet a v s).seam = s.seam := rfl
@[simp] theorem rSet_sched (a v : Nat) : (rSet a v s).sched = s.sched := rfl
@[simp] theorem rSet_pat (a v : Nat) : (rSet a v s).pat = s.pat := rfl
@[simp] theorem rSet_rings (a v : Nat) : (rSet a v s).rings = s.rings := rfl
@[simp] theorem rSet_xl (a v : Nat) : (rSet a v s).xl = s.xl := rfl
@[simp] theorem rSet_hmc (a v : Nat) : (rSet a v s).hmc = s.hmc := rfl
@[simp] theorem rSet_cxt (a v : Nat) : (rSet a v s).cxt = s.cxt := rfl
@[simp] theorem rSet_mem (a v : Nat) : (rSet a v s).mem = s.mem := rfl
@[simp] theorem rSet_noc (a v : Nat) : (rSet a v s).noc = s.noc := rfl
@[simp] theorem rSet_bm (a v : Nat) : (rSet a v s).bm = s.bm := rfl
@[simp] theorem rSet_portA (a v : Nat) : (rSet a v s).portA = s.portA := rfl
@[simp] theorem rSet_portB (a v : Nat) : (rSet a v s).portB = s.portB := rfl
@[simp] theorem rSet_i3c (a v : Nat) : (rSet a v s).i3c = s.i3c := rfl
@[simp] theorem rSet_dev (a v : Nat) : (rSet a v s).dev = s.dev := rfl
@[simp] theorem rSet_pwr (a v : Nat) : (rSet a v s).pwr = s.pwr := rfl
@[simp] theorem rSet_cyc16 (a v : Nat) : (rSet a v s).cyc16 = s.cyc16 := rfl
@[simp] theorem rSet_pkt (a v : Nat) : (rSet a v s).pkt = s.pkt := rfl
@[simp] theorem rSet_packs (a v : Nat) : (rSet a v s).packs = s.packs := rfl
@[simp] theorem rSet_scans (a v : Nat) : (rSet a v s).scans = s.scans := rfl
@[simp] theorem rSet_opers (a v : Nat) : (rSet a v s).opers = s.opers := rfl
@[simp] theorem rSet_ma (a v : Nat) : (rSet a v s).ma = s.ma := rfl
@[simp] theorem rSet_dg (a v : Nat) : (rSet a v s).dg = s.dg := rfl
@[simp] theorem rSet_keys (a v : Nat) : (rSet a v s).keys = s.keys := rfl
@[simp] theorem rSet_ln (a v : Nat) : (rSet a v s).ln = s.ln := rfl
@[simp] theorem rSet_ldg (a v : Nat) : (rSet a v s).ldg = s.ldg := rfl
@[simp] theorem rSet_out (a v : Nat) : (rSet a v s).out = s.out := rfl
@[simp] theorem rSet_pending (a v : Nat) : (rSet a v s).pending = s.pending := rfl

/-! ### rSetFld changes rf -/

@[simp] theorem rSetFld_now (a hi lo v : Nat) : (rSetFld a hi lo v s).now = s.now := rfl
@[simp] theorem rSetFld_freeCtr (a hi lo v : Nat) : (rSetFld a hi lo v s).freeCtr = s.freeCtr := rfl
@[simp] theorem rSetFld_seam (a hi lo v : Nat) : (rSetFld a hi lo v s).seam = s.seam := rfl
@[simp] theorem rSetFld_sched (a hi lo v : Nat) : (rSetFld a hi lo v s).sched = s.sched := rfl
@[simp] theorem rSetFld_pat (a hi lo v : Nat) : (rSetFld a hi lo v s).pat = s.pat := rfl
@[simp] theorem rSetFld_rings (a hi lo v : Nat) : (rSetFld a hi lo v s).rings = s.rings := rfl
@[simp] theorem rSetFld_xl (a hi lo v : Nat) : (rSetFld a hi lo v s).xl = s.xl := rfl
@[simp] theorem rSetFld_hmc (a hi lo v : Nat) : (rSetFld a hi lo v s).hmc = s.hmc := rfl
@[simp] theorem rSetFld_cxt (a hi lo v : Nat) : (rSetFld a hi lo v s).cxt = s.cxt := rfl
@[simp] theorem rSetFld_mem (a hi lo v : Nat) : (rSetFld a hi lo v s).mem = s.mem := rfl
@[simp] theorem rSetFld_noc (a hi lo v : Nat) : (rSetFld a hi lo v s).noc = s.noc := rfl
@[simp] theorem rSetFld_bm (a hi lo v : Nat) : (rSetFld a hi lo v s).bm = s.bm := rfl
@[simp] theorem rSetFld_portA (a hi lo v : Nat) : (rSetFld a hi lo v s).portA = s.portA := rfl
@[simp] theorem rSetFld_portB (a hi lo v : Nat) : (rSetFld a hi lo v s).portB = s.portB := rfl
@[simp] theorem rSetFld_i3c (a hi lo v : Nat) : (rSetFld a hi lo v s).i3c = s.i3c := rfl
@[simp] theorem rSetFld_dev (a hi lo v : Nat) : (rSetFld a hi lo v s).dev = s.dev := rfl
@[simp] theorem rSetFld_pwr (a hi lo v : Nat) : (rSetFld a hi lo v s).pwr = s.pwr := rfl
@[simp] theorem rSetFld_cyc16 (a hi lo v : Nat) : (rSetFld a hi lo v s).cyc16 = s.cyc16 := rfl
@[simp] theorem rSetFld_pkt (a hi lo v : Nat) : (rSetFld a hi lo v s).pkt = s.pkt := rfl
@[simp] theorem rSetFld_packs (a hi lo v : Nat) : (rSetFld a hi lo v s).packs = s.packs := rfl
@[simp] theorem rSetFld_scans (a hi lo v : Nat) : (rSetFld a hi lo v s).scans = s.scans := rfl
@[simp] theorem rSetFld_opers (a hi lo v : Nat) : (rSetFld a hi lo v s).opers = s.opers := rfl
@[simp] theorem rSetFld_ma (a hi lo v : Nat) : (rSetFld a hi lo v s).ma = s.ma := rfl
@[simp] theorem rSetFld_dg (a hi lo v : Nat) : (rSetFld a hi lo v s).dg = s.dg := rfl
@[simp] theorem rSetFld_keys (a hi lo v : Nat) : (rSetFld a hi lo v s).keys = s.keys := rfl
@[simp] theorem rSetFld_ln (a hi lo v : Nat) : (rSetFld a hi lo v s).ln = s.ln := rfl
@[simp] theorem rSetFld_ldg (a hi lo v : Nat) : (rSetFld a hi lo v s).ldg = s.ldg := rfl
@[simp] theorem rSetFld_out (a hi lo v : Nat) : (rSetFld a hi lo v s).out = s.out := rfl
@[simp] theorem rSetFld_pending (a hi lo v : Nat) : (rSetFld a hi lo v s).pending = s.pending := rfl

/-! ### bump changes rf -/

@[simp] theorem bump_now (a n : Nat) : (bump a n s).now = s.now := rfl
@[simp] theorem bump_freeCtr (a n : Nat) : (bump a n s).freeCtr = s.freeCtr := rfl
@[simp] theorem bump_seam (a n : Nat) : (bump a n s).seam = s.seam := rfl
@[simp] theorem bump_sched (a n : Nat) : (bump a n s).sched = s.sched := rfl
@[simp] theorem bump_pat (a n : Nat) : (bump a n s).pat = s.pat := rfl
@[simp] theorem bump_rings (a n : Nat) : (bump a n s).rings = s.rings := rfl
@[simp] theorem bump_xl (a n : Nat) : (bump a n s).xl = s.xl := rfl
@[simp] theorem bump_hmc (a n : Nat) : (bump a n s).hmc = s.hmc := rfl
@[simp] theorem bump_cxt (a n : Nat) : (bump a n s).cxt = s.cxt := rfl
@[simp] theorem bump_mem (a n : Nat) : (bump a n s).mem = s.mem := rfl
@[simp] theorem bump_noc (a n : Nat) : (bump a n s).noc = s.noc := rfl
@[simp] theorem bump_bm (a n : Nat) : (bump a n s).bm = s.bm := rfl
@[simp] theorem bump_portA (a n : Nat) : (bump a n s).portA = s.portA := rfl
@[simp] theorem bump_portB (a n : Nat) : (bump a n s).portB = s.portB := rfl
@[simp] theorem bump_i3c (a n : Nat) : (bump a n s).i3c = s.i3c := rfl
@[simp] theorem bump_dev (a n : Nat) : (bump a n s).dev = s.dev := rfl
@[simp] theorem bump_pwr (a n : Nat) : (bump a n s).pwr = s.pwr := rfl
@[simp] theorem bump_cyc16 (a n : Nat) : (bump a n s).cyc16 = s.cyc16 := rfl
@[simp] theorem bump_pkt (a n : Nat) : (bump a n s).pkt = s.pkt := rfl
@[simp] theorem bump_packs (a n : Nat) : (bump a n s).packs = s.packs := rfl
@[simp] theorem bump_scans (a n : Nat) : (bump a n s).scans = s.scans := rfl
@[simp] theorem bump_opers (a n : Nat) : (bump a n s).opers = s.opers := rfl
@[simp] theorem bump_ma (a n : Nat) : (bump a n s).ma = s.ma := rfl
@[simp] theorem bump_dg (a n : Nat) : (bump a n s).dg = s.dg := rfl
@[simp] theorem bump_keys (a n : Nat) : (bump a n s).keys = s.keys := rfl
@[simp] theorem bump_ln (a n : Nat) : (bump a n s).ln = s.ln := rfl
@[simp] theorem bump_ldg (a n : Nat) : (bump a n s).ldg = s.ldg := rfl
@[simp] theorem bump_out (a n : Nat) : (bump a n s).out = s.out := rfl
@[simp] theorem bump_pending (a n : Nat) : (bump a n s).pending = s.pending := rfl

/-! ### bumpSat changes rf -/

@[simp] theorem bumpSat_now (a hi lo n : Nat) : (bumpSat a hi lo n s).now = s.now := rfl
@[simp] theorem bumpSat_freeCtr (a hi lo n : Nat) : (bumpSat a hi lo n s).freeCtr = s.freeCtr := rfl
@[simp] theorem bumpSat_seam (a hi lo n : Nat) : (bumpSat a hi lo n s).seam = s.seam := rfl
@[simp] theorem bumpSat_sched (a hi lo n : Nat) : (bumpSat a hi lo n s).sched = s.sched := rfl
@[simp] theorem bumpSat_pat (a hi lo n : Nat) : (bumpSat a hi lo n s).pat = s.pat := rfl
@[simp] theorem bumpSat_rings (a hi lo n : Nat) : (bumpSat a hi lo n s).rings = s.rings := rfl
@[simp] theorem bumpSat_xl (a hi lo n : Nat) : (bumpSat a hi lo n s).xl = s.xl := rfl
@[simp] theorem bumpSat_hmc (a hi lo n : Nat) : (bumpSat a hi lo n s).hmc = s.hmc := rfl
@[simp] theorem bumpSat_cxt (a hi lo n : Nat) : (bumpSat a hi lo n s).cxt = s.cxt := rfl
@[simp] theorem bumpSat_mem (a hi lo n : Nat) : (bumpSat a hi lo n s).mem = s.mem := rfl
@[simp] theorem bumpSat_noc (a hi lo n : Nat) : (bumpSat a hi lo n s).noc = s.noc := rfl
@[simp] theorem bumpSat_bm (a hi lo n : Nat) : (bumpSat a hi lo n s).bm = s.bm := rfl
@[simp] theorem bumpSat_portA (a hi lo n : Nat) : (bumpSat a hi lo n s).portA = s.portA := rfl
@[simp] theorem bumpSat_portB (a hi lo n : Nat) : (bumpSat a hi lo n s).portB = s.portB := rfl
@[simp] theorem bumpSat_i3c (a hi lo n : Nat) : (bumpSat a hi lo n s).i3c = s.i3c := rfl
@[simp] theorem bumpSat_dev (a hi lo n : Nat) : (bumpSat a hi lo n s).dev = s.dev := rfl
@[simp] theorem bumpSat_pwr (a hi lo n : Nat) : (bumpSat a hi lo n s).pwr = s.pwr := rfl
@[simp] theorem bumpSat_cyc16 (a hi lo n : Nat) : (bumpSat a hi lo n s).cyc16 = s.cyc16 := rfl
@[simp] theorem bumpSat_pkt (a hi lo n : Nat) : (bumpSat a hi lo n s).pkt = s.pkt := rfl
@[simp] theorem bumpSat_packs (a hi lo n : Nat) : (bumpSat a hi lo n s).packs = s.packs := rfl
@[simp] theorem bumpSat_scans (a hi lo n : Nat) : (bumpSat a hi lo n s).scans = s.scans := rfl
@[simp] theorem bumpSat_opers (a hi lo n : Nat) : (bumpSat a hi lo n s).opers = s.opers := rfl
@[simp] theorem bumpSat_ma (a hi lo n : Nat) : (bumpSat a hi lo n s).ma = s.ma := rfl
@[simp] theorem bumpSat_dg (a hi lo n : Nat) : (bumpSat a hi lo n s).dg = s.dg := rfl
@[simp] theorem bumpSat_keys (a hi lo n : Nat) : (bumpSat a hi lo n s).keys = s.keys := rfl
@[simp] theorem bumpSat_ln (a hi lo n : Nat) : (bumpSat a hi lo n s).ln = s.ln := rfl
@[simp] theorem bumpSat_ldg (a hi lo n : Nat) : (bumpSat a hi lo n s).ldg = s.ldg := rfl
@[simp] theorem bumpSat_out (a hi lo n : Nat) : (bumpSat a hi lo n s).out = s.out := rfl
@[simp] theorem bumpSat_pending (a hi lo n : Nat) : (bumpSat a hi lo n s).pending = s.pending := rfl

/-! ### bumpFrame changes rf -/

@[simp] theorem bumpFrame_now (a n : Nat) : (bumpFrame a n s).now = s.now := rfl
@[simp] theorem bumpFrame_freeCtr (a n : Nat) : (bumpFrame a n s).freeCtr = s.freeCtr := rfl
@[simp] theorem bumpFrame_seam (a n : Nat) : (bumpFrame a n s).seam = s.seam := rfl
@[simp] theorem bumpFrame_sched (a n : Nat) : (bumpFrame a n s).sched = s.sched := rfl
@[simp] theorem bumpFrame_pat (a n : Nat) : (bumpFrame a n s).pat = s.pat := rfl
@[simp] theorem bumpFrame_rings (a n : Nat) : (bumpFrame a n s).rings = s.rings := rfl
@[simp] theorem bumpFrame_xl (a n : Nat) : (bumpFrame a n s).xl = s.xl := rfl
@[simp] theorem bumpFrame_hmc (a n : Nat) : (bumpFrame a n s).hmc = s.hmc := rfl
@[simp] theorem bumpFrame_cxt (a n : Nat) : (bumpFrame a n s).cxt = s.cxt := rfl
@[simp] theorem bumpFrame_mem (a n : Nat) : (bumpFrame a n s).mem = s.mem := rfl
@[simp] theorem bumpFrame_noc (a n : Nat) : (bumpFrame a n s).noc = s.noc := rfl
@[simp] theorem bumpFrame_bm (a n : Nat) : (bumpFrame a n s).bm = s.bm := rfl
@[simp] theorem bumpFrame_portA (a n : Nat) : (bumpFrame a n s).portA = s.portA := rfl
@[simp] theorem bumpFrame_portB (a n : Nat) : (bumpFrame a n s).portB = s.portB := rfl
@[simp] theorem bumpFrame_i3c (a n : Nat) : (bumpFrame a n s).i3c = s.i3c := rfl
@[simp] theorem bumpFrame_dev (a n : Nat) : (bumpFrame a n s).dev = s.dev := rfl
@[simp] theorem bumpFrame_pwr (a n : Nat) : (bumpFrame a n s).pwr = s.pwr := rfl
@[simp] theorem bumpFrame_cyc16 (a n : Nat) : (bumpFrame a n s).cyc16 = s.cyc16 := rfl
@[simp] theorem bumpFrame_pkt (a n : Nat) : (bumpFrame a n s).pkt = s.pkt := rfl
@[simp] theorem bumpFrame_packs (a n : Nat) : (bumpFrame a n s).packs = s.packs := rfl
@[simp] theorem bumpFrame_scans (a n : Nat) : (bumpFrame a n s).scans = s.scans := rfl
@[simp] theorem bumpFrame_opers (a n : Nat) : (bumpFrame a n s).opers = s.opers := rfl
@[simp] theorem bumpFrame_ma (a n : Nat) : (bumpFrame a n s).ma = s.ma := rfl
@[simp] theorem bumpFrame_dg (a n : Nat) : (bumpFrame a n s).dg = s.dg := rfl
@[simp] theorem bumpFrame_keys (a n : Nat) : (bumpFrame a n s).keys = s.keys := rfl
@[simp] theorem bumpFrame_ln (a n : Nat) : (bumpFrame a n s).ln = s.ln := rfl
@[simp] theorem bumpFrame_ldg (a n : Nat) : (bumpFrame a n s).ldg = s.ldg := rfl
@[simp] theorem bumpFrame_out (a n : Nat) : (bumpFrame a n s).out = s.out := rfl
@[simp] theorem bumpFrame_pending (a n : Nat) : (bumpFrame a n s).pending = s.pending := rfl

/-! ### bump2 changes rf -/

@[simp] theorem bump2_now (a b n : Nat) : (bump2 a b n s).now = s.now := rfl
@[simp] theorem bump2_freeCtr (a b n : Nat) : (bump2 a b n s).freeCtr = s.freeCtr := rfl
@[simp] theorem bump2_seam (a b n : Nat) : (bump2 a b n s).seam = s.seam := rfl
@[simp] theorem bump2_sched (a b n : Nat) : (bump2 a b n s).sched = s.sched := rfl
@[simp] theorem bump2_pat (a b n : Nat) : (bump2 a b n s).pat = s.pat := rfl
@[simp] theorem bump2_rings (a b n : Nat) : (bump2 a b n s).rings = s.rings := rfl
@[simp] theorem bump2_xl (a b n : Nat) : (bump2 a b n s).xl = s.xl := rfl
@[simp] theorem bump2_hmc (a b n : Nat) : (bump2 a b n s).hmc = s.hmc := rfl
@[simp] theorem bump2_cxt (a b n : Nat) : (bump2 a b n s).cxt = s.cxt := rfl
@[simp] theorem bump2_mem (a b n : Nat) : (bump2 a b n s).mem = s.mem := rfl
@[simp] theorem bump2_noc (a b n : Nat) : (bump2 a b n s).noc = s.noc := rfl
@[simp] theorem bump2_bm (a b n : Nat) : (bump2 a b n s).bm = s.bm := rfl
@[simp] theorem bump2_portA (a b n : Nat) : (bump2 a b n s).portA = s.portA := rfl
@[simp] theorem bump2_portB (a b n : Nat) : (bump2 a b n s).portB = s.portB := rfl
@[simp] theorem bump2_i3c (a b n : Nat) : (bump2 a b n s).i3c = s.i3c := rfl
@[simp] theorem bump2_dev (a b n : Nat) : (bump2 a b n s).dev = s.dev := rfl
@[simp] theorem bump2_pwr (a b n : Nat) : (bump2 a b n s).pwr = s.pwr := rfl
@[simp] theorem bump2_cyc16 (a b n : Nat) : (bump2 a b n s).cyc16 = s.cyc16 := rfl
@[simp] theorem bump2_pkt (a b n : Nat) : (bump2 a b n s).pkt = s.pkt := rfl
@[simp] theorem bump2_packs (a b n : Nat) : (bump2 a b n s).packs = s.packs := rfl
@[simp] theorem bump2_scans (a b n : Nat) : (bump2 a b n s).scans = s.scans := rfl
@[simp] theorem bump2_opers (a b n : Nat) : (bump2 a b n s).opers = s.opers := rfl
@[simp] theorem bump2_ma (a b n : Nat) : (bump2 a b n s).ma = s.ma := rfl
@[simp] theorem bump2_dg (a b n : Nat) : (bump2 a b n s).dg = s.dg := rfl
@[simp] theorem bump2_keys (a b n : Nat) : (bump2 a b n s).keys = s.keys := rfl
@[simp] theorem bump2_ln (a b n : Nat) : (bump2 a b n s).ln = s.ln := rfl
@[simp] theorem bump2_ldg (a b n : Nat) : (bump2 a b n s).ldg = s.ldg := rfl
@[simp] theorem bump2_out (a b n : Nat) : (bump2 a b n s).out = s.out := rfl
@[simp] theorem bump2_pending (a b n : Nat) : (bump2 a b n s).pending = s.pending := rfl

/-! ### emit changes out -/

@[simp] theorem emit_now (m : OutMsg) : (emit m s).now = s.now := rfl
@[simp] theorem emit_freeCtr (m : OutMsg) : (emit m s).freeCtr = s.freeCtr := rfl
@[simp] theorem emit_rf (m : OutMsg) : (emit m s).rf = s.rf := rfl
@[simp] theorem emit_seam (m : OutMsg) : (emit m s).seam = s.seam := rfl
@[simp] theorem emit_sched (m : OutMsg) : (emit m s).sched = s.sched := rfl
@[simp] theorem emit_pat (m : OutMsg) : (emit m s).pat = s.pat := rfl
@[simp] theorem emit_rings (m : OutMsg) : (emit m s).rings = s.rings := rfl
@[simp] theorem emit_xl (m : OutMsg) : (emit m s).xl = s.xl := rfl
@[simp] theorem emit_hmc (m : OutMsg) : (emit m s).hmc = s.hmc := rfl
@[simp] theorem emit_cxt (m : OutMsg) : (emit m s).cxt = s.cxt := rfl
@[simp] theorem emit_mem (m : OutMsg) : (emit m s).mem = s.mem := rfl
@[simp] theorem emit_noc (m : OutMsg) : (emit m s).noc = s.noc := rfl
@[simp] theorem emit_bm (m : OutMsg) : (emit m s).bm = s.bm := rfl
@[simp] theorem emit_portA (m : OutMsg) : (emit m s).portA = s.portA := rfl
@[simp] theorem emit_portB (m : OutMsg) : (emit m s).portB = s.portB := rfl
@[simp] theorem emit_i3c (m : OutMsg) : (emit m s).i3c = s.i3c := rfl
@[simp] theorem emit_dev (m : OutMsg) : (emit m s).dev = s.dev := rfl
@[simp] theorem emit_pwr (m : OutMsg) : (emit m s).pwr = s.pwr := rfl
@[simp] theorem emit_cyc16 (m : OutMsg) : (emit m s).cyc16 = s.cyc16 := rfl
@[simp] theorem emit_pkt (m : OutMsg) : (emit m s).pkt = s.pkt := rfl
@[simp] theorem emit_packs (m : OutMsg) : (emit m s).packs = s.packs := rfl
@[simp] theorem emit_scans (m : OutMsg) : (emit m s).scans = s.scans := rfl
@[simp] theorem emit_opers (m : OutMsg) : (emit m s).opers = s.opers := rfl
@[simp] theorem emit_ma (m : OutMsg) : (emit m s).ma = s.ma := rfl
@[simp] theorem emit_dg (m : OutMsg) : (emit m s).dg = s.dg := rfl
@[simp] theorem emit_keys (m : OutMsg) : (emit m s).keys = s.keys := rfl
@[simp] theorem emit_ln (m : OutMsg) : (emit m s).ln = s.ln := rfl
@[simp] theorem emit_ldg (m : OutMsg) : (emit m s).ldg = s.ldg := rfl
@[simp] theorem emit_pending (m : OutMsg) : (emit m s).pending = s.pending := rfl

/-! ### setHmc changes hmc -/

@[simp] theorem setHmc_now (h : Nat) (x : HmcSt) : (setHmc h x s).now = s.now := rfl
@[simp] theorem setHmc_freeCtr (h : Nat) (x : HmcSt) : (setHmc h x s).freeCtr = s.freeCtr := rfl
@[simp] theorem setHmc_rf (h : Nat) (x : HmcSt) : (setHmc h x s).rf = s.rf := rfl
@[simp] theorem setHmc_seam (h : Nat) (x : HmcSt) : (setHmc h x s).seam = s.seam := rfl
@[simp] theorem setHmc_sched (h : Nat) (x : HmcSt) : (setHmc h x s).sched = s.sched := rfl
@[simp] theorem setHmc_pat (h : Nat) (x : HmcSt) : (setHmc h x s).pat = s.pat := rfl
@[simp] theorem setHmc_rings (h : Nat) (x : HmcSt) : (setHmc h x s).rings = s.rings := rfl
@[simp] theorem setHmc_xl (h : Nat) (x : HmcSt) : (setHmc h x s).xl = s.xl := rfl
@[simp] theorem setHmc_cxt (h : Nat) (x : HmcSt) : (setHmc h x s).cxt = s.cxt := rfl
@[simp] theorem setHmc_mem (h : Nat) (x : HmcSt) : (setHmc h x s).mem = s.mem := rfl
@[simp] theorem setHmc_noc (h : Nat) (x : HmcSt) : (setHmc h x s).noc = s.noc := rfl
@[simp] theorem setHmc_bm (h : Nat) (x : HmcSt) : (setHmc h x s).bm = s.bm := rfl
@[simp] theorem setHmc_portA (h : Nat) (x : HmcSt) : (setHmc h x s).portA = s.portA := rfl
@[simp] theorem setHmc_portB (h : Nat) (x : HmcSt) : (setHmc h x s).portB = s.portB := rfl
@[simp] theorem setHmc_i3c (h : Nat) (x : HmcSt) : (setHmc h x s).i3c = s.i3c := rfl
@[simp] theorem setHmc_dev (h : Nat) (x : HmcSt) : (setHmc h x s).dev = s.dev := rfl
@[simp] theorem setHmc_pwr (h : Nat) (x : HmcSt) : (setHmc h x s).pwr = s.pwr := rfl
@[simp] theorem setHmc_cyc16 (h : Nat) (x : HmcSt) : (setHmc h x s).cyc16 = s.cyc16 := rfl
@[simp] theorem setHmc_pkt (h : Nat) (x : HmcSt) : (setHmc h x s).pkt = s.pkt := rfl
@[simp] theorem setHmc_packs (h : Nat) (x : HmcSt) : (setHmc h x s).packs = s.packs := rfl
@[simp] theorem setHmc_scans (h : Nat) (x : HmcSt) : (setHmc h x s).scans = s.scans := rfl
@[simp] theorem setHmc_opers (h : Nat) (x : HmcSt) : (setHmc h x s).opers = s.opers := rfl
@[simp] theorem setHmc_ma (h : Nat) (x : HmcSt) : (setHmc h x s).ma = s.ma := rfl
@[simp] theorem setHmc_dg (h : Nat) (x : HmcSt) : (setHmc h x s).dg = s.dg := rfl
@[simp] theorem setHmc_keys (h : Nat) (x : HmcSt) : (setHmc h x s).keys = s.keys := rfl
@[simp] theorem setHmc_ln (h : Nat) (x : HmcSt) : (setHmc h x s).ln = s.ln := rfl
@[simp] theorem setHmc_ldg (h : Nat) (x : HmcSt) : (setHmc h x s).ldg = s.ldg := rfl
@[simp] theorem setHmc_out (h : Nat) (x : HmcSt) : (setHmc h x s).out = s.out := rfl
@[simp] theorem setHmc_pending (h : Nat) (x : HmcSt) : (setHmc h x s).pending = s.pending := rfl

/-! ### setCxt changes cxt -/

@[simp] theorem setCxt_now (h : Nat) (x : CxtSt) : (setCxt h x s).now = s.now := rfl
@[simp] theorem setCxt_freeCtr (h : Nat) (x : CxtSt) : (setCxt h x s).freeCtr = s.freeCtr := rfl
@[simp] theorem setCxt_rf (h : Nat) (x : CxtSt) : (setCxt h x s).rf = s.rf := rfl
@[simp] theorem setCxt_seam (h : Nat) (x : CxtSt) : (setCxt h x s).seam = s.seam := rfl
@[simp] theorem setCxt_sched (h : Nat) (x : CxtSt) : (setCxt h x s).sched = s.sched := rfl
@[simp] theorem setCxt_pat (h : Nat) (x : CxtSt) : (setCxt h x s).pat = s.pat := rfl
@[simp] theorem setCxt_rings (h : Nat) (x : CxtSt) : (setCxt h x s).rings = s.rings := rfl
@[simp] theorem setCxt_xl (h : Nat) (x : CxtSt) : (setCxt h x s).xl = s.xl := rfl
@[simp] theorem setCxt_hmc (h : Nat) (x : CxtSt) : (setCxt h x s).hmc = s.hmc := rfl
@[simp] theorem setCxt_mem (h : Nat) (x : CxtSt) : (setCxt h x s).mem = s.mem := rfl
@[simp] theorem setCxt_noc (h : Nat) (x : CxtSt) : (setCxt h x s).noc = s.noc := rfl
@[simp] theorem setCxt_bm (h : Nat) (x : CxtSt) : (setCxt h x s).bm = s.bm := rfl
@[simp] theorem setCxt_portA (h : Nat) (x : CxtSt) : (setCxt h x s).portA = s.portA := rfl
@[simp] theorem setCxt_portB (h : Nat) (x : CxtSt) : (setCxt h x s).portB = s.portB := rfl
@[simp] theorem setCxt_i3c (h : Nat) (x : CxtSt) : (setCxt h x s).i3c = s.i3c := rfl
@[simp] theorem setCxt_dev (h : Nat) (x : CxtSt) : (setCxt h x s).dev = s.dev := rfl
@[simp] theorem setCxt_pwr (h : Nat) (x : CxtSt) : (setCxt h x s).pwr = s.pwr := rfl
@[simp] theorem setCxt_cyc16 (h : Nat) (x : CxtSt) : (setCxt h x s).cyc16 = s.cyc16 := rfl
@[simp] theorem setCxt_pkt (h : Nat) (x : CxtSt) : (setCxt h x s).pkt = s.pkt := rfl
@[simp] theorem setCxt_packs (h : Nat) (x : CxtSt) : (setCxt h x s).packs = s.packs := rfl
@[simp] theorem setCxt_scans (h : Nat) (x : CxtSt) : (setCxt h x s).scans = s.scans := rfl
@[simp] theorem setCxt_opers (h : Nat) (x : CxtSt) : (setCxt h x s).opers = s.opers := rfl
@[simp] theorem setCxt_ma (h : Nat) (x : CxtSt) : (setCxt h x s).ma = s.ma := rfl
@[simp] theorem setCxt_dg (h : Nat) (x : CxtSt) : (setCxt h x s).dg = s.dg := rfl
@[simp] theorem setCxt_keys (h : Nat) (x : CxtSt) : (setCxt h x s).keys = s.keys := rfl
@[simp] theorem setCxt_ln (h : Nat) (x : CxtSt) : (setCxt h x s).ln = s.ln := rfl
@[simp] theorem setCxt_ldg (h : Nat) (x : CxtSt) : (setCxt h x s).ldg = s.ldg := rfl
@[simp] theorem setCxt_out (h : Nat) (x : CxtSt) : (setCxt h x s).out = s.out := rfl
@[simp] theorem setCxt_pending (h : Nat) (x : CxtSt) : (setCxt h x s).pending = s.pending := rfl

/-! ### setTask changes sched -/

@[simp] theorem setTask_now (n : Nat) (x : TaskRec) : (setTask n x s).now = s.now := rfl
@[simp] theorem setTask_freeCtr (n : Nat) (x : TaskRec) : (setTask n x s).freeCtr = s.freeCtr := rfl
@[simp] theorem setTask_rf (n : Nat) (x : TaskRec) : (setTask n x s).rf = s.rf := rfl
@[simp] theorem setTask_seam (n : Nat) (x : TaskRec) : (setTask n x s).seam = s.seam := rfl
@[simp] theorem setTask_pat (n : Nat) (x : TaskRec) : (setTask n x s).pat = s.pat := rfl
@[simp] theorem setTask_rings (n : Nat) (x : TaskRec) : (setTask n x s).rings = s.rings := rfl
@[simp] theorem setTask_xl (n : Nat) (x : TaskRec) : (setTask n x s).xl = s.xl := rfl
@[simp] theorem setTask_hmc (n : Nat) (x : TaskRec) : (setTask n x s).hmc = s.hmc := rfl
@[simp] theorem setTask_cxt (n : Nat) (x : TaskRec) : (setTask n x s).cxt = s.cxt := rfl
@[simp] theorem setTask_mem (n : Nat) (x : TaskRec) : (setTask n x s).mem = s.mem := rfl
@[simp] theorem setTask_noc (n : Nat) (x : TaskRec) : (setTask n x s).noc = s.noc := rfl
@[simp] theorem setTask_bm (n : Nat) (x : TaskRec) : (setTask n x s).bm = s.bm := rfl
@[simp] theorem setTask_portA (n : Nat) (x : TaskRec) : (setTask n x s).portA = s.portA := rfl
@[simp] theorem setTask_portB (n : Nat) (x : TaskRec) : (setTask n x s).portB = s.portB := rfl
@[simp] theorem setTask_i3c (n : Nat) (x : TaskRec) : (setTask n x s).i3c = s.i3c := rfl
@[simp] theorem setTask_dev (n : Nat) (x : TaskRec) : (setTask n x s).dev = s.dev := rfl
@[simp] theorem setTask_pwr (n : Nat) (x : TaskRec) : (setTask n x s).pwr = s.pwr := rfl
@[simp] theorem setTask_cyc16 (n : Nat) (x : TaskRec) : (setTask n x s).cyc16 = s.cyc16 := rfl
@[simp] theorem setTask_pkt (n : Nat) (x : TaskRec) : (setTask n x s).pkt = s.pkt := rfl
@[simp] theorem setTask_packs (n : Nat) (x : TaskRec) : (setTask n x s).packs = s.packs := rfl
@[simp] theorem setTask_scans (n : Nat) (x : TaskRec) : (setTask n x s).scans = s.scans := rfl
@[simp] theorem setTask_opers (n : Nat) (x : TaskRec) : (setTask n x s).opers = s.opers := rfl
@[simp] theorem setTask_ma (n : Nat) (x : TaskRec) : (setTask n x s).ma = s.ma := rfl
@[simp] theorem setTask_dg (n : Nat) (x : TaskRec) : (setTask n x s).dg = s.dg := rfl
@[simp] theorem setTask_keys (n : Nat) (x : TaskRec) : (setTask n x s).keys = s.keys := rfl
@[simp] theorem setTask_ln (n : Nat) (x : TaskRec) : (setTask n x s).ln = s.ln := rfl
@[simp] theorem setTask_ldg (n : Nat) (x : TaskRec) : (setTask n x s).ldg = s.ldg := rfl
@[simp] theorem setTask_out (n : Nat) (x : TaskRec) : (setTask n x s).out = s.out := rfl
@[simp] theorem setTask_pending (n : Nat) (x : TaskRec) : (setTask n x s).pending = s.pending := rfl

/-! ### setJob changes sched -/

@[simp] theorem setJob_now (n : Nat) (x : JobRec) : (setJob n x s).now = s.now := rfl
@[simp] theorem setJob_freeCtr (n : Nat) (x : JobRec) : (setJob n x s).freeCtr = s.freeCtr := rfl
@[simp] theorem setJob_rf (n : Nat) (x : JobRec) : (setJob n x s).rf = s.rf := rfl
@[simp] theorem setJob_seam (n : Nat) (x : JobRec) : (setJob n x s).seam = s.seam := rfl
@[simp] theorem setJob_pat (n : Nat) (x : JobRec) : (setJob n x s).pat = s.pat := rfl
@[simp] theorem setJob_rings (n : Nat) (x : JobRec) : (setJob n x s).rings = s.rings := rfl
@[simp] theorem setJob_xl (n : Nat) (x : JobRec) : (setJob n x s).xl = s.xl := rfl
@[simp] theorem setJob_hmc (n : Nat) (x : JobRec) : (setJob n x s).hmc = s.hmc := rfl
@[simp] theorem setJob_cxt (n : Nat) (x : JobRec) : (setJob n x s).cxt = s.cxt := rfl
@[simp] theorem setJob_mem (n : Nat) (x : JobRec) : (setJob n x s).mem = s.mem := rfl
@[simp] theorem setJob_noc (n : Nat) (x : JobRec) : (setJob n x s).noc = s.noc := rfl
@[simp] theorem setJob_bm (n : Nat) (x : JobRec) : (setJob n x s).bm = s.bm := rfl
@[simp] theorem setJob_portA (n : Nat) (x : JobRec) : (setJob n x s).portA = s.portA := rfl
@[simp] theorem setJob_portB (n : Nat) (x : JobRec) : (setJob n x s).portB = s.portB := rfl
@[simp] theorem setJob_i3c (n : Nat) (x : JobRec) : (setJob n x s).i3c = s.i3c := rfl
@[simp] theorem setJob_dev (n : Nat) (x : JobRec) : (setJob n x s).dev = s.dev := rfl
@[simp] theorem setJob_pwr (n : Nat) (x : JobRec) : (setJob n x s).pwr = s.pwr := rfl
@[simp] theorem setJob_cyc16 (n : Nat) (x : JobRec) : (setJob n x s).cyc16 = s.cyc16 := rfl
@[simp] theorem setJob_pkt (n : Nat) (x : JobRec) : (setJob n x s).pkt = s.pkt := rfl
@[simp] theorem setJob_packs (n : Nat) (x : JobRec) : (setJob n x s).packs = s.packs := rfl
@[simp] theorem setJob_scans (n : Nat) (x : JobRec) : (setJob n x s).scans = s.scans := rfl
@[simp] theorem setJob_opers (n : Nat) (x : JobRec) : (setJob n x s).opers = s.opers := rfl
@[simp] theorem setJob_ma (n : Nat) (x : JobRec) : (setJob n x s).ma = s.ma := rfl
@[simp] theorem setJob_dg (n : Nat) (x : JobRec) : (setJob n x s).dg = s.dg := rfl
@[simp] theorem setJob_keys (n : Nat) (x : JobRec) : (setJob n x s).keys = s.keys := rfl
@[simp] theorem setJob_ln (n : Nat) (x : JobRec) : (setJob n x s).ln = s.ln := rfl
@[simp] theorem setJob_ldg (n : Nat) (x : JobRec) : (setJob n x s).ldg = s.ldg := rfl
@[simp] theorem setJob_out (n : Nat) (x : JobRec) : (setJob n x s).out = s.out := rfl
@[simp] theorem setJob_pending (n : Nat) (x : JobRec) : (setJob n x s).pending = s.pending := rfl

/-! ### setAgent changes sched -/

@[simp] theorem setAgent_now (n : Nat) (x : Agent) : (setAgent n x s).now = s.now := rfl
@[simp] theorem setAgent_freeCtr (n : Nat) (x : Agent) : (setAgent n x s).freeCtr = s.freeCtr := rfl
@[simp] theorem setAgent_rf (n : Nat) (x : Agent) : (setAgent n x s).rf = s.rf := rfl
@[simp] theorem setAgent_seam (n : Nat) (x : Agent) : (setAgent n x s).seam = s.seam := rfl
@[simp] theorem setAgent_pat (n : Nat) (x : Agent) : (setAgent n x s).pat = s.pat := rfl
@[simp] theorem setAgent_rings (n : Nat) (x : Agent) : (setAgent n x s).rings = s.rings := rfl
@[simp] theorem setAgent_xl (n : Nat) (x : Agent) : (setAgent n x s).xl = s.xl := rfl
@[simp] theorem setAgent_hmc (n : Nat) (x : Agent) : (setAgent n x s).hmc = s.hmc := rfl
@[simp] theorem setAgent_cxt (n : Nat) (x : Agent) : (setAgent n x s).cxt = s.cxt := rfl
@[simp] theorem setAgent_mem (n : Nat) (x : Agent) : (setAgent n x s).mem = s.mem := rfl
@[simp] theorem setAgent_noc (n : Nat) (x : Agent) : (setAgent n x s).noc = s.noc := rfl
@[simp] theorem setAgent_bm (n : Nat) (x : Agent) : (setAgent n x s).bm = s.bm := rfl
@[simp] theorem setAgent_portA (n : Nat) (x : Agent) : (setAgent n x s).portA = s.portA := rfl
@[simp] theorem setAgent_portB (n : Nat) (x : Agent) : (setAgent n x s).portB = s.portB := rfl
@[simp] theorem setAgent_i3c (n : Nat) (x : Agent) : (setAgent n x s).i3c = s.i3c := rfl
@[simp] theorem setAgent_dev (n : Nat) (x : Agent) : (setAgent n x s).dev = s.dev := rfl
@[simp] theorem setAgent_pwr (n : Nat) (x : Agent) : (setAgent n x s).pwr = s.pwr := rfl
@[simp] theorem setAgent_cyc16 (n : Nat) (x : Agent) : (setAgent n x s).cyc16 = s.cyc16 := rfl
@[simp] theorem setAgent_pkt (n : Nat) (x : Agent) : (setAgent n x s).pkt = s.pkt := rfl
@[simp] theorem setAgent_packs (n : Nat) (x : Agent) : (setAgent n x s).packs = s.packs := rfl
@[simp] theorem setAgent_scans (n : Nat) (x : Agent) : (setAgent n x s).scans = s.scans := rfl
@[simp] theorem setAgent_opers (n : Nat) (x : Agent) : (setAgent n x s).opers = s.opers := rfl
@[simp] theorem setAgent_ma (n : Nat) (x : Agent) : (setAgent n x s).ma = s.ma := rfl
@[simp] theorem setAgent_dg (n : Nat) (x : Agent) : (setAgent n x s).dg = s.dg := rfl
@[simp] theorem setAgent_keys (n : Nat) (x : Agent) : (setAgent n x s).keys = s.keys := rfl
@[simp] theorem setAgent_ln (n : Nat) (x : Agent) : (setAgent n x s).ln = s.ln := rfl
@[simp] theorem setAgent_ldg (n : Nat) (x : Agent) : (setAgent n x s).ldg = s.ldg := rfl
@[simp] theorem setAgent_out (n : Nat) (x : Agent) : (setAgent n x s).out = s.out := rfl
@[simp] theorem setAgent_pending (n : Nat) (x : Agent) : (setAgent n x s).pending = s.pending := rfl

/-! ### setPkt changes pkt -/

@[simp] theorem setPkt_now (p : Nat) (x : Pocket) : (setPkt p x s).now = s.now := rfl
@[simp] theorem setPkt_freeCtr (p : Nat) (x : Pocket) : (setPkt p x s).freeCtr = s.freeCtr := rfl
@[simp] theorem setPkt_rf (p : Nat) (x : Pocket) : (setPkt p x s).rf = s.rf := rfl
@[simp] theorem setPkt_seam (p : Nat) (x : Pocket) : (setPkt p x s).seam = s.seam := rfl
@[simp] theorem setPkt_sched (p : Nat) (x : Pocket) : (setPkt p x s).sched = s.sched := rfl
@[simp] theorem setPkt_pat (p : Nat) (x : Pocket) : (setPkt p x s).pat = s.pat := rfl
@[simp] theorem setPkt_rings (p : Nat) (x : Pocket) : (setPkt p x s).rings = s.rings := rfl
@[simp] theorem setPkt_xl (p : Nat) (x : Pocket) : (setPkt p x s).xl = s.xl := rfl
@[simp] theorem setPkt_hmc (p : Nat) (x : Pocket) : (setPkt p x s).hmc = s.hmc := rfl
@[simp] theorem setPkt_cxt (p : Nat) (x : Pocket) : (setPkt p x s).cxt = s.cxt := rfl
@[simp] theorem setPkt_mem (p : Nat) (x : Pocket) : (setPkt p x s).mem = s.mem := rfl
@[simp] theorem setPkt_noc (p : Nat) (x : Pocket) : (setPkt p x s).noc = s.noc := rfl
@[simp] theorem setPkt_bm (p : Nat) (x : Pocket) : (setPkt p x s).bm = s.bm := rfl
@[simp] theorem setPkt_portA (p : Nat) (x : Pocket) : (setPkt p x s).portA = s.portA := rfl
@[simp] theorem setPkt_portB (p : Nat) (x : Pocket) : (setPkt p x s).portB = s.portB := rfl
@[simp] theorem setPkt_i3c (p : Nat) (x : Pocket) : (setPkt p x s).i3c = s.i3c := rfl
@[simp] theorem setPkt_dev (p : Nat) (x : Pocket) : (setPkt p x s).dev = s.dev := rfl
@[simp] theorem setPkt_pwr (p : Nat) (x : Pocket) : (setPkt p x s).pwr = s.pwr := rfl
@[simp] theorem setPkt_cyc16 (p : Nat) (x : Pocket) : (setPkt p x s).cyc16 = s.cyc16 := rfl
@[simp] theorem setPkt_packs (p : Nat) (x : Pocket) : (setPkt p x s).packs = s.packs := rfl
@[simp] theorem setPkt_scans (p : Nat) (x : Pocket) : (setPkt p x s).scans = s.scans := rfl
@[simp] theorem setPkt_opers (p : Nat) (x : Pocket) : (setPkt p x s).opers = s.opers := rfl
@[simp] theorem setPkt_ma (p : Nat) (x : Pocket) : (setPkt p x s).ma = s.ma := rfl
@[simp] theorem setPkt_dg (p : Nat) (x : Pocket) : (setPkt p x s).dg = s.dg := rfl
@[simp] theorem setPkt_keys (p : Nat) (x : Pocket) : (setPkt p x s).keys = s.keys := rfl
@[simp] theorem setPkt_ln (p : Nat) (x : Pocket) : (setPkt p x s).ln = s.ln := rfl
@[simp] theorem setPkt_ldg (p : Nat) (x : Pocket) : (setPkt p x s).ldg = s.ldg := rfl
@[simp] theorem setPkt_out (p : Nat) (x : Pocket) : (setPkt p x s).out = s.out := rfl
@[simp] theorem setPkt_pending (p : Nat) (x : Pocket) : (setPkt p x s).pending = s.pending := rfl

/-! ### setInst changes rings -/

@[simp] theorem setInst_now (i : Nat) (x : InstSt) : (setInst i x s).now = s.now := rfl
@[simp] theorem setInst_freeCtr (i : Nat) (x : InstSt) : (setInst i x s).freeCtr = s.freeCtr := rfl
@[simp] theorem setInst_rf (i : Nat) (x : InstSt) : (setInst i x s).rf = s.rf := rfl
@[simp] theorem setInst_seam (i : Nat) (x : InstSt) : (setInst i x s).seam = s.seam := rfl
@[simp] theorem setInst_sched (i : Nat) (x : InstSt) : (setInst i x s).sched = s.sched := rfl
@[simp] theorem setInst_pat (i : Nat) (x : InstSt) : (setInst i x s).pat = s.pat := rfl
@[simp] theorem setInst_xl (i : Nat) (x : InstSt) : (setInst i x s).xl = s.xl := rfl
@[simp] theorem setInst_hmc (i : Nat) (x : InstSt) : (setInst i x s).hmc = s.hmc := rfl
@[simp] theorem setInst_cxt (i : Nat) (x : InstSt) : (setInst i x s).cxt = s.cxt := rfl
@[simp] theorem setInst_mem (i : Nat) (x : InstSt) : (setInst i x s).mem = s.mem := rfl
@[simp] theorem setInst_noc (i : Nat) (x : InstSt) : (setInst i x s).noc = s.noc := rfl
@[simp] theorem setInst_bm (i : Nat) (x : InstSt) : (setInst i x s).bm = s.bm := rfl
@[simp] theorem setInst_portA (i : Nat) (x : InstSt) : (setInst i x s).portA = s.portA := rfl
@[simp] theorem setInst_portB (i : Nat) (x : InstSt) : (setInst i x s).portB = s.portB := rfl
@[simp] theorem setInst_i3c (i : Nat) (x : InstSt) : (setInst i x s).i3c = s.i3c := rfl
@[simp] theorem setInst_dev (i : Nat) (x : InstSt) : (setInst i x s).dev = s.dev := rfl
@[simp] theorem setInst_pwr (i : Nat) (x : InstSt) : (setInst i x s).pwr = s.pwr := rfl
@[simp] theorem setInst_cyc16 (i : Nat) (x : InstSt) : (setInst i x s).cyc16 = s.cyc16 := rfl
@[simp] theorem setInst_pkt (i : Nat) (x : InstSt) : (setInst i x s).pkt = s.pkt := rfl
@[simp] theorem setInst_packs (i : Nat) (x : InstSt) : (setInst i x s).packs = s.packs := rfl
@[simp] theorem setInst_scans (i : Nat) (x : InstSt) : (setInst i x s).scans = s.scans := rfl
@[simp] theorem setInst_opers (i : Nat) (x : InstSt) : (setInst i x s).opers = s.opers := rfl
@[simp] theorem setInst_ma (i : Nat) (x : InstSt) : (setInst i x s).ma = s.ma := rfl
@[simp] theorem setInst_dg (i : Nat) (x : InstSt) : (setInst i x s).dg = s.dg := rfl
@[simp] theorem setInst_keys (i : Nat) (x : InstSt) : (setInst i x s).keys = s.keys := rfl
@[simp] theorem setInst_ln (i : Nat) (x : InstSt) : (setInst i x s).ln = s.ln := rfl
@[simp] theorem setInst_ldg (i : Nat) (x : InstSt) : (setInst i x s).ldg = s.ldg := rfl
@[simp] theorem setInst_out (i : Nat) (x : InstSt) : (setInst i x s).out = s.out := rfl
@[simp] theorem setInst_pending (i : Nat) (x : InstSt) : (setInst i x s).pending = s.pending := rfl

/-! ### setJr changes rings -/

@[simp] theorem setJr_now (i k : Nat) (x : JobRing) : (setJr i k x s).now = s.now := rfl
@[simp] theorem setJr_freeCtr (i k : Nat) (x : JobRing) : (setJr i k x s).freeCtr = s.freeCtr := rfl
@[simp] theorem setJr_rf (i k : Nat) (x : JobRing) : (setJr i k x s).rf = s.rf := rfl
@[simp] theorem setJr_seam (i k : Nat) (x : JobRing) : (setJr i k x s).seam = s.seam := rfl
@[simp] theorem setJr_sched (i k : Nat) (x : JobRing) : (setJr i k x s).sched = s.sched := rfl
@[simp] theorem setJr_pat (i k : Nat) (x : JobRing) : (setJr i k x s).pat = s.pat := rfl
@[simp] theorem setJr_xl (i k : Nat) (x : JobRing) : (setJr i k x s).xl = s.xl := rfl
@[simp] theorem setJr_hmc (i k : Nat) (x : JobRing) : (setJr i k x s).hmc = s.hmc := rfl
@[simp] theorem setJr_cxt (i k : Nat) (x : JobRing) : (setJr i k x s).cxt = s.cxt := rfl
@[simp] theorem setJr_mem (i k : Nat) (x : JobRing) : (setJr i k x s).mem = s.mem := rfl
@[simp] theorem setJr_noc (i k : Nat) (x : JobRing) : (setJr i k x s).noc = s.noc := rfl
@[simp] theorem setJr_bm (i k : Nat) (x : JobRing) : (setJr i k x s).bm = s.bm := rfl
@[simp] theorem setJr_portA (i k : Nat) (x : JobRing) : (setJr i k x s).portA = s.portA := rfl
@[simp] theorem setJr_portB (i k : Nat) (x : JobRing) : (setJr i k x s).portB = s.portB := rfl
@[simp] theorem setJr_i3c (i k : Nat) (x : JobRing) : (setJr i k x s).i3c = s.i3c := rfl
@[simp] theorem setJr_dev (i k : Nat) (x : JobRing) : (setJr i k x s).dev = s.dev := rfl
@[simp] theorem setJr_pwr (i k : Nat) (x : JobRing) : (setJr i k x s).pwr = s.pwr := rfl
@[simp] theorem setJr_cyc16 (i k : Nat) (x : JobRing) : (setJr i k x s).cyc16 = s.cyc16 := rfl
@[simp] theorem setJr_pkt (i k : Nat) (x : JobRing) : (setJr i k x s).pkt = s.pkt := rfl
@[simp] theorem setJr_packs (i k : Nat) (x : JobRing) : (setJr i k x s).packs = s.packs := rfl
@[simp] theorem setJr_scans (i k : Nat) (x : JobRing) : (setJr i k x s).scans = s.scans := rfl
@[simp] theorem setJr_opers (i k : Nat) (x : JobRing) : (setJr i k x s).opers = s.opers := rfl
@[simp] theorem setJr_ma (i k : Nat) (x : JobRing) : (setJr i k x s).ma = s.ma := rfl
@[simp] theorem setJr_dg (i k : Nat) (x : JobRing) : (setJr i k x s).dg = s.dg := rfl
@[simp] theorem setJr_keys (i k : Nat) (x : JobRing) : (setJr i k x s).keys = s.keys := rfl
@[simp] theorem setJr_ln (i k : Nat) (x : JobRing) : (setJr i k x s).ln = s.ln := rfl
@[simp] theorem setJr_ldg (i k : Nat) (x : JobRing) : (setJr i k x s).ldg = s.ldg := rfl
@[simp] theorem setJr_out (i k : Nat) (x : JobRing) : (setJr i k x s).out = s.out := rfl
@[simp] theorem setJr_pending (i k : Nat) (x : JobRing) : (setJr i k x s).pending = s.pending := rfl

/-! ### setCr changes rings -/

@[simp] theorem setCr_now (i k : Nat) (x : ComplRing) : (setCr i k x s).now = s.now := rfl
@[simp] theorem setCr_freeCtr (i k : Nat) (x : ComplRing) : (setCr i k x s).freeCtr = s.freeCtr := rfl
@[simp] theorem setCr_rf (i k : Nat) (x : ComplRing) : (setCr i k x s).rf = s.rf := rfl
@[simp] theorem setCr_seam (i k : Nat) (x : ComplRing) : (setCr i k x s).seam = s.seam := rfl
@[simp] theorem setCr_sched (i k : Nat) (x : ComplRing) : (setCr i k x s).sched = s.sched := rfl
@[simp] theorem setCr_pat (i k : Nat) (x : ComplRing) : (setCr i k x s).pat = s.pat := rfl
@[simp] theorem setCr_xl (i k : Nat) (x : ComplRing) : (setCr i k x s).xl = s.xl := rfl
@[simp] theorem setCr_hmc (i k : Nat) (x : ComplRing) : (setCr i k x s).hmc = s.hmc := rfl
@[simp] theorem setCr_cxt (i k : Nat) (x : ComplRing) : (setCr i k x s).cxt = s.cxt := rfl
@[simp] theorem setCr_mem (i k : Nat) (x : ComplRing) : (setCr i k x s).mem = s.mem := rfl
@[simp] theorem setCr_noc (i k : Nat) (x : ComplRing) : (setCr i k x s).noc = s.noc := rfl
@[simp] theorem setCr_bm (i k : Nat) (x : ComplRing) : (setCr i k x s).bm = s.bm := rfl
@[simp] theorem setCr_portA (i k : Nat) (x : ComplRing) : (setCr i k x s).portA = s.portA := rfl
@[simp] theorem setCr_portB (i k : Nat) (x : ComplRing) : (setCr i k x s).portB = s.portB := rfl
@[simp] theorem setCr_i3c (i k : Nat) (x : ComplRing) : (setCr i k x s).i3c = s.i3c := rfl
@[simp] theorem setCr_dev (i k : Nat) (x : ComplRing) : (setCr i k x s).dev = s.dev := rfl
@[simp] theorem setCr_pwr (i k : Nat) (x : ComplRing) : (setCr i k x s).pwr = s.pwr := rfl
@[simp] theorem setCr_cyc16 (i k : Nat) (x : ComplRing) : (setCr i k x s).cyc16 = s.cyc16 := rfl
@[simp] theorem setCr_pkt (i k : Nat) (x : ComplRing) : (setCr i k x s).pkt = s.pkt := rfl
@[simp] theorem setCr_packs (i k : Nat) (x : ComplRing) : (setCr i k x s).packs = s.packs := rfl
@[simp] theorem setCr_scans (i k : Nat) (x : ComplRing) : (setCr i k x s).scans = s.scans := rfl
@[simp] theorem setCr_opers (i k : Nat) (x : ComplRing) : (setCr i k x s).opers = s.opers := rfl
@[simp] theorem setCr_ma (i k : Nat) (x : ComplRing) : (setCr i k x s).ma = s.ma := rfl
@[simp] theorem setCr_dg (i k : Nat) (x : ComplRing) : (setCr i k x s).dg = s.dg := rfl
@[simp] theorem setCr_keys (i k : Nat) (x : ComplRing) : (setCr i k x s).keys = s.keys := rfl
@[simp] theorem setCr_ln (i k : Nat) (x : ComplRing) : (setCr i k x s).ln = s.ln := rfl
@[simp] theorem setCr_ldg (i k : Nat) (x : ComplRing) : (setCr i k x s).ldg = s.ldg := rfl
@[simp] theorem setCr_out (i k : Nat) (x : ComplRing) : (setCr i k x s).out = s.out := rfl
@[simp] theorem setCr_pending (i k : Nat) (x : ComplRing) : (setCr i k x s).pending = s.pending := rfl

/-! ### sendMsix changes rf, out -/

@[simp] theorem sendMsix_now (i v : Nat) : (sendMsix i v s).now = s.now := by unfold sendMsix; split <;> (try split) <;> rfl
@[simp] theorem sendMsix_freeCtr (i v : Nat) : (sendMsix i v s).freeCtr = s.freeCtr := by unfold sendMsix; split <;> (try split) <;> rfl
@[simp] theorem sendMsix_seam (i v : Nat) : (sendMsix i v s).seam = s.seam := by unfold sendMsix; split <;> (try split) <;> rfl
@[simp] theorem sendMsix_sched (i v : Nat) : (sendMsix i v s).sched = s.sched := by unfold sendMsix; split <;> (try split) <;> rfl
@[simp] theorem sendMsix_pat (i v : Nat) : (sendMsix i v s).pat = s.pat := by unfold sendMsix; split <;> (try split) <;> rfl
@[simp] theorem sendMsix_rings (i v : Nat) : (sendMsix i v s).rings = s.rings := by unfold sendMsix; split <;> (try split) <;> rfl
@[simp] theorem sendMsix_xl (i v : Nat) : (sendMsix i v s).xl = s.xl := by unfold sendMsix; split <;> (try split) <;> rfl
@[simp] theorem sendMsix_hmc (i v : Nat) : (sendMsix i v s).hmc = s.hmc := by unfold sendMsix; split <;> (try split) <;> rfl
@[simp] theorem sendMsix_cxt (i v : Nat) : (sendMsix i v s).cxt = s.cxt := by unfold sendMsix; split <;> (try split) <;> rfl
@[simp] theorem sendMsix_mem (i v : Nat) : (sendMsix i v s).mem = s.mem := by unfold sendMsix; split <;> (try split) <;> rfl
@[simp] theorem sendMsix_noc (i v : Nat) : (sendMsix i v s).noc = s.noc := by unfold sendMsix; split <;> (try split) <;> rfl
@[simp] theorem sendMsix_bm (i v : Nat) : (sendMsix i v s).bm = s.bm := by unfold sendMsix; split <;> (try split) <;> rfl
@[simp] theorem sendMsix_portA (i v : Nat) : (sendMsix i v s).portA = s.portA := by unfold sendMsix; split <;> (try split) <;> rfl
@[simp] theorem sendMsix_portB (i v : Nat) : (sendMsix i v s).portB = s.portB := by unfold sendMsix; split <;> (try split) <;> rfl
@[simp] theorem sendMsix_i3c (i v : Nat) : (sendMsix i v s).i3c = s.i3c := by unfold sendMsix; split <;> (try split) <;> rfl
@[simp] theorem sendMsix_dev (i v : Nat) : (sendMsix i v s).dev = s.dev := by unfold sendMsix; split <;> (try split) <;> rfl
@[simp] theorem sendMsix_pwr (i v : Nat) : (sendMsix i v s).pwr = s.pwr := by unfold sendMsix; split <;> (try split) <;> rfl
@[simp] theorem sendMsix_cyc16 (i v : Nat) : (sendMsix i v s).cyc16 = s.cyc16 := by unfold sendMsix; split <;> (try split) <;> rfl
@[simp] theorem sendMsix_pkt (i v : Nat) : (sendMsix i v s).pkt = s.pkt := by unfold sendMsix; split <;> (try split) <;> rfl
@[simp] theorem sendMsix_packs (i v : Nat) : (sendMsix i v s).packs = s.packs := by unfold sendMsix; split <;> (try split) <;> rfl
@[simp] theorem sendMsix_scans (i v : Nat) : (sendMsix i v s).scans = s.scans := by unfold sendMsix; split <;> (try split) <;> rfl
@[simp] theorem sendMsix_opers (i v : Nat) : (sendMsix i v s).opers = s.opers := by unfold sendMsix; split <;> (try split) <;> rfl
@[simp] theorem sendMsix_ma (i v : Nat) : (sendMsix i v s).ma = s.ma := by unfold sendMsix; split <;> (try split) <;> rfl
@[simp] theorem sendMsix_dg (i v : Nat) : (sendMsix i v s).dg = s.dg := by unfold sendMsix; split <;> (try split) <;> rfl
@[simp] theorem sendMsix_keys (i v : Nat) : (sendMsix i v s).keys = s.keys := by unfold sendMsix; split <;> (try split) <;> rfl
@[simp] theorem sendMsix_ln (i v : Nat) : (sendMsix i v s).ln = s.ln := by unfold sendMsix; split <;> (try split) <;> rfl
@[simp] theorem sendMsix_ldg (i v : Nat) : (sendMsix i v s).ldg = s.ldg := by unfold sendMsix; split <;> (try split) <;> rfl
@[simp] theorem sendMsix_pending (i v : Nat) : (sendMsix i v s).pending = s.pending := by unfold sendMsix; split <;> (try split) <;> rfl

/-! ### latch changes rf, out -/

@[simp] theorem latch_now (pg m : Nat) : (latch pg m s).now = s.now := by unfold latch withSignal; dsimp only; split <;> (try split) <;> simp
@[simp] theorem latch_freeCtr (pg m : Nat) : (latch pg m s).freeCtr = s.freeCtr := by unfold latch withSignal; dsimp only; split <;> (try split) <;> simp
@[simp] theorem latch_seam (pg m : Nat) : (latch pg m s).seam = s.seam := by unfold latch withSignal; dsimp only; split <;> (try split) <;> simp
@[simp] theorem latch_sched (pg m : Nat) : (latch pg m s).sched = s.sched := by unfold latch withSignal; dsimp only; split <;> (try split) <;> simp
@[simp] theorem latch_pat (pg m : Nat) : (latch pg m s).pat = s.pat := by unfold latch withSignal; dsimp only; split <;> (try split) <;> simp
@[simp] theorem latch_rings (pg m : Nat) : (latch pg m s).rings = s.rings := by unfold latch withSignal; dsimp only; split <;> (try split) <;> simp
@[simp] theorem latch_xl (pg m : Nat) : (latch pg m s).xl = s.xl := by unfold latch withSignal; dsimp only; split <;> (try split) <;> simp
@[simp] theorem latch_hmc (pg m : Nat) : (latch pg m s).hmc = s.hmc := by unfold latch withSignal; dsimp only; split <;> (try split) <;> simp
@[simp] theorem latch_cxt (pg m : Nat) : (latch pg m s).cxt = s.cxt := by unfold latch withSignal; dsimp only; split <;> (try split) <;> simp
@[simp] theorem latch_mem (pg m : Nat) : (latch pg m s).mem = s.mem := by unfold latch withSignal; dsimp only; split <;> (try split) <;> simp
@[simp] theorem latch_noc (pg m : Nat) : (latch pg m s).noc = s.noc := by unfold latch withSignal; dsimp only; split <;> (try split) <;> simp
@[simp] theorem latch_bm (pg m : Nat) : (latch pg m s).bm = s.bm := by unfold latch withSignal; dsimp only; split <;> (try split) <;> simp
@[simp] theorem latch_portA (pg m : Nat) : (latch pg m s).portA = s.portA := by unfold latch withSignal; dsimp only; split <;> (try split) <;> simp
@[simp] theorem latch_portB (pg m : Nat) : (latch pg m s).portB = s.portB := by unfold latch withSignal; dsimp only; split <;> (try split) <;> simp
@[simp] theorem latch_i3c (pg m : Nat) : (latch pg m s).i3c = s.i3c := by unfold latch withSignal; dsimp only; split <;> (try split) <;> simp
@[simp] theorem latch_dev (pg m : Nat) : (latch pg m s).dev = s.dev := by unfold latch withSignal; dsimp only; split <;> (try split) <;> simp
@[simp] theorem latch_pwr (pg m : Nat) : (latch pg m s).pwr = s.pwr := by unfold latch withSignal; dsimp only; split <;> (try split) <;> simp
@[simp] theorem latch_cyc16 (pg m : Nat) : (latch pg m s).cyc16 = s.cyc16 := by unfold latch withSignal; dsimp only; split <;> (try split) <;> simp
@[simp] theorem latch_pkt (pg m : Nat) : (latch pg m s).pkt = s.pkt := by unfold latch withSignal; dsimp only; split <;> (try split) <;> simp
@[simp] theorem latch_packs (pg m : Nat) : (latch pg m s).packs = s.packs := by unfold latch withSignal; dsimp only; split <;> (try split) <;> simp
@[simp] theorem latch_scans (pg m : Nat) : (latch pg m s).scans = s.scans := by unfold latch withSignal; dsimp only; split <;> (try split) <;> simp
@[simp] theorem latch_opers (pg m : Nat) : (latch pg m s).opers = s.opers := by unfold latch withSignal; dsimp only; split <;> (try split) <;> simp
@[simp] theorem latch_ma (pg m : Nat) : (latch pg m s).ma = s.ma := by unfold latch withSignal; dsimp only; split <;> (try split) <;> simp
@[simp] theorem latch_dg (pg m : Nat) : (latch pg m s).dg = s.dg := by unfold latch withSignal; dsimp only; split <;> (try split) <;> simp
@[simp] theorem latch_keys (pg m : Nat) : (latch pg m s).keys = s.keys := by unfold latch withSignal; dsimp only; split <;> (try split) <;> simp
@[simp] theorem latch_ln (pg m : Nat) : (latch pg m s).ln = s.ln := by unfold latch withSignal; dsimp only; split <;> (try split) <;> simp
@[simp] theorem latch_ldg (pg m : Nat) : (latch pg m s).ldg = s.ldg := by unfold latch withSignal; dsimp only; split <;> (try split) <;> simp
@[simp] theorem latch_pending (pg m : Nat) : (latch pg m s).pending = s.pending := by unfold latch withSignal; dsimp only; split <;> (try split) <;> simp

/-! ### pulse changes rf, out -/

@[simp] theorem pulse_now (pg b : Nat) : (pulse pg b s).now = s.now := latch_now _ _ _
@[simp] theorem pulse_freeCtr (pg b : Nat) : (pulse pg b s).freeCtr = s.freeCtr := latch_freeCtr _ _ _
@[simp] theorem pulse_seam (pg b : Nat) : (pulse pg b s).seam = s.seam := latch_seam _ _ _
@[simp] theorem pulse_sched (pg b : Nat) : (pulse pg b s).sched = s.sched := latch_sched _ _ _
@[simp] theorem pulse_pat (pg b : Nat) : (pulse pg b s).pat = s.pat := latch_pat _ _ _
@[simp] theorem pulse_rings (pg b : Nat) : (pulse pg b s).rings = s.rings := latch_rings _ _ _
@[simp] theorem pulse_xl (pg b : Nat) : (pulse pg b s).xl = s.xl := latch_xl _ _ _
@[simp] theorem pulse_hmc (pg b : Nat) : (pulse pg b s).hmc = s.hmc := latch_hmc _ _ _
@[simp] theorem pulse_cxt (pg b : Nat) : (pulse pg b s).cxt = s.cxt := latch_cxt _ _ _
@[simp] theorem pulse_mem (pg b : Nat) : (pulse pg b s).mem = s.mem := latch_mem _ _ _
@[simp] theorem pulse_noc (pg b : Nat) : (pulse pg b s).noc = s.noc := latch_noc _ _ _
@[simp] theorem pulse_bm (pg b : Nat) : (pulse pg b s).bm = s.bm := latch_bm _ _ _
@[simp] theorem pulse_portA (pg b : Nat) : (pulse pg b s).portA = s.portA := latch_portA _ _ _
@[simp] theorem pulse_portB (pg b : Nat) : (pulse pg b s).portB = s.portB := latch_portB _ _ _
@[simp] theorem pulse_i3c (pg b : Nat) : (pulse pg b s).i3c = s.i3c := latch_i3c _ _ _
@[simp] theorem pulse_dev (pg b : Nat) : (pulse pg b s).dev = s.dev := latch_dev _ _ _
@[simp] theorem pulse_pwr (pg b : Nat) : (pulse pg b s).pwr = s.pwr := latch_pwr _ _ _
@[simp] theorem pulse_cyc16 (pg b : Nat) : (pulse pg b s).cyc16 = s.cyc16 := latch_cyc16 _ _ _
@[simp] theorem pulse_pkt (pg b : Nat) : (pulse pg b s).pkt = s.pkt := latch_pkt _ _ _
@[simp] theorem pulse_packs (pg b : Nat) : (pulse pg b s).packs = s.packs := latch_packs _ _ _
@[simp] theorem pulse_scans (pg b : Nat) : (pulse pg b s).scans = s.scans := latch_scans _ _ _
@[simp] theorem pulse_opers (pg b : Nat) : (pulse pg b s).opers = s.opers := latch_opers _ _ _
@[simp] theorem pulse_ma (pg b : Nat) : (pulse pg b s).ma = s.ma := latch_ma _ _ _
@[simp] theorem pulse_dg (pg b : Nat) : (pulse pg b s).dg = s.dg := latch_dg _ _ _
@[simp] theorem pulse_keys (pg b : Nat) : (pulse pg b s).keys = s.keys := latch_keys _ _ _
@[simp] theorem pulse_ln (pg b : Nat) : (pulse pg b s).ln = s.ln := latch_ln _ _ _
@[simp] theorem pulse_ldg (pg b : Nat) : (pulse pg b s).ldg = s.ldg := latch_ldg _ _ _
@[simp] theorem pulse_pending (pg b : Nat) : (pulse pg b s).pending = s.pending := latch_pending _ _ _

/-! ### level changes rf, out -/

@[simp] theorem level_now (pg b : Nat) (v : Bool) : (level pg b v s).now = s.now := by unfold level; dsimp only; split <;> simp
@[simp] theorem level_freeCtr (pg b : Nat) (v : Bool) : (level pg b v s).freeCtr = s.freeCtr := by unfold level; dsimp only; split <;> simp
@[simp] theorem level_seam (pg b : Nat) (v : Bool) : (level pg b v s).seam = s.seam := by unfold level; dsimp only; split <;> simp
@[simp] theorem level_sched (pg b : Nat) (v : Bool) : (level pg b v s).sched = s.sched := by unfold level; dsimp only; split <;> simp
@[simp] theorem level_pat (pg b : Nat) (v : Bool) : (level pg b v s).pat = s.pat := by unfold level; dsimp only; split <;> simp
@[simp] theorem level_rings (pg b : Nat) (v : Bool) : (level pg b v s).rings = s.rings := by unfold level; dsimp only; split <;> simp
@[simp] theorem level_xl (pg b : Nat) (v : Bool) : (level pg b v s).xl = s.xl := by unfold level; dsimp only; split <;> simp
@[simp] theorem level_hmc (pg b : Nat) (v : Bool) : (level pg b v s).hmc = s.hmc := by unfold level; dsimp only; split <;> simp
@[simp] theorem level_cxt (pg b : Nat) (v : Bool) : (level pg b v s).cxt = s.cxt := by unfold level; dsimp only; split <;> simp
@[simp] theorem level_mem (pg b : Nat) (v : Bool) : (level pg b v s).mem = s.mem := by unfold level; dsimp only; split <;> simp
@[simp] theorem level_noc (pg b : Nat) (v : Bool) : (level pg b v s).noc = s.noc := by unfold level; dsimp only; split <;> simp
@[simp] theorem level_bm (pg b : Nat) (v : Bool) : (level pg b v s).bm = s.bm := by unfold level; dsimp only; split <;> simp
@[simp] theorem level_portA (pg b : Nat) (v : Bool) : (level pg b v s).portA = s.portA := by unfold level; dsimp only; split <;> simp
@[simp] theorem level_portB (pg b : Nat) (v : Bool) : (level pg b v s).portB = s.portB := by unfold level; dsimp only; split <;> simp
@[simp] theorem level_i3c (pg b : Nat) (v : Bool) : (level pg b v s).i3c = s.i3c := by unfold level; dsimp only; split <;> simp
@[simp] theorem level_dev (pg b : Nat) (v : Bool) : (level pg b v s).dev = s.dev := by unfold level; dsimp only; split <;> simp
@[simp] theorem level_pwr (pg b : Nat) (v : Bool) : (level pg b v s).pwr = s.pwr := by unfold level; dsimp only; split <;> simp
@[simp] theorem level_cyc16 (pg b : Nat) (v : Bool) : (level pg b v s).cyc16 = s.cyc16 := by unfold level; dsimp only; split <;> simp
@[simp] theorem level_pkt (pg b : Nat) (v : Bool) : (level pg b v s).pkt = s.pkt := by unfold level; dsimp only; split <;> simp
@[simp] theorem level_packs (pg b : Nat) (v : Bool) : (level pg b v s).packs = s.packs := by unfold level; dsimp only; split <;> simp
@[simp] theorem level_scans (pg b : Nat) (v : Bool) : (level pg b v s).scans = s.scans := by unfold level; dsimp only; split <;> simp
@[simp] theorem level_opers (pg b : Nat) (v : Bool) : (level pg b v s).opers = s.opers := by unfold level; dsimp only; split <;> simp
@[simp] theorem level_ma (pg b : Nat) (v : Bool) : (level pg b v s).ma = s.ma := by unfold level; dsimp only; split <;> simp
@[simp] theorem level_dg (pg b : Nat) (v : Bool) : (level pg b v s).dg = s.dg := by unfold level; dsimp only; split <;> simp
@[simp] theorem level_keys (pg b : Nat) (v : Bool) : (level pg b v s).keys = s.keys := by unfold level; dsimp only; split <;> simp
@[simp] theorem level_ln (pg b : Nat) (v : Bool) : (level pg b v s).ln = s.ln := by unfold level; dsimp only; split <;> simp
@[simp] theorem level_ldg (pg b : Nat) (v : Bool) : (level pg b v s).ldg = s.ldg := by unfold level; dsimp only; split <;> simp
@[simp] theorem level_pending (pg b : Nat) (v : Bool) : (level pg b v s).pending = s.pending := by unfold level; dsimp only; split <;> simp

/-! ### recErr changes rf -/

@[simp] theorem recErr_now (pg c a : Nat) : (recErr pg c a s).now = s.now := rfl
@[simp] theorem recErr_freeCtr (pg c a : Nat) : (recErr pg c a s).freeCtr = s.freeCtr := rfl
@[simp] theorem recErr_seam (pg c a : Nat) : (recErr pg c a s).seam = s.seam := rfl
@[simp] theorem recErr_sched (pg c a : Nat) : (recErr pg c a s).sched = s.sched := rfl
@[simp] theorem recErr_pat (pg c a : Nat) : (recErr pg c a s).pat = s.pat := rfl
@[simp] theorem recErr_rings (pg c a : Nat) : (recErr pg c a s).rings = s.rings := rfl
@[simp] theorem recErr_xl (pg c a : Nat) : (recErr pg c a s).xl = s.xl := rfl
@[simp] theorem recErr_hmc (pg c a : Nat) : (recErr pg c a s).hmc = s.hmc := rfl
@[simp] theorem recErr_cxt (pg c a : Nat) : (recErr pg c a s).cxt = s.cxt := rfl
@[simp] theorem recErr_mem (pg c a : Nat) : (recErr pg c a s).mem = s.mem := rfl
@[simp] theorem recErr_noc (pg c a : Nat) : (recErr pg c a s).noc = s.noc := rfl
@[simp] theorem recErr_bm (pg c a : Nat) : (recErr pg c a s).bm = s.bm := rfl
@[simp] theorem recErr_portA (pg c a : Nat) : (recErr pg c a s).portA = s.portA := rfl
@[simp] theorem recErr_portB (pg c a : Nat) : (recErr pg c a s).portB = s.portB := rfl
@[simp] theorem recErr_i3c (pg c a : Nat) : (recErr pg c a s).i3c = s.i3c := rfl
@[simp] theorem recErr_dev (pg c a : Nat) : (recErr pg c a s).dev = s.dev := rfl
@[simp] theorem recErr_pwr (pg c a : Nat) : (recErr pg c a s).pwr = s.pwr := rfl
@[simp] theorem recErr_cyc16 (pg c a : Nat) : (recErr pg c a s).cyc16 = s.cyc16 := rfl
@[simp] theorem recErr_pkt (pg c a : Nat) : (recErr pg c a s).pkt = s.pkt := rfl
@[simp] theorem recErr_packs (pg c a : Nat) : (recErr pg c a s).packs = s.packs := rfl
@[simp] theorem recErr_scans (pg c a : Nat) : (recErr pg c a s).scans = s.scans := rfl
@[simp] theorem recErr_opers (pg c a : Nat) : (recErr pg c a s).opers = s.opers := rfl
@[simp] theorem recErr_ma (pg c a : Nat) : (recErr pg c a s).ma = s.ma := rfl
@[simp] theorem recErr_dg (pg c a : Nat) : (recErr pg c a s).dg = s.dg := rfl
@[simp] theorem recErr_keys (pg c a : Nat) : (recErr pg c a s).keys = s.keys := rfl
@[simp] theorem recErr_ln (pg c a : Nat) : (recErr pg c a s).ln = s.ln := rfl
@[simp] theorem recErr_ldg (pg c a : Nat) : (recErr pg c a s).ldg = s.ldg := rfl
@[simp] theorem recErr_out (pg c a : Nat) : (recErr pg c a s).out = s.out := rfl
@[simp] theorem recErr_pending (pg c a : Nat) : (recErr pg c a s).pending = s.pending := rfl

/-! ### writeWord1 changes rf -/

@[simp] theorem writeWord1_now : (writeWord1 s).now = s.now := rfl
@[simp] theorem writeWord1_freeCtr : (writeWord1 s).freeCtr = s.freeCtr := rfl
@[simp] theorem writeWord1_seam : (writeWord1 s).seam = s.seam := rfl
@[simp] theorem writeWord1_sched : (writeWord1 s).sched = s.sched := rfl
@[simp] theorem writeWord1_pat : (writeWord1 s).pat = s.pat := rfl
@[simp] theorem writeWord1_rings : (writeWord1 s).rings = s.rings := rfl
@[simp] theorem writeWord1_xl : (writeWord1 s).xl = s.xl := rfl
@[simp] theorem writeWord1_hmc : (writeWord1 s).hmc = s.hmc := rfl
@[simp] theorem writeWord1_cxt : (writeWord1 s).cxt = s.cxt := rfl
@[simp] theorem writeWord1_mem : (writeWord1 s).mem = s.mem := rfl
@[simp] theorem writeWord1_noc : (writeWord1 s).noc = s.noc := rfl
@[simp] theorem writeWord1_bm : (writeWord1 s).bm = s.bm := rfl
@[simp] theorem writeWord1_portA : (writeWord1 s).portA = s.portA := rfl
@[simp] theorem writeWord1_portB : (writeWord1 s).portB = s.portB := rfl
@[simp] theorem writeWord1_i3c : (writeWord1 s).i3c = s.i3c := rfl
@[simp] theorem writeWord1_dev : (writeWord1 s).dev = s.dev := rfl
@[simp] theorem writeWord1_pwr : (writeWord1 s).pwr = s.pwr := rfl
@[simp] theorem writeWord1_cyc16 : (writeWord1 s).cyc16 = s.cyc16 := rfl
@[simp] theorem writeWord1_pkt : (writeWord1 s).pkt = s.pkt := rfl
@[simp] theorem writeWord1_packs : (writeWord1 s).packs = s.packs := rfl
@[simp] theorem writeWord1_scans : (writeWord1 s).scans = s.scans := rfl
@[simp] theorem writeWord1_opers : (writeWord1 s).opers = s.opers := rfl
@[simp] theorem writeWord1_ma : (writeWord1 s).ma = s.ma := rfl
@[simp] theorem writeWord1_dg : (writeWord1 s).dg = s.dg := rfl
@[simp] theorem writeWord1_keys : (writeWord1 s).keys = s.keys := rfl
@[simp] theorem writeWord1_ln : (writeWord1 s).ln = s.ln := rfl
@[simp] theorem writeWord1_ldg : (writeWord1 s).ldg = s.ldg := rfl
@[simp] theorem writeWord1_out : (writeWord1 s).out = s.out := rfl
@[simp] theorem writeWord1_pending : (writeWord1 s).pending = s.pending := rfl

/-! ### addCause changes i3c -/

@[simp] theorem addCause_now (c : Nat) : (addCause c s).now = s.now := by unfold addCause; split <;> rfl
@[simp] theorem addCause_freeCtr (c : Nat) : (addCause c s).freeCtr = s.freeCtr := by unfold addCause; split <;> rfl
@[simp] theorem addCause_rf (c : Nat) : (addCause c s).rf = s.rf := by unfold addCause; split <;> rfl
@[simp] theorem addCause_seam (c : Nat) : (addCause c s).seam = s.seam := by unfold addCause; split <;> rfl
@[simp] theorem addCause_sched (c : Nat) : (addCause c s).sched = s.sched := by unfold addCause; split <;> rfl
@[simp] theorem addCause_pat (c : Nat) : (addCause c s).pat = s.pat := by unfold addCause; split <;> rfl
@[simp] theorem addCause_rings (c : Nat) : (addCause c s).rings = s.rings := by unfold addCause; split <;> rfl
@[simp] theorem addCause_xl (c : Nat) : (addCause c s).xl = s.xl := by unfold addCause; split <;> rfl
@[simp] theorem addCause_hmc (c : Nat) : (addCause c s).hmc = s.hmc := by unfold addCause; split <;> rfl
@[simp] theorem addCause_cxt (c : Nat) : (addCause c s).cxt = s.cxt := by unfold addCause; split <;> rfl
@[simp] theorem addCause_mem (c : Nat) : (addCause c s).mem = s.mem := by unfold addCause; split <;> rfl
@[simp] theorem addCause_noc (c : Nat) : (addCause c s).noc = s.noc := by unfold addCause; split <;> rfl
@[simp] theorem addCause_bm (c : Nat) : (addCause c s).bm = s.bm := by unfold addCause; split <;> rfl
@[simp] theorem addCause_portA (c : Nat) : (addCause c s).portA = s.portA := by unfold addCause; split <;> rfl
@[simp] theorem addCause_portB (c : Nat) : (addCause c s).portB = s.portB := by unfold addCause; split <;> rfl
@[simp] theorem addCause_dev (c : Nat) : (addCause c s).dev = s.dev := by unfold addCause; split <;> rfl
@[simp] theorem addCause_pwr (c : Nat) : (addCause c s).pwr = s.pwr := by unfold addCause; split <;> rfl
@[simp] theorem addCause_cyc16 (c : Nat) : (addCause c s).cyc16 = s.cyc16 := by unfold addCause; split <;> rfl
@[simp] theorem addCause_pkt (c : Nat) : (addCause c s).pkt = s.pkt := by unfold addCause; split <;> rfl
@[simp] theorem addCause_packs (c : Nat) : (addCause c s).packs = s.packs := by unfold addCause; split <;> rfl
@[simp] theorem addCause_scans (c : Nat) : (addCause c s).scans = s.scans := by unfold addCause; split <;> rfl
@[simp] theorem addCause_opers (c : Nat) : (addCause c s).opers = s.opers := by unfold addCause; split <;> rfl
@[simp] theorem addCause_ma (c : Nat) : (addCause c s).ma = s.ma := by unfold addCause; split <;> rfl
@[simp] theorem addCause_dg (c : Nat) : (addCause c s).dg = s.dg := by unfold addCause; split <;> rfl
@[simp] theorem addCause_keys (c : Nat) : (addCause c s).keys = s.keys := by unfold addCause; split <;> rfl
@[simp] theorem addCause_ln (c : Nat) : (addCause c s).ln = s.ln := by unfold addCause; split <;> rfl
@[simp] theorem addCause_ldg (c : Nat) : (addCause c s).ldg = s.ldg := by unfold addCause; split <;> rfl
@[simp] theorem addCause_out (c : Nat) : (addCause c s).out = s.out := by unfold addCause; split <;> rfl
@[simp] theorem addCause_pending (c : Nat) : (addCause c s).pending = s.pending := by unfold addCause; split <;> rfl

/-! ### raiseIbi changes rf, i3c -/

@[simp] theorem raiseIbi_now (c : Nat) : (raiseIbi c s).now = s.now := by unfold raiseIbi; dsimp only; split <;> simp
@[simp] theorem raiseIbi_freeCtr (c : Nat) : (raiseIbi c s).freeCtr = s.freeCtr := by unfold raiseIbi; dsimp only; split <;> simp
@[simp] theorem raiseIbi_seam (c : Nat) : (raiseIbi c s).seam = s.seam := by unfold raiseIbi; dsimp only; split <;> simp
@[simp] theorem raiseIbi_sched (c : Nat) : (raiseIbi c s).sched = s.sched := by unfold raiseIbi; dsimp only; split <;> simp
@[simp] theorem raiseIbi_pat (c : Nat) : (raiseIbi c s).pat = s.pat := by unfold raiseIbi; dsimp only; split <;> simp
@[simp] theorem raiseIbi_rings (c : Nat) : (raiseIbi c s).rings = s.rings := by unfold raiseIbi; dsimp only; split <;> simp
@[simp] theorem raiseIbi_xl (c : Nat) : (raiseIbi c s).xl = s.xl := by unfold raiseIbi; dsimp only; split <;> simp
@[simp] theorem raiseIbi_hmc (c : Nat) : (raiseIbi c s).hmc = s.hmc := by unfold raiseIbi; dsimp only; split <;> simp
@[simp] theorem raiseIbi_cxt (c : Nat) : (raiseIbi c s).cxt = s.cxt := by unfold raiseIbi; dsimp only; split <;> simp
@[simp] theorem raiseIbi_mem (c : Nat) : (raiseIbi c s).mem = s.mem := by unfold raiseIbi; dsimp only; split <;> simp
@[simp] theorem raiseIbi_noc (c : Nat) : (raiseIbi c s).noc = s.noc := by unfold raiseIbi; dsimp only; split <;> simp
@[simp] theorem raiseIbi_bm (c : Nat) : (raiseIbi c s).bm = s.bm := by unfold raiseIbi; dsimp only; split <;> simp
@[simp] theorem raiseIbi_portA (c : Nat) : (raiseIbi c s).portA = s.portA := by unfold raiseIbi; dsimp only; split <;> simp
@[simp] theorem raiseIbi_portB (c : Nat) : (raiseIbi c s).portB = s.portB := by unfold raiseIbi; dsimp only; split <;> simp
@[simp] theorem raiseIbi_dev (c : Nat) : (raiseIbi c s).dev = s.dev := by unfold raiseIbi; dsimp only; split <;> simp
@[simp] theorem raiseIbi_pwr (c : Nat) : (raiseIbi c s).pwr = s.pwr := by unfold raiseIbi; dsimp only; split <;> simp
@[simp] theorem raiseIbi_cyc16 (c : Nat) : (raiseIbi c s).cyc16 = s.cyc16 := by unfold raiseIbi; dsimp only; split <;> simp
@[simp] theorem raiseIbi_pkt (c : Nat) : (raiseIbi c s).pkt = s.pkt := by unfold raiseIbi; dsimp only; split <;> simp
@[simp] theorem raiseIbi_packs (c : Nat) : (raiseIbi c s).packs = s.packs := by unfold raiseIbi; dsimp only; split <;> simp
@[simp] theorem raiseIbi_scans (c : Nat) : (raiseIbi c s).scans = s.scans := by unfold raiseIbi; dsimp only; split <;> simp
@[simp] theorem raiseIbi_opers (c : Nat) : (raiseIbi c s).opers = s.opers := by unfold raiseIbi; dsimp only; split <;> simp
@[simp] theorem raiseIbi_ma (c : Nat) : (raiseIbi c s).ma = s.ma := by unfold raiseIbi; dsimp only; split <;> simp
@[simp] theorem raiseIbi_dg (c : Nat) : (raiseIbi c s).dg = s.dg := by unfold raiseIbi; dsimp only; split <;> simp
@[simp] theorem raiseIbi_keys (c : Nat) : (raiseIbi c s).keys = s.keys := by unfold raiseIbi; dsimp only; split <;> simp
@[simp] theorem raiseIbi_ln (c : Nat) : (raiseIbi c s).ln = s.ln := by unfold raiseIbi; dsimp only; split <;> simp
@[simp] theorem raiseIbi_ldg (c : Nat) : (raiseIbi c s).ldg = s.ldg := by unfold raiseIbi; dsimp only; split <;> simp
@[simp] theorem raiseIbi_out (c : Nat) : (raiseIbi c s).out = s.out := by unfold raiseIbi; dsimp only; split <;> simp
@[simp] theorem raiseIbi_pending (c : Nat) : (raiseIbi c s).pending = s.pending := by unfold raiseIbi; dsimp only; split <;> simp

/-! ### setPort changes portA, portB -/

@[simp] theorem setPort_now (p : HostPort) (x : PortSt) : (setPort p x s).now = s.now := by unfold setPort; split <;> rfl
@[simp] theorem setPort_freeCtr (p : HostPort) (x : PortSt) : (setPort p x s).freeCtr = s.freeCtr := by unfold setPort; split <;> rfl
@[simp] theorem setPort_rf (p : HostPort) (x : PortSt) : (setPort p x s).rf = s.rf := by unfold setPort; split <;> rfl
@[simp] theorem setPort_seam (p : HostPort) (x : PortSt) : (setPort p x s).seam = s.seam := by unfold setPort; split <;> rfl
@[simp] theorem setPort_sched (p : HostPort) (x : PortSt) : (setPort p x s).sched = s.sched := by unfold setPort; split <;> rfl
@[simp] theorem setPort_pat (p : HostPort) (x : PortSt) : (setPort p x s).pat = s.pat := by unfold setPort; split <;> rfl
@[simp] theorem setPort_rings (p : HostPort) (x : PortSt) : (setPort p x s).rings = s.rings := by unfold setPort; split <;> rfl
@[simp] theorem setPort_xl (p : HostPort) (x : PortSt) : (setPort p x s).xl = s.xl := by unfold setPort; split <;> rfl
@[simp] theorem setPort_hmc (p : HostPort) (x : PortSt) : (setPort p x s).hmc = s.hmc := by unfold setPort; split <;> rfl
@[simp] theorem setPort_cxt (p : HostPort) (x : PortSt) : (setPort p x s).cxt = s.cxt := by unfold setPort; split <;> rfl
@[simp] theorem setPort_mem (p : HostPort) (x : PortSt) : (setPort p x s).mem = s.mem := by unfold setPort; split <;> rfl
@[simp] theorem setPort_noc (p : HostPort) (x : PortSt) : (setPort p x s).noc = s.noc := by unfold setPort; split <;> rfl
@[simp] theorem setPort_bm (p : HostPort) (x : PortSt) : (setPort p x s).bm = s.bm := by unfold setPort; split <;> rfl
@[simp] theorem setPort_i3c (p : HostPort) (x : PortSt) : (setPort p x s).i3c = s.i3c := by unfold setPort; split <;> rfl
@[simp] theorem setPort_dev (p : HostPort) (x : PortSt) : (setPort p x s).dev = s.dev := by unfold setPort; split <;> rfl
@[simp] theorem setPort_pwr (p : HostPort) (x : PortSt) : (setPort p x s).pwr = s.pwr := by unfold setPort; split <;> rfl
@[simp] theorem setPort_cyc16 (p : HostPort) (x : PortSt) : (setPort p x s).cyc16 = s.cyc16 := by unfold setPort; split <;> rfl
@[simp] theorem setPort_pkt (p : HostPort) (x : PortSt) : (setPort p x s).pkt = s.pkt := by unfold setPort; split <;> rfl
@[simp] theorem setPort_packs (p : HostPort) (x : PortSt) : (setPort p x s).packs = s.packs := by unfold setPort; split <;> rfl
@[simp] theorem setPort_scans (p : HostPort) (x : PortSt) : (setPort p x s).scans = s.scans := by unfold setPort; split <;> rfl
@[simp] theorem setPort_opers (p : HostPort) (x : PortSt) : (setPort p x s).opers = s.opers := by unfold setPort; split <;> rfl
@[simp] theorem setPort_ma (p : HostPort) (x : PortSt) : (setPort p x s).ma = s.ma := by unfold setPort; split <;> rfl
@[simp] theorem setPort_dg (p : HostPort) (x : PortSt) : (setPort p x s).dg = s.dg := by unfold setPort; split <;> rfl
@[simp] theorem setPort_keys (p : HostPort) (x : PortSt) : (setPort p x s).keys = s.keys := by unfold setPort; split <;> rfl
@[simp] theorem setPort_ln (p : HostPort) (x : PortSt) : (setPort p x s).ln = s.ln := by unfold setPort; split <;> rfl
@[simp] theorem setPort_ldg (p : HostPort) (x : PortSt) : (setPort p x s).ldg = s.ldg := by unfold setPort; split <;> rfl
@[simp] theorem setPort_out (p : HostPort) (x : PortSt) : (setPort p x s).out = s.out := by unfold setPort; split <;> rfl
@[simp] theorem setPort_pending (p : HostPort) (x : PortSt) : (setPort p x s).pending = s.pending := by unfold setPort; split <;> rfl

/-! ### sendAer changes portA, portB, out -/

@[simp] theorem sendAer_now (p : HostPort) : (sendAer p s).now = s.now := by unfold sendAer; simp
@[simp] theorem sendAer_freeCtr (p : HostPort) : (sendAer p s).freeCtr = s.freeCtr := by unfold sendAer; simp
@[simp] theorem sendAer_rf (p : HostPort) : (sendAer p s).rf = s.rf := by unfold sendAer; simp
@[simp] theorem sendAer_seam (p : HostPort) : (sendAer p s).seam = s.seam := by unfold sendAer; simp
@[simp] theorem sendAer_sched (p : HostPort) : (sendAer p s).sched = s.sched := by unfold sendAer; simp
@[simp] theorem sendAer_pat (p : HostPort) : (sendAer p s).pat = s.pat := by unfold sendAer; simp
@[simp] theorem sendAer_rings (p : HostPort) : (sendAer p s).rings = s.rings := by unfold sendAer; simp
@[simp] theorem sendAer_xl (p : HostPort) : (sendAer p s).xl = s.xl := by unfold sendAer; simp
@[simp] theorem sendAer_hmc (p : HostPort) : (sendAer p s).hmc = s.hmc := by unfold sendAer; simp
@[simp] theorem sendAer_cxt (p : HostPort) : (sendAer p s).cxt = s.cxt := by unfold sendAer; simp
@[simp] theorem sendAer_mem (p : HostPort) : (sendAer p s).mem = s.mem := by unfold sendAer; simp
@[simp] theorem sendAer_noc (p : HostPort) : (sendAer p s).noc = s.noc := by unfold sendAer; simp
@[simp] theorem sendAer_bm (p : HostPort) : (sendAer p s).bm = s.bm := by unfold sendAer; simp
@[simp] theorem sendAer_i3c (p : HostPort) : (sendAer p s).i3c = s.i3c := by unfold sendAer; simp
@[simp] theorem sendAer_dev (p : HostPort) : (sendAer p s).dev = s.dev := by unfold sendAer; simp
@[simp] theorem sendAer_pwr (p : HostPort) : (sendAer p s).pwr = s.pwr := by unfold sendAer; simp
@[simp] theorem sendAer_cyc16 (p : HostPort) : (sendAer p s).cyc16 = s.cyc16 := by unfold sendAer; simp
@[simp] theorem sendAer_pkt (p : HostPort) : (sendAer p s).pkt = s.pkt := by unfold sendAer; simp
@[simp] theorem sendAer_packs (p : HostPort) : (sendAer p s).packs = s.packs := by unfold sendAer; simp
@[simp] theorem sendAer_scans (p : HostPort) : (sendAer p s).scans = s.scans := by unfold sendAer; simp
@[simp] theorem sendAer_opers (p : HostPort) : (sendAer p s).opers = s.opers := by unfold sendAer; simp
@[simp] theorem sendAer_ma (p : HostPort) : (sendAer p s).ma = s.ma := by unfold sendAer; simp
@[simp] theorem sendAer_dg (p : HostPort) : (sendAer p s).dg = s.dg := by unfold sendAer; simp
@[simp] theorem sendAer_keys (p : HostPort) : (sendAer p s).keys = s.keys := by unfold sendAer; simp
@[simp] theorem sendAer_ln (p : HostPort) : (sendAer p s).ln = s.ln := by unfold sendAer; simp
@[simp] theorem sendAer_ldg (p : HostPort) : (sendAer p s).ldg = s.ldg := by unfold sendAer; simp
@[simp] theorem sendAer_pending (p : HostPort) : (sendAer p s).pending = s.pending := by unfold sendAer; simp

/-! ### makeUndef changes mem, hmc, freeCtr -/

@[simp] theorem makeUndef_now (a n : Nat) : (makeUndef a n s).now = s.now := by unfold makeUndef; split <;> rfl
@[simp] theorem makeUndef_rf (a n : Nat) : (makeUndef a n s).rf = s.rf := by unfold makeUndef; split <;> rfl
@[simp] theorem makeUndef_seam (a n : Nat) : (makeUndef a n s).seam = s.seam := by unfold makeUndef; split <;> rfl
@[simp] theorem makeUndef_sched (a n : Nat) : (makeUndef a n s).sched = s.sched := by unfold makeUndef; split <;> rfl
@[simp] theorem makeUndef_pat (a n : Nat) : (makeUndef a n s).pat = s.pat := by unfold makeUndef; split <;> rfl
@[simp] theorem makeUndef_rings (a n : Nat) : (makeUndef a n s).rings = s.rings := by unfold makeUndef; split <;> rfl
@[simp] theorem makeUndef_xl (a n : Nat) : (makeUndef a n s).xl = s.xl := by unfold makeUndef; split <;> rfl
@[simp] theorem makeUndef_cxt (a n : Nat) : (makeUndef a n s).cxt = s.cxt := by unfold makeUndef; split <;> rfl
@[simp] theorem makeUndef_noc (a n : Nat) : (makeUndef a n s).noc = s.noc := by unfold makeUndef; split <;> rfl
@[simp] theorem makeUndef_bm (a n : Nat) : (makeUndef a n s).bm = s.bm := by unfold makeUndef; split <;> rfl
@[simp] theorem makeUndef_portA (a n : Nat) : (makeUndef a n s).portA = s.portA := by unfold makeUndef; split <;> rfl
@[simp] theorem makeUndef_portB (a n : Nat) : (makeUndef a n s).portB = s.portB := by unfold makeUndef; split <;> rfl
@[simp] theorem makeUndef_i3c (a n : Nat) : (makeUndef a n s).i3c = s.i3c := by unfold makeUndef; split <;> rfl
@[simp] theorem makeUndef_dev (a n : Nat) : (makeUndef a n s).dev = s.dev := by unfold makeUndef; split <;> rfl
@[simp] theorem makeUndef_pwr (a n : Nat) : (makeUndef a n s).pwr = s.pwr := by unfold makeUndef; split <;> rfl
@[simp] theorem makeUndef_cyc16 (a n : Nat) : (makeUndef a n s).cyc16 = s.cyc16 := by unfold makeUndef; split <;> rfl
@[simp] theorem makeUndef_pkt (a n : Nat) : (makeUndef a n s).pkt = s.pkt := by unfold makeUndef; split <;> rfl
@[simp] theorem makeUndef_packs (a n : Nat) : (makeUndef a n s).packs = s.packs := by unfold makeUndef; split <;> rfl
@[simp] theorem makeUndef_scans (a n : Nat) : (makeUndef a n s).scans = s.scans := by unfold makeUndef; split <;> rfl
@[simp] theorem makeUndef_opers (a n : Nat) : (makeUndef a n s).opers = s.opers := by unfold makeUndef; split <;> rfl
@[simp] theorem makeUndef_ma (a n : Nat) : (makeUndef a n s).ma = s.ma := by unfold makeUndef; split <;> rfl
@[simp] theorem makeUndef_dg (a n : Nat) : (makeUndef a n s).dg = s.dg := by unfold makeUndef; split <;> rfl
@[simp] theorem makeUndef_keys (a n : Nat) : (makeUndef a n s).keys = s.keys := by unfold makeUndef; split <;> rfl
@[simp] theorem makeUndef_ln (a n : Nat) : (makeUndef a n s).ln = s.ln := by unfold makeUndef; split <;> rfl
@[simp] theorem makeUndef_ldg (a n : Nat) : (makeUndef a n s).ldg = s.ldg := by unfold makeUndef; split <;> rfl
@[simp] theorem makeUndef_out (a n : Nat) : (makeUndef a n s).out = s.out := by unfold makeUndef; split <;> rfl
@[simp] theorem makeUndef_pending (a n : Nat) : (makeUndef a n s).pending = s.pending := by unfold makeUndef; split <;> rfl

/-! ### makeHostUndef changes mem, freeCtr -/

@[simp] theorem makeHostUndef_now (a n : Nat) : (makeHostUndef a n s).now = s.now := by unfold makeHostUndef; split <;> rfl
@[simp] theorem makeHostUndef_rf (a n : Nat) : (makeHostUndef a n s).rf = s.rf := by unfold makeHostUndef; split <;> rfl
@[simp] theorem makeHostUndef_seam (a n : Nat) : (makeHostUndef a n s).seam = s.seam := by unfold makeHostUndef; split <;> rfl
@[simp] theorem makeHostUndef_sched (a n : Nat) : (makeHostUndef a n s).sched = s.sched := by unfold makeHostUndef; split <;> rfl
@[simp] theorem makeHostUndef_pat (a n : Nat) : (makeHostUndef a n s).pat = s.pat := by unfold makeHostUndef; split <;> rfl
@[simp] theorem makeHostUndef_rings (a n : Nat) : (makeHostUndef a n s).rings = s.rings := by unfold makeHostUndef; split <;> rfl
@[simp] theorem makeHostUndef_xl (a n : Nat) : (makeHostUndef a n s).xl = s.xl := by unfold makeHostUndef; split <;> rfl
@[simp] theorem makeHostUndef_hmc (a n : Nat) : (makeHostUndef a n s).hmc = s.hmc := by unfold makeHostUndef; split <;> rfl
@[simp] theorem makeHostUndef_cxt (a n : Nat) : (makeHostUndef a n s).cxt = s.cxt := by unfold makeHostUndef; split <;> rfl
@[simp] theorem makeHostUndef_noc (a n : Nat) : (makeHostUndef a n s).noc = s.noc := by unfold makeHostUndef; split <;> rfl
@[simp] theorem makeHostUndef_bm (a n : Nat) : (makeHostUndef a n s).bm = s.bm := by unfold makeHostUndef; split <;> rfl
@[simp] theorem makeHostUndef_portA (a n : Nat) : (makeHostUndef a n s).portA = s.portA := by unfold makeHostUndef; split <;> rfl
@[simp] theorem makeHostUndef_portB (a n : Nat) : (makeHostUndef a n s).portB = s.portB := by unfold makeHostUndef; split <;> rfl
@[simp] theorem makeHostUndef_i3c (a n : Nat) : (makeHostUndef a n s).i3c = s.i3c := by unfold makeHostUndef; split <;> rfl
@[simp] theorem makeHostUndef_dev (a n : Nat) : (makeHostUndef a n s).dev = s.dev := by unfold makeHostUndef; split <;> rfl
@[simp] theorem makeHostUndef_pwr (a n : Nat) : (makeHostUndef a n s).pwr = s.pwr := by unfold makeHostUndef; split <;> rfl
@[simp] theorem makeHostUndef_cyc16 (a n : Nat) : (makeHostUndef a n s).cyc16 = s.cyc16 := by unfold makeHostUndef; split <;> rfl
@[simp] theorem makeHostUndef_pkt (a n : Nat) : (makeHostUndef a n s).pkt = s.pkt := by unfold makeHostUndef; split <;> rfl
@[simp] theorem makeHostUndef_packs (a n : Nat) : (makeHostUndef a n s).packs = s.packs := by unfold makeHostUndef; split <;> rfl
@[simp] theorem makeHostUndef_scans (a n : Nat) : (makeHostUndef a n s).scans = s.scans := by unfold makeHostUndef; split <;> rfl
@[simp] theorem makeHostUndef_opers (a n : Nat) : (makeHostUndef a n s).opers = s.opers := by unfold makeHostUndef; split <;> rfl
@[simp] theorem makeHostUndef_ma (a n : Nat) : (makeHostUndef a n s).ma = s.ma := by unfold makeHostUndef; split <;> rfl
@[simp] theorem makeHostUndef_dg (a n : Nat) : (makeHostUndef a n s).dg = s.dg := by unfold makeHostUndef; split <;> rfl
@[simp] theorem makeHostUndef_keys (a n : Nat) : (makeHostUndef a n s).keys = s.keys := by unfold makeHostUndef; split <;> rfl
@[simp] theorem makeHostUndef_ln (a n : Nat) : (makeHostUndef a n s).ln = s.ln := by unfold makeHostUndef; split <;> rfl
@[simp] theorem makeHostUndef_ldg (a n : Nat) : (makeHostUndef a n s).ldg = s.ldg := by unfold makeHostUndef; split <;> rfl
@[simp] theorem makeHostUndef_out (a n : Nat) : (makeHostUndef a n s).out = s.out := by unfold makeHostUndef; split <;> rfl
@[simp] theorem makeHostUndef_pending (a n : Nat) : (makeHostUndef a n s).pending = s.pending := by unfold makeHostUndef; split <;> rfl

/-! ### lastErr changes dev -/

@[simp] theorem lastErr_now (pg c : Nat) : (lastErr pg c s).now = s.now := rfl
@[simp] theorem lastErr_freeCtr (pg c : Nat) : (lastErr pg c s).freeCtr = s.freeCtr := rfl
@[simp] theorem lastErr_rf (pg c : Nat) : (lastErr pg c s).rf = s.rf := rfl
@[simp] theorem lastErr_seam (pg c : Nat) : (lastErr pg c s).seam = s.seam := rfl
@[simp] theorem lastErr_sched (pg c : Nat) : (lastErr pg c s).sched = s.sched := rfl
@[simp] theorem lastErr_pat (pg c : Nat) : (lastErr pg c s).pat = s.pat := rfl
@[simp] theorem lastErr_rings (pg c : Nat) : (lastErr pg c s).rings = s.rings := rfl
@[simp] theorem lastErr_xl (pg c : Nat) : (lastErr pg c s).xl = s.xl := rfl
@[simp] theorem lastErr_hmc (pg c : Nat) : (lastErr pg c s).hmc = s.hmc := rfl
@[simp] theorem lastErr_cxt (pg c : Nat) : (lastErr pg c s).cxt = s.cxt := rfl
@[simp] theorem lastErr_mem (pg c : Nat) : (lastErr pg c s).mem = s.mem := rfl
@[simp] theorem lastErr_noc (pg c : Nat) : (lastErr pg c s).noc = s.noc := rfl
@[simp] theorem lastErr_bm (pg c : Nat) : (lastErr pg c s).bm = s.bm := rfl
@[simp] theorem lastErr_portA (pg c : Nat) : (lastErr pg c s).portA = s.portA := rfl
@[simp] theorem lastErr_portB (pg c : Nat) : (lastErr pg c s).portB = s.portB := rfl
@[simp] theorem lastErr_i3c (pg c : Nat) : (lastErr pg c s).i3c = s.i3c := rfl
@[simp] theorem lastErr_pwr (pg c : Nat) : (lastErr pg c s).pwr = s.pwr := rfl
@[simp] theorem lastErr_cyc16 (pg c : Nat) : (lastErr pg c s).cyc16 = s.cyc16 := rfl
@[simp] theorem lastErr_pkt (pg c : Nat) : (lastErr pg c s).pkt = s.pkt := rfl
@[simp] theorem lastErr_packs (pg c : Nat) : (lastErr pg c s).packs = s.packs := rfl
@[simp] theorem lastErr_scans (pg c : Nat) : (lastErr pg c s).scans = s.scans := rfl
@[simp] theorem lastErr_opers (pg c : Nat) : (lastErr pg c s).opers = s.opers := rfl
@[simp] theorem lastErr_ma (pg c : Nat) : (lastErr pg c s).ma = s.ma := rfl
@[simp] theorem lastErr_dg (pg c : Nat) : (lastErr pg c s).dg = s.dg := rfl
@[simp] theorem lastErr_keys (pg c : Nat) : (lastErr pg c s).keys = s.keys := rfl
@[simp] theorem lastErr_ln (pg c : Nat) : (lastErr pg c s).ln = s.ln := rfl
@[simp] theorem lastErr_ldg (pg c : Nat) : (lastErr pg c s).ldg = s.ldg := rfl
@[simp] theorem lastErr_out (pg c : Nat) : (lastErr pg c s).out = s.out := rfl
@[simp] theorem lastErr_pending (pg c : Nat) : (lastErr pg c s).pending = s.pending := rfl

/-! ### corrected changes rf, dev -/

@[simp] theorem corrected_now : (corrected s).now = s.now := rfl
@[simp] theorem corrected_freeCtr : (corrected s).freeCtr = s.freeCtr := rfl
@[simp] theorem corrected_seam : (corrected s).seam = s.seam := rfl
@[simp] theorem corrected_sched : (corrected s).sched = s.sched := rfl
@[simp] theorem corrected_pat : (corrected s).pat = s.pat := rfl
@[simp] theorem corrected_rings : (corrected s).rings = s.rings := rfl
@[simp] theorem corrected_xl : (corrected s).xl = s.xl := rfl
@[simp] theorem corrected_hmc : (corrected s).hmc = s.hmc := rfl
@[simp] theorem corrected_cxt : (corrected s).cxt = s.cxt := rfl
@[simp] theorem corrected_mem : (corrected s).mem = s.mem := rfl
@[simp] theorem corrected_noc : (corrected s).noc = s.noc := rfl
@[simp] theorem corrected_bm : (corrected s).bm = s.bm := rfl
@[simp] theorem corrected_portA : (corrected s).portA = s.portA := rfl
@[simp] theorem corrected_portB : (corrected s).portB = s.portB := rfl
@[simp] theorem corrected_i3c : (corrected s).i3c = s.i3c := rfl
@[simp] theorem corrected_pwr : (corrected s).pwr = s.pwr := rfl
@[simp] theorem corrected_cyc16 : (corrected s).cyc16 = s.cyc16 := rfl
@[simp] theorem corrected_pkt : (corrected s).pkt = s.pkt := rfl
@[simp] theorem corrected_packs : (corrected s).packs = s.packs := rfl
@[simp] theorem corrected_scans : (corrected s).scans = s.scans := rfl
@[simp] theorem corrected_opers : (corrected s).opers = s.opers := rfl
@[simp] theorem corrected_ma : (corrected s).ma = s.ma := rfl
@[simp] theorem corrected_dg : (corrected s).dg = s.dg := rfl
@[simp] theorem corrected_keys : (corrected s).keys = s.keys := rfl
@[simp] theorem corrected_ln : (corrected s).ln = s.ln := rfl
@[simp] theorem corrected_ldg : (corrected s).ldg = s.ldg := rfl
@[simp] theorem corrected_out : (corrected s).out = s.out := rfl
@[simp] theorem corrected_pending : (corrected s).pending = s.pending := rfl

/-! ### contained changes rf, out, i3c, dev -/

@[simp] theorem contained_now (pg : Nat) : (contained pg s).now = s.now := by simp [contained]
@[simp] theorem contained_freeCtr (pg : Nat) : (contained pg s).freeCtr = s.freeCtr := by simp [contained]
@[simp] theorem contained_seam (pg : Nat) : (contained pg s).seam = s.seam := by simp [contained]
@[simp] theorem contained_sched (pg : Nat) : (contained pg s).sched = s.sched := by simp [contained]
@[simp] theorem contained_pat (pg : Nat) : (contained pg s).pat = s.pat := by simp [contained]
@[simp] theorem contained_rings (pg : Nat) : (contained pg s).rings = s.rings := by simp [contained]
@[simp] theorem contained_xl (pg : Nat) : (contained pg s).xl = s.xl := by simp [contained]
@[simp] theorem contained_hmc (pg : Nat) : (contained pg s).hmc = s.hmc := by simp [contained]
@[simp] theorem contained_cxt (pg : Nat) : (contained pg s).cxt = s.cxt := by simp [contained]
@[simp] theorem contained_mem (pg : Nat) : (contained pg s).mem = s.mem := by simp [contained]
@[simp] theorem contained_noc (pg : Nat) : (contained pg s).noc = s.noc := by simp [contained]
@[simp] theorem contained_bm (pg : Nat) : (contained pg s).bm = s.bm := by simp [contained]
@[simp] theorem contained_portA (pg : Nat) : (contained pg s).portA = s.portA := by simp [contained]
@[simp] theorem contained_portB (pg : Nat) : (contained pg s).portB = s.portB := by simp [contained]
@[simp] theorem contained_pwr (pg : Nat) : (contained pg s).pwr = s.pwr := by simp [contained]
@[simp] theorem contained_cyc16 (pg : Nat) : (contained pg s).cyc16 = s.cyc16 := by simp [contained]
@[simp] theorem contained_pkt (pg : Nat) : (contained pg s).pkt = s.pkt := by simp [contained]
@[simp] theorem contained_packs (pg : Nat) : (contained pg s).packs = s.packs := by simp [contained]
@[simp] theorem contained_scans (pg : Nat) : (contained pg s).scans = s.scans := by simp [contained]
@[simp] theorem contained_opers (pg : Nat) : (contained pg s).opers = s.opers := by simp [contained]
@[simp] theorem contained_ma (pg : Nat) : (contained pg s).ma = s.ma := by simp [contained]
@[simp] theorem contained_dg (pg : Nat) : (contained pg s).dg = s.dg := by simp [contained]
@[simp] theorem contained_keys (pg : Nat) : (contained pg s).keys = s.keys := by simp [contained]
@[simp] theorem contained_ln (pg : Nat) : (contained pg s).ln = s.ln := by simp [contained]
@[simp] theorem contained_ldg (pg : Nat) : (contained pg s).ldg = s.ldg := by simp [contained]
@[simp] theorem contained_pending (pg : Nat) : (contained pg s).pending = s.pending := by simp [contained]

/-! ### statAdd changes rf -/

@[simp] theorem statAdd_now (st sub k n : Nat) : (statAdd st sub k n s).now = s.now := by unfold statAdd; split <;> simp
@[simp] theorem statAdd_freeCtr (st sub k n : Nat) : (statAdd st sub k n s).freeCtr = s.freeCtr := by unfold statAdd; split <;> simp
@[simp] theorem statAdd_seam (st sub k n : Nat) : (statAdd st sub k n s).seam = s.seam := by unfold statAdd; split <;> simp
@[simp] theorem statAdd_sched (st sub k n : Nat) : (statAdd st sub k n s).sched = s.sched := by unfold statAdd; split <;> simp
@[simp] theorem statAdd_pat (st sub k n : Nat) : (statAdd st sub k n s).pat = s.pat := by unfold statAdd; split <;> simp
@[simp] theorem statAdd_rings (st sub k n : Nat) : (statAdd st sub k n s).rings = s.rings := by unfold statAdd; split <;> simp
@[simp] theorem statAdd_xl (st sub k n : Nat) : (statAdd st sub k n s).xl = s.xl := by unfold statAdd; split <;> simp
@[simp] theorem statAdd_hmc (st sub k n : Nat) : (statAdd st sub k n s).hmc = s.hmc := by unfold statAdd; split <;> simp
@[simp] theorem statAdd_cxt (st sub k n : Nat) : (statAdd st sub k n s).cxt = s.cxt := by unfold statAdd; split <;> simp
@[simp] theorem statAdd_mem (st sub k n : Nat) : (statAdd st sub k n s).mem = s.mem := by unfold statAdd; split <;> simp
@[simp] theorem statAdd_noc (st sub k n : Nat) : (statAdd st sub k n s).noc = s.noc := by unfold statAdd; split <;> simp
@[simp] theorem statAdd_bm (st sub k n : Nat) : (statAdd st sub k n s).bm = s.bm := by unfold statAdd; split <;> simp
@[simp] theorem statAdd_portA (st sub k n : Nat) : (statAdd st sub k n s).portA = s.portA := by unfold statAdd; split <;> simp
@[simp] theorem statAdd_portB (st sub k n : Nat) : (statAdd st sub k n s).portB = s.portB := by unfold statAdd; split <;> simp
@[simp] theorem statAdd_i3c (st sub k n : Nat) : (statAdd st sub k n s).i3c = s.i3c := by unfold statAdd; split <;> simp
@[simp] theorem statAdd_dev (st sub k n : Nat) : (statAdd st sub k n s).dev = s.dev := by unfold statAdd; split <;> simp
@[simp] theorem statAdd_pwr (st sub k n : Nat) : (statAdd st sub k n s).pwr = s.pwr := by unfold statAdd; split <;> simp
@[simp] theorem statAdd_cyc16 (st sub k n : Nat) : (statAdd st sub k n s).cyc16 = s.cyc16 := by unfold statAdd; split <;> simp
@[simp] theorem statAdd_pkt (st sub k n : Nat) : (statAdd st sub k n s).pkt = s.pkt := by unfold statAdd; split <;> simp
@[simp] theorem statAdd_packs (st sub k n : Nat) : (statAdd st sub k n s).packs = s.packs := by unfold statAdd; split <;> simp
@[simp] theorem statAdd_scans (st sub k n : Nat) : (statAdd st sub k n s).scans = s.scans := by unfold statAdd; split <;> simp
@[simp] theorem statAdd_opers (st sub k n : Nat) : (statAdd st sub k n s).opers = s.opers := by unfold statAdd; split <;> simp
@[simp] theorem statAdd_ma (st sub k n : Nat) : (statAdd st sub k n s).ma = s.ma := by unfold statAdd; split <;> simp
@[simp] theorem statAdd_dg (st sub k n : Nat) : (statAdd st sub k n s).dg = s.dg := by unfold statAdd; split <;> simp
@[simp] theorem statAdd_keys (st sub k n : Nat) : (statAdd st sub k n s).keys = s.keys := by unfold statAdd; split <;> simp
@[simp] theorem statAdd_ln (st sub k n : Nat) : (statAdd st sub k n s).ln = s.ln := by unfold statAdd; split <;> simp
@[simp] theorem statAdd_ldg (st sub k n : Nat) : (statAdd st sub k n s).ldg = s.ldg := by unfold statAdd; split <;> simp
@[simp] theorem statAdd_out (st sub k n : Nat) : (statAdd st sub k n s).out = s.out := by unfold statAdd; split <;> simp
@[simp] theorem statAdd_pending (st sub k n : Nat) : (statAdd st sub k n s).pending = s.pending := by unfold statAdd; split <;> simp

/-! ### recordWrite changes rf -/

@[simp] theorem recordWrite_now (w : Writer) (pg : Nat) : (recordWrite w pg s).now = s.now := rfl
@[simp] theorem recordWrite_freeCtr (w : Writer) (pg : Nat) : (recordWrite w pg s).freeCtr = s.freeCtr := rfl
@[simp] theorem recordWrite_seam (w : Writer) (pg : Nat) : (recordWrite w pg s).seam = s.seam := rfl
@[simp] theorem recordWrite_sched (w : Writer) (pg : Nat) : (recordWrite w pg s).sched = s.sched := rfl
@[simp] theorem recordWrite_pat (w : Writer) (pg : Nat) : (recordWrite w pg s).pat = s.pat := rfl
@[simp] theorem recordWrite_rings (w : Writer) (pg : Nat) : (recordWrite w pg s).rings = s.rings := rfl
@[simp] theorem recordWrite_xl (w : Writer) (pg : Nat) : (recordWrite w pg s).xl = s.xl := rfl
@[simp] theorem recordWrite_hmc (w : Writer) (pg : Nat) : (recordWrite w pg s).hmc = s.hmc := rfl
@[simp] theorem recordWrite_cxt (w : Writer) (pg : Nat) : (recordWrite w pg s).cxt = s.cxt := rfl
@[simp] theorem recordWrite_mem (w : Writer) (pg : Nat) : (recordWrite w pg s).mem = s.mem := rfl
@[simp] theorem recordWrite_noc (w : Writer) (pg : Nat) : (recordWrite w pg s).noc = s.noc := rfl
@[simp] theorem recordWrite_bm (w : Writer) (pg : Nat) : (recordWrite w pg s).bm = s.bm := rfl
@[simp] theorem recordWrite_portA (w : Writer) (pg : Nat) : (recordWrite w pg s).portA = s.portA := rfl
@[simp] theorem recordWrite_portB (w : Writer) (pg : Nat) : (recordWrite w pg s).portB = s.portB := rfl
@[simp] theorem recordWrite_i3c (w : Writer) (pg : Nat) : (recordWrite w pg s).i3c = s.i3c := rfl
@[simp] theorem recordWrite_dev (w : Writer) (pg : Nat) : (recordWrite w pg s).dev = s.dev := rfl
@[simp] theorem recordWrite_pwr (w : Writer) (pg : Nat) : (recordWrite w pg s).pwr = s.pwr := rfl
@[simp] theorem recordWrite_cyc16 (w : Writer) (pg : Nat) : (recordWrite w pg s).cyc16 = s.cyc16 := rfl
@[simp] theorem recordWrite_pkt (w : Writer) (pg : Nat) : (recordWrite w pg s).pkt = s.pkt := rfl
@[simp] theorem recordWrite_packs (w : Writer) (pg : Nat) : (recordWrite w pg s).packs = s.packs := rfl
@[simp] theorem recordWrite_scans (w : Writer) (pg : Nat) : (recordWrite w pg s).scans = s.scans := rfl
@[simp] theorem recordWrite_opers (w : Writer) (pg : Nat) : (recordWrite w pg s).opers = s.opers := rfl
@[simp] theorem recordWrite_ma (w : Writer) (pg : Nat) : (recordWrite w pg s).ma = s.ma := rfl
@[simp] theorem recordWrite_dg (w : Writer) (pg : Nat) : (recordWrite w pg s).dg = s.dg := rfl
@[simp] theorem recordWrite_keys (w : Writer) (pg : Nat) : (recordWrite w pg s).keys = s.keys := rfl
@[simp] theorem recordWrite_ln (w : Writer) (pg : Nat) : (recordWrite w pg s).ln = s.ln := rfl
@[simp] theorem recordWrite_ldg (w : Writer) (pg : Nat) : (recordWrite w pg s).ldg = s.ldg := rfl
@[simp] theorem recordWrite_out (w : Writer) (pg : Nat) : (recordWrite w pg s).out = s.out := rfl
@[simp] theorem recordWrite_pending (w : Writer) (pg : Nat) : (recordWrite w pg s).pending = s.pending := rfl

/-! ### stageBits changes rf -/

@[simp] theorem stageBits_now (a m v : Nat) : (stageBits a m v s).now = s.now := rfl
@[simp] theorem stageBits_freeCtr (a m v : Nat) : (stageBits a m v s).freeCtr = s.freeCtr := rfl
@[simp] theorem stageBits_seam (a m v : Nat) : (stageBits a m v s).seam = s.seam := rfl
@[simp] theorem stageBits_sched (a m v : Nat) : (stageBits a m v s).sched = s.sched := rfl
@[simp] theorem stageBits_pat (a m v : Nat) : (stageBits a m v s).pat = s.pat := rfl
@[simp] theorem stageBits_rings (a m v : Nat) : (stageBits a m v s).rings = s.rings := rfl
@[simp] theorem stageBits_xl (a m v : Nat) : (stageBits a m v s).xl = s.xl := rfl
@[simp] theorem stageBits_hmc (a m v : Nat) : (stageBits a m v s).hmc = s.hmc := rfl
@[simp] theorem stageBits_cxt (a m v : Nat) : (stageBits a m v s).cxt = s.cxt := rfl
@[simp] theorem stageBits_mem (a m v : Nat) : (stageBits a m v s).mem = s.mem := rfl
@[simp] theorem stageBits_noc (a m v : Nat) : (stageBits a m v s).noc = s.noc := rfl
@[simp] theorem stageBits_bm (a m v : Nat) : (stageBits a m v s).bm = s.bm := rfl
@[simp] theorem stageBits_portA (a m v : Nat) : (stageBits a m v s).portA = s.portA := rfl
@[simp] theorem stageBits_portB (a m v : Nat) : (stageBits a m v s).portB = s.portB := rfl
@[simp] theorem stageBits_i3c (a m v : Nat) : (stageBits a m v s).i3c = s.i3c := rfl
@[simp] theorem stageBits_dev (a m v : Nat) : (stageBits a m v s).dev = s.dev := rfl
@[simp] theorem stageBits_pwr (a m v : Nat) : (stageBits a m v s).pwr = s.pwr := rfl
@[simp] theorem stageBits_cyc16 (a m v : Nat) : (stageBits a m v s).cyc16 = s.cyc16 := rfl
@[simp] theorem stageBits_pkt (a m v : Nat) : (stageBits a m v s).pkt = s.pkt := rfl
@[simp] theorem stageBits_packs (a m v : Nat) : (stageBits a m v s).packs = s.packs := rfl
@[simp] theorem stageBits_scans (a m v : Nat) : (stageBits a m v s).scans = s.scans := rfl
@[simp] theorem stageBits_opers (a m v : Nat) : (stageBits a m v s).opers = s.opers := rfl
@[simp] theorem stageBits_ma (a m v : Nat) : (stageBits a m v s).ma = s.ma := rfl
@[simp] theorem stageBits_dg (a m v : Nat) : (stageBits a m v s).dg = s.dg := rfl
@[simp] theorem stageBits_keys (a m v : Nat) : (stageBits a m v s).keys = s.keys := rfl
@[simp] theorem stageBits_ln (a m v : Nat) : (stageBits a m v s).ln = s.ln := rfl
@[simp] theorem stageBits_ldg (a m v : Nat) : (stageBits a m v s).ldg = s.ldg := rfl
@[simp] theorem stageBits_out (a m v : Nat) : (stageBits a m v s).out = s.out := rfl
@[simp] theorem stageBits_pending (a m v : Nat) : (stageBits a m v s).pending = s.pending := rfl

/-! ### rwBits changes rf -/

@[simp] theorem rwBits_now (a v : Nat) : (rwBits a v s).now = s.now := rfl
@[simp] theorem rwBits_freeCtr (a v : Nat) : (rwBits a v s).freeCtr = s.freeCtr := rfl
@[simp] theorem rwBits_seam (a v : Nat) : (rwBits a v s).seam = s.seam := rfl
@[simp] theorem rwBits_sched (a v : Nat) : (rwBits a v s).sched = s.sched := rfl
@[simp] theorem rwBits_pat (a v : Nat) : (rwBits a v s).pat = s.pat := rfl
@[simp] theorem rwBits_rings (a v : Nat) : (rwBits a v s).rings = s.rings := rfl
@[simp] theorem rwBits_xl (a v : Nat) : (rwBits a v s).xl = s.xl := rfl
@[simp] theorem rwBits_hmc (a v : Nat) : (rwBits a v s).hmc = s.hmc := rfl
@[simp] theorem rwBits_cxt (a v : Nat) : (rwBits a v s).cxt = s.cxt := rfl
@[simp] theorem rwBits_mem (a v : Nat) : (rwBits a v s).mem = s.mem := rfl
@[simp] theorem rwBits_noc (a v : Nat) : (rwBits a v s).noc = s.noc := rfl
@[simp] theorem rwBits_bm (a v : Nat) : (rwBits a v s).bm = s.bm := rfl
@[simp] theorem rwBits_portA (a v : Nat) : (rwBits a v s).portA = s.portA := rfl
@[simp] theorem rwBits_portB (a v : Nat) : (rwBits a v s).portB = s.portB := rfl
@[simp] theorem rwBits_i3c (a v : Nat) : (rwBits a v s).i3c = s.i3c := rfl
@[simp] theorem rwBits_dev (a v : Nat) : (rwBits a v s).dev = s.dev := rfl
@[simp] theorem rwBits_pwr (a v : Nat) : (rwBits a v s).pwr = s.pwr := rfl
@[simp] theorem rwBits_cyc16 (a v : Nat) : (rwBits a v s).cyc16 = s.cyc16 := rfl
@[simp] theorem rwBits_pkt (a v : Nat) : (rwBits a v s).pkt = s.pkt := rfl
@[simp] theorem rwBits_packs (a v : Nat) : (rwBits a v s).packs = s.packs := rfl
@[simp] theorem rwBits_scans (a v : Nat) : (rwBits a v s).scans = s.scans := rfl
@[simp] theorem rwBits_opers (a v : Nat) : (rwBits a v s).opers = s.opers := rfl
@[simp] theorem rwBits_ma (a v : Nat) : (rwBits a v s).ma = s.ma := rfl
@[simp] theorem rwBits_dg (a v : Nat) : (rwBits a v s).dg = s.dg := rfl
@[simp] theorem rwBits_keys (a v : Nat) : (rwBits a v s).keys = s.keys := rfl
@[simp] theorem rwBits_ln (a v : Nat) : (rwBits a v s).ln = s.ln := rfl
@[simp] theorem rwBits_ldg (a v : Nat) : (rwBits a v s).ldg = s.ldg := rfl
@[simp] theorem rwBits_out (a v : Nat) : (rwBits a v s).out = s.out := rfl
@[simp] theorem rwBits_pending (a v : Nat) : (rwBits a v s).pending = s.pending := rfl

/-! ### plainWrite changes rf -/

@[simp] theorem plainWrite_now (a v : Nat) : (plainWrite a v s).now = s.now := by unfold plainWrite; dsimp only; split <;> split <;> simp
@[simp] theorem plainWrite_freeCtr (a v : Nat) : (plainWrite a v s).freeCtr = s.freeCtr := by unfold plainWrite; dsimp only; split <;> split <;> simp
@[simp] theorem plainWrite_seam (a v : Nat) : (plainWrite a v s).seam = s.seam := by unfold plainWrite; dsimp only; split <;> split <;> simp
@[simp] theorem plainWrite_sched (a v : Nat) : (plainWrite a v s).sched = s.sched := by unfold plainWrite; dsimp only; split <;> split <;> simp
@[simp] theorem plainWrite_pat (a v : Nat) : (plainWrite a v s).pat = s.pat := by unfold plainWrite; dsimp only; split <;> split <;> simp
@[simp] theorem plainWrite_rings (a v : Nat) : (plainWrite a v s).rings = s.rings := by unfold plainWrite; dsimp only; split <;> split <;> simp
@[simp] theorem plainWrite_xl (a v : Nat) : (plainWrite a v s).xl = s.xl := by unfold plainWrite; dsimp only; split <;> split <;> simp
@[simp] theorem plainWrite_hmc (a v : Nat) : (plainWrite a v s).hmc = s.hmc := by unfold plainWrite; dsimp only; split <;> split <;> simp
@[simp] theorem plainWrite_cxt (a v : Nat) : (plainWrite a v s).cxt = s.cxt := by unfold plainWrite; dsimp only; split <;> split <;> simp
@[simp] theorem plainWrite_mem (a v : Nat) : (plainWrite a v s).mem = s.mem := by unfold plainWrite; dsimp only; split <;> split <;> simp
@[simp] theorem plainWrite_noc (a v : Nat) : (plainWrite a v s).noc = s.noc := by unfold plainWrite; dsimp only; split <;> split <;> simp
@[simp] theorem plainWrite_bm (a v : Nat) : (plainWrite a v s).bm = s.bm := by unfold plainWrite; dsimp only; split <;> split <;> simp
@[simp] theorem plainWrite_portA (a v : Nat) : (plainWrite a v s).portA = s.portA := by unfold plainWrite; dsimp only; split <;> split <;> simp
@[simp] theorem plainWrite_portB (a v : Nat) : (plainWrite a v s).portB = s.portB := by unfold plainWrite; dsimp only; split <;> split <;> simp
@[simp] theorem plainWrite_i3c (a v : Nat) : (plainWrite a v s).i3c = s.i3c := by unfold plainWrite; dsimp only; split <;> split <;> simp
@[simp] theorem plainWrite_dev (a v : Nat) : (plainWrite a v s).dev = s.dev := by unfold plainWrite; dsimp only; split <;> split <;> simp
@[simp] theorem plainWrite_pwr (a v : Nat) : (plainWrite a v s).pwr = s.pwr := by unfold plainWrite; dsimp only; split <;> split <;> simp
@[simp] theorem plainWrite_cyc16 (a v : Nat) : (plainWrite a v s).cyc16 = s.cyc16 := by unfold plainWrite; dsimp only; split <;> split <;> simp
@[simp] theorem plainWrite_pkt (a v : Nat) : (plainWrite a v s).pkt = s.pkt := by unfold plainWrite; dsimp only; split <;> split <;> simp
@[simp] theorem plainWrite_packs (a v : Nat) : (plainWrite a v s).packs = s.packs := by unfold plainWrite; dsimp only; split <;> split <;> simp
@[simp] theorem plainWrite_scans (a v : Nat) : (plainWrite a v s).scans = s.scans := by unfold plainWrite; dsimp only; split <;> split <;> simp
@[simp] theorem plainWrite_opers (a v : Nat) : (plainWrite a v s).opers = s.opers := by unfold plainWrite; dsimp only; split <;> split <;> simp
@[simp] theorem plainWrite_ma (a v : Nat) : (plainWrite a v s).ma = s.ma := by unfold plainWrite; dsimp only; split <;> split <;> simp
@[simp] theorem plainWrite_dg (a v : Nat) : (plainWrite a v s).dg = s.dg := by unfold plainWrite; dsimp only; split <;> split <;> simp
@[simp] theorem plainWrite_keys (a v : Nat) : (plainWrite a v s).keys = s.keys := by unfold plainWrite; dsimp only; split <;> split <;> simp
@[simp] theorem plainWrite_ln (a v : Nat) : (plainWrite a v s).ln = s.ln := by unfold plainWrite; dsimp only; split <;> split <;> simp
@[simp] theorem plainWrite_ldg (a v : Nat) : (plainWrite a v s).ldg = s.ldg := by unfold plainWrite; dsimp only; split <;> split <;> simp
@[simp] theorem plainWrite_out (a v : Nat) : (plainWrite a v s).out = s.out := by unfold plainWrite; dsimp only; split <;> split <;> simp
@[simp] theorem plainWrite_pending (a v : Nat) : (plainWrite a v s).pending = s.pending := by unfold plainWrite; dsimp only; split <;> split <;> simp

/-! ### countEarly changes rf -/

@[simp] theorem countEarly_now (p : Path) : (countEarly p s).now = s.now := by unfold countEarly; split <;> rfl
@[simp] theorem countEarly_freeCtr (p : Path) : (countEarly p s).freeCtr = s.freeCtr := by unfold countEarly; split <;> rfl
@[simp] theorem countEarly_seam (p : Path) : (countEarly p s).seam = s.seam := by unfold countEarly; split <;> rfl
@[simp] theorem countEarly_sched (p : Path) : (countEarly p s).sched = s.sched := by unfold countEarly; split <;> rfl
@[simp] theorem countEarly_pat (p : Path) : (countEarly p s).pat = s.pat := by unfold countEarly; split <;> rfl
@[simp] theorem countEarly_rings (p : Path) : (countEarly p s).rings = s.rings := by unfold countEarly; split <;> rfl
@[simp] theorem countEarly_xl (p : Path) : (countEarly p s).xl = s.xl := by unfold countEarly; split <;> rfl
@[simp] theorem countEarly_hmc (p : Path) : (countEarly p s).hmc = s.hmc := by unfold countEarly; split <;> rfl
@[simp] theorem countEarly_cxt (p : Path) : (countEarly p s).cxt = s.cxt := by unfold countEarly; split <;> rfl
@[simp] theorem countEarly_mem (p : Path) : (countEarly p s).mem = s.mem := by unfold countEarly; split <;> rfl
@[simp] theorem countEarly_noc (p : Path) : (countEarly p s).noc = s.noc := by unfold countEarly; split <;> rfl
@[simp] theorem countEarly_bm (p : Path) : (countEarly p s).bm = s.bm := by unfold countEarly; split <;> rfl
@[simp] theorem countEarly_portA (p : Path) : (countEarly p s).portA = s.portA := by unfold countEarly; split <;> rfl
@[simp] theorem countEarly_portB (p : Path) : (countEarly p s).portB = s.portB := by unfold countEarly; split <;> rfl
@[simp] theorem countEarly_i3c (p : Path) : (countEarly p s).i3c = s.i3c := by unfold countEarly; split <;> rfl
@[simp] theorem countEarly_dev (p : Path) : (countEarly p s).dev = s.dev := by unfold countEarly; split <;> rfl
@[simp] theorem countEarly_pwr (p : Path) : (countEarly p s).pwr = s.pwr := by unfold countEarly; split <;> rfl
@[simp] theorem countEarly_cyc16 (p : Path) : (countEarly p s).cyc16 = s.cyc16 := by unfold countEarly; split <;> rfl
@[simp] theorem countEarly_pkt (p : Path) : (countEarly p s).pkt = s.pkt := by unfold countEarly; split <;> rfl
@[simp] theorem countEarly_packs (p : Path) : (countEarly p s).packs = s.packs := by unfold countEarly; split <;> rfl
@[simp] theorem countEarly_scans (p : Path) : (countEarly p s).scans = s.scans := by unfold countEarly; split <;> rfl
@[simp] theorem countEarly_opers (p : Path) : (countEarly p s).opers = s.opers := by unfold countEarly; split <;> rfl
@[simp] theorem countEarly_ma (p : Path) : (countEarly p s).ma = s.ma := by unfold countEarly; split <;> rfl
@[simp] theorem countEarly_dg (p : Path) : (countEarly p s).dg = s.dg := by unfold countEarly; split <;> rfl
@[simp] theorem countEarly_keys (p : Path) : (countEarly p s).keys = s.keys := by unfold countEarly; split <;> rfl
@[simp] theorem countEarly_ln (p : Path) : (countEarly p s).ln = s.ln := by unfold countEarly; split <;> rfl
@[simp] theorem countEarly_ldg (p : Path) : (countEarly p s).ldg = s.ldg := by unfold countEarly; split <;> rfl
@[simp] theorem countEarly_out (p : Path) : (countEarly p s).out = s.out := by unfold countEarly; split <;> rfl
@[simp] theorem countEarly_pending (p : Path) : (countEarly p s).pending = s.pending := by unfold countEarly; split <;> rfl

/-! ### hostWrite changes mem -/

@[simp] theorem hostWrite_now (i a : Nat) (bs : List Byte) : (hostWrite i a bs s).now = s.now := by unfold hostWrite; dsimp only; split <;> rfl
@[simp] theorem hostWrite_freeCtr (i a : Nat) (bs : List Byte) : (hostWrite i a bs s).freeCtr = s.freeCtr := by unfold hostWrite; dsimp only; split <;> rfl
@[simp] theorem hostWrite_rf (i a : Nat) (bs : List Byte) : (hostWrite i a bs s).rf = s.rf := by unfold hostWrite; dsimp only; split <;> rfl
@[simp] theorem hostWrite_seam (i a : Nat) (bs : List Byte) : (hostWrite i a bs s).seam = s.seam := by unfold hostWrite; dsimp only; split <;> rfl
@[simp] theorem hostWrite_sched (i a : Nat) (bs : List Byte) : (hostWrite i a bs s).sched = s.sched := by unfold hostWrite; dsimp only; split <;> rfl
@[simp] theorem hostWrite_pat (i a : Nat) (bs : List Byte) : (hostWrite i a bs s).pat = s.pat := by unfold hostWrite; dsimp only; split <;> rfl
@[simp] theorem hostWrite_rings (i a : Nat) (bs : List Byte) : (hostWrite i a bs s).rings = s.rings := by unfold hostWrite; dsimp only; split <;> rfl
@[simp] theorem hostWrite_xl (i a : Nat) (bs : List Byte) : (hostWrite i a bs s).xl = s.xl := by unfold hostWrite; dsimp only; split <;> rfl
@[simp] theorem hostWrite_hmc (i a : Nat) (bs : List Byte) : (hostWrite i a bs s).hmc = s.hmc := by unfold hostWrite; dsimp only; split <;> rfl
@[simp] theorem hostWrite_cxt (i a : Nat) (bs : List Byte) : (hostWrite i a bs s).cxt = s.cxt := by unfold hostWrite; dsimp only; split <;> rfl
@[simp] theorem hostWrite_noc (i a : Nat) (bs : List Byte) : (hostWrite i a bs s).noc = s.noc := by unfold hostWrite; dsimp only; split <;> rfl
@[simp] theorem hostWrite_bm (i a : Nat) (bs : List Byte) : (hostWrite i a bs s).bm = s.bm := by unfold hostWrite; dsimp only; split <;> rfl
@[simp] theorem hostWrite_portA (i a : Nat) (bs : List Byte) : (hostWrite i a bs s).portA = s.portA := by unfold hostWrite; dsimp only; split <;> rfl
@[simp] theorem hostWrite_portB (i a : Nat) (bs : List Byte) : (hostWrite i a bs s).portB = s.portB := by unfold hostWrite; dsimp only; split <;> rfl
@[simp] theorem hostWrite_i3c (i a : Nat) (bs : List Byte) : (hostWrite i a bs s).i3c = s.i3c := by unfold hostWrite; dsimp only; split <;> rfl
@[simp] theorem hostWrite_dev (i a : Nat) (bs : List Byte) : (hostWrite i a bs s).dev = s.dev := by unfold hostWrite; dsimp only; split <;> rfl
@[simp] theorem hostWrite_pwr (i a : Nat) (bs : List Byte) : (hostWrite i a bs s).pwr = s.pwr := by unfold hostWrite; dsimp only; split <;> rfl
@[simp] theorem hostWrite_cyc16 (i a : Nat) (bs : List Byte) : (hostWrite i a bs s).cyc16 = s.cyc16 := by unfold hostWrite; dsimp only; split <;> rfl
@[simp] theorem hostWrite_pkt (i a : Nat) (bs : List Byte) : (hostWrite i a bs s).pkt = s.pkt := by unfold hostWrite; dsimp only; split <;> rfl
@[simp] theorem hostWrite_packs (i a : Nat) (bs : List Byte) : (hostWrite i a bs s).packs = s.packs := by unfold hostWrite; dsimp only; split <;> rfl
@[simp] theorem hostWrite_scans (i a : Nat) (bs : List Byte) : (hostWrite i a bs s).scans = s.scans := by unfold hostWrite; dsimp only; split <;> rfl
@[simp] theorem hostWrite_opers (i a : Nat) (bs : List Byte) : (hostWrite i a bs s).opers = s.opers := by unfold hostWrite; dsimp only; split <;> rfl
@[simp] theorem hostWrite_ma (i a : Nat) (bs : List Byte) : (hostWrite i a bs s).ma = s.ma := by unfold hostWrite; dsimp only; split <;> rfl
@[simp] theorem hostWrite_dg (i a : Nat) (bs : List Byte) : (hostWrite i a bs s).dg = s.dg := by unfold hostWrite; dsimp only; split <;> rfl
@[simp] theorem hostWrite_keys (i a : Nat) (bs : List Byte) : (hostWrite i a bs s).keys = s.keys := by unfold hostWrite; dsimp only; split <;> rfl
@[simp] theorem hostWrite_ln (i a : Nat) (bs : List Byte) : (hostWrite i a bs s).ln = s.ln := by unfold hostWrite; dsimp only; split <;> rfl
@[simp] theorem hostWrite_ldg (i a : Nat) (bs : List Byte) : (hostWrite i a bs s).ldg = s.ldg := by unfold hostWrite; dsimp only; split <;> rfl
@[simp] theorem hostWrite_out (i a : Nat) (bs : List Byte) : (hostWrite i a bs s).out = s.out := by unfold hostWrite; dsimp only; split <;> rfl
@[simp] theorem hostWrite_pending (i a : Nat) (bs : List Byte) : (hostWrite i a bs s).pending = s.pending := by unfold hostWrite; dsimp only; split <;> rfl

/-! ### setCell changes mem -/

@[simp] theorem setCell_now (a : Nat) (b : Byte) : (setCell a b s).now = s.now := rfl
@[simp] theorem setCell_freeCtr (a : Nat) (b : Byte) : (setCell a b s).freeCtr = s.freeCtr := rfl
@[simp] theorem setCell_rf (a : Nat) (b : Byte) : (setCell a b s).rf = s.rf := rfl
@[simp] theorem setCell_seam (a : Nat) (b : Byte) : (setCell a b s).seam = s.seam := rfl
@[simp] theorem setCell_sched (a : Nat) (b : Byte) : (setCell a b s).sched = s.sched := rfl
@[simp] theorem setCell_pat (a : Nat) (b : Byte) : (setCell a b s).pat = s.pat := rfl
@[simp] theorem setCell_rings (a : Nat) (b : Byte) : (setCell a b s).rings = s.rings := rfl
@[simp] theorem setCell_xl (a : Nat) (b : Byte) : (setCell a b s).xl = s.xl := rfl
@[simp] theorem setCell_hmc (a : Nat) (b : Byte) : (setCell a b s).hmc = s.hmc := rfl
@[simp] theorem setCell_cxt (a : Nat) (b : Byte) : (setCell a b s).cxt = s.cxt := rfl
@[simp] theorem setCell_noc (a : Nat) (b : Byte) : (setCell a b s).noc = s.noc := rfl
@[simp] theorem setCell_bm (a : Nat) (b : Byte) : (setCell a b s).bm = s.bm := rfl
@[simp] theorem setCell_portA (a : Nat) (b : Byte) : (setCell a b s).portA = s.portA := rfl
@[simp] theorem setCell_portB (a : Nat) (b : Byte) : (setCell a b s).portB = s.portB := rfl
@[simp] theorem setCell_i3c (a : Nat) (b : Byte) : (setCell a b s).i3c = s.i3c := rfl
@[simp] theorem setCell_dev (a : Nat) (b : Byte) : (setCell a b s).dev = s.dev := rfl
@[simp] theorem setCell_pwr (a : Nat) (b : Byte) : (setCell a b s).pwr = s.pwr := rfl
@[simp] theorem setCell_cyc16 (a : Nat) (b : Byte) : (setCell a b s).cyc16 = s.cyc16 := rfl
@[simp] theorem setCell_pkt (a : Nat) (b : Byte) : (setCell a b s).pkt = s.pkt := rfl
@[simp] theorem setCell_packs (a : Nat) (b : Byte) : (setCell a b s).packs = s.packs := rfl
@[simp] theorem setCell_scans (a : Nat) (b : Byte) : (setCell a b s).scans = s.scans := rfl
@[simp] theorem setCell_opers (a : Nat) (b : Byte) : (setCell a b s).opers = s.opers := rfl
@[simp] theorem setCell_ma (a : Nat) (b : Byte) : (setCell a b s).ma = s.ma := rfl
@[simp] theorem setCell_dg (a : Nat) (b : Byte) : (setCell a b s).dg = s.dg := rfl
@[simp] theorem setCell_keys (a : Nat) (b : Byte) : (setCell a b s).keys = s.keys := rfl
@[simp] theorem setCell_ln (a : Nat) (b : Byte) : (setCell a b s).ln = s.ln := rfl
@[simp] theorem setCell_ldg (a : Nat) (b : Byte) : (setCell a b s).ldg = s.ldg := rfl
@[simp] theorem setCell_out (a : Nat) (b : Byte) : (setCell a b s).out = s.out := rfl
@[simp] theorem setCell_pending (a : Nat) (b : Byte) : (setCell a b s).pending = s.pending := rfl

/-! ### setChan changes bm -/

@[simp] theorem setChan_now (c : Nat) (x : Chan) : (setChan c x s).now = s.now := rfl
@[simp] theorem setChan_freeCtr (c : Nat) (x : Chan) : (setChan c x s).freeCtr = s.freeCtr := rfl
@[simp] theorem setChan_rf (c : Nat) (x : Chan) : (setChan c x s).rf = s.rf := rfl
@[simp] theorem setChan_seam (c : Nat) (x : Chan) : (setChan c x s).seam = s.seam := rfl
@[simp] theorem setChan_sched (c : Nat) (x : Chan) : (setChan c x s).sched = s.sched := rfl
@[simp] theorem setChan_pat (c : Nat) (x : Chan) : (setChan c x s).pat = s.pat := rfl
@[simp] theorem setChan_rings (c : Nat) (x : Chan) : (setChan c x s).rings = s.rings := rfl
@[simp] theorem setChan_xl (c : Nat) (x : Chan) : (setChan c x s).xl = s.xl := rfl
@[simp] theorem setChan_hmc (c : Nat) (x : Chan) : (setChan c x s).hmc = s.hmc := rfl
@[simp] theorem setChan_cxt (c : Nat) (x : Chan) : (setChan c x s).cxt = s.cxt := rfl
@[simp] theorem setChan_mem (c : Nat) (x : Chan) : (setChan c x s).mem = s.mem := rfl
@[simp] theorem setChan_noc (c : Nat) (x : Chan) : (setChan c x s).noc = s.noc := rfl
@[simp] theorem setChan_portA (c : Nat) (x : Chan) : (setChan c x s).portA = s.portA := rfl
@[simp] theorem setChan_portB (c : Nat) (x : Chan) : (setChan c x s).portB = s.portB := rfl
@[simp] theorem setChan_i3c (c : Nat) (x : Chan) : (setChan c x s).i3c = s.i3c := rfl
@[simp] theorem setChan_dev (c : Nat) (x : Chan) : (setChan c x s).dev = s.dev := rfl
@[simp] theorem setChan_pwr (c : Nat) (x : Chan) : (setChan c x s).pwr = s.pwr := rfl
@[simp] theorem setChan_cyc16 (c : Nat) (x : Chan) : (setChan c x s).cyc16 = s.cyc16 := rfl
@[simp] theorem setChan_pkt (c : Nat) (x : Chan) : (setChan c x s).pkt = s.pkt := rfl
@[simp] theorem setChan_packs (c : Nat) (x : Chan) : (setChan c x s).packs = s.packs := rfl
@[simp] theorem setChan_scans (c : Nat) (x : Chan) : (setChan c x s).scans = s.scans := rfl
@[simp] theorem setChan_opers (c : Nat) (x : Chan) : (setChan c x s).opers = s.opers := rfl
@[simp] theorem setChan_ma (c : Nat) (x : Chan) : (setChan c x s).ma = s.ma := rfl
@[simp] theorem setChan_dg (c : Nat) (x : Chan) : (setChan c x s).dg = s.dg := rfl
@[simp] theorem setChan_keys (c : Nat) (x : Chan) : (setChan c x s).keys = s.keys := rfl
@[simp] theorem setChan_ln (c : Nat) (x : Chan) : (setChan c x s).ln = s.ln := rfl
@[simp] theorem setChan_ldg (c : Nat) (x : Chan) : (setChan c x s).ldg = s.ldg := rfl
@[simp] theorem setChan_out (c : Nat) (x : Chan) : (setChan c x s).out = s.out := rfl
@[simp] theorem setChan_pending (c : Nat) (x : Chan) : (setChan c x s).pending = s.pending := rfl

/-! ### setCtx changes dg -/

@[simp] theorem setCtx_now (c : Nat) (x : DgCtx) : (setCtx c x s).now = s.now := rfl
@[simp] theorem setCtx_freeCtr (c : Nat) (x : DgCtx) : (setCtx c x s).freeCtr = s.freeCtr := rfl
@[simp] theorem setCtx_rf (c : Nat) (x : DgCtx) : (setCtx c x s).rf = s.rf := rfl
@[simp] theorem setCtx_seam (c : Nat) (x : DgCtx) : (setCtx c x s).seam = s.seam := rfl
@[simp] theorem setCtx_sched (c : Nat) (x : DgCtx) : (setCtx c x s).sched = s.sched := rfl
@[simp] theorem setCtx_pat (c : Nat) (x : DgCtx) : (setCtx c x s).pat = s.pat := rfl
@[simp] theorem setCtx_rings (c : Nat) (x : DgCtx) : (setCtx c x s).rings = s.rings := rfl
@[simp] theorem setCtx_xl (c : Nat) (x : DgCtx) : (setCtx c x s).xl = s.xl := rfl
@[simp] theorem setCtx_hmc (c : Nat) (x : DgCtx) : (setCtx c x s).hmc = s.hmc := rfl
@[simp] theorem setCtx_cxt (c : Nat) (x : DgCtx) : (setCtx c x s).cxt = s.cxt := rfl
@[simp] theorem setCtx_mem (c : Nat) (x : DgCtx) : (setCtx c x s).mem = s.mem := rfl
@[simp] theorem setCtx_noc (c : Nat) (x : DgCtx) : (setCtx c x s).noc = s.noc := rfl
@[simp] theorem setCtx_bm (c : Nat) (x : DgCtx) : (setCtx c x s).bm = s.bm := rfl
@[simp] theorem setCtx_portA (c : Nat) (x : DgCtx) : (setCtx c x s).portA = s.portA := rfl
@[simp] theorem setCtx_portB (c : Nat) (x : DgCtx) : (setCtx c x s).portB = s.portB := rfl
@[simp] theorem setCtx_i3c (c : Nat) (x : DgCtx) : (setCtx c x s).i3c = s.i3c := rfl
@[simp] theorem setCtx_dev (c : Nat) (x : DgCtx) : (setCtx c x s).dev = s.dev := rfl
@[simp] theorem setCtx_pwr (c : Nat) (x : DgCtx) : (setCtx c x s).pwr = s.pwr := rfl
@[simp] theorem setCtx_cyc16 (c : Nat) (x : DgCtx) : (setCtx c x s).cyc16 = s.cyc16 := rfl
@[simp] theorem setCtx_pkt (c : Nat) (x : DgCtx) : (setCtx c x s).pkt = s.pkt := rfl
@[simp] theorem setCtx_packs (c : Nat) (x : DgCtx) : (setCtx c x s).packs = s.packs := rfl
@[simp] theorem setCtx_scans (c : Nat) (x : DgCtx) : (setCtx c x s).scans = s.scans := rfl
@[simp] theorem setCtx_opers (c : Nat) (x : DgCtx) : (setCtx c x s).opers = s.opers := rfl
@[simp] theorem setCtx_ma (c : Nat) (x : DgCtx) : (setCtx c x s).ma = s.ma := rfl
@[simp] theorem setCtx_keys (c : Nat) (x : DgCtx) : (setCtx c x s).keys = s.keys := rfl
@[simp] theorem setCtx_ln (c : Nat) (x : DgCtx) : (setCtx c x s).ln = s.ln := rfl
@[simp] theorem setCtx_ldg (c : Nat) (x : DgCtx) : (setCtx c x s).ldg = s.ldg := rfl
@[simp] theorem setCtx_out (c : Nat) (x : DgCtx) : (setCtx c x s).out = s.out := rfl
@[simp] theorem setCtx_pending (c : Nat) (x : DgCtx) : (setCtx c x s).pending = s.pending := rfl

/-! ### setKey changes keys, ln -/

@[simp] theorem setKey_now (k : Nat) (x : KeySlot) : (setKey k x s).now = s.now := by unfold setKey goodLining; (try split) <;> rfl
@[simp] theorem setKey_freeCtr (k : Nat) (x : KeySlot) : (setKey k x s).freeCtr = s.freeCtr := by unfold setKey goodLining; (try split) <;> rfl
@[simp] theorem setKey_rf (k : Nat) (x : KeySlot) : (setKey k x s).rf = s.rf := by unfold setKey goodLining; (try split) <;> rfl
@[simp] theorem setKey_seam (k : Nat) (x : KeySlot) : (setKey k x s).seam = s.seam := by unfold setKey goodLining; (try split) <;> rfl
@[simp] theorem setKey_sched (k : Nat) (x : KeySlot) : (setKey k x s).sched = s.sched := by unfold setKey goodLining; (try split) <;> rfl
@[simp] theorem setKey_pat (k : Nat) (x : KeySlot) : (setKey k x s).pat = s.pat := by unfold setKey goodLining; (try split) <;> rfl
@[simp] theorem setKey_rings (k : Nat) (x : KeySlot) : (setKey k x s).rings = s.rings := by unfold setKey goodLining; (try split) <;> rfl
@[simp] theorem setKey_xl (k : Nat) (x : KeySlot) : (setKey k x s).xl = s.xl := by unfold setKey goodLining; (try split) <;> rfl
@[simp] theorem setKey_hmc (k : Nat) (x : KeySlot) : (setKey k x s).hmc = s.hmc := by unfold setKey goodLining; (try split) <;> rfl
@[simp] theorem setKey_cxt (k : Nat) (x : KeySlot) : (setKey k x s).cxt = s.cxt := by unfold setKey goodLining; (try split) <;> rfl
@[simp] theorem setKey_mem (k : Nat) (x : KeySlot) : (setKey k x s).mem = s.mem := by unfold setKey goodLining; (try split) <;> rfl
@[simp] theorem setKey_noc (k : Nat) (x : KeySlot) : (setKey k x s).noc = s.noc := by unfold setKey goodLining; (try split) <;> rfl
@[simp] theorem setKey_bm (k : Nat) (x : KeySlot) : (setKey k x s).bm = s.bm := by unfold setKey goodLining; (try split) <;> rfl
@[simp] theorem setKey_portA (k : Nat) (x : KeySlot) : (setKey k x s).portA = s.portA := by unfold setKey goodLining; (try split) <;> rfl
@[simp] theorem setKey_portB (k : Nat) (x : KeySlot) : (setKey k x s).portB = s.portB := by unfold setKey goodLining; (try split) <;> rfl
@[simp] theorem setKey_i3c (k : Nat) (x : KeySlot) : (setKey k x s).i3c = s.i3c := by unfold setKey goodLining; (try split) <;> rfl
@[simp] theorem setKey_dev (k : Nat) (x : KeySlot) : (setKey k x s).dev = s.dev := by unfold setKey goodLining; (try split) <;> rfl
@[simp] theorem setKey_pwr (k : Nat) (x : KeySlot) : (setKey k x s).pwr = s.pwr := by unfold setKey goodLining; (try split) <;> rfl
@[simp] theorem setKey_cyc16 (k : Nat) (x : KeySlot) : (setKey k x s).cyc16 = s.cyc16 := by unfold setKey goodLining; (try split) <;> rfl
@[simp] theorem setKey_pkt (k : Nat) (x : KeySlot) : (setKey k x s).pkt = s.pkt := by unfold setKey goodLining; (try split) <;> rfl
@[simp] theorem setKey_packs (k : Nat) (x : KeySlot) : (setKey k x s).packs = s.packs := by unfold setKey goodLining; (try split) <;> rfl
@[simp] theorem setKey_scans (k : Nat) (x : KeySlot) : (setKey k x s).scans = s.scans := by unfold setKey goodLining; (try split) <;> rfl
@[simp] theorem setKey_opers (k : Nat) (x : KeySlot) : (setKey k x s).opers = s.opers := by unfold setKey goodLining; (try split) <;> rfl
@[simp] theorem setKey_ma (k : Nat) (x : KeySlot) : (setKey k x s).ma = s.ma := by unfold setKey goodLining; (try split) <;> rfl
@[simp] theorem setKey_dg (k : Nat) (x : KeySlot) : (setKey k x s).dg = s.dg := by unfold setKey goodLining; (try split) <;> rfl
@[simp] theorem setKey_ldg (k : Nat) (x : KeySlot) : (setKey k x s).ldg = s.ldg := by unfold setKey goodLining; (try split) <;> rfl
@[simp] theorem setKey_out (k : Nat) (x : KeySlot) : (setKey k x s).out = s.out := by unfold setKey goodLining; (try split) <;> rfl
@[simp] theorem setKey_pending (k : Nat) (x : KeySlot) : (setKey k x s).pending = s.pending := by unfold setKey goodLining; (try split) <;> rfl

/-! ### setI3c changes i3c -/

@[simp] theorem setI3c_now (x : I3cSt) : (setI3c x s).now = s.now := rfl
@[simp] theorem setI3c_freeCtr (x : I3cSt) : (setI3c x s).freeCtr = s.freeCtr := rfl
@[simp] theorem setI3c_rf (x : I3cSt) : (setI3c x s).rf = s.rf := rfl
@[simp] theorem setI3c_seam (x : I3cSt) : (setI3c x s).seam = s.seam := rfl
@[simp] theorem setI3c_sched (x : I3cSt) : (setI3c x s).sched = s.sched := rfl
@[simp] theorem setI3c_pat (x : I3cSt) : (setI3c x s).pat = s.pat := rfl
@[simp] theorem setI3c_rings (x : I3cSt) : (setI3c x s).rings = s.rings := rfl
@[simp] theorem setI3c_xl (x : I3cSt) : (setI3c x s).xl = s.xl := rfl
@[simp] theorem setI3c_hmc (x : I3cSt) : (setI3c x s).hmc = s.hmc := rfl
@[simp] theorem setI3c_cxt (x : I3cSt) : (setI3c x s).cxt = s.cxt := rfl
@[simp] theorem setI3c_mem (x : I3cSt) : (setI3c x s).mem = s.mem := rfl
@[simp] theorem setI3c_noc (x : I3cSt) : (setI3c x s).noc = s.noc := rfl
@[simp] theorem setI3c_bm (x : I3cSt) : (setI3c x s).bm = s.bm := rfl
@[simp] theorem setI3c_portA (x : I3cSt) : (setI3c x s).portA = s.portA := rfl
@[simp] theorem setI3c_portB (x : I3cSt) : (setI3c x s).portB = s.portB := rfl
@[simp] theorem setI3c_dev (x : I3cSt) : (setI3c x s).dev = s.dev := rfl
@[simp] theorem setI3c_pwr (x : I3cSt) : (setI3c x s).pwr = s.pwr := rfl
@[simp] theorem setI3c_cyc16 (x : I3cSt) : (setI3c x s).cyc16 = s.cyc16 := rfl
@[simp] theorem setI3c_pkt (x : I3cSt) : (setI3c x s).pkt = s.pkt := rfl
@[simp] theorem setI3c_packs (x : I3cSt) : (setI3c x s).packs = s.packs := rfl
@[simp] theorem setI3c_scans (x : I3cSt) : (setI3c x s).scans = s.scans := rfl
@[simp] theorem setI3c_opers (x : I3cSt) : (setI3c x s).opers = s.opers := rfl
@[simp] theorem setI3c_ma (x : I3cSt) : (setI3c x s).ma = s.ma := rfl
@[simp] theorem setI3c_dg (x : I3cSt) : (setI3c x s).dg = s.dg := rfl
@[simp] theorem setI3c_keys (x : I3cSt) : (setI3c x s).keys = s.keys := rfl
@[simp] theorem setI3c_ln (x : I3cSt) : (setI3c x s).ln = s.ln := rfl
@[simp] theorem setI3c_ldg (x : I3cSt) : (setI3c x s).ldg = s.ldg := rfl
@[simp] theorem setI3c_out (x : I3cSt) : (setI3c x s).out = s.out := rfl
@[simp] theorem setI3c_pending (x : I3cSt) : (setI3c x s).pending = s.pending := rfl

/-! ### setLdg changes ldg -/

@[simp] theorem setLdg_now (x : LdgSt) : (setLdg x s).now = s.now := rfl
@[simp] theorem setLdg_freeCtr (x : LdgSt) : (setLdg x s).freeCtr = s.freeCtr := rfl
@[simp] theorem setLdg_rf (x : LdgSt) : (setLdg x s).rf = s.rf := rfl
@[simp] theorem setLdg_seam (x : LdgSt) : (setLdg x s).seam = s.seam := rfl
@[simp] theorem setLdg_sched (x : LdgSt) : (setLdg x s).sched = s.sched := rfl
@[simp] theorem setLdg_pat (x : LdgSt) : (setLdg x s).pat = s.pat := rfl
@[simp] theorem setLdg_rings (x : LdgSt) : (setLdg x s).rings = s.rings := rfl
@[simp] theorem setLdg_xl (x : LdgSt) : (setLdg x s).xl = s.xl := rfl
@[simp] theorem setLdg_hmc (x : LdgSt) : (setLdg x s).hmc = s.hmc := rfl
@[simp] theorem setLdg_cxt (x : LdgSt) : (setLdg x s).cxt = s.cxt := rfl
@[simp] theorem setLdg_mem (x : LdgSt) : (setLdg x s).mem = s.mem := rfl
@[simp] theorem setLdg_noc (x : LdgSt) : (setLdg x s).noc = s.noc := rfl
@[simp] theorem setLdg_bm (x : LdgSt) : (setLdg x s).bm = s.bm := rfl
@[simp] theorem setLdg_portA (x : LdgSt) : (setLdg x s).portA = s.portA := rfl
@[simp] theorem setLdg_portB (x : LdgSt) : (setLdg x s).portB = s.portB := rfl
@[simp] theorem setLdg_i3c (x : LdgSt) : (setLdg x s).i3c = s.i3c := rfl
@[simp] theorem setLdg_dev (x : LdgSt) : (setLdg x s).dev = s.dev := rfl
@[simp] theorem setLdg_pwr (x : LdgSt) : (setLdg x s).pwr = s.pwr := rfl
@[simp] theorem setLdg_cyc16 (x : LdgSt) : (setLdg x s).cyc16 = s.cyc16 := rfl
@[simp] theorem setLdg_pkt (x : LdgSt) : (setLdg x s).pkt = s.pkt := rfl
@[simp] theorem setLdg_packs (x : LdgSt) : (setLdg x s).packs = s.packs := rfl
@[simp] theorem setLdg_scans (x : LdgSt) : (setLdg x s).scans = s.scans := rfl
@[simp] theorem setLdg_opers (x : LdgSt) : (setLdg x s).opers = s.opers := rfl
@[simp] theorem setLdg_ma (x : LdgSt) : (setLdg x s).ma = s.ma := rfl
@[simp] theorem setLdg_dg (x : LdgSt) : (setLdg x s).dg = s.dg := rfl
@[simp] theorem setLdg_keys (x : LdgSt) : (setLdg x s).keys = s.keys := rfl
@[simp] theorem setLdg_ln (x : LdgSt) : (setLdg x s).ln = s.ln := rfl
@[simp] theorem setLdg_out (x : LdgSt) : (setLdg x s).out = s.out := rfl
@[simp] theorem setLdg_pending (x : LdgSt) : (setLdg x s).pending = s.pending := rfl

/-! ### setMa changes ma -/

@[simp] theorem setMa_now (x : MaSt) : (setMa x s).now = s.now := rfl
@[simp] theorem setMa_freeCtr (x : MaSt) : (setMa x s).freeCtr = s.freeCtr := rfl
@[simp] theorem setMa_rf (x : MaSt) : (setMa x s).rf = s.rf := rfl
@[simp] theorem setMa_seam (x : MaSt) : (setMa x s).seam = s.seam := rfl
@[simp] theorem setMa_sched (x : MaSt) : (setMa x s).sched = s.sched := rfl
@[simp] theorem setMa_pat (x : MaSt) : (setMa x s).pat = s.pat := rfl
@[simp] theorem setMa_rings (x : MaSt) : (setMa x s).rings = s.rings := rfl
@[simp] theorem setMa_xl (x : MaSt) : (setMa x s).xl = s.xl := rfl
@[simp] theorem setMa_hmc (x : MaSt) : (setMa x s).hmc = s.hmc := rfl
@[simp] theorem setMa_cxt (x : MaSt) : (setMa x s).cxt = s.cxt := rfl
@[simp] theorem setMa_mem (x : MaSt) : (setMa x s).mem = s.mem := rfl
@[simp] theorem setMa_noc (x : MaSt) : (setMa x s).noc = s.noc := rfl
@[simp] theorem setMa_bm (x : MaSt) : (setMa x s).bm = s.bm := rfl
@[simp] theorem setMa_portA (x : MaSt) : (setMa x s).portA = s.portA := rfl
@[simp] theorem setMa_portB (x : MaSt) : (setMa x s).portB = s.portB := rfl
@[simp] theorem setMa_i3c (x : MaSt) : (setMa x s).i3c = s.i3c := rfl
@[simp] theorem setMa_dev (x : MaSt) : (setMa x s).dev = s.dev := rfl
@[simp] theorem setMa_pwr (x : MaSt) : (setMa x s).pwr = s.pwr := rfl
@[simp] theorem setMa_cyc16 (x : MaSt) : (setMa x s).cyc16 = s.cyc16 := rfl
@[simp] theorem setMa_pkt (x : MaSt) : (setMa x s).pkt = s.pkt := rfl
@[simp] theorem setMa_packs (x : MaSt) : (setMa x s).packs = s.packs := rfl
@[simp] theorem setMa_scans (x : MaSt) : (setMa x s).scans = s.scans := rfl
@[simp] theorem setMa_opers (x : MaSt) : (setMa x s).opers = s.opers := rfl
@[simp] theorem setMa_dg (x : MaSt) : (setMa x s).dg = s.dg := rfl
@[simp] theorem setMa_keys (x : MaSt) : (setMa x s).keys = s.keys := rfl
@[simp] theorem setMa_ln (x : MaSt) : (setMa x s).ln = s.ln := rfl
@[simp] theorem setMa_ldg (x : MaSt) : (setMa x s).ldg = s.ldg := rfl
@[simp] theorem setMa_out (x : MaSt) : (setMa x s).out = s.out := rfl
@[simp] theorem setMa_pending (x : MaSt) : (setMa x s).pending = s.pending := rfl

/-! ### setPwr changes pwr -/

@[simp] theorem setPwr_now (x : PwrSt) : (setPwr x s).now = s.now := rfl
@[simp] theorem setPwr_freeCtr (x : PwrSt) : (setPwr x s).freeCtr = s.freeCtr := rfl
@[simp] theorem setPwr_rf (x : PwrSt) : (setPwr x s).rf = s.rf := rfl
@[simp] theorem setPwr_seam (x : PwrSt) : (setPwr x s).seam = s.seam := rfl
@[simp] theorem setPwr_sched (x : PwrSt) : (setPwr x s).sched = s.sched := rfl
@[simp] theorem setPwr_pat (x : PwrSt) : (setPwr x s).pat = s.pat := rfl
@[simp] theorem setPwr_rings (x : PwrSt) : (setPwr x s).rings = s.rings := rfl
@[simp] theorem setPwr_xl (x : PwrSt) : (setPwr x s).xl = s.xl := rfl
@[simp] theorem setPwr_hmc (x : PwrSt) : (setPwr x s).hmc = s.hmc := rfl
@[simp] theorem setPwr_cxt (x : PwrSt) : (setPwr x s).cxt = s.cxt := rfl
@[simp] theorem setPwr_mem (x : PwrSt) : (setPwr x s).mem = s.mem := rfl
@[simp] theorem setPwr_noc (x : PwrSt) : (setPwr x s).noc = s.noc := rfl
@[simp] theorem setPwr_bm (x : PwrSt) : (setPwr x s).bm = s.bm := rfl
@[simp] theorem setPwr_portA (x : PwrSt) : (setPwr x s).portA = s.portA := rfl
@[simp] theorem setPwr_portB (x : PwrSt) : (setPwr x s).portB = s.portB := rfl
@[simp] theorem setPwr_i3c (x : PwrSt) : (setPwr x s).i3c = s.i3c := rfl
@[simp] theorem setPwr_dev (x : PwrSt) : (setPwr x s).dev = s.dev := rfl
@[simp] theorem setPwr_cyc16 (x : PwrSt) : (setPwr x s).cyc16 = s.cyc16 := rfl
@[simp] theorem setPwr_pkt (x : PwrSt) : (setPwr x s).pkt = s.pkt := rfl
@[simp] theorem setPwr_packs (x : PwrSt) : (setPwr x s).packs = s.packs := rfl
@[simp] theorem setPwr_scans (x : PwrSt) : (setPwr x s).scans = s.scans := rfl
@[simp] theorem setPwr_opers (x : PwrSt) : (setPwr x s).opers = s.opers := rfl
@[simp] theorem setPwr_ma (x : PwrSt) : (setPwr x s).ma = s.ma := rfl
@[simp] theorem setPwr_dg (x : PwrSt) : (setPwr x s).dg = s.dg := rfl
@[simp] theorem setPwr_keys (x : PwrSt) : (setPwr x s).keys = s.keys := rfl
@[simp] theorem setPwr_ln (x : PwrSt) : (setPwr x s).ln = s.ln := rfl
@[simp] theorem setPwr_ldg (x : PwrSt) : (setPwr x s).ldg = s.ldg := rfl
@[simp] theorem setPwr_out (x : PwrSt) : (setPwr x s).out = s.out := rfl
@[simp] theorem setPwr_pending (x : PwrSt) : (setPwr x s).pending = s.pending := rfl

/-! ### setDom changes noc -/

@[simp] theorem setDom_now (n : Nat) (x : DomState) : (setDom n x s).now = s.now := rfl
@[simp] theorem setDom_freeCtr (n : Nat) (x : DomState) : (setDom n x s).freeCtr = s.freeCtr := rfl
@[simp] theorem setDom_rf (n : Nat) (x : DomState) : (setDom n x s).rf = s.rf := rfl
@[simp] theorem setDom_seam (n : Nat) (x : DomState) : (setDom n x s).seam = s.seam := rfl
@[simp] theorem setDom_sched (n : Nat) (x : DomState) : (setDom n x s).sched = s.sched := rfl
@[simp] theorem setDom_pat (n : Nat) (x : DomState) : (setDom n x s).pat = s.pat := rfl
@[simp] theorem setDom_rings (n : Nat) (x : DomState) : (setDom n x s).rings = s.rings := rfl
@[simp] theorem setDom_xl (n : Nat) (x : DomState) : (setDom n x s).xl = s.xl := rfl
@[simp] theorem setDom_hmc (n : Nat) (x : DomState) : (setDom n x s).hmc = s.hmc := rfl
@[simp] theorem setDom_cxt (n : Nat) (x : DomState) : (setDom n x s).cxt = s.cxt := rfl
@[simp] theorem setDom_mem (n : Nat) (x : DomState) : (setDom n x s).mem = s.mem := rfl
@[simp] theorem setDom_bm (n : Nat) (x : DomState) : (setDom n x s).bm = s.bm := rfl
@[simp] theorem setDom_portA (n : Nat) (x : DomState) : (setDom n x s).portA = s.portA := rfl
@[simp] theorem setDom_portB (n : Nat) (x : DomState) : (setDom n x s).portB = s.portB := rfl
@[simp] theorem setDom_i3c (n : Nat) (x : DomState) : (setDom n x s).i3c = s.i3c := rfl
@[simp] theorem setDom_dev (n : Nat) (x : DomState) : (setDom n x s).dev = s.dev := rfl
@[simp] theorem setDom_pwr (n : Nat) (x : DomState) : (setDom n x s).pwr = s.pwr := rfl
@[simp] theorem setDom_cyc16 (n : Nat) (x : DomState) : (setDom n x s).cyc16 = s.cyc16 := rfl
@[simp] theorem setDom_pkt (n : Nat) (x : DomState) : (setDom n x s).pkt = s.pkt := rfl
@[simp] theorem setDom_packs (n : Nat) (x : DomState) : (setDom n x s).packs = s.packs := rfl
@[simp] theorem setDom_scans (n : Nat) (x : DomState) : (setDom n x s).scans = s.scans := rfl
@[simp] theorem setDom_opers (n : Nat) (x : DomState) : (setDom n x s).opers = s.opers := rfl
@[simp] theorem setDom_ma (n : Nat) (x : DomState) : (setDom n x s).ma = s.ma := rfl
@[simp] theorem setDom_dg (n : Nat) (x : DomState) : (setDom n x s).dg = s.dg := rfl
@[simp] theorem setDom_keys (n : Nat) (x : DomState) : (setDom n x s).keys = s.keys := rfl
@[simp] theorem setDom_ln (n : Nat) (x : DomState) : (setDom n x s).ln = s.ln := rfl
@[simp] theorem setDom_ldg (n : Nat) (x : DomState) : (setDom n x s).ldg = s.ldg := rfl
@[simp] theorem setDom_out (n : Nat) (x : DomState) : (setDom n x s).out = s.out := rfl
@[simp] theorem setDom_pending (n : Nat) (x : DomState) : (setDom n x s).pending = s.pending := rfl

/-! ### setLink changes noc -/

@[simp] theorem setLink_now (n : Nat) (x : LinkSt) : (setLink n x s).now = s.now := rfl
@[simp] theorem setLink_freeCtr (n : Nat) (x : LinkSt) : (setLink n x s).freeCtr = s.freeCtr := rfl
@[simp] theorem setLink_rf (n : Nat) (x : LinkSt) : (setLink n x s).rf = s.rf := rfl
@[simp] theorem setLink_seam (n : Nat) (x : LinkSt) : (setLink n x s).seam = s.seam := rfl
@[simp] theorem setLink_sched (n : Nat) (x : LinkSt) : (setLink n x s).sched = s.sched := rfl
@[simp] theorem setLink_pat (n : Nat) (x : LinkSt) : (setLink n x s).pat = s.pat := rfl
@[simp] theorem setLink_rings (n : Nat) (x : LinkSt) : (setLink n x s).rings = s.rings := rfl
@[simp] theorem setLink_xl (n : Nat) (x : LinkSt) : (setLink n x s).xl = s.xl := rfl
@[simp] theorem setLink_hmc (n : Nat) (x : LinkSt) : (setLink n x s).hmc = s.hmc := rfl
@[simp] theorem setLink_cxt (n : Nat) (x : LinkSt) : (setLink n x s).cxt = s.cxt := rfl
@[simp] theorem setLink_mem (n : Nat) (x : LinkSt) : (setLink n x s).mem = s.mem := rfl
@[simp] theorem setLink_bm (n : Nat) (x : LinkSt) : (setLink n x s).bm = s.bm := rfl
@[simp] theorem setLink_portA (n : Nat) (x : LinkSt) : (setLink n x s).portA = s.portA := rfl
@[simp] theorem setLink_portB (n : Nat) (x : LinkSt) : (setLink n x s).portB = s.portB := rfl
@[simp] theorem setLink_i3c (n : Nat) (x : LinkSt) : (setLink n x s).i3c = s.i3c := rfl
@[simp] theorem setLink_dev (n : Nat) (x : LinkSt) : (setLink n x s).dev = s.dev := rfl
@[simp] theorem setLink_pwr (n : Nat) (x : LinkSt) : (setLink n x s).pwr = s.pwr := rfl
@[simp] theorem setLink_cyc16 (n : Nat) (x : LinkSt) : (setLink n x s).cyc16 = s.cyc16 := rfl
@[simp] theorem setLink_pkt (n : Nat) (x : LinkSt) : (setLink n x s).pkt = s.pkt := rfl
@[simp] theorem setLink_packs (n : Nat) (x : LinkSt) : (setLink n x s).packs = s.packs := rfl
@[simp] theorem setLink_scans (n : Nat) (x : LinkSt) : (setLink n x s).scans = s.scans := rfl
@[simp] theorem setLink_opers (n : Nat) (x : LinkSt) : (setLink n x s).opers = s.opers := rfl
@[simp] theorem setLink_ma (n : Nat) (x : LinkSt) : (setLink n x s).ma = s.ma := rfl
@[simp] theorem setLink_dg (n : Nat) (x : LinkSt) : (setLink n x s).dg = s.dg := rfl
@[simp] theorem setLink_keys (n : Nat) (x : LinkSt) : (setLink n x s).keys = s.keys := rfl
@[simp] theorem setLink_ln (n : Nat) (x : LinkSt) : (setLink n x s).ln = s.ln := rfl
@[simp] theorem setLink_ldg (n : Nat) (x : LinkSt) : (setLink n x s).ldg = s.ldg := rfl
@[simp] theorem setLink_out (n : Nat) (x : LinkSt) : (setLink n x s).out = s.out := rfl
@[simp] theorem setLink_pending (n : Nat) (x : LinkSt) : (setLink n x s).pending = s.pending := rfl

/-! ### setOper changes opers -/

@[simp] theorem setOper_now (u n : Nat) (x : OperSt) : (setOper u n x s).now = s.now := rfl
@[simp] theorem setOper_freeCtr (u n : Nat) (x : OperSt) : (setOper u n x s).freeCtr = s.freeCtr := rfl
@[simp] theorem setOper_rf (u n : Nat) (x : OperSt) : (setOper u n x s).rf = s.rf := rfl
@[simp] theorem setOper_seam (u n : Nat) (x : OperSt) : (setOper u n x s).seam = s.seam := rfl
@[simp] theorem setOper_sched (u n : Nat) (x : OperSt) : (setOper u n x s).sched = s.sched := rfl
@[simp] theorem setOper_pat (u n : Nat) (x : OperSt) : (setOper u n x s).pat = s.pat := rfl
@[simp] theorem setOper_rings (u n : Nat) (x : OperSt) : (setOper u n x s).rings = s.rings := rfl
@[simp] theorem setOper_xl (u n : Nat) (x : OperSt) : (setOper u n x s).xl = s.xl := rfl
@[simp] theorem setOper_hmc (u n : Nat) (x : OperSt) : (setOper u n x s).hmc = s.hmc := rfl
@[simp] theorem setOper_cxt (u n : Nat) (x : OperSt) : (setOper u n x s).cxt = s.cxt := rfl
@[simp] theorem setOper_mem (u n : Nat) (x : OperSt) : (setOper u n x s).mem = s.mem := rfl
@[simp] theorem setOper_noc (u n : Nat) (x : OperSt) : (setOper u n x s).noc = s.noc := rfl
@[simp] theorem setOper_bm (u n : Nat) (x : OperSt) : (setOper u n x s).bm = s.bm := rfl
@[simp] theorem setOper_portA (u n : Nat) (x : OperSt) : (setOper u n x s).portA = s.portA := rfl
@[simp] theorem setOper_portB (u n : Nat) (x : OperSt) : (setOper u n x s).portB = s.portB := rfl
@[simp] theorem setOper_i3c (u n : Nat) (x : OperSt) : (setOper u n x s).i3c = s.i3c := rfl
@[simp] theorem setOper_dev (u n : Nat) (x : OperSt) : (setOper u n x s).dev = s.dev := rfl
@[simp] theorem setOper_pwr (u n : Nat) (x : OperSt) : (setOper u n x s).pwr = s.pwr := rfl
@[simp] theorem setOper_cyc16 (u n : Nat) (x : OperSt) : (setOper u n x s).cyc16 = s.cyc16 := rfl
@[simp] theorem setOper_pkt (u n : Nat) (x : OperSt) : (setOper u n x s).pkt = s.pkt := rfl
@[simp] theorem setOper_packs (u n : Nat) (x : OperSt) : (setOper u n x s).packs = s.packs := rfl
@[simp] theorem setOper_scans (u n : Nat) (x : OperSt) : (setOper u n x s).scans = s.scans := rfl
@[simp] theorem setOper_ma (u n : Nat) (x : OperSt) : (setOper u n x s).ma = s.ma := rfl
@[simp] theorem setOper_dg (u n : Nat) (x : OperSt) : (setOper u n x s).dg = s.dg := rfl
@[simp] theorem setOper_keys (u n : Nat) (x : OperSt) : (setOper u n x s).keys = s.keys := rfl
@[simp] theorem setOper_ln (u n : Nat) (x : OperSt) : (setOper u n x s).ln = s.ln := rfl
@[simp] theorem setOper_ldg (u n : Nat) (x : OperSt) : (setOper u n x s).ldg = s.ldg := rfl
@[simp] theorem setOper_out (u n : Nat) (x : OperSt) : (setOper u n x s).out = s.out := rfl
@[simp] theorem setOper_pending (u n : Nat) (x : OperSt) : (setOper u n x s).pending = s.pending := rfl

/-! ### setPack changes packs -/

@[simp] theorem setPack_now (u : Nat) (x : PackUnit) : (setPack u x s).now = s.now := rfl
@[simp] theorem setPack_freeCtr (u : Nat) (x : PackUnit) : (setPack u x s).freeCtr = s.freeCtr := rfl
@[simp] theorem setPack_rf (u : Nat) (x : PackUnit) : (setPack u x s).rf = s.rf := rfl
@[simp] theorem setPack_seam (u : Nat) (x : PackUnit) : (setPack u x s).seam = s.seam := rfl
@[simp] theorem setPack_sched (u : Nat) (x : PackUnit) : (setPack u x s).sched = s.sched := rfl
@[simp] theorem setPack_pat (u : Nat) (x : PackUnit) : (setPack u x s).pat = s.pat := rfl
@[simp] theorem setPack_rings (u : Nat) (x : PackUnit) : (setPack u x s).rings = s.rings := rfl
@[simp] theorem setPack_xl (u : Nat) (x : PackUnit) : (setPack u x s).xl = s.xl := rfl
@[simp] theorem setPack_hmc (u : Nat) (x : PackUnit) : (setPack u x s).hmc = s.hmc := rfl
@[simp] theorem setPack_cxt (u : Nat) (x : PackUnit) : (setPack u x s).cxt = s.cxt := rfl
@[simp] theorem setPack_mem (u : Nat) (x : PackUnit) : (setPack u x s).mem = s.mem := rfl
@[simp] theorem setPack_noc (u : Nat) (x : PackUnit) : (setPack u x s).noc = s.noc := rfl
@[simp] theorem setPack_bm (u : Nat) (x : PackUnit) : (setPack u x s).bm = s.bm := rfl
@[simp] theorem setPack_portA (u : Nat) (x : PackUnit) : (setPack u x s).portA = s.portA := rfl
@[simp] theorem setPack_portB (u : Nat) (x : PackUnit) : (setPack u x s).portB = s.portB := rfl
@[simp] theorem setPack_i3c (u : Nat) (x : PackUnit) : (setPack u x s).i3c = s.i3c := rfl
@[simp] theorem setPack_dev (u : Nat) (x : PackUnit) : (setPack u x s).dev = s.dev := rfl
@[simp] theorem setPack_pwr (u : Nat) (x : PackUnit) : (setPack u x s).pwr = s.pwr := rfl
@[simp] theorem setPack_cyc16 (u : Nat) (x : PackUnit) : (setPack u x s).cyc16 = s.cyc16 := rfl
@[simp] theorem setPack_pkt (u : Nat) (x : PackUnit) : (setPack u x s).pkt = s.pkt := rfl
@[simp] theorem setPack_scans (u : Nat) (x : PackUnit) : (setPack u x s).scans = s.scans := rfl
@[simp] theorem setPack_opers (u : Nat) (x : PackUnit) : (setPack u x s).opers = s.opers := rfl
@[simp] theorem setPack_ma (u : Nat) (x : PackUnit) : (setPack u x s).ma = s.ma := rfl
@[simp] theorem setPack_dg (u : Nat) (x : PackUnit) : (setPack u x s).dg = s.dg := rfl
@[simp] theorem setPack_keys (u : Nat) (x : PackUnit) : (setPack u x s).keys = s.keys := rfl
@[simp] theorem setPack_ln (u : Nat) (x : PackUnit) : (setPack u x s).ln = s.ln := rfl
@[simp] theorem setPack_ldg (u : Nat) (x : PackUnit) : (setPack u x s).ldg = s.ldg := rfl
@[simp] theorem setPack_out (u : Nat) (x : PackUnit) : (setPack u x s).out = s.out := rfl
@[simp] theorem setPack_pending (u : Nat) (x : PackUnit) : (setPack u x s).pending = s.pending := rfl

/-! ### setScan changes scans -/

@[simp] theorem setScan_now (u : Nat) (x : ScanFront) : (setScan u x s).now = s.now := rfl
@[simp] theorem setScan_freeCtr (u : Nat) (x : ScanFront) : (setScan u x s).freeCtr = s.freeCtr := rfl
@[simp] theorem setScan_rf (u : Nat) (x : ScanFront) : (setScan u x s).rf = s.rf := rfl
@[simp] theorem setScan_seam (u : Nat) (x : ScanFront) : (setScan u x s).seam = s.seam := rfl
@[simp] theorem setScan_sched (u : Nat) (x : ScanFront) : (setScan u x s).sched = s.sched := rfl
@[simp] theorem setScan_pat (u : Nat) (x : ScanFront) : (setScan u x s).pat = s.pat := rfl
@[simp] theorem setScan_rings (u : Nat) (x : ScanFront) : (setScan u x s).rings = s.rings := rfl
@[simp] theorem setScan_xl (u : Nat) (x : ScanFront) : (setScan u x s).xl = s.xl := rfl
@[simp] theorem setScan_hmc (u : Nat) (x : ScanFront) : (setScan u x s).hmc = s.hmc := rfl
@[simp] theorem setScan_cxt (u : Nat) (x : ScanFront) : (setScan u x s).cxt = s.cxt := rfl
@[simp] theorem setScan_mem (u : Nat) (x : ScanFront) : (setScan u x s).mem = s.mem := rfl
@[simp] theorem setScan_noc (u : Nat) (x : ScanFront) : (setScan u x s).noc = s.noc := rfl
@[simp] theorem setScan_bm (u : Nat) (x : ScanFront) : (setScan u x s).bm = s.bm := rfl
@[simp] theorem setScan_portA (u : Nat) (x : ScanFront) : (setScan u x s).portA = s.portA := rfl
@[simp] theorem setScan_portB (u : Nat) (x : ScanFront) : (setScan u x s).portB = s.portB := rfl
@[simp] theorem setScan_i3c (u : Nat) (x : ScanFront) : (setScan u x s).i3c = s.i3c := rfl
@[simp] theorem setScan_dev (u : Nat) (x : ScanFront) : (setScan u x s).dev = s.dev := rfl
@[simp] theorem setScan_pwr (u : Nat) (x : ScanFront) : (setScan u x s).pwr = s.pwr := rfl
@[simp] theorem setScan_cyc16 (u : Nat) (x : ScanFront) : (setScan u x s).cyc16 = s.cyc16 := rfl
@[simp] theorem setScan_pkt (u : Nat) (x : ScanFront) : (setScan u x s).pkt = s.pkt := rfl
@[simp] theorem setScan_packs (u : Nat) (x : ScanFront) : (setScan u x s).packs = s.packs := rfl
@[simp] theorem setScan_opers (u : Nat) (x : ScanFront) : (setScan u x s).opers = s.opers := rfl
@[simp] theorem setScan_ma (u : Nat) (x : ScanFront) : (setScan u x s).ma = s.ma := rfl
@[simp] theorem setScan_dg (u : Nat) (x : ScanFront) : (setScan u x s).dg = s.dg := rfl
@[simp] theorem setScan_keys (u : Nat) (x : ScanFront) : (setScan u x s).keys = s.keys := rfl
@[simp] theorem setScan_ln (u : Nat) (x : ScanFront) : (setScan u x s).ln = s.ln := rfl
@[simp] theorem setScan_ldg (u : Nat) (x : ScanFront) : (setScan u x s).ldg = s.ldg := rfl
@[simp] theorem setScan_out (u : Nat) (x : ScanFront) : (setScan u x s).out = s.out := rfl
@[simp] theorem setScan_pending (u : Nat) (x : ScanFront) : (setScan u x s).pending = s.pending := rfl

/-! ### setPatCmd changes pat -/

@[simp] theorem setPatCmd_now (i : Nat) (x : PatCmd) : (setPatCmd i x s).now = s.now := rfl
@[simp] theorem setPatCmd_freeCtr (i : Nat) (x : PatCmd) : (setPatCmd i x s).freeCtr = s.freeCtr := rfl
@[simp] theorem setPatCmd_rf (i : Nat) (x : PatCmd) : (setPatCmd i x s).rf = s.rf := rfl
@[simp] theorem setPatCmd_seam (i : Nat) (x : PatCmd) : (setPatCmd i x s).seam = s.seam := rfl
@[simp] theorem setPatCmd_sched (i : Nat) (x : PatCmd) : (setPatCmd i x s).sched = s.sched := rfl
@[simp] theorem setPatCmd_rings (i : Nat) (x : PatCmd) : (setPatCmd i x s).rings = s.rings := rfl
@[simp] theorem setPatCmd_xl (i : Nat) (x : PatCmd) : (setPatCmd i x s).xl = s.xl := rfl
@[simp] theorem setPatCmd_hmc (i : Nat) (x : PatCmd) : (setPatCmd i x s).hmc = s.hmc := rfl
@[simp] theorem setPatCmd_cxt (i : Nat) (x : PatCmd) : (setPatCmd i x s).cxt = s.cxt := rfl
@[simp] theorem setPatCmd_mem (i : Nat) (x : PatCmd) : (setPatCmd i x s).mem = s.mem := rfl
@[simp] theorem setPatCmd_noc (i : Nat) (x : PatCmd) : (setPatCmd i x s).noc = s.noc := rfl
@[simp] theorem setPatCmd_bm (i : Nat) (x : PatCmd) : (setPatCmd i x s).bm = s.bm := rfl
@[simp] theorem setPatCmd_portA (i : Nat) (x : PatCmd) : (setPatCmd i x s).portA = s.portA := rfl
@[simp] theorem setPatCmd_portB (i : Nat) (x : PatCmd) : (setPatCmd i x s).portB = s.portB := rfl
@[simp] theorem setPatCmd_i3c (i : Nat) (x : PatCmd) : (setPatCmd i x s).i3c = s.i3c := rfl
@[simp] theorem setPatCmd_dev (i : Nat) (x : PatCmd) : (setPatCmd i x s).dev = s.dev := rfl
@[simp] theorem setPatCmd_pwr (i : Nat) (x : PatCmd) : (setPatCmd i x s).pwr = s.pwr := rfl
@[simp] theorem setPatCmd_cyc16 (i : Nat) (x : PatCmd) : (setPatCmd i x s).cyc16 = s.cyc16 := rfl
@[simp] theorem setPatCmd_pkt (i : Nat) (x : PatCmd) : (setPatCmd i x s).pkt = s.pkt := rfl
@[simp] theorem setPatCmd_packs (i : Nat) (x : PatCmd) : (setPatCmd i x s).packs = s.packs := rfl
@[simp] theorem setPatCmd_scans (i : Nat) (x : PatCmd) : (setPatCmd i x s).scans = s.scans := rfl
@[simp] theorem setPatCmd_opers (i : Nat) (x : PatCmd) : (setPatCmd i x s).opers = s.opers := rfl
@[simp] theorem setPatCmd_ma (i : Nat) (x : PatCmd) : (setPatCmd i x s).ma = s.ma := rfl
@[simp] theorem setPatCmd_dg (i : Nat) (x : PatCmd) : (setPatCmd i x s).dg = s.dg := rfl
@[simp] theorem setPatCmd_keys (i : Nat) (x : PatCmd) : (setPatCmd i x s).keys = s.keys := rfl
@[simp] theorem setPatCmd_ln (i : Nat) (x : PatCmd) : (setPatCmd i x s).ln = s.ln := rfl
@[simp] theorem setPatCmd_ldg (i : Nat) (x : PatCmd) : (setPatCmd i x s).ldg = s.ldg := rfl
@[simp] theorem setPatCmd_out (i : Nat) (x : PatCmd) : (setPatCmd i x s).out = s.out := rfl
@[simp] theorem setPatCmd_pending (i : Nat) (x : PatCmd) : (setPatCmd i x s).pending = s.pending := rfl

/-! ### setSlot changes pat -/

@[simp] theorem setSlot_now (i k : Nat) (x : PatSlot) : (setSlot i k x s).now = s.now := rfl
@[simp] theorem setSlot_freeCtr (i k : Nat) (x : PatSlot) : (setSlot i k x s).freeCtr = s.freeCtr := rfl
@[simp] theorem setSlot_rf (i k : Nat) (x : PatSlot) : (setSlot i k x s).rf = s.rf := rfl
@[simp] theorem setSlot_seam (i k : Nat) (x : PatSlot) : (setSlot i k x s).seam = s.seam := rfl
@[simp] theorem setSlot_sched (i k : Nat) (x : PatSlot) : (setSlot i k x s).sched = s.sched := rfl
@[simp] theorem setSlot_rings (i k : Nat) (x : PatSlot) : (setSlot i k x s).rings = s.rings := rfl
@[simp] theorem setSlot_xl (i k : Nat) (x : PatSlot) : (setSlot i k x s).xl = s.xl := rfl
@[simp] theorem setSlot_hmc (i k : Nat) (x : PatSlot) : (setSlot i k x s).hmc = s.hmc := rfl
@[simp] theorem setSlot_cxt (i k : Nat) (x : PatSlot) : (setSlot i k x s).cxt = s.cxt := rfl
@[simp] theorem setSlot_mem (i k : Nat) (x : PatSlot) : (setSlot i k x s).mem = s.mem := rfl
@[simp] theorem setSlot_noc (i k : Nat) (x : PatSlot) : (setSlot i k x s).noc = s.noc := rfl
@[simp] theorem setSlot_bm (i k : Nat) (x : PatSlot) : (setSlot i k x s).bm = s.bm := rfl
@[simp] theorem setSlot_portA (i k : Nat) (x : PatSlot) : (setSlot i k x s).portA = s.portA := rfl
@[simp] theorem setSlot_portB (i k : Nat) (x : PatSlot) : (setSlot i k x s).portB = s.portB := rfl
@[simp] theorem setSlot_i3c (i k : Nat) (x : PatSlot) : (setSlot i k x s).i3c = s.i3c := rfl
@[simp] theorem setSlot_dev (i k : Nat) (x : PatSlot) : (setSlot i k x s).dev = s.dev := rfl
@[simp] theorem setSlot_pwr (i k : Nat) (x : PatSlot) : (setSlot i k x s).pwr = s.pwr := rfl
@[simp] theorem setSlot_cyc16 (i k : Nat) (x : PatSlot) : (setSlot i k x s).cyc16 = s.cyc16 := rfl
@[simp] theorem setSlot_pkt (i k : Nat) (x : PatSlot) : (setSlot i k x s).pkt = s.pkt := rfl
@[simp] theorem setSlot_packs (i k : Nat) (x : PatSlot) : (setSlot i k x s).packs = s.packs := rfl
@[simp] theorem setSlot_scans (i k : Nat) (x : PatSlot) : (setSlot i k x s).scans = s.scans := rfl
@[simp] theorem setSlot_opers (i k : Nat) (x : PatSlot) : (setSlot i k x s).opers = s.opers := rfl
@[simp] theorem setSlot_ma (i k : Nat) (x : PatSlot) : (setSlot i k x s).ma = s.ma := rfl
@[simp] theorem setSlot_dg (i k : Nat) (x : PatSlot) : (setSlot i k x s).dg = s.dg := rfl
@[simp] theorem setSlot_keys (i k : Nat) (x : PatSlot) : (setSlot i k x s).keys = s.keys := rfl
@[simp] theorem setSlot_ln (i k : Nat) (x : PatSlot) : (setSlot i k x s).ln = s.ln := rfl
@[simp] theorem setSlot_ldg (i k : Nat) (x : PatSlot) : (setSlot i k x s).ldg = s.ldg := rfl
@[simp] theorem setSlot_out (i k : Nat) (x : PatSlot) : (setSlot i k x s).out = s.out := rfl
@[simp] theorem setSlot_pending (i k : Nat) (x : PatSlot) : (setSlot i k x s).pending = s.pending := rfl

/-! ### setTlb changes xl -/

@[simp] theorem setTlb_now (t : Nat) (x : List TlbEntry) : (setTlb t x s).now = s.now := rfl
@[simp] theorem setTlb_freeCtr (t : Nat) (x : List TlbEntry) : (setTlb t x s).freeCtr = s.freeCtr := rfl
@[simp] theorem setTlb_rf (t : Nat) (x : List TlbEntry) : (setTlb t x s).rf = s.rf := rfl
@[simp] theorem setTlb_seam (t : Nat) (x : List TlbEntry) : (setTlb t x s).seam = s.seam := rfl
@[simp] theorem setTlb_sched (t : Nat) (x : List TlbEntry) : (setTlb t x s).sched = s.sched := rfl
@[simp] theorem setTlb_pat (t : Nat) (x : List TlbEntry) : (setTlb t x s).pat = s.pat := rfl
@[simp] theorem setTlb_rings (t : Nat) (x : List TlbEntry) : (setTlb t x s).rings = s.rings := rfl
@[simp] theorem setTlb_hmc (t : Nat) (x : List TlbEntry) : (setTlb t x s).hmc = s.hmc := rfl
@[simp] theorem setTlb_cxt (t : Nat) (x : List TlbEntry) : (setTlb t x s).cxt = s.cxt := rfl
@[simp] theorem setTlb_mem (t : Nat) (x : List TlbEntry) : (setTlb t x s).mem = s.mem := rfl
@[simp] theorem setTlb_noc (t : Nat) (x : List TlbEntry) : (setTlb t x s).noc = s.noc := rfl
@[simp] theorem setTlb_bm (t : Nat) (x : List TlbEntry) : (setTlb t x s).bm = s.bm := rfl
@[simp] theorem setTlb_portA (t : Nat) (x : List TlbEntry) : (setTlb t x s).portA = s.portA := rfl
@[simp] theorem setTlb_portB (t : Nat) (x : List TlbEntry) : (setTlb t x s).portB = s.portB := rfl
@[simp] theorem setTlb_i3c (t : Nat) (x : List TlbEntry) : (setTlb t x s).i3c = s.i3c := rfl
@[simp] theorem setTlb_dev (t : Nat) (x : List TlbEntry) : (setTlb t x s).dev = s.dev := rfl
@[simp] theorem setTlb_pwr (t : Nat) (x : List TlbEntry) : (setTlb t x s).pwr = s.pwr := rfl
@[simp] theorem setTlb_cyc16 (t : Nat) (x : List TlbEntry) : (setTlb t x s).cyc16 = s.cyc16 := rfl
@[simp] theorem setTlb_pkt (t : Nat) (x : List TlbEntry) : (setTlb t x s).pkt = s.pkt := rfl
@[simp] theorem setTlb_packs (t : Nat) (x : List TlbEntry) : (setTlb t x s).packs = s.packs := rfl
@[simp] theorem setTlb_scans (t : Nat) (x : List TlbEntry) : (setTlb t x s).scans = s.scans := rfl
@[simp] theorem setTlb_opers (t : Nat) (x : List TlbEntry) : (setTlb t x s).opers = s.opers := rfl
@[simp] theorem setTlb_ma (t : Nat) (x : List TlbEntry) : (setTlb t x s).ma = s.ma := rfl
@[simp] theorem setTlb_dg (t : Nat) (x : List TlbEntry) : (setTlb t x s).dg = s.dg := rfl
@[simp] theorem setTlb_keys (t : Nat) (x : List TlbEntry) : (setTlb t x s).keys = s.keys := rfl
@[simp] theorem setTlb_ln (t : Nat) (x : List TlbEntry) : (setTlb t x s).ln = s.ln := rfl
@[simp] theorem setTlb_ldg (t : Nat) (x : List TlbEntry) : (setTlb t x s).ldg = s.ldg := rfl
@[simp] theorem setTlb_out (t : Nat) (x : List TlbEntry) : (setTlb t x s).out = s.out := rfl
@[simp] theorem setTlb_pending (t : Nat) (x : List TlbEntry) : (setTlb t x s).pending = s.pending := rfl

end Sys2Proof.Machine
end

