-- ==== Sys2Proof/Laws/Registers.lean ====
section
/-! SUPPORT. Laws of the register file, of register writes, and of the predicates of Safety.lean. -/

namespace Sys2Proof.Machine

/-! ### Register words -/

theorem rGet_rSet (a v b : Nat) (s : State) : rGet (rSet a v s) b = if a = b then v % 2 ^ 32 else rGet s b := by
  simp only [rGet, rSet, kFind_kSet]
  by_cases h : a = b <;> simp [h]

@[simp] theorem rGet_rSet_self (a v : Nat) (s : State) : rGet (rSet a v s) a = v % 2 ^ 32 := by simp [rGet_rSet]

theorem rGet_rSet_ne {a b : Nat} (v : Nat) (s : State) (h : a ≠ b) : rGet (rSet a v s) b = rGet s b := by simp [rGet_rSet, h]

theorem rGet_bump (a n b : Nat) (s : State) : rGet (bump a n s) b = if a = b then (rGet s a + n) % 2 ^ 32 else rGet s b :=
  rGet_rSet _ _ _ _

theorem rGet_rSetFld (a hi lo v b : Nat) (s : State) :
    rGet (rSetFld a hi lo v s) b = if a = b then setFld (rGet s a) hi lo v % 2 ^ 32 else rGet s b := rGet_rSet _ _ _ _

/-- A register word depends on the words in effect and the straps only. -/
theorem rGet_congr {s t : State} (h : t.rf.val = s.rf.val) (g : t.dev.straps = s.dev.straps) (a : Nat) : rGet t a = rGet s a := by
  simp [rGet, h, g]

@[simp] theorem rGet_emit (m : OutMsg) (s : State) (a : Nat) : rGet (emit m s) a = rGet s a := rfl
@[simp] theorem rGet_bumpFrame (b n : Nat) (s : State) (a : Nat) : rGet (bumpFrame b n s) a = rGet s a := rfl
@[simp] theorem rGet_stageBits (b m v : Nat) (s : State) (a : Nat) : rGet (stageBits b m v s) a = rGet s a := rfl
@[simp] theorem rGet_setHmc (h : Nat) (x : HmcSt) (s : State) (a : Nat) : rGet (setHmc h x s) a = rGet s a := rfl
@[simp] theorem rGet_setCxt (h : Nat) (x : CxtSt) (s : State) (a : Nat) : rGet (setCxt h x s) a = rGet s a := rfl
@[simp] theorem rGet_setTask (h : Nat) (x : TaskRec) (s : State) (a : Nat) : rGet (setTask h x s) a = rGet s a := rfl
@[simp] theorem rGet_setJob (h : Nat) (x : JobRec) (s : State) (a : Nat) : rGet (setJob h x s) a = rGet s a := rfl
@[simp] theorem rGet_setAgent (h : Nat) (x : Agent) (s : State) (a : Nat) : rGet (setAgent h x s) a = rGet s a := rfl
@[simp] theorem rGet_setPkt (h : Nat) (x : Pocket) (s : State) (a : Nat) : rGet (setPkt h x s) a = rGet s a := rfl
@[simp] theorem rGet_setInst (h : Nat) (x : InstSt) (s : State) (a : Nat) : rGet (setInst h x s) a = rGet s a := rfl
@[simp] theorem rGet_setJr (h k : Nat) (x : JobRing) (s : State) (a : Nat) : rGet (setJr h k x s) a = rGet s a := rfl
@[simp] theorem rGet_setCr (h k : Nat) (x : ComplRing) (s : State) (a : Nat) : rGet (setCr h k x s) a = rGet s a := rfl
@[simp] theorem rGet_lastErr (pg c : Nat) (s : State) (a : Nat) : rGet (lastErr pg c s) a = rGet s a := rfl

theorem rGet_lt (s : State) (a : Nat) (h : resetWord s.dev.straps a < 2 ^ 32) : rGet s a < 2 ^ 32 := by
  unfold rGet; split
  · exact BitVec.isLt _
  · exact h

/-- The words that a change of flags may touch: IRQ_FLAG of its page, and a pending bit of a masked vector. -/
theorem rGet_sendMsix {i v a : Nat} (s : State) (h : a ≠ msixPba i v) : rGet (sendMsix i v s) a = rGet s a := by
  unfold sendMsix
  split
  · rfl
  · split
    · rw [rGet_rSetFld, if_neg (Ne.symm h)]
    · rfl

/-- Register words of the window, below the MSI-X tables. -/
theorem rGet_latch {pg m a : Nat} (s : State) (ha : a < 0x1000000) (h : pg + 0x18 ≠ a) : rGet (latch pg m s) a = rGet s a := by
  unfold latch withSignal
  dsimp only
  split
  · split
    · rw [rGet_sendMsix _ (by unfold msixPba instBase; omega), rGet_rSet_ne _ _ h]
    · rw [rGet_rSet_ne _ _ h]
  · rw [rGet_rSet_ne _ _ h]

theorem rGet_latch_flag {pg m : Nat} (s : State) (h : pg + 0x18 < 0x1000000) :
    rGet (latch pg m s) (pg + 0x18) = (rGet s (pg + 0x18) ||| m) % 2 ^ 32 := by
  unfold latch withSignal
  dsimp only
  split
  · split
    · rw [rGet_sendMsix _ (by unfold msixPba instBase; omega), rGet_rSet_self]
    · rw [rGet_rSet_self]
  · rw [rGet_rSet_self]

theorem rGet_recErr (pg c e a : Nat) (s : State) : rGet (recErr pg c e s) a =
    if pg + 0x2C = a then (rGet s (pg + 0x2C) + 1) % 2 ^ 32 else if pg + 0x28 = a then e / 2 ^ 32 % 2 ^ 32
    else if pg + 0x24 = a then e % 2 ^ 32 else if pg + 0x20 = a then c % 2 ^ 32 else rGet s a := by
  unfold recErr; rw [rGet_bump]
  simp only [rGet_rSet]
  by_cases h : pg + 0x2C = a
  · subst h; simp
  · simp [h]

theorem rGet_recordWrite (w : Writer) (pg a : Nat) (s : State) : rGet (recordWrite w pg s) a =
    if pg + 0x38 = a then (w.fn + 2048 * pathNum w.path) % 2 ^ 32
    else if pg + 0x34 = a then (rGet s (pg + 0x34) + 1) % 2 ^ 32 else rGet s a := by
  unfold recordWrite; rw [rGet_rSet, rGet_bump]

/-! ### Fields -/

theorem fld_setFld (w hi lo v : Nat) : fld (setFld w hi lo v) hi lo = v % 2 ^ (hi + 1 - lo) := by
  unfold fld setFld
  by_cases hl : lo ≤ hi
  · have e : 2 ^ (hi + 1) = 2 ^ (hi + 1 - lo) * 2 ^ lo := by rw [← Nat.pow_add]; congr 1; omega
    rw [e, ← Nat.mul_assoc, ← Nat.add_mul]
    rw [Nat.add_comm, Nat.add_mul_div_right _ _ (Nat.two_pow_pos lo), Nat.div_eq_of_lt (Nat.mod_lt _ (Nat.two_pow_pos lo))]
    rw [Nat.zero_add, Nat.mul_comm (w / _), Nat.mul_add_mod, Nat.mod_mod]
  · have e : hi + 1 - lo = 0 := by omega
    simp [e, Nat.mod_one]

theorem testBit_fld (w hi lo i : Nat) : (fld w hi lo).testBit i = (decide (i < hi + 1 - lo) && w.testBit (lo + i)) := by
  unfold fld
  rw [Nat.testBit_mod_two_pow, Nat.testBit_div_two_pow, Nat.add_comm i lo]

/-- A word taken by a mask: the mask's bits are the new word's, the others the old one's. -/
theorem testBit_mixBits {mask old new i : Nat} (g : mask < 2 ^ 32) (h : i < 32) :
    (mixBits mask old new).testBit i = if mask.testBit i then new.testBit i else old.testBit i := by
  have e : (0xFFFFFFFF - mask).testBit i = !mask.testBit i := by
    rw [show (0xFFFFFFFF : Nat) - mask = 2 ^ 32 - (mask + 1) by omega, Nat.testBit_two_pow_sub_succ g]; simp [h]
  unfold mixBits
  rw [Nat.testBit_or, Nat.testBit_and, Nat.testBit_and, e]
  cases mask.testBit i <;> simp

theorem testBit_of_fld {w hi lo i : Nat} (h : i < hi + 1 - lo) : w.testBit (lo + i) = (fld w hi lo).testBit i := by
  simp [testBit_fld, h]

/-- A field that lies in the mask is the new word's. -/
theorem fld_mixBits_in {mask old new hi lo : Nat} (g : mask < 2 ^ 32) (hh : hi < 32) (h : fld mask hi lo = 2 ^ (hi + 1 - lo) - 1) :
    fld (mixBits mask old new) hi lo = fld new hi lo := by
  apply Nat.eq_of_testBit_eq; intro i
  simp only [testBit_fld]
  by_cases hi' : i < hi + 1 - lo
  · rw [testBit_mixBits g (by omega), testBit_of_fld hi', h, Nat.testBit_two_pow_sub_one]; simp [hi']
  · simp [hi']

/-- A field that lies outside the mask is the old word's. -/
theorem fld_mixBits_out {mask old new hi lo : Nat} (g : mask < 2 ^ 32) (hh : hi < 32) (h : fld mask hi lo = 0) :
    fld (mixBits mask old new) hi lo = fld old hi lo := by
  apply Nat.eq_of_testBit_eq; intro i
  simp only [testBit_fld]
  by_cases hi' : i < hi + 1 - lo
  · rw [testBit_mixBits g (by omega), testBit_of_fld hi', h]; simp
  · simp [hi']

/-- A field below bit 32 is the 32-bit word's. -/
theorem fld_mod {w hi lo : Nat} (hh : hi < 32) : fld (w % 2 ^ 32) hi lo = fld w hi lo := by
  apply Nat.eq_of_testBit_eq; intro i
  simp only [testBit_fld, Nat.testBit_mod_two_pow]
  by_cases hi' : i < hi + 1 - lo
  · simp [hi']; omega
  · simp [hi']

/-- A staged field reads back from the shadow copy. -/
theorem fld_shadowWord_stageBits {a m v hi lo : Nat} (s : State) (g : (rowMasks a).st < 2 ^ 32) (hh : hi < 32)
    (h : fld (rowMasks a).st hi lo = 2 ^ (hi + 1 - lo) - 1) (g' : m < 2 ^ 32) (h' : fld m hi lo = 2 ^ (hi + 1 - lo) - 1) :
    fld (shadowWord (stageBits a m v s) a) hi lo = fld v hi lo := by
  have e : shadowWord (stageBits a m v s) a
      = mixBits (rowMasks a).st (committedWord s a) (mixBits m (shadowWord s a) v % 2 ^ 32) := by
    conv => lhs; unfold shadowWord
    simp [stageBits, committedWord, rGet]
  rw [e, fld_mixBits_in g hh h, fld_mod hh, fld_mixBits_in g' hh h']

theorem fld_zero_of_lt {w hi : Nat} (h : w < 2 ^ (hi + 1)) : fld w hi 0 = w := by
  simp [fld, Nat.mod_eq_of_lt h]

/-! ### Register writes -/

/-- A write that acts is recorded on its page and takes effect. -/
theorem acceptWrite_takes {s : State} {w : Writer} {a : Nat} (eff : State → State) (h : takes s w a = true) :
    acceptWrite w a eff s = eff (recordWrite w (pageBase a) s) := by
  unfold takes at h
  unfold acceptWrite
  cases hp : pageOf a with
  | none => simp [hp] at h
  | some q =>
    obtain ⟨k, i, o⟩ := q
    simp only [hp, Bool.and_eq_true, Bool.not_eq_eq_eq_not, Bool.not_true] at h
    have hm : modeTakes (recordWrite w (pageBase a) s) w.path k = true := by
      simpa [modeTakes] using h.2
    simp [h.1.1, h.1.2, hm]

/-! ### The frame predicates -/

theorem Only.refl (l : List Comp) (s : State) : Only l s s := ⟨rfl, fun c _ => by cases c <;> rfl⟩

theorem Only.trans {l : List Comp} {r s t : State} (h : Only l r s) (g : Only l s t) : Only l r t :=
  ⟨g.1.trans h.1, fun c hc => by have a := h.2 c hc; have b := g.2 c hc; cases c <;> exact Eq.trans b a⟩

theorem Only.mono {l m : List Comp} {s t : State} (h : Only l s t) (g : ∀ c ∈ l, c ∈ m) : Only m s t :=
  ⟨h.1, fun c hc => h.2 c fun k => hc (g c k)⟩

theorem OnlyRegs.refl (l : List Nat) (s : State) : OnlyRegs l s s := fun _ _ => rfl

end Sys2Proof.Machine
end

