-- ==== Sys2Proof/WellFormed.lean ====
section
/-! DEFINITION. The commands that can reach the part: operand numbers name blocks that exist, byte accesses stay inside one
line, and register accesses are words. A command that is not well-formed stands for nothing the outside can do; its meaning
is total all the same. -/

namespace Sys2Proof

/-- A number of one of `n` like things. -/
def below (k n : Nat) : Bool := k < n

/-- An instance number, or a function number of a port (R2). -/
def instWf (i : Nat) : Bool := i < 1025

/-- A writer is function 0, or a VF on a host port (R364). -/
def Writer.wf (w : Writer) : Bool := w.enables < 16 && (w.fn = 0 || (instWf w.fn && w.path ≠ .i3c))

/-- A page's address, and the address of a register word (R366). -/
def pageWf (a : Nat) : Bool := a % 4096 = 0
def wordWf (a : Nat) : Bool := a % 4 = 0

/-- An offset of a word in a page or in configuration space. -/
def offWf (o : Nat) : Bool := o % 4 = 0 && o < 4096

/-- An access of 1 to 64 bytes inside one line. -/
def lineWf (a n : Nat) : Bool := 1 ≤ n && a % 64 + n ≤ 64

/-- A packet's fields fit Table 12.1. -/
def Packet.wf (p : Packet) : Bool :=
  below p.dest 48 && below p.src 48 && below p.prio 4 && below p.type 16 && below p.inst 2048 && below p.len 257
    && below p.sub 64 && below p.txn 65536 && below p.status 256 && below p.payload.length 257

/-- A packet to inject, if any. -/
def injectWf (p : Option Packet) : Bool := p.all Packet.wf

/-- The consumer of a host read names one that exists. -/
def ReadConsumer.wf : ReadConsumer → Bool
  | .jobFetch i r => instWf i && below r 8
  | .phaseJudge i r => instWf i && below r 8
  | .fragTable i t => instWf i && below t 65536
  | .ledger i _ => instWf i
  | .bmSource c => below c 64
  | .bmQueue c => below c 64
  | .digest c => below c 256

/-- A command code's operands fit their fields: events 8 bits, addresses 7, lengths 16. -/
def Ccc.wf : Ccc → Bool
  | .enec e => below e 256
  | .disec e => below e 256
  | .entdaa a => below a 128
  | .setdasa x a => below x 128 && below a 128
  | .setnewda a => below a 128
  | .setmwl n => below n 65536
  | .setmrl n => below n 65536
  | .rstact a => below a 256
  | .entas k => below k 4
  | .unsupported c => below c 256
  | _ => true

/-- Whether a command is well-formed. -/
def wellFormed : Instr → Bool
  | .seam => true
  | .seamInEdge => true
  | .holdoverTick => true
  | .seamPeriodWrite w _ => Writer.wf w
  | .seamTolWrite w _ => Writer.wf w
  | .seamNumLoRead _ => true
  | .seamNumLoadArm w _ => Writer.wf w
  | .schedCtrlWrite w _ => Writer.wf w
  | .taskCreate job => below job 16384
  | .decrement panel => below panel 32
  | .dispatch pocket => below pocket 512
  | .stealProbe panel => below panel 32
  | .cutTrap pocket => below pocket 512
  | .saveComplete pocket => below pocket 512
  | .shareSpent inst => instWf inst
  | .patternLoad w inst => Writer.wf w && instWf inst
  | .patternLoadDone inst => instWf inst
  | .retire w inst => Writer.wf w && instWf inst
  | .cuffWrite w inst off _ => Writer.wf w && instWf inst && offWf off
  | .compact job => below job 16384
  | .reencode job => below job 16384
  | .packOpen unit => below unit 64
  | .packAppend unit => below unit 64
  | .packClose unit => below unit 64
  | .packSave unit => below unit 64
  | .packRestore unit => below unit 64
  | .packRecover unit => below unit 64
  | .packAbandon unit => below unit 64
  | .scan sf _ => below sf 64
  | .scanResume sf _ => below sf 64
  | .scanAbandon sf => below sf 64
  | .hpuInsert panel _ => below panel 32
  | .probe panel _ => below panel 32
  | .group panel _ => below panel 32
  | .lockRetry panel => below panel 32
  | .takeover panel _ => below panel 32
  | .operatorAbandon panel _ => below panel 32
  | .partitionAppend panel _ => below panel 32
  | .partitionFlush panel => below panel 32
  | .partitionRelease panel => below panel 32
  | .partitionReload panel => below panel 32
  | .sortrun panel => below panel 32
  | .merge panel _ => below panel 32
  | .topk panel => below panel 32
  | .lookup => true
  | .step => true
  | .maInvalidate w inst => Writer.wf w && instWf inst
  | .maWrite w inst => Writer.wf w && instWf inst
  | .maValidate w inst => Writer.wf w && instWf inst
  | .maInsert w inst => Writer.wf w && instWf inst
  | .maLoad w inst => Writer.wf w && instWf inst
  | .maDump w inst => Writer.wf w && instWf inst
  | .maClear w inst => Writer.wf w && instWf inst
  | .arrayOperation => true
  | .maScrub => true
  | .integerOp p _ => below p 512
  | .floatOp p _ => below p 512
  | .ld p _ => below p 512
  | .st p _ => below p 512
  | .fld p _ => below p 512
  | .fst p _ => below p 512
  | .ldr p _ => below p 512
  | .str p _ => below p 512
  | .cas p _ => below p 512
  | .aadd p _ => below p 512
  | .branch p _ => below p 512
  | .loop p _ => below p 512
  | .jl p _ => below p 512
  | .jr p _ => below p 512
  | .set p _ => below p 512
  | .keep p _ => below p 512
  | .nop p _ => below p 512
  | .unit p _ => below p 512
  | .unitStallEnd p => below p 512
  | .matchReq p _ => below p 512
  | .matchResponse p => below p 512
  | .waitd p _ => below p 512
  | .waitdEnd p => below p 512
  | .fence p _ => below p 512
  | .clean p _ => below p 512
  | .inv p _ => below p 512
  | .clinv p _ => below p 512
  | .zero p _ => below p 512
  | .setWayClean p _ => below p 512
  | .setWayInv p _ => below p 512
  | .setWayClinv p _ => below p 512
  | .clinvVc p _ => below p 512
  | .call p _ => below p 512
  | .rdcr p _ => below p 512
  | .wrcr p _ => below p 512
  | .ret p _ => below p 512
  | .report p _ => below p 512
  | .rgld p _ => below p 512
  | .tlbiAll p _ => below p 512
  | .tlbiSlot p _ => below p 512
  | .tlbiInstance p _ => below p 512
  | .l1Fill p => below p 512
  | .lvGate p => below p 512
  | .pktHalt w p _ => Writer.wf w && below p 512
  | .pktDbgDataHiWrite w p _ => Writer.wf w && below p 512
  | .vld p _ => below p 512
  | .vst p _ => below p 512
  | .vlds p _ => below p 512
  | .vsts p _ => below p 512
  | .vgath p _ => below p 512
  | .vscat p _ => below p 512
  | .scaddt p _ => below p 512
  | .scadds p _ => below p 512
  | .vunpk p _ => below p 512
  | .vectorArithmetic p _ => below p 512
  | .vmulwl p _ => below p 512
  | .vsrr p _ => below p 512
  | .vresc p _ => below p 512
  | .vscan p _ => below p 512
  | .vunzz p _ => below p 512
  | .vredadd p _ => below p 512
  | .vcomp p _ => below p 512
  | .vectorFloat p _ => below p 512
  | .vcmp p _ => below p 512
  | .vwhilelt p _ => below p 512
  | .predicateOp p _ => below p 512
  | .pcnt p _ => below p 512
  | .vsplat p _ => below p 512
  | .vext p _ => below p 512
  | .vins p _ => below p 512
  | .tailDoorbell w inst ring _ => Writer.wf w && instWf inst && below ring 8
  | .fetchComplete inst ring => instWf inst && below ring 8
  | .entryAccept inst ring => instWf inst && below ring 8
  | .completionWrite inst => instWf inst
  | .moderationTimer inst cr => instWf inst && below cr 4
  | .headDoorbell w inst cr _ => Writer.wf w && instWf inst && below cr 4
  | .abort w inst _ => Writer.wf w && instWf inst
  | .abortResultRead _ inst => instWf inst
  | .ringEnable w inst isCr idx _ => Writer.wf w && instWf inst && below idx (if isCr then 4 else 8)
  | .ringDisable w inst isCr idx _ => Writer.wf w && instWf inst && below idx (if isCr then 4 else 8)
  | .instanceReset inst => instWf inst
  | .instanceResetEnd inst => instWf inst
  | .hbmRead stop addr len prio => below stop 8 && lineWf addr len && below prio 4
  | .hbmWrite stop addr data prio => below stop 8 && lineWf addr data.length && below prio 4
  | .refresh stop pc bank => below stop 8 && below pc 32 && below bank 48
  | .selfRefreshEntry stop pc => below stop 8 && below pc 32
  | .hbmScrub stop pc => below stop 8 && below pc 32
  | .hbmTempRead stack temp => below stack 4 && below temp 256
  | .hbmTraining stack _ _ => below stack 4
  | .ieee1500Command w stop _ => Writer.wf w && below stop 8
  | .cxtLinkDown port => below port 2
  | .cxtLinkUp port width speed => below port 2 && below width 32 && below speed 8
  | .invalidateAll w _ => Writer.wf w
  | .invalidateInstance w _ => Writer.wf w
  | .invalidateSlot w _ => Writer.wf w
  | .invalidationDone => true
  | .promote w _ => Writer.wf w
  | .demote w _ => Writer.wf w
  | .promotionStart => true
  | .promotionCopyDone _ => true
  | .promotePoll p => below p 512
  | .xlRtSelWrite w _ => Writer.wf w
  | .meshHop stop inject => below stop 48 && injectWf inject
  | .linkParityError stop _ _ _ => below stop 48
  | .linkRetrainDone stop _ _ => below stop 48
  | .domainOff panel => below panel 32
  | .panelMemoryOn panel => below panel 32
  | .bmGo w ch _ => Writer.wf w && below ch 64
  | .bmPoll ch => below ch 64
  | .burstIssue ch => below ch 64
  | .burstReadResponse ch => below ch 64
  | .beatResponse ch _ => below ch 64
  | .bmChEnable w ch _ => Writer.wf w && below ch 64
  | .bmChDisable w ch _ => Writer.wf w && below ch 64
  | .channelSunk ch => below ch 64
  | .ledgerAppend w inst => Writer.wf w && instWf inst
  | .ledgerWrite w inst => Writer.wf w && instWf inst
  | .ledgerRead w inst => Writer.wf w && instWf inst
  | .ledgerFlush w inst => Writer.wf w && instWf inst
  | .streamSeal w inst => Writer.wf w && instWf inst
  | .volumeSeal w inst => Writer.wf w && instWf inst
  | .ledgerCommandStart inst => instWf inst
  | .ledgerDataRead inst _ _ => instWf inst
  | .ledgerCommit inst _ => instWf inst
  | .ledgerCompletionWrite inst => instWf inst
  | .ledgerCqHead w inst _ => Writer.wf w && instWf inst
  | .ledgerCqEnable w inst _ => Writer.wf w && instWf inst
  | .volCreate w => Writer.wf w
  | .volFree w => Writer.wf w
  | .streamCreate w => Writer.wf w
  | .streamFree w => Writer.wf w
  | .mdone => true
  | .pwrfailNFall _ => true
  | .holdupCharged => true
  | .digestInit w => Writer.wf w
  | .digestUpdate w => Writer.wf w
  | .digestFinal w => Writer.wf w
  | .digestRelease w => Writer.wf w
  | .contextAssign => true
  | .hashBlock => true
  | .dgResRead _ k => below k 16
  | .erase w _ => Writer.wf w
  | .tamperEvent src => below src 5
  | .wipeEnd => true
  | .lifeCycleTransition target _ => below target 5
  | .tamperMaskWrite w _ => Writer.wf w
  | .portReset _ => true
  | .flr _ fn => instWf fn
  | .vfEnableClear _ => true
  | .hostLinkDown _ => true
  | .configRequest _ fn _ off _ => instWf fn && offWf off
  | .hostReadFailure consumer _ => ReadConsumer.wf consumer
  | .ptmRefresh _ _ => true
  | .spdmRequest _ code => below code 65536
  | .cxlMemRequest write addr data _ => (!write || lineWf addr data.length)
  | .i3cCcc ccc => Ccc.wf ccc
  | .setAddr bytes => bytes ≠ []
  | .i3cWrite bytes => bytes ≠ []
  | .mirror bytes => bytes ≠ []
  | .i3cRead n => 1 ≤ n
  | .ibi _ => true
  | .ibiRetry _ => true
  | .mirrorPass => true
  | .mirrorStale => true
  | .moduleIdentify port _ _ _ _ _ => below port 2
  | .modulePoll temps => temps.length = 2
  | .voutCommand die mv => below die 2 && below mv 1024
  | .pwrokRise straps => below straps 16
  | .pwrokFall => true
  | .resetNFall => true
  | .resetTakesHold => true
  | .resetNRise => true
  | .bringupComplete => true
  | .modeRequestConfigure w => Writer.wf w
  | .modeRequestService w => Writer.wf w
  | .modeRequestRetain w => Writer.wf w
  | .modeRequestDiagnose w => Writer.wf w
  | .activate w => Writer.wf w
  | .activationRestart _ => true
  | .fwStage w _ => Writer.wf w
  | .fwStageDone result => below result 256
  | .testPanelMarch w => Writer.wf w
  | .testMeshLinks w => Writer.wf w
  | .testHbmMarch w unit => Writer.wf w && below unit 4
  | .testMatchArrayMarch w => Writer.wf w
  | .testCxlLoopback w unit => Writer.wf w && below unit 2
  | .diagDone errors failUnit => below errors 65536 && below failUnit 256
  | .releaseToken w _ => Writer.wf w
  | .powerEstimate deciwatts => below deciwatts 65536
  | .powerWindow => true
  | .sensorSample temps volts => temps.length = 48 && volts.length = 12
  | .speedIndexRead idx => idx.length = 32
  | .watchdogExpiry => true
  | .refclkLoss => true
  | .stageCommit w page => Writer.wf w && pageWf page
  | .stageDiscard w page => Writer.wf w && pageWf page
  | .irqFlagClear w page _ => Writer.wf w && pageWf page
  | .irqForce w page _ => Writer.wf w && pageWf page
  | .irqEnableWrite w page _ => Writer.wf w && pageWf page
  | .blockCtrlWrite w page _ => Writer.wf w && pageWf page
  | .counterRead _ addr => wordWf addr || 0 < addr / 2 ^ 32
  | .registerWrite w addr _ => Writer.wf w && wordWf addr
  | .bootRomEnd b0 b1 => below b0 5 && below b1 5
  | .i3cTargetEnable => true
  | .moduleResetRelease => true
  | .perstRise _ => true
  | .hostLinkUp _ speed width _ _ => below speed 8 && below width 32
  | .cxtRead port addr len => below port 2 && lineWf addr len
  | .cxtWrite port addr data => below port 2 && lineWf addr data.length
  | .cxtScrub port => below port 2
  | .undefinedInstruction p _ => below p 512
  | .pwrfailNRise => true

end Sys2Proof
end

