-- ==== Sys2Proof/Tests/Slice0.lean ====
section
/-! SUPPORT. Tests of the model: for each obligation a witness, concrete states that meet its hypotheses; worked examples of
the spec; and an ill-formed term for each check of WellFormed. -/

open Sys2Proof Sys2Proof.Machine

namespace Sys2Proof.Tests

set_option Elab.async false

/-! ### States that the tests start from -/

/-- The state that a command answers. -/
def after (o : Host.Outcome State Fault Refusal) : State :=
  match o with
  | .next t => t
  | _ => State.reset

/-- A device in SERVICE with its firmware up, nothing undefined in its memories, and every byte 0. -/
def svc : State := { State.reset with dev := { mode := .service, fwUp := true, pwrok := true }, mem := {} }

/-- A state in another mode. -/
def inMode (m : Mode) (s : State) : State := { s with dev := { s.dev with mode := m } }

/-- A state with register words set. -/
def regs (l : List (Nat × Nat)) (s : State) : State := l.foldl (fun s p => rSet p.1 p.2 s) s

/-- Port A's function 0, port B's, and the I3C target as writers. -/
def wa : Writer := ⟨.portA, 0, 15⟩
def wi : Writer := ⟨.i3c, 0, 15⟩

/-- A job of instance 0 with two tasks in its one stage, one of them created. -/
def run1 : JobRec :=
  { inst := 0, ring := 0, kind := .run, kindBits := 0, intr := true, tag := 5, gen := 0, serial := 3, slot := 0,
    deadline := none, paramAddr := 0x40000, paramLen := 0, fragHost := false, nfrag := 0, fragAddr := 0, params := [],
    counts := [2], created := [[0]] }

/-- Its READY task in slot 0 of Panel 0, and its Pattern. -/
def task1 : TaskRec := { state := .ready, cls := 1, stealable := true, inst := 0, serial := 3, job := 0, runPocket := 0x1FF, noDl := true }
def pattern1 : PatSlot :=
  { state := .resident, stages := [⟨0, 0, 2, []⟩], templates := [⟨0, 100, 1, true, false, 0, 1, 0, 0, 0⟩] }

/-- A device with that job. -/
def job1 : State :=
  regs [(Reg.INST_CUFF_SLOTS 0, 4096), (Reg.INST_CUFF_SHARE 0, 4096), (Reg.INST_CUFF_JOBS 0, 16)]
    { svc with
      sched := { jobs := [(0, run1)], tasks := [(0, task1)] }
      pat := { slots := [(0, pattern1)] }
      seam := { running := true } }

/-- The same device with the task running on Pocket 0, which is in supervisor mode and past translation. -/
def pkt1 : State :=
  { job1 with
    sched := { job1.sched with tasks := [(0, { task1 with state := .running, runPocket := 0 })] }
    pkt := [(0, { task := some 0, priv := true, bare := true, pc := 0x100, tvec := 0x2000, ie := true })] }

/-! ### Chapters 02, 03 and the whole machine -/

theorem witness_StepRunsTheFrontCommand : State.reset.pending = [] := by decide

theorem witness_StepKeepsTheInvariant : State.reset.mem.ok := ⟨by decide, by decide, by decide⟩

theorem witness_ResetMeetsTheInvariant : pageOf Reg.DEV_PAGE = some (.dev, 0, 0) := by decide +kernel

/-- SEAM pages take writes; an edge in the window, one too early, and one with no lock. -/
theorem witness_SeamAndDispatcherFieldWrites_SeamNumberRead_SeamEdges :
    takes svc wa Reg.SEAM_PERIOD = true ∧ takes svc wi Reg.SEAM_TOL = true ∧ takes svc wa Reg.SEAM_NUM_LOAD = true ∧
    takes svc wa Reg.SCHED_CTRL = true ∧ setPending svc = false ∧
    setPending { svc with rf := { svc.rf with pend := [(Reg.SEAM_NUM_SET_LO, 5)] } } = true ∧ dead svc = false ∧
    (∀ lk ∈ [true, false], ∀ n ∈ [3191, 3192, 7992],
      let s := regs [(Reg.SEAM_CTRL, 1), (Reg.SEAM_PERIOD, 8000), (Reg.SEAM_TOL, 16)]
        { svc with now := n, seam := { running := true, locked := lk } }
      s.seam.running = true ∧ seamSrc s = true ∧ edgeInterval s = n + 8) := by decide +kernel

theorem witness_SeamStepsInOrder :
    job1.seam.running = true ∧ nextTick job1 = some (framePeriod job1) ∧
    (let s := regs [(Reg.SEAM_CTRL, 1)] { svc with seam := { running := true, locked := true } }
     s.seam.running = true ∧ seamSrc s = true ∧ s.seam.locked = true ∧ s.seam.edgeTick = none) ∧
    rBit svc Reg.SCHED_TRACE_CTRL 0 = false := by decide +kernel

theorem witness_NoExpressJobOutlivesItsFrame :
    (let s := { job1 with sched := { jobs := [(0, { run1 with kind := .express, deadline := some 7 })] } }
     jobOf s 0 = some { run1 with kind := .express, deadline := some 7 }) ∧
    (∀ k ∈ [0, 2],
      let r := { task1 with state := .running, budget := 1, since := 0, preempts := 2 }
      let s := regs [(Reg.SCHED_CTRL, 256 * k)] { job1 with now := 17, sched := { job1.sched with tasks := [(0, r)] } }
      rBit s Reg.SCHED_TRACE_CTRL 0 = false ∧ taskOf s 0 = r ∧ overBudget s r = true ∧ r.cls ≠ 3 ∧
      rFld s Reg.SCHED_CTRL 15 8 = k ∧ (jobOf s r.job).isSome = true) := by decide +kernel

theorem witness_TaskCreation_Decrements :
    (working job1 = true ∧ jobOf job1 0 = some run1 ∧ run1.bad = false ∧ run1.status = none ∧ run1.formed = false ∧
      jobSlot job1 run1 = some pattern1 ∧ nextMorsel job1 0 run1 pattern1.stages = some (0, 1) ∧
      instSlots job1 0 < rFld job1 (Reg.INST_CUFF_SLOTS 0) 16 0 ∧ (successors pattern1.stages 0 1).length ≤ 8 ∧
      (let n := placePanel (pattern1.templates.getD 0 ⟨0, 0, 0, false, false, 0, 0, 0, 0, 0⟩) run1.serial 1 2
       ∃ m, homeFor job1 n = some m ∧ ∃ k, freeSlot job1 m = some k)) ∧
    (∀ r ∈ [{ task1 with serial := 4 }, { task1 with dep := 0 }, { task1 with dep := 2 }, { task1 with dep := 1, state := .pending }],
      let s := { job1 with sched := { job1.sched with tasks := [(0, r)], decrs := [⟨0, 0, 3⟩] } }
      working s = true ∧ s.sched.decrs.find? (fun d => d.target / 2048 = 0) = some ⟨0, 0, 3⟩ ∧ slotBad s 0 = false ∧
      (decrStale r ⟨0, 0, 3⟩ = true ↔ r.serial = 4)) := by
  refine ⟨⟨by decide, by decide, rfl, rfl, rfl, by decide, by decide, by decide +kernel, by decide +kernel,
    ⟨4, by decide +kernel, 0, by decide +kernel⟩⟩, by decide +kernel⟩

/-- A job whose record has bad parity, and one whose first task has nine successors: its overflow list lies in device memory
that a descriptor at address 0 maps. -/
def wide1 : State :=
  regs [(Reg.HMC_CTRL 0, 0)] { job1 with
    sched := { jobs := [(0, { run1 with counts := [1, 9], created := [[], [0, 1, 2, 3, 4, 5, 6, 7, 8]], paramAddr := 0 })] }
    pat := { slots := [(0, { pattern1 with stages := [⟨0, 0, 1, []⟩, ⟨0, 0, 9, [⟨0, 3, 9⟩]⟩] })] }
    mem := { dev := [(0, 0x9F), (6, 0x10), (20, 1)] } }

theorem witness_TaskCreation_overflow :
    (let s := { job1 with sched := { jobs := [(0, { run1 with bad := true })] } }
     working s = true ∧ jobBad s 0 = true) ∧
    (let x := { run1 with counts := [1, 9], created := [[], [0, 1, 2, 3, 4, 5, 6, 7, 8]], paramAddr := 0 }
     let sl := { pattern1 with stages := [⟨0, 0, 1, []⟩, ⟨0, 0, 9, [⟨0, 3, 9⟩]⟩] }
     jobOf wide1 0 = some x ∧ jobSlot wide1 x = some sl ∧ nextMorsel wide1 0 x sl.stages = some (0, 0) ∧
      (successors sl.stages 0 0).length = 9 ∧ instSlots wide1 0 < rFld wide1 (Reg.INST_CUFF_SLOTS 0) 16 0 ∧
      (let n := placePanel (sl.templates.getD 0 ⟨0, 0, 0, false, false, 0, 0, 0, 0, 0⟩) x.serial 0 1
       ((homeFor wide1 n).bind (freeSlot wide1)).isSome = true) ∧
      (let nums := (successors sl.stages 0 0).map fun q => (recordOf wide1 0 q.1 q.2).getD 0xFFFF
       let a := x.paramAddr + sl.paramLen + kGet 0 (listParts sl.stages x.counts).1 0 + 0
       let s1 := setJob 0 { x with created := x.created.set 0 ((x.created.getD 0 []) ++ [0]) } wide1
       (vWrite (tlbCollar (instPort s1 x.inst)) x.inst a ((nums.drop 8).flatMap (toBytes 2)) s1).2 = stOK)) := by
  decide +kernel

theorem witness_SelectionIsMinimal_DispatchAndSteal :
    select job1 0 = some (0, task1) ∧ (∀ q ∈ readyTasks job1 0, q.2.age < 2 ^ 48 ∧ (q.2.age + 2 ^ 48 - 0) % 2 ^ 48 < 2 ^ 47) ∧
    working job1 = true ∧ pocketIdle job1 0 = true ∧ slotBad job1 0 = false ∧ rBit job1 Reg.SCHED_TRACE_CTRL 0 = false ∧
    jobOf job1 (taskOf job1 0).job = some run1 ∧ (taskOf job1 0).saved = false ∧
    select job1 1 = none ∧ pocketIdle job1 16 = true ∧
    (let s := regs [(Reg.SCHED_CTRL, 5)] svc
     maySteal s 1 = true ∧ freePocketOf s 1 = some 16 ∧ (candidates s 1).findSome? (fun m => (offer s m).map fun t => (m, t)) = none) ∧
    (let s := regs [(Reg.SCHED_CTRL, 5)] { job1 with
        sched := { job1.sched with tasks := (List.range 24).map fun k => (k, task1) }
        pkt := (List.range 16).map fun p => (p, { task := some 100 }) }
     maySteal s 1 = true ∧ freePocketOf s 1 = some 16 ∧
     ((candidates s 1).findSome? (fun m => (offer s m).map fun t => (m, t))).map (·.2.1) = some 23 ∧
     jobOf s (taskOf s 23).job = some run1 ∧ (taskOf s 23).saved = false) := by
  decide +kernel

/-- A saved task, the state in which it is dispatched, and what is read of its save area in HBM. -/
def resume1 : State :=
  regs [(Reg.HMC_CTRL 0, 0)] { job1 with sched := { job1.sched with tasks := [(0, { task1 with saved := true })] } }

def resumed1 : State :=
  bumpFrame (Reg.SCHED_SNAP_DISPATCH 0) 1 (setTask 0 { taskOf resume1 0 with state := .running, runPocket := 0, since := resume1.now }
    { resume1 with sched := { resume1.sched with roused := 0 :: resume1.sched.roused.filter (· ≠ 0) } })

def resumeRead : State × Nat × List Byte := meshRead (pocketInit 0 0 1) (saveArea resumed1 0) 8192 resumed1

def resumeKib : Nat := min 8 (ofBytes ((resumeRead.2.2.drop 0x11A0).take 8) % 16)

def resumeRead2 : State × Nat × List Byte := meshRead (pocketInit 0 0 1) (saveArea resumeRead.1 0 + 0x2000) (resumeKib * 1024) resumeRead.1

theorem witness_DispatchAndSteal_saved :
    select resume1 0 = some (0, { task1 with saved := true }) ∧ slotBad resume1 0 = false ∧ resumeRead.2.1 = stOK ∧
    resumeRead2.2.1 = stOK ∧ (physWrite (scratchAddr 0) resumeRead2.2.2 resumeRead2.1).2 = stOK := by
  have k : resumeKib = 0 := by decide +kernel
  have e : ∀ (i : Initiator) (a : Nat) (s : State), (meshRead i a (0 * 1024) s).2 = (stOK, []) := fun _ _ _ => rfl
  have f : ∀ s : State, (physWrite (scratchAddr 0) [] s).2 = stOK := fun _ => rfl
  have g : resumeRead2.2 = (stOK, []) := by unfold resumeRead2; rw [k]; exact e _ _ _
  refine ⟨by decide +kernel, by decide +kernel, by decide +kernel, by rw [g], ?_⟩
  rw [g]
  exact f _

theorem witness_CutsAndShares :
    (let s := { pkt1 with pkt := [(0, { pktOf pkt1 0 with cut := true, priv := false })] }
     working s = true ∧ (pktOf s 0).cut = true ∧ (pktOf s 0).ie = true ∧ (pktOf s 0).halted = false ∧ (pktOf s 0).wait = .none ∧
     (pktOf s 0).fill = none ∧ (pktOf s 0).nest = false ∧ (pktOf s 0).task = some 0) ∧
    (let s := { pkt1 with sched := { pkt1.sched with tasks := [(0, { task1 with state := .retiring, doomed := true, runPocket := 0 })] } }
     working s = true ∧ (pktOf s 0).task = some 0 ∧ (taskOf s 0).doomed = true) ∧
    (∀ l ∈ [[], [0]],
      let s := regs [(Reg.INST_CUFF_SHARE 0, 0)] { job1 with sched := { job1.sched with spent := l } }
      s.seam.running = true ∧ shareSpent s 0 = true ∧ (s.sched.spent.contains 0 = true ↔ l = [0])) := by
  decide +kernel

theorem witness_TaskRecordsAreTheirBytes :
    let t := { task1 with cls := 3, preempts := 255, gen := 255, inst := 1024, serial := 65535, dep := 65535, nsucc := 15,
                          ovfCount := 4095, deadline := 2 ^ 32 - 1, ovfAddr := 2 ^ 48 - 1, age := 2 ^ 48 - 1, runPocket := 511 }
    t.succ.length = 8 ∧ (∀ x ∈ t.succ, x < 2 ^ 16) ∧ taskOfBytes task1 (taskBytes t) = { t with job := 0, since := 0 } := by
  decide +kernel

theorem witness_PatternCommands_CuffWrites :
    takes job1 wa (Reg.INST_PAT_CMD 0) = true ∧ (patCmdOf job1 0).busy = false ∧ stagePending job1 (Reg.INST_PAT_PAGE 0) = false ∧
    slotOf (regs [(Reg.INST_PAT_SLOT 0, 1)] job1) 0 1 = none ∧ patSlotSel (regs [(Reg.INST_PAT_SLOT 0, 1)] job1) 0 = 1 ∧
    (let s := setPatCmd 0 { busy := true, slot := 1 } (setSlot 0 1 { state := .loading } job1)
     takes s wa (Reg.INST_PAT_CMD 0) = true ∧ (patCmdOf s 0).busy = true ∧ slotOf s 0 1 = some { state := .loading }) ∧
    slotOf job1 0 (patSlotSel job1 0) = some pattern1 ∧
    takes svc wa (Reg.INST_CUFF_PAGE 0 + 0x40) = true ∧ jobsReserved svc 0 + 16384 ≤ 16384 ∧
    16384 < jobsReserved job1 1 + 16384 := by decide +kernel

/-! ### Chapters 04 and 05: Pack Units and Scan Fronts -/

/-- A command block with the words given, by offset, and a command of the running task with it. Its block lies in Panel 0's
memory, and its windows are those of Pocket 0. -/
def block (l : List (Nat × Nat)) : List Byte := l.foldl (fun bs p => splice bs p.1 (toBytes 4 p.2)) (List.replicate 64 0)
def cmd (l : List (Nat × Nat)) : UnitCmd :=
  { block := panelAddr 0 + 0x20000, bytes := block l, task := 0, pocket := 0, inst := 0, job := 0, serial := 3, cls := 1,
    stage := 0, morsel := 0,
    win6 := kFind (windowRegs 0 0) 6, win7 := kFind (windowRegs 0 0) 7 }

/-- A segment context of the task over a segment at the start of the Panel window, with nothing pending. -/
def ctx1 : PackCtx :=
  { task := 0, inst := 0, job := 0, serial := 3, stage := 0, morsel := 0, seg := 0xFFE000001000, type := 5, check := 1, hist := false, nullable := false,
    lhfmt := false, scale := 0, dict := 0, cap := 65536, length := 64, values := 0, nulls := 0, tag := 1, range := none,
    blocks := [], prior := [], pend := [] }

/-- Pack Unit 0 with a command at its head and contexts. -/
def pack1 (l : List (Nat × Nat)) (ctx : KMap PackCtx) : State :=
  { pkt1 with packs := [(0, { queue := [cmd l], ctx := ctx })] }

theorem witness_PackUnitCommands_UnitResultWords :
    (∀ o ∈ [1, 2, 3, 4, 5, 6], PackFront o 0 (cmd [(0, o)]) [] (pack1 [(0, o)] [])) ∧
    (let l := [(0, 1 + 5 * 256 + 4096), (8, 0x1000), (12, 0xFFE0), (0x30, 4096)]
     let s := pack1 l []
     (packOf s 0).ctx.length < 8 ∧ packCtxOf s 0 0 = none ∧ packCtxOf (after (exec (.packOpen 0) s)) 0 0 ≠ none ∧
     8 ≤ (packOf (pack1 l ((List.range 8).map fun k => (k, ctx1))) 0).ctx.length) ∧
    (let s := pack1 [(0, 3)] [(0, ctx1)]
     ownCtx s 0 (cmd [(0, 3)]) = some ctx1 ∧ ctx1.pend = [] ∧ (closeSeg 0 (cmd [(0, 3)]) ctx1 s).2 = stOK) ∧
    (let l := [(0, 2), (4, 2), (0x10, 0x8000), (0x14, 0xFFE0)]
     let s := pack1 l [(0, ctx1)]
     (packOf s 0).taken = 0 ∧ ownCtx s 0 (cmd l) = some ctx1 ∧ bit ((cmd l).word 0) 7 = false ∧ (cmd l).quad 0x18 = 0 ∧
     0 < (cmd l).word 4 ∧ ctx1.pend.length + (cmd l).word 4 < 4096 ∧
     (uRead (packTlb 0) (cmd l) ((cmd l).quad 0x10) 16 s).2.1 = stOK ∧ inType 5 0 = true) ∧
    (let c := { cmd [(0, 2)] with dead := true }
     let s := { pkt1 with packs := [(0, { queue := [c], ctx := [(0, ctx1)] })] }
     (packOf s 0).queue = [c] ∧ cmdLive s c = false ∧ ownCtx s 0 c ≠ none) ∧
    (cmd []).block % 64 = 0 ∧ regionOf svc ((cmd []).block + 63) = .panel 0 (0x20000 + 63) ∧ delivers svc 0 = true := by
  unfold PackFront
  decide +kernel

/-- RECOVER over an open segment without blocks. -/
theorem witness_PackUnitCommands_recover :
    let l := [(0, 6), (8, 0x1000), (12, 0xFFE0)]
    let s := setBytes (panelAddr 0 + 0x21000) (hdrBytes (ctxHdr ctx1 true 64 0 1)) (pack1 l [])
    let r := uRead (packTlb 0) (cmd l) ((cmd l).quad 8) 64 s
    let h := hdrFields r.2.2
    let tag := (h.tag + 1 - h.tag % 2) % 2 ^ 32
    let r2 := uWrite (packTlb 0) (cmd l) ((cmd l).quad 8 + 0x34) (toBytes 4 tag) r.1
    let r3 := walkBlocks 0 (cmd l) ((cmd l).quad 8) h.length h.blocks 64 [] r2.1
    PackFront 6 0 (cmd l) [] s ∧ packCtxOf s 0 (packCtx (cmd l)) = none ∧ r.2.1 = stOK ∧ hdrGood r.2.2 = true ∧ h.isOpen = true ∧
    r2.2 = stOK ∧ r3.2.1 = stOK ∧
    (closeSeg 0 (cmd l) (ctxFrom (cmd l) h ((cmd l).quad 8) 1048576 r3.2.2 [] [] tag) r3.1).2 = stOK := by
  unfold PackFront
  decide +kernel

/-- Background jobs whose two tasks run: with 16 bytes of parameters that a descriptor at address 0 maps or none maps, with
too many fragments, and with none. -/
def bgTask (k : Nat) : TaskRec := { task1 with state := .running, runPocket := k, stage := k, morsel := 0 }

def background1 (slot nfrag param : Nat) : State :=
  regs [(Reg.HMC_CTRL 0, 0)] { job1 with
    sched := { jobs := [(0, { run1 with kind := .background, slot := slot, nfrag := nfrag, counts := [1, 1], created := [[0], [0]],
                                        paramAddr := param })]
               tasks := [(0, bgTask 0), (2048, bgTask 1)] }
    pkt := [(0, { task := some 0 }), (1, { task := some 2048 })]
    mem := { dev := [(0, 0x9F), (6, 0x10), (20, 1)] } }

theorem witness_BackgroundJobsEnd :
    (∀ k ∈ [1, 2], ∀ q ∈ [(0, 0), (4097, 0), (0, 2 ^ 47)],
      let s := background1 k q.1 q.2
      let x := { run1 with kind := .background, slot := k, nfrag := q.1, counts := [1, 1], created := [[0], [0]], paramAddr := q.2 }
      let r0 := jobFrags x s
      let r1 := uRead (packTlb (bgUnit s 0)) (bgCmd 0 x) x.paramAddr 16 r0.1
      working s = true ∧ jobOf s 0 = some x ∧ x.kind = .background ∧ bgRuns s 0 = true ∧ x.status = none ∧ x.formed = false ∧
      (r0.2.1 = stOK ↔ q.1 = 0) ∧ (r1.2.1 = stOK ↔ q.2 = 0) ∧ (∀ f ∈ r0.2.2, f.kind ≠ 0)) ∧
    (let s := background1 1 0 0
     jobTasks s 0 = [(0, bgTask 0), (2048, bgTask 1)] ∧ taskOf s 0 = bgTask 0 ∧ taskOf s 2048 = bgTask 1 ∧
     (∀ t ∈ [bgTask 0, bgTask 1], t.state = .running ∧ t.nsucc = 0 ∧ t.ovfCount = 0 ∧ allLines (pktOf s t.runPocket) = [] ∧
       (pktOf s t.runPocket).stores = []) ∧
     rBit s Reg.SCHED_TRACE_CTRL 0 = false ∧ (jobOf s 0).map (·.gen) = some (instOf s 0).gen) := by
  decide +kernel

/-- The domains are as they were, and no word of an SRAM has a parity error. -/
def sram (s : State) : Prop := s.noc = job1.noc ∧ s.mem.par = [] ∧ s.mem.soft = []

/-- No save base is committed besides. -/
def plain (s : State) : Prop :=
  kFind s.rf.val Reg.SCHED_SAVE_BASE_LO = none ∧ kFind s.rf.val Reg.SCHED_SAVE_BASE_HI = none ∧ sram s

theorem plain_saveBase {s : State} (h : plain s) : saveBaseSet s = false := by unfold saveBaseSet; rw [h.1, h.2.1]; rfl

theorem sram_delivers {s : State} (h : sram s) : delivers s 0 = true := by
  unfold delivers domOf; rw [h.1]; decide

theorem plain_rSet {a : Nat} (v : Nat) {s : State} (h : plain s) (g1 : a ≠ Reg.SCHED_SAVE_BASE_LO) (g2 : a ≠ Reg.SCHED_SAVE_BASE_HI) :
    plain (rSet a v s) := ⟨(kFind_kSet_ne g1).trans h.1, (kFind_kSet_ne g2).trans h.2.1, h.2.2⟩

/-- Counts of the open frame alone change. -/
def sameButFrame (s t : State) : Prop := ∃ f, t = { s with rf := { s.rf with frame := f } }

theorem sameButFrame.refl (s : State) : sameButFrame s s := ⟨s.rf.frame, rfl⟩

theorem sameButFrame.trans {r s t : State} (h : sameButFrame r s) (g : sameButFrame s t) : sameButFrame r t := by
  obtain ⟨f, rfl⟩ := h; obtain ⟨g, rfl⟩ := g; exact ⟨g, rfl⟩

theorem statAdd_frame (st sub k n : Nat) (s : State) : sameButFrame s (statAdd st sub k n s) := by
  unfold statAdd; split
  · exact ⟨_, rfl⟩
  · exact .refl s

theorem transact_frame (p : Packet) (st : Nat) (d : List Byte) (s : State) : sameButFrame s (transact p st d s) := by
  have q : ∀ (p : Packet) (s : State), sameButFrame s (statRequest p s) := by
    intro p s; unfold statRequest; split
    · exact .refl s
    · dsimp only; split
      · exact (statAdd_frame _ _ _ _ _).trans (statAdd_frame _ _ _ _ _)
      · exact statAdd_frame _ _ _ _ _
  have r : ∀ (p : Packet) (s : State), sameButFrame s (statResponse p s) := by
    intro p s; unfold statResponse; split
    · exact statAdd_frame _ _ _ _ _
    · exact .refl s
  have l : ∀ (a b n : Nat) (s : State), sameButFrame s (statLatency a b n s) := by
    intro a b n s; unfold statLatency; split
    · exact .refl s
    · exact ((statAdd_frame _ _ _ _ _).trans (statAdd_frame _ _ _ _ _)).trans ⟨_, rfl⟩
  unfold transact; split
  · exact .refl s
  · dsimp only; split
    · exact q _ _
    · exact (q _ _).trans ((r _ _).trans (l _ _ _ _))

theorem meshAccess_frame (i : Initiator) (ty a n st : Nat) (d b : List Byte) (s : State) :
    sameButFrame s (meshAccess i ty a n st d b s) := by
  unfold meshAccess; split
  · exact .refl s
  · exact transact_frame _ _ _ _

theorem plain_frame {s t : State} (h : plain s) (g : sameButFrame s t) : plain t ∧ t.mem = s.mem := by
  obtain ⟨f, rfl⟩ := g; exact ⟨h, rfl⟩

theorem regionOf_panel0 (s : State) {a : Nat} (h0 : 0x040000000000 ≤ a) (h1 : a < 0x040000200000) :
    regionOf s a = .panel 0 (a - 0x040000000000) := by
  unfold regionOf
  have e1 : 8 * stopBytes ≤ 0x010000000000 := by decide
  have e2 : ∀ x y : Nat, ¬(x ≤ a ∧ a < y) → ¬((decide (x ≤ a) && decide (a < y)) = true) := by
    intro x y h k; rw [Bool.and_eq_true, decide_eq_true_eq, decide_eq_true_eq] at k; exact h k
  have e3 : (decide (0x040000000000 ≤ a) && decide (a < 0x042000000000)) = true := by
    rw [Bool.and_eq_true, decide_eq_true_eq, decide_eq_true_eq]; omega
  rewrite [if_neg (by omega), if_neg (e2 _ _ (by omega)), if_neg (e2 _ _ (by omega)), if_pos e3]
  simp only
  rewrite [if_pos (by omega)]
  have e5 : (a - 0x040000000000) / 2 ^ 32 = 0 := by omega
  have e6 : a % 2 ^ 32 = a - 0x040000000000 := by omega
  rewrite [e5, e6]
  rfl

theorem mem_pieces {a n : Nat} {p : Nat × Nat} (h : p ∈ pieces a n) : a ≤ p.1 ∧ p.1 < a + n ∧ p.1 + p.2 ≤ a + n := by
  unfold pieces at h
  split at h
  · simp at h
  · simp only [List.mem_map, List.mem_range] at h
    obtain ⟨i, hi, rfl⟩ := h
    simp only
    omega

/-- Bytes of Panel 0's memory, above its task slots, are written to its cells. -/
theorem sram_setBytes (bs : List Byte) : ∀ (a : Nat) (s : State), sram s → 0x040000020000 ≤ a →
    a + bs.length ≤ 0x040000200000 → sram (setBytes a bs s) ∧ (setBytes a bs s).rf = s.rf := by
  induction bs with
  | nil => intro a s h _ _; exact ⟨h, rfl⟩
  | cons b bs ih =>
    intro a s h h0 h1
    rw [List.length_cons] at h1
    have e : setByte a b s = setCell a b s := by
      unfold setByte
      rw [regionOf_panel0 s (by omega) (by omega)]
      simp only
      rw [if_neg (by omega)]
    have k := ih (a + 1) (setByte a b s) (by rw [e]; exact h) (by omega) (by omega)
    exact ⟨k.1, k.2.trans (by rw [e]; rfl)⟩

theorem physWrite_panel0 (a : Nat) (bs : List Byte) (s : State) (hs : sram s) (h0 : 0x040000020000 ≤ a)
    (h1 : a + bs.length ≤ 0x040000200000) : ∃ t, physWrite a bs s = (t, stOK) ∧ sram t ∧ t.rf = s.rf := by
  unfold physWrite
  have key : ∀ (ps : List (Nat × Nat)) (s : State), sram s → (∀ p ∈ ps, a ≤ p.1 ∧ p.1 < a + bs.length ∧ p.1 + p.2 ≤ a + bs.length) →
      ∃ t, ps.foldl (fun (r : State × Nat) p =>
        if r.2 ≠ stOK then r else
        let t := lineAccess true p.1 p.2 r.1
        if t.2 ≠ stOK then t
        else (setBytes p.1 ((bs.drop (p.1 - a)).take p.2) t.1, stOK)) (s, stOK) = (t, stOK) ∧ sram t ∧ t.rf = s.rf := by
    intro ps
    induction ps with
    | nil => intro s h _; exact ⟨s, rfl, h, rfl⟩
    | cons p ps ih =>
      intro s h hp
      have hp0 := hp p (by simp)
      have hl : lineAccess true p.1 p.2 s = (s, stOK) := by
        unfold lineAccess
        rw [regionOf_panel0 s (by omega) (by omega)]
        simp [sram_delivers h, parityWrite, h.2.1, h.2.2]
      rw [List.foldl_cons]
      simp only [ne_eq, not_true_eq_false, if_false, hl]
      have k := sram_setBytes ((bs.drop (p.1 - a)).take p.2) p.1 s h (by omega) (by rw [List.length_take, List.length_drop]; omega)
      obtain ⟨t, e, g, f⟩ := ih _ k.1 fun q hq => hp q (by simp [hq])
      exact ⟨t, e, g, f.trans k.2⟩
  exact key _ _ hs fun p hp => mem_pieces hp

theorem meshWrite_panel0 (i : Initiator) (a : Nat) (bs : List Byte) (s : State) (hs : plain s) (h0 : 0x040000020000 ≤ a)
    (h1 : a + bs.length ≤ 0x040000200000) : ∃ t, meshWrite i a bs s = (t, stOK) ∧ plain t := by
  obtain ⟨t, e, k, f⟩ := physWrite_panel0 a bs s hs.2.2 h0 h1
  unfold meshWrite
  rw [e]
  have p : plain t := ⟨by rw [f]; exact hs.1, by rw [f]; exact hs.2.1, k⟩
  exact ⟨_, rfl, (plain_frame p (meshAccess_frame _ _ _ _ _ _ _ _)).1⟩

/-- The count of an access in Panel 0 moves no other register. -/
theorem countStream_panel0 (a : Nat) (s : State) (hs : plain s) (h0 : 0x040000000000 ≤ a) (h1 : a < 0x040000200000) :
    plain (countStream a s) ∧ (countStream a s).mem = s.mem := by
  unfold countStream
  rw [regionOf_panel0 s h0 h1]
  exact ⟨plain_rSet _ hs (by decide) (by decide), rfl⟩

theorem uTranslate_window (l : List (Nat × Nat)) (va : Nat) (acc : Acc) (s : State) (hs : plain s) (ha : acc = accRead ∨ acc = accWrite)
    (h0 : 0xFFE000001000 ≤ va) (h1 : va < 0xFFE0001E0000) :
    uTranslate (packTlb 0) (cmd l) va acc s = (s, stOK, panelAddr 0 + 0x20000 + (va - 0xFFE000000000)) := by
  have hw : (cmd l).win6 = kFind (windowRegs 0 0) 6 := rfl
  have hw2 : ∃ r, kFind (windowRegs 0 0) 6 = some r ∧ r.desc.voff = 0 ∧ r.desc.len = 30 ∧ r.desc.base = 67108866 ∧ r.desc.v = true ∧
      r.lo = 0 ∧ 30 * 65536 ≤ r.hi ∧ rights false accWrite r.desc = stOK ∧ rights false accRead r.desc = stOK :=
    ⟨_, rfl, by decide, by decide, by decide, by decide, by decide, by decide, by decide, by decide⟩
  obtain ⟨r, hr, v0, v1, v2, v3, v4, v5, v6, v7⟩ := hw2
  have v8 : rights false acc r.desc = stOK := by rcases ha with rfl | rfl <;> assumption
  unfold uTranslate
  rw [if_neg (by omega)]
  simp only
  rw [if_pos (by omega), hw, hr]
  simp only
  have hq : regionPlace s false acc r (va % 2 ^ 36) = (stOK, panelAddr 0 + 0x20000 + (va - 0xFFE000000000)) := by
    unfold regionPlace placeIn
    simp only [v0, v1, v2, v3, v4, v8]
    have e1 : panelAddr 0 = 0x040000000000 := by decide
    have e4 : ¬((!true || decide (va % 2 ^ 36 < 0) || decide (r.hi ≤ va % 2 ^ 36)) = true) := by
      rw [Bool.or_eq_true, Bool.or_eq_true, decide_eq_true_eq, decide_eq_true_eq]
      intro h
      rcases h with (h | h) | h
      · exact absurd h (by decide)
      · omega
      · omega
    have e5 : ¬(decide (va % 2 ^ 36 < 0 * 65536) || decide ((0 + 30) * 65536 ≤ va % 2 ^ 36)) = true := by
      rw [Bool.or_eq_true, decide_eq_true_eq, decide_eq_true_eq]; omega
    rewrite [if_neg e4, if_neg e5, if_neg (fun h => h rfl)]
    have ea : 67108866 * 65536 + (va % 2 ^ 36 - 0 * 65536) = panelAddr 0 + 0x20000 + (va - 0xFFE000000000) := by omega
    rw [ea]
    have es : slotSpace s (panelAddr 0 + 0x20000 + (va - 0xFFE000000000)) = false := by
      unfold slotSpace
      rw [regionOf_panel0 s (by omega) (by omega), plain_saveBase hs]
      have e4 : decide (panelAddr 0 + 0x20000 + (va - 0xFFE000000000) - 0x040000000000 < 0x20000) = false := decide_eq_false (by omega)
      simp only [e4]
      rfl
    rw [es]
    simp
  rw [hq]

/-- A write through the Panel window of the test command ends OK. -/
theorem uWrite_window (l : List (Nat × Nat)) (va : Nat) (bs : List Byte) (s : State) (hs : plain s)
    (h0 : 0xFFE000001000 ≤ va) (h1 : va + bs.length ≤ 0xFFE0001C0000) :
    ∃ t, uWrite (packTlb 0) (cmd l) va bs s = (t, stOK) ∧ plain t := by
  unfold uWrite uWriteTo
  have key : ∀ (ps : List (Nat × Nat)) (s : State) (n : Nat), plain s →
      (∀ p ∈ ps, va ≤ p.1 ∧ p.1 < va + bs.length ∧ p.1 + p.2 ≤ va + bs.length) →
      ∃ t m, ps.foldl (fun (r : State × Nat × Nat) p =>
        if r.2.1 ≠ stOK then r else
        let (s, st, a) := uTranslate (packTlb 0) (cmd l) p.1 accWrite r.1
        if st ≠ stOK then (s, st, r.2.2) else
        let (s, st) := meshWrite (unitInit s (packTlb 0) (cmd l)) a ((bs.drop (p.1 - va)).take p.2) s
        (countStream a s, st, if st = stOK then r.2.2 + p.2 else r.2.2)) (s, stOK, n) = (t, stOK, m) ∧ plain t := by
    intro ps
    induction ps with
    | nil => intro s n h _; exact ⟨s, n, rfl, h⟩
    | cons p ps ih =>
      intro s n h hp
      have hp0 := hp p (by simp)
      have e1 : panelAddr 0 = 0x040000000000 := by decide
      obtain ⟨t, ht, k⟩ := meshWrite_panel0 (unitInit s (packTlb 0) (cmd l)) (panelAddr 0 + 0x20000 + (p.1 - 0xFFE000000000))
        ((bs.drop (p.1 - va)).take p.2) s h (by omega) (by simp only [List.length_take, List.length_drop]; omega)
      rw [List.foldl_cons]
      simp only [ne_eq, not_true_eq_false, if_false, uTranslate_window l p.1 accWrite s h (.inr rfl) (by omega) (by omega), ht]
      exact ih _ _ (countStream_panel0 _ t k (by omega) (by omega)).1 fun q hq => hp q (by simp [hq])
  obtain ⟨t, m, e, k⟩ := key _ s 0 hs fun p hp => mem_pieces hp
  rw [e]
  exact ⟨t, rfl, k⟩

/-- SAVE of a context with nothing pending, its staging area and state record in the Panel window. -/
theorem witness_PackUnitCommands_save :
    let l := [(0, 4), (0x20, 0x20000), (0x24, 0xFFE0), (0x28, 0x10000), (0x2C, 0xFFE0)]
    let c := cmd l
    let s := pack1 l [(0, ctx1)]
    (working s = true ∧ pageEn s (Reg.PACK_PAGE 0) = true ∧ cmdLive s c = true ∧ (packOf s 0).queue = [c] ∧ packOp c = 4 ∧
      ownCtx s 0 c = some ctx1 ∧ c.quad 0x20 % 64 = 0 ∧ c.quad 0x28 % 64 = 0) ∧
    ∃ s1 s2 s3, stageOut 0 c (c.quad 0x28) ctx1.pend s = (s1, stOK) ∧
      uWrite (packTlb 0) c (c.quad 0x20) (stateRecord ctx1 (c.quad 0x28) 2) s1 = (s2, stOK) ∧
      uWrite (packTlb 0) c (ctx1.seg + 0x34) (toBytes 4 2) s2 = (s3, stOK) := by
  refine ⟨by decide +kernel, ?_⟩
  obtain ⟨s1, h1, k1⟩ := uWrite_window [(0, 4), (0x20, 0x20000), (0x24, 0xFFE0), (0x28, 0x10000), (0x2C, 0xFFE0)] 0xFFE000010000
    (List.replicate 0x8000 0 ++ toBytes 512 0) (pack1 [(0, 4), (0x20, 0x20000), (0x24, 0xFFE0), (0x28, 0x10000), (0x2C, 0xFFE0)] [(0, ctx1)])
    ⟨by decide +kernel, by decide +kernel, rfl, rfl, rfl⟩ (by decide) (by rw [List.length_append, List.length_replicate]; decide +kernel)
  have q2 : (cmd [(0, 4), (0x20, 0x20000), (0x24, 0xFFE0), (0x28, 0x10000), (0x2C, 0xFFE0)]).quad 0x28 = 0xFFE000010000 := by decide +kernel
  have q1 : (cmd [(0, 4), (0x20, 0x20000), (0x24, 0xFFE0), (0x28, 0x10000), (0x2C, 0xFFE0)]).quad 0x20 = 0xFFE000020000 := by decide +kernel
  obtain ⟨s2, h2, k2⟩ := uWrite_window [(0, 4), (0x20, 0x20000), (0x24, 0xFFE0), (0x28, 0x10000), (0x2C, 0xFFE0)] 0xFFE000020000
    (stateRecord ctx1 0xFFE000010000 2) s1 k1 (by decide) (by decide +kernel)
  obtain ⟨s3, h3, _⟩ := uWrite_window [(0, 4), (0x20, 0x20000), (0x24, 0xFFE0), (0x28, 0x10000), (0x2C, 0xFFE0)] (ctx1.seg + 0x34)
    (toBytes 4 2) s2 k2 (by decide) (by decide +kernel)
  refine ⟨s1, s2, s3, ?_, ?_, h3⟩
  · rw [q2]; exact h1
  · rw [q1, q2]; exact h2

theorem physRead_panel0 (a n : Nat) (s : State) (hs : plain s) (h0 : 0x040000020000 ≤ a) (h1 : a + n ≤ 0x040000200000) :
    ∃ bs, physRead a n s = (s, stOK, bs) := by
  unfold physRead
  have key : ∀ (ps : List (Nat × Nat)), (∀ p ∈ ps, a ≤ p.1 ∧ p.1 < a + n ∧ p.1 + p.2 ≤ a + n) →
      ps.foldl (fun (r : State × Nat) p => if r.2 = stOK then lineAccess false p.1 p.2 r.1 else r) (s, stOK) = (s, stOK) := by
    intro ps
    induction ps with
    | nil => intro _; rfl
    | cons p ps ih =>
      intro hp
      have hp0 := hp p (by simp)
      have hl : lineAccess false p.1 p.2 s = (s, stOK) := by
        unfold lineAccess
        rw [regionOf_panel0 s (by omega) (by omega)]
        simp [sram_delivers hs.2.2, panelRead, parityRead, parityWords, hs.2.2.2.1, hs.2.2.2.2]
      rw [List.foldl_cons]
      simp only [if_true, hl]
      exact ih fun q hq => hp q (by simp [hq])
  rw [key _ fun p hp => mem_pieces hp]
  exact ⟨_, rfl⟩

/-- A read through the Panel window of the test command ends OK and moves no memory. -/
theorem uRead_window (l : List (Nat × Nat)) (va n : Nat) (s : State) (hs : plain s)
    (h0 : 0xFFE000001000 ≤ va) (h1 : va + n ≤ 0xFFE0001C0000) :
    ∃ t bs, uRead (packTlb 0) (cmd l) va n s = (t, stOK, bs) ∧ plain t ∧ t.mem = s.mem := by
  unfold uRead
  have key : ∀ (ps : List (Nat × Nat)) (s : State) (bs : List Byte), plain s →
      (∀ p ∈ ps, va ≤ p.1 ∧ p.1 < va + n ∧ p.1 + p.2 ≤ va + n) →
      ∃ t cs, ps.foldl (fun (r : State × Nat × List Byte) p =>
        if r.2.1 ≠ stOK then r else
        let (s, st, a) := uTranslate (packTlb 0) (cmd l) p.1 accRead r.1
        if st ≠ stOK then (s, st, r.2.2) else
        let (s, st, bs) := meshRead (unitInit s (packTlb 0) (cmd l)) a p.2 s
        (countStream a s, st, if st = stOK then r.2.2 ++ bs else r.2.2)) (s, stOK, bs) = (t, stOK, cs) ∧ plain t ∧ t.mem = s.mem := by
    intro ps
    induction ps with
    | nil => intro s bs k _; exact ⟨s, bs, rfl, k, rfl⟩
    | cons p ps ih =>
      intro s bs hs hp
      have hp0 := hp p (by simp)
      have e1 : panelAddr 0 = 0x040000000000 := by decide
      obtain ⟨cs, hc⟩ := physRead_panel0 (panelAddr 0 + 0x20000 + (p.1 - 0xFFE000000000)) p.2 s hs (by omega) (by omega)
      have m := plain_frame hs (meshAccess_frame (unitInit s (packTlb 0) (cmd l)) 0 (panelAddr 0 + 0x20000 + (p.1 - 0xFFE000000000)) p.2 stOK
        [] cs s)
      have k := countStream_panel0 (panelAddr 0 + 0x20000 + (p.1 - 0xFFE000000000)) _ m.1 (by omega) (by omega)
      obtain ⟨t, ds, e, k1, k2⟩ := ih _ (bs ++ cs) k.1 fun q hq => hp q (by simp [hq])
      refine ⟨t, ds, ?_, k1, k2.trans (k.2.trans m.2)⟩
      rw [← e, List.foldl_cons]
      simp only [ne_eq, not_true_eq_false, if_false, uTranslate_window l p.1 accRead s hs (.inl rfl) (by omega) (by omega), meshRead, hc, if_true]
  exact key _ _ _ hs fun p hp => mem_pieces hp

/-- A device in whose Panel window lie the state record and segment that a SAVE of a context with nothing pending leaves. -/
def restoreCmd : List (Nat × Nat) := [(0, 5), (0x20, 0x20000), (0x24, 0xFFE0)]
def cellsAt (a : Nat) (l : List (Nat × Byte)) : List Host.Cell := l.map fun p => (panelAddr 0 + a + p.1, p.2)
def savedHdr : List (Nat × Byte) :=
  [(0, 71), (1, 67), (2, 80), (3, 77), (5, 1), (6, 21), (7, 2), (8, 64), (52, 2), (60, 130), (61, 11), (62, 100), (63, 82)]
def savedRec : List (Nat × Byte) :=
  [(0, 84), (1, 83), (2, 80), (3, 77), (4, 1), (5, 21), (9, 16), (12, 224), (13, 255), (16, 64), (34, 1), (36, 224), (37, 255), (42, 1),
   (44, 2), (252, 209), (253, 69), (254, 38), (255, 17)]
def saved1 : State := { pack1 restoreCmd [] with mem := { dev := cellsAt 0x21000 savedHdr ++ cellsAt 0x40000 savedRec } }

/-- A segment whose tag the record does not hold, and the one whose tag it does hold. -/
theorem witness_PackUnitCommands_claim :
    ∀ k ∈ [2, 4],
      let s := { saved1 with mem := { dev := cellsAt 0x21000 (savedHdr.map fun p => if p.1 = 52 then (52, BitVec.ofNat 8 k) else p)
                                             ++ cellsAt 0x40000 savedRec } }
      let c := cmd restoreCmd
      let r1 := uRead (packTlb 0) c (c.quad 0x20) 256 s
      let rc := r1.2.2
      let r2 := uRead (packTlb 0) c (numAt rc 8 8) 64 r1.1
      let h := hdrFields r2.2.2
      PackFront 5 0 c [] s ∧ (packOf s 0).ctx.length < 8 ∧ packCtxOf s 0 (packCtx c) = none ∧ c.quad 0x20 % 64 = 0 ∧ r1.2.1 = stOK ∧
      numAt rc 0 4 = 0x4D505354 ∧ numAt rc 0xFC 4 = crc32c (rc.take 252) ∧ r2.2.1 = stOK ∧ h.isOpen = true ∧
      h.length = numAt rc 0x10 4 ∧ h.blocks = fld (numAt rc 0x14 4) 12 0 ∧ (h.tag = numAt rc 0x2C 4 ↔ k = 2) := by
  unfold PackFront
  decide +kernel

/-- RESTORE of a record with no committed block and nothing pending. -/
theorem packRestoreX_empty (u : Nat) (c : UnitCmd) (s p1 p2 p3 s2 : State) (rc hb sg : List Byte) (h : SegHdr) (seg : Nat)
    (k1 : ¬8 ≤ (packOf s u).ctx.length) (k2 : ¬((packCtxOf s u (packCtx c)).isSome || c.quad 0x20 % 64 ≠ 0) = true)
    (h1 : uRead (packTlb u) c (c.quad 0x20) 256 s = (p1, stOK, rc)) (e1 : numAt rc 8 8 = seg)
    (g1 : ¬(numAt rc 0 4 ≠ 0x4D505354 || numAt rc 0xFC 4 ≠ crc32c (rc.take 252)) = true)
    (h2 : uRead (packTlb u) c seg 64 p1 = (p2, stOK, hb)) (e2 : hdrFields hb = h)
    (g2 : ¬(!h.isOpen || h.length ≠ numAt rc 0x10 4 || h.blocks ≠ fld (numAt rc 0x14 4) 12 0) = true) (g3 : ¬h.tag ≠ numAt rc 0x2C 4)
    (h3 : uRead (packTlb u) c (numAt rc 0x20 8) 33280 p2 = (p3, stOK, sg)) (e3 : h.blocks = 0) (e4 : fld (numAt rc 0x1C 4) 11 0 = 0)
    (h4 : uWrite (packTlb u) c (seg + 0x34) (toBytes 4 ((h.tag + 1) % 2 ^ 32)) p3 = (s2, stOK)) :
    packRestoreX u c s = packEnd u c seg stOK 0 0 0 0
      (setPackCtx u (packCtx c) (ctxFrom c h seg (numAt rc 0x28 4) [] (priorFrom rc 0 []) [] ((h.tag + 1) % 2 ^ 32)) s2) := by
  have e5 : ¬stOK ≠ stOK := fun h => h rfl
  unfold packRestoreX
  rw [if_neg k1, if_neg k2, h1]
  dsimp only
  rw [if_neg e5, if_neg g1, e1, h2]
  dsimp only
  rw [if_neg e5, e2, if_neg g2, if_neg g3, h3]
  dsimp only
  rw [if_neg e5, e3, e4]
  simp only [walkBlocks, lastValues, List.getLast?_nil, if_neg e5, h4, List.range_zero, List.map_nil]

/-- RESTORE binds a context from them. -/
theorem witness_PackUnitCommands_restore :
    (working saved1 = true ∧ pageEn saved1 (Reg.PACK_PAGE 0) = true ∧ cmdLive saved1 (cmd restoreCmd) = true ∧
      (packOf saved1 0).queue = [cmd restoreCmd] ∧ packOp (cmd restoreCmd) = 5 ∧ packCtxOf saved1 0 (packCtx (cmd restoreCmd)) = none) ∧
    ∃ t x, exec (.packRestore 0) saved1 = .next t ∧ packCtxOf t 0 (packCtx (cmd restoreCmd)) = some x := by
  refine ⟨by decide +kernel, ?_⟩
  have hs : plain saved1 := ⟨by decide +kernel, by decide +kernel, rfl, rfl, rfl⟩
  have e0 : (cmd restoreCmd).quad 0x20 = 0xFFE000020000 := by decide +kernel
  obtain ⟨p1, rc, h1, hs1, m1⟩ := uRead_window restoreCmd 0xFFE000020000 256 saved1 hs (by decide) (by decide)
  have q1 : p1 = (uRead (packTlb 0) (cmd restoreCmd) 0xFFE000020000 256 saved1).1 := by rw [h1]
  have r1 : rc = (uRead (packTlb 0) (cmd restoreCmd) 0xFFE000020000 256 saved1).2.2 := by rw [h1]
  have e1 : numAt rc 8 8 = 0xFFE000001000 := by rw [r1]; decide +kernel
  obtain ⟨p2, hb, h2, hs2, m2⟩ := uRead_window restoreCmd 0xFFE000001000 64 p1 hs1 (by decide) (by decide)
  have r2 : hb = (uRead (packTlb 0) (cmd restoreCmd) 0xFFE000001000 64 p1).2.2 := by rw [h2]
  have e2 : numAt rc 0x20 8 = 0xFFE000010000 := by rw [r1]; decide +kernel
  obtain ⟨p3, sg, h3, hs3, _⟩ := uRead_window restoreCmd 0xFFE000010000 33280 p2 hs2 (by decide) (by decide)
  have g1 : ¬(numAt rc 0 4 ≠ 0x4D505354 || numAt rc 0xFC 4 ≠ crc32c (rc.take 252)) = true := by rw [r1]; decide +kernel
  have g3 : hdrFields hb = ctxHdr ctx1 true 64 0 2 := by rw [r2, q1]; decide +kernel
  have g2 : ¬(!(ctxHdr ctx1 true 64 0 2).isOpen || (ctxHdr ctx1 true 64 0 2).length ≠ numAt rc 0x10 4 ||
      (ctxHdr ctx1 true 64 0 2).blocks ≠ fld (numAt rc 0x14 4) 12 0) = true := by rw [r1]; decide +kernel
  have g4 : ¬(ctxHdr ctx1 true 64 0 2).tag ≠ numAt rc 0x2C 4 := by rw [r1]; decide +kernel
  have g5 : fld (numAt rc 0x1C 4) 11 0 = 0 := by rw [r1]; decide +kernel
  obtain ⟨s2, h4, _⟩ := uWrite_window restoreCmd (0xFFE000001000 + 0x34) (toBytes 4 (((ctxHdr ctx1 true 64 0 2).tag + 1) % 2 ^ 32)) p3 hs3
    (by decide) (by decide +kernel)
  have run : packRun 0 5 (packRestoreX 0) saved1 = packRestoreX 0 (cmd restoreCmd) saved1 := by
    unfold packRun
    rw [show (packOf saved1 0).queue = [cmd restoreCmd] by decide +kernel]
    simp only
    rw [if_neg (by decide +kernel), if_neg (by decide +kernel), if_neg (by decide +kernel), if_pos (by decide +kernel)]
  refine ⟨packRestoreX 0 (cmd restoreCmd) saved1, ?_⟩
  suffices h : ∃ x, packCtxOf (packRestoreX 0 (cmd restoreCmd) saved1) 0 (packCtx (cmd restoreCmd)) = some x by
    obtain ⟨x, hx⟩ := h
    exact ⟨x, by rw [← run]; rfl, hx⟩
  have h1' : uRead (packTlb 0) (cmd restoreCmd) ((cmd restoreCmd).quad 0x20) 256 saved1 = (p1, stOK, rc) := by rw [e0]; exact h1
  have h3' : uRead (packTlb 0) (cmd restoreCmd) (numAt rc 0x20 8) 33280 p2 = (p3, stOK, sg) := by rw [e2]; exact h3
  rw [packRestoreX_empty 0 (cmd restoreCmd) saved1 p1 p2 p3 s2 rc hb sg _ _ (by decide +kernel) (by decide +kernel) h1' e1 g1 h2 g3 g2 g4 h3' rfl
    g5 h4]
  refine ⟨_, (?_ : _ = some (ctxFrom (cmd restoreCmd) (ctxHdr ctx1 true 64 0 2) 0xFFE000001000 (numAt rc 0x28 4) [] (priorFrom rc 0 []) []
    (((ctxHdr ctx1 true 64 0 2).tag + 1) % 2 ^ 32)))⟩
  unfold packEnd
  simp only [if_true]
  rw [if_neg (by decide), if_neg (by decide)]
  have k : ∀ (a b d e : Option Nat) (y : State), (uResult (packTlb 0) (cmd restoreCmd) a b d e y).packs = y.packs := fun a b d e y =>
    ((keeps_uResult (L := fun c => c ≠ .packs) (packTlb 0) (cmd restoreCmd) a b d e y (Keeps.refl y) (by simp) (by simp) (by simp) (by simp) (by simp)
      (by simp) (by simp) (by simp) (by simp) (by simp) (by simp) (by simp)).7 .packs).elim id (by simp)
  unfold packCtxOf packOf
  rw [k]
  unfold setPackCtx setPack
  simp [packOf]

/-! How long an encoded block can be, so that its write can be followed without encoding it. -/

theorem padTo_length (bs : List Byte) : (padTo 8 bs).length ≤ bs.length + 8 := by
  unfold padTo; rw [List.length_append, List.length_replicate]; omega

theorem toBytes_length (n : Nat) : ∀ v, (toBytes n v).length = n := by
  induction n with
  | zero => intro v; rfl
  | succ n ih => intro v; simp [toBytes, ih]

theorem misfits_length (w : Nat) (rs : List Nat) : (misfits w rs).length ≤ rs.length := by
  unfold misfits
  refine Nat.le_trans (List.length_filter_le _ _) ?_
  rw [List.length_zip]; omega

theorem laneWidth_le (rs : List Nat) : laneWidth rs ≤ 64 := by
  unfold laneWidth
  have key : ∀ (ws : List Nat) (b : Option (Nat × Nat)), (∀ w ∈ ws, w ≤ 64) → (∀ q, b = some q → q.1 ≤ 64) →
      (ws.foldl (fun (b : Option (Nat × Nat)) w =>
        let n := 4 * w + 9 * (misfits w rs).length
        match b with
        | none => some (w, n)
        | some (_, m) => if n ≤ m then some (w, n) else b) b).elim 64 (·.1) ≤ 64 := by
    intro ws
    induction ws with
    | nil => intro b _ h; cases b with
      | none => exact Nat.le_refl _
      | some q => exact h q rfl
    | cons w ws ih =>
      intro b hw h
      refine ih _ (fun w h => hw w (by simp [h])) ?_
      have h0 := hw w (by simp)
      intro q
      cases b with
      | none => intro e; cases e; exact h0
      | some r =>
        dsimp only
        split
        · intro e; cases e; exact h0
        · intro e; exact h q e
  refine key _ none ?_ (by intro q e; cases e)
  intro w h
  have := List.mem_range.mp (List.mem_filter.mp h).1
  omega

theorem lanePayload_length (w : Nat) (rs : List Nat) : (lanePayload w rs).length ≤ 4 * w + 9 * rs.length := by
  unfold lanePayload
  simp only [List.length_append, toBytes_length, List.length_flatMap]
  have e : ∀ l : List (Nat × Nat), (List.map (fun p : Nat × Nat => 1 + 8) l).sum = 9 * l.length := by
    intro l; induction l with
    | nil => rfl
    | cons a l ih => simp only [List.map_cons, List.sum_cons, List.length_cons, ih]; omega
  have h := misfits_length w rs
  have k := e (misfits w rs)
  omega

theorem encLane_length (e : EncIn) (h : BlockHead) (j : Nat) (hl : e.lhfmt = true) :
    (encLane e h j).1.length = 2 ∧ (encLane e h j).2.1.length ≤ 544 := by
  unfold encLane
  simp only [hl, if_true, List.append_nil, toBytes_length, true_and]
  generalize hv : (e.vals.drop (32 * j)).take 32 = vs
  generalize seedOf true h _ = seed
  have k : vs.length ≤ 32 := by rw [← hv, List.length_take]; omega
  have key : ∀ (l : List (Nat × Nat × Bool)) (q : List Nat × List Nat),
      (l.foldl (fun (q : List Nat × List Nat) v =>
        let p := predict h seed q.1 j v.1
        let x := if v.2.2 then p else v.2.1
        (x :: q.1, q.2 ++ [zigzag (sub64 x p)])) q).2.length = q.2.length + l.length := by
    intro l
    induction l with
    | nil => intro q; rfl
    | cons a l ih => intro q; rw [List.foldl_cons, ih]; simp only [List.length_append, List.length_cons, List.length_nil]; omega
  have n := key (List.zip (List.range vs.length) vs) ([], [])
  rw [List.length_zip, List.length_range] at n
  refine Nat.le_trans (lanePayload_length _ _) ?_
  dsimp only at n ⊢
  generalize (List.foldl _ ([], []) ((List.range vs.length).zip vs)) = q at n ⊢
  have w := laneWidth_le q.2
  simp only [List.length_nil] at n
  omega

theorem flatMap_length_le {α : Type} (f : α → List Byte) (n : Nat) (l : List α) (h : ∀ a ∈ l, (f a).length ≤ n) :
    (l.flatMap f).length ≤ n * l.length := by
  induction l with
  | nil => simp
  | cons a l ih =>
    have h0 := h a (by simp)
    have h1 := ih fun b hb => h b (by simp [hb])
    rw [List.flatMap_cons, List.length_append, List.length_cons, Nat.mul_add]
    omega

/-- A block of at most 4,096 values without nulls, under PREV. -/
theorem encWith_length (e : EncIn) (fv : Nat) (hl : e.lhfmt = true) (hn : e.vals.any (·.2) = false) (hc : e.vals.length ≤ 4096) :
    (encWith e fv 0 0).1.length ≤ 72000 := by
  unfold encWith
  dsimp only
  refine Nat.le_trans (padTo_length _) ?_
  rw [hn]
  simp only [List.length_append, toBytes_length]
  generalize hh : (BlockHead.mk _ _ _ _ _ _ _ _ _ _ _ _ _ _ _) = h
  have hr : (List.range (numLanes h)).length ≤ 128 := by
    rw [List.length_range, ← hh]; unfold numLanes ceilDiv; dsimp only; rw [if_neg (by decide)]; omega
  have a := flatMap_length_le (fun l : List Byte × List Byte × List Nat => l.1) 2 ((List.range (numLanes h)).map (encLane e h))
    (by intro l hl'; obtain ⟨j, _, rfl⟩ := List.mem_map.mp hl'; exact Nat.le_of_eq (encLane_length e h j hl).1)
  have b := flatMap_length_le (fun l : List Byte × List Byte × List Nat => l.2.1) 544 ((List.range (numLanes h)).map (encLane e h))
    (by intro l hl'; obtain ⟨j, _, rfl⟩ := List.mem_map.mp hl'; exact (encLane_length e h j hl).2)
  rw [List.length_map] at a b
  have c := padTo_length (((List.range (numLanes h)).map (encLane e h)).flatMap (·.1))
  simp only [if_false, Bool.false_eq_true, List.length_nil, List.range_zero, List.map_nil, List.flatMap_nil, (by decide : ¬(0 = 2))]
  omega

theorem encodeBlock_length (e : EncIn) (fv : Nat) (hl : e.lhfmt = true) (hn : e.vals.any (·.2) = false) (hc : e.vals.length ≤ 4096) :
    (encodeBlock e fv).1.length ≤ 72000 := by
  unfold encodeBlock
  have key : ∀ (ts : List (Nat × Nat)) (b : List Byte × List Nat × Nat), b.1.length ≤ 72000 →
      ((ts.foldl (fun (b : Option (List Byte × List Nat × Nat)) t =>
        let r := encWith e fv t.1 t.2
        match b with
        | none => some (r.1, r.2, t.1)
        | some (m, _, _) => if r.1.length < m.length then some (r.1, r.2, t.1) else b) (some b)).getD ([], [], 0)).1.length ≤ 72000 := by
    intro ts
    induction ts with
    | nil => intro b h; exact h
    | cons t ts ih =>
      intro b h
      rw [List.foldl_cons]
      dsimp only
      split
      · exact ih _ (by dsimp only; omega)
      · exact ih _ h
  rw [show tries = (0, 0) :: ((1, 0) :: ((List.range 15).map fun i => (2, i + 2)) ++ [(3, 0)]) from rfl, List.foldl_cons]
  exact key _ _ (encWith_length e fv hl hn hc)

theorem hdrBytes_length (h : SegHdr) : (hdrBytes h).length ≤ 64 := by
  unfold hdrBytes splice
  simp only [List.length_append, List.length_take, List.length_drop, toBytes_length]
  omega

/-- A context over the segment of `ctx1` without a self-check, in the compatible form, with values pending. -/
def ctx2 (cap : Nat) (vs : List (Nat × Bool)) : PackCtx := { ctx1 with check := 0, lhfmt := true, cap := cap, pend := vs }

theorem packBlock_unchecked (u : Nat) (x : PackCtx) (s : State) (hv : x.pend.any (·.2) = false) (hs : selfChecks s u x = false) :
    packBlock u x s = (s, some (encodeBlock ⟨x.type, x.lhfmt,
      !x.blocks.isEmpty && 16 ≤ x.prior.length && !x.hist && !rBit s (Reg.PACK_CTRL u) 2, 2 ≤ x.check, x.prior, x.pend⟩ 0)) := by
  unfold packBlock
  simp only [hv, hs, Bool.false_eq_true, if_false, Bool.not_false, Bool.true_or, if_true]

theorem packBlock_ctx2 (cap : Nat) (vs : List (Nat × Bool)) (s : State) (hv : vs.any (·.2) = false) (hc : vs.length ≤ 4096)
    (hs : rBit s (Reg.PACK_CTRL 0) 1 = false) :
    ∃ bs vals pred, packBlock 0 (ctx2 cap vs) s = (s, some (bs, vals, pred)) ∧ bs.length ≤ 72000 := by
  have g : selfChecks s 0 (ctx2 cap vs) = false := by unfold selfChecks; rw [hs]; rfl
  rw [packBlock_unchecked 0 (ctx2 cap vs) s hv g]
  generalize hb : encodeBlock _ 0 = b
  refine ⟨b.1, b.2.1, b.2.2, rfl, ?_⟩
  rw [← hb]
  exact encodeBlock_length _ 0 rfl hv hc

theorem commitBlock_done {u : Nat} {c : UnitCmd} {x : PackCtx} {s s1 t1 : State} {bs : List Byte} {vals : List Nat} {pred : Nat}
    {P : State → Prop} (h : packBlock u x s = (s1, some (bs, vals, pred)))
    (g : ¬(decide (4096 ≤ x.blocks.length) || decide (x.cap < withDir (x.length + bs.length) (x.blocks.length + 1))) = true)
    (w1 : uWrite (packTlb u) c (x.seg + x.length) bs s1 = (t1, stOK))
    (w2 : ∀ d : SegHdr, ∃ t, uWrite (packTlb u) c x.seg (hdrBytes d) t1 = (t, stOK) ∧ P t) :
    ∃ t y, commitBlock u c x s = (setPackCtx u (packCtx c) y (countBlock u pred x.pend.length t), .done y) ∧ P t ∧ y.seg = x.seg ∧
      y.length = x.length + bs.length ∧ y.blocks.length = x.blocks.length + 1 := by
  have k := fun d => (w2 d).choose_spec
  unfold commitBlock
  rw [h]
  dsimp only
  rw [if_neg g, w1]
  dsimp only
  rw [if_neg (fun h => h rfl), (k _).1]
  dsimp only
  rw [if_neg (fun h => h rfl)]
  exact ⟨_, _, rfl, (k _).2, rfl, rfl, by rw [List.length_append]; rfl⟩

theorem plain_countBlock (u pred n : Nat) {s : State} (h : plain s) : plain (countBlock u pred n s) := by
  have e : ∀ k v s, plain s → plain (rSet (0x140000 + k + 0x1000 * u) v s) := fun k v s h => plain_rSet v h
    (by unfold Reg.SCHED_SAVE_BASE_LO; omega) (by unfold Reg.SCHED_SAVE_BASE_HI; omega)
  have b := e 0x4C (rGet (rSet (0x140000 + 0x48 + 0x1000 * u) (rGet s (Reg.PACK_BLOCKS u) + 1) s) (Reg.PACK_VALUES u) + n) _
    (e 0x48 (rGet s (Reg.PACK_BLOCKS u) + 1) s h)
  unfold countBlock bump bumpSat rSetFld
  dsimp only
  split
  · exact e 0x58 _ _ b
  · split
    · exact e 0x58 _ _ b
    · split
      · exact e 0x5C _ _ b
      · exact e 0x5C _ _ b

theorem commitBlock_ctx2 (l : List (Nat × Nat)) (vs : List (Nat × Bool)) (s : State) (h : plain s) (hv : vs.any (·.2) = false)
    (hc : vs.length ≤ 4096) (hs : rBit s (Reg.PACK_CTRL 0) 1 = false) :
    ∃ t y, commitBlock 0 (cmd l) (ctx2 1048576 vs) s = (t, .done y) ∧ plain t ∧ y.seg = 0xFFE000001000 ∧ y.length ≤ 72064 ∧
      y.blocks.length = 1 := by
  obtain ⟨bs, vals, pred, hb, hl⟩ := packBlock_ctx2 1048576 vs s hv hc hs
  obtain ⟨t1, e1, p1⟩ := uWrite_window l (0xFFE000001000 + 64) bs s h (by decide) (by omega)
  have w2 : ∀ d : SegHdr, ∃ t, uWrite (packTlb 0) (cmd l) 0xFFE000001000 (hdrBytes d) t1 = (t, stOK) ∧ plain t := fun d =>
    uWrite_window l 0xFFE000001000 (hdrBytes d) t1 p1 (by decide) (by have := hdrBytes_length d; omega)
  have g : ¬(decide (4096 ≤ (ctx2 1048576 vs).blocks.length) ||
      decide ((ctx2 1048576 vs).cap < withDir ((ctx2 1048576 vs).length + bs.length) ((ctx2 1048576 vs).blocks.length + 1))) = true := by
    rw [Bool.or_eq_true, decide_eq_true_eq, decide_eq_true_eq]
    unfold withDir ceilDiv ctx2 ctx1
    simp only [List.length_nil]
    rw [if_neg (by decide)]
    omega
  obtain ⟨t, y, e, p, k1, k2, k3⟩ := commitBlock_done hb g e1 w2
  refine ⟨_, y, e, ?_, k1, ?_, k3⟩
  · exact plain_countBlock 0 pred _ p
  · have : (ctx2 1048576 vs).length = 64 := rfl
    omega

theorem closeSeg_window (l : List (Nat × Nat)) (x : PackCtx) (s : State) (h : plain s) (hx : x.seg = 0xFFE000001000)
    (hl : x.length ≤ 100000) (hb : x.blocks.length ≤ 1) : ∃ t, closeSeg 0 (cmd l) x s = (t, stOK) := by
  unfold closeSeg
  have k := padTo_length (x.blocks.flatMap (toBytes 4))
  have b := flatMap_length_le (toBytes 4) 4 x.blocks fun a _ => Nat.le_of_eq (toBytes_length 4 a)
  obtain ⟨t1, e1, p1⟩ := uWrite_window l (x.seg + x.length) (padTo 8 (x.blocks.flatMap (toBytes 4))) s h (by omega) (by omega)
  dsimp only
  rw [e1]
  dsimp only
  rw [if_neg (fun h => h rfl)]
  have g := hdrBytes_length (ctxHdr x false (x.length + (padTo 8 (x.blocks.flatMap (toBytes 4))).length) x.length
    ((x.tag + x.tag % 2) % 2 ^ 32))
  obtain ⟨t2, e2, _⟩ := uWrite_window l x.seg _ t1 p1 (by omega) (show x.seg + (hdrBytes (ctxHdr x false (x.length +
    (padTo 8 (x.blocks.flatMap (toBytes 4))).length) x.length ((x.tag + x.tag % 2) % 2 ^ 32))).length ≤ 0xFFE0001C0000 by omega)
  exact ⟨t2, e2⟩

theorem plain_pack1 (l : List (Nat × Nat)) (m : KMap PackCtx) : plain (pack1 l m) :=
  have a : kFind pkt1.rf.val Reg.SCHED_SAVE_BASE_LO = none := by decide +kernel
  have b : kFind pkt1.rf.val Reg.SCHED_SAVE_BASE_HI = none := by decide +kernel
  ⟨a, b, rfl, rfl, rfl⟩

/-- CLOSE of a context with two values pending: they fit, or, where CAP is 64, they are spilled. -/
theorem witness_PackUnitCommands_close :
    (∀ cap ∈ [64, 1048576],
      let x := ctx2 cap [(7, false), (9, false)]
      let l := [(0, 3), (0x28, 0x10000), (0x2C, 0xFFE0)]
      PackFront 3 0 (cmd l) [] (pack1 l [(0, x)]) ∧ ownCtx (pack1 l [(0, x)]) 0 (cmd l) = some x ∧ x.pend ≠ []) ∧
    (let x := ctx2 1048576 [(7, false), (9, false)]
     let l := [(0, 3), (0x28, 0x10000), (0x2C, 0xFFE0)]
     ∃ s1 y s2, commitBlock 0 (cmd l) x (pack1 l [(0, x)]) = (s1, .done y) ∧ closeSeg 0 (cmd l) y s1 = (s2, stOK)) ∧
    (let x := ctx2 64 [(7, false), (9, false)]
     let l := [(0, 3), (0x28, 0x10000), (0x2C, 0xFFE0)]
     ∃ s1 s2 s3, commitBlock 0 (cmd l) x (pack1 l [(0, x)]) = (s1, .full) ∧
       stageOut 0 (cmd l) ((cmd l).quad 0x28) x.pend s1 = (s2, stOK) ∧ closeSeg 0 (cmd l) x s2 = (s3, stOK)) := by
  refine ⟨by unfold PackFront; decide +kernel, ?_, ?_⟩
  · obtain ⟨s1, y, e, p, h1, h2, h3⟩ := commitBlock_ctx2 [(0, 3), (0x28, 0x10000), (0x2C, 0xFFE0)] [(7, false), (9, false)]
      (pack1 [(0, 3), (0x28, 0x10000), (0x2C, 0xFFE0)] [(0, ctx2 1048576 [(7, false), (9, false)])]) (plain_pack1 _ _) rfl (by decide)
      (by decide +kernel)
    obtain ⟨s2, e2⟩ := closeSeg_window [(0, 3), (0x28, 0x10000), (0x2C, 0xFFE0)] y s1 p h1 (by omega) (by omega)
    exact ⟨s1, y, s2, e, e2⟩
  · obtain ⟨bs, vals, pred, hb, _⟩ := packBlock_ctx2 64 [(7, false), (9, false)]
      (pack1 [(0, 3), (0x28, 0x10000), (0x2C, 0xFFE0)] [(0, ctx2 64 [(7, false), (9, false)])]) rfl (by decide) (by decide +kernel)
    have q : (cmd [(0, 3), (0x28, 0x10000), (0x2C, 0xFFE0)]).quad 0x28 = 0xFFE000010000 := by decide +kernel
    obtain ⟨s2, h2, p2⟩ := uWrite_window [(0, 3), (0x28, 0x10000), (0x2C, 0xFFE0)] 0xFFE000010000
      (toBytes 8 7 ++ toBytes 8 9 ++ List.replicate 0x7FF0 0 ++ toBytes 512 0) _ (plain_pack1 [(0, 3), (0x28, 0x10000), (0x2C, 0xFFE0)]
      [(0, ctx2 64 [(7, false), (9, false)])]) (by decide) (by simp only [List.length_append, List.length_replicate, toBytes_length]; decide)
    obtain ⟨s3, h3⟩ := closeSeg_window [(0, 3), (0x28, 0x10000), (0x2C, 0xFFE0)] (ctx2 64 [(7, false), (9, false)]) s2 p2 rfl (by decide) (by decide)
    refine ⟨pack1 [(0, 3), (0x28, 0x10000), (0x2C, 0xFFE0)] [(0, ctx2 64 [(7, false), (9, false)])], s2, s3, ?_, ?_, h3⟩
    · unfold commitBlock
      rw [hb]
      dsimp only
      refine if_pos ?_
      rw [Bool.or_eq_true, decide_eq_true_eq, decide_eq_true_eq]
      right
      unfold withDir ceilDiv ctx2 ctx1
      simp only [List.length_nil]
      rw [if_neg (by decide)]
      omega
    · rw [q]; exact h2

/-- An APPEND whose two values fill the pending block, its state, and what is read of its source. -/
def appendCtx : PackCtx := ctx2 1048576 (List.replicate 4094 (7, false))
def appendCmd : List (Nat × Nat) := [(0, 2), (4, 2), (0x10, 0x8000), (0x14, 0xFFE0)]
def append1 : State := pack1 appendCmd [(0, appendCtx)]
def appendRead : State × Nat × List Byte := uRead (packTlb 0) (cmd appendCmd) 0xFFE000008000 (8 * 2) append1
def appendVals : List (Nat × Bool) := (List.range 2).map fun i => (numAt appendRead.2.2 (8 * i) 8, false)

theorem append1_ctx : ownCtx append1 0 (cmd appendCmd) = some appendCtx := by
  have e : packCtx (cmd appendCmd) = 0 := by decide +kernel
  have f : packCtxOf append1 0 0 = some appendCtx := rfl
  unfold ownCtx
  rw [e, f]
  rfl

theorem appendRead_plain : appendRead.2.1 = stOK ∧ plain appendRead.1 := by
  obtain ⟨s1, bs, e, p, _⟩ := uRead_window appendCmd 0xFFE000008000 (8 * 2) append1 (plain_pack1 _ _) (by decide) (by decide)
  have h : appendRead = (s1, stOK, bs) := e
  rw [h]
  exact ⟨rfl, p⟩

theorem witness_PackUnitCommands_append :
    PackFront 2 0 (cmd appendCmd) [] append1 ∧ (packOf append1 0).taken = 0 ∧ ownCtx append1 0 (cmd appendCmd) = some appendCtx ∧
    bit ((cmd appendCmd).word 0) 7 = false ∧ (cmd appendCmd).quad 0x18 = 0 ∧ (cmd appendCmd).word 4 = 2 ∧
    appendCtx.pend.length + 2 = 4096 ∧ (cmd appendCmd).quad 0x10 = 0xFFE000008000 ∧ appendRead.2.1 = stOK ∧
    (∀ v ∈ appendVals, inType appendCtx.type v.1 = true) ∧
    ∃ s2 y, commitBlock 0 (cmd appendCmd) (ctx2 1048576 (appendCtx.pend ++ appendVals)) appendRead.1 = (s2, .done y) := by
  refine ⟨by unfold PackFront; decide +kernel, by decide +kernel, append1_ctx, by decide +kernel, by decide +kernel, by decide +kernel, ?_,
    by decide +kernel, appendRead_plain.1, by decide +kernel, ?_⟩
  · have e : appendCtx.pend = List.replicate 4094 (7, false) := rfl
    rw [e, List.length_replicate]
  · have e : appendCtx.pend = List.replicate 4094 (7, false) := rfl
    obtain ⟨s2, y, c, _⟩ := commitBlock_ctx2 appendCmd (appendCtx.pend ++ appendVals) appendRead.1 appendRead_plain.2
      (by rw [e]; unfold appendVals; rw [List.any_append, List.any_replicate, List.any_map]; simp)
      (by rw [e]; unfold appendVals; rw [List.length_append, List.length_replicate, List.length_map, List.length_range] <;> decide)
      (by decide +kernel)
    exact ⟨s2, y, c⟩

/-- The image of a task's save lies in Panel 0's memory here. -/
def saving2 : State := regs [(Reg.SCHED_SAVE_BASE_LO, 0x100000), (Reg.SCHED_SAVE_BASE_HI, 0x400)]
  { pkt1 with sched := { pkt1.sched with tasks := [(0, { task1 with state := .saving, runPocket := 0 })] } }

theorem saving2_kib : min 8 (saveKibOf saving2 (taskOf saving2 0)) = 1 := by decide +kernel

/-- What the save reads of the scratchpad, whose first KiB its template declares. -/
def savedPad : State × Nat × List Byte := physRead (scratchAddr 0) 1024 (lvWake 0 saving2)

theorem savedPad_ok : savedPad.2.1 = stOK ∧ saveArea savedPad.1 0 = 0x040000100000 ∧ savedPad.1.mem.par = [] ∧ savedPad.1.mem.soft = [] := by
  decide +kernel

theorem savedPad_noc : savedPad.1.noc = job1.noc := by decide +kernel

theorem saveImage_length (x : Pocket) (k : Nat) : (saveImage x k).length = 8192 := by
  have e : ∀ (f : Nat → List Byte) (n : Nat) (l : List Nat), (∀ a ∈ l, (f a).length = n) → (l.flatMap f).length = n * l.length := by
    intro f n l h
    induction l with
    | nil => rfl
    | cons a l ih =>
      have h0 := h a (by simp)
      rw [List.flatMap_cons, List.length_append, ih fun b hb => h b (by simp [hb]), List.length_cons, Nat.mul_add]
      omega
  unfold saveImage
  simp only [List.length_append, List.length_replicate, toBytes_length]
  rw [e _ 8 _ fun a _ => toBytes_length 8 _, e _ 128 _ fun a _ => toBytes_length 128 _, e _ 16 _ fun a _ => toBytes_length 16 _]
  simp only [List.length_range]

theorem physRead_length (a n : Nat) (s : State) : (physRead a n s).2.2.length = n := by
  unfold physRead memBytes; rw [List.length_map, List.length_range]

theorem meshWrite_image (i : Initiator) (a : Nat) (im bs : List Byte) (s : State) (hs : sram s) (ha : a = 0x040000100000)
    (hi : im.length = 8192) (hb : bs.length = 1024) : (meshWrite i a (im ++ bs) s).2 = stOK := by
  have h : (im ++ bs).length = 9216 := by rw [List.length_append, hi, hb]
  obtain ⟨t, e, _⟩ := physWrite_panel0 a (im ++ bs) s hs (by rw [ha]; decide) (by rw [h, ha]; decide)
  unfold meshWrite
  rw [e]

theorem savedWrite_ok (i : Initiator) : (meshWrite i (saveArea savedPad.1 0) (saveImage (pktOf saving2 0) 1 ++ savedPad.2.2) savedPad.1).2 = stOK :=
  meshWrite_image i _ _ _ _ ⟨savedPad_noc, savedPad_ok.2.2⟩ savedPad_ok.2.1 (saveImage_length _ _) (physRead_length _ _ _)

theorem witness_CutsAndShares_save :
    working saving2 = true ∧ (pktOf saving2 0).task = some 0 ∧ (taskOf saving2 0).state = .saving ∧
    (taskOf saving2 0).doomed = false ∧ rBit saving2 Reg.SCHED_TRACE_CTRL 0 = false ∧
    min 8 (saveKibOf saving2 (taskOf saving2 0)) = 1 ∧ savedPad.2.1 = stOK ∧
    (meshWrite (pocketInit 0 (taskOf saving2 0).inst (taskOf saving2 0).cls) (saveArea savedPad.1 0)
      (saveImage (pktOf saving2 0) 1 ++ savedPad.2.2) savedPad.1).2 = stOK :=
  ⟨by decide +kernel, by decide +kernel, by decide +kernel, by decide +kernel, by decide +kernel, saving2_kib, savedPad_ok.1,
    savedWrite_ok _⟩

/-- A Scan Front's command over one column, whose windows lie in stop 0's memory (its neighbour refresh off), and the register program of one step
that every row satisfies. -/
def scanCmd : UnitCmd :=
  { cmd [(0, 1 + 16 * 0x7F), (8, 0x1000), (12, 0xFFE0), (0x10, 0x8000), (0x14, 0xFFE0), (0x18, 64)] with
    win6 := some { slot := 0xFFE, inst := none, desc := windowDesc 0 16 0 } }
def scan1 (x : ScanFront) : State :=
  regs [(Reg.HMC_CTRL 0, 0), (Reg.SF_PGM 0 0, 0x53465052), (Reg.SF_PGM 0 1, 1 + 256 + 2 * 65536), (Reg.SF_PGM 0 2, 5), (Reg.SF_PGM 0 16, 0x13)]
    (setBytes 0x1000 (toBytes 8 0xFFE000002000)
      (setBytes 0x2000 (hdrBytes { ctxHdr ctx1 false 4096 4000 2 with values := 40, blocks := 1 }) { pkt1 with scans := [(0, x)] }))

def scanRun1 : ScanRun :=
  { cmd := scanCmd, frame := [], cols := [], sets := [], pos := 0, endPos := 40, skip := true, elide := true, compat := false }

theorem witness_ScanFronts :
    (let s := scan1 { queue := [scanCmd] }
     working s = true ∧ pageEn s (Reg.SF_PAGE 0) = true ∧ (scanOf s 0).run = none ∧ (scanOf s 0).stalled = false ∧
     nextHeld ((scanOf s 0).queue.filter (cmdLive s)) = some scanCmd ∧
     (match scanChecks 0 scanCmd (setScan 0 { queue := [] } s) with
      | (t, .inl r) => cmdLive t r.cmd && decide (r.pos < r.endPos ∧ r.endPos = 40)
      | _ => false) = true) ∧
    (let s := scan1 { queue := [cmd [(0, 2)]] }
     nextHeld ((scanOf s 0).queue.filter (cmdLive s)) = some (cmd [(0, 2)]) ∧
     (scanChecks 0 (cmd [(0, 2)]) (setScan 0 { queue := [] } s)).2 = .inr (stDescInvalid, 6, 0)) ∧
    (∀ pos ∈ [0, 40],
      let s := scan1 { run := some { scanRun1 with pos := pos } }
      working s = true ∧ (scanOf s 0).stalled = false ∧ (scanOf s 0).run = some { scanRun1 with pos := pos } ∧ cmdLive s scanCmd = true) ∧
    (let s := scan1 { run := some scanRun1, stalled := true }
     working s = true ∧ (scanOf s 0).stalled = true) ∧
    (let c := { scanCmd with dead := true }
     let s := scan1 { run := some { scanRun1 with cmd := c }, queue := [c] }
     (scanOf s 0).stalled = false ∧ cmdLive s c = false ∧ ((scanOf s 0).queue.filter fun c => !cmdLive s c).length = 1) := by
  decide +kernel

/-- The register program over the segment's header is taken and the first lane position is reached (Table 5.2). -/
theorem test_scan_starts :
    ((scanOf (after (exec (.scan 0 0) (scan1 { queue := [scanCmd] }))) 0).run.map fun r => (r.pos, r.endPos)) = some (0, 40) := by
  decide +kernel

/-! ### Chapter 06: operator units -/

/-- The descriptor of a hash table of sixteen buckets at the Panel window's offset 0x2000, and commands over it at 0x1000. -/
def table1 (group : Nat) : List Byte :=
  block [(0, 0x4854424C), (4, 4 + 32 * group), (8, 0x2000), (12, 0xFFE0), (0x10, 0x3000), (0x14, 0xFFE0), (0x18, 1), (0x24, 100 * group)]
def hpuCmd (op : Nat) : UnitCmd := cmd [(0, op), (4, 2), (8, 0x1000), (12, 0xFFE0), (0x10, 0x4000), (0x14, 0xFFE0), (0x18, 0x5000), (0x1C, 0xFFE0), (0x20, 1024)]

/-- A state in which an operator unit of Panel 0 has commands held and one running. -/
def oper1 (u : Nat) (x : OperSt) : State := setOper u 0 x pkt1
def opRun (c : UnitCmd) : OperRun := { cmd := c, mayTake := true }

/-- A partition context of the job with two ways, and its commands. -/
def part1 : PartCtx :=
  { inst := 0, job := 0, serial := 3, dirset := 0xFFE000001000, dir := 0xFFE000001000, rsz := 0, func := false, log2w := 1, shift := 0,
    ways := [⟨0xFFE000008000, 4096, 0, []⟩, ⟨0xFFE000009000, 4096, 0, []⟩] }
def puCmd (op : Nat) : UnitCmd :=
  cmd [(0, op + 128), (4, 2), (8, 0x1000), (12, 0xFFE0), (0x10, 0x4000), (0x14, 0xFFE0), (0x18, 0xA000), (0x1C, 0xFFE0), (0x20, 4096)]

/-- Every row of the three units: an idle unit with the command held, and the command running; a locked INSERT and PROBE. -/
theorem witness_OperatorCommandsStart_OperatorItems_TakeoverAndAbandonment :
    (∀ u ∈ [0, 1, 2], ∀ op ∈ [1, 2, 3, 4],
      let c := cmd [(0, op)]
      let s := oper1 u { queue := [c] }
      working s = true ∧ (operOf s u 0).run = none ∧ (operOf s u 0).standby = none ∧ pageEn s (operPage u 0) = true ∧
      nextHeld ((operOf s u 0).queue.filter (cmdLive s)) = some c ∧ operOp c = op ∧ c.copied = stOK) ∧
    (let c := { cmd [(0, 2)] with copied := stParity }
     let s := oper1 0 { queue := [c] }
     nextHeld ((operOf s 0 0).queue.filter (cmdLive s)) = some c ∧ c.copied ≠ stOK ∧ operOp c = 2) ∧
    (∀ u ∈ [0, 1, 2], ∀ op ∈ [1, 2, 3, 4], ∀ lk ∈ [true, false],
      let s := oper1 u { run := some { opRun (cmd [(0, op)]) with locked := lk } }
      working s = true ∧ cmdLive s (cmd [(0, op)]) = true ∧ expressHeld s u 0 = false ∧ (∀ v ∈ [0, 1, 2], takeoverDue s v 0 = false) ∧
      (operOf s u 0).run = some { opRun (cmd [(0, op)]) with locked := lk }) ∧
    findPart (oper1 1 { run := some (opRun (puCmd 1)), ctx := [(0, part1)] }) 0 (puCmd 1) ≠ none ∧
    (∀ u ∈ [0, 1, 2],
      let s := oper1 u { run := some (opRun (hpuCmd 1)), queue := [{ hpuCmd 1 with cls := 3 }] }
      working s = true ∧ takeoverDue s u 0 = true) ∧
    (∀ u ∈ [0, 1, 2],
      let c := { hpuCmd 1 with dead := true }
      let s := oper1 u { run := some (opRun c), queue := [c] }
      ((operOf s u 0).queue.filter fun c => !cmdLive s c).length = 1 ∧ deadRun s (operOf s u 0).run = true) := by
  decide +kernel

/-- An insert of a key that the chain does not hold; a group that the table has; a locked insert. -/
theorem witness_HashProbeEffects :
    (let r := { opRun (hpuCmd 1) with table := table1 0 }
     let s := oper1 0 { run := some r }
     let s1 := (uRead (operPort 0 0) r.cmd (r.cmd.quad 0x10) 16 s).1
     let head := headBucket r.table 0
     let s2 := (takeLock 0 r.cmd head s1).1
     let f := (tabLookup 0 r 0 false s2).2.2.2
     let s3 := (tabLookup 0 r 0 false s2).1
     let w := uWrites (operPort 0 0) r.cmd (entryWrites r f head none 0 0) (countLookup 0 false s3)
     working s = true ∧ cmdLive s r.cmd = true ∧ (operOf s 0 0).run = some r ∧ operOp r.cmd = 1 ∧ takeoverDue s 0 0 = false ∧
     (uRead (operPort 0 0) r.cmd (r.cmd.quad 0x10) 16 s).2.1 = stOK ∧ (takeLock 0 r.cmd head s1).2 = (stOK, false) ∧
     (tabLookup 0 r 0 false s2).2.1 = stOK ∧ f.hit = none ∧ bktCount f.line ≠ 3 ∧ w.2.1 = stOK ∧ (addEntries 0 r.cmd w.1).2 = stOK) ∧
    (let r := { opRun (hpuCmd 3) with table := table1 1 }
     let s := setBytes (panelAddr 0 + 0x22000 + keyHash 0 % 16 * 64) (bktNew 0 7) (oper1 0 { run := some r })
     let s1 := (uReadNat (operPort 0 0) r.cmd (r.cmd.quad 0x10) 8 s).1
     (uReadNat (operPort 0 0) r.cmd (r.cmd.quad 0x10) 8 s).2 = (stOK, 0) ∧ operOp r.cmd = 3 ∧
     takeoverDue s 0 0 = false ∧ (tabLookup 0 r 0 false s1).2.1 = stOK ∧ (tabLookup 0 r 0 false s1).2.2.2.hit.isSome = true) ∧
    (∀ k ∈ [0, 5],
      let r := { opRun (hpuCmd 2) with table := table1 0 }
      let s := setBytes (panelAddr 0 + 0x22000 + keyHash k % 16 * 64) (bktNew k 7) (oper1 0 { run := some r })
      let s1 := (uReadNat (operPort 0 0) r.cmd (r.cmd.quad 0x10) 8 s).1
      let l := tabLookup 0 r 0 true s1
      operOp r.cmd = 2 ∧ hpuMode r.cmd = 0 ∧ takeoverDue s 0 0 = false ∧
      (uReadNat (operPort 0 0) r.cmd (r.cmd.quad 0x10 + r.pos * hpuStride r.cmd) 8 s).2 = (stOK, 0) ∧ l.2.1 = stOK ∧
      (l.2.2.2.hit = none ↔ k = 5) ∧
      (uWrite (operPort 0 0) r.cmd (r.cmd.quad 0x18 + r.bytes) (pairBytes r.cmd r.pos 1 (l.2.2.2.pays.headD 0)) (countLookup 0 true l.1)).2 = stOK) ∧
    (let s := oper1 0 { run := some { opRun (hpuCmd 1) with locked := true } }
     working s = true ∧ cmdLive s (hpuCmd 1) = true) := by
  decide +kernel

/-- An append that leaves its line partial, a flush or release, and a reload. -/
theorem witness_PartitionEffects :
    (let r := opRun (puCmd 1)
     let s := oper1 1 { run := some r, ctx := [(0, part1)] }
     let e := part1.ways.getD (wayOf part1 0) ⟨0, 0, 0, []⟩
     let rec_ := (uRead (operPort 1 0) r.cmd (r.cmd.quad 0x10) 8 s).2.2
     working s = true ∧ cmdLive s r.cmd = true ∧ findPart s 0 r.cmd = some (0, part1) ∧ takeoverDue s 1 0 = false ∧
     (uRead (operPort 1 0) r.cmd (r.cmd.quad 0x10) 8 s).2.1 = stOK ∧ numAt rec_ 0 8 = 0 ∧ e.fill + 8 ≤ e.cap ∧
     (e.line ++ rec_).length ≠ 64 ∧ 0 + 1 < operCount r.cmd) ∧
    (∀ op ∈ [2, 3],
      let x := { part1 with ways := [⟨0xFFE000008000, 4096, 8, toBytes 8 5⟩, ⟨0xFFE000009000, 4096, 0, []⟩] }
      let s := oper1 1 { run := some (opRun (puCmd op)), ctx := [(0, x)] }
      operOp (puCmd op) = op ∧ findPart s 0 (puCmd op) = some (0, x) ∧ takeoverDue s 1 0 = false ∧ (flushCtx 0 (puCmd op) x s).2.1 = stOK) ∧
    (let s := oper1 1 { run := some (opRun (puCmd 4)), ctx := [(0, part1)] }
     let c := puCmd 4
     operOp c = 4 ∧ takeoverDue s 1 0 = false ∧ fld (c.word 0x24) 7 0 < part1.ways.length ∧ (flushLine 0 c (part1.ways.getD 0 ⟨0, 0, 0, []⟩) s).2.1 = stOK ∧
     (uWrite (operPort 1 0) c part1.dir (toBytes 8 (c.quad 0x18) ++ toBytes 4 (c.word 0x20) ++ toBytes 4 0) s).2 = stOK) := by
  decide +kernel

/-- A sort at its last record, and a merge of two runs of two records. -/
def mnCmd (op : Nat) : UnitCmd := cmd [(0, op), (4, 1), (8, 8), (0x10, 0x4000), (0x14, 0xFFE0), (0x18, 0x8000), (0x1C, 0xFFE0), (0x20, 4096)]

theorem witness_SortingIsStable :
    [toBytes 8 3, toBytes 8 5, toBytes 8 5].Pairwise
      (fun a b => mnBefore (cmd [(0, 1)]) (numAt b 0 8) (numAt a 0 8) = false) ∧
    (∀ op ∈ [1, 3],
      let r := opRun (mnCmd op)
      let s := oper1 2 { run := some r }
      working s = true ∧ cmdLive s r.cmd = true ∧ r.locked = false ∧ takeoverDue s 2 0 = false ∧ (operOf s 2 0).run = some r ∧
      r.pos + 1 = operCount r.cmd ∧ operOp r.cmd = op ∧
      (uRead (operPort 2 0) r.cmd (r.cmd.quad 0x10 + mnRs r.cmd * r.pos) (mnRs r.cmd) s).2.1 = stOK) ∧
    (let r := { opRun (mnCmd 2) with runs := [(0xFFE000004000, 2, 0), (0xFFE000005000, 2, 0)], last := [none, none] }
     let s := oper1 2 { run := some r }
     let q := mnHeads 0 r s
     working s = true ∧ cmdLive s r.cmd = true ∧ takeoverDue s 2 0 = false ∧ (operOf s 2 0).run = some r ∧ operOp r.cmd = 2 ∧
     q.2.2.1 = stOK ∧ (∀ h ∈ q.2.1, r.last.getD h.1 none = none) ∧
     (match mnFirst r.cmd q.2.1 with
      | some (i, rec) =>
        let r1 := { r with pos := r.pos + 1,
                           runs := r.runs.set i ((r.runs.getD i (0, 0, 0)).1, (r.runs.getD i (0, 0, 0)).2.1, (r.runs.getD i (0, 0, 0)).2.2 + 1),
                           last := r.last.set i (some (numAt rec 0 8)) }
        let p := mnTake 0 r1 rec (bump (Reg.PNL_MN_RECORDS_IN 0) 1 q.1)
        decide (p.2.2 = stOK) && p.2.1.runs.any fun e => e.2.2 < e.2.1
      | none => false) = true) := by decide +kernel

/-! ### Chapter 07: the Match Array -/

/-- A lookup of the key 5 in the first four entries of instance 0's window, and one of the other operation. -/
def maReq1 (op : Nat) : MaReq :=
  { pocket := 0, inst := 0, cls := 1, at_ := 0, place := some false,
    bytes := toBytes 4 op ++ toBytes 4 0 ++ toBytes 4 4 ++ toBytes 4 0 ++ toBytes 20 5 ++ List.replicate 12 0 }

/-- A device whose array holds KEY 5 in entries 1 and 2, of which entry 1 is SUSPECT, in a window of eight entries. -/
def ma1 (m : MaSt) : State :=
  regs [(Reg.INST_CUFF_MA_SIZE 0, 8)]
    { svc with ma := { m with entries := [(1, { key := 5, data := 7, valid := true, suspect := true }), (2, { key := 5, data := 9, valid := true })] } }

theorem witness_LookupAnswersTheLowestMatch :
    (ma1 {}).ma.entries.Pairwise (fun a b => a.1 < b.1) ∧ reqOp (maReq1 1) = 1 ∧ reqSize (maReq1 1) ≠ 0 ∧
    reqLo (maReq1 1) + reqSize (maReq1 1) ≤ maSize (ma1 {}) (maReq1 1).inst ∧ reqKey (maReq1 1) = 5 := by decide +kernel

/-- R159: the lookup passes over the SUSPECT entry and answers the next match. -/
theorem test_lookup_skips_suspect :
    ((maAnswer (maReq1 1) (ma1 {})).2.hit, (maAnswer (maReq1 1) (ma1 {})).2.index, (maAnswer (maReq1 1) (ma1 {})).2.data) = (true, 2, 9) := by
  decide +kernel

theorem witness_LookupsAndSteps_MatchArrayCommandsStart :
    (∀ op ∈ [1, 2],
      let s := ma1 { waiting := [maReq1 op] }
      clocked s = true ∧ portTakes s.ma.waiting = some (maReq1 op) ∧ (maReq1 op).pocket ≠ 0xFFFF ∧ reqOp (maReq1 op) = op) ∧
    (let s := regs [(Reg.INST_MA_RANGE_SIZE 0, 4), (Reg.INST_MA_COUNT 0, 2), (Reg.INST_MA_POS 0, 1), (Reg.INST_MA_FLAGS 0, 8)] (ma1 {})
     takes s wa (Reg.INST_MA_CMD 0) = true ∧ clocked s = true ∧ maRunOf s 0 = none ∧ stagePending s (Reg.INST_MA_PAGE 0) = false ∧
     pageEn s Reg.MA_PAGE = true ∧ rFld s (Reg.INST_MA_POS 0) 17 0 = 1 ∧ rFld s (Reg.INST_MA_RANGE_SIZE 0) 18 0 = 4 ∧
     rFld s (Reg.INST_MA_COUNT 0) 18 0 = 2 ∧ rFld s (Reg.INST_MA_FLAGS 0) 13 1 = 4 ∧
     nearestInvalid s (maBase s 0) 0 4 1 = some 0) ∧
    (let s := regs [(Reg.INST_MA_POS 0, 8)] (ma1 {})
     takes s wa (Reg.INST_MA_CMD 0) = true ∧ maSize s 0 ≤ rFld s (Reg.INST_MA_POS 0) 17 0) := by decide +kernel

theorem witness_ArrayOperations :
    (∀ o ∈ [MaOp.inval 1, .valid 1, .data 1 6 none, .keyMask 1 6 0 (some false), .clear 1 2],
      let x : MaRun := { op := 2, started := true, pos := 1, lo := 0, size := 4, count := 1, addr := 0, holes := false, spacing := 2,
                         key := 6, mask := 0, data := 6, ops := [o] }
      let s := ma1 { runs := [(0, x)] }
      clocked s = true ∧ maTurn s = some 0 ∧ maRunOf s 0 = some x ∧ (∀ p ∈ s.ma.runs, p.2.started = true) ∧
      s.ma.entries.Pairwise (fun a b => a.1 < b.1)) ∧
    (∀ bad ∈ [true, false],
      let s := regs [(Reg.MA_PAGE + 8, 1), (Reg.MA_CTRL, 1)] { svc with ma := { entries := [(0, { key := 5, par := if bad then 1 else 0 })] } }
      scrubs s = true ∧ (entryOf s s.ma.scrub).parityOk = !bad) := by decide +kernel


/-! ### Chapters 08 and 09: Pocket instructions -/

/-- The forms of Tables 8.2 and 9.2, bit by bit. -/
def r3 (op d a b w : Nat) : W32 := BitVec.ofNat 32 (op * 2 ^ 23 + d * 2 ^ 18 + a * 2 ^ 13 + b * 2 ^ 8 + w)
def ri (op d a imm : Nat) : W32 := BitVec.ofNat 32 (1 * 2 ^ 29 + op * 2 ^ 23 + d * 2 ^ 18 + a * 2 ^ 13 + imm)
def mem (op d a size off : Nat) : W32 := BitVec.ofNat 32 (2 * 2 ^ 29 + op * 2 ^ 25 + d * 2 ^ 20 + a * 2 ^ 15 + size * 2 ^ 12 + off)
def br (cond a b off : Nat) : W32 := BitVec.ofNat 32 (3 * 2 ^ 29 + cond * 2 ^ 26 + a * 2 ^ 21 + b * 2 ^ 16 + off)
def jmp (link off : Nat) : W32 := BitVec.ofNat 32 (4 * 2 ^ 29 + link * 2 ^ 28 + off)
def wide (op d pos imm : Nat) : W32 := BitVec.ofNat 32 (5 * 2 ^ 29 + d * 2 ^ 24 + pos * 2 ^ 22 + op * 2 ^ 20 + imm)
def sys (op d a arg : Nat) : W32 := BitVec.ofNat 32 (6 * 2 ^ 29 + op * 2 ^ 23 + d * 2 ^ 18 + a * 2 ^ 13 + arg)
def vec (l op d a b pg ew z : Nat) : W32 :=
  BitVec.ofNat 32 (7 * 2 ^ 29 + l * 2 ^ 28 + op * 2 ^ 22 + d * 2 ^ 17 + a * 2 ^ 12 + b * 2 ^ 7 + pg * 2 ^ 4 + ew * 2 + z)

/-- The states of the Pocket tests: registers g1 to g3 given, in supervisor mode past translation, the line at PC in the
instruction cache. -/
def pktG (a b c : Nat) : State :=
  setPkt 0 { pktOf pkt1 0 with
    icache := [{ line := 4, data := List.replicate 64 0 }]
    g := kPut 0 (kPut 0 (kPut 0 [] 1 (BitVec.ofNat 64 a)) 2 (BitVec.ofNat 64 b)) 3 (BitVec.ofNat 64 c) } pkt1

/-- The task's Pocket in user mode, with a cacheable region of stop 0's memory at address 0, and the neighbour refresh off. -/
def pktU : State :=
  regs [(Reg.HMC_CTRL 0, 0)]
    (setPkt 0 { pktOf (pktG 0x1000 1 1) 0 with
      priv := false, bare := false, regions := [(0, { slot := 0, inst := none, desc := { windowDesc 0 16 0 with x := true, c := true } })] } (pktG 0x1000 1 1))

/-- Words of every row of the Pocket's instructions, by Tables 8.3 to 8.5, 8.8 and 9.4. -/
theorem test_words_decode :
    (∀ o ∈ [0, 1, 2, 3, 4, 5, 6, 7, 8, 9, 0x0A, 0x0B, 0x0C, 0x0E, 0x0F, 0x10, 0x11, 0x12, 0x13, 0x14, 0x15, 0x16, 0x18, 0x19, 0x1A,
        0x1B, 0x1D], ∀ w ∈ [0, 1], rowOfWord (r3 o 3 1 2 w) = .integerOp ∧ wOp (r3 o 3 1 2 w) = o) ∧
    (∀ o ∈ [0, 2, 3, 4, 6, 7, 8, 9, 0x0A, 0x0B, 0x0C], rowOfWord (ri o 3 1 0x1FFF) = .integerOp ∧ wImm13 (ri o 3 1 0x1FFF) = -1) ∧
    (∀ o ∈ [0x20, 0x21, 0x22, 0x23, 0x24, 0x25, 0x26, 0x27, 0x28, 0x29], rowOfWord (r3 o 3 1 2 0) = .floatOp) ∧
    (∀ q ∈ [(r3 0x30 3 1 2 0, PRow.cas), (r3 0x31 3 1 2 0, .aadd), (r3 0x38 3 1 0 0, .jr), (mem 0 3 1 3 0, .ld), (mem 1 3 1 2 0, .ld),
        (mem 2 3 1 3 0, .st), (mem 3 3 1 4 0, .fld), (mem 4 3 1 4 0, .fst), (mem 5 3 1 3 0, .ldr), (mem 6 3 1 3 0, .str),
        (br 5 1 2 4, .branch), (br 6 1 0 4, .loop), (jmp 1 4, .jl), (wide 0 3 1 9, .set), (wide 1 3 1 9, .keep)], rowOfWord q.1 = q.2) ∧
    (∀ q ∈ [(sys 0 0 0 0, PRow.nop), (sys 1 0 1 1, .unit), (sys 2 3 1 0, .matchReq), (sys 3 0 1 0, .waitd), (sys 4 0 0 0, .fence),
        (sys 5 0 1 0, .clean), (sys 5 0 1 1, .inv), (sys 5 0 1 2, .clinv), (sys 5 0 1 3, .zero), (sys 5 0 1 4, .setWayClean),
        (sys 5 0 1 5, .setWayInv), (sys 5 0 1 6, .setWayClinv), (sys 5 0 1 7, .clinvVc), (sys 6 0 0 7, .call), (sys 7 3 0 2, .rdcr),
        (sys 0x10 0 1 5, .wrcr), (sys 0x11 0 0 0, .ret), (sys 0x12 2 1 0, .report), (sys 0x13 3 1 0, .rgld), (sys 0x14 0 1 0, .tlbiAll),
        (sys 0x14 0 1 1, .tlbiSlot), (sys 0x14 0 1 2, .tlbiInstance), (sys 0x3F 0 0 0, .undefined)], rowOfWord q.1 = q.2) ∧
    (∀ q ∈ [(0, PRow.vld), (1, .vst), (2, .vlds), (3, .vsts), (4, .vgath), (5, .vscat), (6, .scaddt), (7, .scadds), (8, .vunpk),
        (0x10, .vectorArithmetic), (0x19, .vmulwl), (0x1A, .vmulwl), (0x1B, .vredadd), (0x1C, .vcomp), (0x26, .vsrr), (0x27, .vresc),
        (0x28, .vunzz), (0x29, .vscan), (0x2C, .vectorFloat), (0x30, .vcmp), (0x36, .vwhilelt), (0x38, .predicateOp), (0x3C, .pcnt),
        (0x3D, .vsplat), (0x3E, .vext), (0x3F, .vins)], rowOfWord (vec 0 q.1 3 1 2 0 3 0) = q.2) := by decide +kernel

/-- Every word of `test_words_decode` begins at the Pocket of `pktG`. -/
theorem witness_begins (word : W32) : Begins (rowOfWord word) 0 word (pktG 1 2 3) (pktG 1 2 3) :=
  ⟨⟨by decide +kernel, rfl, by decide +kernel⟩, rfl⟩

/-- The same word of the user task begins through its region. -/
theorem witness_begins_user : Begins .nop 0 (sys 0 0 0 0) pktU pktU ∧ (pktOf pktU 0).priv = false := by
  unfold Begins Fetched; decide +kernel

theorem witness_PocketRegistersAndCompletion :
    (pktOf pkt1 0).task ≠ none ∧ rBit pkt1 (Reg.PKT_CTRL 0) 0 = false := by decide +kernel

/-- The two operand widths, with a zero divisor and a shift by the width. -/
theorem witness_IntegerAndFloatOperations :
    Begins .integerOp 0 (r3 0x13 3 1 2 0) (pktG 7 0 0) (pktG 7 0 0) ∧ Begins .integerOp 0 (r3 6 3 1 2 1) (pktG 7 32 0) (pktG 7 32 0) ∧
    Begins .floatOp 0 (r3 0x20 3 1 2 1) (pktG 7 0 0) (pktG 7 0 0) := by
  unfold Begins Fetched; decide +kernel

/-- R170: DIV by zero gives all ones, and a 32-bit result is sign-extended. -/
theorem test_integer_ops :
    gGet (after (exec (.integerOp 0 (r3 0x13 3 1 2 0)) (pktG 7 0 0))) 0 3 = 2 ^ 64 - 1 ∧
    gGet (after (exec (.integerOp 0 (r3 0 3 1 2 1)) (pktG 0x7FFFFFFF 1 0))) 0 3 = 2 ^ 64 - 2 ^ 31 := by decide +kernel

theorem witness_BranchesAndConstants :
    (∀ c ∈ [0, 1, 2, 3, 4, 5], rowOfWord (br c 1 2 4) = .branch) ∧ Begins .branch 0 (br 0 1 2 4) (pktG 5 5 0) (pktG 5 5 0) ∧
    Begins .branch 0 (br 0 1 2 4) (pktG 5 6 0) (pktG 5 6 0) ∧
    Begins .loop 0 (br 6 0 0 4) (pktG 1 0 0) (pktG 1 0 0) ∧ Begins .loop 0 (br 6 1 0 4) (pktG 1 0 0) (pktG 1 0 0) ∧
    Begins .loop 0 (br 6 1 0 4) (pktG 2 0 0) (pktG 2 0 0) ∧
    Begins .jr 0 (r3 0x38 3 1 0 0) (pktG 8 0 0) (pktG 8 0 0) ∧ Begins .jr 0 (r3 0x38 3 1 0 0) (pktG 9 0 0) (pktG 9 0 0) := by
  unfold Begins Fetched; decide +kernel

/-- Table 8.5's LOOP: a count of 1 falls through, another goes on at the target. -/
theorem test_loop : (pktOf (after (exec (.loop 0 (br 6 1 0 4)) (pktG 1 0 0))) 0).pc = 0x104 ∧
    (pktOf (after (exec (.loop 0 (br 6 1 0 4)) (pktG 2 0 0))) 0).pc = 0x110 := by decide +kernel

/-- An outstanding load to g3 of the line at 0x1000, and the Pocket that goes on under it. -/
def fill1 : FillSt := ⟨0x40, mem 0 3 1 3 0, 0x100, 0x1000, [(⟨0, 0x1000, true⟩, 8)], [], []⟩
def pktF (w : PWait) : State := setPkt 0 { pktOf pktU 0 with wait := w, fill := some fill1 } pktU

/-- Accesses in Panel 0's memory, aligned and not, and across two lines by the lane-rotate forms. -/
theorem witness_LoadsAndStores :
    (let a := panelAddr 0 + 0x20000
     let s := pktG a 0 0
     a % 16 = 0 ∧ (a + 1) % 8 ≠ 0 ∧
     (∀ q ∈ [(a, 8), (a, 16), (a + 60, 8)], ∀ st ∈ [false, true],
       let ps := placesOf 0 st (laneSplit q.1 q.2) s
       ps.2.2 = none ∧ firstMiss (pktOf ps.1 0) st ps.2.1 = none ∧ (pktOf ps.1 0).fill = none ∧
       (st = false → (readPlaces 0 0 ps.2.1 ps.1).2 = (List.replicate q.2 0, none)) ∧
       (st = true → failingPlace 0 ps.1 0 ps.2.1 = none))) ∧
    (∀ q ∈ [(mem 0 3 1 3 0, PRow.ld), (mem 1 3 1 2 0, .ld), (mem 2 3 1 3 0, .st), (mem 3 3 1 4 0, .fld), (mem 4 3 1 4 0, .fst),
      (mem 5 3 1 3 60, .ldr), (mem 6 3 1 3 60, .str)], rowOfWord q.1 = q.2) := by
  decide +kernel

/-- A cached line that is missing, an address that no region maps, and accesses under an outstanding fill. -/
theorem witness_LoadsAndStores_miss :
    Begins .ld 0 (mem 0 3 1 3 0) pktU pktU ∧
    (let ps := placesOf 0 false (laneSplit 0x1000 8) pktU
     ps.2.2 = none ∧ (pktOf ps.1 0).fill = none ∧ firstMiss (pktOf ps.1 0) false ps.2.1 = some 0x40) ∧
    (placesOf 0 false (laneSplit 0x200000 8) pktU).2.2 = some (0x200000, causeXlate) ∧
    Begins .ld 0 (mem 0 4 1 3 0) (pktF .none) (pktF .none) ∧
    (let ps := placesOf 0 false (laneSplit 0x1000 8) (pktF .none)
     ps.2.2 = none ∧ (pktOf ps.1 0).fill = some fill1 ∧ meetsFill (pktOf ps.1 0) false fill1 ps.2.1 = true) ∧
    Fetched .integerOp 0 (r3 0 3 1 2 0) (pktF .none) (pktF .none) ∧ mustWait (pktOf (pktF .none) 0) .integerOp (r3 0 3 1 2 0) = true ∧
    Fetched .fence 0 (sys 4 0 0 0) (pktF .none) (pktF .none) := by
  unfold Begins Fetched; decide +kernel

/-- The fill completes, with the Pocket going on under it and with an instruction stalled by it. -/
theorem witness_LoadsAndStores_fill :
    ∀ w ∈ [PWait.none, .fill (r3 0 3 1 2 0)],
      let s := pktF w
      let r := fetchLine 0 fill1.line (dropLine 0 fill1.line (setPkt 0 { pktOf s 0 with fill := none } s))
      let r2 := serveAccess 0 fill1 (setPkt 0 { pktOf r.1 0 with filled := fill1.line :: fill1.got } r.1)
      working s = true ∧ (pktOf s 0).fill = some fill1 ∧ (pktOf s 0).wait = w ∧ r.2 = 0 ∧
      firstMiss (pktOf r.1 0) (isStore fill1.word) fill1.places = none ∧ r2.2 = none ∧
      (pktOf (countInstr 0 (setPkt 0 { pktOf r2.1 0 with filled := [] } r2.1)) 0).fill = none := by
  decide +kernel

theorem witness_HeldLinesServeAccesses :
    (let e : L1Line := { line := 0x40, way := 0, dirty := false, data := List.replicate 64 7 }
     let s := setPkt 0 { pktOf pktU 0 with sets := [(0x40, [e])] } pktU
     (l1Lines (pktOf s 0) (0x1008 / 64)).find? (fun e => decide (e.line = 0x1008 / 64)) = some e ∧ e.hard = [] ∧ e.data.length = 64 ∧
     0x1008 % 64 + 8 ≤ 64) ∧
    inL1 (pktOf pktU 0) 0x40 = false ∧ inVictim (pktOf pktU 0) 0x40 = false := by decide +kernel

/-- CAS with the value held and with another, and AADD, at a word of Panel 0's memory. -/
theorem witness_AtomicsReadThenWrite :
    ∀ old ∈ [0, 1],
      let a := panelAddr 0 + 0x20000
      let s := pktG a old 9
      let u := drainFor 0 (a / 64) s
      a % 8 = 0 ∧ (pTranslate 0 a true true false s).2 = ⟨0, a, false⟩ ∧ regionOf s a = .panel 0 0x20000 ∧
      (physRead a 8 u).2 = (stOK, List.replicate 8 0) ∧ (physWrite a (toBytes 8 9) (physRead a 8 u).1).2 = stOK ∧
      (physWrite a (toBytes 8 old) (physRead a 8 u).1).2 = stOK ∧
      rowOfWord (r3 0x30 3 1 2 0) = .cas ∧ rowOfWord (r3 0x31 3 1 2 0) = .aadd := by decide +kernel

/-- R172: CAS with the value held stores D and puts the old value there. -/
theorem test_cas :
    let a := panelAddr 0 + 0x20000
    let t := after (exec (.cas 0 (r3 0x30 3 1 2 0)) (pktG a 0 9))
    memBytes t a 8 = toBytes 8 9 ∧ gGet t 0 3 = 0 := by decide +kernel

theorem witness_CacheMaintenance :
    (pTranslate 0 0x1000 true false false pktU).2 = ⟨0, 0x1000, true⟩ ∧ (pTranslate 0 0x1000 false true false pktU).2 = ⟨0, 0x1000, true⟩ ∧
    (pktOf pktU 0).fill = none ∧ heldLine (pktOf pktU 0) 0x40 = none ∧ Begins .inv 0 (sys 5 0 1 1) pktU pktU ∧
    Begins .clinv 0 (sys 5 0 1 2) pktU pktU ∧ Begins .zero 0 (sys 5 0 1 3) pktU pktU ∧ Begins .clean 0 (sys 5 0 1 0) pktU pktU ∧
    (let a := panelAddr 0 + 0x20000
     (pTranslate 0 a false true false (pktG a 0 0)).2 = ⟨0, a, false⟩ ∧
     (meshWrite (pktInit (pktG a 0 0) 0) (a / 64 * 64) (List.replicate 64 0) (drainStores 0 (pktG a 0 0))).2 = stOK) ∧
    (pktOf (pktG 0 0 0) 0).priv = true ∧ Begins .setWayClean 0 (sys 5 0 1 4) (pktG 0 0 0) (pktG 0 0 0) ∧
    Begins .setWayInv 0 (sys 5 0 1 5) (pktG 0 0 0) (pktG 0 0 0) ∧ Begins .setWayClinv 0 (sys 5 0 1 6) (pktG 0 0 0) (pktG 0 0 0) ∧
    Begins .clinvVc 0 (sys 5 0 1 7) (pktG 0 0 0) (pktG 0 0 0) := by
  unfold Begins Fetched; decide +kernel

theorem witness_UnitsMatchAndWaits :
    (let a := panelAddr 0 + 0x20000
     let s := pktG a 0 0
     ∀ sel ∈ [1, 2, 3, 4, 5, 6],
      Begins .unit 0 (sys 1 0 1 sel) s s ∧ a % 64 = 0 ∧ wArg (sys 1 0 1 sel) % 16 = sel ∧
      (pTranslate 0 a true true false s).2 = ⟨0, a, false⟩ ∧ blockSpace s 0 a = true ∧
      (∀ w ∈ [PWait.none, .unit a sel],
        let u := setPkt 0 { pktOf s 0 with wait := w } s
        let d := drainStores 0 (setPkt 0 { pktOf u 0 with wait := .none } u)
        working u = true ∧ (pktOf u 0).halted = false ∧ (pktOf u 0).cut = false ∧ (pktOf d 0).task = some 0 ∧
        unitRoom u 0 sel (memBytes u a 64) = true ∧ unitRoom d 0 sel (memBytes d a 64) = true ∧
        (physWrite (a + 0x38) [0, 0, 0, 0] d).2 = stOK)) := by
  unfold Begins Fetched; decide +kernel

/-- A lookup that is sent, one whose second part is not mapped, and responses with status OK and another. -/
theorem witness_UnitsMatchAndWaits_match :
    (let a := panelAddr 0 + 0x20000
     let s := pktG a 0 0
     Begins .matchReq 0 (sys 2 3 1 0) s s ∧ a % 16 = 0 ∧ (pktOf s 0).task = some 0 ∧
     (matchRead 0 (laneSplit a 48) s).2 = (List.replicate 48 0, none)) ∧
    (let s := setPkt 0 { pktOf pktU 0 with g := [(1, 0x200000)] } pktU
     Begins .matchReq 0 (sys 2 3 1 0) s s ∧ gGet s 0 1 % 16 = 0 ∧
     (matchRead 0 (laneSplit 0x200000 48) s).2.2 = some (0x200000, causeXlate)) ∧
    (∀ st ∈ [stOK, 4],
      let bs := BitVec.ofNat 8 st :: List.replicate 15 0
      let s := setPkt 0 { pktOf pkt1 0 with wait := .resp 3 } { pkt1 with ma := { resp := [(0, bs)] } }
      working s = true ∧ (pktOf s 0).wait = .resp 3 ∧ kFind s.ma.resp 0 = some bs ∧ numAt bs 0 1 = st) := by
  unfold Begins Fetched; decide +kernel

/-- WAITD begun and waiting, with bit 31 clear and set. -/
theorem witness_UnitsMatchAndWaits_watch :
    ∀ v ∈ [0, 0x80],
      let a := panelAddr 0 + 0x20038
      let s := setBytes (a + 3) [v] (pktG a 0 0)
      let u := setPkt 0 { pktOf s 0 with wait := .watch a } s
      (watchWord 0 a s).2 = (0, v.toNat * 2 ^ 24) ∧ Begins .waitd 0 (sys 3 0 1 0) s s ∧ gGet s 0 1 = a ∧
      working u = true ∧ (pktOf u 0).wait = .watch a ∧ (pktOf u 0).halted = false ∧ (pktOf u 0).cut = false ∧
      (watchWord 0 a u).2 = (0, v.toNat * 2 ^ 24) := by
  unfold Begins Fetched; decide +kernel

theorem witness_TrapsReturnsAndControlRegisters :
    (pktOf pkt1 0).nest = false ∧ Begins .call 0 (sys 6 0 0 7) (pktG 0 0 0) (pktG 0 0 0) ∧
    (let s := setPkt 0 { pktOf (pktG 0 0 0) 0 with ppriv := true } (pktG 0 0 0)
     Begins .ret 0 (sys 0x11 0 0 0) s s ∧ (pktOf s 0).priv = true ∧ ((pktOf s 0).bare && !(pktOf s 0).ppriv) = false) ∧
    (∀ n ∈ [0, 1, 2, 3, 4, 5, 8, 9, 0x0A, 0x0B, 0x0C, 0x0D, 0x0E], crListed n = true ∧ rowOfWord (sys 7 3 0 n) = .rdcr ∧
      rowOfWord (sys 0x10 0 1 n) = .wrcr) ∧
    Begins .undefined 0 (sys 0x3F 0 0 0) (pktG 0 0 0) (pktG 0 0 0) ∧ (pktOf pktU 0).priv = false ∧
    (∀ q ∈ [(sys 0x11 0 0 0, PRow.ret), (sys 0x10 0 1 5, .wrcr), (sys 0x12 2 1 0, .report), (sys 0x13 3 1 0, .rgld),
      (sys 0x14 0 1 0, .tlbiAll), (sys 5 0 1 4, .setWayClean), (sys 5 0 1 7, .clinvVc)], Begins q.2 0 q.1 pktU pktU) := by
  unfold Begins Fetched; decide +kernel

theorem witness_ReportsRegionsAndTlbs :
    (pktOf (pktG 0 5 0) 0).priv = true ∧ Begins .report 0 (sys 0x12 2 1 0) (pktG 0 5 0) (pktG 0 5 0) ∧ (pktOf (pktG 0 5 0) 0).task = some 0 ∧
    Begins .rgld 0 (sys 0x13 3 1 2) (pktG 0 5 0) (pktG 0 5 0) ∧
    (let a := panelAddr 0 + 0x20000
     Begins .rgld 0 (sys 0x13 3 1 2) (pktG a 5 0) (pktG a 5 0) ∧ a ≠ 0 ∧ a < 2 ^ 48 ∧
     (meshRead (pktInit (pktG a 5 0) 0) a 32 (drainStores 0 (pktG a 5 0))).2.1 = stOK) ∧
    Begins .tlbiAll 0 (sys 0x14 0 1 0) (pktG 0 5 0) (pktG 0 5 0) ∧
    Begins .tlbiSlot 0 (sys 0x14 0 1 1) (pktG 0 5 0) (pktG 0 5 0) ∧ Begins .tlbiInstance 0 (sys 0x14 0 1 2) (pktG 0 5 0) (pktG 0 5 0) := by
  unfold Begins Fetched; decide +kernel

theorem witness_HaltDebugAndGating :
    (let s := regs [(Reg.PKT_LV_IDLE 0, 100)] { setPkt 0 { pktOf pkt1 0 with lvGated := false } pkt1 with cyc16 := 1600 }
     (pktOf s 0).lvGated = false ∧ rFld s (Reg.PKT_LV_IDLE 0) 15 0 ≠ 0 ∧
     (pktOf s 0).lvAt + 16 * max 64 (rFld s (Reg.PKT_LV_IDLE 0) 15 0) ≤ s.cyc16) ∧
    takes pkt1 wa (Reg.PKT_CTRL 0) = true ∧ takes pkt1 wa (Reg.PKT_DBG_DATA_HI 511) = true ∧ (pktOf pkt1 0).wait = .none ∧
    (∀ sel ∈ [3, 35, 65],
      let s := regs [(Reg.PKT_DBG_SEL 0, sel)] (setPkt 0 { pktOf pkt1 0 with halted := true } pkt1)
      (pktOf s 0).halted = true ∧ rFld s (Reg.PKT_DBG_SEL 0) 6 0 = sel) := by
  decide +kernel


/-- The state of `pktG` with predicate p1 true for element 0 alone. -/
def pktV (a b : Nat) : State := setPkt 0 { pktOf (pktG a b 0) 0 with pr := [(1, 1)] } (pktG a b 0)

/-- Element 0 active, element 1 kept; a long view; EW of every width. -/
theorem witness_VectorElementsAreWrittenOneByOne :
    (∀ o ∈ [0x10, 0x11, 0x12, 0x13, 0x14, 0x15, 0x18, 0x1D, 0x1E, 0x20, 0x21, 0x22, 0x23, 0x24, 0x25, 0x2A, 0x2B], ∀ l ∈ [0, 1],
      rowOfWord (vec l o 3 1 2 1 3 0) = .vectorArithmetic ∧ vOp (vec l o 3 1 2 1 3 0) = o) ∧
    (∀ q ∈ [(vec 0 0x26 3 1 2 1 3 0, PRow.vsrr), (vec 0 0x27 3 1 2 1 3 0, .vresc), (vec 0 0x28 3 1 2 1 3 0, .vunzz),
        (vec 0 0x29 3 1 2 1 3 0, .vscan), (vec 0 0x3D 3 1 2 1 3 0, .vsplat), (vec 0 0x2C 3 1 2 1 3 0, .vectorFloat),
        (vec 0 0x2D 3 1 2 1 2 0, .vectorFloat), (vec 0 0x2E 3 1 2 1 3 0, .vectorFloat), (vec 0 0x2F 3 1 2 1 3 0, .vectorFloat)],
      Begins q.2 0 q.1 (pktV 0 1) (pktV 0 1)) ∧
    bit (gGet (pktV 0 1) 0 2) 10 = false ∧ 1 ≤ gGet (pktV 0 1) 0 2 % 32 ∧ gGet (pktV 0 1) 0 2 % 32 ≤ 16 := by
  unfold Begins Fetched; decide +kernel

theorem witness_VectorReductionsMovesAndPredicates :
    ∀ q ∈ [(vec 0 0x19 3 1 2 1 2 0, PRow.vmulwl), (vec 1 0x1A 3 1 2 1 3 0, .vmulwl), (vec 0 0x1B 3 1 2 1 3 0, .vredadd),
        (vec 0 0x1C 3 1 2 1 3 0, .vcomp), (vec 0 0x3E 3 1 2 1 3 0, .vext), (vec 0 0x3F 3 1 2 1 3 0, .vins),
        (vec 0 0x30 3 1 2 1 3 0, .vcmp), (vec 0 0x31 3 1 2 1 3 0, .vcmp), (vec 0 0x32 3 1 2 1 3 0, .vcmp), (vec 0 0x33 3 1 2 1 3 0, .vcmp),
        (vec 0 0x34 3 1 2 1 3 0, .vcmp), (vec 0 0x35 3 1 2 1 3 0, .vcmp), (vec 0 0x36 3 1 2 1 3 0, .vwhilelt),
        (vec 0 0x38 3 1 2 1 3 0, .predicateOp), (vec 0 0x39 3 1 2 1 3 0, .predicateOp), (vec 0 0x3A 3 1 2 1 3 0, .predicateOp),
        (vec 0 0x3B 3 1 2 1 3 0, .predicateOp), (vec 0 0x3C 3 1 2 1 3 0, .pcnt)],
      Begins q.2 0 q.1 (pktV 0 1) (pktV 0 1) := by
  unfold Begins Fetched; decide +kernel

/-- An instruction whose element 0 is active and element 1 is not; σ 0 is the state given, and every later σ is the one that
element 0 leaves. -/
theorem witness_VectorElementsInOrder :
    (let a := panelAddr 0 + 0x20000
     let s := pktV a 0
     let r := physRead a 32 (drainFor 0 (a / 64) s)
     (pktOf s 0).vxStart = 0 ∧ vLong (vec 0 0 3 1 2 1 3 0) = false ∧ vCount (vec 0 0 3 1 2 1 3 0) = 2 ∧ vWidth (vec 0 0 3 1 2 1 3 0) = 64 ∧
     (∀ o ∈ [0, 1, 2, 3, 4, 5, 6, 7, 8, 0x16, 0x17, 0x27],
       let w := vec 0 o 3 1 2 1 3 0
       Begins (rowOfWord w) 0 w s s ∧ rowOfWord w ≠ .undefined ∧ active s 0 w 0 = true ∧ active s 0 w 1 = false ∧ vZ w = false) ∧
     (elemLoad 0 a 8 8 s).2 = ((0, 0), List.replicate 8 0) ∧ (elemStore 0 a (toBytes 8 5) s).2 = 0 ∧
     a % 32 = 0 ∧ (pTranslate 0 a true true false s).2 = ⟨0, a, false⟩ ∧ r.2 = (stOK, List.replicate 32 0) ∧
     (aggAdd (List.replicate 32 0) (toBytes 8 0 ++ toBytes 16 7 ++ toBytes 8 1)).2 = false ∧
     (physWrite a (List.replicate 32 1) (meshAccess (pktInit r.1 0) 3 a 32 stOK (List.replicate 16 0) r.2.2 r.1)).2 = stOK) ∧
    (let a := panelAddr 0 + 0x20000
     ∀ ctl ∈ [0, 17],
      let s := pktV a ctl
      fld ctl 6 0 ≤ 64 ∧ (elemLoad 0 a 3 1 s).2 = ((0, 0), List.replicate 3 0)) ∧
    (let s := pktV (panelAddr 0 + 0x20000) 1024
     bit (gGet s 0 2) 10 = true ∧ rescale (gGet s 0 2) 5 = 5) := by
  unfold Begins Fetched; decide +kernel

/-- The first element misaligned, at a hole and in no region; the second at a hole, with the first already done. -/
theorem witness_VectorFaultsResume :
    (∀ q ∈ [(0, panelAddr 0 + 0x20001, causeAlign), (0, 2 ^ 46, causeUncorr), (1, 2 ^ 46, causeUncorr)],
      let s := setPkt 0 { pktOf (pktV q.2.1 0) 0 with vxStart := q.1, pr := [(1, 0x101)] } (pktV q.2.1 0)
      let w := vec 0 0 3 1 2 1 3 0
      Begins .vld 0 w s s ∧ q.1 < vCount w ∧ active s 0 w q.1 = true ∧
      (elemLoad 0 (q.2.1 + 8 * q.1) 8 8 s).2.1 = (q.2.2, q.2.1 + 8 * q.1)) ∧
    (let s := setPkt 0 { pktOf pktU 0 with pr := [(1, 1)], g := [(1, 0x200000)] } pktU
     Begins .vld 0 (vec 0 0 3 1 2 1 3 0) s s ∧ (pTranslate 0 0x200000 true false false s).2.cause = causeXlate ∧
     (elemLoad 0 0x200000 8 8 s).2.1 = (causeVector, 0x200000)) := by
  unfold Begins Fetched; decide +kernel

/-- Chapter 09's worked encodings: a long VMULWL with D 8, A 2, B 3 and EW 3, and a long VRESC with D 8, A 8, B 9 and EW 4. -/
theorem test_chapter9_words :
    vec 1 0x19 8 2 3 0 3 0 = 0xF6502186 ∧ rowOfWord 0xF6502186 = .vmulwl ∧ vec 1 0x27 8 8 9 0 4 0 = 0xF9D08488 ∧
    rowOfWord 0xF9D08488 = .vresc := by decide +kernel

/-- Table 9.7, columns HALF_EVEN, HALF_UP, TRUNC and AWAY; the divisor is positive. -/
theorem witness_RoundingModes : 0 < 1000000 ∧
    ([2, 1, 0, 3].map fun m => [112930438895, 1250500000, -375150000].map (rescale (m * 256 + 0xFA))) =
      [[112930, 1250, -375], [112930, 1251, -375], [112930, 1250, -375], [112931, 1251, -376]] := by decide +kernel

/-! ### Chapters 10 and 11: rings, memory and translation -/

/-- A device whose instance 0 has job ring 0 and completion ring 0 of 16 entries enabled, behind a link that is up. -/
def ring1 (x : JobRing) (c : ComplRing) : State :=
  regs [(Reg.INST_JR_SIZE 0 0, 4), (Reg.INST_JR_CTRL 0 0, 1), (Reg.INST_CR_SIZE 0 0, 4), (Reg.INST_CR_CTRL 0 0, 1),
        (Reg.INST_JR_BASE_LO 0 0, 0x10000), (Reg.INST_CR_BASE_LO 0 0, 0x20000)]
    (setCr 0 0 c (setJr 0 0 x { job1 with portA := { up := true, fns := [(0, { memEn := true, busMaster := true, msixEn := true })] } }))

def compl1 : Compl :=
  { ring := 0, cr := 0, tag := 5, status := 0, gen := 0, kind := 1, detail := 0, serial := 3, rows := 0, bytes := 0, seam := 0,
    intr := true, job := some 0, inOvf := false, usesTag := true }

/-- A doorbell that adds entries, one to a ring out of service, and one that finds bad ring state. -/
theorem witness_DoorbellsAndFetches :
    (let s := ring1 {} {}
     takes s wa (tailAddr 0 0) = true ∧ s.dev.mode = .service ∧ halted s = false ∧ hasFunction s 0 = true ∧ jrEn s 0 0 = true ∧
     (jrOf s 0 0).bad = false ∧ (jrOf s 0 0).entries.length = 0 ∧
     (let w : W32 := 0x10003
      fld (3 : W32).toNat 17 16 = 0 ∧ fld w.toNat 15 0 < 2 ^ rFld s (Reg.INST_JR_SIZE 0 0) 4 0 ∧ 2 ^ rFld s (Reg.INST_JR_SIZE 0 0) 4 0 ≤ 16)) ∧
    (jrOf (ring1 { bad := true } {}) 0 0).bad = true ∧ hasFunction (ring1 { bad := true } {}) 0 = true ∧
    takes (ring1 { bad := true } {}) wa (tailAddr 0 0) = true ∧
    jrEn (ring1 {} {}) 0 1 = false ∧ takes (ring1 {} {}) wa (tailAddr 0 1) = true ∧ (inMode .drain (ring1 {} {})).dev.mode ≠ .service ∧
    (∀ q ∈ [([], [.unread, .unread]), ([RingEntry.fetched (List.replicate 128 0)], [RingEntry.unread])],
     let x : JobRing := { entries := q.1 ++ q.2 }
     let s := ring1 x {}
     let k := q.1.length
     let m := q.2.length
     (∀ e ∈ x.entries.take k, e ≠ .unread) ∧ x.entries.drop k = List.replicate m .unread ++ [] ∧
     (x.head + k) % 16 + m ≤ 16 ∧ halted s = false ∧ jrEn s 0 0 = true ∧ x.failed = false ∧
     (hostRead s 0 (jrBase s 0 0 + 128 * ((x.head + k) % 16)) (128 * m)).isSome = true) ∧
    takes (ring1 {} {}) wa (Reg.INST_CR_HEAD 0 0) = true ∧ 2 ^ rFld (ring1 {} {}) (Reg.INST_CR_SIZE 0 0) 4 0 = 16 := by decide +kernel

/-- A RUN entry with tag t. -/
def entry1 (t : Nat) : List Byte := toBytes 4 (11 + t * 65536) ++ List.replicate 124 0

/-- An EXPRESS entry with tag t. -/
def entryX (t : Nat) : List Byte := toBytes 4 (8 + 3 + t * 65536) ++ List.replicate 124 0

/-- A duplicate tag breaks an entry check; another tag passes and is accepted, or finds the instance's job records used; an
instance that a walk has stopped. -/
theorem witness_EntriesAreAccepted :
    (∀ m ∈ [Mode.service, .drain], ∀ t ∈ [5, 7],
      let s := inMode m (ring1 { entries := [.pushed (entry1 t)] } {})
      let y : JobRing := { head := 1, accepted := 1 }
      halted s = false ∧ ovfFull s 0 = false ∧ jrEn s 0 0 = true ∧ (jrOf s 0 0).bad = false ∧ s.xl.stopped.contains 0 = false ∧
      entryCheck (writeShadow 0 0 (bump (Reg.INST_JOBS_ACCEPTED 0) 1 (setJr 0 0 y s))) 0 true (entry1 t)
        = if t = 5 then some 0x83 else none) ∧
    (let s := regs [(Reg.INST_CUFF_JOBS 0, 1)] (ring1 { entries := [.fetched (entry1 7)] } {})
     rFld s (Reg.INST_CUFF_JOBS 0) 14 0 ≤ (instJobs s 0).length) ∧
    (let s := ring1 {} {}
     ({ s with xl := { s.xl with stopped := [0] } }).xl.stopped.contains 0 = true) := by decide +kernel

/-- Entries whose start checks pass and fail. -/
theorem witness_EntriesAreAccepted_start :
    ∀ k ∈ [0, 9],
      let bs := entry1 7
      let s := ring1 { entries := [.fetched bs] } {}
      let s := { s with pat := { s.pat with slots := [(k, pattern1)] } }
      let s1 := writeShadow 0 0 (bump (Reg.INST_JOBS_ACCEPTED 0) 1 (setJr 0 0 { head := 1, accepted := 1 } s))
      let q := jobFrom s1 0 0 bs
      let s0 := { s1 with sched := { s1.sched with serial := (s1.sched.serial + 1) % 65536 } }
      (instJobs s 0).length < rFld s (Reg.INST_CUFF_JOBS 0) 14 0 ∧ s.sched.jobs.length < 16384 ∧ q.kind ≠ .express ∧
      (startChecks q (numAt bs 0x20 8) (numAt bs 0x28 8) (numAt bs 4 4) s0).2
        = if k = 0 then .inl ([2], []) else .inr (stPattern, 2) := by decide +kernel

theorem witness_CompletionsAreWritten :
    (let s := setInst 0 { compl := [compl1] } (ring1 {} { free := 16 })
     working s = true ∧ hasFunction s 0 = true ∧ compl1.cr < 4 ∧
     (instOf s 0).compl.find? (fun c => hasRoom s 0 c && (c.inOvf || !ovfFull s 0)) = some compl1) ∧
    (let s := setInst 0 { compl := [compl1] } (ring1 {} { free := 0 })
     working s = true ∧ (instOf s 0).compl = [compl1] ∧ (∀ d ∈ [compl1], hasRoom s 0 d = false) ∧ ovfFull s 0 = false) ∧
    (let s := regs [(Reg.INST_CR_MOD 0 0, 256)] { ring1 {} { since := 1 } with now := 160 }
     rFld s (Reg.INST_CR_MOD 0 0) 23 8 = 1 ∧ (crOf s 0 0).since ≠ 0 ∧ (crOf s 0 0).firstAt + 160 * 1 ≤ s.now) := by decide +kernel

/-- An abort of the job of tag 5, one of a job that failed in this cycle, and one of a tag that no job holds. -/
theorem witness_AbortsRingsAndResets :
    takes (ring1 {} {}) wa (Reg.INST_ABORT 0) = true ∧
    (∀ x ∈ [none, some stArith],
      let s := ring1 {} {}
      let r := { run1 with status := x, failedAt := some s.now }
      let s := { s with sched := { s.sched with jobs := [(0, r)] } }
      let mine := fun (p : Nat × JobRec) => p.2.tag = 5 && p.2.gen = 0 && p.2.status.isNone && !p.2.formed
      let late := (instJobs s 0).find? fun p => p.2.tag = 5 && p.2.gen = 0 && failedNow s p.2
      (instOf s 0).gen = 0 ∧ halted s = false ∧
      (x = none → (instJobs s 0).find? mine = some (0, r)) ∧
      (x ≠ none → (instJobs s 0).find? mine = none ∧ late = some (0, r))) ∧
    (instJobs (ring1 {} {}) 0).find? (fun p => decide (p.2.tag = 6)) = none ∧
    reaches (ring1 {} {}) .portA 0 (Reg.INST_ABORT_RESULT 0) = true ∧ dead (ring1 {} {}) = false ∧
    takes (ring1 {} {}) wa (Reg.INST_JR_CTRL 0 7) = true ∧ jrEn (ring1 {} {}) 0 7 = false ∧ jrEn (ring1 {} {}) 0 0 = true ∧
    takes (ring1 {} {}) wa (Reg.INST_CR_CTRL 0 3) = true ∧ crEn (ring1 {} {}) 0 3 = false ∧ crEn (ring1 {} {}) 0 0 = true ∧
    (let s := setInst 0 { gen := 1, resetting := true } job1
     (instOf s 0).resetting = true ∧ ∀ p ∈ instJobs { s with sched := {} } 0, p.2.gen = 1) := by decide +kernel

/-- A write to an empty queue and to a full one. -/
theorem witness_MemoryReadsWhatWasWritten :
    regionOf svc 0x1000 = .hbm 0 0x1000 ∧ (pcWrites svc 0 (pcAt 0 0x1000)).length < 64 ∧ pcWrites svc 0 (pcAt 0 0x1000) = [] ∧
    pcReads svc 0 (pcAt 0 0x1000) = [] ∧ (hmcOf svc 0).input = [] ∧ wqFind (hmcOf svc 0).wq 0x40 = none ∧
    (∀ w ∈ lineWords 0x1000, eccOf svc w < 2) ∧ (∀ w ∈ rangeWords 0x1000 8, eccOf svc w < 2) ∧
    (let q := fun (k : Nat) => ({ line := 0x800 + 0x8000 * k, bytes := [(0, 1)], prio := 0, at_ := 0 } : WqLine)
     let s := setHmc 0 { hmcOf svc 0 with wq := (List.range 64).map q } svc
     let a := 64 * 0x800 + 0x4000
     regionOf s 0x1000 = .hbm 0 0x1000 ∧ wqFind (hmcOf s 0).wq (0x1000 / 64) = none ∧
     ((List.range 64).filter fun k => pcAt 0 ((q k).line * 64) = pcAt 0 ((q 0).line * 64)).length ≤ 64 ∧ a ≠ 0) := by
  decide +kernel

/-- A full queue of one pseudo-channel. -/
theorem witness_MemoryReadsWhatWasWritten_full :
    let s := setHmc 0 { hmcOf svc 0 with wq := (List.range 64).map fun k =>
      { line := 0x8000 * (k + 1), bytes := [(0, 1)], prio := 0, at_ := 0 } } svc
    64 ≤ (pcWrites s 0 (pcAt 0 0)).length ∧ wqFind (hmcOf s 0).wq 0 = none := by decide +kernel

/-- An uncorrectable word, a waiting line that covers a read in part, and a port whose link is up or down. -/
theorem witness_MemoryReadsWhatWasWritten_reads :
    (let s := { svc with mem := { ecc := [(0x200, 2)] } }
     ∃ w ∈ rangeWords 0x1000 8, 2 ≤ eccOf s w) ∧
    (let q : WqLine := { line := 0x40, bytes := [(0, 1)], prio := 0, at_ := 0 }
     let s := setHmc 0 { hmcOf svc 0 with wq := [q] } svc
     regionOf s 0x1000 = .hbm 0 0x1000 ∧ wqFind (hmcOf s 0).wq (0x1000 / 64) = some q ∧ wqMeets q 0x1000 8 = true ∧
     wqCovers q 0x1000 8 = false ∧ pcWrites s 0 (pcAt 0 0x1000) = [q] ∧ (∀ p ∈ q.bytes, p.1 < 64)) ∧
    (∀ up ∈ [true, false],
      let s := setCxt 0 { units := 4, modUp := true, linkUp := up } svc
      0x1000 < capBytes s 0 ∧ capBytes s 0 ≤ 2 ^ 39 ∧ (cxtOf s 0).linkUp = up ∧ (∀ w ∈ rangeWords (capAddr 0 0x1000) 8, eccOf s w < 2) ∧
      ∀ w ∈ lineWords (capAddr 0 0x1000), eccOf s w ≠ 3) := by
  decide +kernel

theorem witness_MemoryHousekeeping :
    (let s := { regs [(Reg.HMC_CTRL 0, 0x60), (Reg.HMC_SR_IDLE 0, 1)] (setHmc 0 { hmcOf svc 0 with trained := true } svc) with now := 1600 }
     rBit s (Reg.HMC_CTRL 0) 5 = true ∧ (hmcOf s 0).selfRef.contains 3 = false ∧
     kGet 0 (hmcOf s 0).lastReq 3 + 1600 * rFld s (Reg.HMC_SR_IDLE 0) 15 0 ≤ s.now ∧ rBit s (Reg.HMC_CTRL 0) 6 = true ∧
     (hmcOf s 0).trained = true ∧ (hmcOf s 0).failed = false) ∧
    (inMode .bringup svc).dev.mode = .bringup ∧ reaches (inMode .bringup svc) wa.path wa.fn (Reg.HMC_1500_CMD 7) = true ∧
    dead (inMode .bringup svc) = false ∧ takes (inMode .diagnose svc) wa (Reg.HMC_1500_CMD 7) = true ∧
    takes svc wa (Reg.HMC_1500_CMD 0) = true ∧
    (let s := regs [(Reg.CXT_CTRL 1, 1)] (setCxt 1 { units := 4, modUp := true, linkUp := true } svc)
     (cxtOf s 1).linkUp = true ∧ rBit s (Reg.CXT_CTRL 1) 0 = true ∧ 65536 ≤ capBytes s 1 ∧ capBytes s 1 ≤ 2 ^ 39) ∧
    (let s := setCxt 0 { rstHeld := false, present := true } svc
     cxtTrains s 0 8 5 = true ∧ cxtTrains { s with dev := { s.dev with devC := .switch } } 0 8 5 = false) := by decide +kernel

/-- A device with instance 0's region table at 0x40000, whose slot 1 is given. -/
def xl1 (x : XlSt) (d : List (Nat × Nat)) : State :=
  setBytes 0x40020 ((block d).take 32) (regs [(Reg.HMC_CTRL 0, 0)] { pkt1 with xl := { x with rtBase := [(0, 0x40000)] } })

/-- A parked region of one unit in port 0's half; a valid region that grants a read; a region that a promotion failed for. -/
def parked : List (Nat × Nat) := [(0, 0x200), (4, 1), (0x14, 0x1000000)]
def granted : List (Nat × Nat) := [(0, 0x1F), (4, 1), (0x10, 1)]
def failed1 : List (Nat × Nat) := [(0, 0x4200), (4, 1), (0x14, 0x1000000)]

theorem witness_TranslationCommands :
    takes svc wa Reg.XL_INVAL = true ∧ takes svc wa Reg.XL_PROMO_REQ = true ∧
    invalOwed svc (0, 0, 0) = false ∧ invalOwed (pktF .none) (0, 0, 0) = true ∧
    takes svc wa Reg.XL_RT_SEL = true ∧ stagePending svc Reg.XL_PAGE = false ∧
    stagePending { svc with rf := { svc.rf with pend := [(Reg.XL_RT_BASE_LO, 0)] } } Reg.XL_PAGE = true := by decide +kernel

/-- The device with pool 0 of one chunk and port 0's module. -/
def pool1 (x : XlSt) (d : List (Nat × Nat)) : State :=
  regs [(Reg.XL_POOL_CFG 0, 4), (Reg.CXT_CTRL 0, 0)] (setCxt 0 { units := 4, modUp := true, linkUp := true } (xl1 x d))

/-- A promotion and a demotion that start, and requests that are turned away. -/
theorem witness_TranslationCommands_start :
    (let s := pool1 { queue := [⟨0, 1, true⟩] } parked
     let r := meshRead promoInit (walkAddr s 0 1) 32 { s with xl := { s.xl with queue := [] } }
     let d := descOf r.2.2
     working s = true ∧ s.xl.active.length < 8 ∧ r.2.1 = stOK ∧ d.v = false ∧ d.p = true ∧
     d.pf = false ∧ (List.range (poolChunks r.1 d.pool)).find? (fun c => !(poolTaken r.1 d.pool).contains c) = some 0 ∧ 1 ≤ d.len ∧
     d.len * 65536 ≤ poolChunk r.1 d.pool ∧ inCap r.1 (d.home * 65536) (d.len * 65536) = true ∧
     cuffCovers r.1 0 (d.home * 65536) (d.len * 65536) = true) ∧
    (let s := pool1 { queue := [⟨0, 1, false⟩] } [(0, 0x1F), (4, 1)]
     let r := meshRead promoInit (walkAddr s 0 1) 32 { s with xl := { s.xl with queue := [] } }
     let d := descOf r.2.2
     let w0 := numAt r.2.2 0 4
     let off := d.base * 65536 - poolBase r.1 d.pool
     working s = true ∧ r.2.1 = stOK ∧ d.v = true ∧ d.p = false ∧ poolBase r.1 d.pool ≤ d.base * 65536 ∧
     off % poolChunk r.1 d.pool = 0 ∧ off / poolChunk r.1 d.pool < poolChunks r.1 d.pool ∧
     (swapWord0 (walkAddr s 0 1) w0 (setFld (setFld w0 0 0 0) 9 9 1) r.1).2 = true) ∧
    (∀ q ∈ [(true, granted), (true, failed1), (false, parked)],
      let s := pool1 { queue := [⟨0, 1, q.1⟩] } q.2
      let r := meshRead promoInit (walkAddr s 0 1) 32 { s with xl := { s.xl with queue := [] } }
      let d := descOf r.2.2
      r.2.1 = stOK ∧ (q.1 = true → d.v = true ∨ d.p = false ∨ d.pf = true) ∧ (q.1 = false → d.v = false ∨ d.p = true)) := by
  decide +kernel

/-- The end of a promotion of an empty region, whose copy moves nothing, and of a demotion of a clean one. -/
theorem witness_TranslationCommands_done :
    (let r : PromoRun := ⟨⟨0, 1, true⟩, 0x40020, 0x200, 0, 0, 0, 0⟩
     let s := xl1 { active := [r] } [(0, 0x200)]
     let s0 := { s with xl := { s.xl with active := s.xl.active.eraseIdx 0 } }
     let s1 := physCopy (r.home * 65536) (poolBase s0 0 + 0 * poolChunk s0 0) (r.len * 65536) s0
     let s2 := meshWrite promoInit (r.daddr + 0x10) (toBytes 4 ((poolBase s0 0 + 0 * poolChunk s0 0) / 65536)) s1.1
     s.xl.active[0]? = some r ∧ s1.2 = stOK ∧ ofBytes (memBytes s1.1 r.daddr 4) = r.word0 ∧ s2.2 = stOK ∧
     (swapWord0 r.daddr r.word0 (setFld (setFld r.word0 0 0 1) 9 9 0) s2.1).2 = true) ∧
    bit 0x81 8 = false := by decide +kernel

/-- The firmware's polls: a parked region that it has asked for or not, one now valid, one whose promotion failed, and one
of no kind; and an address in no slot. -/
theorem witness_TranslationCommands_poll :
    (∀ asked ∈ [true, false], ∀ q ∈ [(parked, false, false), (granted, true, false), (failed1, false, true), ([], false, false)],
      let s := setPkt 0 { pktOf pkt1 0 with ppriv := false, cause := causeXlate, taddr := 2 ^ 36, fAcc := 1, asked := asked } (xl1 {} q.1)
      let r := meshRead (pktInit s 0) (walkAddr s 0 1) 32 s
      let d := descOf r.2.2
      working s = true ∧ (pktOf s 0).task = some 0 ∧ (pktOf s 0).halted = false ∧ (pktOf s 0).priv = true ∧ (pktOf s 0).asked = asked ∧
      (pktOf s 0).taddr / 2 ^ 36 = 1 ∧ r.2.1 = stOK ∧ descValid r.1 0 d = q.2.1 ∧ d.v = q.2.1 ∧ d.pf = q.2.2 ∧
      (d.p = true ↔ q.1 = parked ∨ q.1 = failed1)) ∧
    4096 ≤ 2 ^ 48 / 2 ^ 36 := by decide +kernel

/-! ### Chapters 12 to 14: mesh, Bulk Mover, Ledger Store, digests and keys -/

/-- A packet of a type from stop 9 to stop 12. -/
def pktTo (type : Nat) : Packet :=
  { dest := 12, src := 9, prio := 0, type := type, inst := 0, epoch := false, len := 8, sub := 3, poison := false, txn := 7, addr := 0x40000,
    status := 0, payload := [1, 2, 3, 4, 5, 6, 7, 8] }

/-- A packet at its destination, the stop of Panel 0, or at another stop. -/
def arrived (type st : Nat) : Flight := { pkt := { pktTo type with dest := st }, from_ := 4, passed := none, born := 0 }
def at1 (type st : Nat) (dom : KMap DomState) : State :=
  regs [(Reg.HMC_CTRL 0, 0)] { svc with noc := { queues := [(st, [arrived type st])], dom := dom } }

/-- Columns and rows from 0: stop 0 to 47 leaves along the row, and 7 to 47 along the column. -/
theorem witness_PacketsGoAlongTheRowFirst :
    exceptionOut svc 0 { pktTo 0 with dest := 47 } = none ∧ exceptionOut svc 7 { pktTo 0 with dest := 47 } = none ∧
    routeOut svc 0 { pktTo 0 with dest := 47 } ≠ routeOut svc 7 { pktTo 0 with dest := 47 } := by decide +kernel

/-- A mesh stop without a Panel, and the stop of Panel 0. -/
def plainStop : Nat := ((List.range 48).find? fun st => panelAt st = none).getD 0

theorem witness_MeshHopsLinksAndDomains :
    (∀ type ∈ [0, 1, 2, 3, 4, 5, 8, 9, 10, 11],
      queueOf svc 9 = [] ∧ exceptionOut svc 9 { pktTo type with src := 9 } = none ∧ (neighbour 9 (defaultOut 9 12)).isSome = true ∧
      (linkOf svc (linkKey 9 (defaultOut 9 12) (if 8 ≤ type then 1 else 0))).down = false) ∧
    panelAt plainStop = none ∧ plainStop < 48 ∧
    (∀ type ∈ [0, 1, 2, 4, 8],
      let s := at1 type plainStop []
      dead s = false ∧ firstBy (servedFirst s plainStop) ((queueOf s plainStop).filter fun f => mayLeave s plainStop f.pkt)
        = some (arrived type plainStop)) ∧
    (∀ type ∈ [0, 1, 2],
      elsewhere (at1 type plainStop []) plainStop 0x40000 = true ∧ elsewhere (at1 type (hmcStop 0) []) (hmcStop 0) 0x40000 = false ∧
      panelAt (hmcStop 0) = none ∧ (physRead 0x40000 8 (at1 type (hmcStop 0) [])).2.1 = stOK) ∧
    (∀ type ∈ [0, 2, 5],
      let f := { arrived type plainStop with bad := true }
      let s := { svc with noc := { queues := [(plainStop, [f])] } }
      firstBy (servedFirst s plainStop) ((queueOf s plainStop).filter fun f => mayLeave s plainStop f.pkt) = some f ∧
      f.bad = true ∧ (readOut f).poison = true ∧ f.pkt.type < 8) ∧
    (∀ n ∈ [0, 31], ∀ type ∈ [0, 2], ∀ d ∈ [DomState.off, .absorb],
      let s := at1 type (panelStop n) [(n, d)]
      panelAt (panelStop n) = some n ∧ delivers s n = false ∧
      firstBy (servedFirst s (panelStop n)) ((queueOf s (panelStop n)).filter fun f => mayLeave s (panelStop n) f.pkt)
        = some (arrived type (panelStop n))) ∧
    (neighbour 9 (dirNum .east)).isSome = true ∧
    (∀ x ∈ [({ fails := 1 } : LinkSt), { fails := 2 }, { deg := true, fails := 2 }, { retraining := true }],
      linkOf (setLink (linkKey 9 (dirNum .east) (planeNum .req)) x svc) (linkKey 9 (dirNum .east) (planeNum .req)) = x) ∧
    (∀ d ∈ [DomState.absorb, .absorbWake],
      let s := { svc with noc := { dom := [(0, d)], owed := [(panelStop 1, 3, 7, 0)] } }
      owedTo s (panelStop 0) = 0 ∧ domOf s 0 = d ∧ owedTo s (panelStop 1) ≠ 0 ∧ s.dev.mode ≠ .retain) ∧
    (∀ m ∈ [MemPower.retention, .off],
      let s := setPanelMem 0 .waking { svc with pwr := { svc.pwr with wakeFrom := [(0, m)] } }
      panelMem s 0 = .waking ∧ kGet .off s.pwr.wakeFrom 0 = m) := by decide +kernel

/-- Bulk Mover channel 0 of instance 0, in REG or QUEUE mode, in a state, with a descriptor of LEN bytes in host memory. -/
def bm1 (mode : Nat) (x : Chan) : State :=
  regs [(Reg.BM_CH_CTRL 0, 1 + mode), (Reg.BM_CH_POLL 0, 10), (Reg.BM_CH_QADDR_LO 0, 0x8000)]
    (setChan 0 x { svc with seam := { running := true } })
def desc1 : BmDesc := bmDescOf (toBytes 4 (1 + 16 + 64) ++ toBytes 4 0 ++ toBytes 8 0x1000 ++ toBytes 8 0x2000 ++ toBytes 8 600 ++ toBytes 8 0)

/-- A queue header in host memory whose WR is given, and its data at 0x9000. -/
def header1 (wr : Nat) : List Byte := toBytes 4 0x53515545 ++ toBytes 4 12 ++ toBytes 8 0x9000 ++ toBytes 8 wr ++ toBytes 8 0
def queue1 (wr : Nat) : State := { bm1 6 { state := .idle } with mem := { host := putBytes [] 0x8000 (header1 wr) } }

theorem witness_BulkMoverChannels :
    (let s := bm1 0 { state := .idle }
     takes s wa (Reg.BM_CH_CMD 0) = true ∧ mayStart s 0 = true ∧ rBit s (Reg.BM_CH_CTRL 0) 1 = false ∧
     stagePending s (Reg.BM_CH_PAGE 0) = false ∧ takes s wa (Reg.BM_CH_CTRL 0) = true ∧ (chanOf s 0).desc = none) ∧
    (chanOf (bm1 0 { state := .run }) 0).state ≠ .idle ∧ (chanOf svc 0).state = .disabled ∧
    (∀ wr ∈ [63, 64],
      let s := queue1 wr
      mayStart s 0 = true ∧ rBit s (Reg.BM_CH_CTRL 0) 1 = true ∧ rFld s (Reg.BM_CH_POLL 0) 15 0 ≠ 0 ∧
      (let r := readHeader (bmOwner s 0) (rBit s (Reg.BM_CH_CTRL 0) 2) 0x8000 (setChan 0 { chanOf s 0 with again := false } s)
       r.2.1 = stOK ∧ r.2.2 = some ⟨12, 0x9000, wr, 0, none⟩ ∧ (bmRead 0 true 0x9000 64 r.1).2.1 = stOK)) ∧
    descBad (bmDescOf []) = true ∧ descBad desc1 = false ∧ desc1.len = 600 ∧ desc1.shost = true ∧ desc1.dhost = true ∧
    (let s := bm1 0 { state := .run, desc := some desc1, taken := 512 }
     clocked s = true ∧ (chanOf s 0).state = .run ∧ (chanOf s 0).desc = some desc1 ∧ (chanOf s 0).stopped = false ∧
     (chanOf s 0).endAt = none ∧ (chanOf s 0).taken < desc1.len ∧ inFlight (chanOf s 0) < 64 ∧
     s.bm.chans.foldl (fun n p => n + inFlight p.2) 0 < 1024 ∧ desc1.squeue = false ∧ desc1.dqueue = false ∧
     rFld s (Reg.BM_CH_RATE 0) 15 0 = 0 ∧ desc1.swap = 0) ∧
    (let s := bm1 0 { state := .run, desc := some desc1, remain := 600, bursts := [⟨0, 256⟩] }
     halted s = false ∧ (chanOf s 0).bursts = [⟨0, 256⟩] ∧ desc1.clen = 0 ∧ rateTakes s 0 ⟨0, 256⟩ = true ∧
     (bmRead 0 true (desc1.src + 0) 256 s).2.1 = stOK ∧ chanOf (bmRead 0 true (desc1.src + 0) 256 s).1 0 = chanOf s 0) ∧
    (let b : Beat := ⟨0, 0x2000, List.replicate 64 7, 0⟩
     let s := bm1 0 { state := .run, desc := some desc1, beats := [b] }
     halted s = false ∧ (chanOf s 0).beats[0]? = some b ∧ (bmWrite 0 true b.addr b.data (setChan 0 { chanOf s 0 with beats := [] } s)).2 = stOK) ∧
    (∀ e ∈ [true, false], let x : Chan := { state := .sinking, reEn := e }
      (chanOf (bm1 0 x) 0).state = .sinking ∧ (chanOf (bm1 0 x) 0).reEn = e) := by decide +kernel

/-- An APPEND of instance 0 to stream 0 of volume 0, 8 bytes at host address 0x3000. -/
def rec1 : LdgCmd :=
  { id := 0, inst := 0, gen := 0, op := 1, ordered := false, imm := false, chain := false, intr := false, vtarget := false, tag := 9,
    stream := 0, vol := 0, off := 0, len := 8, nfrag := 0, buf := 0x3000, rtag := 0x1234, seam := 7 }
def stream1 : LogStream := { vol := 0, start := 0, len := 4, tail := 0, seq := 0, chain := [], ctx := none }
def volume1 : Volume := { owner := 0, base := 2, size := 4 }

/-- A device with that volume and stream, and commands. -/
def ldg1 (cs : List LdgCmd) : State :=
  { svc with ldg := { vols := [(0, volume1)], streams := [(0, stream1)], cmds := cs, ready := true, holdup := true } }

theorem witness_AppendWritesOneRecord :
    (let c := { rec1 with phase := .media, inMedia := [0], data := [1, 2, 3, 4, 5, 6, 7, 8] }
     let s := regs [(Reg.LDG_CTRL, 1)] (ldg1 [c])
     streamOf s c.stream = some stream1 ∧ volOf s stream1.vol = some volume1 ∧ c.data.length = c.len ∧ c.chain = false ∧
     rBit s Reg.LDG_CTRL 0 = true ∧ s.ldg.compl = []) ∧
    cmdCheck { rec1 with len := 32704 } (ldg1 []) = stOK ∧ cmdCheck { rec1 with len := 32705 } (ldg1 []) ≠ stOK ∧
    cmdCheck { rec1 with len := 0 } (ldg1 []) ≠ stOK := by decide +kernel

/-- GO of every Ledger command, in each mode that treats it in its own way, with its tag free or in use. -/
theorem witness_LedgerGoAcceptsBusiesOrDrops_LedgerCompletionsAndTheirRing :
    (∀ m ∈ [Mode.service, .drain, .retain, .diagnose], ∀ w ∈ [1, 2, 3, 4, 5, 0x105],
      let s := inMode m (regs [(Reg.INST_LDG_CMD 0 0, w + 9 * 65536)] (ldg1 []))
      takes s wa (Reg.INST_LDG_GO 0) = true ∧ fld (ldgWord s 0 0) 3 0 = w % 16 ∧ bit (ldgWord s 0 0) 8 = decide (w = 0x105) ∧
      hasFunction s 0 = true ∧ halted s = false ∧ s.ldg.stopped = false ∧ ¬(256 ≤ ldgQueued s 0 ∨ 16384 ≤ s.ldg.cmds.length + s.ldg.compl.length) ∧
      ldgTagUsed s 0 (fld (ldgWord s 0 0) 31 16) = false ∧ ldgTagUsed (ldg1 [rec1]) 0 9 = true) ∧
    256 ≤ ldgQueued (ldg1 (List.replicate 256 rec1)) 0 ∧ hasFunction svc 1 = false ∧
    (let k : LdgCompl := ⟨0, 0, 0, 4, 0, 9, 0, false, false, 0, 0, 7, false, true⟩
     let s := regs [(Reg.INST_LDG_CQ_CTRL 0, 1), (Reg.INST_LDG_CQ_SIZE 0, 4)]
       { ldg1 [] with ldg := { (ldg1 []).ldg with compl := [k], cq := [(0, { free := 16 })] } }
     halted s = false ∧ hasFunction s 0 = true ∧ nextLdgCompl s 0 = some k ∧ takes s wa (Reg.INST_LDG_CQ_HEAD 0) = true ∧ 2 ^ rFld s (Reg.INST_LDG_CQ_SIZE 0) 4 0 = 16 ∧
     takes s wa (Reg.INST_LDG_CQ_CTRL 0) = true ∧ lcqEn s 0 = true ∧ lcqEn svc 0 = false) := by decide +kernel

/-- A command alone, in each phase and of each operation that the statement names. -/
theorem witness_LedgerCommandsRunAndCommit :
    cmdCheck rec1 (ldg1 [rec1]) = stOK ∧ cmdCheck { rec1 with stream := 1 } (ldg1 [{ rec1 with stream := 1 }]) ≠ stOK ∧
    rec1.phase = .queued ∧ working (ldg1 [rec1]) = true ∧ mediaOpen (ldg1 []) = true ∧ (ldg1 []).ldg.stopped = false ∧
    (let c := { rec1 with phase := .started }
     let c := { c with frags := (cmdFrags c (ldg1 [c])).2 }
     c.op = 1 ∧ c.inMedia = [] ∧ c.home = [] ∧ readFragData c (ldg1 [c]) = some (List.replicate 8 0)) ∧
    (let c := { rec1 with phase := .media, op := 2, inMedia := [0], data := List.replicate 8 7 }
     c.home = [] ∧ 0 < c.len ∧ c.len ≤ 32768 ∧ c.data.length = c.len) ∧
    streamOf (ldg1 []) 0 = some stream1 ∧ volOf (ldg1 []) 0 = some volume1 ∧
    (let c := { rec1 with phase := .started, op := 3, len := 64, frags := [(rec1.buf, 64)] }
     let s := ldg1 [c]
     c.frags = [(c.buf, c.len)] ∧ c.buf + c.len ≤ 2 ^ 64 ∧ hasFunction s c.inst = true ∧ lcqEn s c.inst = false ∧ s.mem.ecc = []) := by
  decide +kernel

/-- A device with the operands of a management command. -/
def mgmt1 (v n : Nat) : State :=
  regs [(Reg.LDG_M_VOL, v), (Reg.LDG_M_STREAM, n), (Reg.LDG_M_BASE, 6), (Reg.LDG_M_SIZE, 1), (Reg.LDG_M_START, 4), (Reg.LDG_M_LEN, 1),
        (Reg.LDG_M_CTX, 0x1FF), (Reg.INST_CUFF_LEDGER 0, 16)] (ldg1 [])

theorem witness_VolumesStreamsAndPowerFailure :
    (let s := mgmt1 1 1
     takes s wa Reg.LDG_MCMD = true ∧ s.ldg.mrun = none ∧ stagePending s Reg.LDG_PAGE = false ∧ volOf s 1 = none ∧
     rFld s Reg.LDG_M_BASE 13 0 = 6 ∧ rFld s Reg.LDG_M_SIZE 14 0 = 1 ∧ rFld s Reg.LDG_M_OWNER 10 0 = 0 ∧ ownedMib s 0 + 1 ≤ 16 ∧
     (∀ p ∈ s.ldg.vols, p.2.base + p.2.size ≤ 6) ∧
     stagePending { s with rf := { s.rf with pend := [(Reg.LDG_CTRL, 1)] } } Reg.LDG_PAGE = true) ∧
    (let s := mgmt1 0 0
     (volOf s 0).isSome = true ∧ namesVol s 0 = false ∧ namesVol (ldg1 [rec1]) 0 = true ∧ (streamOf s 0).isSome = true ∧
     namesStream s 0 = false) ∧
    (let s := mgmt1 0 1
     volOf s 0 = some volume1 ∧ streamOf s 1 = none ∧ volume1.isSealed = false ∧ rFld s Reg.LDG_M_START 18 0 = 4 ∧
     rFld s Reg.LDG_M_LEN 18 0 = 1 ∧ 4 + 1 ≤ volume1.size * 16 ∧ (∀ p ∈ s.ldg.streams, p.2.start + p.2.len ≤ 4) ∧
     rFld s Reg.LDG_M_CTX 8 0 = 0x1FF) ∧
    (let s := ldg1 [{ rec1 with phase := .ready }]
     halted s = false ∧ s.ldg.stopped = false ∧ rec1.op = 1 ∧ rec1.inMedia = [] ∧ rec1.home = []) ∧
    (∀ h ∈ [true, false],
      let s := { ldg1 [] with ldg := { (ldg1 []).ldg with mrun := some stOK, fill := some (6, 1), holdup := h } }
      s.ldg.mrun = some stOK ∧ halted s = false ∧ mediaOpen s = h) ∧
    takes { svc with ldg := { mrun := some stOK } } wa Reg.LDG_MCMD = true := by decide +kernel

/-- A device whose digest request is that of a word, with contexts and keys. -/
def dg1 (w : Nat) (cs : KMap DgCtx) (ks : KMap KeySlot) : State :=
  regs [(Reg.BLOCK_CTRL Reg.DG_PAGE, 1), (Reg.DG_REQ 0, w), (Reg.DG_REQ 4, 64), (Reg.INST_CUFF_DIGEST 0, 8)]
    { svc with dg := { ctxs := cs }, keys := ks }

def req1 (w len : Nat) : State := regs [(Reg.DG_REQ 4, len)] (dg1 w [(0, { state := .opened, requester := 1, status := 0 })] [])

theorem witness_DigestRequests :
    (∀ op ∈ [1, 2, 3, 4], takes (dg1 op [] []) wa Reg.DG_GO = true ∧ fld (reqWord (dg1 op [] []) 0) 2 0 = op) ∧
    pageEn (regs [(Reg.BLOCK_CTRL Reg.DG_PAGE, 0)] svc) Reg.DG_PAGE = false ∧ pageEn (dg1 1 [] []) Reg.DG_PAGE = true ∧
    reqRefused (dg1 2 [] []) = some false ∧ reqRefused (dg1 2 [(0, { state := .opened, requester := 2 })] []) = some true ∧
    reqRefused (dg1 1 [] []) = none ∧ dgHeld (dg1 1 [] []) < 256 ∧
    (∀ alg ∈ [0, 1, 2, 3, 4, 5],
      let s := dg1 (1 + alg * 256) [] [(0, { attr := 1 + 2 + 2 ^ 14, key := List.replicate 64 1 })]
      initCtx s 0 0 = some 0 ∧ nextWait s = none ∧ keyGood s 0 0 = true ∧ keyGood (dg1 1 [] []) 0 0 = false ∧
      liningBad s (slotWords 0) = false ∧ s.ln.wiping = false ∧
      liningBad { s with ln := { s.ln with bad := slotWords 0 } } (slotWords 0) = true) ∧
    initCtx (regs [(Reg.INST_CUFF_DIGEST 0, 0)] (dg1 1 [] [])) 0 0 = none ∧
    (∀ q ∈ [(2, 64), (2, 0), (3, 0)],
      let s := req1 q.1 q.2
      reqRefused s = none ∧ (ctxOf s 0).state = .opened ∧ (ctxOf s 0).run = none ∧ (ctxOf s 0).queue = [] ∧ reqWord s 4 = q.2 ∧
      (ctxOf s 0).deriveOnly = false) ∧
    (let s := dg1 3 [(0, { state := .opened, requester := 1, deriveOnly := true })] []
     reqRefused s = none ∧ (ctxOf s 0).deriveOnly = true ∧ (ctxOf s 0).state = .opened ∧ bit (reqWord s 0) 4 = false) ∧
    (∀ st ∈ [DgState.opened, .done, .cleared],
      let s := dg1 4 [(0, { state := st, requester := 1 })] []
      reqRefused s = none ∧ (ctxOf s 0).state = st ∧ (ctxOf s 0).bound = false) ∧
    (let s := dg1 2 [(0, { state := .busy, requester := 1, queue := List.replicate 4 { op := 2 } })] []
     reqRefused s = none ∧ 4 ≤ (ctxOf s 0).queue.length) := by decide +kernel

/-- A context whose request's turn it is: 128 bytes of host memory, or its last padded block. -/
def hash1 (x : DgCtx) : State := dg1 0 [(3, { x with state := .busy, requester := 1, words := algInit x.alg })] []
def request1 : DgReq := { op := 2, addr := 0x5000, len := 128 }

theorem witness_HashingAndResults :
    (let w : DgWait := ⟨1, 0x1FF, 0, 0, 0⟩
     let s := { svc with dg := { waiting := [w], ctxs := [] } }
     let s := regs [(Reg.INST_CUFF_DIGEST 0, 1)] s
     working s = true ∧ nextWait s = some w ∧ initCtx s 0x1FF 0 = some 0 ∧ algHmac 0 = false) ∧
    (let s := hash1 { run := some request1 }
     working s = true ∧ hashTurn s = some 3 ∧ (ctxOf s 3).run = some request1 ∧ (ctxOf s 3).queue = [] ∧ (ctxOf s 3).bad = false ∧
     (ctxOf s 3).padded = false ∧ (ctxOf s 3).pos + algBlock 0 ≤ 128 ∧ 0 < algBlock 0 ∧ s.ln.wiping = false ∧
     s.ldg.cmds = [] ∧ (ctxOf (hash1 { run := some request1, bad := true }) 3).bad = true ∧ (dgData request1 0 (algBlock 0) { s with dg := { s.dg with last := 3 } }).2 = some (List.replicate 64 0)) ∧
    (let r : DgReq := { request1 with dev := true, addr := 0x10000 }
     let s := { hash1 { run := some r } with mem := { ecc := [(0x2000, 2)] } }
     let s := regs [(Reg.HMC_CTRL 0, 0)] s
     hashTurn s = some 3 ∧ (dgData r 0 64 { s with dg := { s.dg with last := 3 } }).2 = none) ∧
    (∀ dv ∈ [false, true],
      let s := hash1 { run := some { op := 3, derive := dv, usage := 1, slot := 2 }, padded := true, tail := [List.replicate 64 0] }
      hashTurn s = some 3 ∧ (ctxOf s 3).padded = true ∧ algHmac (ctxOf s 3).alg = false ∧ bit (keyOf s 2).attr 0 = false ∧
      (ctxOf s 3).bound = false ∧ (ctxOf s 3).owner < 2 ^ 11) ∧
    (let s := hash1 { run := some { op := 3 }, padded := true, tail := [List.replicate 64 0], alg := 4 }
     let s := { s with ln := { s.ln with bad := keyAreaWords 3 } }
     working s = true ∧ hashTurn s = some 3 ∧ algHmac (ctxOf s 3).alg = true ∧ (ctxOf s 3).outer = false ∧
     liningBad s (keyAreaWords 3) = true) ∧
    (∀ st ∈ [DgState.done, .opened, .busy, .free], ∀ b ∈ [true, false], ∀ c ∈ [1, 3],
      let s := regs [(Reg.BLOCK_CTRL Reg.DG_PAGE, c)] (dg1 0 [(0, { state := st, requester := 1, words := [1], bad := b })] [])
      dead s = false ∧ reaches s .portA 0 (Reg.DG_RES 15) = true ∧ reaches s .i3c 0 (Reg.DG_RES 0) = true ∧
      pageCompat s Reg.DG_PAGE = decide (c = 3) ∧ (ctxOf s 0).state = st ∧ (ctxOf s 0).bad = b ∧ (ctxOf s 0).requester = 1) := by decide +kernel

theorem witness_KeysTamperAndLifeCycle :
    takes svc wa Reg.KS_CMD = true ∧ liningBad svc [8192 + 0] = false ∧
    liningBad { svc with ln := { svc.ln with bad := [8192] } } [8192 + 0] = true ∧ halted svc = false ∧
    ({ svc.ln with wiping := true }).wiping = true ∧ bit (keyOf svc 0).attr 0 = false ∧
    (let s := { svc with keys := [(0, { attr := 1 + 0x7FF * 8 })] }
     bit (keyOf s 0).attr 0 = true ∧ fld (keyOf s 0).attr 13 3 = 0x7FF) ∧
    bit svc.ln.mask 3 = false ∧ bit ({ svc.ln with mask := 8 }).mask 3 = true ∧ dead svc = false ∧ svc.ln.wiping = false ∧
    ((svc.dev.fuseLc, 1) ∈ [(0, 1), (0, 4), (1, 2), (1, 4), (2, 3), (2, 4), (3, 4)]) ∧ svc.dev.fwUp = true ∧
    takes svc wa Reg.LN_TAMPER_MASK = true ∧ svc.dev.fuseLc = 0 ∧ ({ svc.dev with fuseLc := 2 }).fuseLc ≠ 0 := by decide +kernel

/-! ### Chapters 15 to 17: ports, I3C, modes, power and register pages -/

/-- A device whose port A is up with one VF, of CXL where asked. -/
def hif1 (cxl : Bool) : State :=
  regs [(Reg.HIF_CXLWIN_SIZE 0, 1), (Reg.HIF_PTM_CTRL 0, 1), (Reg.HMC_CTRL 0, 0)]
    { svc with dev := { svc.dev with memActive := true }
               portA := { perst := false, up := true, vfEnable := true, numVfs := 1, ptmOn := true, cxl := cxl } }

theorem witness_PortResetsReachTheirInstances :
    dead (hif1 false) = false ∧ splitOf (hif1 false) = 512 ∧ (port (hif1 false) .a).up = true ∧ (port svc .b).up = false ∧
    (port (hif1 false) .a).vfEnable = true ∧ (1 : Nat) ≤ (port (hif1 false) .a).numVfs ∧ (portVfs (hif1 false) .a)[0]? = some 1 ∧
    (portVfs (hif1 false) .b)[0]? = some 513 ∧ (portVfs (hif1 false) .b)[511]? = some 1024 ∧ (port svc .a).vfEnable = false ∧
    (port svc .a).perst = true ∧ (port (hif1 false) .a).perst = false := by decide +kernel

theorem witness_PortRequestsAreServed :
    fnExists (hif1 false) .a 0 = true ∧ fnExists (hif1 false) .a 1 = true ∧ fnExists (hif1 false) .a 2 = false ∧
    cfgCommand / 4 * 4 = cfgCommand ∧ cfgNumVfs / 4 * 4 = cfgNumVfs ∧ cfgSriovCtl / 4 * 4 = cfgSriovCtl ∧
    [0, cfgCommand, cfgNumVfs, cfgSriovCtl].Nodup ∧ (port svc .a).up = false ∧ working (hif1 false) = true ∧
    (let s := hash1 { run := some request1 }
     working s = true ∧ (ctxOf s 3).run = some request1 ∧ request1.dev = false ∧ request1.own = none) ∧
    (port (hif1 false) .a).ptmOn = true ∧ rBit (hif1 false) (Reg.HIF_PTM_CTRL (portIx .a)) 0 = true ∧ svc.dev.fwUp = true ∧
    svc.ln.wiping = false ∧ ({ svc.ln with wiping := true }).wiping = true ∧ ({ svc.dev with fwUp := false }).fwUp = false ∧
    cfgPmCtl / 4 * 4 = cfgPmCtl ∧ cfgHdm / 4 * 4 = cfgHdm ∧ (hif1 true).portA.cxl = true ∧ (hif1 false).portA.cxl = false ∧
    (∀ p ∈ job1.sched.jobs, p.2.inst = 0 → p.2.tag = 6 → p.2.status.isSome = true ∨ p.2.formed = true) ∧ working job1 = true := by
  decide +kernel

/-- SPDM requests: one not known, known ones, and sessions that open, find no place and end. -/
theorem witness_PortRequestsAreServed_spdm :
    0x85 ∉ spdmKnown ∧ (∀ c ∈ [0x81, 0x82, 0x83, 0xE0, 0x84, 0xE1], c ∈ spdmKnown ∧ c < 0xE4) ∧ 0xE4 ∈ spdmKnown ∧ 0xEC ∈ spdmKnown ∧
    (let s := { hif1 false with portA := { (hif1 false).portA with sessions := [⟨0, true⟩, ⟨2, false⟩] } }
     dead s = false ∧ (port s .a).up = true ∧ s.dev.fwUp = true ∧ (∀ y ∈ (port s .a).sessions, y.id ≠ 1) ∧
     (∀ j, j < 1 → ∃ y ∈ (port s .a).sessions, y.id = j) ∧ (port s .a).sessions.find? (fun y => decide (y.id = 0)) = some ⟨0, true⟩) ∧
    (let l : List SpdmSession := (List.range 4).map fun k => ⟨k, true⟩
     ∀ j, j < 4 → ∃ y ∈ l, y.id = j) := by decide +kernel

/-- CXL.mem requests inside the window, with the decoder committed and not, and outside it. -/
theorem witness_PortRequestsAreServed_cxl :
    (∀ dec ∈ [true, false],
      let s := { hif1 true with dev := { (hif1 true).dev with decoder := dec, hdmBase := 2 ^ 32, hdmSize := 2 ^ 30 } }
      let d := if dec then 2 ^ 32 + 2 ^ 30 - 1 else 2 ^ 30 - 1
      dead s = false ∧ s.portA.up = true ∧ s.portA.cxl = true ∧ s.dev.memActive = true ∧ cxlDpa s d = some (2 ^ 30 - 1) ∧
      rFld s (Reg.HIF_CXLWIN_SIZE 0) 6 0 * 2 ^ 30 = 2 ^ 30 ∧ (2 ^ 30 - 1) / 64 * 64 + 64 ≤ 2 ^ 30) ∧
    (let s := hif1 true
     (meshRead (inboundInit .a) 0 64 s).2.1 = stOK ∧ cxlDpa s (2 ^ 30) = some (2 ^ 30) ∧ 2 ^ 30 < 2 ^ 30 / 64 * 64 + 64) := by
  decide +kernel

/-- The I3C target with an address. -/
def i3c1 (x : I3cSt) : State := { svc with now := 4000, i3c := { x with ready := true, da := some 0x50 } }

theorem witness_TheI3cTargetServesTheBus :
    (i3c1 {}).i3c.ready = true ∧ (i3c1 {}).i3c.da.isSome = true ∧ svc.i3c.ready = false ∧ svc.i3c.da = none ∧ dead (i3c1 {}) = false ∧
    (fetchWords 16 0x40C000 (i3c1 {})).2.length = 16 ∧ (fetchWords 16 0xFFFFFC (i3c1 {})).2.length = 1 ∧
    (let s := i3c1 { toMirror := true, ptr := 240 }
     s.i3c.toMirror = true ∧ s.i3c.ptr + 16 ≤ 256) ∧
    (let s := i3c1 { ptr := 0x40C000, fetchAt := 801, fetched := [1] }
     s.now < s.i3c.fetchAt + 3200) ∧
    (let s := i3c1 { ptr := 0x40C000, fetchAt := 800, fetched := [1] }
     s.i3c.fetched ≠ [] ∧ s.i3c.fetchAt + 3200 ≤ s.now ∧ 1 ≤ s.i3c.fetched.length ∧ s.i3c.enInt = true) ∧
    (i3c1 { causes := [(2, 7)] }).i3c.causes = [(2, 7)] ∧ (i3c1 {}).i3c.waiting.length < 16 ∧
    16 ≤ (i3c1 { waiting := List.replicate 16 (0x40C000, 0) }).i3c.waiting.length ∧
    (let s := i3c1 { waiting := [(0x40C000, 7)] }
     s.pending = [] ∧ s.i3c.waiting = [(0x40C000, 7)]) := by decide +kernel

theorem witness_MirrorModulesAndBoot :
    svc.dev.fwUp = true ∧ dead svc = false ∧ ((mirrorItems svc).map (·.1)).Nodup ∧
    (let s := setCxt 0 { linkUp := true } (inMode .bringup svc)
     s.dev.mode = .bringup ∧ s.dev.fwUp = true ∧ (cxtOf s 0).linkUp = true ∧ (cxtOf s 1).linkUp = false) ∧
    (let s := { State.reset with dev := { State.reset.dev with pwrok := true } }
     s.dev.mode = .bringup ∧ s.dev.fwUp = false ∧ s.dev.bank0 = 0 ∧ s.dev.bank1 = 0 ∧ (∀ p ∈ s.dev.flashVlim, p.1 < 12) ∧
     bit s.dev.straps 0 = false ∧ bit ({ s.dev with straps := 1 }).straps 0 = true) := by decide +kernel

theorem witness_ModeRequestsFollowTheTable :
    (∀ m ∈ [Mode.configure, .service, .drain, .retain, .diagnose], takes (inMode m svc) wa Reg.DEV_MODE_REQ = true ∧
      halted (inMode m svc) = false ∧ (inMode m svc).dev.retainReq = false ∧ (inMode m svc).dev.wakeTo = 0 ∧
      (inMode m svc).dev.activating = false ∧ (inMode m svc).dev.mode = m) ∧
    takes (inMode .lockdown svc) wi Reg.DEV_MODE_REQ = true ∧ halted (inMode .lockdown svc) = false ∧
    svc.dev.fwStaged = false ∧ ({ svc.dev with fwStaged := true }).fwStaged = true ∧
    halted { svc with dev := { svc.dev with fatal := 1 } } = true ∧
    (kFind svc.rf.val Reg.SCHED_SAVE_BASE_LO).isSome = false ∧
    (kFind (regs [(Reg.SCHED_SAVE_BASE_LO, 0x1000)] svc).rf.val Reg.SCHED_SAVE_BASE_LO).isSome = true := by decide +kernel

theorem witness_ResetsBringUpAndFatalErrors :
    svc.dev.pwrok = true ∧ svc.ldg.cmds = [] ∧ svc.dev.resetN = true ∧ dead svc = false ∧ svc.dev.thermtrip = false ∧ svc.dev.fatal = 0 ∧
    ({ svc.dev with pwrok := false }).pwrok = false ∧ (inMode .bringup svc).dev.mode = .bringup ∧ (inMode .bringup svc).dev.fwUp = true ∧
    halted (inMode .bringup svc) = false ∧ svc.dev.mode ≠ .bringup ∧ ({ svc.dev with resetFell := some 5 }).resetFell.isSome = true := by
  decide +kernel

/-- A device in LOCKDOWN whose release token names its nonce and serial number. -/
def locked : State := { inMode .lockdown svc with dev := { (inMode .lockdown svc).dev with nonce := List.replicate 16 0 } }

theorem witness_FirmwareTestsAndRelease :
    takes svc wa Reg.DEV_FW_CMD = true ∧ svc.dev.fwBusy = false ∧ stagePending svc Reg.DEV_PAGE = false ∧
    ({ svc.dev with fwBusy := true, activating := true }).fwBusy = true ∧ dead svc = false ∧ halted svc = false ∧
    (∀ test ∈ [1, 2, 3, 4, 5],
      let s := inMode .diagnose svc
      takes s wa Reg.DEV_DIAG_CMD = true ∧ s.dev.diagBusy = none ∧ ({ s.dev with diagBusy := some test }).diagBusy = some test) ∧
    takes locked wi Reg.DEV_REL_CMD = true ∧ locked.dev.mode = .lockdown ∧ locked.dev.fwUp = true ∧
    (relToken locked).take 16 = locked.dev.nonce ∧ ((relToken locked).drop 16).take 16 = serial16 locked ∧
    (relToken locked).take 16 ≠ List.replicate 16 1 := by decide +kernel

theorem witness_PowerSensorsAndSupplies :
    dead svc = false ∧ svc.pwr.estimates = [] ∧ ({ svc.pwr with estimates := [7000] }).estimates ≠ [] ∧
    (let t : List Int := 1920 :: 1552 :: List.replicate 46 (-640)
     t.length = 48 ∧ (∀ x ∈ t, -32768 ≤ x ∧ x < 32768) ∧ (∃ x ∈ t, 1920 ≤ x) ∧ ∀ x ∈ t.drop 1, x < 1920) ∧
    (List.replicate 12 800).length = 12 ∧ (List.replicate 32 4095).length = 32 ∧ svc.dev.fwUp = true ∧ halted svc = false ∧
    voutOf svc 1 = 900 ∧ svc.dev.vreg1 = true ∧ 890 ≤ voutOf svc 1 ∧ voutOf svc 1 ≤ 890 + 10 ∧ ¬voutOf svc 1 ≤ 889 + 10 ∧ svc.pwr.voutAt = [] := by
  decide +kernel

/-- A device whose instance 0 sends its vectors: 0 unmasked and 1 masked. -/
def vec1 : State :=
  regs [(msixCtrl 0 0, 0), (msixCtrl 0 1, 1)] { svc with portA := { up := true, fns := [(0, { msixEn := true })] } }

theorem witness_PageHeaders :
    pageOf Reg.SEAM_PAGE = some (.seam, 0, 0) ∧ takes svc wa Reg.SEAM_PAGE = true ∧ pageOf Reg.KS_PAGE = some (.ks, 0, 0) ∧
    pageOf (Reg.INST_RING_PAGE 1024) = some (.instRing, 1024, 0) ∧ takes svc wi (Reg.INST_RING_PAGE 0) = true ∧
    (∃ k ∈ [PageKind.dev, .seam, .sched, .noc, .hlt, .dg], bit (k.caps 0) 0 = false) ∧ bit (PageKind.sched.caps 0) 0 = true ∧
    commitBad .sched 0 svc = none ∧ pageVector vec1 (Reg.INST_RING_PAGE 0) = some (0, 0) ∧ numVec 0 = 256 ∧
    hasFunction vec1 0 = true ∧ (fnCfg vec1 0).msixEn = true ∧ (fnCfg vec1 0).msixMask = false ∧ vecMasked vec1 0 0 = false ∧
    vecMasked vec1 0 1 = true ∧ signals vec1 (Reg.INST_RING_PAGE 0) = false ∧
    signals (regs [(Reg.IRQ_FLAG Reg.SEAM_PAGE, 1), (Reg.IRQ_ENABLE Reg.SEAM_PAGE, 1)] svc) Reg.SEAM_PAGE = true ∧
    pageEn (regs [(Reg.BLOCK_CTRL (Reg.INST_RING_PAGE 0), 0)] svc) (Reg.INST_RING_PAGE 0) = false ∧ ringsOff svc 0 = true ∧
    ringsOff (regs [(Reg.INST_JR_CTRL 0 0, 1)] svc) 0 = false := by decide +kernel

theorem witness_RegisterAccesses :
    dead svc = false ∧ dead (inMode .reset svc) = true ∧ pageOf (Reg.SCHED_CTRL) = some (.sched, 0, Reg.SCHED_CTRL - Reg.SCHED_PAGE) ∧
    reaches svc .i3c 0 Reg.SCHED_CTRL = true ∧ wa.enables = 15 ∧ ({ wa with enables := 7 }).enables ≠ 15 ∧
    8 < 0x1004 % 8 + 8 ∧ 0x1004 % 4 + 3 ≤ 4 ∧ 4 < 0x1002 % 4 + 4 ∧ 0x1002 % 8 + 4 ≤ 8 ∧ reaches svc .portA 1 Reg.SCHED_CTRL = false ∧
    modeTakes (inMode .bringup svc) .portA .sched = false ∧ modeTakes (inMode .lockdown svc) .portA .dev = false ∧
    (∀ a ∈ [Reg.SCHED_SAVE_BASE_LO, Reg.SCHED_SAVE_BASE_HI, Reg.SCHED_TRACE_BASE_LO, Reg.SCHED_TRACE_BASE_HI, Reg.SCHED_TRACE_SIZE,
            Reg.PWR_CLOCK, Reg.DEV_FW_ADDR_LO, Reg.DEV_FW_ADDR_HI, Reg.DEV_FW_LEN], takes svc wa a = true) ∧
    (∀ o ∈ [0x00, 0x04, 0x0C, 0x14, 0x20, 0x24, 0x28, 0x2C, 0x34, 0x38, 0x3C], takes svc wa (Reg.SEAM_PAGE + o) = true) ∧
    pageOf 0xFFFFFC = none ∧ (0xFFFFFC : Nat) < 0x1000000 ∧ pageOf 0x1FFFC ≠ some (.dev, 0, 0) ∧ (inMode .lockdown svc).dev.mode = .lockdown := by
  decide +kernel

/-! ### Ill-formed commands, and the spec's worked examples -/

/-- One ill-formed term for each check; the same command with operands in range passes. -/
theorem test_well_formed :
    wellFormed (.taskCreate 16384) = false ∧ wellFormed (.taskCreate 16383) = true ∧
    wellFormed (.dispatch 512) = false ∧ wellFormed (.dispatch 511) = true ∧
    wellFormed (.shareSpent 1025) = false ∧ wellFormed (.shareSpent 1024) = true ∧
    wellFormed (.retire ⟨.i3c, 1, 15⟩ 0) = false ∧ wellFormed (.retire ⟨.portA, 1, 15⟩ 0) = true ∧
    wellFormed (.retire ⟨.portA, 1, 16⟩ 0) = false ∧ wellFormed (.counterRead .portA 0x1002) = false ∧
    wellFormed (.counterRead .portA (0x1002 + 2 ^ 32)) = true ∧
    wellFormed (.cuffWrite wa 0 0x42 0) = false ∧ wellFormed (.cuffWrite wa 0 0x40 0) = true ∧
    wellFormed (.cuffWrite wa 0 4096 0) = false ∧
    wellFormed (.hbmRead 0 60 5 0) = false ∧ wellFormed (.hbmRead 0 60 4 0) = true ∧ wellFormed (.hbmRead 0 0 0 0) = false ∧
    wellFormed (.stageCommit wa 0x1004) = false ∧ wellFormed (.stageCommit wa 0x1000) = true ∧
    wellFormed (.registerWrite wa 0x1002 0) = false ∧ wellFormed (.registerWrite wa 0x1004 0) = true ∧
    wellFormed (.meshHop 0 (some { pktTo 0 with dest := 48 })) = false ∧ wellFormed (.meshHop 0 (some (pktTo 0))) = true ∧
    wellFormed (.hostReadFailure (.bmQueue 64) .poison) = false ∧ wellFormed (.hostReadFailure (.bmQueue 63) .poison) = true ∧
    wellFormed (.i3cCcc (.entdaa 128)) = false ∧ wellFormed (.i3cCcc (.entdaa 127)) = true ∧
    wellFormed (.setAddr []) = false ∧ wellFormed (.i3cRead 0) = false ∧ wellFormed (.modulePoll [1]) = false ∧
    wellFormed (.sensorSample [] []) = false ∧ wellFormed (.speedIndexRead []) = false ∧
    wellFormed (.ringEnable wa 0 true 4 0) = false ∧ wellFormed (.ringEnable wa 0 false 7 0) = true := by decide +kernel

/-- The queue: a step runs its first command and takes it out, and an empty queue idles for one cycle. -/
theorem test_step_queue :
    (after (step { svc with pending := [.refclkLoss, .seam] })).pending = [.seam] ∧
    (after (step { svc with pending := [.refclkLoss, .seam] })).dev.fatal = 5 ∧ (after (step svc)).now = 1 := by decide +kernel

/-- Tables 7.8 and its walk: the routing entries of the card 9731 2588. -/
def routing : State :=
  let e := fun (k m d : Nat) => putData d (putKm k (m + (2 ^ 128 - 1) * 2 ^ 32) { valid := true })
  regs [(Reg.INST_CUFF_MA_SIZE 0, 16)] { svc with ma := { entries :=
    [(0, e 0x97312500 0xFFFFFF00 0x311), (1, e 0x97312000 0xFFFFF000 0x300), (2, e 0x97310000 0xFFFF0000 0x120),
     (4, e 0x97400000 0xFFF00000 0x450), (5, e 0x97000000 0xFF000000 0x001), (6, putData 0xFFFFFFFF (putKm 0 0 { valid := true }))] } }
def routingReq (op from_ : Nat) : MaReq :=
  { pocket := 0, inst := 0, cls := 1, at_ := 0, place := some false,
    bytes := toBytes 4 op ++ toBytes 4 0 ++ toBytes 4 16 ++ toBytes 4 from_ ++ toBytes 20 0x97312588 ++ List.replicate 12 0 }

theorem test_table_7_8 :
    [(1, 0), (2, 1), (2, 2), (2, 3), (2, 6)].map (fun q => let a := (maAnswer (routingReq q.1 q.2) routing).2; (a.hit, a.index, a.data, a.multi))
      = [(true, 0, 0x311, true), (true, 1, 0x300, true), (true, 2, 0x120, true), (true, 5, 1, true), (true, 6, 0xFFFFFFFF, false)] := by
  decide +kernel

/-- Table 13.7: word 0x08 of the header of record 2,500,000, 300 bytes long. -/
theorem test_table_13_7_header :
    ofBytes (slice (recHeader { rec1 with len := 300, chain := true, seam := 48120007, rtag := 0x0ABCD123 } 2500000) 8 8)
      = 0x012C0000002625A0 := by decide +kernel

/-- Chapter 15: sensor 7 at 1,176 sixteenths of a degree is the mirror's word 2, 0x0007_0498. -/
theorem test_mirror_word_2 :
    (mirrorItems { svc with pwr := { hot := 1176, hotSensor := 7 } }).find? (fun p => p.1 = 2) = some (2, 0x00070498) := by decide +kernel

/-- Chapter 17's example: port A's write of PWR_LIMIT and the controller's private write after it. -/
def limit1 : State := regs [(Reg.WRITE_GEN Reg.PWR_PAGE, 0x41)] (i3c1 {})

theorem test_chapter_17_example :
    let s2 := after (exec (.registerWrite wa Reg.PWR_LIMIT 0x000A012C) limit1)
    let s3 := after (step (after (exec (.i3cWrite [0x02, 0x40, 0xC0, 0x00, 0x5E, 0x01, 0x0A, 0x00]) s2)))
    (rGet s2 (Reg.WRITE_GEN Reg.PWR_PAGE), rGet s2 (Reg.LAST_WRITER Reg.PWR_PAGE), stagePending s2 Reg.PWR_PAGE) = (0x42, 0x800, true) ∧
    (rGet s3 (Reg.WRITE_GEN Reg.PWR_PAGE), rGet s3 (Reg.LAST_WRITER Reg.PWR_PAGE), shadowWord s3 Reg.PWR_LIMIT)
      = (0x43, 0x1800, 0x000A015E) := by decide +kernel

/-- Table 16.2: a request for SERVICE with a save base is granted, and one from SERVICE to SERVICE is an error. -/
theorem test_mode_requests :
    (after (exec (.modeRequestService wa) (regs [(Reg.SCHED_SAVE_BASE_LO, 0x1000)] (inMode .configure svc)))).dev.mode = .service ∧
    rGet (after (exec (.modeRequestService wa) svc)) (Reg.ERR_CODE Reg.DEV_PAGE) = 1 := by decide +kernel

/-- A digest of no bytes: SHA-256's initial value hashed over the padded block of the empty message (FIPS 180-4). -/
theorem test_sha256_empty :
    ofBytes (algDigest 0 (algCompress 0 (algInit 0) (0x80 :: List.replicate 63 0))).reverse
      = 0xE3B0C44298FC1C149AFBF4C8996FB92427AE41E4649B934CA495991B7852B855 := by decide +kernel

end Sys2Proof.Tests
end

section
/-! The header rules of the pages (O59). The statement fails where the function that a page signals on is in D3hot:
`sendMsix` holds the vector as pending there, as it does for a masked one (R235), and the statement asks for a message. -/

namespace Sys2Proof.Machine

/-- The SEAM page enables its flag 0, and function 0 of port A, on whose unmasked vector 34 the page signals, has MSI-X
enabled and is in D3hot. -/
def seamFlagInD3hot : State :=
  { State.reset with
    dev := { State.reset.dev with mode := .service }
    portA := { State.reset.portA with fns := [(0, { msixEn := true, d3 := true })] }
    rf := { State.reset.rf with
      val := [(Reg.IRQ_ENABLE Reg.SEAM_PAGE, 1), (msixCtrl 0 34, 0)] } }

/-- The I3C target, which reaches the page whatever the power state of the host functions (R377). -/
def i3cWriter : Writer := ⟨.i3c, 0, 15⟩

/-- Every hypothesis of the message clause of IRQ_FORCE holds in the state. -/
theorem seamFlagInD3hot_meets_message_clause :
    pageOf Reg.SEAM_PAGE = some (.seam, 0, 0) ∧ takes seamFlagInD3hot i3cWriter Reg.SEAM_PAGE = true ∧
    signals seamFlagInD3hot Reg.SEAM_PAGE = false ∧
    (rGet seamFlagInD3hot (Reg.SEAM_PAGE + 0x18) ||| (1 : W32).toNat) % 2 ^ 32
      &&& rGet seamFlagInD3hot (Reg.SEAM_PAGE + 0x10) ≠ 0 ∧
    pageVector seamFlagInD3hot Reg.SEAM_PAGE = some (0, 34) ∧ hasFunction seamFlagInD3hot 0 = true ∧ 34 < numVec 0 ∧
    (fnCfg seamFlagInD3hot 0).msixEn = true ∧
    ¬((fnCfg seamFlagInD3hot 0).msixMask = true ∨ vecMasked seamFlagInD3hot 0 34 = true) := by
  decide +kernel

/-- Forcing flag 0 raises the page's OR, and nothing leaves the part: the vector's pending bit is set instead. -/
theorem irqForce_seamFlagInD3hot_sends_nothing :
    ∃ t, exec (.irqForce i3cWriter Reg.SEAM_PAGE 1) seamFlagInD3hot = .next t ∧ signals t Reg.SEAM_PAGE = true ∧
      rBit t (msixPba 0 34) (34 % 32) = true ∧ t.out = [] := by
  refine ⟨_, rfl, ?_⟩
  decide +kernel

/-- Refutes O59: IRQ_FORCE raises the OR of a page whose vector is open, but whose function is in D3hot, and no message is
sent; the clause on messages leaves that power state out. -/
theorem not_pageHeaders : ¬ Obligations.PageHeaders := by
  unfold Obligations.PageHeaders
  intro h
  obtain ⟨hpage, htakes, hquiet, hrises, hvector, hfunction, hvec, hmsix, hopen⟩ := seamFlagInD3hot_meets_message_clause
  obtain ⟨t, hexec, -, -, hout⟩ := irqForce_seamFlagInD3hot_sends_nothing
  obtain ⟨-, -, -, hwrites⟩ := h i3cWriter Reg.SEAM_PAGE 0 .seam seamFlagInD3hot hpage htakes
  obtain ⟨-, ⟨u, huexec, -, -, -, -, hsends⟩, -⟩ := hwrites 1
  obtain rfl : t = u := Host.Outcome.next.inj (hexec.symm.trans huexec)
  have hsent := hsends 0 34 hquiet hrises hvector hfunction hvec hmsix
  rw [if_neg hopen, hout] at hsent
  exact absurd hsent (by decide)

end Sys2Proof.Machine
end

section
/-! The default route (O41). A stop is row × 8 + column; a hop moves one of the two by one, toward the destination's. -/

namespace Sys2Proof.Machine

theorem routeOut_of_no_exception {s : State} {st : Nat} {p : Packet} (h : exceptionOut s st p = none) :
    routeOut s st p = defaultOut st p.dest := by
  rw [routeOut, h, Option.getD_none]

/-- The distance with truncated differences, the form `omega` reads. -/
theorem hops_eq_sub_add_sub (a b : Nat) :
    hops a b = (b % 8 - a % 8 + (a % 8 - b % 8)) + (b / 8 - a / 8 + (a / 8 - b / 8)) := by
  simp only [hops]
  split <;> split <;> omega

/-! The direction of the default route. -/

theorem defaultOut_eq_east {st dest : Nat} (h : st % 8 < dest % 8) : defaultOut st dest = dirNum .east := if_pos h

theorem defaultOut_eq_west {st dest : Nat} (h : dest % 8 < st % 8) : defaultOut st dest = dirNum .west := by
  rw [defaultOut, if_neg (Nat.lt_asymm h), if_pos h, dirNum]

theorem defaultOut_of_same_column {st dest : Nat} (h : st % 8 = dest % 8) :
    defaultOut st dest = if st < dest then dirNum .south else dirNum .north := by
  rw [defaultOut, h, if_neg (Nat.lt_irrefl _), if_neg (Nat.lt_irrefl _), dirNum, dirNum]

/-! The neighbour in each direction. -/

theorem neighbour_north {st : Nat} (h : 8 ≤ st) : neighbour st (dirNum .north) = some (st - 8) := if_pos h
theorem neighbour_east {st : Nat} (h : st % 8 < 7) : neighbour st (dirNum .east) = some (st + 1) := if_pos h
theorem neighbour_south {st : Nat} (h : st + 8 < 48) : neighbour st (dirNum .south) = some (st + 8) := if_pos h
theorem neighbour_west {st : Nat} (h : 0 < st % 8) : neighbour st (dirNum .west) = some (st - 1) := if_pos h

/-- Off the destination's column the default route stays in the row and moves one column nearer. -/
theorem defaultOut_hops_along_row {st dest : Nat} (hst : st < 48) (hcol : st % 8 ≠ dest % 8) :
    ∃ n, neighbour st (defaultOut st dest) = some n ∧ n < 48 ∧ n / 8 = st / 8 ∧
      (st % 8 < dest % 8 → n % 8 = st % 8 + 1) ∧ (dest % 8 < st % 8 → n % 8 + 1 = st % 8) ∧
      hops n dest + 1 = hops st dest := by
  rcases Nat.lt_or_gt_of_ne hcol with heast | hwest
  · have hnext : neighbour st (defaultOut st dest) = some (st + 1) := by
      rw [defaultOut_eq_east heast, neighbour_east (by omega)]
    refine ⟨st + 1, hnext, ?_⟩
    simp only [hops_eq_sub_add_sub]
    omega
  · have hnext : neighbour st (defaultOut st dest) = some (st - 1) := by
      rw [defaultOut_eq_west hwest, neighbour_west (by omega)]
    refine ⟨st - 1, hnext, ?_⟩
    simp only [hops_eq_sub_add_sub]
    omega

/-- In the destination's column the default route stays in it and moves one row nearer. -/
theorem defaultOut_hops_along_column {st dest : Nat} (hst : st < 48) (hdest : dest < 48) (hne : st ≠ dest)
    (hcol : st % 8 = dest % 8) :
    ∃ n, neighbour st (defaultOut st dest) = some n ∧ n < 48 ∧ n % 8 = st % 8 ∧
      (st / 8 < dest / 8 → n / 8 = st / 8 + 1) ∧ (dest / 8 < st / 8 → n / 8 + 1 = st / 8) ∧
      hops n dest + 1 = hops st dest := by
  rcases Nat.lt_or_gt_of_ne hne with hsouth | hnorth
  · have hnext : neighbour st (defaultOut st dest) = some (st + 8) := by
      rw [defaultOut_of_same_column hcol, if_pos hsouth, neighbour_south (by omega)]
    refine ⟨st + 8, hnext, ?_⟩
    simp only [hops_eq_sub_add_sub]
    omega
  · have hnext : neighbour st (defaultOut st dest) = some (st - 8) := by
      rw [defaultOut_of_same_column hcol, if_neg (Nat.lt_asymm hnorth), neighbour_north (by omega)]
    refine ⟨st - 8, hnext, ?_⟩
    simp only [hops_eq_sub_add_sub]
    omega

/-- Settles O41: off the destination's column by the hop along the row, in it by the hop along the column. -/
theorem packetsGoAlongTheRowFirst : Obligations.PacketsGoAlongTheRowFirst := by
  unfold Obligations.PacketsGoAlongTheRowFirst
  intro s st p hst hdest hne hnone
  rw [routeOut_of_no_exception hnone]
  by_cases hcol : st % 8 = p.dest % 8
  · obtain ⟨n, hnext, hn, hsame, hsouth, hnorth, hcloser⟩ := defaultOut_hops_along_column hst hdest hne hcol
    exact ⟨n, hnext, hn, fun hoff => absurd hcol hoff, fun _ => ⟨hsame, hsouth, hnorth⟩, hcloser⟩
  · obtain ⟨n, hnext, hn, hsame, heast, hwest, hcloser⟩ := defaultOut_hops_along_row hst hcol
    exact ⟨n, hnext, hn, fun _ => ⟨hsame, heast, hwest⟩, fun hin => absurd hin hcol, hcloser⟩

end Sys2Proof.Machine
end

section
/-! What every register write shares: what it records on its page, what an error leaves there, and what plain writes and the
changes of flags keep (R369, R374, R376). -/

namespace Sys2Proof.Machine

/-! ### Recorded writes and errors -/

theorem recorded_recordWrite (w : Writer) (pg : Nat) (s : State) : Recorded w pg s (recordWrite w pg s) := by
  constructor <;> rw [rGet_recordWrite] <;> simp

/-- What changes neither of the two words keeps a write's record. -/
theorem Recorded.of_writeWords_kept {w : Writer} {pg : Nat} {s t u : State} (h : Recorded w pg s t)
    (hkept : ∀ a ∈ writeWords pg, rGet u a = rGet t a) : Recorded w pg s u := by
  obtain ⟨hgen, hwriter⟩ := h
  exact ⟨(hkept _ (by simp [writeWords])).trans hgen, (hkept _ (by simp [writeWords])).trans hwriter⟩

theorem onlyRegs_recordWrite (w : Writer) (pg : Nat) (s : State) : OnlyRegs (writeWords pg) s (recordWrite w pg s) := by
  intro a ha
  simp only [writeWords, List.mem_cons, List.not_mem_nil, or_false, not_or] at ha
  rw [rGet_recordWrite, if_neg (Ne.symm ha.2), if_neg (Ne.symm ha.1)]

/-- A register of a page other than its header is in none of the header words that a write or an error changes. -/
theorem rGet_recordWrite_register {pg o : Nat} (w : Writer) (s : State) (ho : 0x40 ≤ o) :
    rGet (recordWrite w pg s) (pg + o) = rGet s (pg + o) :=
  onlyRegs_recordWrite w pg s _ (by simp only [writeWords, List.mem_cons, List.not_mem_nil, or_false]; omega)

theorem rGet_recErr_register {pg o : Nat} (c e : Nat) (s : State) (ho : 0x30 ≤ o) :
    rGet (recErr pg c e s) (pg + o) = rGet s (pg + o) := by
  rw [rGet_recErr, if_neg (by omega), if_neg (by omega), if_neg (by omega), if_neg (by omega)]

theorem recErr_keeps_writeWords (pg c e : Nat) (s : State) : ∀ a ∈ writeWords pg, rGet (recErr pg c e s) a = rGet s a := by
  intro a ha
  simp only [writeWords, List.mem_cons, List.not_mem_nil, or_false] at ha
  rcases ha with rfl | rfl <;> exact rGet_recErr_register c e s (by omega)

/-- An error of a recorded write counts from the words before the write. -/
theorem errorLeft_recErr_recordWrite (w : Writer) (pg c e : Nat) (s : State) :
    ErrorLeft pg c e s (recErr pg c e (recordWrite w pg s)) := by
  refine ⟨?_, ?_, ?_, ?_⟩ <;> simp [rGet_recErr, rGet_recordWrite]

@[simp] theorem working_recordWrite (w : Writer) (pg : Nat) (s : State) : working (recordWrite w pg s) = working s := rfl

@[simp] theorem stagePending_recordWrite (w : Writer) (pg pg' : Nat) (s : State) :
    stagePending (recordWrite w pg s) pg' = stagePending s pg' := rfl

@[simp] theorem pktOf_recordWrite (w : Writer) (pg p : Nat) (s : State) : pktOf (recordWrite w pg s) p = pktOf s p := rfl

/-! ### Bits -/

theorem bit_eq_testBit (w n : Nat) : bit w n = w.testBit n := by
  rw [bit, Nat.testBit_eq_decide_div_mod_eq]

theorem bit_eq_fld (w n : Nat) : bit w n = decide (fld w n n = 1) := by
  rw [bit, fld, Nat.add_sub_cancel_left, Nat.pow_one]

/-! ### Pages and plain writes -/

theorem pageBase_add {pg o : Nat} (hpg : pg % 0x1000 = 0) (ho : o < 0x1000) : pageBase (pg + o) = pg := by
  unfold pageBase; omega

theorem rGet_rwBits (a v b : Nat) (s : State) :
    rGet (rwBits a v s) b = if a = b then mixBits (rowMasks a).rw (rGet s a) v % 2 ^ 32 else rGet s b := rGet_rSet _ _ _ _

/-- A write with no effect of its own changes no other word, and none without RW fields. -/
theorem rGet_plainWrite_of_kept {a b v : Nat} (s : State) (h : (rowMasks a).rw = 0 ∨ a ≠ b) :
    rGet (plainWrite a v s) b = rGet s b := by
  unfold plainWrite
  by_cases hrw : (rowMasks a).rw = 0
  · simp only [hrw]; split <;> rfl
  · have hword : rGet (rwBits a v s) b = rGet s b := by rw [rGet_rwBits, if_neg (h.resolve_left hrw)]
    simp only [hrw]; split <;> exact hword

/-- The offset that a page is found with is the address's low 12 bits. -/
theorem pageOf_offset {a i o : Nat} {k : PageKind} (h : pageOf a = some (k, i, o)) : o = a % 0x1000 := by
  unfold pageOf at h
  dsimp only at h
  repeat' split at h
  all_goals simp only [Option.some.injEq, Prod.mk.injEq, reduceCtorEq] at h
  all_goals exact h.2.2.symm

/-- A row of Table 17.1 that begins above the rows before it holds the addresses of its own pages. -/
theorem pageOf_window {n base num j o : Nat} {k : PageKind}
    (hrow : windowPages = windowPages.take n ++ (k, base, num) :: windowPages.drop (n + 1))
    (hbefore : ∀ q ∈ windowPages.take n, q.2.1 + 0x1000 * q.2.2 ≤ base) (haligned : base % 0x1000 = 0)
    (htop : base + 0x1000 * num ≤ 0x1000000) (hj : j < num) (ho : o < 0x1000) :
    pageOf (base + 0x1000 * j + o) = some (k, j, o) := by
  have hfind : (windowPages.find? fun q => q.2.1 ≤ base + 0x1000 * j + o && base + 0x1000 * j + o < q.2.1 + 0x1000 * q.2.2)
      = some (k, base, num) := by
    refine List.find?_eq_some_iff_append.mpr ⟨?_, _, _, hrow, fun q hq => ?_⟩
    · simp only [Bool.and_eq_true, decide_eq_true_eq]; omega
    · have := hbefore q hq
      simp only [Bool.not_eq_true', Bool.and_eq_false_iff, decide_eq_false_iff_not]; omega
  rw [pageOf, if_pos (by omega), hfind]
  have hpage : (base + 0x1000 * j + o - base) / 0x1000 = j := by omega
  have hoff : (base + 0x1000 * j + o) % 0x1000 = o := by omega
  simp only [hpage, hoff]

theorem pageOf_instCuff {i o : Nat} (hi : i < numInst) (ho : o < 0x1000) :
    pageOf (Reg.INST_CUFF_PAGE i + o) = some (.instCuff, i, o) :=
  pageOf_window (n := 28) (num := 1025) rfl (by decide) (by decide) (by decide) hi ho

theorem pageOf_pkt {p o : Nat} (hp : p < 512) (ho : o < 0x1000) : pageOf (Reg.PKT_PAGE p + o) = some (.pkt, p, o) :=
  pageOf_window (n := 27) (num := 512) rfl (by decide) (by decide) (by decide) hp ho

/-- WRITE_GEN and LAST_WRITER have no RW fields, whatever their page. -/
theorem rowMasks_rw_of_writeWords {pg a : Nat} (hpg : pg % 0x1000 = 0) (ha : a ∈ writeWords pg) : (rowMasks a).rw = 0 := by
  simp only [writeWords, List.mem_cons, List.not_mem_nil, or_false] at ha
  unfold rowMasks
  split
  · rfl
  · next k i o hpage =>
    have ho : o = 0x34 ∨ o = 0x38 := by
      have := pageOf_offset hpage
      omega
    rcases ho with rfl | rfl <;> simp [rowAt, findRow, headerRows]

theorem plainWrite_keeps_writeWords {pg o v : Nat} (s : State) (hpg : pg % 0x1000 = 0) :
    ∀ a ∈ writeWords pg, rGet (plainWrite (pg + o) v s) a = rGet s a := by
  intro a ha
  refine rGet_plainWrite_of_kept s ?_
  by_cases h : pg + o = a
  · exact .inl (h ▸ rowMasks_rw_of_writeWords hpg ha)
  · exact .inr h

end Sys2Proof.Machine
end

section
/-! Pattern slots (O12): the command engine of an INST_PAT page, what LOAD, the end of its image read, and RETIRE leave
(R46, R47, R49, R50, R63). -/

namespace Sys2Proof.Machine

/-! ### Slots and commands -/

@[simp] theorem slotOf_recordWrite (w : Writer) (pg i k : Nat) (s : State) : slotOf (recordWrite w pg s) i k = slotOf s i k := rfl
@[simp] theorem patCmdOf_recordWrite (w : Writer) (pg i : Nat) (s : State) : patCmdOf (recordWrite w pg s) i = patCmdOf s i := rfl
@[simp] theorem slotOf_setPatCmd (n i k : Nat) (x : PatCmd) (s : State) : slotOf (setPatCmd n x s) i k = slotOf s i k := rfl
@[simp] theorem patCmdOf_setSlot (n m i : Nat) (x : PatSlot) (s : State) : patCmdOf (setSlot n m x s) i = patCmdOf s i := rfl

@[simp] theorem patCmdOf_setPatCmd_self (i : Nat) (x : PatCmd) (s : State) : patCmdOf (setPatCmd i x s) i = x :=
  kGet_kSet_self _ _ _ _

theorem slotOf_setSlot (n m j k : Nat) (x : PatSlot) (s : State) :
    slotOf (setSlot n m x s) j k = if n * 64 + m = j * 64 + k then some x else slotOf s j k := kFind_kSet _ _ _ _

@[simp] theorem slotOf_setSlot_self (i k : Nat) (x : PatSlot) (s : State) : slotOf (setSlot i k x s) i k = some x := by
  rw [slotOf_setSlot, if_pos rfl]

@[simp] theorem slotOf_delSlot_self (i k : Nat) (s : State) : slotOf (delSlot i k s) i k = none :=
  (kFind_kDel _ _ _).trans (if_pos rfl)

@[simp] theorem patCmdOf_settleSlot (i k j : Nat) (s : State) : patCmdOf (settleSlot i k s) j = patCmdOf s j := by
  unfold settleSlot
  split
  · split <;> rfl
  · rfl

/-- A settled slot is as it was, or EMPTY. -/
theorem slotOf_settleSlot_self (i k : Nat) (s : State) :
    slotOf (settleSlot i k s) i k = none ∨ slotOf (settleSlot i k s) i k = slotOf s i k := by
  unfold settleSlot
  split
  · split
    · exact .inl (slotOf_delSlot_self i k s)
    · exact .inr rfl
  · exact .inr rfl

/-- The slot and the address that the command registers name are not in the page's header. -/
@[simp] theorem patSlotSel_recordWrite (w : Writer) (i : Nat) (s : State) :
    patSlotSel (recordWrite w (Reg.INST_PAT_PAGE i) s) i = patSlotSel s i :=
  congrArg (fld · 5 0) (rGet_recordWrite_register (pg := Reg.INST_PAT_PAGE i) (o := 0x48) w s (by decide))

@[simp] theorem patAddr_recordWrite (w : Writer) (i : Nat) (s : State) :
    patAddr (recordWrite w (Reg.INST_PAT_PAGE i) s) i = patAddr s i := by
  have hlo : rGet (recordWrite w (Reg.INST_PAT_PAGE i) s) (Reg.INST_PAT_ADDR_LO i) = rGet s (Reg.INST_PAT_ADDR_LO i) :=
    rGet_recordWrite_register (pg := Reg.INST_PAT_PAGE i) (o := 0x40) w s (by decide)
  have hhi : rGet (recordWrite w (Reg.INST_PAT_PAGE i) s) (Reg.INST_PAT_ADDR_HI i) = rGet s (Reg.INST_PAT_ADDR_HI i) :=
    rGet_recordWrite_register (pg := Reg.INST_PAT_PAGE i) (o := 0x44) w s (by decide)
  rw [patAddr, patAddr, rFld, rFld, hlo, hhi]

/-! ### The flag of an INST_PAT page -/

/-- A message leaves every word outside the pending bits of the MSI-X tables as it is. -/
theorem rGet_sendMsix_of_low {i v a : Nat} (s : State) (ha : a % 0x10000 < 0x7000) : rGet (sendMsix i v s) a = rGet s a := by
  by_cases hv : numVec i ≤ v
  · simp [sendMsix, hv]
  · refine rGet_sendMsix s ?_
    have hnum : numVec i ≤ 256 := by unfold numVec; split <;> decide
    unfold msixPba instBase
    omega

theorem rGet_latch_flag_of_low {pg m : Nat} (s : State) (hpg : (pg + 0x18) % 0x10000 < 0x7000) :
    rGet (latch pg m s) (pg + 0x18) = (rGet s (pg + 0x18) ||| m) % 2 ^ 32 := by
  unfold latch withSignal
  dsimp only
  split
  · split
    · rw [rGet_sendMsix_of_low _ hpg, rGet_rSet_self]
    · rw [rGet_rSet_self]
  · rw [rGet_rSet_self]

theorem instPatPage_flag_low (i : Nat) : (Reg.INST_PAT_PAGE i + 0x18) % 0x10000 < 0x7000 := by
  unfold Reg.INST_PAT_PAGE instBase; omega

theorem rBit_pulse_zero {pg : Nat} (s : State) (hpg : (pg + 0x18) % 0x10000 < 0x7000) :
    rBit (pulse pg 0 s) (pg + 0x18) 0 = true := by
  unfold rBit pulse
  rw [rGet_latch_flag_of_low s hpg, bit_eq_testBit, Nat.testBit_mod_two_pow, Nat.testBit_or]
  simp

/-! ### How a command finishes -/

@[simp] theorem patCmdOf_patDone (i st d : Nat) (s : State) :
    patCmdOf (patDone i st d s) i = { patCmdOf s i with busy := false, result := st, detail := d } := by
  simp [patDone, patCmdOf, setPatCmd]

@[simp] theorem slotOf_patDone (i st d j k : Nat) (s : State) : slotOf (patDone i st d s) j k = slotOf s j k := by
  simp [patDone, slotOf, setPatCmd]

theorem rBit_patDone (i st d : Nat) (s : State) : rBit (patDone i st d s) (Reg.INST_PAT_PAGE i + 0x18) 0 = true :=
  rBit_pulse_zero _ (instPatPage_flag_low i)

/-! ### LOAD and RETIRE -/

theorem pageBase_instPatCmd (i : Nat) : pageBase (Reg.INST_PAT_CMD i) = Reg.INST_PAT_PAGE i := by
  refine pageBase_add (o := 0x4C) ?_ (by decide)
  unfold instBase; omega

theorem exec_patternLoad {w : Writer} {i : Nat} {s : State} (h : takes s w (Reg.INST_PAT_CMD i) = true) :
    exec (.patternLoad w i) s = .next (loadEff i (recordWrite w (Reg.INST_PAT_PAGE i) s)) := by
  rw [← pageBase_instPatCmd, ← acceptWrite_takes (loadEff i) h]; rfl

theorem exec_retire {w : Writer} {i : Nat} {s : State} (h : takes s w (Reg.INST_PAT_CMD i) = true) :
    exec (.retire w i) s = .next (retireEff i (recordWrite w (Reg.INST_PAT_PAGE i) s)) := by
  rw [← pageBase_instPatCmd, ← acceptWrite_takes (retireEff i) h]; rfl

theorem loadEff_busy {i : Nat} {s : State} (hw : working s = true) (hb : (patCmdOf s i).busy = true) :
    loadEff i s = recErr (Reg.INST_PAT_PAGE i) 1 0 s := by
  simp [loadEff, hw, hb]

theorem retireEff_busy {i : Nat} {s : State} (hw : working s = true) (hb : (patCmdOf s i).busy = true) :
    retireEff i s = recErr (Reg.INST_PAT_PAGE i) 1 0 s := by
  simp [retireEff, hw, hb]

theorem loadEff_empty {i : Nat} {s : State} (hw : working s = true) (hb : (patCmdOf s i).busy = false)
    (hp : stagePending s (Reg.INST_PAT_PAGE i) = false) (hslot : slotOf s i (patSlotSel s i) = none) :
    loadEff i s = setSlot i (patSlotSel s i) { state := .loading, addr := patAddr s i }
      (setPatCmd i { busy := true, slot := patSlotSel s i } s) := by
  simp [loadEff, hw, hb, hp, hslot]

theorem retireEff_resident {i : Nat} {x : PatSlot} {s : State} (hw : working s = true) (hb : (patCmdOf s i).busy = false)
    (hp : stagePending s (Reg.INST_PAT_PAGE i) = false) (hslot : slotOf s i (patSlotSel s i) = some x)
    (hx : x.state = .resident) :
    ∃ u, retireEff i s = patDone i stOK 0 (settleSlot i (patSlotSel s i) u) ∧
      slotOf u i (patSlotSel s i) = some { x with state := .retiring } := by
  refine ⟨setPatCmd i { patCmdOf s i with slot := patSlotSel s i } (setSlot i (patSlotSel s i) { x with state := .retiring } s),
    ?_, ?_⟩
  · simp [retireEff, hw, hb, hp, hslot, hx]
  · rw [slotOf_setPatCmd, slotOf_setSlot_self]

/-- A write of INST_PAT_CMD while a command runs is refused as BUSY, whatever it asks for. -/
theorem patternCommand_refused_while_busy {w : Writer} {i : Nat} {s : State} (ht : takes s w (Reg.INST_PAT_CMD i) = true)
    (hw : working s = true) (hb : (patCmdOf s i).busy = true) :
    ∃ t u, exec (.patternLoad w i) s = .next t ∧ exec (.retire w i) s = .next u ∧ t = u ∧ t.pat = s.pat ∧
      ErrorLeft (Reg.INST_PAT_PAGE i) 1 0 s t := by
  refine ⟨_, _, exec_patternLoad ht, exec_retire ht, ?_⟩
  rw [loadEff_busy (by simpa) (by simpa), retireEff_busy (by simpa) (by simpa)]
  exact ⟨rfl, rfl, errorLeft_recErr_recordWrite _ _ _ _ _⟩

theorem load_reserves_slot {w : Writer} {i : Nat} {s : State} (ht : takes s w (Reg.INST_PAT_CMD i) = true)
    (hw : working s = true) (hb : (patCmdOf s i).busy = false) (hp : stagePending s (Reg.INST_PAT_PAGE i) = false)
    (hslot : slotOf s i (patSlotSel s i) = none) :
    ∃ t, exec (.patternLoad w i) s = .next t ∧ Recorded w (Reg.INST_PAT_PAGE i) s t ∧
      patCmdOf t i = { busy := true, slot := patSlotSel s i } ∧
      (slotOf t i (patSlotSel s i)).map (fun x => (x.state, x.addr)) = some (.loading, patAddr s i) ∧
      (∀ j k, j * 64 + k ≠ i * 64 + patSlotSel s i → slotOf t j k = slotOf s j k) := by
  refine ⟨_, exec_patternLoad ht, ?_⟩
  rw [loadEff_empty (by simpa) (by simpa) (by simpa) (by simpa), patSlotSel_recordWrite, patAddr_recordWrite]
  refine ⟨recorded_recordWrite w _ s, ?_, ?_, fun j k hjk => ?_⟩
  · rw [patCmdOf_setSlot, patCmdOf_setPatCmd_self]
  · rw [slotOf_setSlot_self]; rfl
  · rw [slotOf_setSlot, if_neg (Ne.symm hjk), slotOf_setPatCmd, slotOf_recordWrite]

theorem retire_ends_at_once {w : Writer} {i : Nat} {x : PatSlot} {s : State} (ht : takes s w (Reg.INST_PAT_CMD i) = true)
    (hw : working s = true) (hb : (patCmdOf s i).busy = false) (hp : stagePending s (Reg.INST_PAT_PAGE i) = false)
    (hslot : slotOf s i (patSlotSel s i) = some x) (hx : x.state = .resident) :
    ∃ t, exec (.retire w i) s = .next t ∧ (patCmdOf t i).busy = false ∧ (patCmdOf t i).result = stOK ∧
      rBit t (Reg.INST_PAT_PAGE i + 0x18) 0 = true ∧
      (slotOf t i (patSlotSel s i) = none ∨ slotOf t i (patSlotSel s i) = some { x with state := .retiring }) := by
  obtain ⟨u, hend, hu⟩ := retireEff_resident (s := recordWrite w (Reg.INST_PAT_PAGE i) s) (x := x)
    (by simpa) (by simpa) (by simpa) (by simpa) hx
  rw [patSlotSel_recordWrite] at hend hu
  refine ⟨_, exec_retire ht, ?_⟩
  rw [hend, patCmdOf_patDone, slotOf_patDone, ← hu]
  exact ⟨rfl, rfl, rBit_patDone _ _ _ _, slotOf_settleSlot_self _ _ _⟩

/-! ### The end of the image read -/

/-- The image read of a LOADING slot ends in one of two ways: a check or an access failed and the slot is EMPTY, or the slot
is filled from the image. -/
theorem loadDoneX_cases {i : Nat} {x : PatSlot} {s : State} (hw : working s = true) (hb : (patCmdOf s i).busy = true)
    (hslot : slotOf s i (patCmdOf s i).slot = some x) (hx : x.state = .loading) :
    (∃ u st d, st ≠ stOK ∧ loadDoneX i s = patDone i st d (delSlot i (patCmdOf s i).slot u)) ∨
    (∃ u im, loadDoneX i s = patDone i stOK 0 (setSlot i (patCmdOf s i).slot (slotFrom x.addr im) u)) := by
  unfold loadDoneX
  rw [if_neg (by simp [hw, hb]), hslot]
  dsimp only
  rw [if_neg (by simp [hx])]
  split
  · exact .inl ⟨_, stPattern, 2, by decide, rfl⟩
  split
  · exact .inl ⟨_, _, 0, ‹_›, rfl⟩
  split
  · exact .inl ⟨_, _, 0, ‹_›, rfl⟩
  split
  · exact .inl ⟨_, _, _, ‹_›, rfl⟩
  split
  · exact .inl ⟨_, _, 0, ‹_›, rfl⟩
  split
  · exact .inl ⟨_, _, _, ‹_›, rfl⟩
  · exact .inr ⟨_, _, rfl⟩

theorem loadDone_settles_slot {i : Nat} {x : PatSlot} {s : State} (hw : working s = true) (hb : (patCmdOf s i).busy = true)
    (hslot : slotOf s i (patCmdOf s i).slot = some x) (hx : x.state = .loading) :
    ∃ t, exec (.patternLoadDone i) s = .next t ∧ (patCmdOf t i).busy = false ∧
      rBit t (Reg.INST_PAT_PAGE i + 0x18) 0 = true ∧
      ((patCmdOf t i).result = stOK → ∃ y, slotOf t i (patCmdOf s i).slot = some y ∧ y.state = .resident ∧ y.addr = x.addr) ∧
      ((patCmdOf t i).result ≠ stOK → slotOf t i (patCmdOf s i).slot = none) := by
  refine ⟨loadDoneX i s, rfl, ?_⟩
  rcases loadDoneX_cases hw hb hslot hx with ⟨u, st, d, hst, hend⟩ | ⟨u, im, hend⟩
  · rw [hend, patCmdOf_patDone, slotOf_patDone, slotOf_delSlot_self]
    exact ⟨rfl, rBit_patDone _ _ _ _, fun hok => absurd hok hst, fun _ => rfl⟩
  · rw [hend, patCmdOf_patDone, slotOf_patDone, slotOf_setSlot_self]
    exact ⟨rfl, rBit_patDone _ _ _ _, fun _ => ⟨_, rfl, rfl, rfl⟩, fun hfail => absurd rfl hfail⟩

end Sys2Proof.Machine
end

section
/-! Writes of the Cuff (Table 3.11), and the settlement of O12. -/

namespace Sys2Proof.Machine

/-! ### The checked fields -/

theorem cuffEff_share (i : Nat) (v : W32) (s : State) : cuffEff i 0x40 v s =
    if v.toNat % 2 ^ 13 ≤ 4096 then stageBits (Reg.INST_CUFF_PAGE i + 0x40) 0x1FFF v.toNat s
    else recErr (Reg.INST_CUFF_PAGE i) 4 0 s := rfl

theorem cuffEff_slots (i : Nat) (v : W32) (s : State) : cuffEff i 0x44 v s =
    if v.toNat % 2 ^ 17 = 0 ∨ 128 ≤ v.toNat % 2 ^ 17 ∧ v.toNat % 2 ^ 17 ≤ 65536
    then rSet (Reg.INST_CUFF_PAGE i + 0x44) (v.toNat % 2 ^ 17) s else recErr (Reg.INST_CUFF_PAGE i) 1 0 s := by
  simp [cuffEff]

theorem cuffEff_jobs (i : Nat) (v : W32) (s : State) : cuffEff i 0x48 v s =
    if jobsReserved s i + v.toNat % 2 ^ 15 ≤ 16384 then rSet (Reg.INST_CUFF_PAGE i + 0x48) (v.toNat % 2 ^ 15) s
    else recErr (Reg.INST_CUFF_PAGE i) 2 0 s := rfl

theorem cuffEff_digest (i : Nat) (v : W32) (s : State) : cuffEff i 0x4C v s =
    if v.toNat % 2 ^ 9 ≤ 256 then rSet (Reg.INST_CUFF_PAGE i + 0x4C) (v.toNat % 2 ^ 9) s
    else recErr (Reg.INST_CUFF_PAGE i) 4 0 s := rfl

theorem cuffEff_ledger (i : Nat) (v : W32) (s : State) : cuffEff i 0x58 v s =
    if v.toNat % 2 ^ 15 ≤ 16384 then rSet (Reg.INST_CUFF_PAGE i + 0x58) (v.toNat % 2 ^ 15) s
    else recErr (Reg.INST_CUFF_PAGE i) 4 0 s := rfl

theorem instCuffPage_aligned (i : Nat) : Reg.INST_CUFF_PAGE i % 0x1000 = 0 := by
  unfold Reg.INST_CUFF_PAGE; omega

/-- No write of the Cuff changes what was recorded of it. -/
theorem cuffEff_keeps_writeWords (i off : Nat) (v : W32) (s : State) :
    ∀ a ∈ writeWords (Reg.INST_CUFF_PAGE i), rGet (cuffEff i off v s) a = rGet s a := by
  intro a ha
  have herr := fun c => recErr_keeps_writeWords (Reg.INST_CUFF_PAGE i) c 0 s a ha
  have hset : ∀ {o : Nat} (n : Nat), 0x40 ≤ o → rGet (rSet (Reg.INST_CUFF_PAGE i + o) n s) a = rGet s a := by
    intro o n ho
    simp only [writeWords, List.mem_cons, List.not_mem_nil, or_false] at ha
    exact rGet_rSet_ne n s (by omega)
  unfold cuffEff
  dsimp only
  split
  case h_1 =>
    split
    · exact rfl
    · exact herr 4
  case h_2 =>
    split
    · exact hset _ (by decide)
    · exact herr 1
  case h_3 =>
    split
    · exact hset _ (by decide)
    · exact herr 2
  case h_4 =>
    split
    · exact hset _ (by decide)
    · exact herr 4
  case h_5 =>
    split
    · exact hset _ (by decide)
    · exact herr 4
  case h_6 => exact plainWrite_keeps_writeWords s (instCuffPage_aligned i) a ha

theorem exec_cuffWrite {w : Writer} {i off : Nat} {v : W32} {s : State} (hoff : off < 0x1000)
    (h : takes s w (Reg.INST_CUFF_PAGE i + off) = true) :
    exec (.cuffWrite w i off v) s = .next (cuffEff i off v (recordWrite w (Reg.INST_CUFF_PAGE i) s)) := by
  rw [← pageBase_add (instCuffPage_aligned i) hoff, ← acceptWrite_takes (cuffEff i off v) h]; rfl

/-- A field narrower than a word reads back as it was written. -/
theorem rGet_rSet_mod {k : Nat} (a n : Nat) (s : State) (hk : k ≤ 32) : rGet (rSet a (n % 2 ^ k) s) a = n % 2 ^ k := by
  rw [rGet_rSet_self, Nat.mod_eq_of_lt]
  exact Nat.lt_of_lt_of_le (Nat.mod_lt _ (Nat.two_pow_pos k)) (Nat.pow_le_pow_right (by decide) hk)

/-- A refused write of a register leaves its error on the page and the register as it was. -/
theorem refused_write_keeps_register {o : Nat} (w : Writer) (pg c : Nat) (s : State) (ho : 0x40 ≤ o) :
    ErrorLeft pg c 0 s (recErr pg c 0 (recordWrite w pg s)) ∧
      rGet (recErr pg c 0 (recordWrite w pg s)) (pg + o) = rGet s (pg + o) :=
  ⟨errorLeft_recErr_recordWrite w pg c 0 s,
    (rGet_recErr_register c 0 _ (by omega)).trans (rGet_recordWrite_register w s ho)⟩

/-- The JOBS values are counted alike after a write is recorded. -/
theorem jobsReserved_recordWrite (w : Writer) (i : Nat) (s : State) :
    jobsReserved (recordWrite w (Reg.INST_CUFF_PAGE i) s) i = jobsReserved s i := by
  have hjobs : ∀ j, rGet (recordWrite w (Reg.INST_CUFF_PAGE i) s) (Reg.INST_CUFF_JOBS j) = rGet s (Reg.INST_CUFF_JOBS j) :=
    fun j => onlyRegs_recordWrite w _ s _ (by
      simp only [writeWords, List.mem_cons, List.not_mem_nil, or_false, Reg.INST_CUFF_PAGE, Reg.INST_CUFF_JOBS]; omega)
  simp only [jobsReserved, rFld, hjobs]

/-- SHARE is a staged field of 13 bits. -/
theorem rowMasks_instCuffShare {i : Nat} (hi : i < numInst) : (rowMasks (Reg.INST_CUFF_PAGE i + 0x40)).st = 0x1FFF := by
  rw [rowMasks, pageOf_instCuff hi (by decide)]; rfl

theorem share_reads_back {i : Nat} (n : Nat) (s : State) (hi : i < numInst) :
    fld (shadowWord (stageBits (Reg.INST_CUFF_PAGE i + 0x40) 0x1FFF n s) (Reg.INST_CUFF_PAGE i + 0x40)) 12 0 = n % 2 ^ 13 := by
  have hmask := rowMasks_instCuffShare hi
  rw [fld_shadowWord_stageBits s (by rw [hmask]; decide) (by decide) (by rw [hmask]; decide) (by decide) (by decide)]
  simp [fld]

/-! ### Settlement -/

/-- Settles O12: the slot commands by the three effects on the command engine, the Cuff by one equation for each checked
field. -/
theorem patternAndCuffCommands : Obligations.PatternAndCuffCommands := by
  unfold Obligations.PatternAndCuffCommands
  refine ⟨⟨?load, ?busy, ?loadDone, ?retire⟩, ?cuff⟩
  case load => exact fun w i s ht _ hw hb hp hslot => load_reserves_slot ht hw hb hp hslot
  case busy => exact fun w i s ht _ hw hb => patternCommand_refused_while_busy ht hw hb
  case loadDone => exact fun i x s hw hb _ hslot hx => loadDone_settles_slot hw hb hslot hx
  case retire => exact fun w i x s ht _ hw hb hp hslot hx => retire_ends_at_once ht hw hb hp hslot hx
  case cuff =>
    intro w i off v s hi hoff ht
    have hrefused := fun c o => refused_write_keeps_register (o := o) w (Reg.INST_CUFF_PAGE i) c s
    refine ⟨_, exec_cuffWrite hoff ht, (recorded_recordWrite w _ s).of_writeWords_kept (cuffEff_keeps_writeWords i off v _),
      ?_, ?_, ?_, ?_, ?_, ?_, ?_, ?_, ?_⟩ <;> rintro rfl hx
    · rw [cuffEff_share, if_pos hx]
      exact ⟨share_reads_back _ _ hi, onlyRegs_recordWrite w _ s⟩
    · rw [cuffEff_share, if_neg (by omega)]
      exact ⟨errorLeft_recErr_recordWrite _ _ _ _ _, rfl⟩
    · rw [cuffEff_slots, if_pos hx]; exact rGet_rSet_mod _ _ _ (by decide)
    · rw [cuffEff_slots, if_neg hx]; exact hrefused 1 0x44 (by decide)
    · rw [cuffEff_jobs, jobsReserved_recordWrite, if_pos hx]; exact rGet_rSet_mod _ _ _ (by decide)
    · rw [cuffEff_jobs, jobsReserved_recordWrite, if_neg (by omega)]; exact hrefused 2 0x48 (by decide)
    · rw [cuffEff_digest, if_pos hx]; exact rGet_rSet_mod _ _ _ (by decide)
    · rw [cuffEff_digest, if_neg (by omega)]; exact hrefused 4 0x4C (by decide)
    · rw [cuffEff_ledger, if_pos hx]; exact rGet_rSet_mod _ _ _ (by decide)

end Sys2Proof.Machine
end

section
/-! The supervisor's end report, region registers and TLB invalidations (O30): what an instruction does once it begins (R69,
R176 to R178, R256). -/

namespace Sys2Proof.Machine

/-! ### The course of an instruction that begins -/

@[simp] theorem pktOf_setPkt_self (p : Nat) (x : Pocket) (s : State) : pktOf (setPkt p x s) p = x := kGet_kSet_self _ _ _ _

theorem pktOf_setPkt_ne {p q : Nat} (x : Pocket) (s : State) (h : q ≠ p) : pktOf (setPkt p x s) q = pktOf s q :=
  (kGet_kSet _ _ _ _ _).trans (if_neg (Ne.symm h))

/-- An instruction that begins runs in the state that its fetch leaves. -/
theorem perform_of_begins {row : PRow} {p : Nat} {word : W32} {s s1 : State} (f : Nat → W32 → State → State)
    (h : Begins row p word s s1) : perform row f p word s = f p word s1 := by
  obtain ⟨⟨hrun, hrow, hfetch⟩, hwait⟩ := h
  simp [perform, hrun, hrow, hfetch, hwait]

theorem superOnly_supervisor {p : Nat} {s : State} (f : State → State) (h : (pktOf s p).priv = true) :
    superOnly p s f = f s := if_pos h

/-! ### REPORT, RGLD and TLBI in supervisor mode -/

theorem reportX_supervisor {p n : Nat} {word : W32} {s : State} (hpriv : (pktOf s p).priv = true) (hlo : 1 ≤ wD word)
    (hhi : wD word ≤ 30) (htask : (pktOf s p).task = some n) :
    reportX p word s = endTask p n (reportStatus (pktOf s p) (gGet s p (wA word) % 256)) (gGet s p (wD word))
      (gGet s p (wD word + 1)) (bump2 (Reg.PKT_INSTR p) (Reg.PKT_SNAP_INSTR p) 1 s) := by
  have hd : ¬(wD word = 0 ∨ wD word = 31) := by omega
  rw [reportX, superOnly_supervisor _ hpriv]
  simp [hd, htask]

theorem rgldX_invalidate {p : Nat} {word : W32} {s : State} (hpriv : (pktOf s p).priv = true) (ha : gGet s p (wA word) = 0) :
    rgldX p word s = pDone p (setPkt p { pktOf s p with regions := kDel (pktOf s p).regions (wArg word % 8) } s) := by
  rw [rgldX, superOnly_supervisor _ hpriv]
  exact if_pos ha

theorem rgldX_load {p : Nat} {word : W32} {s s2 : State} {bs : List Byte} (hpriv : (pktOf s p).priv = true)
    (ha : gGet s p (wA word) ≠ 0) (htop : gGet s p (wA word) < 2 ^ 48)
    (hread : meshRead (pktInit s p) (gGet s p (wA word)) 32 (drainStores p s) = (s2, stOK, bs)) :
    ∃ e, rgldX p word s = pDone p (setPkt p { pktOf s2 p with regions := kSet (pktOf s2 p).regions (wArg word % 8) e } s2) ∧
      e.desc = descOf bs ∧ e.slot = gGet s2 p (wD word) % 4096 ∧
      e.inst = if (descOf bs).u then some (pktInst s2 p) else none := by
  rw [rgldX, superOnly_supervisor _ hpriv]
  dsimp only
  rw [if_neg ha, if_neg (Nat.not_le.mpr htop), hread]
  exact ⟨_, rfl, rfl, rfl, rfl⟩

theorem tlbi_supervisor {p : Nat} {s : State} (f : TlbEntry → Bool) (hpriv : (pktOf s p).priv = true) :
    tlbi p f s = pDone p (tlbDrop p f s) := superOnly_supervisor _ hpriv

theorem tlbiAllX_supervisor {p : Nat} {s : State} (hpriv : (pktOf s p).priv = true) :
    tlbiAllX p s = pDone p (setPkt p { pktOf s p with icache := [] } (tlbDrop p (fun _ => true) s)) := superOnly_supervisor _ hpriv

end Sys2Proof.Machine
end

section
/-! The long-vector gate, HALT and debug writes of a Pocket (R176, R195, Table 8.10), and the settlement of O30. -/

namespace Sys2Proof.Machine

/-! ### The long-vector gate -/

theorem lvGateX_idle {p : Nat} {s : State} (hon : (pktOf s p).lvGated = false) (hidle : rFld s (Reg.PKT_LV_IDLE p) 15 0 ≠ 0)
    (hdue : (pktOf s p).lvAt + 16 * max 64 (rFld s (Reg.PKT_LV_IDLE p) 15 0) ≤ s.cyc16) :
    lvGateX p s = setPkt p { pktOf s p with lvGated := true } s := by
  simp [lvGateX, lvIdle, hon, hidle, Nat.not_lt.mpr hdue]

/-! ### PKT_CTRL and HALT -/

theorem pktPage_aligned (p : Nat) : Reg.PKT_PAGE p % 0x1000 = 0 := by
  unfold Reg.PKT_PAGE; omega

theorem pktCtrl_eq (p : Nat) : Reg.PKT_CTRL p = Reg.PKT_PAGE p + 0x40 := Nat.add_right_comm 0x200000 0x40 _
theorem pktDbgSel_eq (p : Nat) : Reg.PKT_DBG_SEL p = Reg.PKT_PAGE p + 0x84 := Nat.add_right_comm 0x200000 0x84 _
theorem pktDbgDataHi_eq (p : Nat) : Reg.PKT_DBG_DATA_HI p = Reg.PKT_PAGE p + 0x8C := Nat.add_right_comm 0x200000 0x8C _

/-- Bits [1:0] of PKT_CTRL, HALT and VC_EN, are its RW fields. -/
theorem rowMasks_pktCtrl {p : Nat} (hp : p < 512) : (rowMasks (Reg.PKT_CTRL p)).rw = 3 := by
  rw [pktCtrl_eq, rowMasks, pageOf_pkt hp (by decide)]; rfl

/-- A bit of an RW field reads back as it was written. -/
theorem rBit_rwBits_self {a v n : Nat} (s : State) (hmask : (rowMasks a).rw < 2 ^ 32) (hn : n < 32)
    (hbit : (rowMasks a).rw.testBit n = true) : rBit (rwBits a v s) a n = bit v n := by
  rw [rBit, rGet_rwBits, if_pos rfl, bit_eq_testBit, bit_eq_testBit, Nat.testBit_mod_two_pow, testBit_mixBits hmask hn]
  simp [hn, hbit]

/-- A level of a page changes the words IRQ_STATUS and IRQ_FLAG only, and a pending bit of a masked vector. -/
theorem rGet_level {pg b a : Nat} {v : Bool} (s : State) (ha : a < 0x1000000) (hstatus : pg + 0x14 ≠ a) (hflag : pg + 0x18 ≠ a) :
    rGet (level pg b v s) a = rGet s a := by
  have hfld : rGet (rSetFld (pg + 0x14) b b (b2n v) s) a = rGet s a := by rw [rGet_rSetFld, if_neg hstatus]
  unfold level
  dsimp only
  split
  · rw [rGet_latch _ ha hflag, hfld]
  · exact hfld

theorem rBit_level_false (pg b : Nat) (s : State) (hb : b < 32) : rBit (level pg b false s) (pg + 0x14) b = false := by
  have hlevel : level pg b false s = rSetFld (pg + 0x14) b b 0 s := rfl
  rw [hlevel, rBit, rGet_rSetFld, if_pos rfl, bit_eq_fld, fld_mod hb, fld_setFld]
  simp

@[simp] theorem pktOf_haltLevel (p q : Nat) (s : State) : pktOf (haltLevel p s) q = pktOf s q := by
  rw [pktOf, haltLevel, level_pkt, pktOf]

theorem rGet_haltLevel {p o : Nat} (s : State) (hp : p < 512) (hlo : 0x20 ≤ o) (hhi : o < 0x1000) :
    rGet (haltLevel p s) (Reg.PKT_PAGE p + o) = rGet s (Reg.PKT_PAGE p + o) :=
  rGet_level s (by unfold Reg.PKT_PAGE; omega) (by omega) (by omega)

/-- A halt check leaves the Pocket as it is, or halts it. -/
theorem haltCheck_cases (p : Nat) (s : State) :
    haltCheck p s = s ∨ haltCheck p s = haltLevel p (setPkt p { pktOf s p with halted := true } s) :=
  iteInduction (motive := fun t => t = s ∨ t = haltLevel p (setPkt p { pktOf s p with halted := true } s))
    (fun _ => .inr rfl) (fun _ => .inl rfl)

/-- A Pocket that waits for nothing is halted by its HALT bit. -/
theorem haltCheck_halts {p : Nat} {s : State} (hctrl : rBit s (Reg.PKT_CTRL p) 0 = true) (hwait : (pktOf s p).wait = .none) :
    (pktOf (haltCheck p s) p).halted = true := by
  unfold haltCheck
  simp only [hctrl, hwait]
  cases hh : (pktOf s p).halted <;> simp [hh]

/-- A write of PKT_CTRL sets the register, and then leaves the Pocket or sets its halt with the HALTED level. -/
theorem pktCtrlEff_cases (p : Nat) (v : W32) (s : State) :
    pktCtrlEff p v s = rwBits (Reg.PKT_CTRL p) v.toNat s ∨
    ∃ b, pktCtrlEff p v s = haltLevel p (setPkt p { pktOf s p with halted := b } (rwBits (Reg.PKT_CTRL p) v.toNat s)) := by
  unfold pktCtrlEff
  dsimp only
  split
  · exact (haltCheck_cases p _).imp id fun h => ⟨true, h⟩
  · exact .inr ⟨false, rfl⟩

/-- Of its page's words outside the interrupt flags, a write of PKT_CTRL changes that one. -/
theorem rGet_pktCtrlEff {p o : Nat} (v : W32) (s : State) (hp : p < 512) (hlo : 0x20 ≤ o) (hhi : o < 0x1000) :
    rGet (pktCtrlEff p v s) (Reg.PKT_PAGE p + o) = rGet (rwBits (Reg.PKT_CTRL p) v.toNat s) (Reg.PKT_PAGE p + o) := by
  rcases pktCtrlEff_cases p v s with h | ⟨b, h⟩
  · rw [h]
  · rw [h, rGet_haltLevel _ hp hlo hhi, rGet_setPkt]

theorem pktCtrlEff_keeps_writeWords {p : Nat} (v : W32) (s : State) (hp : p < 512) :
    ∀ a ∈ writeWords (Reg.PKT_PAGE p), rGet (pktCtrlEff p v s) a = rGet s a := by
  intro a ha
  simp only [writeWords, List.mem_cons, List.not_mem_nil, or_false] at ha
  rcases ha with rfl | rfl
  all_goals
    rw [rGet_pktCtrlEff v s hp (by decide) (by decide), rGet_rwBits, pktCtrl_eq, if_neg (by omega)]

theorem rBit_pktCtrlEff {p n : Nat} (v : W32) (s : State) (hp : p < 512) (hn : n < 2) :
    rBit (pktCtrlEff p v s) (Reg.PKT_CTRL p) n = bit v.toNat n := by
  have hmask := rowMasks_pktCtrl hp
  have hword : rGet (pktCtrlEff p v s) (Reg.PKT_CTRL p) = rGet (rwBits (Reg.PKT_CTRL p) v.toNat s) (Reg.PKT_CTRL p) := by
    rw [pktCtrl_eq, rGet_pktCtrlEff v s hp (by decide) (by decide), pktCtrl_eq]
  rw [rBit, hword, ← rBit, rBit_rwBits_self s (by rw [hmask]; decide) (by omega)]
  rw [hmask]
  have hcases : n = 0 ∨ n = 1 := by omega
  rcases hcases with rfl | rfl <;> rfl

/-- A write of PKT_CTRL changes nothing of the Pockets but whether its own is halted. -/
theorem pktOf_pktCtrlEff (p : Nat) (v : W32) (s : State) :
    pktOf (pktCtrlEff p v s) p = { pktOf s p with halted := (pktOf (pktCtrlEff p v s) p).halted } ∧
      ∀ q, q ≠ p → pktOf (pktCtrlEff p v s) q = pktOf s q := by
  rcases pktCtrlEff_cases p v s with h | ⟨b, h⟩
  · rw [h]
    exact ⟨rfl, fun _ _ => rfl⟩
  · rw [h]
    refine ⟨?_, fun q hq => ?_⟩
    · rw [pktOf_haltLevel, pktOf_setPkt_self]
    · rw [pktOf_haltLevel, pktOf_setPkt_ne _ _ hq]; rfl

theorem pktCtrlEff_halts {p : Nat} {v : W32} {s : State} (hp : p < 512) (hset : bit v.toNat 0 = true)
    (hwait : (pktOf s p).wait = .none) : (pktOf (pktCtrlEff p v s) p).halted = true := by
  have hmask := rowMasks_pktCtrl hp
  rw [pktCtrlEff, if_pos hset]
  refine haltCheck_halts ?_ hwait
  rw [rBit_rwBits_self s (by rw [hmask]; decide) (by decide) (by rw [hmask]; rfl), hset]

theorem pktCtrlEff_resumes {p : Nat} {v : W32} {s : State} (hclear : bit v.toNat 0 = false) :
    (pktOf (pktCtrlEff p v s) p).halted = false ∧ rBit (pktCtrlEff p v s) (Reg.PKT_PAGE p + 0x14) 2 = false := by
  rw [pktCtrlEff, if_neg (by simp [hclear])]
  constructor
  · rw [pktOf_haltLevel, pktOf_setPkt_self]
  · rw [haltLevel, pktOf_setPkt_self]
    exact rBit_level_false _ _ _ (by decide)

theorem exec_pktHalt {w : Writer} {p : Nat} {v : W32} {s : State} (h : takes s w (Reg.PKT_CTRL p) = true) :
    exec (.pktHalt w p v) s = .next (pktCtrlEff p v (recordWrite w (Reg.PKT_PAGE p) s)) := by
  have hbase : pageBase (Reg.PKT_CTRL p) = Reg.PKT_PAGE p := pktCtrl_eq p ▸ pageBase_add (pktPage_aligned p) (by decide)
  rw [← hbase, ← acceptWrite_takes (pktCtrlEff p v) h]; rfl

/-! ### Debug writes -/

/-- A debug write takes the Pocket's own registers alone, so that recording it commutes with it. -/
theorem dbgHiEff_recordWrite (w : Writer) (p : Nat) (v : W32) (s : State) :
    dbgHiEff p v (recordWrite w (Reg.PKT_PAGE p) s) = recordWrite w (Reg.PKT_PAGE p) (dbgHiEff p v s) := by
  have hg : ∀ r n, gSet p r n (recordWrite w (Reg.PKT_PAGE p) s) = recordWrite w (Reg.PKT_PAGE p) (gSet p r n s) := by
    intro r n
    unfold gSet
    split <;> rfl
  have hcr : ∀ r n, crSet p r n (recordWrite w (Reg.PKT_PAGE p) s) = recordWrite w (Reg.PKT_PAGE p) (crSet p r n s) := by
    intro r n
    unfold crSet
    dsimp only
    split <;> rfl
  have hsel : rFld (recordWrite w (Reg.PKT_PAGE p) s) (Reg.PKT_DBG_SEL p) 6 0 = rFld s (Reg.PKT_DBG_SEL p) 6 0 := by
    rw [rFld, rFld, pktDbgSel_eq, rGet_recordWrite_register w s (by decide)]
  rw [dbgHiEff, dbgHiEff, pktOf_recordWrite, hsel]
  split
  · rfl
  split
  · exact hg _ _
  split
  · rfl
  · exact hcr _ _

theorem rGet_dbgHiEff (p a : Nat) (v : W32) (s : State) : rGet (dbgHiEff p v s) a = rGet s a := by
  have hkeeps : Keeps (· = .pkt) s (dbgHiEff p v s) := keeps_dbgHiEff p v s (.refl s) rfl
  have hrf : (dbgHiEff p v s).rf = s.rf := (hkeeps.only .rf).resolve_right (by decide)
  have hdev : (dbgHiEff p v s).dev = s.dev := (hkeeps.only .dev).resolve_right (by decide)
  exact rGet_congr (by rw [hrf]) (by rw [hdev]) a

theorem exec_pktDbgDataHiWrite {w : Writer} {p : Nat} {v : W32} {s : State} (h : takes s w (Reg.PKT_DBG_DATA_HI p) = true) :
    exec (.pktDbgDataHiWrite w p v) s = .next (recordWrite w (Reg.PKT_PAGE p) (dbgHiEff p v s)) := by
  have hbase : pageBase (Reg.PKT_DBG_DATA_HI p) = Reg.PKT_PAGE p :=
    pktDbgDataHi_eq p ▸ pageBase_add (pktPage_aligned p) (by decide)
  rw [← dbgHiEff_recordWrite, ← hbase, ← acceptWrite_takes (dbgHiEff p v) h]; rfl

/-! ### Settlement -/

/-- Settles O30: each instruction by what it does in supervisor mode, the halt by the two ways a write of PKT_CTRL goes, and
the debug write by its commuting with the record of the write. -/
theorem reportsTlbsHaltAndGating : Obligations.ReportsTlbsHaltAndGating := by
  unfold Obligations.ReportsTlbsHaltAndGating
  refine ⟨fun p word s s1 hpriv => ⟨?report, ?invalidate, ?load, ?all, ?ofSlot, ?ofInst⟩, ?gate, ?halt, ?debug⟩
  case report =>
    intro n hbegins hlo hhi htask
    rw [← reportX_supervisor hpriv hlo hhi htask, ← perform_of_begins reportX hbegins]; rfl
  case invalidate =>
    intro hbegins ha
    refine ⟨_, by rw [← rgldX_invalidate hpriv ha, ← perform_of_begins rgldX hbegins]; rfl, ?_⟩
    rw [pktOf_setPkt_self]
    exact ⟨(kFind_kDel _ _ _).trans (if_pos rfl), fun j hj => (kFind_kDel _ _ _).trans (if_neg (Ne.symm hj))⟩
  case load =>
    intro bs s2 hbegins ha htop hread
    obtain ⟨e, hload, hdesc, hslot, hinst⟩ := rgldX_load hpriv ha htop hread
    refine ⟨_, e, by rw [← hload, ← perform_of_begins rgldX hbegins]; rfl, ?_, hdesc, hslot, hinst⟩
    rw [pktOf_setPkt_self, kFind_kSet_self]
  case all =>
    intro hbegins
    rw [← tlbiAllX_supervisor hpriv, ← perform_of_begins (fun p _ s => tlbiAllX p s) hbegins]; rfl
  case ofSlot =>
    intro hbegins
    rw [← tlbi_supervisor _ hpriv]
    exact congrArg _ (perform_of_begins _ hbegins)
  case ofInst =>
    intro hbegins
    rw [← tlbi_supervisor _ hpriv]
    exact congrArg _ (perform_of_begins _ hbegins)
  case gate => exact fun p s hon hidle hdue => congrArg _ (lvGateX_idle hon hidle hdue)
  case halt =>
    intro w p v s ht hp
    obtain ⟨hown, hothers⟩ := pktOf_pktCtrlEff p v (recordWrite w (Reg.PKT_PAGE p) s)
    exact ⟨_, exec_pktHalt ht, (recorded_recordWrite w _ s).of_writeWords_kept (pktCtrlEff_keeps_writeWords v _ hp),
      fun hset hwait => pktCtrlEff_halts hp hset hwait, fun hclear => pktCtrlEff_resumes hclear,
      rBit_pktCtrlEff v _ hp (by decide), rBit_pktCtrlEff v _ hp (by decide), hown, hothers⟩
  case debug =>
    intro w p v s ht hp
    refine ⟨_, dbgHiEff p v s, exec_pktDbgDataHiWrite ht, ?_, rfl, ?_, ?_, ?_, ?_⟩
    · rw [← dbgHiEff_recordWrite]
      exact (recorded_recordWrite w _ s).of_writeWords_kept fun a _ => rGet_dbgHiEff p a v _
    · intro hrun
      simp [dbgHiEff, hrun]
    · intro hhalt hsel
      simp [dbgHiEff, hhalt, hsel]
    · intro hhalt hlo hhi
      simp [dbgHiEff, hhalt, hhi, Nat.not_lt.mpr hlo]
    · intro hhalt hsel
      have hlo : ¬rFld s (Reg.PKT_DBG_SEL p) 6 0 < 32 := by omega
      simp [dbgHiEff, hhalt, hlo, Nat.not_lt.mpr hsel]

end Sys2Proof.Machine
end

section
/-! The entries of the Match Array: what a change of one entry leaves, the listed entries as a table, and what accesses to
memory leave of the array (R155, R156, R254). -/

namespace Sys2Proof.Machine

/-! ### Tables in canonical form -/

theorem mem_of_kFind {α : Type} {m : KMap α} {n : Nat} {a : α} (h : kFind m n = some a) : (n, a) ∈ m := by
  induction m with
  | nil => simp at h
  | cons p m ih =>
    obtain ⟨k, v⟩ := p
    simp only [kFind] at h
    split at h
    · next hk =>
      rw [← hk, Option.some.inj h]
      exact List.mem_cons_self
    · exact List.mem_cons_of_mem _ (ih h)

theorem mem_iff_kFind {α : Type} {m : KMap α} (hm : rising m) (n : Nat) (a : α) : (n, a) ∈ m ↔ kFind m n = some a := by
  refine ⟨fun h => ?_, mem_of_kFind⟩
  induction m with
  | nil => simp at h
  | cons p m ih =>
    obtain ⟨k, v⟩ := p
    obtain ⟨hfirst, hrest⟩ := List.pairwise_cons.mp hm
    rcases List.mem_cons.mp h with heq | hmem
    · obtain ⟨rfl, rfl⟩ := Prod.mk.inj heq
      exact if_pos rfl
    · have hlt : k < n := hfirst _ hmem
      rw [kFind, if_neg (Nat.ne_of_lt hlt)]
      exact ih hrest hmem

/-- A change of each value at its key is seen at each key. -/
theorem kFind_map {α : Type} (m : KMap α) (g : Nat → α → α) (n : Nat) :
    kFind (m.map fun p => (p.1, g p.1 p.2)) n = (kFind m n).map (g n) := by
  induction m with
  | nil => rfl
  | cons p m ih =>
    simp only [List.map_cons, kFind, ih]
    split
    · next hk => rw [hk]; rfl
    · rfl

/-- Leaving out what equals the default changes no lookup. -/
theorem kGet_filter_ne_default {α : Type} [DecidableEq α] (d : α) {m : KMap α} (hm : rising m) (n : Nat) :
    kGet d (m.filter fun p => p.2 ≠ d) n = kGet d m n := by
  have hfilter : rising (m.filter fun p => p.2 ≠ d) := hm.filter _
  unfold kGet
  cases hfind : kFind m n with
  | some a =>
    by_cases ha : a = d
    · have hnone : kFind (m.filter fun p => p.2 ≠ d) n = none := by
        refine Option.eq_none_iff_forall_ne_some.mpr fun b hb => ?_
        obtain ⟨hmem, hne⟩ := List.mem_filter.mp (mem_of_kFind hb)
        obtain rfl : a = b := Option.some.inj (hfind.symm.trans ((mem_iff_kFind hm n b).mp hmem))
        simp [ha] at hne
      rw [hnone, ha]; rfl
    · rw [(mem_iff_kFind hfilter n a).mp (List.mem_filter.mpr ⟨mem_of_kFind hfind, by simpa using ha⟩)]
  | none =>
    refine congrArg (·.getD d) (Option.eq_none_iff_forall_ne_some.mpr fun b hb => ?_)
    have := (mem_iff_kFind hm n b).mp (List.mem_filter.mp (mem_of_kFind hb)).1
    simp [hfind] at this

/-! ### Entries -/

theorem entryOf_of_ma {s t : State} (h : t.ma.entries = s.ma.entries) (f : Nat) : entryOf t f = entryOf s f := by
  rw [entryOf, entryOf, h]

theorem entryOf_setEntry (e : Nat) (x : MaEntry) (s : State) (f : Nat) :
    entryOf (setEntry e x s) f = if e = f then x else entryOf s f := kGet_kPut _ _ _ _ _

@[simp] theorem maRunOf_setMaRun_self (i : Nat) (x : MaRun) (s : State) : maRunOf (setMaRun i x s) i = some x :=
  kFind_kSet_self _ _ _

@[simp] theorem suspectLevel_ma (s : State) : (suspectLevel s).ma = s.ma := level_ma s _ _ _

/-- A command that ends gives up its place among the running ones, and nothing else of the array changes. -/
@[simp] theorem maEnd_ma (i : Nat) (x : MaRun) (st oc : Nat) (s : State) :
    (maEnd i x st oc s).ma = { s.ma with runs := kDel s.ma.runs i } := by
  simp [maEnd, setMa]

/-! ### What an access leaves of the array

A walk into device space ends jobs, and with them what their Pockets asked of the array (R254). -/

/-- The array without its waiting requests and responses. -/
def arrayOf (s : State) : MaSt := { s.ma with waiting := [], resp := [] }

theorem arrayOf_of_ma {s t : State} (h : t.ma = s.ma) : arrayOf t = arrayOf s := by rw [arrayOf, arrayOf, h]

/-- What leaves the array out of `Keeps` leaves it as it is. -/
theorem ma_of_keeps {s t : State}
    (h : ∀ L : Comp → Prop, L .freeCtr → L .rf → L .seam → L .sched → L .pat → L .rings → L .xl → L .hmc → L .cxt →
      L .mem → L .portA → L .portB → L .i3c → L .dev → L .pkt → L .out → Keeps L s t) : t.ma = s.ma := by
  have hkeeps : Keeps (· ≠ .ma) s t := by apply h <;> decide
  exact (hkeeps.only .ma).resolve_right fun hne => hne rfl

@[simp] theorem arrayOf_cleanAll (p : Nat) (s : State) : arrayOf (cleanAll p s) = arrayOf s :=
  arrayOf_of_ma (ma_of_keeps (by intros; exact keeps_cleanAll p s (.refl s)))
@[simp] theorem arrayOf_missAll (j : Nat) (s : State) : arrayOf (missAll j s) = arrayOf s :=
  arrayOf_of_ma (ma_of_keeps (by intros; exact keeps_missAll j s (.refl s)))
@[simp] theorem arrayOf_settleJob (j : Nat) (s : State) : arrayOf (settleJob j s) = arrayOf s :=
  arrayOf_of_ma (ma_of_keeps (by intros; exact keeps_settleJob j s (.refl s)))
@[simp] theorem arrayOf_tlbFill (t : Nat) (e : TlbEntry) (s : State) : arrayOf (tlbFill t e s) = arrayOf s :=
  arrayOf_of_ma (ma_of_keeps (by intros; exact keeps_tlbFill t e s (.refl s)))
@[simp] theorem arrayOf_meshRead (i : Initiator) (a n : Nat) (s : State) : arrayOf (meshRead i a n s).1 = arrayOf s :=
  arrayOf_of_ma (ma_of_keeps (by intros; exact keeps_meshRead i a n s (.refl s)))
@[simp] theorem arrayOf_meshWrite (i : Initiator) (a : Nat) (bs : List Byte) (s : State) : arrayOf (meshWrite i a bs s).1
    = arrayOf s :=
  arrayOf_of_ma (ma_of_keeps (by intros; exact keeps_meshWrite i a bs s (.refl s)))
@[simp] theorem arrayOf_memSwap (i : Initiator) (a n old new : Nat) (s : State) : arrayOf (memSwap i a n old new s).1
    = arrayOf s :=
  arrayOf_of_ma (ma_of_keeps (by intros; exact keeps_memSwap i a n old new s (.refl s)))
@[simp] theorem arrayOf_tlbDrop (t : Nat) (f : TlbEntry → Bool) (s : State) : arrayOf (tlbDrop t f s) = arrayOf s := rfl
@[simp] theorem arrayOf_bump (a n : Nat) (s : State) : arrayOf (bump a n s) = arrayOf s := rfl
@[simp] theorem arrayOf_dropMatch (p : Nat) (s : State) : arrayOf (dropMatch p s) = arrayOf s := rfl
@[simp] theorem arrayOf_setPkt (p : Nat) (x : Pocket) (s : State) : arrayOf (setPkt p x s) = arrayOf s := rfl
@[simp] theorem arrayOf_setTask (n : Nat) (x : TaskRec) (s : State) : arrayOf (setTask n x s) = arrayOf s := rfl
@[simp] theorem arrayOf_setJob (j : Nat) (x : JobRec) (s : State) : arrayOf (setJob j x s) = arrayOf s := rfl
@[simp] theorem arrayOf_deadCmds (j serial : Nat) (s : State) : arrayOf (deadCmds j serial s) = arrayOf s := rfl

/-- A fold keeps what each of its steps keeps. -/
theorem arrayOf_foldl {α β : Type} (st : β → State) (l : List α) (f : β → α → β)
    (h : ∀ b a, arrayOf (st (f b a)) = arrayOf (st b)) (b : β) : arrayOf (st (l.foldl f b)) = arrayOf (st b) := by
  induction l generalizing b with
  | nil => rfl
  | cons a l ih => exact (ih _).trans (h b a)

@[simp] theorem arrayOf_freePocket (p : Nat) (s : State) : arrayOf (freePocket p s) = arrayOf s := by
  simp [freePocket]

@[simp] theorem arrayOf_retireTask (n : Nat) (s : State) : arrayOf (retireTask n s) = arrayOf s := by
  unfold retireTask
  dsimp only
  split <;> simp

@[simp] theorem arrayOf_endJob (j st : Nat) (s : State) : arrayOf (endJob j st s) = arrayOf s := by
  have hretire : ∀ l : KMap TaskRec, ∀ u, arrayOf (l.foldl (fun t p => retireTask p.1 t) u) = arrayOf u :=
    fun l => arrayOf_foldl id l _ fun _ _ => arrayOf_retireTask _ _
  unfold endJob endJobIn
  split
  · rfl
  split
  · rfl
  · dsimp only
    rw [arrayOf_settleJob, hretire]
    split <;> split <;> simp

@[simp] theorem arrayOf_stopInstance (i a : Nat) (s : State) : arrayOf (stopInstance i a s) = arrayOf s := by
  have hend : ∀ l : KMap JobRec, ∀ u, arrayOf (l.foldl (fun t p => endJob p.1 stWalkDevice t) u) = arrayOf u :=
    fun l => arrayOf_foldl id l _ fun _ _ => arrayOf_endJob _ _ _
  exact (hend _ _).trans (arrayOf_of_ma (pulse_ma _ _ _))

@[simp] theorem arrayOf_walk (ini : Initiator) (i slot : Nat) (pocket : Bool) (acc : Acc) (s : State) :
    arrayOf (walk ini i slot pocket acc s).1 = arrayOf s := by
  unfold walk
  extract_lets a u none_ reads
  clear_value reads
  dsimp only
  split
  · simp [u]
  repeat' split
  all_goals simp [u]

@[simp] theorem arrayOf_setDirty (t i slot : Nat) (pocket : Bool) (acc : Acc) (e : Desc) (s : State) :
    arrayOf (setDirty t i slot pocket acc e s).1 = arrayOf s := by
  unfold setDirty
  extract_lets ini put
  have hput : ∀ d u, arrayOf (put d u).1 = arrayOf u := by
    intro d u
    dsimp only [put]
    repeat' split
    all_goals simp
  clear_value put
  dsimp only
  repeat' split
  all_goals simp [hput]

@[simp] theorem arrayOf_translateTlb (t i va : Nat) (pocket : Bool) (acc : Acc) (s : State) :
    arrayOf (translateTlb t i va pocket acc s).1 = arrayOf s := by
  unfold translateTlb
  dsimp only
  repeat' split
  all_goals simp

@[simp] theorem arrayOf_translate (t i va : Nat) (acc : Acc) (s : State) : arrayOf (translate t i va acc s).1 = arrayOf s := by
  unfold translate
  dsimp only
  split <;> simp

@[simp] theorem arrayOf_vWrite (t i va : Nat) (bs : List Byte) (s : State) : arrayOf (vWrite t i va bs s).1 = arrayOf s := by
  unfold vWrite
  refine arrayOf_foldl Prod.fst _ _ (fun r p => ?_) _
  dsimp only
  split
  · rfl
  · split <;> simp

end Sys2Proof.Machine
end

section
/-! The update engine and the scrub (R161, R162, R167): what one array operation and one scrubbed entry leave, and the
settlement of O21. -/

namespace Sys2Proof.Machine

/-! ### The course of ARRAY_OPERATION -/

/-- A fold whose every step leaves the start as it is ends there. -/
theorem foldl_eq_self_of_fixed {α β : Type} {f : β → α → β} {l : List α} {b : β} (h : ∀ a ∈ l, f b a = b) :
    l.foldl f b = b := by
  induction l with
  | nil => rfl
  | cons a l ih =>
    rw [List.foldl_cons, h a List.mem_cons_self]
    exact ih fun c hc => h c (List.mem_cons_of_mem _ hc)

/-- With every command started, none waits for MA.EN. -/
theorem startWaiting_of_started {s : State} (h : ∀ p, p ∈ s.ma.runs → p.2.started = true) : startWaiting s = s := by
  have hfold : s.ma.runs.foldl
      (fun t p => if p.2.started || stagePending t (Reg.INST_MA_PAGE p.1) then t else maStart p.1 p.2 t) s = s := by
    refine foldl_eq_self_of_fixed fun p hp => ?_
    rw [h p hp, Bool.true_or]
    exact if_pos rfl
  unfold startWaiting
  split
  · rfl
  · exact hfold

theorem arrayOperation_serves {i : Nat} {x : MaRun} {s : State} (hc : clocked s = true) (hturn : maTurn s = some i)
    (hstarted : ∀ p, p ∈ s.ma.runs → p.2.started = true) (hrun : maRunOf s i = some x) (hops : x.ops ≠ []) :
    arrayOperation s = serveRun i x s := by
  simp [arrayOperation, hc, startWaiting_of_started hstarted, hturn, hrun, hops]

/-- A command with nothing left to fetch ends. -/
theorem maRefill_ma_of_done {i : Nat} {y : MaRun} (s : State)
    (h : y.op < 5 ∨ y.done = if y.op = 7 then y.size else y.count) :
    (maRefill i y s).ma = { s.ma with runs := kDel s.ma.runs i } := by
  unfold maRefill
  dsimp only
  split
  case h_1 hop => rw [if_pos (by simpa [hop] using h), maEnd_ma]
  case h_2 hop => rw [if_pos (by simpa [hop] using h), maEnd_ma]
  case h_3 hop => rw [if_pos (by simpa [hop] using h), maEnd_ma]
  case h_4 => rw [maEnd_ma]; rfl
  case h_5 => rw [maEnd_ma]

/-- The state in which the engine takes an operation of a command: the turn is its page's. -/
def turnTo (i : Nat) (s : State) : State := setMa { s.ma with last := i } s

@[simp] theorem entryOf_turnTo (i : Nat) (s : State) (f : Nat) : entryOf (turnTo i s) f = entryOf s f := rfl

/-- What follows an operation: a command with nothing left ends. -/
def endIfDone (i : Nat) (u : State) : State :=
  match maRunOf u i with
  | some y => if y.ops = [] && (y.op < 5 || y.done = (if y.op = 7 then y.size else y.count)) then maRefill i y u else u
  | none => u

theorem serveRun_cons {i : Nat} {x : MaRun} {o : MaOp} {r : List MaOp} (s : State) (hops : x.ops = o :: r) :
    serveRun i x s = endIfDone i (suspectLevel (maOp i { x with ops := r } o (turnTo i s))) := by
  simp only [serveRun, hops]
  rfl

/-- The end of a command changes nothing of the array but the commands that run. -/
theorem endIfDone_ma (i : Nat) (u : State) : ∃ runs, (endIfDone i u).ma = { u.ma with runs := runs } := by
  unfold endIfDone
  split
  · next y _ =>
    by_cases hdone : y.ops = [] ∧ (y.op < 5 ∨ y.done = if y.op = 7 then y.size else y.count)
    · rw [if_pos (by simpa using hdone), maRefill_ma_of_done _ hdone.2]
      exact ⟨_, rfl⟩
    · rw [if_neg (by simpa using hdone)]
      exact ⟨_, rfl⟩
  · exact ⟨_, rfl⟩

/-- Serving a command leaves the array as its operation does, but for the commands that run. -/
theorem serveRun_ma {i : Nat} {x : MaRun} {o : MaOp} {r : List MaOp} (s : State) (hops : x.ops = o :: r) :
    ∃ runs, (serveRun i x s).ma = { (maOp i { x with ops := r } o (turnTo i s)).ma with runs := runs } := by
  obtain ⟨runs, hma⟩ := endIfDone_ma i (suspectLevel (maOp i { x with ops := r } o (turnTo i s)))
  exact ⟨runs, by rw [serveRun_cons s hops, hma, suspectLevel_ma]⟩

/-! ### One operation -/

/-- One entry is changed by `g`, and no other is. -/
def ChangesEntry (e : Nat) (g : MaEntry → MaEntry) (s t : State) : Prop :=
  entryOf t e = g (entryOf s e) ∧ ∀ f, f ≠ e → entryOf t f = entryOf s f

theorem changesEntry_setEntry (e : Nat) (g : MaEntry → MaEntry) (s : State) :
    ChangesEntry e g s (setEntry e (g (entryOf s e)) s) :=
  ⟨by rw [entryOf_setEntry, if_pos rfl], fun f hf => by rw [entryOf_setEntry, if_neg (Ne.symm hf)]⟩

/-- What else an operation of one entry writes is no entry. -/
theorem ChangesEntry.setMaRun_bump {e : Nat} {g : MaEntry → MaEntry} {s : State} (i : Nat) (x : MaRun) (a n : Nat) :
    ChangesEntry e g s (setMaRun i x (setEntry e (g (entryOf s e)) (bump a n s))) := changesEntry_setEntry e g s

theorem maOp_inval (i : Nat) (x : MaRun) (e : Nat) (s : State) :
    ChangesEntry e (fun y => { y with valid := false }) s (maOp i x (.inval e) s) := .setMaRun_bump i x _ _

theorem maOp_valid (i : Nat) (x : MaRun) (e : Nat) (s : State) :
    ChangesEntry e (fun y => { y with valid := true }) s (maOp i x (.valid e) s) := .setMaRun_bump i x _ _

theorem maOp_data (i : Nat) (x : MaRun) (e v : Nat) (sus : Option Bool) (s : State) :
    ChangesEntry e (fun y => withSus sus (putData v y)) s (maOp i x (.data e v sus) s) := .setMaRun_bump i x _ _

theorem maOp_keyMask (i : Nat) (x : MaRun) (e k m : Nat) (sus : Option Bool) (s : State) :
    ChangesEntry e (fun y => withSus sus (putKm k m y)) s (maOp i x (.keyMask e k m sus) s) := .setMaRun_bump i x _ _

@[simp] theorem withSus_key (sus : Option Bool) (y : MaEntry) : (withSus sus y).key = y.key := by cases sus <;> rfl
@[simp] theorem withSus_mask (sus : Option Bool) (y : MaEntry) : (withSus sus y).mask = y.mask := by cases sus <;> rfl
@[simp] theorem withSus_data (sus : Option Bool) (y : MaEntry) : (withSus sus y).data = y.data := by cases sus <;> rfl
@[simp] theorem withSus_valid (sus : Option Bool) (y : MaEntry) : (withSus sus y).valid = y.valid := by cases sus <;> rfl

/-- What a CLEAR of `n` entries from `e` makes of the entry at `f`. -/
def clearedAt (e n f : Nat) (y : MaEntry) : MaEntry :=
  if e ≤ f ∧ f < e + n then { y with valid := false, suspect := false } else y

theorem maOp_clear_entries (i : Nat) (x : MaRun) (e n : Nat) (s : State) : (maOp i x (.clear e n) s).ma.entries
    = (s.ma.entries.map fun p => (p.1, clearedAt e n p.1 p.2)).filter fun p => p.2 ≠ {} := by
  refine congrArg (List.filter _) (List.map_congr_left fun p _ => ?_)
  simp only [clearedAt, Bool.and_eq_true, decide_eq_true_eq]
  split <;> rfl

theorem entryOf_maOp_clear (i : Nat) (x : MaRun) (e n : Nat) {s : State} (hm : rising s.ma.entries) (f : Nat) :
    entryOf (maOp i x (.clear e n) s) f = clearedAt e n f (entryOf s f) := by
  have hdefault : clearedAt e n f {} = {} := by unfold clearedAt; split <;> rfl
  have hcleared : rising (s.ma.entries.map fun p => (p.1, clearedAt e n p.1 p.2)) := List.pairwise_map.mpr hm
  rw [entryOf, maOp_clear_entries, kGet_filter_ne_default _ hcleared, kGet, kFind_map, entryOf, kGet]
  cases kFind s.ma.entries f with
  | none => exact hdefault.symm
  | some y => rfl

/-- No operation changes whose turn the engine remembers, a DUMP's memory access included. -/
theorem maOp_last (i : Nat) (x : MaRun) (o : MaOp) (s : State) : (maOp i x o s).ma.last = s.ma.last := by
  cases o with
  | dump e =>
    have hwrite : ∀ t va bs u, (vWrite t i va bs u).1.ma.last = u.ma.last :=
      fun t va bs u => (congrArg MaSt.last (arrayOf_vWrite t i va bs u) :)
    simp only [maOp]
    split
    · rw [maEnd_ma]; exact hwrite _ _ _ _
    · exact hwrite _ _ _ _
  | _ => rfl

/-- What the engine leaves after one operation: whose turn it was, and the entries as the operation leaves them. -/
theorem arrayOperation_effect {i : Nat} {o : MaOp} {r : List MaOp} {x : MaRun} {s : State} (hc : clocked s = true)
    (hturn : maTurn s = some i) (hstarted : ∀ p, p ∈ s.ma.runs → p.2.started = true) (hrun : maRunOf s i = some x)
    (hops : x.ops = o :: r) :
    (arrayOperation s).ma.last = i ∧
      ∃ y, ∀ f, entryOf (arrayOperation s) f = entryOf (maOp i y o (turnTo i s)) f := by
  rw [arrayOperation_serves hc hturn hstarted hrun (by simp [hops])]
  obtain ⟨runs, hma⟩ := serveRun_ma (i := i) s hops
  exact ⟨by rw [hma, maOp_last]; rfl, _, entryOf_of_ma (by rw [hma])⟩

/-! ### The scrub -/

/-- The state after the scrub has moved on from an entry. -/
def scrubMoved (s : State) : State :=
  let t := setMa { s.ma with scrub := (s.ma.scrub + 1) % 262144 } s
  if s.ma.scrub + 1 = 262144 then bump Reg.MA_SCRUB_PASSES 1 t else t

theorem scrubMoved_ma (s : State) : (scrubMoved s).ma = { s.ma with scrub := (s.ma.scrub + 1) % 262144 } := by
  unfold scrubMoved
  split <;> rfl

@[simp] theorem entryOf_scrubMoved (s : State) (f : Nat) : entryOf (scrubMoved s) f = entryOf s f :=
  entryOf_of_ma (by rw [scrubMoved_ma]) f

theorem rGet_scrubMoved {a : Nat} (s : State) (ha : Reg.MA_SCRUB_PASSES ≠ a) : rGet (scrubMoved s) a = rGet s a := by
  unfold scrubMoved
  split
  · exact rGet_rSet_ne _ _ ha
  · rfl

/-- The report of an entry whose parity is bad (R167). -/
def scrubReport (e : Nat) (s : State) : State :=
  corrected (suspectLevel (recErr Reg.MA_PAGE 2 e (setEntry e { entryOf s e with suspect := true } s)))

theorem maScrub_eq {s : State} (h : scrubs s = true) : maScrub s =
    if (entryOf s s.ma.scrub).parityOk then scrubMoved s else scrubReport s.ma.scrub (scrubMoved s) := by
  rw [← entryOf_scrubMoved s s.ma.scrub]
  simp only [maScrub, h, scrubMoved, scrubReport]
  rfl

theorem scrubReport_ma (e : Nat) (s : State) :
    (scrubReport e s).ma = (setEntry e { entryOf s e with suspect := true } s).ma := by
  simp [scrubReport]

theorem changesEntry_scrubReport (e : Nat) (s : State) :
    ChangesEntry e (fun y => { y with suspect := true }) s (scrubReport e s) := by
  have hentry := fun f => entryOf_of_ma (congrArg MaSt.entries (scrubReport_ma e s)) f
  obtain ⟨hself, hothers⟩ := changesEntry_setEntry e (fun y => { y with suspect := true }) s
  exact ⟨(hentry e).trans hself, fun f hf => (hentry f).trans (hothers f hf)⟩

/-- The level of SUSPECT changes IRQ_STATUS and IRQ_FLAG of the MA page. -/
theorem rGet_suspectLevel {a : Nat} (s : State) (ha : a < 0x1000000) (hstatus : a ≠ 0x3014) (hflag : a ≠ 0x3018) :
    rGet (suspectLevel s) a = rGet s a :=
  rGet_level s ha (Ne.symm hstatus) (Ne.symm hflag)

theorem rGet_corrected (s : State) (a : Nat) :
    rGet (corrected s) a = if Reg.DEV_CE = a then (rGet s a + 1) % 2 ^ 32 else rGet s a := by
  unfold corrected
  rw [rGet_bump]
  split
  · next h => rw [← h]; rfl
  · rfl

theorem scrubReport_errCode (e : Nat) (s : State) : rGet (scrubReport e s) (Reg.MA_PAGE + 0x20) = 2 := by
  rw [scrubReport, rGet_corrected, if_neg (by decide), rGet_suspectLevel _ (by decide) (by decide) (by decide), rGet_recErr]
  rfl

theorem scrubReport_corrected (e : Nat) (s : State) :
    rGet (scrubReport e s) Reg.DEV_CE = (rGet s Reg.DEV_CE + 1) % 2 ^ 32 := by
  rw [scrubReport, rGet_corrected, if_pos rfl, rGet_suspectLevel _ (by decide) (by decide) (by decide), rGet_recErr]
  rfl

/-! ### Settlement -/

/-- Settles O21: each operation by the change of its entry, a CLEAR by what it makes of each listed entry, the scrub by its
report. -/
theorem arrayOperations : Obligations.ArrayOperations := by
  unfold Obligations.ArrayOperations
  refine ⟨?operation, ?scrub⟩
  case operation =>
    intro i e o r x s hc hturn hstarted hrun hops
    obtain ⟨hlast, y, hentry⟩ := arrayOperation_effect hc hturn hstarted hrun hops
    refine ⟨arrayOperation s, rfl, hlast, ?inval, ?valid, ?data, ?keyMask, ?clear⟩
    all_goals simp only [hentry]
    case inval =>
      rintro rfl
      obtain ⟨hself, hothers⟩ := maOp_inval i y e (turnTo i s)
      exact ⟨by rw [hself], hothers⟩
    case valid =>
      rintro rfl
      exact maOp_valid i y e (turnTo i s)
    case data =>
      rintro v sus rfl
      obtain ⟨hself, hothers⟩ := maOp_data i y e v sus (turnTo i s)
      exact ⟨by rw [hself, withSus_data]; rfl, by rw [hself, withSus_valid]; rfl, hothers⟩
    case keyMask =>
      rintro k m sus rfl
      obtain ⟨hself, hothers⟩ := maOp_keyMask i y e k m sus (turnTo i s)
      exact ⟨by rw [hself, withSus_key]; rfl, by rw [hself, withSus_mask]; rfl, by rw [hself, withSus_valid]; rfl, hothers⟩
    case clear =>
      rintro k rfl hm f
      rw [entryOf_maOp_clear i y e k (s := turnTo i s) hm f, entryOf_turnTo, clearedAt]
      split
      · exact ⟨rfl, rfl⟩
      · rfl
  case scrub =>
    intro s hs
    refine ⟨maScrub s, rfl, ?_⟩
    rw [maScrub_eq hs]
    by_cases hgood : (entryOf s s.ma.scrub).parityOk = true
    · rw [if_pos hgood]
      exact ⟨by rw [scrubMoved_ma], fun f _ => entryOf_scrubMoved s f, fun _ => entryOf_scrubMoved s _,
        fun hbad => absurd hgood (by simp [hbad])⟩
    · rw [if_neg hgood]
      obtain ⟨hself, hothers⟩ := changesEntry_scrubReport s.ma.scrub (scrubMoved s)
      refine ⟨by rw [scrubReport_ma]; exact congrArg MaSt.scrub (scrubMoved_ma s),
        fun f hf => (hothers f hf).trans (entryOf_scrubMoved s f), fun h => absurd h hgood,
        fun _ => ⟨by rw [hself], scrubReport_errCode _ _, ?_⟩⟩
      rw [scrubReport_corrected, rGet_scrubMoved s (by decide)]

end Sys2Proof.Machine
end

section
/-! Lookups (R157, R159): the search over the matching entries in rising order answers the first whose read-back is good, and
the settlement of O19. -/

namespace Sys2Proof.Machine

/-! ### Suppression -/

@[simp] theorem suppress_ma (e : Nat) (s : State) :
    (suppress e s).ma = (setEntry e { entryOf s e with suspect := true } s).ma := by
  simp [suppress]

theorem entryOf_suppress_ne {e f : Nat} (s : State) (h : f ≠ e) : entryOf (suppress e s) f = entryOf s f := by
  rw [entryOf_of_ma (congrArg MaSt.entries (suppress_ma e s)), entryOf_setEntry, if_neg (Ne.symm h)]

/-! ### The search -/

/-- A search with a winner ends: only MULTI depends on what is left. -/
theorem searchFrom_won (wb key w : Nat) (es : List Nat) (susp : Bool) (s : State) :
    searchFrom wb key es (some w) susp s
      = (s, { status := stOK, hit := true, index := w - wb, data := (entryOf s w).data, multi := !es.isEmpty, susp := susp }) := by
  cases es <;> rfl

/-- An entry wins the search. -/
def Wins (wb key : Nat) (es : List Nat) (s : State) (a : MaAnswer) (e : Nat) : Prop :=
  e ∈ es ∧ readbackOk (entryOf s e) key = true ∧ (∀ f ∈ es, readbackOk (entryOf s f) key = true → e ≤ f) ∧
    a.index = e - wb ∧ a.data = (entryOf s e).data

/-- The search over rising entries hits where a read-back is good, and the lowest such entry wins; what earlier suppressions
have changed lies below. -/
theorem searchFrom_answers_lowest (wb key : Nat) {es : List Nat} (hes : es.Pairwise (· < ·)) (susp : Bool) {s t : State}
    (ht : ∀ e ∈ es, entryOf t e = entryOf s e) :
    let a := (searchFrom wb key es none susp t).2
    a.status = stOK ∧ (a.hit = true → ∃ e, Wins wb key es s a e) ∧
      (a.hit = false → ∀ e ∈ es, ¬readbackOk (entryOf s e) key = true) := by
  induction es generalizing susp t with
  | nil => exact ⟨rfl, fun h => Bool.noConfusion h, fun _ e he => by simp at he⟩
  | cons e r ih =>
    obtain ⟨hlow, hr⟩ := List.pairwise_cons.mp hes
    have hte : entryOf t e = entryOf s e := ht e List.mem_cons_self
    by_cases hgood : readbackOk (entryOf s e) key = true
    · have hstep : searchFrom wb key (e :: r) none susp t = searchFrom wb key r (some e) susp t := by
        simp [searchFrom, hte, hgood]
      rw [hstep, searchFrom_won]
      refine ⟨rfl, fun _ => ⟨e, List.mem_cons_self, hgood, fun f hf _ => ?_, rfl, by rw [hte]⟩,
        fun h => Bool.noConfusion h⟩
      rcases List.mem_cons.mp hf with rfl | hf
      · exact Nat.le_refl _
      · exact Nat.le_of_lt (hlow f hf)
    · have hstep : searchFrom wb key (e :: r) none susp t = searchFrom wb key r none true (suppress e t) := by
        simp [searchFrom, hte, hgood]
      rw [hstep]
      obtain ⟨hstatus, hhit, hmiss⟩ := ih hr true (t := suppress e t) fun f hf =>
        (entryOf_suppress_ne t (Nat.ne_of_gt (hlow f hf))).trans (ht f (List.mem_cons_of_mem _ hf))
      refine ⟨hstatus, fun h => ?_, fun h => ?_⟩
      · obtain ⟨w, hw, hwgood, hwlow, hwindex, hwdata⟩ := hhit h
        exact ⟨w, List.mem_cons_of_mem _ hw, hwgood, fun f hf hfgood => (List.mem_cons.mp hf).elim
          (fun heq => absurd (heq ▸ hfgood) hgood) (fun hf => hwlow f hf hfgood), hwindex, hwdata⟩
      · exact List.forall_mem_cons.mpr ⟨hgood, hmiss h⟩

/-! ### The entries that match -/

/-- The entries of a range that match a key, as `maAnswer` lists them. -/
def matchesIn (s : State) (lo hi key : Nat) : List Nat :=
  (s.ma.entries.filter fun p => lo ≤ p.1 && p.1 < hi && rawMatch p.2 key).map (·.1)

theorem matchesIn_rising {s : State} (hm : rising s.ma.entries) (lo hi key : Nat) :
    (matchesIn s lo hi key).Pairwise (· < ·) :=
  List.pairwise_map.mpr (hm.filter _)

/-- An entry that the array does not list is invalid, so that it matches no key. -/
theorem mem_matchesIn {s : State} (hm : rising s.ma.entries) {lo hi key e : Nat} :
    e ∈ matchesIn s lo hi key ↔ lo ≤ e ∧ e < hi ∧ rawMatch (entryOf s e) key = true := by
  have hlisted : ∀ x, (e, x) ∈ s.ma.entries ↔ kFind s.ma.entries e = some x := mem_iff_kFind hm e
  simp only [matchesIn, List.mem_map, List.mem_filter, Bool.and_eq_true, decide_eq_true_eq, entryOf, kGet]
  constructor
  · rintro ⟨⟨_, x⟩, ⟨hmem, ⟨hlo, hhi⟩, hmatch⟩, rfl⟩
    exact ⟨hlo, hhi, by rw [(mem_iff_kFind hm _ x).mp hmem]; exact hmatch⟩
  · rintro ⟨hlo, hhi, hmatch⟩
    cases hfind : kFind s.ma.entries e with
    | none => rw [hfind] at hmatch; exact Bool.noConfusion hmatch
    | some x =>
      rw [hfind] at hmatch
      exact ⟨(e, x), ⟨(hlisted x).mpr hfind, ⟨hlo, hhi⟩, hmatch⟩, rfl⟩

/-- A lookup in a good scope searches the matching entries of its range. -/
theorem maAnswer_lookup {q : MaReq} {s : State} (hop : reqOp q = 1) (hsize : reqSize q ≠ 0)
    (hscope : reqLo q + reqSize q ≤ maSize s q.inst) :
    maAnswer q s = searchFrom (maBase s q.inst) (reqKey q)
      (matchesIn s (maBase s q.inst + reqLo q) (maBase s q.inst + (reqLo q + reqSize q)) (reqKey q)) none false s := by
  have hstop : ¬reqLo q + reqSize q < reqLo q := Nat.not_lt.mpr (Nat.le_add_right _ _)
  simp [maAnswer, matchesIn, hop, hsize, Nat.not_lt.mpr hscope, hstop]

/-! ### Settlement -/

/-- Settles O19: the search answers the lowest good entry of those that match, and no unlisted entry matches. -/
theorem lookupAnswersTheLowestMatch : Obligations.LookupAnswersTheLowestMatch := by
  unfold Obligations.LookupAnswersTheLowestMatch
  intro q s hm hop hsize hscope
  have hmem := fun e => mem_matchesIn hm (lo := maBase s q.inst + reqLo q) (hi := maBase s q.inst + (reqLo q + reqSize q))
    (key := reqKey q) (e := e)
  obtain ⟨hstatus, hhit, hmiss⟩ := searchFrom_answers_lowest (maBase s q.inst) (reqKey q)
    (matchesIn_rising hm (maBase s q.inst + reqLo q) (maBase s q.inst + (reqLo q + reqSize q)) (reqKey q)) false (fun _ _ => rfl)
  rw [← maAnswer_lookup hop hsize hscope] at hstatus hhit hmiss
  simp only [Nat.add_assoc]
  refine ⟨hstatus, fun h => ?_, fun h e he => ?_⟩
  · obtain ⟨e, hin, hgood, hlow, hindex, hdata⟩ := hhit h
    obtain ⟨hlo, hhi, hmatch⟩ := (hmem e).mp hin
    exact ⟨e, ⟨hlo, hhi, hmatch, hgood⟩, hindex, hdata,
      fun f ⟨hflo, hfhi, hfmatch, hfgood⟩ => hlow f ((hmem f).mpr ⟨hflo, hfhi, hfmatch⟩) hfgood⟩
  · obtain ⟨hlo, hhi, hmatch, hgood⟩ := he
    exact hmiss h e ((hmem e).mpr ⟨hlo, hhi, hmatch⟩) hgood

end Sys2Proof.Machine
end

section
/-! The lookup ports (R157, R160): what a port leaves when it takes a request. -/

namespace Sys2Proof.Machine

/-! ### What a search leaves -/

/-- A search keeps what each suppression keeps. -/
theorem searchFrom_keeps {P : State → Prop} (h : ∀ e u, P u → P (suppress e u)) (wb key : Nat) (es : List Nat)
    (win : Option Nat) (susp : Bool) {s : State} (hs : P s) : P (searchFrom wb key es win susp s).1 := by
  induction es generalizing win susp s with
  | nil => exact hs
  | cons e r ih =>
    cases win with
    | some w => exact hs
    | none =>
      simp only [searchFrom]
      split
      · exact ih _ _ hs
      · exact ih _ _ (h e s hs)

theorem maAnswer_keeps {P : State → Prop} (h : ∀ e u, P u → P (suppress e u)) (q : MaReq) {s : State} (hs : P s) :
    P (maAnswer q s).1 := by
  unfold maAnswer
  extract_lets wb op lo stop start
  clear_value start
  split
  · exact hs
  split
  · exact hs
  split
  · exact hs
  · exact searchFrom_keeps h _ _ _ _ _ hs

/-- A suppression counts in other registers of the MA page than the requests. -/
theorem suppress_lookups (e : Nat) (s : State) : rGet (suppress e s) Reg.MA_LOOKUPS = rGet s Reg.MA_LOOKUPS := by
  unfold suppress pulse
  rw [rGet_corrected, if_neg (by decide), rGet_suspectLevel _ (by decide) (by decide) (by decide),
    rGet_latch _ (by decide) (by decide), rGet_recErr]
  exact rGet_rSet_ne _ _ (by decide)

theorem maAnswer_waiting (q : MaReq) (s : State) : (maAnswer q s).1.ma.waiting = s.ma.waiting :=
  maAnswer_keeps (P := fun u => u.ma.waiting = s.ma.waiting) (fun e u hu => by rw [suppress_ma]; exact hu) q rfl

theorem maAnswer_lookups (q : MaReq) (s : State) : rGet (maAnswer q s).1 Reg.MA_LOOKUPS = rGet s Reg.MA_LOOKUPS :=
  maAnswer_keeps (P := fun u => rGet u Reg.MA_LOOKUPS = rGet s Reg.MA_LOOKUPS)
    (fun e u hu => (suppress_lookups e u).trans hu) q rfl

/-! ### A port takes a request -/

/-- A port has taken a request: held ones enter, and it is counted. -/
def requestTaken (q : MaReq) (s : State) : State :=
  bumpFrame Reg.MA_SNAP_WAIT (s.now - q.at_) (bump2 Reg.MA_LOOKUPS Reg.MA_SNAP_LOOKUPS 1
    (setMa { s.ma with waiting := enterPlaces [] (s.ma.waiting.erase q) } s))

/-- The counts of an answer with HIT and with MULTI. -/
def answerCounted (a : MaAnswer) (s : State) : State :=
  let t := if a.hit then bump Reg.MA_HITS 1 s else s
  if a.multi then bump Reg.MA_MULTI 1 t else t

theorem answerCounted_ma (a : MaAnswer) (s : State) : (answerCounted a s).ma = s.ma := by
  unfold answerCounted
  dsimp only
  split <;> split <;> rfl

theorem answerCounted_lookups (a : MaAnswer) (s : State) :
    rGet (answerCounted a s) Reg.MA_LOOKUPS = rGet s Reg.MA_LOOKUPS := by
  have hother : ∀ a u, a ≠ Reg.MA_LOOKUPS → rGet (bump a 1 u) Reg.MA_LOOKUPS = rGet u Reg.MA_LOOKUPS :=
    fun a u ha => rGet_rSet_ne _ u ha
  have hhits := fun u => hother Reg.MA_HITS u (by decide)
  have hmulti := fun u => hother Reg.MA_MULTI u (by decide)
  unfold answerCounted
  dsimp only
  split <;> split <;> simp only [hhits, hmulti]

/-- A response goes to its Pocket. -/
def answerSent (p : Nat) (bs : List Byte) (s : State) : State := setMa { s.ma with resp := kSet s.ma.resp p bs } s

theorem answerNext_taken {ops : List Nat} {q : MaReq} {s : State} (hc : clocked s = true)
    (hq : portTakes s.ma.waiting = some q) (hp : q.pocket ≠ 0xFFFF) (hop : reqOp q ∈ ops) :
    answerNext ops s = answerSent q.pocket (answerBytes (maAnswer q (requestTaken q s)).2)
      (answerCounted (maAnswer q (requestTaken q s)).2 (maAnswer q (requestTaken q s)).1) := by
  simp only [answerNext, hq]
  rw [if_neg (by simp [hc, hop]), if_neg hp]
  rfl

theorem answerNext_answers {ops : List Nat} {q : MaReq} {s : State} (hc : clocked s = true)
    (hq : portTakes s.ma.waiting = some q) (hp : q.pocket ≠ 0xFFFF) (hop : reqOp q ∈ ops) :
    (answerNext ops s).ma.waiting = enterPlaces [] (s.ma.waiting.erase q) ∧
      kFind (answerNext ops s).ma.resp q.pocket = some (answerBytes (maAnswer q (requestTaken q s)).2) ∧
      rGet (answerNext ops s) Reg.MA_LOOKUPS = (rGet s Reg.MA_LOOKUPS + 1) % 2 ^ 32 := by
  rw [answerNext_taken hc hq hp hop]
  refine ⟨?_, kFind_kSet_self _ _ _, ?_⟩
  · exact (congrArg MaSt.waiting (answerCounted_ma _ _)).trans (maAnswer_waiting q _)
  · exact (answerCounted_lookups _ _).trans ((maAnswer_lookups q _).trans (rGet_rSet_self _ _ _))

end Sys2Proof.Machine
end

section
/-! INST_MA commands (R161 to R165): the record that a command takes, its checks, the operations that each kind starts with,
and the settlement of O20. -/

namespace Sys2Proof.Machine

/-! ### How a command starts -/

/-- A write of INST_MA_CMD starts a command: the page exists and the write acts, the array is clocked and enabled, no command
runs, and no staged field is pending. -/
structure CommandStarts (w : Writer) (i : Nat) (s : State) : Prop where
  exists_page : i < numInst
  acts : takes s w (Reg.INST_MA_CMD i) = true
  clocked : clocked s = true
  idle : maRunOf s i = none
  committed : stagePending s (Reg.INST_MA_PAGE i) = false
  enabled : pageEn s Reg.MA_PAGE = true

/-- Five words of KEY or MASK. -/
def wideWord (s : State) (a : Nat → Nat) : Nat := (List.range 5).foldl (fun n k => n + rGet s (a k) * 2 ^ (32 * k)) 0

/-- The fields that a command takes at its start. -/
def commandOf (i op : Nat) (s : State) : MaRun :=
  { op := op, started := false, pos := rFld s (Reg.INST_MA_POS i) 17 0, lo := rFld s (Reg.INST_MA_RANGE_LO i) 17 0,
    size := rFld s (Reg.INST_MA_RANGE_SIZE i) 18 0, count := rFld s (Reg.INST_MA_COUNT i) 18 0,
    addr := rGet s (Reg.INST_MA_ADDR_LO i) + 2 ^ 32 * rFld s (Reg.INST_MA_ADDR_HI i) 15 0,
    holes := rBit s (Reg.INST_MA_FLAGS i) 0, spacing := rFld s (Reg.INST_MA_FLAGS i) 13 1,
    key := wideWord s (Reg.INST_MA_KEY i), mask := wideWord s (Reg.INST_MA_MASK i), data := rGet s (Reg.INST_MA_DATA i) }

/-- The state in which a command's start is checked: the write is recorded, and the page is BUSY. -/
def commandHeld (w : Writer) (i op : Nat) (s : State) : State :=
  setMaRun i (commandOf i op s) (rSetFld (Reg.INST_MA_STATUS i) 0 0 1 (recordWrite w (Reg.INST_MA_PAGE i) s))

/-- The registers below the INST pages are as they were. -/
theorem rGet_commandHeld {a : Nat} (w : Writer) (i op : Nat) (s : State) (ha : a < 0x1000000) :
    rGet (commandHeld w i op s) a = rGet s a := by
  have hrecord : a ∉ writeWords (Reg.INST_MA_PAGE i) := by
    simp only [writeWords, List.mem_cons, List.not_mem_nil, or_false, Reg.INST_MA_PAGE, instBase]; omega
  have hstatus : Reg.INST_MA_STATUS i ≠ a := by simp only [Reg.INST_MA_STATUS, instBase]; omega
  exact (rGet_rSet_ne _ _ hstatus).trans (onlyRegs_recordWrite w _ s a hrecord)

/-- The fields of a command are no header words, so that the write's record changes none. -/
theorem commandOf_recordWrite (w : Writer) (i op : Nat) (s : State) :
    commandOf i op (recordWrite w (Reg.INST_MA_PAGE i) s) = commandOf i op s := by
  have hfield : ∀ a, 0x4040 ≤ a → rGet (recordWrite w (Reg.INST_MA_PAGE i) s) (instBase i + a) = rGet s (instBase i + a) := by
    intro a ha
    obtain ⟨o, rfl⟩ := Nat.exists_eq_add_of_le (show 0x4000 ≤ a by omega)
    rw [← Nat.add_assoc]
    exact rGet_recordWrite_register (pg := Reg.INST_MA_PAGE i) w s (by omega)
  have hwide : ∀ b, 0x4040 ≤ b → wideWord (recordWrite w (Reg.INST_MA_PAGE i) s) (fun k => instBase i + b + 0x4 * k)
      = wideWord s (fun k => instBase i + b + 0x4 * k) := by
    intro b hb
    simp only [wideWord, Nat.add_assoc, hfield _ (Nat.le_add_right_of_le hb)]
  simp only [commandOf, rFld, rBit, hfield, Nat.reduceLeDiff, hwide]

theorem pageBase_instMaCmd (i : Nat) : pageBase (Reg.INST_MA_CMD i) = Reg.INST_MA_PAGE i := by
  refine pageBase_add (o := 0x40) ?_ (by decide)
  unfold instBase; omega

/-- A command that is written to an idle page is held there, and starts where the array is enabled. -/
theorem maCmdEff_idle {i op : Nat} {s : State} (hop : op ≠ 0) (hc : clocked s = true) (hidle : maRunOf s i = none)
    (hp : stagePending s (Reg.INST_MA_PAGE i) = false) :
    maCmdEff i op s =
      (let t := setMaRun i (commandOf i op s) (rSetFld (Reg.INST_MA_STATUS i) 0 0 1 s)
       if pageEn t Reg.MA_PAGE then maStart i (commandOf i op s) t else t) := by
  unfold maCmdEff
  dsimp only
  rw [if_neg (by simp [hop, hc]), if_neg (by simp [hidle]), if_neg (by simp [hp])]
  rfl

/-- A write that starts a command comes to the command's checks with the fields in effect. -/
theorem maCommand_starts {w : Writer} {i op : Nat} {s : State} (h : CommandStarts w i s) (hop : op ≠ 0) :
    maCommand w i op s = maStart i (commandOf i op s) (commandHeld w i op s) := by
  have hen : pageEn (commandHeld w i op s) Reg.MA_PAGE = true :=
    (congrArg (bit · 0) (rGet_commandHeld w i op s (by decide))).trans h.enabled
  rw [maCommand, acceptWrite_takes _ h.acts, pageBase_instMaCmd,
    maCmdEff_idle (s := recordWrite w (Reg.INST_MA_PAGE i) s) hop h.clocked h.idle h.committed, commandOf_recordWrite]
  exact if_pos hen

/-! The checks of a command read the window, which the write of INST_MA_CMD leaves as it was. -/

theorem maBase_commandHeld {w : Writer} {i : Nat} {s : State} (op : Nat) (h : CommandStarts w i s) :
    maBase (commandHeld w i op s) i = maBase s i := by
  have hcuff : Reg.INST_CUFF_MA_BASE i < 0x1000000 := by
    have := h.exists_page
    simp only [numInst, Reg.INST_CUFF_MA_BASE] at this ⊢; omega
  exact congrArg (fld · 17 0) (rGet_commandHeld w i op s hcuff)

theorem maSize_commandHeld {w : Writer} {i : Nat} {s : State} (op : Nat) (h : CommandStarts w i s) :
    maSize (commandHeld w i op s) i = maSize s i := by
  have hcuff : Reg.INST_CUFF_MA_SIZE i < 0x1000000 := by
    have := h.exists_page
    simp only [numInst, Reg.INST_CUFF_MA_SIZE] at this ⊢; omega
  exact congrArg (fld · 18 0) (rGet_commandHeld w i op s hcuff)

theorem maCheck_commandHeld {w : Writer} {i : Nat} {s : State} (op : Nat) (x : MaRun) (h : CommandStarts w i s) :
    maCheck (commandHeld w i op s) i x = maCheck s i x := by
  simp only [maCheck, maSize_commandHeld op h]

/-! ### The checks (R163) -/

/-- INVALIDATE, WRITE and VALIDATE take an index of the window. -/
theorem maCheck_index {s : State} {i : Nat} {x : MaRun} (hop : x.op = 1 ∨ x.op = 2 ∨ x.op = 3) :
    maCheck s i x = if maSize s i ≤ x.pos then stQuota else stOK := by
  rcases hop with hop | hop | hop <;> simp [maCheck, hop]

theorem maCheck_insert {s : State} {i : Nat} {x : MaRun} (hop : x.op = 4) (hlo : x.lo ≤ x.pos) (hhi : x.pos < x.lo + x.size)
    (hpos : x.pos < maSize s i) (hrange : x.lo + x.size ≤ maSize s i) : maCheck s i x = stOK := by
  have hsize : 1 ≤ x.size := by omega
  simp [maCheck, hop, hrange, hsize, Nat.not_le.mpr hpos, Nat.not_lt.mpr hlo, Nat.not_le.mpr hhi]

/-- The indices that a LOAD needs, holes included (R164). -/
def imagesOf (x : MaRun) : Nat := if x.holes then x.count + (x.count - 1) / (x.spacing - 1) else x.count

theorem maCheck_load {s : State} {i : Nat} {x : MaRun} (hop : x.op = 5) (hsize : 1 ≤ x.size)
    (hrange : x.lo + x.size ≤ maSize s i) (hmin : 2 ≤ x.spacing) (hmax : x.spacing ≤ 4096)
    (himages : imagesOf x ≤ x.size) : maCheck s i x = stOK := by
  have hfit : ¬x.size < imagesOf x := Nat.not_lt.mpr himages
  unfold imagesOf at hfit
  simp [maCheck, hop, hrange, hsize, Nat.not_lt.mpr hmin, Nat.not_lt.mpr hmax, hfit]

theorem maCheck_dump {s : State} {i : Nat} {x : MaRun} (hop : x.op = 6) (hcount : 1 ≤ x.count)
    (hrange : x.lo + x.count ≤ maSize s i) : maCheck s i x = stOK := by
  simp [maCheck, hop, hrange, hcount]

theorem maCheck_clear {s : State} {i : Nat} {x : MaRun} (hop : x.op = 7) (hsize : 1 ≤ x.size)
    (hrange : x.lo + x.size ≤ maSize s i) : maCheck s i x = stOK := by
  simp [maCheck, hop, hrange, hsize]

/-! ### The first operations of each kind -/

theorem maStart_refused {s : State} {i : Nat} {x : MaRun} (h : maCheck s i x ≠ stOK) :
    maStart i x s = maEnd i { x with started := true } (maCheck s i x) 0 s := by
  simp only [maStart, if_pos h]

theorem maStart_invalidate {s : State} {i : Nat} {x : MaRun} (h : maCheck s i x = stOK) (hop : x.op = 1) :
    maStart i x s = setMaRun i { x with started := true, ops := [.inval (maBase s i + x.pos)] } s := by
  simp [maStart, h, hop]

theorem maStart_validate {s : State} {i : Nat} {x : MaRun} (h : maCheck s i x = stOK) (hop : x.op = 3) :
    maStart i x s = setMaRun i { x with started := true, ops := [.valid (maBase s i + x.pos)] } s := by
  simp [maStart, h, hop]

/-- What a WRITE reports before its operations: LIVE, and for a live write its count and its pulse (R162). -/
def liveReported (i : Nat) (live : Bool) (s : State) : State :=
  let t := rSetFld (Reg.INST_MA_STATUS i) 18 18 (b2n live) s
  if live then pulse Reg.MA_PAGE 1 (bump Reg.MA_LIVE_WRITE 1 t) else t

theorem maStart_write {s : State} {i : Nat} {x : MaRun} (h : maCheck s i x = stOK) (hop : x.op = 2) :
    let e := maBase s i + x.pos
    let u := liveReported i (entryOf s e).valid s
    maStart i x s = setMaRun i { x with started := true, ops := writeOps e x ((takeFree u).1 % 2 = 1) } (takeFree u).2 := by
  simp only [maStart, h, hop]
  rfl

/-- The moves of an INSERT at `p` whose nearest invalid entry is `h`, and the index at which the new entry lands (R165). -/
def insertMoves (p h : Nat) : List (Nat × Nat) :=
  if p ≤ h then (List.range (h - p)).map fun d => (h - 1 - d, h - d)
  else (List.range (p - 1 - h)).map fun d => (h + 1 + d, h + d)

def insertLands (p h : Nat) : Nat := if p ≤ h then p else p - 1

theorem insertMoves_length (p h : Nat) : (insertMoves p h).length = if p ≤ h then h - p else p - 1 - h := by
  unfold insertMoves
  split <;> simp

/-- An INSERT with its moves, and then the writes and the validate of the new entry. -/
def insertRun (wb h : Nat) (x : MaRun) : MaRun :=
  let e := wb + insertLands x.pos h
  { x with
    ops := ((insertMoves x.pos h).flatMap fun m => moveOps (wb + m.1) (wb + m.2))
      ++ [.data e x.data none, .keyMask e x.key x.mask none, .valid e]
    done := (insertMoves x.pos h).length, next := insertLands x.pos h }

theorem insertRun_getLast (wb h : Nat) (x : MaRun) :
    (insertRun wb h x).ops.getLast? = some (.valid (wb + (insertRun wb h x).next)) := by
  simp [insertRun]

theorem maStart_insert {s : State} {i k : Nat} {x : MaRun} (h : maCheck s i x = stOK) (hop : x.op = 4)
    (hnear : nearestInvalid s (maBase s i) x.lo x.size x.pos = some k) :
    maStart i x s = setMaRun i (insertRun (maBase s i) k { x with started := true }) s := by
  simp only [maStart, h, hop, hnear]
  rfl

/-- LOAD, DUMP and CLEAR fetch their first operations when their turn comes. -/
theorem maStart_fetching {s : State} {i : Nat} {x : MaRun} (h : maCheck s i x = stOK) (hop : 5 ≤ x.op) :
    maStart i x s = setMaRun i { x with started := true, next := x.lo } s := by
  unfold maStart
  dsimp only
  rw [if_neg (not_not_intro h)]
  split
  case h_5 => rfl
  all_goals omega

/-! ### The command written -/

section

variable {w : Writer} {i : Nat} {s : State}

/-- The operation that a command of one index starts with. -/
theorem maCommand_invalidate (h : CommandStarts w i s) (hcheck : maCheck s i (commandOf i 1 s) = stOK) :
    maCommand w i 1 s
      = setMaRun i { commandOf i 1 s with started := true, ops := [.inval (maBase s i + rFld s (Reg.INST_MA_POS i) 17 0)] }
        (commandHeld w i 1 s) := by
  rw [maCommand_starts h (by decide), maStart_invalidate ((maCheck_commandHeld 1 _ h).trans hcheck) rfl, maBase_commandHeld 1 h]
  rfl

theorem maCommand_validate (h : CommandStarts w i s) (hcheck : maCheck s i (commandOf i 3 s) = stOK) :
    maCommand w i 3 s
      = setMaRun i { commandOf i 3 s with started := true, ops := [.valid (maBase s i + rFld s (Reg.INST_MA_POS i) 17 0)] }
        (commandHeld w i 3 s) := by
  rw [maCommand_starts h (by decide), maStart_validate ((maCheck_commandHeld 3 _ h).trans hcheck) rfl, maBase_commandHeld 3 h]
  rfl

theorem maCommand_write (h : CommandStarts w i s) (hcheck : maCheck s i (commandOf i 2 s) = stOK) :
    let e := maBase s i + rFld s (Reg.INST_MA_POS i) 17 0
    let u := liveReported i (entryOf s e).valid (commandHeld w i 2 s)
    maCommand w i 2 s = setMaRun i { commandOf i 2 s with
      started := true, ops := writeOps e (commandOf i 2 s) ((takeFree u).1 % 2 = 1) } (takeFree u).2 := by
  rw [maCommand_starts h (by decide), maStart_write ((maCheck_commandHeld 2 _ h).trans hcheck) rfl, maBase_commandHeld 2 h]
  rfl

theorem maCommand_insert {k : Nat} (h : CommandStarts w i s) (hcheck : maCheck s i (commandOf i 4 s) = stOK)
    (hnear : nearestInvalid s (maBase s i) (rFld s (Reg.INST_MA_RANGE_LO i) 17 0) (rFld s (Reg.INST_MA_RANGE_SIZE i) 18 0)
      (rFld s (Reg.INST_MA_POS i) 17 0) = some k) :
    maCommand w i 4 s
      = setMaRun i (insertRun (maBase s i) k { commandOf i 4 s with started := true }) (commandHeld w i 4 s) := by
  rw [maCommand_starts h (by decide), maStart_insert (k := k) ((maCheck_commandHeld 4 _ h).trans hcheck) rfl
    (by rw [maBase_commandHeld 4 h]; exact hnear), maBase_commandHeld 4 h]

theorem maCommand_fetching {op : Nat} (h : CommandStarts w i s) (hop : 5 ≤ op)
    (hcheck : maCheck s i (commandOf i op s) = stOK) :
    maCommand w i op s
      = setMaRun i { commandOf i op s with started := true, next := (commandOf i op s).lo } (commandHeld w i op s) := by
  rw [maCommand_starts h (by omega), maStart_fetching ((maCheck_commandHeld op _ h).trans hcheck) hop]

theorem maCommand_refused {op : Nat} (h : CommandStarts w i s) (hop : op ≠ 0)
    (hcheck : maCheck s i (commandOf i op s) ≠ stOK) :
    maCommand w i op s
      = maEnd i { commandOf i op s with started := true } (maCheck s i (commandOf i op s)) 0 (commandHeld w i op s) := by
  rw [← maCheck_commandHeld op _ h] at hcheck ⊢
  rw [maCommand_starts h hop, maStart_refused hcheck]

end

/-! ### INST_MA_STATUS and the flag DONE -/

theorem rGet_latch_of_low {pg m a : Nat} (s : State) (ha : a % 0x10000 < 0x7000) (h : pg + 0x18 ≠ a) :
    rGet (latch pg m s) a = rGet s a := by
  unfold latch withSignal
  dsimp only
  split
  · split
    · rw [rGet_sendMsix_of_low _ ha, rGet_rSet_ne _ _ h]
    · exact rGet_rSet_ne _ _ h
  · exact rGet_rSet_ne _ _ h

theorem instMaPage_low {i o : Nat} (ho : o < 0x1000) : (Reg.INST_MA_PAGE i + o) % 0x10000 < 0x7000 := by
  simp only [Reg.INST_MA_PAGE, instBase]; omega

theorem rBit_rSetFld_self {a n : Nat} (b : Bool) (s : State) (hn : n < 32) : rBit (rSetFld a n n (b2n b) s) a n = b := by
  rw [rBit, rGet_rSetFld, if_pos rfl, bit_eq_fld, fld_mod hn, fld_setFld, Nat.add_sub_cancel_left]
  cases b <;> rfl

/-- Bit 0 set or cleared leaves the fields above it. -/
theorem fld_setFld_bit_zero (w v hi k : Nat) : fld (setFld w 0 0 v) hi (k + 1) = fld w hi (k + 1) := by
  have hhalf : setFld w 0 0 v / 2 = w / 2 := by simp only [setFld]; omega
  rw [fld, fld, Nat.pow_succ', ← Nat.div_div_eq_div_mul, ← Nat.div_div_eq_div_mul, hhalf]

/-- A WRITE reports whether its entry was valid. -/
theorem liveReported_live (i : Nat) (live : Bool) (s : State) :
    rBit (liveReported i live s) (Reg.INST_MA_STATUS i) 18 = live := by
  have hset := rBit_rSetFld_self (a := Reg.INST_MA_STATUS i) (n := 18) live s (by decide)
  unfold liveReported
  dsimp only
  split
  · have hflag : Reg.MA_PAGE + 0x18 ≠ Reg.INST_MA_STATUS i := by simp only [Reg.MA_PAGE, Reg.INST_MA_STATUS, instBase]; omega
    have hcount : Reg.MA_LIVE_WRITE ≠ Reg.INST_MA_STATUS i := by
      simp only [Reg.MA_LIVE_WRITE, Reg.INST_MA_STATUS, instBase]; omega
    rw [rBit, pulse, rGet_latch_of_low _ (instMaPage_low (i := i) (o := 0x8C) (by decide)) hflag, bump, rGet_rSet_ne _ _ hcount]
    exact hset
  · exact hset

/-- The word that a command's end leaves in INST_MA_STATUS. -/
theorem maEnd_status (i : Nat) (x : MaRun) (st oc : Nat) (s : State) :
    rGet (maEnd i x st oc s) (Reg.INST_MA_STATUS i) =
      setFld (rGet (rSetFld (Reg.INST_MA_STATUS i) 15 8 st (rSetFld (Reg.INST_MA_STATUS i) 17 16 oc s)) (Reg.INST_MA_STATUS i))
        0 0 0 % 2 ^ 32 := by
  have hflag : Reg.INST_MA_PAGE i + 0x18 ≠ Reg.INST_MA_STATUS i := by simp only [Reg.INST_MA_PAGE, Reg.INST_MA_STATUS]; omega
  have hdone : Reg.INST_MA_COUNT_DONE i ≠ Reg.INST_MA_STATUS i := by
    simp only [Reg.INST_MA_COUNT_DONE, Reg.INST_MA_STATUS]; omega
  unfold maEnd pulse
  rw [rGet_latch_of_low _ (instMaPage_low (i := i) (o := 0x8C) (by decide)) hflag, rGet_rSet_ne _ _ hdone]
  exact rGet_rSet_self _ _ _

/-- A command that ends leaves its status in RESULT, BUSY clear and the flag DONE set. -/
theorem maEnd_reports {st : Nat} (i : Nat) (x : MaRun) (oc : Nat) (s : State) (hst : st < 2 ^ 8) :
    rFld (maEnd i x st oc s) (Reg.INST_MA_STATUS i) 15 8 = st ∧ rBit (maEnd i x st oc s) (Reg.INST_MA_STATUS i) 0 = false ∧
      rBit (maEnd i x st oc s) (Reg.INST_MA_PAGE i + 0x18) 0 = true := by
  refine ⟨?_, ?_, rBit_pulse_zero _ (instMaPage_low (by decide))⟩
  · rw [rFld, maEnd_status, fld_mod (by decide), fld_setFld_bit_zero _ _ _ 7, rGet_rSetFld, if_pos rfl, fld_mod (by decide),
      fld_setFld]
    exact Nat.mod_eq_of_lt hst
  · rw [rBit, maEnd_status, bit_eq_fld, fld_mod (by decide), fld_setFld]
    rfl

/-! ### Settlement -/

/-- Settles O20: a port's answer by the counts and the response that it leaves, each command by its check and the operations
that its kind starts with. -/
theorem lookupsAndArrayCommands : Obligations.LookupsAndArrayCommands := by
  unfold Obligations.LookupsAndArrayCommands
  refine ⟨?ports, ?commands⟩
  case ports =>
    intro q s hc hq hp
    exact ⟨fun hop => ⟨_, rfl, answerNext_answers hc hq hp (by simp [hop])⟩,
      fun hop => ⟨_, rfl, answerNext_answers hc hq hp (by simp [hop])⟩⟩
  case commands =>
    intro w i s hacts hi hc hidle hcommitted henabled pos lo size count holes spacing images e ws
    have h : CommandStarts w i s := ⟨hi, hacts, hc, hidle, hcommitted, henabled⟩
    have hindex : ∀ op, (op = 1 ∨ op = 2 ∨ op = 3) → pos < ws → maCheck s i (commandOf i op s) = stOK :=
      fun op hop hpos => (maCheck_index hop).trans (if_neg (Nat.not_le.mpr hpos))
    refine ⟨?invalidate, ?write, ?validate, ?insert, ?load, ?dump, ?clear, ?quota⟩
    case invalidate =>
      exact fun hpos => ⟨_, _, congrArg Host.Outcome.next (maCommand_invalidate h (hindex 1 (by decide) hpos)),
        maRunOf_setMaRun_self _ _ _, rfl, rfl⟩
    case write =>
      intro hpos
      refine ⟨_, _, congrArg Host.Outcome.next (maCommand_write h (hindex 2 (by decide) hpos)),
        maRunOf_setMaRun_self _ _ _, rfl, ?_, rfl, liveReported_live i _ _⟩
      rw [writeOps]
      split
      · exact .inl rfl
      · exact .inr rfl
    case validate =>
      exact fun hpos => ⟨_, _, congrArg Host.Outcome.next (maCommand_validate h (hindex 3 (by decide) hpos)),
        maRunOf_setMaRun_self _ _ _, rfl, rfl⟩
    case insert =>
      exact fun k hlo hhi hpos hrange hnear =>
        ⟨_, _, congrArg Host.Outcome.next (maCommand_insert h (maCheck_insert rfl hlo hhi hpos hrange) hnear),
          maRunOf_setMaRun_self _ _ _, rfl, rfl, insertMoves_length _ _, insertRun_getLast _ _ _⟩
    case load =>
      exact fun hone hrange hmin hmax himages =>
        ⟨_, _, congrArg Host.Outcome.next (maCommand_fetching h (by decide) (maCheck_load rfl hone hrange hmin hmax himages)),
          maRunOf_setMaRun_self _ _ _, rfl, rfl, rfl, rfl⟩
    case dump =>
      exact fun hone hrange =>
        ⟨_, _, congrArg Host.Outcome.next (maCommand_fetching h (by decide) (maCheck_dump rfl hone hrange)),
          maRunOf_setMaRun_self _ _ _, rfl, rfl, rfl⟩
    case clear =>
      exact fun hone hrange =>
        ⟨_, _, congrArg Host.Outcome.next (maCommand_fetching h (by decide) (maCheck_clear rfl hone hrange)),
          maRunOf_setMaRun_self _ _ _, rfl, rfl, rfl⟩
    case quota =>
      intro hpos
      have hcheck : maCheck s i (commandOf i 3 s) = stQuota := (maCheck_index (.inr (.inr rfl))).trans (if_pos hpos)
      refine ⟨_, congrArg Host.Outcome.next (maCommand_refused h (by decide) (by rw [hcheck]; decide)), ?_, ?_, ?_⟩
      · rw [maRunOf, maEnd_ma]
        exact (kFind_kDel _ _ _).trans (if_pos rfl)
      · rw [maEnd_ma]; rfl
      · rw [hcheck]
        exact maEnd_reports i _ 0 _ (by decide)

end Sys2Proof.Machine
end
